-- ==== Sys2Proof/Word.lean ====
section
/-! DEFINITION. The word types of the Q192-A. -/

namespace Sys2Proof

/-- A 64-bit word: a scalar register, a program counter, a virtual address. -/
abbrev Word := BitVec 64

/-- One lane of a vector register (Table 3-1). -/
abbrev Lane32 := BitVec 32

/-- The unit of memory (R5). -/
abbrev Byte := BitVec 8

/-- A set of lanes: bit l is lane l (R9). -/
abbrev Mask := BitVec 32

end Sys2Proof
end

