-- ==== Sys2Proof/Syntax.lean ====
section
/-! DEFINITION. The instructions of the Tabyen architecture and the device's own steps: one constructor of
`Instr` for each row of the opcode table. Operands are typed; raw fields stay in Decode.lean. -/

namespace Sys2Proof

/-- The TYPE codes 0x0 to 0xC of Table 2-6. -/
inductive Ty where
  | u8 | s8 | u16 | s16 | u32 | s32 | u64 | s64 | f16 | bf16 | f32 | f64 | b128
  deriving DecidableEq, Repr

/-- The rounding modes of Table 4-2. -/
inductive Rm where
  | rne | rtz | rup | rdn
  deriving DecidableEq, Repr

/-- The conditions of `icmp` and `fcmp` (Table 2-9); `icmp` has the first six. -/
inductive Cond where
  | eq | ne | lt | le | gt | ge | ord | uno
  deriving DecidableEq, Repr

/-- The memory spaces of Table 2-7. -/
inductive Space where
  | g | s | rs
  deriving DecidableEq, Repr

/-- The access widths of Table 2-7: 1, 2, 4, 8 and 16 bytes. -/
inductive Width where
  | b8 | b16 | b32 | b64 | b128
  deriving DecidableEq, Repr

/-- The guard of R22. -/
inductive Guard where
  | always
  | on (neg : Bool) (reg : BitVec 8) (bit : BitVec 5)
  deriving DecidableEq, Repr

/-- A source operand (Table 2-3): a vector register (or the base of a pair or quad), a latch, a scalar, or the
immediate of the extension word. -/
inductive Src where
  | v (n : BitVec 8)
  | bl (n : BitVec 2)
  | s (n : BitVec 6)
  | imm
  deriving DecidableEq, Repr

/-- A destination (Table 2-4): a vector register with or without a latch, a latch only, a scalar, or nowhere;
`dk` is DK of R18, which a form that writes nowhere still holds. -/
inductive Dst where
  | v (n : BitVec 8)
  | vbl (n : BitVec 8) (l : BitVec 2)
  | bl (l : BitVec 2)
  | s (n : BitVec 6)
  | none (dk : Bool)
  deriving DecidableEq, Repr

/-- The extension of an instruction (R27), which fixes its length: A (none), I (IMM32), S (SC and IMM23),
W (IMM64). -/
inductive Ext where
  | a
  | i (imm : BitVec 32)
  | s (sc : Src) (imm : BitVec 23)
  | w (imm : BitVec 64)
  deriving DecidableEq, Repr

/-- An arithmetic instruction (R16, R24): guard, TYPE, function, destination, two sources, extension. `F` is
what FN means for the OP. -/
structure Alu (F : Type) where
  g : Guard
  ty : Ty
  f : F
  d : Dst
  a : Src
  b : Src
  x : Ext
  deriving DecidableEq, Repr

/-- A bit-destination instruction (R26): the result goes to bit `bit` of vector register `reg`. -/
structure BitOp (F : Type) where
  g : Guard
  ty : Ty
  f : F
  reg : BitVec 8
  bit : BitVec 5
  a : Src
  b : Src
  x : Ext
  deriving DecidableEq, Repr

/-- The narrow formats named by FN in R321 to R323. -/
inductive NFmt where
  | e4m3 | e5m2 | int4 | int3 | ue5m3
  deriving DecidableEq, Repr

/-- The transform of R318: none, blocks of 16 lanes, blocks of 32 lanes. -/
inductive Tr where
  | none | h16 | h32
  deriving DecidableEq, Repr

/-- The narrow-format instructions `cvtq`, `cvtx`, `hadm`, `scl.find` (R320 to R323). -/
structure Narrow where
  g : Guard
  fmt : NFmt
  tr : Tr
  d : Dst
  a : Src
  b : Src
  x : Ext
  deriving DecidableEq, Repr

/-- A direct transfer (Table 5-1): DISP0 and DISP1. -/
structure Jump where
  g : Guard
  d0 : BitVec 32
  d1 : BitVec 32
  deriving DecidableEq, Repr

/-- The kinds of `vote` (R102). -/
inductive VoteKind where
  | any | all | eq | ballot
  deriving DecidableEq, Repr

/-- `vote` (R102): predicate bit `bit` of register `a`; the result goes to a vector register or, with
`scalar`, to `s(d)`. -/
structure VoteOp where
  g : Guard
  kind : VoteKind
  scalar : Bool
  d : BitVec 8
  a : BitVec 8
  bit : BitVec 5
  deriving DecidableEq, Repr

/-- The modes of `shfl` (R103). -/
inductive ShflMode where
  | idx | up | down | xor
  deriving DecidableEq, Repr

/-- A memory instruction (Table 12-1). `f` is FN's meaning, `x` the displacement of form I. -/
structure Mem (F : Type) where
  g : Guard
  sp : Space
  w : Width
  f : F
  d : Dst
  a : Src
  b : Src
  x : Ext
  deriving DecidableEq, Repr

/-- The operations of Table 12-3. -/
inductive AtomOp where
  | add | min | max | and | or | xor | exch | cas | fadd
  deriving DecidableEq, Repr

/-- A barrier-word instruction (Table 12-5); `remote` is XF[4:3] = 10. -/
structure Bar where
  g : Guard
  remote : Bool
  d : Option (BitVec 6)
  a : Src
  b : Src
  x : Ext
  deriving DecidableEq, Repr

/-- The spaces of a copy (R279). -/
inductive CSpace where
  | g | s | r
  deriving DecidableEq, Repr

/-- The link kinds a form may use (R267); 11 is illegal. -/
inductive LinkKind where
  | none | barrier | counter
  deriving DecidableEq, Repr

/-- A copy form (R277, Table 13-5). Operand fields are absent or a scalar. -/
structure CpyOp where
  g : Guard
  d : Option (BitVec 6)
  dst : BitVec 6
  src : BitVec 6
  ss : CSpace
  ds : CSpace
  fp : BitVec 13
  hold : Bool
  det : Bool
  pri : BitVec 2
  lk : LinkKind
  opy : Option (BitVec 6)
  opx : Option (BitVec 6)
  opp : Option (BitVec 6)
  opk : Option (BitVec 6)
  opl : Option (BitVec 6)
  deriving DecidableEq, Repr

/-- `sfeed`, `mma` and `gsp.step` (Table 15-3). -/
structure EngOp2 where
  g : Guard
  d : Option (BitVec 6)
  fn : BitVec 4
  a : Option (BitVec 6)
  b : Option (BitVec 6)
  fp : BitVec 13
  hold : Bool
  det : Bool
  pri : BitVec 2
  lk : LinkKind
  count : BitVec 8
  fa : BitVec 2
  fb : BitVec 2
  opp : Option (BitVec 6)
  opk : Option (BitVec 6)
  opl : Option (BitVec 6)
  deriving DecidableEq, Repr

/-- A token instruction (Table 13-7). -/
structure TokOp where
  g : Guard
  fn : BitVec 4
  d : Option (BitVec 6)
  a : BitVec 6
  b : BitVec 6
  deriving DecidableEq, Repr

/-- An accumulator instruction (R316). -/
structure AccOp where
  g : Guard
  acc : BitVec 2
  d : Dst
  a : Src
  b : Src
  deriving DecidableEq, Repr

/-- A gossip access (Table 18-4) other than `gsp.step`. -/
structure GspOp where
  g : Guard
  age : Bool
  d : Dst
  a : Src
  b : Src
  x : Ext
  deriving DecidableEq, Repr

/-- The pools of `grow` and `shrink` (R105). -/
inductive Pool where
  | regs | acc (n : BitVec 2) | stream (n : BitVec 2)
  deriving DecidableEq, Repr

/-- The special registers of Table 3-7. -/
inductive SpecialReg where
  | lane | group | ngroups | team | tx | ty | tz | stage | core | ctx | clock | stack
  deriving DecidableEq, Repr

/-- `rdcr` and `wrcr` (R138): control register number and operand, 32 or 64 bits. -/
structure CrOp where
  g : Guard
  wide : Bool
  crn : BitVec 12
  d : Dst
  a : Src
  deriving DecidableEq, Repr

/-- The privileged instructions of Table 16 rows 0xE6 to 0xED. -/
structure PrivOp where
  g : Guard
  fn : BitVec 4
  d : Option (BitVec 6)
  a : Option (BitVec 6)
  b : Option (BitVec 6)
  deriving DecidableEq, Repr

/-- The BAR pages of the host link (Tables 7-1, 7-10, 8-1, 10-2, 16-1, 18-1, 21-3). -/
inductive Page where
  | doorbell (q : Nat) | qctl (q : Nat) | ctx (asid : Nat) | dbg (asid : Nat) | dev
  deriving DecidableEq, Repr

/-- An answer of a home device (16 R328, R334, Table 16-3). -/
inductive Answer where
  | data (bytes : List Byte)
  | ok
  | addressError
  | notSupported
  | timedOut
  deriving DecidableEq, Repr

/-- What a peer asks of this device as a home (R326, R328). -/
inductive HomeOp where
  | readLine
  | write (bytes : List Byte) (mask : BitVec 32)
  | atomic (op : AtomOp) (w : Width) (val cmp : BitVec 128)
  | reduceSector (ty : Ty) (bytes : List Byte)
  deriving DecidableEq, Repr

/-- A request that arrives from device `src` with `tag`, at physical address `pa` (R328, R332). -/
structure HomeReq where
  src : Nat
  tag : Nat
  pa : Nat
  op : HomeOp
  deriving DecidableEq, Repr

/-- An exchange packet HALF (R350, R351). -/
structure HalfPkt where
  src : Nat
  region : Nat
  step : BitVec 64
  seq : BitVec 32
  stepped : Bool
  probe : BitVec 64
  vals : List Word
  weight : Word
  deriving DecidableEq, Repr

/-- A host access to HDM (R170). -/
inductive HostAccess where
  | read (pa n : Nat)
  | write (pa : Nat) (bytes : List Byte)
  deriving DecidableEq, Repr

/-- Where a host message comes from (R120): a landing entry of a core, or the context's queue of messages
that name no entry. -/
inductive MsgFrom where
  | landing (core idx : Nat)
  | waiting (asid : Nat)
  deriving DecidableEq, Repr

/-- The instructions and steps, one constructor per row of the opcode table, in the table's order. -/
inductive Instr where
  -- integer, bit, compare, select, move, address (R69 to R81)
  | iadd (o : Alu Bool) | isub (o : Alu Bool) | imulLo (o : Alu Unit) | imulHi (o : Alu Unit)
  | imad (o : Alu Bool) | iabs (o : Alu Bool) | ineg (o : Alu Bool) | imin (o : Alu Unit) | imax (o : Alu Unit)
  | iand (o : Alu Unit) | ior (o : Alu Unit) | ixor (o : Alu Unit) | inot (o : Alu Unit)
  | shl (o : Alu Unit) | shr (o : Alu Unit) | sra (o : Alu Unit) | rotl (o : Alu Unit)
  | bfe (o : Alu Unit) | bfi (o : Alu Unit)
  | popc (o : Alu Unit) | clz (o : Alu Unit) | ctz (o : Alu Unit) | brev (o : Alu Unit)
  | icmp (o : BitOp Cond) | sel (o : Alu Unit) | mov (o : Alu Unit) | movi (o : Alu Unit)
  | lea (o : Alu (BitVec 4))
  -- floating point (R82 to R89)
  | fadd (o : Alu Rm) | fsub (o : Alu Rm) | fmul (o : Alu Rm) | ffma (o : Alu Rm) | fdiv (o : Alu Rm)
  | fsqrt (o : Alu Rm) | frcp (o : Alu Rm) | frsqrt (o : Alu Rm) | fexp2 (o : Alu Rm) | flog2 (o : Alu Rm)
  | fmin (o : Alu Unit) | fmax (o : Alu Unit) | fabs (o : Alu Unit) | fneg (o : Alu Unit)
  | fcmp (o : BitOp Cond) | fclass (o : Alu Unit) | frnd (o : Alu Rm) | cvt (o : Alu Ty)
  -- narrow formats (R320 to R323)
  | cvtq (o : Narrow) | cvtx (o : Narrow) | hadm (o : Narrow) | sclFind (o : Narrow)
  -- control (R92 to R104)
  | bra (o : Jump) | brx (o : Jump) | join (g : Guard)
  | call (link : BitVec 8) (o : Jump) | callIndirect (link : BitVec 8) (t : Src)
  | ret (t : Src) | jmp (o : Jump) | jmpIndirect (t : Src)
  | exit (g : Guard) | yield (g : Guard) | nop (g : Guard)
  | vote (o : VoteOp) | shfl (o : Alu ShflMode) | elect (g : Guard) (reg : BitVec 8) (bit : BitVec 5)
  -- memory (R231 to R247)
  | ld (o : Mem Unit) | st (o : Mem Unit) | ldf (o : Mem Unit) | ldfk (o : Mem Unit) | ste (o : Mem Unit)
  | tagSet (o : Mem Unit) | tagSetTile (o : Mem Unit) | tagRd (o : Mem Unit)
  | atom (o : Mem AtomOp) | red (o : Mem AtomOp) | pf (o : Mem Bool)
  | clnWb (o : Mem Unit) | clnInv (o : Mem Unit) | clnWbinv (o : Mem Unit)
  -- phases and barriers (R217 to R219, R248 to R255)
  | phase (g : Guard) | phaseRel (g : Guard) | phaseAcq (g : Guard) | drain (g : Guard)
  | barInit (o : Bar) | barArr (o : Bar) | barExp (o : Bar) | barWait (o : Bar) | barArrw (o : Bar)
  | tbar (g : Guard)
  -- engines and tokens (R277 to R309)
  | cpy (o : CpyOp) | cpyTile (o : CpyOp) | cpyGth (o : CpyOp) | cpySct (o : CpyOp)
  | cpyRem (o : CpyOp) | cpyMcast (o : CpyOp) | cpyRed (o : CpyOp) | sfeed (o : EngOp2)
  | tokWait (o : TokOp) | tokTest (o : TokOp) | tokCancel (o : TokOp) | tokDetach (o : TokOp)
  | tokAdopt (o : TokOp) | tokPrio (o : TokOp) | tokAfter (o : TokOp) | tokResume (o : TokOp) | tokState (o : TokOp)
  | mma (o : EngOp2) | accZero (o : AccOp) | accRd (o : AccOp) | accWr (o : AccOp)
  -- gossip (R359 to R363)
  | gspInj (o : GspOp) | gspRd (o : GspOp) | gspMass (o : GspOp) | gspStep (o : EngOp2) | gspSpread (o : GspOp)
  -- strings, hashes, partitions (R378 to R383)
  | strCmp (o : Alu Unit) | strEq (o : BitOp Unit) | strHash (o : Alu Unit) | strFind (o : Alu Unit)
  | strPfx (o : Alu Unit) | hashI64 (o : Alu Unit) | partIdx (o : Alu Unit)
  -- resources, launch, special registers (R105 to R108, R160 to R164)
  | grow (pool : Pool) (a : Src) (x : Ext) | shrink (pool : Pool) (a : Src) (x : Ext)
  | launch (g : Guard) (d : Option (BitVec 8)) (tmpl : BitVec 6) (recs : BitVec 8)
  | launchFlush (g : Guard) (tmpl : BitVec 6)
  | depAdd (g : Guard) (d : Option (BitVec 6)) (ix : BitVec 6) (b : Src) (x : Ext)
  | depSub (g : Guard) (d : Option (BitVec 6)) (ix : BitVec 6) (b : Src) (x : Ext)
  | rdsr (g : Guard) (d : Dst) (r : SpecialReg)
  -- traps and the supervisor (R135 to R143)
  | sys (g : Guard) (a : Src) (x : Ext) | trap (g : Guard) (a : Src) (x : Ext) | sigret (g : Guard)
  | brk (g : Guard) (a : Src) (x : Ext) | rdcr (o : CrOp) | wrcr (o : CrOp)
  | park (o : PrivOp) | unpark (o : PrivOp) | tlbi (o : PrivOp) | ctxSave (o : PrivOp) | ctxLoad (o : PrivOp)
  | teamOut (o : PrivOp) | teamIn (o : PrivOp) | halt (o : PrivOp) | haltRelease (o : PrivOp)
  -- trace and counters (R178, R180)
  | trace (g : Guard) (id : Src) (v : BitVec 8) (x : Ext) | mark (g : Guard) (id : Src) (x : Ext)
  | rdctr (g : Guard) (lat : Bool) (d : Dst) (n : Src) (x : Ext)
  -- the device's own steps: groups, traps and services
  | reconvergenceCheck (core gslot : Nat) | growGrant (core pool : Nat)
  | zeroFillService (core idx : Nat) | cowCopyService (core idx : Nat) | hostMessagePost (m : MsgFrom)
  | resolveRetry (core idx : Nat) | resolveSkip (core idx : Nat) | resolveSignal (core idx : Nat)
  | resolveStop (core idx : Nat) | resolveKill (core idx : Nat)
  | tokresolveResume (asid core slot : Nat) (gen : BitVec 24)
  | tokresolveCancel (asid core slot : Nat) (gen : BitVec 24)
  | rotation (core teamIx : Nat) | teamSwapInDispatch (asid slip core : Nat) | watchdogExpiry (asid : Nat)
  | accessAck (core gslot : Nat) | teamEnd (core teamIx : Nat)
  -- engines
  | tokenStart (core slot : Nat) | engineQuiescentPoint (core slot : Nat) | unitDelivered (core slot : Nat)
  | tokenFaultService (core slot : Nat) | slicePush (core slot : Nat) | kstepCommit (core slot : Nat)
  -- queues and the dispatcher
  | qctlEnable (q : Nat) | qctlPause (q : Nat) | qctlResume (q : Nat) | qctlDisable (q : Nat) | notify (q : Nat)
  | manifest (q : Nat) (seq : BitVec 32) | waitSignal (q : Nat) (seq : BitVec 32)
  | waitSignalReread (q : Nat) (seq : BitVec 32) | writeSignal (q : Nat) (seq : BitVec 32)
  | copy (q : Nat) (seq : BitVec 32) (core : Nat) | packetRetire (q : Nat) (seq : BitVec 32)
  | dealChunk (launch : Word) (core : Nat) | teamAdmit (launch : Word) (core : Nat) (stageCores : List Nat)
  | manifestWindowExpiry (asid : Nat) (tmpl : Word)
  -- the host's accesses
  | resolve (asid : Nat) (w : Word) | swapreqOut (asid : Nat) (w : Word)
  | swapreqIn (asid : Nat) (w : Word) (any : Nat) | releaseTeams (asid : Nat) | killTeams (asid : Nat)
  | ctxctlCreate (asid : Nat) | ctxctlDestroy (asid : Nat) | crwinWrite (asid off : Nat) (v : Word)
  | depvalWrite (asid : Nat) (v : Word) | depownWrite (v : Word) | dumpreq (asid : Nat) | sstepreq (asid : Nat) (v : Word)
  | counterTick | carveWrite (v : Word)
  -- the fabric
  | peerWriteback (line : Nat) | remoteResponse (tag : Nat) (ans : Answer) (marked : Bool)
  | homeRequest (r : HomeReq) | remoteTimeout (tag : Nat) | portFailure (n : Nat)
  | portTrained (n : Nat) (caps : List (Nat × BitVec 16)) | portRetire (n : Nat) | portRetrain (n : Nat)
  | routeDownSet (d : Nat) | routeDownClear (d : Nat) | domidWrite (v : Word) | congestionInterval (d : Nat)
  | timeMessageSend | timeMessageReceive (port id : Nat) (t : Nat)
  -- gossip
  | gsparmArm (r : Nat) | gsparmDisarm (r : Nat) | gspabandon (d : Nat) | gossipPeriod (r : Nat)
  | half (h : HalfPkt) | halfAck (r p : Nat) (n : BitVec 32) | halfNack (r p : Nat) (n seqin : BitVec 32)
  | halfRecalled (r p : Nat) (n seqin : BitVec 32) | recallSend (r p : Nat) (n : BitVec 32)
  | recall (r q : Nat) (s : BitVec 64) (n : BitVec 32)
  -- memory, management and service
  | hostHdmAccess (a : HostAccess) | powerOn | supervisorTrap (core : Nat) | thermalTrip
  | hbmUncorrectableError (pa core gslot slot : Nat) (lanes : Mask) | hbmretRetire (frame : Nat)
  | hbmretReadmit (frame : Nat) | coresvcDrain (core : Nat) | coreDrained (core : Nat) | coresvcResume (core : Nat)
  | coresvcFwload (core : Nat) | coresvcRecal (core : Nat) | recalComplete (core : Nat)
  | registerWrite (p : Page) (off : Nat) (v : Word) | cxlCacheSnoop (line : Nat) (claim : Bool)
  | modulePowerRemoved | attestationRequest (nonce : List Byte) | managementImageUpdate (image : List Byte)
  deriving DecidableEq, Repr

end Sys2Proof
end

