-- ==== Sys2Proof/Machine/Forms.lean ====
section
/-! DEFINITION. The operand rules that R17 to R28 and the entries' field tables state: widths, bases, immediates
and destinations. WellFormed.lean applies them to each instruction. -/

namespace Sys2Proof.Forms

open Sys2Proof

/-- The operand width of Table 2-6 in register bits: 32 for the narrow types too. -/
def regBits : Ty → Nat
  | .u64 | .s64 | .f64 => 64
  | .b128 => 128
  | _ => 32

/-- The value width w of R57, and the element width of a packed pair. -/
def valBits : Ty → Nat
  | .u8 | .s8 => 8
  | .u16 | .s16 | .f16 | .bf16 => 16
  | .u32 | .s32 | .f32 => 32
  | .u64 | .s64 | .f64 => 64
  | .b128 => 128

/-- A `.s` type (R57). -/
def isSigned : Ty → Bool
  | .s8 | .s16 | .s32 | .s64 => true
  | _ => false

/-- A `.u` or `.s` type: codes 0x0 to 0x7. -/
def isInt : Ty → Bool
  | .u8 | .s8 | .u16 | .s16 | .u32 | .s32 | .u64 | .s64 => true
  | _ => false

/-- The floating-point types, codes 0x8 to 0xB. -/
def isFloat : Ty → Bool
  | .f16 | .bf16 | .f32 | .f64 => true
  | _ => false

/-- A pair base is even and a quad base a multiple of 4 (R19). -/
def aligned (n : BitVec 8) (w : Nat) : Bool :=
  n.toNat % (if w = 64 then 2 else if w = 128 then 4 else 1) == 0

/-- R18 and R19 for a source of `w` register bits. -/
def srcFits (w : Nat) : Src → Bool
  | .v n => aligned n w
  | .bl _ => w ≤ 32
  | .s _ => w ≤ 64
  | .imm => true

/-- R18 and R19 for a destination of `w` register bits. -/
def dstFits (w : Nat) : Dst → Bool
  | .v n => aligned n w
  | .vbl n _ => aligned n w && w ≤ 32
  | .bl _ => w ≤ 32
  | .s _ => w ≤ 64
  | .none dk => !dk || w ≤ 64

/-- DK of R18. -/
def dk : Dst → Bool
  | .s _ => true
  | .none b => b
  | _ => false

/-- R17: a source field that the instruction does not use holds 0. -/
def unused : Src → Bool
  | .v n => n == 0
  | _ => false

/-- A scalar or the immediate: the sources an instruction with DK = 1 may take (R21). -/
def uniform : Src → Bool
  | .s _ | .imm => true
  | _ => false

def isImm : Src → Bool
  | .imm => true
  | _ => false

def isScalar : Src → Bool
  | .s _ => true
  | _ => false

def isVec : Src → Bool
  | .v _ => true
  | _ => false

/-- A vector register, pair or quad base, or a scalar, of `w` register bits. -/
def vecOrScalar (w : Nat) : Src → Bool
  | .v n => aligned n w
  | .s _ => w ≤ 64
  | _ => false

/-- The four extension forms of R31 that carry no displacement or engine fields. -/
inductive Form where
  | a | i | s | w
  deriving DecidableEq, Repr

def formOf : Ext → Form
  | .a => .a
  | .i _ => .i
  | .s _ _ => .s
  | .w _ => .w

/-- Table 2-9a: the value of an immediate of an extension, as the 64 bits of the operand; `none` where the form
is illegal for the TYPE (R28). -/
def expand (ty : Ty) : Ext → Option Word
  | .a => none
  | .i v =>
    match ty with
    | .u8 | .s8 | .u16 | .s16 | .u32 | .s32 | .f32 => some (v.setWidth 64)
    | .u64 | .s64 => some (v.signExtend 64)
    | .f16 | .bf16 => if v.toNat < 65536 then some ((v ||| (v <<< 16)).setWidth 64) else none
    | .f64 => some (v.setWidth 64 <<< 32)
    | .b128 => none
  | .s _ v =>
    match ty with
    | .u8 | .s8 | .u16 | .s16 | .u32 | .s32 => some ((v.signExtend 32).setWidth 64)
    | .u64 | .s64 => some (v.signExtend 64)
    | .f32 => some (v.setWidth 64 <<< 9)
    | .f16 | .bf16 | .f64 | .b128 => none
  | .w v =>
    match ty with
    | .u64 | .s64 | .f64 => some v
    | _ => none

/-- The third source of form S. -/
def sc : Ext → Option Src
  | .s c _ => some c
  | _ => none

def imm23 : Ext → BitVec 23
  | .s _ v => v
  | _ => 0

/-- A source field: used, with the register bits of its operand, or unused. -/
inductive Use where
  | no
  | yes (w : Nat)
  deriving DecidableEq, Repr

def Use.ok (u : Use) (s : Src) : Bool :=
  match u with
  | .no => unused s
  | .yes w => srcFits w s

def Use.sources (u : Use) (s : Src) : List Src :=
  match u with
  | .no => []
  | .yes _ => [s]

/-- The immediates of R17, R27 and R28: at most one source is 0x1C0, only in a form with an extension; an
extension that no operand uses is illegal, but for form S with IMM23 zero. -/
def immOk (ty : Ty) (x : Ext) (srcs : List Src) : Bool :=
  match formOf x, srcs.countP isImm with
  | .a, n => n == 0
  | .s, 0 => imm23 x == 0
  | _, 0 => false
  | _, n => n == 1 && (expand ty x).isSome

/-- Form W is legal for `.u64`, `.s64` and `.f64` only (R31). -/
def wideOk (ty : Ty) (x : Ext) : Bool :=
  formOf x != .w || ty == .u64 || ty == .s64 || ty == .f64

/-- The forms and sources that an arithmetic entry lists. -/
structure AluForm where
  forms : List Form
  tys : Ty → Bool
  a : Use
  b : Use
  c : Use
  d : Nat

/-- R18, R19, R21, R24, R27, R28 and R68 for an arithmetic instruction whose entry lists `f`. -/
def aluOk {F : Type} (f : AluForm) (o : Alu F) : Bool :=
  let srcs := f.a.sources o.a ++ f.b.sources o.b ++ (match o.x with | .s c _ => f.c.sources c | _ => [])
  f.tys o.ty && f.forms.contains (formOf o.x) && wideOk o.ty o.x
    && f.a.ok o.a && f.b.ok o.b && (match o.x with | .s c _ => f.c.ok c | _ => true)
    && immOk o.ty o.x srcs && dstFits f.d o.d && (!dk o.d || srcs.all uniform)

/-- Two sources of the TYPE's width in forms A, I and W. -/
def binary {F : Type} (tys : Ty → Bool) (o : Alu F) : Bool :=
  aluOk { forms := [.a, .i, .w], tys := tys, a := .yes (regBits o.ty), b := .yes (regBits o.ty), c := .no,
          d := regBits o.ty } o

/-- One source, form A. -/
def unary {F : Type} (tys : Ty → Bool) (o : Alu F) : Bool :=
  aluOk { forms := [.a], tys := tys, a := .yes (regBits o.ty), b := .no, c := .no, d := regBits o.ty } o

/-- Three sources of the TYPE's width in form S (R69, R82). -/
def ternary {F : Type} (tys : Ty → Bool) (o : Alu F) : Bool :=
  aluOk { forms := [.s], tys := tys, a := .yes (regBits o.ty), b := .yes (regBits o.ty),
          c := .yes (regBits o.ty), d := regBits o.ty } o

/-- A compare (R76, R85): no register result, one bit. -/
def compare {F : Type} (tys : Ty → Bool) (o : BitOp F) : Bool :=
  let w := regBits o.ty
  tys o.ty && [Form.a, .i, .w].contains (formOf o.x) && wideOk o.ty o.x && srcFits w o.a && srcFits w o.b
    && immOk o.ty o.x [o.a, o.b]

/-- `sel` (R77). -/
def sel (o : Alu Unit) : Bool :=
  match o.x with
  | .s c v =>
    let n := [o.a, o.b].countP isImm
    [Ty.u32, .u64, .b128].contains o.ty && srcFits (regBits o.ty) o.a && srcFits (regBits o.ty) o.b
      && srcFits 32 c && !isImm c
      && (if n = 0 then v.toNat < 32 else n == 1 && o.ty == .u32)
      && dstFits (regBits o.ty) o.d && (!dk o.d || [o.a, o.b, c].all uniform)
  | _ => false

/-- `mov` (R78). -/
def mov (o : Alu Unit) : Bool :=
  (isInt o.ty || (o.ty == .b128 && formOf o.x == .a))
    && aluOk { forms := [.a, .i, .w], tys := fun _ => true, a := .yes (regBits o.ty), b := .no, c := .no,
               d := regBits o.ty } o

/-- `movi` (R79). -/
def movi (o : Alu Unit) : Bool :=
  unused o.a && unused o.b &&
    match o.x, o.ty with
    | .i _, .u32 => dstFits 32 o.d
    | .i _, .u64 => dstFits 64 o.d
    | .w _, .u64 => dstFits 64 o.d
    | .w _, .u32 => dk o.d
    | _, _ => false

/-- `lea` (R81). -/
def lea (o : Alu (BitVec 4)) : Bool :=
  [Ty.u32, .s32, .u64, .s64].contains o.ty && [Form.a, .i].contains (formOf o.x)
    && vecOrScalar 64 o.a && !isImm o.b && srcFits (regBits o.ty) o.b && dstFits 64 o.d
    && (!dk o.d || [o.a, o.b].all uniform)

/-- `cvt` (R88): FN holds the source TYPE, `ty` is the destination TYPE. -/
def cvt (o : Alu Ty) : Bool :=
  o.ty != .b128 && o.f != .b128 && o.ty != o.f && unused o.b && !isImm o.a && srcFits (regBits o.f) o.a
    && (match o.x with
        | .a => true
        | .s c v => unused c && v.toNat < 4
        | _ => false)
    && dstFits (regBits o.ty) o.d && (!dk o.d || uniform o.a)

/-- A destination that is one vector register or a latch, or nowhere (R18). -/
def vecOrLatch : Dst → Bool
  | .v _ | .vbl _ _ | .bl _ => true
  | _ => false

def vecLatchNone : Dst → Bool
  | .none dk => !dk
  | d => vecOrLatch d

/-- A vector register or a latch as a source. -/
def vecOrLatchSrc : Src → Bool
  | .v _ | .bl _ => true
  | _ => false

def notImm (s : Src) : Bool := !isImm s

/-- The extension of form A or I of a memory OP (R231): a displacement. -/
def dispForm : Ext → Bool
  | .a | .i _ => true
  | _ => false

def widthBits : Width → Nat
  | .b8 | .b16 | .b32 => 32
  | .b64 => 64
  | .b128 => 128

/-- Table 12-2: the address operand of a space. -/
def addrOk (sp : Space) (s : Src) : Bool :=
  match sp with
  | .s => vecOrScalar 32 s
  | .g | .rs => vecOrScalar 64 s

/-- A data source of R231. -/
def dataOk (w : Width) (s : Src) : Bool := !isImm s && srcFits (widthBits w) s

/-- The data destination of `ld` and `tag.rd` (R231): WB 1, or a latch form. -/
def loadDst (w : Nat) : Dst → Bool
  | .v n => aligned n w
  | .vbl _ _ | .bl _ => w ≤ 32
  | _ => false

/-- A register destination without a latch. -/
def regDst (w : Nat) : Dst → Bool
  | .v n => aligned n w
  | _ => false

def noDst : Dst → Bool
  | .none dk => !dk
  | _ => false

/-- The SB rule of `atom` and `red` (Table 12-3, R242). -/
def atomOperand (op : AtomOp) (w : Width) (s : Src) : Bool :=
  match op, w with
  | .cas, .b32 => (match s with | .v n => aligned n 64 | _ => false)
  | .cas, .b64 => (match s with | .v n => aligned n 128 | _ => false)
  | .cas, _ => false
  | .exch, .b128 => dataOk .b128 s
  | _, .b32 | _, .b64 => dataOk w s
  | _, _ => false

/-- The presence of OPL, OPX and OPY that a copy form requires (Table 13-6). -/
def operands (o : CpyOp) (l x y : Bool) : Bool :=
  o.opl.isSome == l && o.opx.isSome == x && o.opy.isSome == y

/-- R277: OPK is present exactly when LK is not 0. -/
def linkOk (o : CpyOp) : Bool := o.opk.isSome == (o.lk != .none)

/-- COUNT, OPL, LK and OPK of `sfeed`, `mma` and `gsp.step` (R303, R306, R363). -/
def engineOk (o : EngOp2) : Bool :=
  ((o.count != 0) != o.opl.isSome) && o.lk != .barrier && (o.opk.isSome == (o.lk == .counter))

/-- The assigned control registers of Table 6-5. -/
def crnAssigned (n : BitVec 12) : Bool :=
  [0x001#12, 0x002#12, 0x003#12, 0x004#12, 0x100#12, 0x101#12, 0x102#12, 0x103#12, 0x104#12, 0x105#12, 0x106#12,
   0x107#12, 0x108#12, 0x110#12, 0x111#12, 0x112#12, 0x113#12, 0x114#12, 0x115#12, 0x116#12, 0x117#12, 0x200#12,
   0x201#12].contains n

/-- MODE and LANDSEQ are RO in every mode (R117). -/
def crnReadOnly (n : BitVec 12) : Bool := n == 0x004#12 || n == 0x201#12

/-- What the User column of Table 6-5 lets a user-mode group read and write (R117). -/
def crnUserRead (n : BitVec 12) : Bool :=
  [0x001#12, 0x002#12, 0x003#12, 0x004#12, 0x101#12, 0x102#12, 0x105#12].contains n

def crnUserWrite (n : BitVec 12) : Bool := n == 0x001#12 || n == 0x002#12

/-- A source of Table 6-16: a scalar or a vector register in form A, the immediate in form I. -/
def trapSource (a : Src) (x : Ext) : Bool :=
  match x with
  | .a => vecOrScalar 32 a
  | .i _ => isImm a
  | _ => false

/-- A scalar in form A or the immediate in form I. -/
def scalarOrImm (a : Src) (x : Ext) : Bool :=
  match x with
  | .a => isScalar a
  | .i _ => isImm a
  | _ => false

/-- The displacements of form B are multiples of 4 (R27). -/
def dispOk (d : BitVec 32) : Bool := d.toNat % 4 == 0

/-- A target of R91: a pair or a scalar. -/
def target (s : Src) : Bool := vecOrScalar 64 s

end Sys2Proof.Forms
end

