-- ==== Sys2Proof/WellFormed.lean ====
section
/-! DEFINITION. Which instructions the form check of R29, step 2, accepts: one line per constructor, from the
field tables of the entries. The device's own steps are checked for the range of their operands only. -/

namespace Sys2Proof

open Forms

/-- The form check of R29, step 2, on the typed instruction. What the fields of a word may hold beyond it,
Decode.lean checks. In the pair form of `shfl` (XF 0x6) a vector SB is one 32-bit register, odd or a latch allowed,
since R103 says only that its low 32 bits count (log 50). -/
def wellFormed : Instr → Bool
  | .iadd o | .isub o => binary isInt o
  | .imulLo o | .imulHi o | .imin o | .imax o | .iand o | .ior o | .ixor o => binary isInt o
  | .imad o => ternary isInt o
  | .iabs o | .ineg o => unary isSigned o
  | .inot o | .popc o | .clz o | .ctz o | .brev o => unary isInt o
  | .shl o | .shr o | .sra o | .rotl o => binary isInt o
  | .bfe o => aluOk { forms := [.s], tys := isInt, a := .yes (regBits o.ty), b := .no, c := .yes 32,
                      d := regBits o.ty } o
  | .bfi o => aluOk { forms := [.s], tys := isInt, a := .yes (regBits o.ty), b := .yes (regBits o.ty),
                      c := .yes 32, d := regBits o.ty } o
  | .icmp o => compare isInt o && o.f != .ord && o.f != .uno
  | .sel o => sel o
  | .mov o => mov o
  | .movi o => movi o
  | .lea o => lea o
  | .fadd o | .fsub o | .fmul o | .fdiv o => binary isFloat o
  | .ffma o => ternary isFloat o
  | .fsqrt o | .frcp o | .frsqrt o | .frnd o => unary isFloat o
  | .fexp2 o | .flog2 o => unary (fun t => isFloat t && t != .f64) o
  | .fmin o | .fmax o => binary isFloat o
  | .fabs o | .fneg o => unary isFloat o
  | .fcmp o => compare (fun t => t == .f32 || t == .f64) o
  | .fclass o => aluOk { forms := [.a], tys := isFloat, a := .yes (regBits o.ty), b := .no, c := .no, d := 32 } o
  | .cvt o => cvt o
  | .cvtq o => o.fmt != .ue5m3 && vecLatchNone o.d && vecOrLatchSrc o.a && notImm o.b && formOf o.x == .a
  | .cvtx o => o.tr == .none && vecLatchNone o.d && notImm o.a &&
      (match o.x with | .a => notImm o.b | .i _ => isImm o.b | _ => false)
  | .hadm o => o.fmt == .e4m3 && o.tr != .none && vecLatchNone o.d && vecOrLatchSrc o.a && unused o.b
      && formOf o.x == .a
  | .sclFind o => o.fmt != .ue5m3 && vecLatchNone o.d && vecOrLatchSrc o.a && unused o.b && formOf o.x == .a
  | .bra o => dispOk o.d0 && o.d1 == 0
  | .brx o => dispOk o.d0 && dispOk o.d1
  | .join _ | .exit _ | .yield _ | .nop _ => true
  | .call link o => aligned link 64 && o.g == .always && dispOk o.d0 && o.d1 == 0
  | .callIndirect link t => aligned link 64 && target t
  | .ret t | .jmpIndirect t => target t
  | .jmp o => o.g == .always && dispOk o.d0 && o.d1 == 0
  | .vote o => !o.scalar || o.d.toNat < 64
  | .shfl o =>
      (o.ty == .u32 || o.ty == .u64)
        && (match o.a with | .v n => aligned n (regBits o.ty) | .bl _ => o.ty == .u32 | _ => false)
        && (match o.x with
            | .a => (match o.b with | .v _ | .bl _ | .s _ => true | .imm => false)
            | .i _ => isImm o.b
            | _ => false)
        && vecOrLatch o.d && dstFits (regBits o.ty) o.d
  | .elect _ _ _ => true
  | .ld o => addrOk o.sp o.a && unused o.b && loadDst (widthBits o.w) o.d && dispForm o.x
  | .st o => addrOk o.sp o.a && dataOk o.w o.b && noDst o.d && dispForm o.x
  | .ldf o | .ldfk o => o.sp != .g && (o.w == .b32 || o.w == .b64) && addrOk o.sp o.a && unused o.b
      && regDst (widthBits o.w) o.d && dispForm o.x
  | .ste o => o.sp != .g && (o.w == .b32 || o.w == .b64) && addrOk o.sp o.a && dataOk o.w o.b && noDst o.d
      && dispForm o.x
  | .tagSet o => o.sp != .g && o.w == .b64 && addrOk o.sp o.a && notImm o.b && noDst o.d && dispForm o.x
  | .tagSetTile o => o.sp != .g && o.w == .b128 && addrOk o.sp o.a && notImm o.b && noDst o.d && dispForm o.x
  | .tagRd o => o.sp != .g && o.w == .b64 && addrOk o.sp o.a && unused o.b && loadDst 32 o.d && dispForm o.x
  | .atom o => addrOk o.sp o.a && atomOperand o.f o.w o.b && (noDst o.d || regDst (widthBits o.w) o.d)
      && dispForm o.x
  | .red o => o.f != .exch && o.f != .cas && addrOk o.sp o.a && atomOperand o.f o.w o.b && noDst o.d
      && dispForm o.x
  | .pf o => o.sp == .g && o.w == .b8 && addrOk .g o.a && unused o.b && noDst o.d && dispForm o.x
  | .clnWb o | .clnInv o | .clnWbinv o => o.sp == .g && o.w == .b8 && addrOk .g o.a && unused o.b && noDst o.d
      && dispForm o.x
  | .phase _ | .phaseRel _ | .phaseAcq _ | .drain _ | .tbar _ => true
  | .barInit o => addrOk (if o.remote then .rs else .s) o.a && scalarOrImm o.b o.x && o.d.isNone
  | .barExp o => addrOk (if o.remote then .rs else .s) o.a && scalarOrImm o.b o.x && o.d.isNone
  | .barArr o => addrOk (if o.remote then .rs else .s) o.a && unused o.b && formOf o.x == .a
  | .barWait o => !o.remote && addrOk .s o.a && scalarOrImm o.b o.x && o.d.isNone
  | .barArrw o => !o.remote && addrOk .s o.a && unused o.b && formOf o.x == .a && o.d.isNone
  | .cpy o => o.fp == 0 && operands o true false false && linkOk o
  | .cpyTile o => o.fp.toNat < 2 && operands o true true true && linkOk o
  | .cpyGth o => o.ss != .r && o.ds != .r && operands o true true true && linkOk o
      && o.fp.toNat < 32 && 3 ≤ o.fp.toNat % 16 && o.fp.toNat % 16 ≤ 12
  | .cpySct o => o.ss != .r && o.ds != .r && linkOk o && o.fp.toNat < 1024
      && 3 ≤ o.fp.toNat % 16 && o.fp.toNat % 16 ≤ 12
      && (if o.fp.getLsbD 5 then o.ds == .g && operands o true true false
          else operands o true true true)
  | .cpyRem o => o.ss != .r && o.ds == .g && o.fp == 0 && operands o true false false && linkOk o
  | .cpyMcast o => o.ss != .r && o.ds == .g && o.fp.toNat < 8 && operands o true true false && linkOk o
  | .cpyRed o => o.ss != .r && o.ds == .g && [0x5#13, 0x7#13, 0x8#13, 0x9#13, 0xA#13].contains o.fp
      && operands o true false false && linkOk o
  | .sfeed o => engineOk o && o.fn.toNat < 8 && o.fa == 0 && o.fb == 0 && o.a.isSome
      && o.fp.toNat < 16 && o.fp.toNat % 8 < 5
      && (if 3 ≤ o.fp.toNat % 8 then o.b.isSome else o.b.isNone && !o.fp.getLsbD 3)
  | .mma o => engineOk o && o.fn.toNat < 4 && o.fp.toNat < 8 && o.fa != o.fb && o.a.isNone && o.b.isNone
  | .gspStep o => engineOk o && o.fn == 0 && o.fp == 0 && o.fa == 0 && o.fb == 0 && o.a.isSome && o.b.isNone
  | .tokWait o => o.fn.toNat < 2 && o.b == 0
  | .tokTest o => o.fn == 0 && o.d.isSome && o.b == 0
  | .tokCancel o | .tokResume o => o.fn == 0 && o.b == 0
  | .tokDetach o => o.fn == 0 && o.d.isNone && o.b == 0
  | .tokAdopt o => o.fn.toNat < 2 && o.d.isSome && o.a == 0 && o.b == 0
  | .tokPrio o | .tokAfter o => o.fn == 0 && o.d.isNone
  | .tokState o => o.fn.toNat < 4 && o.d.isSome && o.b == 0
  | .accZero o => noDst o.d && unused o.a && unused o.b
  | .accRd o => vecOrLatch o.d && vecOrScalar 32 o.a && unused o.b
  | .accWr o => noDst o.d && vecOrScalar 32 o.a && notImm o.b
  | .gspInj o => !o.age && noDst o.d && vecOrScalar 64 o.a && vecOrScalar 64 o.b && dispForm o.x
  | .gspRd o => !o.age && regDst 64 o.d && vecOrScalar 64 o.a && unused o.b && dispForm o.x
  | .gspMass o => !o.age && regDst 128 o.d && vecOrScalar 64 o.a && unused o.b && dispForm o.x
  | .gspSpread o => (match o.d with | .s _ => true | d => regDst 64 d) && vecOrScalar 64 o.a && unused o.b
      && dispForm o.x
  | .strCmp o => o.ty == .s32 && vecOrLatch o.d && vecOrScalar 64 o.a && vecOrScalar 64 o.b && formOf o.x == .a
  | .strEq o => o.ty == .u64 && vecOrScalar 64 o.a && vecOrScalar 64 o.b && formOf o.x == .a
  | .strHash o => o.ty == .u64 && regDst 64 o.d && vecOrScalar 64 o.a && vecOrScalar 64 o.b && formOf o.x == .a
  | .strFind o => o.ty == .u32 && vecOrLatch o.d && vecOrScalar 64 o.a && notImm o.b && formOf o.x == .a
  | .strPfx o => o.ty == .u64 && regDst 64 o.d && vecOrScalar 64 o.a && unused o.b && formOf o.x == .a
  | .hashI64 o => o.ty == .u64 && vecOrScalar 64 o.a && vecOrScalar 64 o.b && formOf o.x == .a
      && (match o.d with | .s _ => isScalar o.a && isScalar o.b | d => regDst 64 d)
  | .partIdx o => o.ty == .u32 && vecOrScalar 64 o.a && notImm o.b && formOf o.x == .a
      && (match o.d with | .s _ => isScalar o.a && isScalar o.b | d => vecOrLatch d)
  | .grow p a x | .shrink p a x =>
      (match p with
       | .regs => scalarOrImm a x
       | .acc _ | .stream _ => unused a && formOf x == .a)
  | .launch _ d _ recs => aligned recs 64 && (match d with | some n => aligned n 64 | none => true)
  | .launchFlush _ _ => true
  | .depAdd _ _ _ b x | .depSub _ _ _ b x => scalarOrImm b x
  | .rdsr _ d r =>
      (match d with | .none _ => false | _ => true)
        && dstFits (if r == .clock || r == .stack then 64 else 32) d
  | .sys _ a x | .trap _ a x | .brk _ a x => trapSource a x
  | .sigret _ => true
  | .rdcr o => crnAssigned o.crn && unused o.a
      && (match o.d with | .v n => aligned n (if o.wide then 64 else 32) | .s _ => o.wide | _ => false)
  | .wrcr o => crnAssigned o.crn && !crnReadOnly o.crn && noDst o.d
      && (match o.a with | .v n => aligned n (if o.wide then 64 else 32) | .s _ => o.wide | _ => false)
  | .park o => o.fn.toNat < 2 && o.d.isSome && o.a.isNone && o.b.isNone
  | .unpark o => o.fn.toNat < 5 && o.d.isNone && o.a.isSome && o.b.isNone
  | .tlbi o => o.d.isNone &&
      (if o.fn == 0 then o.a.isSome && o.b.isSome else if o.fn == 1 then o.a.isSome && o.b.isNone
       else o.fn == 2 && o.a.isNone && o.b.isNone)
  | .ctxSave o | .ctxLoad o => o.fn == 0 && o.d.isNone && o.a.isSome && o.b.isSome
  | .teamOut o | .teamIn o => o.fn == 0 && o.d.isSome && o.a.isSome && o.b.isNone
  | .halt o => (o.fn == 0 || o.fn == 2) && o.d.isNone && o.a.isSome && o.b.isNone
  | .haltRelease o => (o.fn == 1 || o.fn == 3) && o.d.isNone && o.a.isSome && o.b.isNone
  | .trace _ id _ x | .mark _ id x => scalarOrImm id x
  | .rdctr _ _ d n x => scalarOrImm n x && (match d with | .v _ | .s _ => true | _ => false)
  -- the device's own steps: the operands name a core, an entry, a register file or a port that exists
  | .reconvergenceCheck c g | .accessAck c g => c < 192 && g < 64
  | .growGrant c p => c < 192 && p < 3
  | .zeroFillService c i | .cowCopyService c i | .resolveRetry c i | .resolveSkip c i | .resolveSignal c i
  | .resolveStop c i | .resolveKill c i => c < 192 && i < 2048
  | .hostMessagePost m => (match m with | .landing c i => c < 192 && i < 2048 | .waiting a => a < 65536)
  | .tokresolveResume a c s _ | .tokresolveCancel a c s _ => a < 65536 && c < 192 && s < 256
  | .rotation c t | .teamEnd c t => c < 192 && t < 64
  | .teamSwapInDispatch a _ c => a < 65536 && c < 192
  | .watchdogExpiry a => a < 65536
  | .tokenStart c s | .engineQuiescentPoint c s | .unitDelivered c s | .tokenFaultService c s | .slicePush c s
  | .kstepCommit c s => c < 192 && s < 256
  | .qctlEnable q | .qctlPause q | .qctlResume q | .qctlDisable q | .notify q => q < 1024
  | .manifest q _ | .waitSignal q _ | .waitSignalReread q _ | .writeSignal q _ => q < 1024
  | .packetRetire q _ => q < 1024 || q == 0xFFFF
  | .copy q _ c => q < 1024 && c < 192
  | .dealChunk _ c => c < 192
  | .teamAdmit _ c l => c < 192 && l.all (· < 192)
  | .manifestWindowExpiry a _ => a < 65536
  | .resolve a _ | .swapreqOut a _ | .releaseTeams a | .killTeams a | .ctxctlCreate a | .ctxctlDestroy a
  | .crwinWrite a _ _ | .depvalWrite a _ | .dumpreq a | .sstepreq a _ => a < 65536
  | .swapreqIn a _ c => a < 65536 && c < 192
  | .depownWrite _ | .counterTick | .carveWrite _ | .peerWriteback _ | .remoteResponse _ _ _ | .remoteTimeout _ => true
  | .homeRequest r => r.src < 1024
  | .portFailure n | .portTrained n _ | .portRetire n | .portRetrain n => n < 16
  | .routeDownSet d | .routeDownClear d | .congestionInterval d | .gspabandon d => d < 1024
  | .domidWrite _ | .timeMessageSend => true
  | .timeMessageReceive p d _ => p < 16 && d < 1024
  | .gsparmArm r | .gsparmDisarm r | .gossipPeriod r => r < 256
  | .half h => h.src < 1024 && h.region < 256
  | .halfAck r p _ | .halfNack r p _ _ | .halfRecalled r p _ _ | .recallSend r p _ => r < 256 && p < 8
  | .recall r q _ _ => r < 256 && q < 1024
  | .hostHdmAccess _ | .powerOn | .thermalTrip | .hbmretRetire _ | .hbmretReadmit _ | .modulePowerRemoved => true
  | .supervisorTrap c | .coresvcDrain c | .coreDrained c | .coresvcResume c | .coresvcFwload c | .coresvcRecal c
  | .recalComplete c => c < 192
  | .hbmUncorrectableError _ c g s _ => c < 192 && g < 64 && s < 2
  | .registerWrite _ _ _ | .cxlCacheSnoop _ _ | .attestationRequest _ | .managementImageUpdate _ => true

end Sys2Proof
end

