-- ==== Sys2Proof/Decode.lean ====
section
/-! DEFINITION. Words and instructions. `decode` reads an instruction from bytes and refuses by name; `encode`
writes the bytes of a well-formed instruction. Both go through `Fields`, the base word of Table 2-2 cut at its
field bounds. -/

namespace Sys2Proof

open Forms

/-- Why bytes are no instruction (R29, step 2). -/
inductive Reject where
  /-- LEN is 00 (R12), or the bytes end before the instruction does. -/
  | length
  /-- OP is unassigned (R31). -/
  | unassigned
  /-- A field, form or operand that the OP's entry does not list. -/
  | form
  deriving DecidableEq, Repr

/-- The fields of Table 2-2: `dd` is DL, WB and DST (bits [25:14]), `gd` the guard (bits [58:44]), `x` the
extension, zero above its length. -/
structure Fields where
  len : BitVec 2
  op : BitVec 8
  fn : BitVec 4
  dd : BitVec 12
  sa : BitVec 9
  sb : BitVec 9
  gd : BitVec 15
  xf : BitVec 5
  x : BitVec 64
  deriving DecidableEq, Repr

/-- The base word (Table 2-2). -/
def Fields.base (f : Fields) : BitVec 64 :=
  f.xf ++ f.gd ++ f.sb ++ f.sa ++ f.dd ++ f.fn ++ f.op ++ f.len

/-- The fields of a base word and an extension. -/
def Fields.of (w x : BitVec 64) : Fields where
  len := w.extractLsb' 0 2
  op := w.extractLsb' 2 8
  fn := w.extractLsb' 10 4
  dd := w.extractLsb' 14 12
  sa := w.extractLsb' 26 9
  sb := w.extractLsb' 35 9
  gd := w.extractLsb' 44 15
  xf := w.extractLsb' 59 5
  x := x

/-! ### Field codes -/

/-- Table 2-3. -/
def srcCode : Src → BitVec 9
  | .v n => 0#1 ++ n
  | .bl n => 0b1000000#7 ++ n
  | .s n => 0b110#3 ++ n
  | .imm => 0x1C0

def srcOf (c : BitVec 9) : Src :=
  if c.getLsbD 8 then
    if c == 0x1C0 then .imm
    else if c.getLsbD 7 then .s (c.extractLsb' 0 6) else .bl (c.extractLsb' 0 2)
  else .v (c.extractLsb' 0 8)

/-- An operand field that is absent (0) or a scalar. -/
def optScalarCode : Option (BitVec 6) → BitVec 9
  | none => 0
  | some n => srcCode (.s n)

def optScalarOf (c : BitVec 9) : Option (BitVec 6) := if c == 0 then none else some (c.extractLsb' 0 6)

/-- Table 2-6. -/
def tyCode : Ty → BitVec 4
  | .u8 => 0 | .s8 => 1 | .u16 => 2 | .s16 => 3 | .u32 => 4 | .s32 => 5 | .u64 => 6 | .s64 => 7
  | .f16 => 8 | .bf16 => 9 | .f32 => 0xA | .f64 => 0xB | .b128 => 0xC

def tyOf (c : BitVec 4) : Ty :=
  match c.toNat with
  | 0 => .u8 | 1 => .s8 | 2 => .u16 | 3 => .s16 | 4 => .u32 | 5 => .s32 | 6 => .u64 | 7 => .s64
  | 8 => .f16 | 9 => .bf16 | 0xA => .f32 | 0xB => .f64 | _ => .b128

/-- The guard of R22. -/
def guardCode : Guard → BitVec 15
  | .always => 0
  | .on neg r b => 1#1 ++ BitVec.ofBool neg ++ r ++ b

def guardOf (c : BitVec 15) : Guard :=
  if c.getLsbD 14 then .on (c.getLsbD 13) (c.extractLsb' 5 8) (c.extractLsb' 0 5) else .always

/-- Table 2-4: DL, WB and DST of a destination. -/
def dstCode : Dst → BitVec 12
  | .v n => 0#3 ++ 1#1 ++ n
  | .vbl n l => (1#3 + l.setWidth 3) ++ 1#1 ++ n
  | .bl l => (1#3 + l.setWidth 3) ++ 0#9
  | .s n => 0b000100#6 ++ n
  | .none _ => 0

def dstOf (dk : Bool) (c : BitVec 12) : Dst :=
  let dl := c.extractLsb' 9 3
  let l := (dl - 1#3).setWidth 2
  if c.getLsbD 8 then
    if dk then .s (c.extractLsb' 0 6)
    else if dl == 0 then .v (c.extractLsb' 0 8) else .vbl (c.extractLsb' 0 8) l
  else if dl == 0 then .none dk else .bl l

/-- WB, DL and DST of a scalar destination or of none. -/
def optDstCode : Option (BitVec 6) → BitVec 12
  | none => 0
  | some n => 0b000100#6 ++ n

def optDstOf (c : BitVec 12) : Option (BitVec 6) := if c.getLsbD 8 then some (c.extractLsb' 0 6) else none

/-- XF of an entry-defined instruction with a scalar destination or none. -/
def optXf : Option (BitVec 6) → BitVec 5
  | none => 0
  | some _ => 0x10

/-- The extension of Table 2-8 and the LEN it goes with. -/
def extLen : Ext → BitVec 2
  | .a => 1
  | .i _ | .s _ _ => 2
  | .w _ => 3

def extCode : Ext → BitVec 64
  | .a => 0
  | .i v => 0#32 ++ v
  | .s c v => 0#32 ++ srcCode c ++ v
  | .w v => v

/-- `sc` says that the OP is marked S in Table 2-9. -/
def extOf (sc : Bool) (len : BitVec 2) (x : BitVec 64) : Ext :=
  match len.toNat with
  | 2 => if sc then .s (srcOf (x.extractLsb' 23 9)) (x.extractLsb' 0 23) else .i (x.extractLsb' 0 32)
  | 3 => .w x
  | _ => .a

def condCode : Cond → BitVec 4
  | .eq => 0 | .ne => 1 | .lt => 2 | .le => 3 | .gt => 4 | .ge => 5 | .ord => 6 | .uno => 7

def condOf (c : BitVec 4) : Cond :=
  match c.toNat with
  | 0 => .eq | 1 => .ne | 2 => .lt | 3 => .le | 4 => .gt | 5 => .ge | 6 => .ord | _ => .uno

/-- Table 4-2. -/
def rmCode : Rm → BitVec 4
  | .rne => 0 | .rtz => 1 | .rup => 2 | .rdn => 3

def rmOf (c : BitVec 4) : Rm :=
  match c.toNat with
  | 0 => .rne | 1 => .rtz | 2 => .rup | _ => .rdn

def boolCode (b : Bool) : BitVec 4 := if b then 1 else 0

def boolOf (c : BitVec 4) : Bool := c.getLsbD 0

def nfmtCode : NFmt → BitVec 4
  | .e4m3 => 0 | .e5m2 => 1 | .int4 => 2 | .int3 => 3 | .ue5m3 => 4

def nfmtOf (c : BitVec 4) : NFmt :=
  match c.toNat with
  | 0 => .e4m3 | 1 => .e5m2 | 2 => .int4 | 3 => .int3 | _ => .ue5m3

def trCode : Tr → BitVec 5
  | .none => 0 | .h16 => 1 | .h32 => 2

def trOf (c : BitVec 5) : Tr :=
  match c.toNat with
  | 0 => .none | 1 => .h16 | _ => .h32

def spaceCode : Space → BitVec 2
  | .g => 0 | .s => 1 | .rs => 2

def spaceOf (c : BitVec 2) : Space :=
  match c.toNat with
  | 0 => .g | 1 => .s | _ => .rs

def widthCode : Width → BitVec 3
  | .b8 => 0 | .b16 => 1 | .b32 => 2 | .b64 => 3 | .b128 => 4

def widthOf (c : BitVec 3) : Width :=
  match c.toNat with
  | 0 => .b8 | 1 => .b16 | 2 => .b32 | 3 => .b64 | _ => .b128

/-- Table 12-3. -/
def atomCode : AtomOp → BitVec 4
  | .add => 0 | .min => 1 | .max => 2 | .and => 3 | .or => 4 | .xor => 5 | .exch => 6 | .cas => 7 | .fadd => 8

def atomOf (c : BitVec 4) : AtomOp :=
  match c.toNat with
  | 0 => .add | 1 => .min | 2 => .max | 3 => .and | 4 => .or | 5 => .xor | 6 => .exch | 7 => .cas | _ => .fadd

def cspaceCode : CSpace → BitVec 2
  | .g => 0 | .s => 1 | .r => 2

def cspaceOf (c : BitVec 2) : CSpace :=
  match c.toNat with
  | 0 => .g | 1 => .s | _ => .r

/-- R267. -/
def linkCode : LinkKind → BitVec 2
  | .none => 0 | .barrier => 1 | .counter => 2

def linkOf (c : BitVec 2) : LinkKind :=
  match c.toNat with
  | 0 => .none | 1 => .barrier | _ => .counter

def voteCode : VoteKind → BitVec 2
  | .any => 0 | .all => 1 | .eq => 2 | .ballot => 3

def voteOf (c : BitVec 2) : VoteKind :=
  match c.toNat with
  | 0 => .any | 1 => .all | 2 => .eq | _ => .ballot

def shflCode : ShflMode → BitVec 4
  | .idx => 0 | .up => 1 | .down => 2 | .xor => 3

def shflOf (c : BitVec 4) : ShflMode :=
  match c.toNat with
  | 0 => .idx | 1 => .up | 2 => .down | _ => .xor

/-- R105: kind and index of a pool. -/
def poolCode : Pool → BitVec 4
  | .regs => 0
  | .acc n => 0b01#2 ++ n
  | .stream n => 0b10#2 ++ n

def poolOf (c : BitVec 4) : Pool :=
  if c.extractLsb' 2 2 == 0 then .regs
  else if c.extractLsb' 2 2 == 1 then .acc (c.extractLsb' 0 2) else .stream (c.extractLsb' 0 2)

/-- Table 3-7. -/
def specialCode : SpecialReg → BitVec 4
  | .lane => 0 | .group => 1 | .ngroups => 2 | .team => 3 | .tx => 4 | .ty => 5 | .tz => 6 | .stage => 7
  | .core => 8 | .ctx => 9 | .clock => 0xA | .stack => 0xB

def specialOf (c : BitVec 4) : SpecialReg :=
  match c.toNat with
  | 0 => .lane | 1 => .group | 2 => .ngroups | 3 => .team | 4 => .tx | 5 => .ty | 6 => .tz | 7 => .stage
  | 8 => .core | 9 => .ctx | 0xA => .clock | _ => .stack

/-- An operand field of Table 13-5: bit 6 present, bits [5:0] the scalar. -/
def presentCode : Option (BitVec 6) → BitVec 7
  | none => 0
  | some n => 1#1 ++ n

def presentOf (c : BitVec 7) : Option (BitVec 6) :=
  if c.getLsbD 6 then some (c.extractLsb' 0 6) else none

/-! ### Fields of each class -/

/-- A base word with every operand field zero. -/
def bare (op : BitVec 8) (g : Guard) : Fields :=
  { len := 1, op := op, fn := 0, dd := 0, sa := 0, sb := 0, gd := guardCode g, xf := 0, x := 0 }

def aluFields {F : Type} (op : BitVec 8) (fn : BitVec 4) (o : Alu F) : Fields :=
  { len := extLen o.x, op := op, fn := fn, dd := dstCode o.d, sa := srcCode o.a, sb := srcCode o.b,
    gd := guardCode o.g, xf := BitVec.ofBool (dk o.d) ++ tyCode o.ty, x := extCode o.x }

/-- `sc`: the OP's 96-bit form is E-SC. -/
def aluOf {F : Type} (sc : Bool) (fn : F) (f : Fields) : Alu F :=
  { g := guardOf f.gd, ty := tyOf (f.xf.extractLsb' 0 4), f := fn, d := dstOf (f.xf.getLsbD 4) f.dd,
    a := srcOf f.sa, b := srcOf f.sb, x := extOf sc f.len f.x }

def bitFields {F : Type} (op : BitVec 8) (fn : BitVec 4) (o : BitOp F) : Fields :=
  { len := extLen o.x, op := op, fn := fn, dd := o.bit.extractLsb' 0 4 ++ o.reg, sa := srcCode o.a,
    sb := srcCode o.b, gd := guardCode o.g, xf := o.bit.extractLsb' 4 1 ++ tyCode o.ty, x := extCode o.x }

def bitOf {F : Type} (fn : F) (f : Fields) : BitOp F :=
  { g := guardOf f.gd, ty := tyOf (f.xf.extractLsb' 0 4), f := fn, reg := f.dd.extractLsb' 0 8,
    bit := f.xf.extractLsb' 4 1 ++ f.dd.extractLsb' 8 4, a := srcOf f.sa, b := srcOf f.sb,
    x := extOf false f.len f.x }

/-- The fields of a conversion of narrow elements: FN is the format (R320 to R323). -/
def narrowFields (op : BitVec 8) (o : Narrow) : Fields :=
  { len := extLen o.x, op := op, fn := nfmtCode o.fmt, dd := dstCode o.d, sa := srcCode o.a, sb := srcCode o.b,
    gd := guardCode o.g, xf := trCode o.tr, x := extCode o.x }

def narrowOf (f : Fields) : Narrow :=
  { g := guardOf f.gd, fmt := nfmtOf f.fn, tr := trOf f.xf, d := dstOf false f.dd, a := srcOf f.sa,
    b := srcOf f.sb, x := extOf false f.len f.x }

def jumpFields (op : BitVec 8) (o : Jump) : Fields :=
  { bare op o.g with len := 3, x := o.d1 ++ o.d0 }

def jumpOf (f : Fields) : Jump :=
  { g := guardOf f.gd, d0 := f.x.extractLsb' 0 32, d1 := f.x.extractLsb' 32 32 }

def memFields {F : Type} (op : BitVec 8) (fn : BitVec 4) (o : Mem F) : Fields :=
  { len := extLen o.x, op := op, fn := fn, dd := dstCode o.d, sa := srcCode o.a, sb := srcCode o.b,
    gd := guardCode o.g, xf := spaceCode o.sp ++ widthCode o.w, x := extCode o.x }

def memOf {F : Type} (fn : F) (f : Fields) : Mem F :=
  { g := guardOf f.gd, sp := spaceOf (f.xf.extractLsb' 3 2), w := widthOf (f.xf.extractLsb' 0 3), f := fn,
    d := dstOf false f.dd, a := srcOf f.sa, b := srcOf f.sb, x := extOf false f.len f.x }

def barFields (op : BitVec 8) (o : Bar) : Fields :=
  { len := extLen o.x, op := op, fn := 0, dd := optDstCode o.d, sa := srcCode o.a, sb := srcCode o.b,
    gd := guardCode o.g, xf := if o.remote then 0x10 else 0x08, x := extCode o.x }

def barOf (f : Fields) : Bar :=
  { g := guardOf f.gd, remote := f.xf.getLsbD 4, d := optDstOf f.dd, a := srcOf f.sa, b := srcOf f.sb,
    x := extOf false f.len f.x }

/-- The EENG extension of Table 13-5. -/
def cpyFields (op : BitVec 8) (o : CpyOp) : Fields :=
  { len := 3, op := op, fn := cspaceCode o.ss ++ cspaceCode o.ds, dd := optDstCode o.d,
    sa := srcCode (.s o.dst), sb := srcCode (.s o.src), gd := guardCode o.g, xf := optXf o.d,
    x := 0#10 ++ o.fp ++ BitVec.ofBool o.hold ++ BitVec.ofBool o.det ++ o.pri ++ linkCode o.lk
           ++ presentCode o.opy ++ presentCode o.opx ++ presentCode o.opp ++ presentCode o.opk
           ++ presentCode o.opl }

def cpyOf (f : Fields) : CpyOp :=
  { g := guardOf f.gd, d := optDstOf f.dd, dst := f.sa.extractLsb' 0 6, src := f.sb.extractLsb' 0 6,
    ss := cspaceOf (f.fn.extractLsb' 2 2), ds := cspaceOf (f.fn.extractLsb' 0 2), fp := f.x.extractLsb' 41 13,
    hold := f.x.getLsbD 40, det := f.x.getLsbD 39, pri := f.x.extractLsb' 37 2, lk := linkOf (f.x.extractLsb' 35 2),
    opy := presentOf (f.x.extractLsb' 28 7), opx := presentOf (f.x.extractLsb' 21 7),
    opp := presentOf (f.x.extractLsb' 14 7), opk := presentOf (f.x.extractLsb' 7 7),
    opl := presentOf (f.x.extractLsb' 0 7) }

/-- The EENG extension of Table 15-3. -/
def engFields (op : BitVec 8) (o : EngOp2) : Fields :=
  { len := 3, op := op, fn := o.fn, dd := optDstCode o.d, sa := optScalarCode o.a, sb := optScalarCode o.b,
    gd := guardCode o.g, xf := optXf o.d,
    x := 0#10 ++ o.fp ++ BitVec.ofBool o.hold ++ BitVec.ofBool o.det ++ o.pri ++ linkCode o.lk ++ o.count
           ++ o.fa ++ o.fb ++ 0#2 ++ presentCode o.opp ++ presentCode o.opk ++ presentCode o.opl }

def engOf (f : Fields) : EngOp2 :=
  { g := guardOf f.gd, d := optDstOf f.dd, fn := f.fn, a := optScalarOf f.sa, b := optScalarOf f.sb,
    fp := f.x.extractLsb' 41 13, hold := f.x.getLsbD 40, det := f.x.getLsbD 39, pri := f.x.extractLsb' 37 2,
    lk := linkOf (f.x.extractLsb' 35 2), count := f.x.extractLsb' 27 8, fa := f.x.extractLsb' 25 2,
    fb := f.x.extractLsb' 23 2, opp := presentOf (f.x.extractLsb' 14 7), opk := presentOf (f.x.extractLsb' 7 7),
    opl := presentOf (f.x.extractLsb' 0 7) }

/-- Table 13-7; `ua` and `ub` say whether the OP uses SA and SB. -/
def tokFields (op : BitVec 8) (ua ub : Bool) (o : TokOp) : Fields :=
  { bare op o.g with
    fn := o.fn, dd := optDstCode o.d, xf := optXf o.d, sa := if ua then srcCode (.s o.a) else 0,
    sb := if ub then srcCode (.s o.b) else 0 }

def tokOf (f : Fields) : TokOp :=
  { g := guardOf f.gd, fn := f.fn, d := optDstOf f.dd, a := f.sa.extractLsb' 0 6, b := f.sb.extractLsb' 0 6 }

def accFields (op : BitVec 8) (o : AccOp) : Fields :=
  { bare op o.g with fn := 0#2 ++ o.acc, dd := dstCode o.d, sa := srcCode o.a, sb := srcCode o.b }

def accOf (f : Fields) : AccOp :=
  { g := guardOf f.gd, acc := f.fn.extractLsb' 0 2, d := dstOf false f.dd, a := srcOf f.sa, b := srcOf f.sb }

/-- Table 18-4. `xf` is the row's XF for a vector destination or none. -/
def gspFields (op : BitVec 8) (xf : BitVec 5) (o : GspOp) : Fields :=
  { len := extLen o.x, op := op, fn := boolCode o.age, dd := dstCode o.d, sa := srcCode o.a, sb := srcCode o.b,
    gd := guardCode o.g, xf := if dk o.d then 0x10 else xf, x := extCode o.x }

def gspOf (f : Fields) : GspOp :=
  { g := guardOf f.gd, age := boolOf f.fn, d := dstOf (f.xf.getLsbD 4) f.dd, a := srcOf f.sa, b := srcOf f.sb,
    x := extOf false f.len f.x }

def growFields (op : BitVec 8) (p : Pool) (a : Src) (x : Ext) : Fields :=
  { bare op .always with len := extLen x, fn := poolCode p, sa := srcCode a, x := extCode x }

def depFields (op : BitVec 8) (g : Guard) (d : Option (BitVec 6)) (ix : BitVec 6) (b : Src) (x : Ext) : Fields :=
  { bare op g with
    len := extLen x, dd := optDstCode d, sa := srcCode (.s ix), sb := srcCode b, xf := optXf d, x := extCode x }

def trapFields (op : BitVec 8) (g : Guard) (a : Src) (x : Ext) : Fields :=
  { bare op g with len := extLen x, sa := srcCode a, x := extCode x }

/-- `rdcr` and `wrcr` (Table 6-16): FN and SB hold the number. -/
def crFields (op : BitVec 8) (o : CrOp) : Fields :=
  { bare op o.g with
    fn := o.crn.extractLsb' 8 4, dd := dstCode o.d, sa := srcCode o.a, sb := 0#1 ++ o.crn.extractLsb' 0 8,
    xf := BitVec.ofBool (dk o.d) ++ (if o.wide then 6#4 else 4#4) }

def crOf (f : Fields) : CrOp :=
  { g := guardOf f.gd, wide := f.xf.getLsbD 1, crn := f.fn ++ f.sb.extractLsb' 0 8,
    d := dstOf (f.xf.getLsbD 4) f.dd, a := srcOf f.sa }

def privFields (op : BitVec 8) (o : PrivOp) : Fields :=
  { bare op o.g with
    fn := o.fn, dd := optDstCode o.d, sa := optScalarCode o.a, sb := optScalarCode o.b,
    xf := if o.d.isSome then 0x16 else 0 }

def privOf (f : Fields) : PrivOp :=
  { g := guardOf f.gd, fn := f.fn, d := optDstOf f.dd, a := optScalarOf f.sa, b := optScalarOf f.sb }

/-! ### Instructions and fields -/

/-- The fields of an instruction; `none` for the device's own steps, which have no encoding. -/
def fieldsOf : Instr → Option Fields
  | .iadd o => some (aluFields 0x00 (boolCode o.f) o)
  | .isub o => some (aluFields 0x01 (boolCode o.f) o)
  | .imulLo o => some (aluFields 0x02 0 o)
  | .imulHi o => some (aluFields 0x03 0 o)
  | .imad o => some (aluFields 0x04 (boolCode o.f) o)
  | .iabs o => some (aluFields 0x05 (boolCode o.f) o)
  | .ineg o => some (aluFields 0x06 (boolCode o.f) o)
  | .imin o => some (aluFields 0x07 0 o)
  | .imax o => some (aluFields 0x08 0 o)
  | .iand o => some (aluFields 0x09 0 o)
  | .ior o => some (aluFields 0x0A 0 o)
  | .ixor o => some (aluFields 0x0B 0 o)
  | .inot o => some (aluFields 0x0C 0 o)
  | .shl o => some (aluFields 0x0D 0 o)
  | .shr o => some (aluFields 0x0E 0 o)
  | .sra o => some (aluFields 0x0F 0 o)
  | .rotl o => some (aluFields 0x10 0 o)
  | .bfe o => some (aluFields 0x11 0 o)
  | .bfi o => some (aluFields 0x12 0 o)
  | .popc o => some (aluFields 0x13 0 o)
  | .clz o => some (aluFields 0x14 0 o)
  | .ctz o => some (aluFields 0x15 0 o)
  | .brev o => some (aluFields 0x16 0 o)
  | .icmp o => some (bitFields 0x17 (condCode o.f) o)
  | .sel o => some (aluFields 0x18 0 o)
  | .mov o => some (aluFields 0x19 0 o)
  | .movi o => some (aluFields 0x1A 0 o)
  | .lea o => some (aluFields 0x1B o.f o)
  | .fadd o => some (aluFields 0x20 (rmCode o.f) o)
  | .fsub o => some (aluFields 0x21 (rmCode o.f) o)
  | .fmul o => some (aluFields 0x22 (rmCode o.f) o)
  | .ffma o => some (aluFields 0x23 (rmCode o.f) o)
  | .fdiv o => some (aluFields 0x24 (rmCode o.f) o)
  | .fsqrt o => some (aluFields 0x25 (rmCode o.f) o)
  | .frcp o => some (aluFields 0x26 (rmCode o.f) o)
  | .frsqrt o => some (aluFields 0x27 (rmCode o.f) o)
  | .fexp2 o => some (aluFields 0x28 (rmCode o.f) o)
  | .flog2 o => some (aluFields 0x29 (rmCode o.f) o)
  | .fmin o => some (aluFields 0x2A 0 o)
  | .fmax o => some (aluFields 0x2B 0 o)
  | .fabs o => some (aluFields 0x2C 0 o)
  | .fneg o => some (aluFields 0x2D 0 o)
  | .fcmp o => some (bitFields 0x2E (condCode o.f) o)
  | .fclass o => some (aluFields 0x2F 0 o)
  | .frnd o => some (aluFields 0x30 (rmCode o.f) o)
  | .cvt o => some (aluFields 0x40 (tyCode o.f) o)
  | .cvtq o => some (narrowFields 0x41 o)
  | .cvtx o => some (narrowFields 0x42 o)
  | .hadm o => some (narrowFields 0x43 o)
  | .sclFind o => some (narrowFields 0x44 o)
  | .bra o => some (jumpFields 0x50 o)
  | .brx o => some (jumpFields 0x51 o)
  | .join g => some (bare 0x52 g)
  | .call l o => some { jumpFields 0x53 o with dd := dstCode (.v l), xf := 0x06 }
  | .callIndirect l t => some { bare 0x53 .always with fn := 1, dd := dstCode (.v l), sa := srcCode t, xf := 0x06 }
  | .ret t => some { bare 0x54 .always with sa := srcCode t, xf := 0x06 }
  | .jmp o => some (jumpFields 0x55 o)
  | .jmpIndirect t => some { bare 0x55 .always with fn := 1, sa := srcCode t, xf := 0x06 }
  | .exit g => some (bare 0x56 g)
  | .yield g => some (bare 0x57 g)
  | .nop g => some (bare 0x58 g)
  | .vote o => some { bare 0x59 o.g with
      fn := 0#1 ++ BitVec.ofBool o.scalar ++ voteCode o.kind, dd := dstCode (.v o.d), sa := srcCode (.v o.a),
      xf := o.bit }
  | .shfl o => some (aluFields 0x5A (shflCode o.f) o)
  | .elect g r b => some { bare 0x5B g with dd := dstCode (.v r), xf := b }
  | .ld o => some (memFields 0x60 0 o)
  | .st o => some (memFields 0x61 0 o)
  | .ldf o => some (memFields 0x62 0 o)
  | .ldfk o => some (memFields 0x63 0 o)
  | .ste o => some (memFields 0x64 0 o)
  | .tagSet o => some (memFields 0x65 0 o)
  | .tagSetTile o => some (memFields 0x65 0 o)
  | .tagRd o => some (memFields 0x66 0 o)
  | .atom o => some (memFields 0x67 (atomCode o.f) o)
  | .red o => some (memFields 0x68 (atomCode o.f) o)
  | .pf o => some (memFields 0x69 (boolCode o.f) o)
  | .clnWb o => some (memFields 0x6A 0 o)
  | .clnInv o => some (memFields 0x6A 1 o)
  | .clnWbinv o => some (memFields 0x6A 2 o)
  | .phase g => some (bare 0x80 g)
  | .phaseRel g => some (bare 0x81 g)
  | .phaseAcq g => some (bare 0x82 g)
  | .drain g => some (bare 0x83 g)
  | .barInit o => some (barFields 0x84 o)
  | .barArr o => some (barFields 0x85 o)
  | .barExp o => some (barFields 0x86 o)
  | .barWait o => some (barFields 0x87 o)
  | .barArrw o => some (barFields 0x88 o)
  | .tbar g => some (bare 0x89 g)
  | .cpy o => some (cpyFields 0x90 o)
  | .cpyTile o => some (cpyFields 0x91 o)
  | .cpyGth o => some (cpyFields 0x92 o)
  | .cpySct o => some (cpyFields 0x93 o)
  | .cpyRem o => some (cpyFields 0x94 o)
  | .cpyMcast o => some (cpyFields 0x95 o)
  | .cpyRed o => some (cpyFields 0x96 o)
  | .sfeed o => some (engFields 0x97 o)
  | .tokWait o => some (tokFields 0xA0 true false o)
  | .tokTest o => some (tokFields 0xA1 true false o)
  | .tokCancel o => some (tokFields 0xA2 true false o)
  | .tokDetach o => some (tokFields 0xA3 true false o)
  | .tokAdopt o => some (tokFields 0xA4 false false o)
  | .tokPrio o => some (tokFields 0xA5 true true o)
  | .tokAfter o => some (tokFields 0xA6 true true o)
  | .tokResume o => some (tokFields 0xA7 true false o)
  | .tokState o => some (tokFields 0xA8 true false o)
  | .mma o => some (engFields 0xB0 o)
  | .accZero o => some (accFields 0xB1 o)
  | .accRd o => some (accFields 0xB2 o)
  | .accWr o => some (accFields 0xB3 o)
  | .gspInj o => some (gspFields 0xC0 0x06 o)
  | .gspRd o => some (gspFields 0xC1 0x06 o)
  | .gspMass o => some (gspFields 0xC2 0x0C o)
  | .gspStep o => some (engFields 0xC3 o)
  | .gspSpread o => some (gspFields 0xC4 0x06 o)
  | .strCmp o => some (aluFields 0xC8 0 o)
  | .strEq o => some (bitFields 0xC9 0 o)
  | .strHash o => some (aluFields 0xCA 0 o)
  | .strFind o => some (aluFields 0xCB 0 o)
  | .strPfx o => some (aluFields 0xCC 0 o)
  | .hashI64 o => some (aluFields 0xCD 0 o)
  | .partIdx o => some (aluFields 0xCE 0 o)
  | .grow p a x => some (growFields 0xD0 p a x)
  | .shrink p a x => some (growFields 0xD1 p a x)
  | .launch g d t r => some { bare 0xD2 g with
      dd := (match d with | some n => dstCode (.v n) | none => 0), sa := srcCode (.s t), sb := srcCode (.v r),
      xf := 0x06 }
  | .launchFlush g t => some { bare 0xD3 g with sa := srcCode (.s t) }
  | .depAdd g d ix b x => some (depFields 0xD4 g d ix b x)
  | .depSub g d ix b x => some (depFields 0xD5 g d ix b x)
  | .rdsr g d r => some { bare 0xD6 g with dd := dstCode d, xf := BitVec.ofBool (dk d) ++ specialCode r }
  | .sys g a x => some (trapFields 0xE0 g a x)
  | .trap g a x => some (trapFields 0xE1 g a x)
  | .sigret g => some (bare 0xE2 g)
  | .brk g a x => some (trapFields 0xE3 g a x)
  | .rdcr o => some (crFields 0xE4 o)
  | .wrcr o => some (crFields 0xE5 o)
  | .park o => some (privFields 0xE6 o)
  | .unpark o => some (privFields 0xE7 o)
  | .tlbi o => some (privFields 0xE8 o)
  | .ctxSave o => some (privFields 0xE9 o)
  | .ctxLoad o => some (privFields 0xEA o)
  | .teamOut o => some (privFields 0xEB o)
  | .teamIn o => some (privFields 0xEC o)
  | .halt o | .haltRelease o => some (privFields 0xED o)
  | .trace g a v x => some { trapFields 0xF0 g a x with sb := srcCode (.v v) }
  | .mark g a x => some (trapFields 0xF1 g a x)
  | .rdctr g lat d n x => some { trapFields 0xF2 g n x with
      fn := boolCode lat, dd := dstCode d, xf := if dk d then 0x10 else 0 }
  | _ => none

/-- The instruction whose OP the fields hold (Table 2-9), every field read by its place; `none` for an unassigned
OP. Fields that no instruction has are read too, and `decodeFields` refuses them. -/
def readFields (f : Fields) : Option Instr :=
  let ext := extOf false f.len f.x
  match f.op.toNat with
  | 0x00 => some (.iadd (aluOf false (boolOf f.fn) f))
  | 0x01 => some (.isub (aluOf false (boolOf f.fn) f))
  | 0x02 => some (.imulLo (aluOf false () f))
  | 0x03 => some (.imulHi (aluOf false () f))
  | 0x04 => some (.imad (aluOf true (boolOf f.fn) f))
  | 0x05 => some (.iabs (aluOf false (boolOf f.fn) f))
  | 0x06 => some (.ineg (aluOf false (boolOf f.fn) f))
  | 0x07 => some (.imin (aluOf false () f))
  | 0x08 => some (.imax (aluOf false () f))
  | 0x09 => some (.iand (aluOf false () f))
  | 0x0A => some (.ior (aluOf false () f))
  | 0x0B => some (.ixor (aluOf false () f))
  | 0x0C => some (.inot (aluOf false () f))
  | 0x0D => some (.shl (aluOf false () f))
  | 0x0E => some (.shr (aluOf false () f))
  | 0x0F => some (.sra (aluOf false () f))
  | 0x10 => some (.rotl (aluOf false () f))
  | 0x11 => some (.bfe (aluOf true () f))
  | 0x12 => some (.bfi (aluOf true () f))
  | 0x13 => some (.popc (aluOf false () f))
  | 0x14 => some (.clz (aluOf false () f))
  | 0x15 => some (.ctz (aluOf false () f))
  | 0x16 => some (.brev (aluOf false () f))
  | 0x17 => some (.icmp (bitOf (condOf f.fn) f))
  | 0x18 => some (.sel (aluOf true () f))
  | 0x19 => some (.mov (aluOf false () f))
  | 0x1A => some (.movi (aluOf false () f))
  | 0x1B => some (.lea (aluOf false f.fn f))
  | 0x20 => some (.fadd (aluOf false (rmOf f.fn) f))
  | 0x21 => some (.fsub (aluOf false (rmOf f.fn) f))
  | 0x22 => some (.fmul (aluOf false (rmOf f.fn) f))
  | 0x23 => some (.ffma (aluOf true (rmOf f.fn) f))
  | 0x24 => some (.fdiv (aluOf false (rmOf f.fn) f))
  | 0x25 => some (.fsqrt (aluOf false (rmOf f.fn) f))
  | 0x26 => some (.frcp (aluOf false (rmOf f.fn) f))
  | 0x27 => some (.frsqrt (aluOf false (rmOf f.fn) f))
  | 0x28 => some (.fexp2 (aluOf false (rmOf f.fn) f))
  | 0x29 => some (.flog2 (aluOf false (rmOf f.fn) f))
  | 0x2A => some (.fmin (aluOf false () f))
  | 0x2B => some (.fmax (aluOf false () f))
  | 0x2C => some (.fabs (aluOf false () f))
  | 0x2D => some (.fneg (aluOf false () f))
  | 0x2E => some (.fcmp (bitOf (condOf f.fn) f))
  | 0x2F => some (.fclass (aluOf false () f))
  | 0x30 => some (.frnd (aluOf false (rmOf f.fn) f))
  | 0x40 => some (.cvt (aluOf true (tyOf f.fn) f))
  | 0x41 => some (.cvtq (narrowOf f))
  | 0x42 => some (.cvtx (narrowOf f))
  | 0x43 => some (.hadm (narrowOf f))
  | 0x44 => some (.sclFind (narrowOf f))
  | 0x50 => some (.bra (jumpOf f))
  | 0x51 => some (.brx (jumpOf f))
  | 0x52 => some (.join (guardOf f.gd))
  | 0x53 => if boolOf f.fn then some (.callIndirect (f.dd.extractLsb' 0 8) (srcOf f.sa))
            else some (.call (f.dd.extractLsb' 0 8) (jumpOf f))
  | 0x54 => some (.ret (srcOf f.sa))
  | 0x55 => if boolOf f.fn then some (.jmpIndirect (srcOf f.sa)) else some (.jmp (jumpOf f))
  | 0x56 => some (.exit (guardOf f.gd))
  | 0x57 => some (.yield (guardOf f.gd))
  | 0x58 => some (.nop (guardOf f.gd))
  | 0x59 => some (.vote { g := guardOf f.gd, kind := voteOf (f.fn.extractLsb' 0 2), scalar := f.fn.getLsbD 2,
                          d := f.dd.extractLsb' 0 8, a := f.sa.extractLsb' 0 8, bit := f.xf })
  | 0x5A => some (.shfl (aluOf false (shflOf f.fn) f))
  | 0x5B => some (.elect (guardOf f.gd) (f.dd.extractLsb' 0 8) f.xf)
  | 0x60 => some (.ld (memOf () f))
  | 0x61 => some (.st (memOf () f))
  | 0x62 => some (.ldf (memOf () f))
  | 0x63 => some (.ldfk (memOf () f))
  | 0x64 => some (.ste (memOf () f))
  | 0x65 => if (f.xf.extractLsb' 0 3 == 4) then some (.tagSetTile (memOf () f)) else some (.tagSet (memOf () f))
  | 0x66 => some (.tagRd (memOf () f))
  | 0x67 => some (.atom (memOf (atomOf f.fn) f))
  | 0x68 => some (.red (memOf (atomOf f.fn) f))
  | 0x69 => some (.pf (memOf (boolOf f.fn) f))
  | 0x6A => if f.fn == 0 then some (.clnWb (memOf () f)) else if f.fn == 1 then some (.clnInv (memOf () f))
            else some (.clnWbinv (memOf () f))
  | 0x80 => some (.phase (guardOf f.gd))
  | 0x81 => some (.phaseRel (guardOf f.gd))
  | 0x82 => some (.phaseAcq (guardOf f.gd))
  | 0x83 => some (.drain (guardOf f.gd))
  | 0x84 => some (.barInit (barOf f))
  | 0x85 => some (.barArr (barOf f))
  | 0x86 => some (.barExp (barOf f))
  | 0x87 => some (.barWait (barOf f))
  | 0x88 => some (.barArrw (barOf f))
  | 0x89 => some (.tbar (guardOf f.gd))
  | 0x90 => some (.cpy (cpyOf f))
  | 0x91 => some (.cpyTile (cpyOf f))
  | 0x92 => some (.cpyGth (cpyOf f))
  | 0x93 => some (.cpySct (cpyOf f))
  | 0x94 => some (.cpyRem (cpyOf f))
  | 0x95 => some (.cpyMcast (cpyOf f))
  | 0x96 => some (.cpyRed (cpyOf f))
  | 0x97 => some (.sfeed (engOf f))
  | 0xA0 => some (.tokWait (tokOf f))
  | 0xA1 => some (.tokTest (tokOf f))
  | 0xA2 => some (.tokCancel (tokOf f))
  | 0xA3 => some (.tokDetach (tokOf f))
  | 0xA4 => some (.tokAdopt (tokOf f))
  | 0xA5 => some (.tokPrio (tokOf f))
  | 0xA6 => some (.tokAfter (tokOf f))
  | 0xA7 => some (.tokResume (tokOf f))
  | 0xA8 => some (.tokState (tokOf f))
  | 0xB0 => some (.mma (engOf f))
  | 0xB1 => some (.accZero (accOf f))
  | 0xB2 => some (.accRd (accOf f))
  | 0xB3 => some (.accWr (accOf f))
  | 0xC0 => some (.gspInj (gspOf f))
  | 0xC1 => some (.gspRd (gspOf f))
  | 0xC2 => some (.gspMass (gspOf f))
  | 0xC3 => some (.gspStep (engOf f))
  | 0xC4 => some (.gspSpread (gspOf f))
  | 0xC8 => some (.strCmp (aluOf false () f))
  | 0xC9 => some (.strEq (bitOf () f))
  | 0xCA => some (.strHash (aluOf false () f))
  | 0xCB => some (.strFind (aluOf false () f))
  | 0xCC => some (.strPfx (aluOf false () f))
  | 0xCD => some (.hashI64 (aluOf false () f))
  | 0xCE => some (.partIdx (aluOf false () f))
  | 0xD0 => some (.grow (poolOf f.fn) (srcOf f.sa) ext)
  | 0xD1 => some (.shrink (poolOf f.fn) (srcOf f.sa) ext)
  | 0xD2 => some (.launch (guardOf f.gd) (if f.dd.getLsbD 8 then some (f.dd.extractLsb' 0 8) else none)
                    (f.sa.extractLsb' 0 6) (f.sb.extractLsb' 0 8))
  | 0xD3 => some (.launchFlush (guardOf f.gd) (f.sa.extractLsb' 0 6))
  | 0xD4 => some (.depAdd (guardOf f.gd) (optDstOf f.dd) (f.sa.extractLsb' 0 6) (srcOf f.sb) ext)
  | 0xD5 => some (.depSub (guardOf f.gd) (optDstOf f.dd) (f.sa.extractLsb' 0 6) (srcOf f.sb) ext)
  | 0xD6 => some (.rdsr (guardOf f.gd) (dstOf (f.xf.getLsbD 4) f.dd) (specialOf (f.xf.extractLsb' 0 4)))
  | 0xE0 => some (.sys (guardOf f.gd) (srcOf f.sa) ext)
  | 0xE1 => some (.trap (guardOf f.gd) (srcOf f.sa) ext)
  | 0xE2 => some (.sigret (guardOf f.gd))
  | 0xE3 => some (.brk (guardOf f.gd) (srcOf f.sa) ext)
  | 0xE4 => some (.rdcr (crOf f))
  | 0xE5 => some (.wrcr (crOf f))
  | 0xE6 => some (.park (privOf f))
  | 0xE7 => some (.unpark (privOf f))
  | 0xE8 => some (.tlbi (privOf f))
  | 0xE9 => some (.ctxSave (privOf f))
  | 0xEA => some (.ctxLoad (privOf f))
  | 0xEB => some (.teamOut (privOf f))
  | 0xEC => some (.teamIn (privOf f))
  | 0xED => if boolOf f.fn then some (.haltRelease (privOf f)) else some (.halt (privOf f))
  | 0xF0 => some (.trace (guardOf f.gd) (srcOf f.sa) (f.sb.extractLsb' 0 8) ext)
  | 0xF1 => some (.mark (guardOf f.gd) (srcOf f.sa) ext)
  | 0xF2 => some (.rdctr (guardOf f.gd) (boolOf f.fn) (dstOf (f.xf.getLsbD 4) f.dd) (srcOf f.sa) ext)
  | _ => none

/-- R29, step 2, on the fields: the instruction they hold, if it is well formed and the fields are exactly its
own. A reserved code or a nonzero field that the instruction does not use is in no instruction's fields. -/
def decodeFields (f : Fields) : Except Reject Instr :=
  if f.len == 0 then .error .length
  else
    match readFields f with
    | none => .error .unassigned
    | some i => if wellFormed i && decide (fieldsOf i = some f) then .ok i else .error .form

/-! ### Bytes -/

/-- R5: the value of bytes, the lowest-addressed first. -/
def leNat : List Byte → Nat
  | [] => 0
  | b :: bs => b.toNat + 256 * leNat bs

/-- The `n` low bytes of a value, the lowest first. -/
def leBytes : Nat → Nat → List Byte
  | 0, _ => []
  | n + 1, v => BitVec.ofNat 8 v :: leBytes n (v / 256)

/-- The bytes of an instruction of the length LEN names (Table 2-1). -/
def lenBytes (len : BitVec 2) : Nat := [0, 8, 12, 16].getD len.toNat 0

/-- The length in bytes of an instruction; 0 for a device step. -/
def Instr.bytes (i : Instr) : Nat :=
  match fieldsOf i with
  | some f => lenBytes f.len
  | none => 0

/-- The bytes of an instruction, as memory holds them; none for a device step. -/
def encode (i : Instr) : List Byte :=
  match fieldsOf i with
  | some f => leBytes (lenBytes f.len) (f.base.toNat + 2 ^ 64 * f.x.toNat)
  | none => []

/-- Decodes the instruction at the start of `bs`: total, and named where it refuses. -/
def decode (bs : List Byte) : Except Reject Instr :=
  let w := BitVec.ofNat 64 (leNat (bs.take 8))
  let n := lenBytes (w.extractLsb' 0 2)
  if n = 0 ∨ bs.length < n then .error .length
  else decodeFields (Fields.of w (BitVec.ofNat 64 (leNat ((bs.take n).drop 8))))

/-- The instruction whose bits are `w`, numbered from the least significant bit of its first word; bits above
`nbits` are 0. -/
def decodeTableWord (nbits w : Nat) : Option Instr :=
  match decode (leBytes 16 (w % 2 ^ nbits)) with
  | .ok i => some i
  | .error _ => none

end Sys2Proof
end

