-- ==== Sys2Proof/Config.lean ====
section
/-! DEFINITION. What an implementation fixes and what the spec leaves open: counts of the device, and free values,
constants without a body, of which nothing can be proved. -/

namespace Sys2Proof

/-- What an agent does in one turn: an act of the device that the agenda names (log 1). -/
inductive Act where
  /-- One cycle of scheduler `sched` of core `core`. `stalled` lists the slots, as 2 x group slot + slot, whose
  operands or unit cannot be had in this cycle (R52). -/
  | cycle (core sched : Nat) (stalled : List Nat)
  /-- The same, but where the slot that is chosen stands at a string instruction, that begins and has read nothing yet: its
  words are read in turns of their own (20 R375). -/
  | beginCycle (core sched : Nat) (stalled : List Nat)
  /-- A string instruction that has begun reads the 8-byte word at an address for a lane (20 R375). -/
  | readWord (core gslot slot lane : Nat) (va : BitVec 64)
  /-- The supervisor group of a core issues from a slot (R116). -/
  | supervisor (core slot : Nat)
  /-- A BLOCKED slot looks again at what it waits for. -/
  | wake (core gslot slot : Nat)
  /-- The L1 of a core gives up the sector that holds `pa`: clean bytes are dropped, dirty bytes published (R215). -/
  | evict (core pa : Nat)
  /-- A core's translation caches, the walk cache or its instruction cache drop what they hold for an address
  (R197, R33). -/
  | forget (core va : Nat)
  /-- The stacked cache drops the clean bytes of a peer line (R227). -/
  | dropLine (line : Nat)
  /-- A row of the opcode table that is a step of the device or an access of the host. -/
  | event (i : Instr)
  deriving DecidableEq, Repr

/-- A turn: `dt` nanoseconds pass, then `act`. -/
structure Turn where
  dt : Nat
  act : Act
  deriving DecidableEq, Repr

namespace Config

/-- Cores of the device (R2). -/
abbrev cores : Nat := 192

/-- Group slots of a core (Table 3-5). -/
abbrev gslots : Nat := 64

/-- The number under which State holds the supervisor group of a core, which lies outside the group slots
(R116). -/
abbrev supervisorSlot : Nat := 64

end Config

/-- Which agent moves next where the agenda is empty: free, by the count of turns taken (log 1). -/
opaque Config.freeTurn : Nat → Option Turn

/-- The entry, of the 16 or 64 of an inconsistent CONT group that has CONT = 1, through which a walk translates
(R194): free, by the address of the entry and the turn (log 15). -/
opaque Config.contEntry : Nat → Nat → Nat

/-- Cycle and cache counters 1, 2, 3, 4, 9, 10 and 13 of Table 8-6: free, by core, context, number and turn
(log 19). -/
opaque Config.timingCount : Nat → Nat → Nat → Nat → BitVec 32

/-- Whether a signature over bytes is valid under the fused key (R387); uninterpreted (log 11). -/
opaque Config.signatureValid : List Byte → List Byte → Bool

/-- The attestation key's signature over a report (R387); uninterpreted (log 11). -/
opaque Config.attest : List Byte → List Byte

/-- The fixed hash of R329, by line address: not stated (log 14). -/
opaque Config.portHash : Nat → Nat

/-- The link-level replays of a port in a turn (R332): free, by turn and port (log 16). -/
opaque Config.replays : Nat → Nat → Nat

/-- Whether host memory at an address is reached in a turn (R152): no rule says when it is not (log 45). -/
opaque Config.hostReached : Nat → Nat → Bool

/-- A choice that the spec leaves to the device, such as which FREE landing entry, group slot or token entry is
taken: free, by the kind of choice and the turn (log 4). -/
opaque Config.choice : Nat → Nat → Nat

end Sys2Proof
end

