-- ==== Sys2Proof/Machine/Store.lean ====
section
/-! DEFINITION. A store: a list of key and value pairs in rising order of the key. Register files, tables and memory
are stores; what an unlisted key reads as is the reader's argument. -/

namespace Sys2Proof

/-- Key and value pairs; the operations below keep the keys rising. -/
abbrev Store (α : Type) := List (Nat × α)

namespace Store

variable {α : Type}

/-- The value at a key, if it is listed. -/
def find? : Store α → Nat → Option α
  | [], _ => none
  | (k, v) :: r, j => if j = k then some v else find? r j

/-- The value at a key, or `d`. -/
def get (d : α) (s : Store α) (j : Nat) : α := (find? s j).getD d

/-- Writes a key, in its place. -/
def set : Store α → Nat → α → Store α
  | [], j, v => [(j, v)]
  | (k, w) :: r, j, v =>
    if j < k then (j, v) :: (k, w) :: r
    else if j = k then (j, v) :: r
    else (k, w) :: set r j v

/-- Removes a key. -/
def erase (s : Store α) (j : Nat) : Store α := List.filter (fun e => e.1 != j) s

/-- Writes a key in canonical form: a value equal to what an unlisted key reads as is not listed. -/
def put [DecidableEq α] (d : α) (s : Store α) (j : Nat) (v : α) : Store α :=
  if v = d then erase s j else set s j v

/-- Changes the value at a key. -/
def modify (d : α) (s : Store α) (j : Nat) (f : α → α) : Store α := set s j (f (get d s j))

/-- Writes consecutive keys. -/
def setList : Store α → Nat → List α → Store α
  | s, _, [] => s
  | s, j, v :: vs => setList (set s j v) (j + 1) vs

/-- Reads `n` consecutive keys. -/
def getList (d : α) (s : Store α) (j : Nat) : Nat → List α
  | 0 => []
  | n + 1 => get d s j :: getList d s (j + 1) n

/-- Keeps the entries a test accepts. -/
def keep (s : Store α) (p : Nat → α → Bool) : Store α := List.filter (fun e => p e.1 e.2) s

/-- Changes every listed value. -/
def mapAll (s : Store α) (f : Nat → α → α) : Store α := List.map (fun e => (e.1, f e.1 e.2)) s

/-- Keys rise strictly. -/
def rising : Store α → Bool
  | [] => true
  | [_] => true
  | (k, _) :: (j, w) :: r => k < j && rising ((j, w) :: r)

/-- The canonical form of memory: rising keys, and no value equal to what an unlisted key reads as. -/
def wf [DecidableEq α] (d : α) (s : Store α) : Bool := rising s && s.all (fun e => e.2 != d)

end Store

end Sys2Proof
end

