-- ==== Sys2Proof/Machine/State.lean ====
section
/-! DEFINITION. The state of the machine: all that the spec gives the device, as plain data, and the state after
reset. -/

namespace Sys2Proof.Machine

open Sys2Proof

/-! ### Groups (03 Table 3-1) -/

/-- The state of a slot (Table 3-2). -/
inductive SlotState where
  | empty | ready | wait | parked | blocked
  deriving DecidableEq, Repr

/-- KIND of a wait record (Table 6-14a). -/
inductive WaitKind where
  | reissue | word | team
  deriving DecidableEq, Repr

/-- A wait record (Table 6-14a). -/
structure WaitRec where
  kind : WaitKind
  held : Bool
  place : Nat
  offset : BitVec 32
  phase : Bool
  deriving DecidableEq, Repr

/-- What an agent waits for from the fabric: a line; the atomic of a lane; the update of A and D in a page-table
entry that was read as `old` (R196); a sector written. -/
inductive Want where
  | line (pa : Nat)
  | amo (pa lane : Nat)
  | leaf (pa : Nat) (old : Word)
  | sector (pa : Nat)
  deriving DecidableEq, Repr

/-- What a fabric answer brought to an agent, with the tag of the request. -/
structure Arrived where
  want : Want
  ans : Answer
  tag : Nat
  deriving DecidableEq, Repr

/-- What an access does to its location (ACCESS of Table 6-1). -/
inductive Access where
  | none | read | write | rmw | fetch | frame | stack
  deriving DecidableEq, Repr

/-- A translation (10 R193): the entry used, where it lies, its level and the frame of the page. -/
structure Trans where
  entry : Word
  at_ : Nat
  level : Nat
  frame : Nat
  deriving DecidableEq, Repr

/-- A translated address: physical address, and whether the page's effective scope is CORE (11 R210). -/
structure Where where
  pa : Nat
  scopeCore : Bool
  leaf : Trans
  deriving DecidableEq, Repr

/-- The lanes that wait at a tagged word (12 R237, R239): the address that each gave, of a remote word or a local one,
the access, whether each is counted until its step is taken (R216), and the lanes whose word has lost a tag that the
instruction accepts. -/
structure TagWait where
  remote : Bool
  acc : Access
  counted : Bool
  at_ : Store Word
  bad : Mask
  deriving DecidableEq, Repr

/-- A PC slot (Table 3-2). `act` holds the lanes for which its blocked instruction acts, `done` those whose step of a
tagged-word instruction of `len` bytes is taken (R238), `tagged` those that wait at one, `lost` that a barrier
word at which it waits has lost its tag (R239); `got` the fabric answers that
its blocked instruction waits for, those of requests with a tag of `asked` or above, and `checked` the stack entries that
it has checked from a depth (R45); `read` the words that a string instruction has read ahead, by lane and address (20
R375); `stepped` that an instruction was executed since the last single-step trap; `since` the turn from which the slot
has been ready. -/
structure Slot where
  state : SlotState
  pc : Word
  mask : Mask
  rcv : Word
  since : Nat
  wait : WaitRec
  act : Mask
  done : Mask
  len : Nat
  tagged : Option TagWait
  lost : Bool
  got : List Arrived
  asked : Nat
  checked : Option (Nat × List Where)
  read : List (Nat × Word × Word)
  stepped : Bool
  deriving DecidableEq, Repr

/-- A slice of an operand stream (R300). -/
structure Slice where
  fmt : Nat
  kw : Bool
  col : Bool
  elems : List Byte
  scales : List Byte
  deriving DecidableEq, Repr

/-- A group. `live` says that it has not ended; `pool` is its allotment A; `steps` lists the stack entries whose slot has
executed an instruction since its last single-step trap, `joins` the depths at which JOIN entries were pushed,
`tagWaits` the lanes that act and the tagged words that they wait at for entries spilled so (R239), by depth. Vector registers are keyed
32 x register + lane, latches 32 x latch + lane, accumulators 1,024 x accumulator + 32 x row + column. -/
structure Group where
  live : Bool
  asid : Nat
  privileged : Bool
  number : Nat
  team : Nat
  pool : Nat
  v : Store Lane32
  s : Store Word
  bl : Store Lane32
  accHeld : BitVec 4
  acc : Store Lane32
  strHeld : BitVec 4
  streams : Store (List Slice)
  slot0 : Slot
  slot1 : Slot
  depth : Nat
  steps : List Nat
  joins : List Nat
  tagWaits : Store (Mask × TagWait)
  fpctl : BitVec 5
  fpflags : Store (BitVec 5)
  stack : Store Word
  sstep : Bool
  outstanding : Nat
  defAddr : Word
  defMask : Mask
  fabAddr : Word
  fabPend : Bool
  deriving DecidableEq, Repr

/-! ### Teams (03 R34 to R38, 10 R201 to R207) -/

/-- Why a team is halted (R113, R143, R173, R174, R133, R45); `hit`: at a hit of a debugger, `debugger`: by a phase stop;
`late`: it was swapped in during a dump (R176); `unsaved`: its record could not be written on a core that it was to leave (R391). -/
inductive HaltReason where
  | halt | stop | hit | debugger | watchdog | dump | late | pop | unsaved
  deriving DecidableEq, Repr

/-- A team resident on a core. Tags are keyed by 8-byte word, modes by tile, held arrivals by word offset. -/
structure Team where
  launch : Word
  asid : Nat
  tid : Nat
  x : Nat
  y : Nat
  z : Nat
  stage : Nat
  groups : Nat
  stages : Nat
  teams : Nat
  spadBytes : Nat
  spad : Store Byte
  tags : Store (BitVec 2)
  diagonal : Store Bool
  holds : Store Nat
  heldArr : Store Nat
  pb : Word
  lss : Nat
  halts : List HaltReason
  moving : Bool
  hostAsked : Bool
  ended : List Nat
  deriving DecidableEq, Repr

/-! ### The landing (06 Table 6-1) -/

inductive EntryState where
  | free | pending | inService | held
  deriving DecidableEq, Repr

/-- WHERE and STKIX of a parked entry. -/
inductive Place where
  | slot0 | slot1 | spilled (ix : Nat)
  deriving DecidableEq, Repr

/-- A landing entry. `frame` holds the cause and details of a signal whose frame could not be written, which a
RETRY delivers again (R124); `cow` says that a lane's write met a COW-snapshot page (R119); `ahead` orders entries that a release has put ahead of the others (R134); `pend` is a
resolution by the host that waits for the fabric. -/
structure Landing where
  pc : Word
  rcv : Word
  mask : Mask
  cause : BitVec 8
  state : EntryState
  access : BitVec 3
  asid : Nat
  gslot : Nat
  group : Nat
  team : Nat
  place : Place
  seq : BitVec 32
  tid : Nat
  launch : Word
  detail : Store Word
  frame : Option (BitVec 8 × Store Word)
  cow : Bool
  ahead : Nat
  pend : Option Nat
  deriving DecidableEq, Repr

/-! ### Engine operations (13, 15, 18) -/

/-- The states of Table 13-3. -/
inductive TokState where
  | issued | running | parked | faulted | done | cancelled
  deriving DecidableEq, Repr

/-- What an operation's next unit has come to at its engine: nothing yet; checked and to be performed; sent to a
peer and not answered; answered; for a matrix operation, granted (R313). -/
inductive UnitState where
  | idle | checked | sent | answered
  deriving DecidableEq, Repr

/-- One engine operation. `by` is the issuing group's team index, `origin` the team's linear id and launch;
`holds` lists the tiles held in the issuing team's allocation, `remote` those held in others (team linear id and
tile). `posted` says that a TOKEN message about the fault in hand was posted (R269); `preempt` of a FAULTED operation
that is saved says that a resume waits for its `team.in`; `disarmed` that the region of a `gsp.step` was disarmed (R364). -/
structure Op where
  op : BitVec 8
  fn : BitVec 4
  fp : BitVec 13
  dst : Word
  src : Word
  x : Word
  y : Word
  len : Nat
  lk : LinkKind
  link : Nat
  prio : Nat
  hold : Bool
  cancel : Bool
  preempt : Bool
  started : Bool
  state : TokState
  cause : BitVec 8
  refused : Word
  cursor : Nat
  delivered : Nat
  pred1 : Word
  pred2 : Word
  asid : Nat
  privileged : Bool
  byTeam : Option Nat
  byGroup : Nat
  byGslot : Nat
  tid : Nat
  launch : Word
  stage : Nat
  stages : Nat
  teams : Nat
  detached : Bool
  orphan : Bool
  adopter : Option (Nat × Nat)
  order : Nat
  list : List Word
  claimed : Bool
  unit : UnitState
  got : List Arrived
  slices : List Slice
  tiles : List Nat
  remote : List (Nat × Nat)
  first : Nat
  recal : Bool
  posted : Bool
  disarmed : Bool
  handle : Word
  deriving DecidableEq, Repr

/-- An entry of a token table (R260). A FORWARD entry names another entry (core, slot), or the record of its operation
in the slipway of a context, with the operation as it stands there. -/
inductive TokUse where
  | free
  | live (op : Op)
  | forwardTo (core slot : Nat)
  | forwardSaved (asid : Nat) (va : Word) (op : Op)
  deriving DecidableEq, Repr

/-- `seen`: a final CANCELLED state was returned (R260); `final`: the turn from which the entry has been
reclaimable. -/
structure TokEntry where
  gen : BitVec 24
  use : TokUse
  seen : Bool
  final : Nat
  deriving DecidableEq, Repr

/-! ### Contexts -/

/-- The context-scope control registers (Table 6-5): a master block or a core's copy. -/
structure CtxRegs where
  ptroot : Word
  sigh : Word
  disp : Word
  svcmode : Word
  wdog : Word
  share : Word
  slip : Word
  freering : Word
  fring : Word
  wpa : Vector Word 4
  wpc : Vector Word 4
  deriving DecidableEq, Repr

/-- The debug page of a context (Table 8-1). -/
structure Debug where
  attach : Word
  stopt : Word
  stopph : Word
  phcbase : Word
  phcn : Word
  trbase : Word
  trcfg : Word
  trprod : BitVec 32
  trcons : BitVec 32
  dumpbase : Word
  dumpsize : Word
  dumpstat : Word
  ctrbase : Word
  ctrcfg : Word
  ctrprod : BitVec 32
  ctrcons : BitVec 32
  drainbase : Word
  draincfg : Word
  drainprod : BitVec 32
  draincons : BitVec 32
  dropped : Nat
  deriving DecidableEq, Repr

/-- KIND of a host message (Table 6-9). -/
inductive MsgKind where
  | page | cow | signal | stop | syscall | token | watchdog | groupErr
  deriving DecidableEq, Repr

/-- A host message that waits for the ring (R120). -/
structure Msg where
  kind : MsgKind
  cause : BitVec 8
  asid : Nat
  seq : BitVec 32
  addr : Word
  mask : Mask
  core : Nat
  index : Nat
  tid : Nat
  group : Nat
  access : BitVec 3
  launch : Word
  pc : Word
  deriving DecidableEq, Repr

/-- A context (07 R165, R166; 13 R274). `msgs` are messages that name no landing entry and wait for the ring; `dumpOps`
holds the attached operations of its resident teams as they stood when a live dump began (R175); `swapAsk` the core, the
launch and the team of a swap-in that the host has asked for and that has not ended (R168). -/
structure Ctx where
  exists_ : Bool
  master : CtxRegs
  serial : BitVec 32
  swapl : Word
  swapstat : Word
  chunk : Nat
  depidx : Nat
  adopter : Option (Nat × Nat)
  orphans : List (Nat × Nat)
  msgs : List Msg
  window : Nat
  dbg : Debug
  dumpOps : List Op
  swapAsk : Option (Nat × Word × Nat)
  deriving DecidableEq, Repr

/-! ### Cores -/

/-- A byte that groups have written and the L1 holds (R215): its unpublished writers, by group slot, and whether
its effective scope is CORE. -/
structure DirtyByte where
  val : Byte
  writers : List Nat
  scopeCore : Bool
  deriving DecidableEq, Repr

/-- A leaf held in a translation cache (R197): the PTROOT it was found from, where its entry lies, what it held and the
frame of the page. -/
structure Leaf where
  root : Word
  at_ : Nat
  entry : Word
  level : Nat
  frame : Nat
  deriving DecidableEq, Repr

/-- STATE of CORESVC (Table 21-3). -/
inductive SvcState where
  | inService | draining | drained | faulted
  deriving DecidableEq, Repr

/-- A blocked request for a pool (R49). -/
structure GrowReq where
  gslot : Nat
  slot : Nat
  pool : Pool
  count : Nat
  deriving DecidableEq, Repr

/-- A core. Clean L1 bytes are kept by 32-byte sector (R188), as are instruction blocks (R33); leaves by ASID x 2^45 +
page number. Counters are keyed 16 x ASID + n. `got` holds the fabric answers that the device's own service of the
core waits for. -/
structure Core where
  groups : Store Group
  teams : Store Team
  landing : Store Landing
  landbase : Word
  landseq : BitVec 32
  tokens : Store TokEntry
  copies : Store CtxRegs
  clean : Store (List Byte)
  dirty : Store DirtyByte
  icache : Store (List Byte)
  tlb : Store Leaf
  got : List Arrived
  grows : List GrowReq
  credit : Store Int
  chosen : Store Nat
  counters : Store (BitVec 32)
  latched : Store (BitVec 32)
  svc : SvcState
  fwver : BitVec 8
  recalBusy : Bool
  faulted : Bool
  drainAfterRecal : Bool
  stopped : Bool
  deriving DecidableEq, Repr

/-! ### Queues and the dispatcher -/

inductive QState where
  | disabled | run | paused | error
  deriving DecidableEq, Repr

/-- A packet consumed and not yet counted in DONE: its 128 bytes as 16 words, and the turn of its consumption. -/
structure Packet where
  seq : BitVec 32
  words : List Word
  started : Bool
  finished : Bool
  retired : Bool
  refused : Bool
  token : Word
  order : Nat
  deriving DecidableEq, Repr

/-- A queue (Tables 7-1, 7-2); `got` holds fabric answers that its engine waits for, each with the piece of work that it
is for. -/
structure Queue where
  base : Word
  cfg : Word
  vec : Word
  cons : BitVec 32
  done : BitVec 32
  state : QState
  errCode : BitVec 8
  errSeq : BitVec 32
  packets : List Packet
  got : List (Nat × Arrived)
  deriving DecidableEq, Repr

/-- A chunk of coordinates that a core has claimed: the next one and the end (R158). -/
structure Chunk where
  core : Nat
  next : Nat
  stop : Nat
  deriving DecidableEq, Repr

/-- A grid in the dispatcher (R147, R158, R163). `ring` is the start and capacity of a merged manifest's ring;
`order` the order of consumption. -/
structure Launch where
  id : Word
  words : List Word
  x : Nat
  y : Nat
  z : Nat
  ring : Option (Nat × Nat)
  tmpl : Word
  dealt : Nat
  chunks : List Chunk
  admitted : Nat
  ended : Nat
  depSeen : Bool
  stopped : Bool
  order : Nat
  deriving DecidableEq, Repr

/-- A team that stands saved in the slipway of a context (R126), with its record's address and what the record does not
hold: why it is halted, what a RETRY of a landing entry with ACCESS 5 delivers, by SEQ (R124), the entries whose write met
a COW-snapshot page, by SEQ (R119), the steps that a slot
which could not be divided has taken, with the length of its instruction (R238), and the places where an instruction was
executed since the last single-step trap (Table 6-8), and the depths at which JOIN entries stand. A place is a group's number and 0, 1 or 2 + index for slot 0, slot
1 or an entry of its stack. `stepReqs` are values of SSTEP that wait to be written in the record, by group (R171); `killed` says
that it is killed where it is swapped in (R165). -/
structure SavedTeam where
  asid : Nat
  launch : Word
  tid : Nat
  record : Word
  halts : List HaltReason
  frames : List (BitVec 32 × BitVec 8 × Store Word)
  cows : List (BitVec 32)
  dones : List (Nat × Nat × Mask × Nat)
  steps : List (Nat × Nat)
  joins : List (Nat × Nat)
  stepReqs : List (Nat × Bool)
  killed : Bool
  deriving DecidableEq, Repr

/-- An open merged manifest of a template of a context (R162). -/
structure OpenManifest where
  asid : Nat
  tmpl : Word
  serial : BitVec 32
  words : List Word
  start : Nat
  count : Nat
  first : Nat
  deriving DecidableEq, Repr

/-- A dependence counter (R159). -/
structure DepCounter where
  count : BitVec 32
  owner : Nat
  under : Bool
  deriving DecidableEq, Repr

/-! ### Fabric and gossip -/

inductive PortState where
  | down | training | up | retired
  deriving DecidableEq, Repr

structure Port where
  retries : BitVec 16
  retire : Bool
  plane : BitVec 4
  state : PortState
  deriving DecidableEq, Repr

structure Route where
  caps : BitVec 16
  down : Bool
  ports : BitVec 16
  deriving DecidableEq, Repr

/-- The rate toward a target (R338), the microsecond of its last decrease, whether a mark came in this one, and the time
of the last interval's end. -/
structure Rate where
  r : Nat
  last : Option Nat
  marked : Bool
  ended : Nat
  deriving DecidableEq, Repr

/-- Who waits for the answer of a request; `queue`: a piece of work of a queue; `service`: the device's own work for a
core; `prefetch`: nobody, a line that `pf` brings; `gone`: nobody any more, but a group that may count it (R216). -/
inductive Origin where
  | slot (core gslot slot : Nat) (want : Want)
  | red (core gslot : Nat) (lane : Nat) (addr va : Word)
  | writeback (sector : Nat) (writers : List (Nat × Nat))
  | unit (core slot : Nat) (want : Want)
  | queue (q job : Nat) (want : Want)
  | service (core : Nat) (want : Want)
  | prefetch (core asid : Nat)
  | gone (core gslot : Nat) (counted : Bool)
  deriving DecidableEq, Repr

/-- A request in flight (R332, R333). -/
structure Request where
  tag : Nat
  target : Nat
  port : Nat
  sent : Nat
  origin : Origin
  op : HomeOp
  pa : Nat
  deriving DecidableEq, Repr

/-- A byte of a peer line that groups of this device have written and the home has not acknowledged (R227): its writers
since the last write-back, and the tag of the write-back that carries it. -/
structure PeerByte where
  val : Byte
  writers : List (Nat × Nat)
  inFlight : Option Nat
  deriving DecidableEq, Repr

/-- An armed gossip region (Table 18-2). `stepAcked` says that the half of the step in hand was acknowledged; `stepIn`
lists the stamps of halves accepted or recalled for steps not yet complete (R353). -/
structure Region where
  armed : Bool
  mode : Bool
  frac : Nat
  nb : List Nat
  asid : Nat
  period : Nat
  va : Word
  frame : Nat
  step : BitVec 64
  done : BitVec 64
  recalled : BitVec 8
  seqout : List (BitVec 32)
  seqin : List (BitVec 32)
  probe : List (BitVec 64)
  time : List (BitVec 64)
  lastTake : Nat
  disarming : Bool
  stepAcked : Bool
  stepIn : List (BitVec 64)
  deriving DecidableEq, Repr

/-- A half that this device sent and holds (R350), and the handle of the operation that took it. `k` is the lowest index
of its receiver in NB. -/
structure HeldHalf where
  region : Nat
  peer : Nat
  k : Nat
  step : BitVec 64
  seq : BitVec 32
  vals : List Word
  weight : Word
  sent : Nat
  op : Option Word
  deriving DecidableEq, Repr

/-! ### Firmware and the device -/

/-- Where bring-up stands (R386). -/
inductive Boot where
  | off | ioOnly | service
  deriving DecidableEq, Repr

/-- A firmware image of Table 21-2, as bytes. -/
structure Images where
  slotA : List Byte
  slotB : List Byte
  runningA : Bool
  supervisor : List Byte
  minManagement : Nat
  minSupervisor : Nat
  deriving DecidableEq, Repr

/-- What left the device, in order (log 1). -/
inductive Sent where
  | request (r : Request)
  | reply (src tag : Nat) (ans : Answer) (marked : Bool)
  | half (r k : Nat) (h : HalfPkt)
  | halfAnswer (dest region : Nat) (kind : Nat) (n seqin : BitVec 32)
  | recall (dest region : Nat) (s : BitVec 64) (n : BitVec 32)
  | time (port : Nat) (t : Nat)
  | msix (vector : Nat)
  | management (code : Nat) (arg : Nat)
  | report (bytes : List Byte)
  | hostData (bytes : List Byte)
  deriving DecidableEq, Repr

/-- The issuer of the instruction in hand. -/
structure Issuer where
  core : Nat
  gslot : Nat
  slot : Nat
  deriving DecidableEq, Repr

/-- Why the machine stops. -/
inductive Fault where
  /-- `exec` was given an instruction while the issuer names no slot that carries lanes. Raised by the meanings of
  the instructions; `step` never gives one so. Safe: the hardware issues no such instruction (R52). -/
  | noIssuer
  deriving DecidableEq, Repr

/-- Why the model gives no next state. -/
inductive Refusal where
  /-- An instruction without a meaning. Raised by `exec` alone. Safe. -/
  | notModelled (mnemonic : String)
  deriving DecidableEq, Repr

/-- The machine. Memory is keyed by physical address, peer bytes by physical address in the peer windows, retired
frames by frame number. A non-leaf entry in the walk cache stands beside the PTROOT it was found from. An answer to a
request with a tag below `lineFrom` of its line is older than a moment at which the stacked cache gave the line up; one
below `peersFrom` is older than an acquire, which the stacked cache has given its clean peer lines up for (R218, R227). `gspLast` is the region of the
last operation on regions where that was a DISARM. `tsfirst` says that a first alignment has been made; `slew` is what the
clock has still to gain or lose, one count in 2^14, of which `ran` have passed (R340); `ticked` and `synced` are the times
of the last counter tick and time message. The last five fields are the model's own: who issues, what is to come, the count of turns,
the count of issues of engine operations, and what left the device. -/
structure State where
  time : Nat
  boot : Boot
  tripped : Bool
  mem : Store Byte
  carve : Nat
  retiredFrames : List Nat
  cores : Store Core
  ctxs : Store Ctx
  queues : Store Queue
  launches : List Launch
  opens : List OpenManifest
  swapNeeds : List (Word × Nat)
  saved : List SavedTeam
  deps : Store DepCounter
  walk : Store (Word × Word)
  domValid : Bool
  domId : Nat
  tsync : Bool
  tsmaster : Bool
  tsfrom : Nat
  tsfirst : Bool
  slew : Int
  ran : Nat
  ticked : Nat
  synced : Nat
  tmoexp : Nat
  congInc : Nat
  congDec : Nat
  congRmin : Nat
  congThresh : Nat
  ports : Store Port
  routes : Store Route
  rates : Store Rate
  requests : List Request
  nextTag : Nat
  performed : List (Nat × Nat × Nat)
  peerClean : Store (List Byte)
  peerDirty : Store PeerByte
  lineFrom : Store Nat
  peersFrom : Nat
  hostLines : List Nat
  gspBase : Nat
  gspLast : Option Nat
  gspErr : BitVec 8
  regions : Store Region
  heldHalves : List HeldHalf
  waitingHalves : List HalfPkt
  tick : Nat
  fwstage : Word
  images : Images
  cur : Issuer
  agenda : List Turn
  turn : Nat
  issued : Nat
  out : List Sent
  deriving DecidableEq, Repr

/-! ### Values at reset -/

def WaitRec.zero : WaitRec := ⟨.reissue, false, 0, 0, false⟩

/-- An EMPTY slot. -/
def Slot.empty : Slot := ⟨.empty, 0, 0, BitVec.allOnes 64, 0, .zero, 0, 0, 0, none, false, [], 0, none, [], false⟩

/-- A group slot that no group holds; the register values stand for a supervisor group before its firmware is
loaded too (logs 4, 5). -/
def Group.none : Group :=
  { live := false, asid := 0, privileged := false, number := 0, team := 0, pool := 0, v := [], s := [],
    bl := [], accHeld := 0, acc := [], strHeld := 0, streams := [], slot0 := .empty, slot1 := .empty, depth := 0, steps := [], joins := [], tagWaits := [],
    fpctl := 0, fpflags := [], stack := [], sstep := false, outstanding := 0, defAddr := 0, defMask := 0,
    fabAddr := 0, fabPend := false }

/-- A team index that no team holds. -/
def Team.none : Team :=
  { launch := 0, asid := 0, tid := 0, x := 0, y := 0, z := 0, stage := 0, groups := 0, stages := 1, teams := 0,
    spadBytes := 0, spad := [], tags := [], diagonal := [], holds := [], heldArr := [], pb := 0, lss := 4096,
    halts := [], moving := false, hostAsked := false, ended := [] }

/-- A FREE landing entry (Table 6-1). -/
def Landing.free : Landing :=
  { pc := 0, rcv := 0, mask := 0, cause := 0, state := .free, access := 0, asid := 0, gslot := 0, group := 0,
    team := 0, place := .slot0, seq := 0, tid := 0, launch := 0, detail := [], frame := .none, cow := false, ahead := 0,
    pend := .none }

/-- A FREE token entry; generation 0 (log 4). -/
def TokEntry.free : TokEntry := ⟨0, .free, false, 0⟩

/-- Every register of the CR window 0 (Table 7-10). -/
def CtxRegs.zero : CtxRegs :=
  { ptroot := 0, sigh := 0, disp := 0, svcmode := 0, wdog := 0, share := 0, slip := 0, freering := 0, fring := 0,
    wpa := #v[0, 0, 0, 0], wpc := #v[0, 0, 0, 0] }

/-- The debug page at reset (Table 8-1). -/
def Debug.reset : Debug :=
  { attach := 0, stopt := 0, stopph := 0, phcbase := 0, phcn := 0, trbase := 0, trcfg := 0, trprod := 0,
    trcons := 0, dumpbase := 0, dumpsize := 0, dumpstat := 0, ctrbase := 0, ctrcfg := 0, ctrprod := 0, ctrcons := 0,
    drainbase := 0, draincfg := 0, drainprod := 0, draincons := 0, dropped := 0 }

/-- A context that does not exist (Table 7-10). -/
def Ctx.reset : Ctx :=
  { exists_ := false, master := .zero, serial := 0, swapl := 0, swapstat := 0, chunk := 1, depidx := 0,
    adopter := .none, orphans := [], msgs := [], window := 0, dbg := .reset, dumpOps := [], swapAsk := .none }

/-- A core at reset: DRAINED (Table 21-3). -/
def Core.reset : Core :=
  { groups := [], teams := [], landing := [], landbase := 0, landseq := 0, tokens := [], copies := [], clean := [],
    dirty := [], icache := [], tlb := [], got := [], grows := [], credit := [], chosen := [], counters := [], latched := [],
    svc := .drained, fwver := 0, recalBusy := false, faulted := false, drainAfterRecal := false, stopped := false }

/-- A DISABLED queue (Table 7-1). -/
def Queue.reset : Queue :=
  { base := 0, cfg := 0, vec := 0, cons := 0, done := 0, state := .disabled, errCode := 0, errSeq := 0,
    packets := [], got := [] }

/-- A dependence counter (log 4). -/
def DepCounter.reset : DepCounter := ⟨0, 0, false⟩

def Port.reset : Port := ⟨0, false, 0, .down⟩

def Route.reset : Route := ⟨0, false, 0⟩

/-- R338: the rate starts at 4,096. -/
def Rate.reset : Rate := ⟨4096, none, false, 0⟩

/-- A region that is not armed (Table 18-2). -/
def Region.reset : Region :=
  { armed := false, mode := false, frac := 0, nb := [], asid := 0, period := 0, va := 0, frame := 0, step := 0,
    done := 0, recalled := 0, seqout := [], seqin := [], probe := [], time := [], lastTake := 0, disarming := false,
    stepAcked := false, stepIn := [] }

/-- The machine right after reset: power is applied and bring-up (R386) has not begun. -/
def State.reset : State :=
  { time := 0, boot := .off, tripped := false, mem := [], carve := 0, retiredFrames := [], cores := [], ctxs := [],
    queues := [], launches := [], opens := [], swapNeeds := [], saved := [], deps := [], walk := [], domValid := false,
    domId := 0x3FF, tsync := false, tsmaster := false, tsfrom := 0, tsfirst := false, slew := 0, ran := 0,
    ticked := 0, synced := 0, tmoexp := 24, congInc := 16, congDec := 2, congRmin := 16,
    congThresh := 768, ports := [], routes := [], rates := [], requests := [], nextTag := 0, performed := [],
    peerClean := [], peerDirty := [], lineFrom := [], peersFrom := 0, hostLines := [], gspBase := 0, gspLast := none, gspErr := 0, regions := [],
    heldHalves := [], waitingHalves := [], tick := 20, fwstage := 0,
    images := ⟨[], [], true, [], 0, 0⟩, cur := ⟨0, 0, 0⟩, agenda := [], turn := 0, issued := 0, out := [] }

end Sys2Proof.Machine
end

