-- ==== Sys2Proof/Machine/Access.lean ====
section
/-! DEFINITION. Names for parts of the state: cores, groups, teams, contexts, slots, lanes and registers, each read and
written through one pair of operations. -/

namespace Sys2Proof.Machine

open Sys2Proof

/-- The outcome of a step. -/
abbrev Out := Host.Outcome State Fault Refusal

/-! ### Parts of the state -/

def State.core (s : State) (c : Nat) : Core := s.cores.get .reset c

def State.setCore (s : State) (c : Nat) (k : Core) : State := { s with cores := s.cores.set c k }

def State.onCore (s : State) (c : Nat) (f : Core → Core) : State := s.setCore c (f (s.core c))

/-- The group in a group slot of a core; the supervisor group stands at slot 64. -/
def State.group (s : State) (c g : Nat) : Group := (s.core c).groups.get .none g

def Core.setGroup (k : Core) (g : Nat) (x : Group) : Core := { k with groups := k.groups.set g x }

def State.setGroup (s : State) (c g : Nat) (x : Group) : State := s.onCore c fun k => k.setGroup g x

def State.onGroup (s : State) (c g : Nat) (f : Group → Group) : State := s.setGroup c g (f (s.group c g))

def State.team (s : State) (c t : Nat) : Team := (s.core c).teams.get .none t

def State.setTeam (s : State) (c t : Nat) (x : Team) : State :=
  s.onCore c fun k => { k with teams := k.teams.set t x }

def State.onTeam (s : State) (c t : Nat) (f : Team → Team) : State := s.setTeam c t (f (s.team c t))

def State.hasTeam (s : State) (c t : Nat) : Bool := ((s.core c).teams.find? t).isSome

def State.ctx (s : State) (a : Nat) : Ctx := s.ctxs.get .reset a

def State.setCtx (s : State) (a : Nat) (x : Ctx) : State := { s with ctxs := s.ctxs.set a x }

def State.onCtx (s : State) (a : Nat) (f : Ctx → Ctx) : State := s.setCtx a (f (s.ctx a))

def State.queue (s : State) (q : Nat) : Queue := s.queues.get .reset q

def State.setQueue (s : State) (q : Nat) (x : Queue) : State := { s with queues := s.queues.set q x }

def State.onQueue (s : State) (q : Nat) (f : Queue → Queue) : State := s.setQueue q (f (s.queue q))

def State.dep (s : State) (i : Nat) : DepCounter := s.deps.get .reset i

def State.setDep (s : State) (i : Nat) (x : DepCounter) : State := { s with deps := s.deps.set i x }

def State.port (s : State) (n : Nat) : Port := s.ports.get .reset n

def State.setPort (s : State) (n : Nat) (x : Port) : State := { s with ports := s.ports.set n x }

def State.route (s : State) (d : Nat) : Route := s.routes.get .reset d

def State.setRoute (s : State) (d : Nat) (x : Route) : State := { s with routes := s.routes.set d x }

def State.region (s : State) (r : Nat) : Region := s.regions.get .reset r

def State.setRegion (s : State) (r : Nat) (x : Region) : State := { s with regions := s.regions.set r x }

def State.token (s : State) (c e : Nat) : TokEntry := (s.core c).tokens.get .free e

def State.setToken (s : State) (c e : Nat) (x : TokEntry) : State :=
  s.onCore c fun k => { k with tokens := k.tokens.set e x }

def State.entry (s : State) (c i : Nat) : Landing := (s.core c).landing.get .free i

/-- Adds to what left the device. -/
def State.send (s : State) (x : Sent) : State := { s with out := s.out ++ [x] }

/-- The context-scope registers that govern on a core: its copy where the context is resident, else the master
block (R117, R166). -/
def State.regs (s : State) (c a : Nat) : CtxRegs := ((s.core c).copies.find? a).getD (s.ctx a).master

/-- One of a list of candidates, as the device likes (`Config.choice`). -/
def State.pick {α : Type} (s : State) (kind : Nat) (l : List α) : Option α :=
  l[Config.choice kind s.turn % l.length]?

/-! ### Lanes -/

/-- The lanes of a mask, in rising order. -/
def lanes (m : Mask) : List Nat := (List.range 32).filter fun l => m.getLsbD l

/-- The mask of a list of lanes. -/
def maskOf (ls : List Nat) : Mask := ls.foldl (fun m l => m ||| BitVec.twoPow 32 l) 0

/-- The lowest-numbered lane of a mask; 0 for the empty mask. -/
def lowest (m : Mask) : Nat := (lanes m).headD 0

/-- All 32 lanes. -/
def allLanes : Mask := BitVec.allOnes 32

/-- The reconvergence address none (R40). -/
def noRcv : Word := BitVec.allOnes 64

/-! ### Slots of a group -/

/-- The slot of a number, 0 or 1. -/
def Group.slot (g : Group) (n : Nat) : Slot := if n = 0 then g.slot0 else g.slot1

def Group.setSlot (g : Group) (n : Nat) (x : Slot) : Group :=
  if n = 0 then { g with slot0 := x } else { g with slot1 := x }

def Group.onSlot (g : Group) (n : Nat) (f : Slot → Slot) : Group := g.setSlot n (f (g.slot n))

/-- The number of the other slot. -/
def other (n : Nat) : Nat := if n = 0 then 1 else 0

/-! ### Registers -/

/-- A 32-bit vector register of a lane. -/
def Group.vreg (g : Group) (n l : Nat) : Lane32 := g.v.get 0 (32 * n + l)

def Group.setVreg (g : Group) (n l : Nat) (x : Lane32) : Group := { g with v := g.v.set (32 * n + l) x }

/-- A scalar register: one copy per group (R39). -/
def Group.sreg (g : Group) (n : Nat) : Word := g.s.get 0 n

def Group.setSreg (g : Group) (n : Nat) (x : Word) : Group := { g with s := g.s.set n x }

/-- A bypass latch of a lane. -/
def Group.latch (g : Group) (n l : Nat) : Lane32 := g.bl.get 0 (32 * n + l)

def Group.setLatch (g : Group) (n l : Nat) (x : Lane32) : Group := { g with bl := g.bl.set (32 * n + l) x }

/-- The registers from `n` up, `w` bits of a lane, the low part in the lowest-numbered register (R19). -/
def Group.vwide (g : Group) (n l w : Nat) : BitVec 128 :=
  if w = 64 then ((g.vreg (n + 1) l) ++ (g.vreg n l)).setWidth 128
  else if w = 128 then (g.vreg (n + 3) l) ++ (g.vreg (n + 2) l) ++ (g.vreg (n + 1) l) ++ (g.vreg n l)
  else (g.vreg n l).setWidth 128

def Group.setVwide (g : Group) (n l w : Nat) (x : BitVec 128) : Group :=
  let g := g.setVreg n l (x.extractLsb' 0 32)
  if w = 64 then g.setVreg (n + 1) l (x.extractLsb' 32 32)
  else if w = 128 then
    ((g.setVreg (n + 1) l (x.extractLsb' 32 32)).setVreg (n + 2) l (x.extractLsb' 64 32)).setVreg (n + 3) l
      (x.extractLsb' 96 32)
  else g

def Group.flags (g : Group) (l : Nat) : BitVec 5 := g.fpflags.get 0 l

def Group.setFlags (g : Group) (l : Nat) (x : BitVec 5) : Group := { g with fpflags := g.fpflags.set l x }

/-- `%stack` of a lane. -/
def Group.stk (g : Group) (l : Nat) : Word := g.stack.get 0 l

def Group.setStk (g : Group) (l : Nat) (x : Word) : Group := { g with stack := g.stack.set l x }

/-- An accumulator element: row and column (R316). -/
def Group.accAt (g : Group) (a row col : Nat) : Lane32 := g.acc.get 0 (1024 * a + 32 * row + col)

def Group.setAcc (g : Group) (a row col : Nat) (x : Lane32) : Group :=
  { g with acc := g.acc.set (1024 * a + 32 * row + col) x }

def Group.stream (g : Group) (n : Nat) : List Slice := g.streams.get [] n

def Group.setStream (g : Group) (n : Nat) (x : List Slice) : Group := { g with streams := g.streams.set n x }

/-! ### Causes (Table 6-4) -/

namespace Cause
def illegal : BitVec 8 := 0x01
def privileged : BitVec 8 := 0x02
def regRange : BitVec 8 := 0x03
def align : BitVec 8 := 0x04
def notPresent : BitVec 8 := 0x05
def permission : BitVec 8 := 0x06
def scratchRange : BitVec 8 := 0x07
def ownership : BitVec 8 := 0x08
def tagClass : BitVec 8 := 0x09
/-- FP_INVALID; the other four exceptions follow it (Table 4-3). -/
def fpInvalid : BitVec 8 := 0x0A
def breakpoint : BitVec 8 := 0x10
def watchpoint : BitVec 8 := 0x11
def singleStep : BitVec 8 := 0x12
def syscall : BitVec 8 := 0x13
def softTrap : BitVec 8 := 0x14
def tokenFault : BitVec 8 := 0x15
def remoteOp : BitVec 8 := 0x16
def remoteTimeout : BitVec 8 := 0x17
def deferredReduction : BitVec 8 := 0x18
def resource : BitVec 8 := 0x1B
def watchdog : BitVec 8 := 0x1C
end Cause

/-- The code of ACCESS (Table 6-1). -/
def Access.code : Access → BitVec 3
  | .none => 0 | .read => 1 | .write => 2 | .rmw => 3 | .fetch => 4 | .frame => 5 | .stack => 6

/-- A write for the checks of Table 10-6 and the watches of Table 6-8. -/
def Access.writes : Access → Bool
  | .write | .rmw | .frame => true
  | _ => false

/-- A read for the watches of Table 6-8. -/
def Access.reads : Access → Bool
  | .read | .rmw => true
  | _ => false

/-! ### Counters (08 R179) -/

/-- Adds to counter `n` of a context on a core. -/
def State.count (s : State) (c a n k : Nat) : State :=
  s.onCore c fun x =>
    { x with counters := x.counters.modify 0 (16 * a + n) fun v => v + BitVec.ofNat 32 k }

/-- Restarts the watchdog window of a context (R133). -/
def State.alive (s : State) (a : Nat) : State := s.onCtx a fun x => { x with window := s.time }

end Sys2Proof.Machine
end

