-- ==== Sys2Proof/Machine/Memory.lean ====
section
/-! DEFINITION. Memory: the physical map, the L1s and the stacked cache, page tables and translation, scratchpad. Every
access of a group, an engine or a queue goes through these operations. -/

namespace Sys2Proof.Machine

open Sys2Proof

/-! ### The physical map (10 Table 10-1) -/

def hbmEnd : Nat := 0x6000000000
def carveBase : Nat := 0x8000000000
def blockBase : Nat := 0xA000000000
def peerBase : Nat := 0x4000000000000
def hostBase : Nat := 0x8000000000000
def paEnd : Nat := 0x10000000000000

/-- An address in a peer window. -/
def isPeer (pa : Nat) : Bool := peerBase ≤ pa && pa < hostBase

/-- The device a peer window names. -/
def peerOf (pa : Nat) : Nat := (pa - peerBase) / 2 ^ 40

/-- The physical address on the home device that a peer-window address names (R328). -/
def homeAddr (pa : Nat) : Nat := (pa - peerBase) % 2 ^ 40

/-- Host memory (Table 10-1). -/
def isHost (pa : Nat) : Bool := hostBase ≤ pa && pa < paEnd

/-- This device's HBM or carve-out as mapped now; a retired frame is unmapped (R395). -/
def State.own (s : State) (pa : Nat) : Bool :=
  (pa < hbmEnd && !s.retiredFrames.contains (pa / 4096))
    || (carveBase ≤ pa && pa < carveBase + 64 * 2 ^ 20 * s.carve)

/-- A mapped physical address (R186). The window of the device's own id is unmapped. -/
def State.mapped (s : State) (pa : Nat) : Bool :=
  s.own pa || (isPeer pa && !(s.domValid && peerOf pa == s.domId)) || isHost pa

/-! ### Physical memory -/

/-- What an unlisted byte of memory reads as (log 3). -/
def blank : Byte := 0

/-- The canonical form of memory: addresses rise strictly and no byte listed is blank. -/
def Memory.wf (m : Store Byte) : Bool := Store.wf blank m

def State.readByte (s : State) (pa : Nat) : Byte := s.mem.get blank pa

def State.writeByte (s : State) (pa : Nat) (b : Byte) : State := { s with mem := s.mem.put blank pa b }

/-- `n` bytes of memory from `pa`. -/
def State.readMem (s : State) (pa : Nat) : Nat → List Byte
  | 0 => []
  | n + 1 => s.readByte pa :: State.readMem s (pa + 1) n

def State.writeMem (s : State) (pa : Nat) : List Byte → State
  | [] => s
  | b :: bs => State.writeMem (s.writeByte pa b) (pa + 1) bs

/-- Little-endian words of memory (R5). -/
def State.read64 (s : State) (pa : Nat) : Word := BitVec.ofNat 64 (leNat (s.readMem pa 8))

def State.write64 (s : State) (pa : Nat) (w : Word) : State := s.writeMem pa (leBytes 8 w.toNat)

def State.read32 (s : State) (pa : Nat) : BitVec 32 := BitVec.ofNat 32 (leNat (s.readMem pa 4))

def State.write32 (s : State) (pa : Nat) (w : BitVec 32) : State := s.writeMem pa (leBytes 4 w.toNat)

/-! ### The stacked cache and the L1 -/

/-- The bytes of a held peer line, with the bytes that this device wrote over it (R227). -/
def State.overPeer (s : State) (pa : Nat) (bs : List Byte) : List Byte :=
  bs.zipIdx.map fun (b, i) =>
    match s.peerDirty.find? (pa + i) with
    | some d => d.val
    | none => b

/-- `n` bytes at the stacked cache; a peer line not held reads as `line`, the bytes that an answer brought. -/
def State.below (s : State) (pa n : Nat) (line : Option (List Byte)) : Option (List Byte) :=
  if isPeer pa then
    let whole := match s.peerClean.find? (pa / 128) with
      | some l => some l
      | none => line
    whole.map fun l => s.overPeer pa ((l.drop (pa % 128)).take n)
  else some (s.readMem pa n)

/-! ### What peers hold (16 R329, R335, R337) -/

/-- The UP ports of the route to a device (R329). -/
def State.upPorts (s : State) (d : Nat) : List Nat :=
  (List.range 16).filter fun n => (s.route d).ports.getLsbD n && (s.port n).state == .up

/-- Something can come from another device: bring-up has ended and a port is UP (21 R386). -/
def State.linked (s : State) : Bool := s.boot == .service && (List.range 16).any fun n => (s.port n).state == .up

/-- The ports that a new request to the device may take (R337). -/
def State.freePorts (s : State) (d : Nat) : List Nat := (s.upPorts d).filter fun n => !(s.port n).retire

/-- Accesses to the device do not fail at once (R335). -/
def State.reachable (s : State) (d : Nat) : Bool := s.domValid && !(s.route d).down && !(s.upPorts d).isEmpty

/-- The stacked cache gives up a clean peer line; reads of it that are under way do not bring it back. -/
def State.dropPeerLine (s : State) (line : Nat) : State :=
  { s with peerClean := s.peerClean.erase line, lineFrom := s.lineFrom.set line s.nextTag }

/-- The stacked cache gives up its clean peer lines (R227). -/
def State.dropPeers (s : State) : State := { s with peerClean := [], peersFrom := s.nextTag }

/-- The fabric error record of a group: the first failure stays (R335). -/
def Group.fabricError (g : Group) (addr : Word) : Group :=
  if g.fabPend then g else { g with fabPend := true, fabAddr := addr }

/-- The L1s of all cores hold nothing of a line any more. -/
def State.dropLineAll (s : State) (line : Nat) : State :=
  { s with cores := s.cores.mapAll fun _ k =>
      { k with clean := k.clean.keep fun sec _ => sec / 4 != line, dirty := k.dirty.keep fun pa _ => pa / 128 != line } }

/-- The groups with bytes of a line that are not acknowledged: in an L1, in the stacked cache, or carried by a
write-back. -/
def State.lineWriters (s : State) (line : Nat) : List (Nat × Nat) :=
  let add := fun (l ws : List (Nat × Nat)) => ws.foldl (fun l w => if l.contains w then l else l ++ [w]) l
  let l := s.cores.foldl (fun l (c, k) =>
    (k.dirty.filter fun e => e.1 / 128 == line).foldl (fun l e => add l (e.2.writers.map fun g => (c, g))) l) []
  let l := (s.peerDirty.filter fun e => e.1 / 128 == line).foldl (fun l e => add l e.2.writers) l
  s.requests.foldl (fun l r => match r.origin with
    | .writeback x ws => if x / 4 == line then add l ws else l
    | _ => l) l

/-- Charges a failed write-back to its writers and to every group with unpublished bytes in the line; the bytes are
discarded and no cache holds the line any more (R333, R335, Tables 16-3, 16-4). -/
def State.failSector (s : State) (sec : Nat) (writers : List (Nat × Nat)) : State :=
  let line := sec / 4
  let all := writers ++ (s.lineWriters line).filter fun w => !writers.contains w
  let s := ({ s with peerDirty := s.peerDirty.keep fun pa _ => pa / 128 != line }.dropPeerLine line).dropLineAll line
  all.foldl (fun s w => s.onGroup w.1 w.2 fun g => g.fabricError (BitVec.ofNat 64 (128 * line))) s

/-- A write performed at the stacked cache: memory of this device or of the host, or a peer line's bytes. The writers of
a byte that a write-back does not carry yet are all kept: each waits for its acknowledgement (R217, R227). A peer that
cannot be reached takes no byte: it fails as a write-back does (R335, R336). -/
def State.performByte (s : State) (pa : Nat) (b : Byte) (writers : List (Nat × Nat)) : State :=
  if isPeer pa && !s.reachable (peerOf pa) then s.failSector (pa / 32) writers
  else if isPeer pa then
    let ws := match s.peerDirty.find? pa with
      | some d => if d.inFlight.isSome then writers else d.writers ++ writers.filter fun w => !d.writers.contains w
      | none => writers
    { s with peerDirty := s.peerDirty.set pa ⟨b, ws, none⟩ }
  else
    let s := s.writeByte pa b
    if isHost pa && !s.hostLines.contains (pa / 128) then { s with hostLines := s.hostLines ++ [pa / 128] } else s

/-- The bytes of a list with those of it that the L1 of a core holds written (R214, R215). -/
def Core.overDirty (k : Core) (pa : Nat) (bs : List Byte) : List Byte :=
  bs.zipIdx.map fun (b, i) =>
    match k.dirty.find? (pa + i) with
    | some d => d.val
    | none => b

/-- The stacked cache holds a peer line. -/
def State.holdsLine (s : State) (pa : Nat) : Bool := (s.peerClean.find? (pa / 128)).isSome

/-- A group's load of `n` bytes within one sector: from the L1 where it holds the sector, else from the stacked cache,
which fills the L1 (R188, R214, R220). The bytes of a peer line that the stacked cache has already given up are read and
not kept. -/
def State.loadL1 (s : State) (c pa n : Nat) (line : Option (List Byte)) : State × Option (List Byte) :=
  let k := s.core c
  let sec := pa / 32
  match k.clean.find? sec with
  | some b => (s, some (k.overDirty pa ((b.drop (pa % 32)).take n)))
  | none =>
    match s.below (32 * sec) 32 line with
    | none => (s, none)
    | some b =>
      let s := if isPeer pa && !s.holdsLine pa then s else s.setCore c { k with clean := k.clean.set sec b }
      let s := if isHost pa && !s.hostLines.contains (pa / 128) then { s with hostLines := s.hostLines ++ [pa / 128] }
               else s
      (s, some (k.overDirty pa ((b.drop (pa % 32)).take n)))

/-- A group's store of one byte: held in the L1 of its core until it is published (R215). Where a write that it replaces
has yet to be published at a wider scope, so has the byte (R217). -/
def Core.storeByte (k : Core) (gslot pa : Nat) (b : Byte) (scopeCore : Bool) : Core :=
  let (ws, wide) := match k.dirty.find? pa with
    | some d => (d.writers.filter (· != gslot), !d.scopeCore)
    | none => ([], false)
  { k with dirty := k.dirty.set pa ⟨b, ws ++ [gslot], scopeCore && !wide⟩ }

def Core.storeBytes (k : Core) (gslot pa : Nat) (scopeCore : Bool) : List Byte → Core
  | [] => k
  | b :: bs => Core.storeBytes (k.storeByte gslot pa b scopeCore) gslot (pa + 1) scopeCore bs

/-- Publishes one byte that the L1 of a core holds: it is performed at the stacked cache, and the L1 keeps the
value as clean where it holds the sector. -/
def State.publishByte (s : State) (c pa : Nat) : State :=
  let k := s.core c
  match k.dirty.find? pa with
  | none => s
  | some d =>
    let clean := match k.clean.find? (pa / 32) with
      | some b => k.clean.set (pa / 32) (b.set (pa % 32) d.val)
      | none => k.clean
    (s.setCore c { k with dirty := k.dirty.erase pa, clean := clean }).performByte pa d.val
      (d.writers.map fun g => (c, g))

/-- Publishes all that the L1 of a core holds written of a sector, together: no access that R213 makes single-copy
atomic is published in part, whoever wrote over it since (R227). A byte may be published before it must be (R215). -/
def State.publishSector (s : State) (c sec : Nat) : State :=
  (List.range 32).foldl (fun s i => s.publishByte c (32 * sec + i)) s

/-- The sectors in which the L1 of a core holds written bytes that satisfy a test. -/
def Core.writtenSectors (k : Core) (p : Nat → DirtyByte → Bool) : List Nat :=
  (k.dirty.filter fun e => p e.1 e.2).foldl (fun l e => if l.contains (e.1 / 32) then l else l ++ [e.1 / 32]) []

/-- Publishes the bytes of group slot `g` that satisfy a test (R217). A byte of CORE scope is published as the L1 holds
it (Table 11-2). -/
def State.publish (s : State) (c g : Nat) (p : Nat → Bool) : State :=
  ((s.core c).writtenSectors fun pa d => d.writers.contains g && !d.scopeCore && p pa).foldl
    (fun s x => s.publishSector c x) s

/-- Publishes all that the L1 of a core holds written, CORE scope as DEVICE (R229). What other groups of the core wrote
goes with it: a lane that read it there reads it wherever its team goes (R212). -/
def State.publishAll (s : State) (c : Nat) : State :=
  ((s.core c).writtenSectors fun _ _ => true).foldl (fun s x => s.publishSector c x) s

/-- The L1 of a core gives up a sector: what it holds written is published, what it holds clean is dropped. -/
def State.evictSector (s : State) (c sec : Nat) : State :=
  (s.publishSector c sec).onCore c fun k => { k with clean := k.clean.erase sec }

/-- Reads `n` bytes of one sector where atomics and engines act: at the stacked cache, once the core's L1 has published
what it holds of the sector (R224, R225). -/
def State.homeRead (s : State) (c pa n : Nat) (line : Option (List Byte)) : State × Option (List Byte) :=
  let s := s.publishSector c (pa / 32)
  (s, s.below pa n line)

def State.performBytes (s : State) (pa : Nat) : List Byte → State
  | [] => s
  | b :: bs => State.performBytes (s.performByte pa b []) (pa + 1) bs

/-- The sectors of a span of bytes. -/
def sectorsOf (pa n : Nat) : List Nat := (List.range ((pa + n + 31) / 32 - pa / 32)).map (pa / 32 + ·)

/-- A write at the home by an agent that is no group, after what the L1 of its core holds written there. -/
def State.homeWrite (s : State) (c pa : Nat) (bs : List Byte) : State :=
  ((sectorsOf pa bs.length).foldl (fun s x => s.publishSector c x) s).performBytes pa bs

/-! ### Results of a check -/

/-- What a check of an access comes to: the address; a cause; or a wait for an answer from the fabric or for a
team that is swapped out (R131). -/
inductive Res (α : Type) where
  | ok (a : α)
  | no (cause : BitVec 8)
  | need (w : Want) (op : HomeOp)
  | away (launch : Word) (tid : Nat)
  deriving DecidableEq, Repr

def Res.bind {α β : Type} (r : Res α) (f : α → Res β) : Res β :=
  match r with
  | .ok a => f a
  | .no c => .no c
  | .need w o => .need w o
  | .away l t => .away l t

/-- Who accesses memory: a core, a context, a privilege, and the fabric answers it has received, of which those to
requests with a tag below `asked` belong to an earlier instruction. -/
structure Agent where
  core : Nat
  asid : Nat
  privileged : Bool
  got : List Arrived
  asked : Nat
  deriving DecidableEq, Repr

/-- The answer that an agent has to a want, from a request with a tag of `from_` or above. -/
def Agent.answer (a : Agent) (w : Want) (from_ : Nat) : Option Answer :=
  (a.got.find? fun x => x.want == w && from_ ≤ x.tag && a.asked ≤ x.tag).map (·.ans)

/-- The answer that the agent has to a want: one that arrived, or the failure at once of R335. -/
def State.answerTo (s : State) (a : Agent) (w : Want) (from_ pa : Nat) : Option Answer :=
  match a.answer w from_ with
  | some x => some x
  | none => if s.reachable (peerOf pa) then none else some .timedOut

/-- A line that the agent needs of a peer: received, refused, held or still to be asked for (R234, Table 16-3). -/
def State.peerLine (s : State) (a : Agent) (pa : Nat) : Res (Option (List Byte)) :=
  if !isPeer pa then .ok none
  else
    match s.answerTo a (.line (pa / 128)) (s.lineFrom.get 0 (pa / 128)) pa with
    | some (.data bs) => .ok (some bs)
    | some .addressError => .no Cause.permission
    | some _ => .no Cause.remoteTimeout
    | none => if s.holdsLine pa then .ok none else .need (.line (pa / 128)) .readLine

/-! ### Page tables (10 R190 to R199) -/

/-- The fields of an entry (Table 10-5). -/
def eP (e : Word) : Bool := e.getLsbD 0
def eW (e : Word) : Bool := e.getLsbD 1
def eX (e : Word) : Bool := e.getLsbD 2
def eU (e : Word) : Bool := e.getLsbD 3
def eLeaf (e : Word) : Bool := e.getLsbD 4
def eA (e : Word) : Bool := e.getLsbD 5
def eD (e : Word) : Bool := e.getLsbD 6
def eCow (e : Word) : Bool := e.getLsbD 7
def eClass (e : Word) : BitVec 2 := e.extractLsb' 9 2
def eCont (e : Word) : Bool := e.getLsbD 11
def eFrame (e : Word) : Nat := 4096 * (e.extractLsb' 12 40).toNat
def eScope (e : Word) : BitVec 2 := e.extractLsb' 52 2
def eZf (e : Word) : Bool := e.getLsbD 54

/-- The size of the page that a leaf at a level maps on its own (Table 10-3). -/
def pageSize (level : Nat) : Nat := 2 ^ (12 + 9 * level)

/-- A malformed entry (R193, step 2). -/
def State.malformed (s : State) (e : Word) (level : Nat) : Bool :=
  e.extractLsb' 55 9 != 0
    || (eLeaf e && 3 ≤ level) || (!eLeaf e && level == 0)
    || (!eLeaf e && (e.extractLsb' 1 11 != 0 || eScope e != 0))
    || (eLeaf e && (e.getLsbD 10 || (eClass e == 1 && level != 0) || (eCont e && level == 1)
          || eFrame e % pageSize level != 0))
    || !s.mapped (eFrame e)

/-- The index of a level's table (Table 10-3). -/
def tableIndex (va : Word) (level : Nat) : Nat := (va.extractLsb' (12 + 9 * level) 9).toNat

/-- The key of a leaf in a translation cache. -/
def tlbKey (asid : Nat) (va : Word) : Nat := asid * 2 ^ 45 + (va.toNat / 4096) % 2 ^ 45

/-- The key of a non-leaf entry in the walk cache. -/
def walkKey (asid : Nat) (va : Word) (level : Nat) : Nat :=
  (asid * 8 + level) * 2 ^ 45 + (va.toNat / pageSize level) % 2 ^ 45

/-- One page-table entry, read as 8 bytes through the stacked cache (R192). -/
def State.readEntry (s : State) (a : Agent) (pa : Nat) : Res Word :=
  (s.peerLine a pa).bind fun line =>
    match s.below pa 8 line with
    | some bs => .ok (BitVec.ofNat 64 (leNat bs))
    | none => .no Cause.remoteTimeout

/-- The leaves of the aligned group of `n` entries that holds the entry at `pa` (R194). -/
def State.contGroup (s : State) (pa n : Nat) : List Word :=
  (List.range n).map fun i => s.read64 (pa / (8 * n) * (8 * n) + 8 * i)

/-- The join of R194 holds: every entry has CONT, bits other than FRAME, A and D are equal, frames consecutive from
an aligned one. -/
def joined (es : List Word) (size : Nat) : Bool :=
  match es with
  | [] => false
  | e0 :: _ =>
    let strip := fun (e : Word) => e &&& ~~~(0x000FFFFFFFFFF060#64)
    eFrame e0 % (size * es.length) == 0
      && es.zipIdx.all fun (e, i) => eCont e && eP e && strip e == strip e0 && eFrame e == eFrame e0 + size * i

/-- The entry through which an access translates (R194): its own, or, in an inconsistent group, the one that the device
takes for the joined page (log 15). -/
def State.contLeaf (s : State) (pa : Nat) (e : Word) (level : Nat) (va : Word) : Trans :=
  let own : Trans := ⟨e, pa, level, eFrame e⟩
  let n := if level = 0 then 16 else 64
  if level = 1 || isPeer pa then own
  else
    let es := s.contGroup pa n
    if es.all (fun x => !(eP x && eLeaf x && eCont x)) || joined es (pageSize level) then own
    else
      let k := Config.contEntry pa s.turn % n
      match es[k]? with
      | some x =>
        if eP x && eLeaf x && eCont x && !s.malformed x level then
          ⟨x, pa / (8 * n) * (8 * n) + 8 * k, level,
            eFrame x / (n * pageSize level) * (n * pageSize level) + (va.toNat / pageSize level) % n * pageSize level⟩
        else own
      | none => own

/-- The walk of R193 from a level's table down, on fuel `level + 1`. Non-leaf entries are kept in the walk cache
(R197). -/
def State.walkFrom (s : State) (a : Agent) (root va : Word) : Nat → Nat → Nat → State × Res Trans
  | 0, _, _ => (s, .no Cause.permission)
  | fuel + 1, level, table =>
    let pa := table + 8 * tableIndex va level
    let key := walkKey a.asid va level
    let r := match s.walk.find? key with
      | some (r, e) => if r == root then Res.ok e else s.readEntry a pa
      | none => s.readEntry a pa
    match r with
    | .no c => (s, .no c)
    | .need w o => (s, .need w o)
    | .away l t => (s, .away l t)
    | .ok e =>
      if !eP e then (s, .no Cause.notPresent)
      else if s.malformed e level then (s, .no Cause.permission)
      else if eLeaf e then (s, .ok (s.contLeaf pa e level va))
      else State.walkFrom { s with walk := s.walk.set key (root, e) } a root va fuel (level - 1) (eFrame e)

/-- PTROOT of a context on a core (Table 10-4). -/
def State.ptroot (s : State) (a : Agent) : Word := (s.regs a.core a.asid).ptroot

/-- The leaf for an address under PTROOT (R191): from the core's translation cache, else by a walk. -/
def State.findLeaf (s : State) (a : Agent) (va : Word) : State × Res Trans :=
  let root := s.ptroot a
  let table := 4096 * (root.extractLsb' 12 40).toNat
  if !root.getLsbD 0 then (s, .no Cause.notPresent)
  else if !s.mapped table then (s, .no Cause.permission)
  else
    match (s.core a.core).tlb.find? (tlbKey a.asid va) with
    | some l => if l.root == root then (s, .ok ⟨l.entry, l.at_, l.level, l.frame⟩) else s.walkFrom a root va 5 4 table
    | none => s.walkFrom a root va 5 4 table

/-- Table 10-6. `gossip` says that the access is a `gsp.*` instruction's or the shuttle's. -/
def leafCheck (e : Word) (privileged : Bool) (acc : Access) (gossip : Bool) : Option (BitVec 8) :=
  if eClass e == 1 && !gossip then some Cause.permission
  else if !eU e && !privileged then some Cause.permission
  else if !eX e && acc == .fetch then some Cause.permission
  else if !eW e && (acc.writes || acc == .stack) then some Cause.permission
  else if eCow e && (acc.writes || acc == .stack) then some Cause.permission
  else none

/-- The bits that an access sets in its leaf (R196). -/
def leafBits (acc : Access) : Word := if acc.writes || acc == .stack then 0x60 else 0x20

/-- The walk and the checks of one address (R190 to R195), with no change of a leaf. -/
def State.probe (s : State) (a : Agent) (va : Word) (acc : Access) (gossip : Bool := false) : State × Res Where :=
  if va.extractLsb' 57 7 != 0 then (s, .no Cause.permission)
  else
    match s.findLeaf a va with
    | (s, .no c) => (s, .no c)
    | (s, .need w o) => (s, .need w o)
    | (s, .away l t) => (s, .away l t)
    | (s, .ok t) =>
      match leafCheck t.entry a.privileged acc gossip with
      | some c => (s, .no c)
      | none =>
        let here : Where :=
          ⟨t.frame + va.toNat % pageSize t.level, eScope t.entry == 0 && !isPeer t.frame && !isHost t.frame, t⟩
        if s.mapped here.pa then (s, .ok here) else (s, .no Cause.permission)

/-- A core's translation cache takes a leaf, or gives it up. -/
def State.keepLeaf (s : State) (a : Agent) (va : Word) (t : Trans) : State :=
  let root := s.ptroot a
  s.onCore a.core fun k => { k with tlb := k.tlb.set (tlbKey a.asid va) ⟨root, t.at_, t.entry, t.level, t.frame⟩ }

def State.loseLeaf (s : State) (a : Agent) (va : Word) : State :=
  s.onCore a.core fun k => { k with tlb := k.tlb.erase (tlbKey a.asid va) }

/-- A, and D for a write, set in the leaf of a checked access as one atomic OR at its home, which for a peer is a
compare-and-swap; none where the entry is no longer the one that was read, so that the access walks again (R196). -/
def State.markLeaf (s : State) (a : Agent) (va : Word) (acc : Access) (w : Where) : State × Option (Res Where) :=
  let t := w.leaf
  let e' := t.entry ||| leafBits acc
  let kept := fun (s : State) => (s.keepLeaf a va { t with entry := e' }, some (.ok w))
  if e' == t.entry then kept s
  else if isPeer t.at_ then
    let line := t.at_ / 128
    match s.answerTo a (.leaf t.at_ t.entry) (s.lineFrom.get 0 line) t.at_ with
    | some (.data bs) =>
      if leNat bs == t.entry.toNat then kept s else ((s.dropPeerLine line).loseLeaf a va, none)
    | some .notSupported => (s, some (.no Cause.remoteOp))
    | some .addressError => (s, some (.no Cause.permission))
    | some _ => (s, some (.no Cause.remoteTimeout))
    | none => (s, some (.need (.leaf t.at_ t.entry) (.atomic .cas .b64 (e'.setWidth 128) (t.entry.setWidth 128))))
  else
    let now := s.read64 t.at_
    if eP now && eFrame now == eFrame t.entry then kept (s.write64 t.at_ (now ||| leafBits acc))
    else (s.loseLeaf a va, none)

/-- Translates and checks one address (R190 to R196); none where it must walk again. -/
def State.translateOnce (s : State) (a : Agent) (va : Word) (acc : Access) (gossip : Bool) : State × Option (Res Where) :=
  match s.probe a va acc gossip with
  | (s, .ok w) => s.markLeaf a va acc w
  | (s, r) => (s, some r)

/-- A leaf whose home no longer holds it is walked again, once: nothing changes between the two. -/
def State.translate (s : State) (a : Agent) (va : Word) (acc : Access) (gossip : Bool := false) : State × Res Where :=
  match s.translateOnce a va acc gossip with
  | (s, some r) => (s, r)
  | (s, none) =>
    match s.translateOnce a va acc gossip with
    | (s, some r) => (s, r)
    | (s, none) => (s, .no Cause.notPresent)

/-! ### Scratchpad (10 R201 to R208) -/

def Team.tag (t : Team) (off : Nat) : BitVec 2 := t.tags.get 0 (off / 8)

def Team.setTag (t : Team) (off : Nat) (x : BitVec 2) : Team := { t with tags := t.tags.put 0 (off / 8) x }

def Team.engineOwned (t : Team) (off : Nat) : Bool := t.holds.get 0 (off / 1024) != 0

def Team.read (t : Team) (off n : Nat) : List Byte := t.spad.getList 0 off n

def Team.write (t : Team) (off : Nat) : List Byte → Team
  | [] => t
  | b :: bs => Team.write { t with spad := t.spad.put 0 off b } (off + 1) bs

def Team.word (t : Team) (off : Nat) : Word := BitVec.ofNat 64 (leNat (t.read off 8))

def Team.setWord (t : Team) (off : Nat) (w : Word) : Team := t.write off (leBytes 8 w.toNat)

/-- The class of a scratchpad access (Table 10-12). -/
inductive TagUse where
  | load | store | tagged | init | word | tags
  deriving DecidableEq, Repr

/-- Table 10-12: PLAIN 0, EMPTY 1, FULL 2, BARRIER 3. -/
def tagAllows (u : TagUse) (tag : BitVec 2) : Bool :=
  match u with
  | .load | .init | .tags => true
  | .store => tag == 0
  | .tagged => tag == 1 || tag == 2
  | .word => tag == 3

/-- R208: SCRATCH_RANGE, then OWNERSHIP, then TAG_CLASS, over every tile and word the access touches. -/
def Team.check (t : Team) (off n : Nat) (u : TagUse) : Option (BitVec 8) :=
  let last := off + n - 1
  if t.spadBytes < off + n then some Cause.scratchRange
  else if t.engineOwned off || t.engineOwned last then some Cause.ownership
  else if !tagAllows u (t.tag off) || !tagAllows u (t.tag last) then some Cause.tagClass
  else Option.none

/-- Whether a team of a launch is resident: its core and team index. -/
def State.findTeam (s : State) (launch : Word) (tid : Nat) : Option (Nat × Nat) :=
  s.cores.findSome? fun (c, k) => k.teams.findSome? fun (i, t) =>
    if t.launch == launch && t.tid == tid then some (c, i) else none

end Sys2Proof.Machine
end

