-- ==== Sys2Proof/Machine/Fabric.lean ====
section
/-! DEFINITION. Requests to other devices: sending, answers and their absence (16 R326 to R335). -/

namespace Sys2Proof.Machine

open Sys2Proof

/-- The port of a request: a fixed hash of the line address over the ports that it may take (R329); a request that is
sent again takes a port that is being retired where no other is UP (R332). -/
def State.portFor (s : State) (pa : Nat) : Nat :=
  let free := s.freePorts (peerOf pa)
  let ps := if free.isEmpty then s.upPorts (peerOf pa) else free
  (ps[Config.portHash (pa / 128) % ps.length]?).getD 0

/-- A port number that no port has: the request is held back (R329). -/
def heldPort : Nat := 16

/-- An atomic at the home. -/
def atomicOp : HomeOp → Bool
  | .atomic _ _ _ _ => true
  | _ => false

/-- An access of this device to a line must not overtake an earlier one, which the home may perform in any order (R331):
a read and any other access to the line, and two accesses to one sector, but for atomics, whose order R329 keeps. The
order of issue and what a read has returned rest on it (11 R211, R212, R214). -/
def Request.before (q : Request) (pa : Nat) (op : HomeOp) : Bool :=
  q.op == .readLine || op == .readLine || (q.pa / 32 == pa / 32 && !(atomicOp q.op && atomicOp op))

/-- An earlier request of the line holds a new one back: one on another port (R329), or one that it must not overtake. -/
def State.lineBusy (s : State) (pa : Nat) (op : HomeOp) (port tag : Nat) : Bool :=
  s.requests.any fun q => q.tag < tag && q.pa / 128 == pa / 128 && (q.port != port || q.before pa op)

/-- The cores and contexts for which a request counts (08 R179). -/
def State.requesters (s : State) : Origin → List (Nat × Nat)
  | .slot c g _ _ | .red c g _ _ _ => [(c, (s.group c g).asid)]
  | .writeback _ ws => ws.foldl (fun l w =>
      let x := (w.1, (s.group w.1 w.2).asid)
      if l.contains x then l else l ++ [x]) []
  | .unit c e _ =>
    match (s.core c).tokens.find? e with
    | some ⟨_, .live op, _, _⟩ => [(c, op.asid)]
    | _ => []
  | .prefetch c a => [(c, a)]
  | .queue _ _ _ | .service _ _ | .gone _ _ _ => []

/-- A request leaves, and is counted. -/
def State.sendRequest (s : State) (r : Request) : State :=
  ((s.requesters r.origin).foldl (fun s x => s.count x.1 x.2 11 1) s).send (.request r)

/-- Makes a request, or holds it back: behind an earlier one of its line (R329), and while every UP port of the route is
being retired (R337). A write or an atomic makes the stacked cache give up its clean copy of the line (R214, R224). -/
def State.request (s : State) (o : Origin) (pa : Nat) (op : HomeOp) : State :=
  let hold := (s.freePorts (peerOf pa)).isEmpty || s.lineBusy pa op (s.portFor pa) s.nextTag
  let r : Request := ⟨s.nextTag, peerOf pa, if hold then heldPort else s.portFor pa, s.time, o, op, pa⟩
  let s := match op with
    | .readLine => s
    | _ => { s with peerClean := s.peerClean.erase (pa / 128) }
  let s := { s with requests := s.requests ++ [r], nextTag := s.nextTag + 1 }
  if hold then s else s.sendRequest r

/-- Sends the held requests that nothing holds back any more (R329). -/
def State.releaseHeld (s : State) : State :=
  s.requests.foldl (fun s r =>
    if r.port == heldPort && !(s.freePorts r.target).isEmpty && !s.lineBusy r.pa r.op (s.portFor r.pa) r.tag then
      let r' := { r with port := s.portFor r.pa, sent := s.time }
      { s with requests := s.requests.map fun (q : Request) => if q.tag == r.tag then r' else q }.sendRequest r'
    else s) s

/-- The physical address that a want is about. -/
def Want.pa : Want → Nat
  | .line l => 128 * l
  | .amo pa _ => pa
  | .leaf pa _ => pa
  | .sector pa => pa

/-- A request is one of the instruction that a slot is inside. -/
def State.slotAsked (s : State) (c g n : Nat) (r : Request) : Bool :=
  match r.origin with
  | .slot c' g' n' _ => c' == c && g' == g && n' == n && ((s.group c g).slot n).asked ≤ r.tag
  | _ => false

def Want.isAmo : Want → Bool
  | .amo _ _ => true
  | _ => false

/-- Asks for what a slot waits for, once. An atomic is counted as outstanding until it is answered (R216). -/
def State.askSlot (s : State) (c g n : Nat) (w : Want) (op : HomeOp) : State :=
  let o := Origin.slot c g n w
  if s.requests.any fun r => r.origin == o && s.slotAsked c g n r then s
  else
    let s := s.request o w.pa op
    match w with
    | .amo _ _ => s.onGroup c g fun x => { x with outstanding := x.outstanding + 1 }
    | _ => s

def State.askUnit (s : State) (c e : Nat) (w : Want) (op : HomeOp) : State :=
  let o := Origin.unit c e w
  if s.requests.any fun r => r.origin == o then s else s.request o w.pa op

/-- The device's own service of a core asks (R192). -/
def State.askService (s : State) (c : Nat) (w : Want) (op : HomeOp) : State :=
  let o := Origin.service c w
  if s.requests.any fun r => r.origin == o then s else s.request o w.pa op

/-- A piece of work of a queue asks. -/
def State.askQueue (s : State) (q job : Nat) (w : Want) (op : HomeOp) : State :=
  let o := Origin.queue q job w
  if s.requests.any fun r => r.origin == o then s else s.request o w.pa op

/-- Nobody waits for these requests any more; an atomic of a slot is still counted until its answer. -/
def State.disown (s : State) (p : Origin → Bool) : State :=
  { s with requests := s.requests.map fun r =>
      if !p r.origin then r
      else
        { r with origin := match r.origin with
            | .slot c g _ (.amo _ _) => .gone c g true
            | .slot c g _ _ => .gone c g false
            | .unit _ _ _ | .queue _ _ _ => .gone 0 0 false
            | o => o } }

/-- The requests of an engine operation's unit. -/
def State.disownUnit (s : State) (c e : Nat) : State :=
  s.disown fun o => match o with | .unit c' e' _ => c' == c && e' == e | _ => false

/-- The requests of a group's slots. -/
def State.disownGroup (s : State) (c g : Nat) : State :=
  s.disown fun o => match o with | .slot c' g' _ _ => c' == c && g' == g | _ => false

/-- Lines of peer memory, by line number, at which a group of this device has bytes that are not yet written back:
their sectors (R227, R330). -/
def State.dirtySectors (s : State) (p : Nat → PeerByte → Bool) : List Nat :=
  (s.peerDirty.filter fun e => p e.1 e.2).foldl (fun l e =>
    if l.contains (e.1 / 32) then l else l ++ [e.1 / 32]) []

/-- Bytes of a sector that no write-back carries yet, as an offset's test. -/
def State.unsent (s : State) (sec i : Nat) : Bool :=
  match s.peerDirty.find? (32 * sec + i) with
  | some b => b.inFlight.isNone
  | none => false

/-- The byte mask and bytes of a write-back of a dirty sector (R330). -/
def State.sectorMask (s : State) (sec : Nat) : BitVec 32 := maskOf ((List.range 32).filter fun i => s.unsent sec i)

def State.sectorBytes (s : State) (sec : Nat) : List Byte :=
  (List.range 32).map fun i =>
    match s.peerDirty.find? (32 * sec + i) with
    | some b => b.val
    | none => 0

/-- The groups that wrote bytes of a sector which no write-back carries yet. -/
def State.sectorWriters (s : State) (sec : Nat) : List (Nat × Nat) :=
  (s.peerDirty.filter fun e => e.1 / 32 == sec && e.2.inFlight.isNone).foldl (fun l e =>
    e.2.writers.foldl (fun l w => if l.contains w then l else l ++ [w]) l) []

/-- Starts the write-back of the bytes of a sector that none carries yet, as its own masked write with its own tag
(R330), behind those in flight (R329); it fails at once where accesses to the home do (R335). -/
def State.writeBack (s : State) (sec : Nat) : State :=
  let ws := s.sectorWriters sec
  if !((List.range 32).any fun i => s.unsent sec i) then s
  else if !s.reachable (peerOf (32 * sec)) then s.failSector sec ws
  else
    let op := HomeOp.write (s.sectorBytes sec) (s.sectorMask sec)
    let s' := { s with peerDirty := s.peerDirty.mapAll fun pa b =>
      if pa / 32 == sec && b.inFlight.isNone then { b with inFlight := some s.nextTag } else b }
    s'.request (.writeback sec ws) (32 * sec) op

/-- Bytes that a group wrote in peer lines and that no home has acknowledged: not sent, or carried by a write-back. -/
def State.peerPending (s : State) (c g : Nat) (p : Nat → Bool) : Bool :=
  (s.peerDirty.any fun e => e.2.inFlight.isNone && e.2.writers.contains (c, g) && p e.1)
    || s.requests.any fun r => match r.origin with
        | .writeback x ws => ws.contains (c, g) && (List.range 32).any fun i => p (32 * x + i)
        | _ => false

end Sys2Proof.Machine
end

