-- ==== Sys2Proof/Machine/Trace.lean ====
section
/-! DEFINITION. What the device writes by physical address for a debugger: phase counts, trace records (08 R171 to
R178). -/

namespace Sys2Proof.Machine

open Sys2Proof

/-- A write by physical address, without translation, that never faults (R111, R171). -/
def State.deviceWrite (s : State) (pa : Nat) : List Byte → State
  | [] => s
  | b :: bs => State.deviceWrite (s.performByte pa b []) (pa + 1) bs

/-- A read by physical address; a peer line that the stacked cache does not hold reads as blank bytes
(log 14). -/
def State.deviceRead (s : State) (pa n : Nat) : List Byte := (s.below pa n none).getD (s.readMem pa n)

def State.device32 (s : State) (pa : Nat) : BitVec 32 := BitVec.ofNat 32 (leNat (s.deviceRead pa 4))

def State.device64 (s : State) (pa : Nat) : Word := BitVec.ofNat 64 (leNat (s.deviceRead pa 8))

/-- The context's debugger is attached (R173). -/
def State.attached (s : State) (a : Nat) : Bool := (s.ctx a).dbg.attach.getLsbD 0

/-- The team filter of STOPT leaves a team's watch hits and single steps out (R173). -/
def State.filtered (s : State) (a tid : Nat) : Bool :=
  let t := (s.ctx a).dbg.stopt
  t.getLsbD 32 && (t.extractLsb' 0 32).toNat != tid

/-- Whether the phase count covers a team (R172). -/
def State.counts (s : State) (a tid : Nat) : Bool :=
  let d := (s.ctx a).dbg
  d.phcbase != 0 && tid < (d.phcn.extractLsb' 0 32).toNat

def State.phaseAddr (s : State) (a tid : Nat) : Nat := (s.ctx a).dbg.phcbase.toNat + 4 * tid

/-- The phase count of a team (R172). -/
def State.phaseCount (s : State) (a tid : Nat) : BitVec 32 :=
  if s.counts a tid then s.device32 (s.phaseAddr a tid) else 0xFFFFFFFF#32

/-- Space for units in a ring (R171). -/
def ringRoom (prod cons : BitVec 32) (log2 : Nat) : Nat := 2 ^ log2 - (prod - cons).toNat

/-- A trace record (Table 8-4). -/
structure TraceRec where
  time : Nat
  launch : Word
  pc : Word
  aux : Word
  team : Nat
  phc : BitVec 32
  mask : Mask
  kind : Nat
  group : Nat
  stage : Nat
  core : Nat

def TraceRec.bytes (r : TraceRec) : List Byte :=
  leBytes 8 r.time ++ leBytes 8 r.launch.toNat ++ leBytes 8 r.pc.toNat ++ leBytes 8 r.aux.toNat ++ leBytes 4 r.team
    ++ leBytes 4 r.phc.toNat ++ leBytes 4 r.mask.toNat ++ leBytes 1 r.kind ++ leBytes 1 r.group ++ leBytes 1 r.stage
    ++ leBytes 1 r.core ++ List.replicate 16 0

/-- Writes units of the trace ring of a context and advances TRPROD. -/
def State.traceUnits (s : State) (a : Nat) (bs : List Byte) : State :=
  let d := (s.ctx a).dbg
  let n := 2 ^ (d.trcfg.extractLsb' 0 5).toNat
  let k := bs.length / 64
  let s := (List.range k).foldl (fun s i =>
    s.deviceWrite (d.trbase.toNat + 64 * ((d.trprod.toNat + i) % n)) ((bs.drop (64 * i)).take 64)) s
  s.onCtx a fun x => { x with dbg := { x.dbg with trprod := x.dbg.trprod + BitVec.ofNat 32 k } }

/-- A DROP record: the fields that R177 and Table 8-5 do not state are free (log 21). -/
def State.dropRec (s : State) (core n : Nat) : TraceRec :=
  let f := fun k => Config.choice (100 + k) s.turn
  { time := s.time, launch := BitVec.ofNat 64 (f 0), pc := BitVec.ofNat 64 (f 1), aux := BitVec.ofNat 64 n,
    team := f 2 % 2 ^ 32, phc := BitVec.ofNat 32 (f 3), mask := BitVec.ofNat 32 (f 4), kind := 7,
    group := f 5 % 256, stage := f 6 % 256, core := core }

/-- Writes a record with its payload, or discards it where it does not fit (R177); one that would fit alone, but not with the
DROP record that must come before it, is discarded and counted too (log 21). -/
def State.traceWrite (s : State) (a : Nat) (r : TraceRec) (payload : List Byte) : State :=
  let d := (s.ctx a).dbg
  let room := ringRoom d.trprod d.trcons (d.trcfg.extractLsb' 0 5).toNat
  let bs := r.bytes ++ payload
  let bs' := if d.dropped = 0 then bs
    else (s.dropRec r.core d.dropped).bytes ++ bs
  if !d.trcfg.getLsbD 8 then s
  else if room < bs'.length / 64 then
    s.onCtx a fun x => { x with dbg := { x.dbg with dropped := x.dbg.dropped + 1 } }
  else (s.traceUnits a bs').onCtx a fun x => { x with dbg := { x.dbg with dropped := 0 } }

/-- The record of an event of a group of a team. -/
def State.traceRec (s : State) (c g : Nat) (kind : Nat) (pc aux : Word) (mask : Mask) : TraceRec :=
  let x := s.group c g
  let t := s.team c x.team
  { time := s.time, launch := t.launch, pc := pc, aux := aux, team := t.tid, phc := s.phaseCount t.asid t.tid,
    mask := mask, kind := kind, group := x.number, stage := t.stage, core := c }

/-- The groups of a team on a core, by group slot, in order of number. -/
def State.groupsOf (s : State) (c t : Nat) : List (Nat × Group) :=
  let l := (s.core c).groups.filter fun e => e.1 < Config.gslots && e.2.live && e.2.team == t
  (List.range 32).filterMap fun n => l.find? fun e => e.2.number == n

/-- A field of a host message that no rule states: free (log 21). -/
def unstated (k turn : Nat) : Nat := Config.choice (140 + k) turn

/-- AUX of a HALT record (Table 8-5). A halt by the resolution STOP has no value there: free (log 21). -/
def haltAux (r : HaltReason) (turn : Nat) : Word :=
  match r with
  | .hit | .debugger => 1
  | .dump | .late => 3
  | .watchdog => 4
  | .halt | .pop | .unsaved => 5
  | .stop => BitVec.ofNat 64 (Config.choice 1 turn)

/-- The HALT record of a team (Table 8-5): which group, PC and mask it names is not stated (log 21). -/
def State.traceHalt (s : State) (c t : Nat) (aux : Word) : State :=
  let x := s.team c t
  let f := fun k => Config.choice (110 + k) s.turn
  s.traceWrite x.asid
    { time := s.time, launch := x.launch, pc := BitVec.ofNat 64 (f 0), aux := aux, team := x.tid,
      phc := s.phaseCount x.asid x.tid, mask := BitVec.ofNat 32 (f 1), kind := 6, group := f 2 % 256,
      stage := x.stage, core := c } []

end Sys2Proof.Machine
end

