-- ==== Sys2Proof/Machine/Ops.lean ====
section
/-! DEFINITION. What every instruction ends in: the divergence stack, the division of a slot, taking an exception (the
parked entry and its landing entry), and the end of an instruction. -/

namespace Sys2Proof.Machine

open Sys2Proof

/-! ### The issuer -/

def State.me (s : State) : Group := s.group s.cur.core s.cur.gslot

def State.onMe (s : State) (f : Group → Group) : State := s.onGroup s.cur.core s.cur.gslot f

def State.mySlot (s : State) : Slot := s.me.slot s.cur.slot

def State.onMySlot (s : State) (f : Slot → Slot) : State := s.onMe fun g => g.onSlot s.cur.slot f

def State.myTeam (s : State) : Team := s.team s.cur.core s.me.team

/-- A slot of a group as one that accesses memory. -/
def State.agent (s : State) (c g n : Nat) : Agent :=
  let x := s.group c g
  ⟨c, x.asid, x.privileged, (x.slot n).got, (x.slot n).asked⟩

/-- The device's own service of a core, for a group: its accesses have the group's context and privilege, and the answers
that the core's service has received. -/
def State.serviceAgent (s : State) (c g : Nat) : Agent :=
  ⟨c, (s.group c g).asid, (s.group c g).privileged, (s.core c).got, 0⟩

/-- A lane that an instruction parks: its own cause and its detail word. -/
structure LaneTrap where
  lane : Nat
  cause : BitVec 8
  detail : Word
  deriving DecidableEq, Repr

/-- The cause of an entry: the lowest among its lanes (R65, R199). -/
def lowestCause (ts : List LaneTrap) : BitVec 8 :=
  match ts with
  | [] => 0
  | t :: r => r.foldl (fun c x => if x.cause.toNat < c.toNat then x.cause else c) t.cause

def trapMask (ts : List LaneTrap) : Mask := maskOf (ts.map (·.lane))

/-- A cause on every lane of a mask, with one detail word. -/
def everyLane (m : Mask) (cause : BitVec 8) (detail : Word) : List LaneTrap :=
  (lanes m).map fun l => ⟨l, cause, detail⟩

/-! ### The divergence stack (03 R45, R51, Table 3-3) -/

/-- The address of entry `n` of a group's divergence stack (R45, R51). -/
def State.stackAddr (s : State) (c g n : Nat) : Word :=
  let x := s.group c g
  let t := s.team c x.team
  BitVec.ofNat 64
    (t.pb.toNat + t.tid * (1024 * t.lss + 262144) + 1024 * t.lss + x.number * 8192 + 32 * n)

/-- A divergence-stack entry (Table 3-3). -/
structure StackEntry where
  wait : Word
  reserved : Bool
  state : BitVec 8
  kind : BitVec 8
  mask : Mask
  rcv : Word
  pc : Word
  deriving DecidableEq, Repr

def StackEntry.bytes (e : StackEntry) : List Byte :=
  leBytes 8 e.pc.toNat ++ leBytes 8 e.rcv.toNat ++ leBytes 4 e.mask.toNat ++ leBytes 1 e.kind.toNat
    ++ leBytes 1 e.state.toNat ++ [0, 0] ++ leBytes 8 e.wait.toNat

def StackEntry.read (bs : List Byte) : StackEntry :=
  { pc := BitVec.ofNat 64 (leNat (bs.take 8)), rcv := BitVec.ofNat 64 (leNat ((bs.drop 8).take 8)),
    mask := BitVec.ofNat 32 (leNat ((bs.drop 16).take 4)), kind := BitVec.ofNat 8 (leNat ((bs.drop 20).take 1)),
    state := BitVec.ofNat 8 (leNat ((bs.drop 21).take 1)), reserved := leNat ((bs.drop 22).take 2) != 0,
    wait := BitVec.ofNat 64 (leNat ((bs.drop 24).take 8)) }

/-- A wait record as a word (Table 6-14a). -/
def WaitRec.word (w : WaitRec) : Word :=
  let k : Word := match w.kind with | .reissue => 0 | .word => 1 | .team => 2
  (if w.held then 1#64 <<< 59 ||| BitVec.ofNat 64 (w.place % 2048) <<< 48 else 0)
    ||| (w.offset.setWidth 64 <<< 16) ||| (if w.phase then 0x100 else 0) ||| k

/-- The wait record of a word; none for a reserved kind or a nonzero reserved field (Table 6-14a). -/
def WaitRec.ofWord (w : Word) : Option WaitRec :=
  let held := w.getLsbD 59
  let place := (w.extractLsb' 48 11).toNat
  let phase := w.getLsbD 8
  let off := w.extractLsb' 16 32
  if w.extractLsb' 60 4 != 0 || w.extractLsb' 9 7 != 0 || (!held && place != 0) then none
  else
    match (w.extractLsb' 0 8).toNat with
    | 0 => if held || phase || off != 0 then none else some ⟨.reissue, false, 0, 0, false⟩
    | 1 => if held && phase then none else some ⟨.word, held, place, off, phase⟩
    | 2 => if held || phase || off != 0 then none else some ⟨.team, false, 0, 0, false⟩
    | _ => none

/-- STATE of a SLOT entry (Table 3-3). -/
def SlotState.code : SlotState → BitVec 8
  | .empty | .ready => 0 | .wait => 1 | .parked => 2 | .blocked => 3

/-- A slot as a SLOT entry. -/
def Slot.entry (x : Slot) : StackEntry :=
  { wait := if x.state == .blocked then x.wait.word else 0, reserved := false, state := x.state.code, kind := 1,
    mask := x.mask, rcv := x.rcv, pc := x.pc }

/-- A JOIN entry: the address it stands for and the outer address (R43). -/
def joinEntry (r1 r0 : Word) : StackEntry :=
  { wait := 0, reserved := false, state := 0, kind := 2, mask := 0, rcv := r0, pc := r1 }

/-- The entry is legal (R45, Table 3-3). -/
def StackEntry.legal (e : StackEntry) : Bool :=
  !e.reserved &&
    (if e.kind == 1 then e.state.toNat ≤ 3 && (if e.state == 3 then (WaitRec.ofWord e.wait).isSome else e.wait == 0)
     else e.kind == 2 && e.state == 0 && e.mask == 0 && e.wait == 0)

/-- A slot with nothing left of an instruction that it was inside. -/
def Slot.clear (x : Slot) : Slot :=
  { x with wait := .zero, act := 0, done := 0, len := 0, tagged := none, lost := false, got := [], checked := none, read := [] }

/-- A slot READY at a PC, from the turn after this one. -/
def Slot.ready (x : Slot) (pc : Word) (mask : Mask) (turn : Nat) : Slot :=
  { x.clear with state := .ready, pc := pc, mask := mask, since := turn + 1 }

/-- A slot that has executed an instruction, READY at a PC. -/
def Slot.go (x : Slot) (pc : Word) (mask : Mask) (turn : Nat) : Slot := { x.ready pc mask turn with stepped := true }

/-- A slot whose lanes of a mask are PARKED at its instruction. -/
def Slot.park (x : Slot) (mask : Mask) : Slot := { x.clear with state := .parked, mask := mask, stepped := false }

/-- The slot that a SLOT entry holds. -/
def StackEntry.slot (e : StackEntry) (turn tag : Nat) (stepped : Bool) : Slot :=
  let st : SlotState := match e.state.toNat with | 0 => .ready | 1 => .wait | 2 => .parked | _ => .blocked
  { state := st, pc := e.pc, mask := e.mask, rcv := e.rcv, since := turn + 1,
    wait := ((if e.state == 3 then WaitRec.ofWord e.wait else none).getD .zero), act := 0, done := 0, len := 0,
    tagged := none, lost := false, got := [], asked := tag, checked := none, read := [], stepped := stepped }

/-- The entries that a slot becomes when it leaves: a slot BLOCKED at a tagged word with some lanes' steps taken
divides first, as R238 divides it: its waiting part is pushed first and lies below its finished part (log 22). -/
def Slot.entries (x : Slot) : List StackEntry :=
  if x.state == .blocked && x.done != 0 && x.mask &&& ~~~x.done != 0 then
    [{ x with mask := x.mask &&& ~~~x.done }.entry,
     { x with state := .ready, pc := x.pc + BitVec.ofNat 64 x.len, mask := x.done }.entry]
  else [x.entry]

/-- The watched range of a watch register touches [va, va + n) (06 Table 6-8). -/
def watchTouches (wpa wpc : Word) (va n : Nat) : Bool :=
  let size := 2 ^ (wpc.extractLsb' 6 5).toNat
  let base := wpa.toNat / size * size
  base < va + n && va < base + size

/-- A watch hit that is raised (Table 6-8, R173). -/
def State.watched (s : State) (c a tid va n : Nat) (acc : Access) : Bool :=
  let r := s.regs c a
  !(s.attached a && s.filtered a tid) && (r.wpa.zip r.wpc).any fun (wpa, wpc) =>
    ((wpc.getLsbD 1 && (acc.writes || acc == .stack)) || (wpc.getLsbD 0 && acc.reads)
      || (wpc.getLsbD 2 && acc == .fetch)) && watchTouches wpa wpc va n

/-- An access of a group that a watch register may stop (R117, R234): a lane that the walk or a check of R195 refuses hits
no watch, and one that a watch stops sets no A or D. -/
def State.reach (s : State) (a : Agent) (tid : Nat) (va : Word) (n : Nat) (acc : Access) : State × Res Where :=
  match s.probe a va acc with
  | (s, .ok _) => if s.watched a.core a.asid tid va.toNat n acc then (s, .no Cause.watchpoint) else s.translate a va acc
  | r => r

/-- Translates the entries that an event will push, one after the other, and checks the depth (R45). A push is a write of
the group itself, which a watch register may stop. On a refusal the number is that of the entry refused. -/
def State.checkPushes (s : State) (a : Agent) (g : Nat) : Nat → Nat → State × Nat × Res (List Where)
  | _, 0 => (s, 0, .ok [])
  | d, k + 1 =>
    if 256 ≤ d then (s, d, .no Cause.resource)
    else
      match s.reach a (s.team a.core (s.group a.core g).team).tid (s.stackAddr a.core g d) 32 .stack with
      | (s, .no x) => (s, d, .no x)
      | (s, .need w o) => (s, d, .need w o)
      | (s, .away l t) => (s, d, .away l t)
      | (s, .ok w) =>
        match State.checkPushes s a g (d + 1) k with
        | (s, _, .ok ws) => (s, d, .ok (w :: ws))
        | r => r

/-- Writes a stack entry: a store of the group (R45), published at once, which R215 allows, so that a supervisor that
reads or rewrites the stack of a halted group meets what stands there (log 9). -/
def State.writeStack (s : State) (c g : Nat) (w : Where) (e : StackEntry) : State :=
  let s := s.onCore c fun k => k.storeBytes g w.pa w.scopeCore e.bytes
  (sectorsOf w.pa 32).foldl (fun s x => s.publishSector c x) s

/-- The depths at which JOIN entries stand, once an entry is pushed. -/
def Group.joinsWith (x : Group) (e : StackEntry) : List Nat :=
  x.joins.filter (· < x.depth) ++ if e.kind == 2 then [x.depth] else []

/-- Pushes one entry at its checked place (R45). -/
def State.push (s : State) (c g : Nat) (w : Where) (e : StackEntry) : State :=
  let s := s.writeStack c g w e
  s.onGroup c g fun x => { x with depth := x.depth + 1, joins := x.joinsWith e, tagWaits := x.tagWaits.erase x.depth }

/-- The stack entry at a translated place, from the stacked cache (log 9). -/
def State.fetchStack (s : State) (a : Agent) (w : Where) : State × Res StackEntry :=
  match s.peerLine a w.pa with
  | .no x => (s, .no x)
  | .need w o => (s, .need w o)
  | .away l t => (s, .away l t)
  | .ok line =>
    let s := (sectorsOf w.pa 32).foldl (fun s x => s.evictSector a.core x) s
    match s.loadL1 a.core w.pa 16 line with
    | (s, none) => (s, .no Cause.remoteTimeout)
    | (s, some lo) =>
      match s.loadL1 a.core (w.pa + 16) 16 line with
      | (s, none) => (s, .no Cause.remoteTimeout)
      | (s, some hi) => (s, .ok (StackEntry.read (lo ++ hi)))

/-- Reads entry `i` of a group's stack as an access of the group itself (R45), without a change of the depth. -/
def State.readStack (s : State) (c g n i : Nat) : State × Res StackEntry :=
  let a := s.agent c g n
  match s.reach a (s.team c (s.group c g).team).tid (s.stackAddr c g i) 32 .read with
  | (s, .ok w) => s.fetchStack a w
  | (s, .no x) => (s, .no x)
  | (s, .need w o) => (s, .need w o)
  | (s, .away l t) => (s, .away l t)

/-! ### Landing entries (06 R111 to R113) -/

/-- WHERE and STKIX of a landing entry (Table 6-1). -/
def Place.code : Place → Nat × Nat
  | .slot0 => (0, 0) | .slot1 => (1, 0) | .spilled n => (2, n)

def EntryState.code : EntryState → Nat
  | .free => 0 | .pending => 1 | .inService => 2 | .held => 3

/-- A landing entry as memory holds it (Table 6-1). -/
def Landing.bytes (e : Landing) : List Byte :=
  leBytes 8 e.pc.toNat ++ leBytes 8 e.rcv.toNat ++ leBytes 4 e.mask.toNat ++ leBytes 1 e.cause.toNat
    ++ leBytes 1 e.state.code ++ leBytes 1 e.access.toNat ++ [0] ++ leBytes 2 e.asid ++ leBytes 1 e.gslot
    ++ leBytes 1 e.group ++ leBytes 1 e.team ++ leBytes 1 e.place.code.1 ++ leBytes 2 e.place.code.2
    ++ leBytes 4 e.seq.toNat ++ leBytes 4 e.tid ++ leBytes 8 e.launch.toNat ++ List.replicate 16 0
    ++ (List.range 32).flatMap fun l => leBytes 8 (e.detail.get 0 l).toNat

/-- Writes a landing entry: the core's table, and the same at LANDBASE (R111; log 13). -/
def State.setEntry (s : State) (c i : Nat) (e : Landing) : State :=
  let s := s.onCore c fun k => { k with landing := k.landing.set i e }
  s.deviceWrite ((s.core c).landbase.toNat + 320 * i) e.bytes

def State.onEntry (s : State) (c i : Nat) (f : Landing → Landing) : State := s.setEntry c i (f (s.entry c i))

/-- The landing entry of the parked entry at a place of a group. -/
def State.entryAt (s : State) (c g : Nat) (p : Place) : Option Nat :=
  (s.core c).landing.findSome? fun (i, e) =>
    if e.state != .free && e.gslot == g && e.place == p then some i else none

def placeOf (n : Nat) : Place := if n = 0 then .slot0 else .slot1

/-- Tells a landing entry where its parked entry stands now. -/
def State.movePlace (s : State) (c g : Nat) (p q : Place) : State :=
  match s.entryAt c g p with
  | some i => s.onEntry c i fun e => { e with place := q }
  | none => s

/-! ### Halted teams (06 R143) -/

def Team.halted (t : Team) : Bool := !t.halts.isEmpty

/-- A request of a slot is in flight or has been answered: its instruction is under way (R46). -/
def State.underWay (s : State) (c g n : Nat) : Bool :=
  !((s.group c g).slot n).got.isEmpty || s.requests.any fun (r : Request) => s.slotAsked c g n r

/-- A blocked request of a slot for a pool is withdrawn; the slot makes it again when it issues `grow` again (R49, R106). -/
def State.withdraw (s : State) (c g n : Nat) : State :=
  s.onCore c fun k => { k with grows := k.grows.filter fun q => !(q.gslot == g && q.slot == n) }

/-- Spills a slot to the divergence stack at checked places and frees it (R42). -/
def State.spill (s : State) (c g m : Nat) (ws : List Where) : State :=
  let x := (s.group c g).slot m
  let d := (s.group c g).depth
  let s := (if x.state == .parked then s.movePlace c g (placeOf m) (.spilled d) else s).withdraw c g m
  let s := (ws.zip x.entries).foldl (fun s (w, e) => s.push c g w e) s
  s.onGroup c g fun y =>
    { y with
      steps := if x.stepped then y.steps ++ (List.range x.entries.length).map (d + ·) else y.steps,
      tagWaits := match x.tagged with
        | some t => y.tagWaits.set d (x.act &&& ~~~x.done, t)
        | none => y.tagWaits }.setSlot m .empty

/-- Places the parts of a divided slot: the first stays in the issuing slot, each other takes the other slot, which
is spilled where it is occupied (R42, R43). -/
def State.place (s : State) (c g n : Nat) : List Slot → List Where → State × List Where
  | [], ws => (s, ws)
  | x :: r, ws =>
    let m := other n
    let y := (s.group c g).slot m
    if y.state == .empty then State.place (s.onGroup c g fun z => z.setSlot m x) c g n r ws
    else
      let k := y.entries.length
      State.place ((s.spill c g m (ws.take k)).onGroup c g fun z => z.setSlot m x) c g n r (ws.drop k)

/-- How many entries the placing of `k` parts besides the first pushes. -/
def pushesFor (y : Slot) (k : Nat) : Nat :=
  if k = 0 then 0 else (if y.state == .empty then 0 else y.entries.length) + (k - 1)

/-- Divides a slot BLOCKED at a tagged word that has taken some lanes' steps, before a stop (R238). While its spill is
refused or the other slot's instruction is under way it stays whole, its steps kept, and the division is tried again
(log 22). -/
def State.divideTagged (s : State) (c g n : Nat) : State :=
  let x := (s.group c g).slot n
  let y := (s.group c g).slot (other n)
  if x.state == .blocked && x.done != 0 && x.mask &&& ~~~x.done != 0 && !s.underWay c g (other n) then
    match s.checkPushes (s.serviceAgent c g) g (s.group c g).depth (pushesFor y 1) with
    | (s, _, .need w o) => s.askService c w o
    | (s, _, .ok ws) =>
      let rest := { x with mask := x.mask &&& ~~~x.done, act := x.act &&& ~~~x.done, done := 0 }
      let s := s.onGroup c g fun z => z.setSlot n rest
      (s.place c g n [x.go (x.pc + BitVec.ofNat 64 x.len) x.done s.turn] ws).1
    | (s, _, _) => s
  else s

/-- The same for every slot of a team. -/
def State.divideTeam (s : State) (c t : Nat) : State :=
  (s.groupsOf c t).foldl (fun s (g, _) => (s.divideTagged c g 0).divideTagged c g 1) s

/-- The team's PENDING entries become HELD (R113, R143). -/
def State.holdEntries (s : State) (c t : Nat) : State :=
  (s.core c).landing.foldl (fun s (i, e) =>
    if e.state == .pending && e.team == t then s.onEntry c i fun x => { x with state := .held } else s) s

/-- Halts a team in every group together (R143), for a reason; a HALT record says so (Table 8-5). -/
def State.haltTeam (s : State) (c t : Nat) (r : HaltReason) (aux : Word) : State :=
  if !s.hasTeam c t then s
  else
    let x := s.team c t
    let s := s.setTeam c t { x with halts := if x.halts.contains r then x.halts else x.halts ++ [r] }
    let s := s.divideTeam c t
    let s := s.holdEntries c t
    if x.halted then s else s.traceHalt c t aux

/-- A message that waits for the ring (R120). -/
def State.addMsg (s : State) (a : Nat) (m : Msg) : State := s.onCtx a fun x => { x with msgs := x.msgs ++ [m] }

/-- A message about a landing entry (Table 6-9). -/
def State.entryMsg (s : State) (kind : MsgKind) (c i : Nat) : Msg :=
  let e := s.entry c i
  { kind := kind, cause := e.cause, asid := e.asid, seq := e.seq, addr := e.detail.get 0 (lowest e.mask), mask := e.mask,
    core := c, index := i, tid := e.tid, group := e.group, access := e.access, launch := e.launch, pc := e.pc }

/-- BREAKPOINT, WATCHPOINT and SINGLE_STEP: what a debugger stops at (R173). -/
def debugCause (x : BitVec 8) : Bool := x == Cause.breakpoint || x == Cause.watchpoint || x == Cause.singleStep

/-- A trap of the supervisor group is not landed: the core issues no user work any more, management is told (R116) and
the core is FAULTED (R391). -/
def State.supervisorFault (s : State) (c : Nat) : State :=
  if (s.core c).faulted then s
  else (s.onCore c fun k => { k with faulted := true, stopped := true, svc := .faulted }).send (.management 1 c)

/-- A write of a lane was refused on a COW-snapshot page that the group may otherwise write (R119). -/
def State.cowRefused (s : State) (c g : Nat) (acc : Access) (ts : List LaneTrap) : Bool :=
  let a := s.serviceAgent c g
  (acc.writes || acc == .stack) && ts.any fun t => t.cause == Cause.permission &&
    match (s.findLeaf a t.detail).2 with
    | .ok x => eCow x.entry && leafCheck (x.entry &&& ~~~0x80) a.privileged acc false == none
    | _ => false

/-- Writes the landing entry of a PARKED entry that a group holds at a place (R110 to R113), with its PARK record and, for
a debugger, the halt and the message of R173. -/
def State.landAt (s : State) (c g : Nat) (p : Place) (y : StackEntry) (ts : List LaneTrap) (acc : Access) : State :=
  let x := s.group c g
  let t := s.team c x.team
  let free := (List.range 2048).filter fun i => (s.entry c i).state == .free
  match s.pick 0 free with
  | none => s
  | some i =>
    let cause := lowestCause ts
    let seq := (s.core c).landseq
    let debug := debugCause cause && s.attached x.asid
    let e : Landing :=
      { pc := y.pc, rcv := y.rcv, mask := y.mask, cause := cause, state := if t.halted then .held else .pending,
        access := acc.code, asid := x.asid, gslot := g, group := x.number, team := x.team, place := p, seq := seq,
        tid := t.tid, launch := t.launch, detail := ts.foldl (fun d z => d.set z.lane z.detail) [], frame := none,
        cow := s.cowRefused c g acc ts, ahead := 0, pend := none }
    let s := s.onCore c fun k => { k with landseq := k.landseq + 1 }
    let s := (s.setEntry c i e).count c x.asid 8 1
    let s := if (s.ctx x.asid).dbg.trcfg.getLsbD 10 then
        s.traceWrite x.asid (s.traceRec c g 5 y.pc (cause.setWidth 64 ||| (seq.setWidth 64 <<< 32)) y.mask) []
      else s
    if debug then
      let s := s.haltTeam c x.team .hit 1
      s.addMsg x.asid (s.entryMsg .stop c i)
    else s

/-- The landing entry of the entry that slot `n` of a group holds PARKED. -/
def State.land (s : State) (c g n : Nat) (ts : List LaneTrap) (acc : Access) : State :=
  s.landAt c g (placeOf n) ((s.group c g).slot n).entry ts acc

/-- Parks a whole slot at its instruction (R30, R110), which asks for nothing any more; the supervisor group's traps act
under R116. -/
def State.parkWhole (s : State) (c g n : Nat) (ts : List LaneTrap) (acc : Access) : State :=
  if g = Config.supervisorSlot then s.supervisorFault c
  else
    ((s.withdraw c g n).onGroup c g fun x => x.onSlot n fun y => y.park y.mask).land c g n ts acc

/-! ### The end of an instruction -/

/-- A slot whose instruction waits for nothing of the fabric: what it has received is used up. -/
def Slot.quiet (x : Slot) (tag : Nat) : Slot := { x with got := [], asked := tag, checked := none }

/-- A slot waits inside its instruction, which acts for the lanes of `act` (Table 3-2). -/
def State.block (s : State) (w : WaitRec) (len : Nat) (act : Mask) : State :=
  s.onMySlot fun x => { x.quiet s.nextTag with state := .blocked, wait := w, len := len, act := act }

/-- The instruction is issued again from its start (KIND 0); one that is under way keeps what it has done. Where it waits
for nothing of the fabric it keeps only the answers to atomics, which are not performed again. -/
def State.again (s : State) (w : WaitRec) : State :=
  let waits := s.requests.any fun r => s.slotAsked s.cur.core s.cur.gslot s.cur.slot r
  s.onMySlot fun x =>
    let x := if waits then x else { x with got := x.got.filter fun y => y.want.isAmo }
    if x.state == .blocked then x else { x with state := .blocked, wait := w }

def State.reissue (s : State) : State := s.again .zero

/-- What waits for the fabric asks for it and is issued again. -/
def State.awaitWant (s : State) (w : Want) (op : HomeOp) : State :=
  (s.askSlot s.cur.core s.cur.gslot s.cur.slot w op).reissue

/-- An access to a team that is swapped out waits, and the dispatcher is told (R131). -/
def State.needTeam (s : State) (launch : Word) (tid : Nat) : State :=
  if s.swapNeeds.contains (launch, tid) then s else { s with swapNeeds := s.swapNeeds ++ [(launch, tid)] }

/-- Counts an instruction retired and restarts the watchdog window of a user context (R133, R179). -/
def State.retire (s : State) : State :=
  let s := s.count s.cur.core s.me.asid 0 1
  if s.cur.gslot = Config.supervisorSlot then s else s.alive s.me.asid

/-- What an instruction makes of its slot: the parts that go on, the first of which keeps the slot; the lanes that
park; the JOIN entry it pushes. `early` says that a lane may be refused after others are performed, so that the
spill is checked whether or not the slot divides (R45). `keepParked`: the parked lanes keep the slot, and the parts that
go on take the other (R96). -/
structure Shape where
  parts : List Slot
  parked : List LaneTrap := []
  acc : Access := .none
  join : Option (Word × Word) := none
  early : Bool := false
  retired : Bool := true
  keepParked : Bool := false

/-- The checks of an instruction's pushes: those that it has made and holds, where they serve, else new ones (R45). -/
def State.myPushes (s : State) (k : Nat) : State × Nat × Res (List Where) :=
  let a := s.agent s.cur.core s.cur.gslot s.cur.slot
  match s.mySlot.checked with
  | some (d, ws) =>
    if d == s.me.depth && k ≤ ws.length then (s, d, .ok (ws.take k)) else s.checkPushes a s.cur.gslot s.me.depth k
  | none => s.checkPushes a s.cur.gslot s.me.depth k

/-- Ends an instruction. First the pushes are checked; where one is refused, the whole slot parks with that cause and
the instruction has no effect (R45). Then `eff`, the effect on the lanes that are not refused; then the parts take
their slots and the landing entry is written (R43, R110). -/
def State.finish (s : State) (sh : Shape) (eff : State → State) : State :=
  let c := s.cur.core
  let g := s.cur.gslot
  let n := s.cur.slot
  let x := s.mySlot
  let y := s.me.slot (other n)
  if g = Config.supervisorSlot && !sh.parked.isEmpty then s.supervisorFault c
  else
    let parked : List Slot := if sh.parked.isEmpty then [] else [x.park (trapMask sh.parked)]
    let all := if sh.keepParked then parked ++ sh.parts else sh.parts ++ parked
    let spills := pushesFor y (all.length - 1)
    let pushes := (if sh.early then max spills (pushesFor y 1) else spills) + (if sh.join.isSome then 1 else 0)
    if 0 < pushes && y.state != .empty && s.underWay c g (other n) then s.reissue
    else
      match s.myPushes pushes with
      | (s, d, .no cause) => s.parkWhole c g n (everyLane x.mask cause (s.stackAddr c g d)) .stack
      | (s, _, .need w o) => s.awaitWant w o
      | (s, _, .away _ _) => s
      | (s, _, .ok ws) =>
        let s := eff s
        let s := if (sh.parts.isEmpty && !sh.parked.isEmpty) || !sh.retired then s else s.retire
        match all with
        | [] => s.onMe fun z => z.setSlot n .empty
        | p :: r =>
          let (s, ws) := (s.onMe fun z => z.setSlot n p).place c g n r ws
          let s := match sh.join, ws with
            | some (r1, r0), w :: _ => s.push c g w (joinEntry r1 r0)
            | _, _ => s
          if parked.isEmpty then s
          else s.land c g (if sh.parts.isEmpty || sh.keepParked then n else other n) sh.parked sh.acc

/-- The check of R45 before any lane is performed, for an instruction with a lane that can be refused later: whether
it may go on. Where it may not, the slot has parked or waits. The checked places serve the spill when it comes. -/
def State.spillReady (s : State) : State × Bool :=
  let c := s.cur.core
  let g := s.cur.gslot
  let n := s.cur.slot
  let y := s.me.slot (other n)
  if s.mySlot.checked.isSome then (s, true)
  else if y.state == .empty then (s.onMySlot fun x => { x with checked := some (s.me.depth, []) }, true)
  else if s.underWay c g (other n) then (s.reissue, false)
  else
    let d := s.me.depth
    match s.checkPushes (s.agent c g n) g d (pushesFor y 1) with
    | (s, _, .ok ws) => (s.onMySlot fun x => { x with checked := some (d, ws) }, true)
    | (s, d, .no cause) => (s.parkWhole c g n (everyLane s.mySlot.mask cause (s.stackAddr c g d)) .stack, false)
    | (s, _, .need w o) => (s.awaitWant w o, false)
    | (s, _, .away _ _) => (s, false)

/-- A load or an atomic that has not returned is issued again from its start; `phase.acq` waits for it (R218). -/
def State.reissueRead (s : State) : State := s.again { WaitRec.zero with place := 1 }

/-- The address of the next instruction. -/
def State.nextPc (s : State) (i : Instr) : Word := s.mySlot.pc + BitVec.ofNat 64 i.bytes

/-- Ends an instruction that every lane of the slot leaves for the next one, but for the parked lanes. -/
def State.step1 (s : State) (i : Instr) (bad : List LaneTrap) (acc : Access) (early : Bool) (eff : State → State) :
    State :=
  let rest := s.mySlot.mask &&& ~~~(trapMask bad)
  let parts := if rest == 0 then [] else [s.mySlot.go (s.nextPc i) rest s.turn]
  s.finish { parts := parts, parked := bad, acc := acc, early := early } eff

/-- The lanes go on to the next instruction. -/
def State.advance (s : State) (i : Instr) : State :=
  s.retire.onMySlot fun x => x.go (s.nextPc i) x.mask s.turn

/-- Raises one cause on the lanes of a mask; the slot's other lanes fall through. -/
def State.raise (s : State) (i : Instr) (m : Mask) (cause : BitVec 8) (detail : Word) (acc : Access := .none) : State :=
  s.step1 i (everyLane m cause detail) acc false id

end Sys2Proof.Machine
end

