-- ==== Sys2Proof/Machine/Operands.lean ====
section
/-! DEFINITION. Operands: every source and destination form of R17 to R21 and R28, the guard of R22, the checks of R29,
and the shape that per-lane instructions share. -/

namespace Sys2Proof.Machine

open Sys2Proof Forms

/-! ### Sources -/

/-- A source of `w` register bits in a lane (Table 2-3, R19). -/
def Group.src (g : Group) (l w : Nat) (imm : Word) : Src → BitVec 128
  | .v n => g.vwide n.toNat l w
  | .bl n => (g.latch n.toNat l).setWidth 128
  | .s n => if w ≤ 32 then ((g.sreg n.toNat).setWidth 32).setWidth 128 else (g.sreg n.toNat).setWidth 128
  | .imm => imm.setWidth 128

/-- The immediate of an arithmetic instruction (Table 2-9a). -/
def immOf (ty : Ty) (x : Ext) : Word := (expand ty x).getD 0

/-- The displacement of form I (R232), or IMM32 as the entry uses it. -/
def imm32 : Ext → BitVec 32
  | .i v => v
  | _ => 0

/-- An arithmetic source, of the TYPE's register bits (R28). -/
def Group.arg (g : Group) (l : Nat) (ty : Ty) (x : Ext) (s : Src) : BitVec 128 := g.src l (regBits ty) (immOf ty x) s

/-- The low 32 bits of a source of 32 bits, in form A or I. -/
def Group.src32 (g : Group) (l : Nat) (x : Ext) (s : Src) : BitVec 32 :=
  (g.src l 32 ((imm32 x).setWidth 64) s).setWidth 32

/-- A 64-bit source: a pair or a scalar. -/
def Group.src64 (g : Group) (l : Nat) (s : Src) : Word := (g.src l 64 0 s).setWidth 64

/-- The scalar that an optional field names. -/
def Group.opt (g : Group) (o : Option (BitVec 6)) : Word :=
  match o with
  | some n => g.sreg n.toNat
  | .none => 0

/-! ### Destinations -/

/-- Writes a result of `w` register bits in a lane (Table 2-4, R19): a scalar is zero-extended. -/
def Group.put (g : Group) (d : Dst) (l w : Nat) (x : BitVec 128) : Group :=
  match d with
  | .v n => g.setVwide n.toNat l w x
  | .vbl n b => (g.setVwide n.toNat l w x).setLatch b.toNat l (x.setWidth 32)
  | .bl b => g.setLatch b.toNat l (x.setWidth 32)
  | .s n => g.setSreg n.toNat (if w ≤ 32 then (x.setWidth 32).setWidth 64 else x.setWidth 64)
  | .none _ => g

/-- Writes the results of lanes. -/
def Group.putAll (g : Group) (d : Dst) (w : Nat) (rs : List (Nat × BitVec 128)) : Group :=
  rs.foldl (fun g r => g.put d r.1 w r.2) g

/-- A per-lane result: every source is read before any destination is written (R20, R21). -/
def Group.perLane (g : Group) (d : Dst) (w : Nat) (act : Mask) (f : Nat → BitVec 128) : Group :=
  g.putAll d w ((Machine.lanes act).map fun l => (l, f l))

/-- Writes one bit of a register in a lane (R26). -/
def Group.putBit (g : Group) (reg bit l : Nat) (x : Bool) : Group :=
  let old := g.vreg reg l
  g.setVreg reg l (if x then old ||| BitVec.twoPow 32 bit else old &&& ~~~(BitVec.twoPow 32 bit))

/-- A bit result per lane; sources are read first (R20, R26). -/
def Group.perLaneBit (g : Group) (reg bit : Nat) (act : Mask) (f : Nat → Bool) : Group :=
  ((Machine.lanes act).map fun l => (l, f l)).foldl (fun g r => g.putBit reg bit r.1 r.2) g

/-- Writes an optional scalar. -/
def Group.putOpt (g : Group) (d : Option (BitVec 6)) (x : Word) : Group :=
  match d with
  | some n => g.setSreg n.toNat x
  | .none => g

/-! ### The guard (R22) -/

/-- `active`. -/
def Group.active (g : Group) (m : Mask) : Guard → Mask
  | .always => m
  | .on neg reg bit => maskOf ((Machine.lanes m).filter fun l => (g.vreg reg.toNat l).getLsbD bit.toNat != neg)

/-! ### The range check (R29, step 4) -/

/-- The vector registers that a source names, as the first one and how many. -/
def srcRegs (w : Nat) : Src → List (Nat × Nat)
  | .v n => [(n.toNat, w / 32)]
  | _ => []

def dstRegs (w : Nat) : Dst → List (Nat × Nat)
  | .v n | .vbl n _ => [(n.toNat, w / 32)]
  | _ => []

def guardRegs : Guard → List (Nat × Nat)
  | .always => []
  | .on _ r _ => [(r.toNat, 1)]

def aluRegs {F : Type} (o : Alu F) (wd wa wb wc : Nat) : List (Nat × Nat) :=
  guardRegs o.g ++ dstRegs wd o.d ++ srcRegs wa o.a ++ srcRegs wb o.b
    ++ (match o.x with | .s c _ => srcRegs wc c | _ => [])

/-- An arithmetic instruction whose operands all have the TYPE's width. -/
def sameRegs {F : Type} (o : Alu F) : List (Nat × Nat) :=
  aluRegs o (regBits o.ty) (regBits o.ty) (regBits o.ty) (regBits o.ty)

def bitRegs {F : Type} (o : BitOp F) (w : Nat) : List (Nat × Nat) :=
  guardRegs o.g ++ [(o.reg.toNat, 1)] ++ srcRegs w o.a ++ srcRegs w o.b

def narrowRegs (o : Narrow) : List (Nat × Nat) :=
  guardRegs o.g ++ dstRegs 32 o.d ++ srcRegs 32 o.a ++ srcRegs 32 o.b

def addrBits : Space → Nat
  | .s => 32
  | _ => 64

def memRegs {F : Type} (o : Mem F) (wd wb : Nat) : List (Nat × Nat) :=
  guardRegs o.g ++ dstRegs wd o.d ++ srcRegs (addrBits o.sp) o.a ++ srcRegs wb o.b

def barRegs (o : Bar) : List (Nat × Nat) := guardRegs o.g ++ srcRegs (if o.remote then 64 else 32) o.a

def gspRegs (o : GspOp) (wd : Nat) : List (Nat × Nat) :=
  guardRegs o.g ++ dstRegs wd o.d ++ srcRegs 64 o.a ++ srcRegs 64 o.b

/-- The vector registers that an instruction names. -/
def regsOf : Instr → List (Nat × Nat)
  | .iadd o | .isub o | .imad o | .iabs o | .ineg o => sameRegs o
  | .imulLo o | .imulHi o | .imin o | .imax o | .iand o | .ior o | .ixor o | .inot o | .shl o | .shr o | .sra o
  | .rotl o | .popc o | .clz o | .ctz o | .brev o | .mov o | .movi o => sameRegs o
  | .bfe o | .bfi o | .sel o => aluRegs o (regBits o.ty) (regBits o.ty) (regBits o.ty) 32
  | .icmp o | .fcmp o => bitRegs o (regBits o.ty)
  | .lea o => aluRegs o 64 64 (regBits o.ty) 0
  | .fadd o | .fsub o | .fmul o | .ffma o | .fdiv o | .fsqrt o | .frcp o | .frsqrt o | .fexp2 o | .flog2 o
  | .frnd o => sameRegs o
  | .fmin o | .fmax o | .fabs o | .fneg o => sameRegs o
  | .fclass o => aluRegs o 32 (regBits o.ty) 0 0
  | .cvt o => aluRegs o (regBits o.ty) (regBits o.f) 0 0
  | .cvtq o | .cvtx o | .hadm o | .sclFind o => narrowRegs o
  | .bra o | .brx o | .jmp o => guardRegs o.g
  | .join g | .exit g | .yield g | .nop g => guardRegs g
  | .call link o => guardRegs o.g ++ [(link.toNat, 2)]
  | .callIndirect link t => [(link.toNat, 2)] ++ srcRegs 64 t
  | .ret t | .jmpIndirect t => srcRegs 64 t
  | .vote o => guardRegs o.g ++ [(o.a.toNat, 1)] ++ (if o.scalar then [] else [(o.d.toNat, 1)])
  | .shfl o => aluRegs o (regBits o.ty) (regBits o.ty) 32 0
  | .elect g r _ => guardRegs g ++ [(r.toNat, 1)]
  | .ld o | .st o | .ldf o | .ldfk o | .ste o => memRegs o (widthBits o.w) (widthBits o.w)
  | .tagSet o | .tagSetTile o | .tagRd o => memRegs o 32 32
  | .atom o | .red o => memRegs o (widthBits o.w) (if o.f == .cas then 2 * widthBits o.w else widthBits o.w)
  | .pf o => memRegs o 32 32
  | .clnWb o | .clnInv o | .clnWbinv o => memRegs o 32 32
  | .phase g | .phaseRel g | .phaseAcq g | .drain g | .tbar g => guardRegs g
  | .barInit o | .barArr o | .barExp o | .barWait o | .barArrw o => barRegs o
  | .cpy o | .cpyTile o | .cpyGth o | .cpySct o | .cpyRem o | .cpyMcast o | .cpyRed o => guardRegs o.g
  | .sfeed o | .mma o | .gspStep o => guardRegs o.g
  | .tokWait o | .tokTest o | .tokCancel o | .tokDetach o | .tokAdopt o | .tokPrio o | .tokAfter o | .tokResume o
  | .tokState o => guardRegs o.g
  | .accZero o | .accRd o | .accWr o => guardRegs o.g ++ dstRegs 32 o.d ++ srcRegs 32 o.a ++ srcRegs 32 o.b
  | .gspInj o | .gspRd o | .gspSpread o => gspRegs o 64
  | .gspMass o => gspRegs o 128
  | .strCmp o => aluRegs o 32 64 64 0
  | .strEq o => bitRegs o 64
  | .strHash o | .hashI64 o => aluRegs o 64 64 64 0
  | .strFind o | .partIdx o => aluRegs o 32 64 32 0
  | .strPfx o => aluRegs o 64 64 0 0
  | .grow _ a _ | .shrink _ a _ => srcRegs 64 a
  | .launch g d _ recs => guardRegs g ++ (match d with | some n => [(n.toNat, 2)] | none => []) ++ [(recs.toNat, 2)]
  | .launchFlush g _ => guardRegs g
  | .depAdd g _ _ _ _ | .depSub g _ _ _ _ => guardRegs g
  | .rdsr g d r => guardRegs g ++ dstRegs (if r == .clock || r == .stack then 64 else 32) d
  | .sys g a _ | .trap g a _ | .brk g a _ => guardRegs g ++ srcRegs 32 a
  | .sigret g => guardRegs g
  | .rdcr o | .wrcr o => guardRegs o.g ++ dstRegs (if o.wide then 64 else 32) o.d
      ++ srcRegs (if o.wide then 64 else 32) o.a
  | .park o | .unpark o | .tlbi o | .ctxSave o | .ctxLoad o | .teamOut o | .teamIn o | .halt o | .haltRelease o =>
      guardRegs o.g
  | .trace g _ v _ => guardRegs g ++ [(v.toNat, 1)]
  | .mark g _ _ => guardRegs g
  | .rdctr g _ d _ _ => guardRegs g ++ dstRegs 32 d
  | _ => []

/-- The vector registers that an instruction writes. -/
def writtenRegs : Instr → List (Nat × Nat)
  | .iadd o | .isub o | .imad o | .iabs o | .ineg o => dstRegs (regBits o.ty) o.d
  | .imulLo o | .imulHi o | .imin o | .imax o | .iand o | .ior o | .ixor o | .inot o | .shl o | .shr o | .sra o
  | .rotl o | .popc o | .clz o | .ctz o | .brev o | .mov o | .movi o => dstRegs (regBits o.ty) o.d
  | .bfe o | .bfi o | .sel o => dstRegs (regBits o.ty) o.d
  | .icmp o | .fcmp o => [(o.reg.toNat, 1)]
  | .lea o => dstRegs 64 o.d
  | .fadd o | .fsub o | .fmul o | .ffma o | .fdiv o | .fsqrt o | .frcp o | .frsqrt o | .fexp2 o | .flog2 o
  | .frnd o => dstRegs (regBits o.ty) o.d
  | .fmin o | .fmax o | .fabs o | .fneg o => dstRegs (regBits o.ty) o.d
  | .fclass o => dstRegs 32 o.d
  | .cvt o => dstRegs (regBits o.ty) o.d
  | .cvtq o | .cvtx o | .hadm o | .sclFind o => dstRegs 32 o.d
  | .call link _ | .callIndirect link _ => [(link.toNat, 2)]
  | .vote o => if o.scalar then [] else [(o.d.toNat, 1)]
  | .shfl o => dstRegs (regBits o.ty) o.d
  | .elect _ r _ => [(r.toNat, 1)]
  | .ld o | .ldf o | .ldfk o => dstRegs (widthBits o.w) o.d
  | .tagRd o => dstRegs 32 o.d
  | .atom o => dstRegs (widthBits o.w) o.d
  | .accRd o => dstRegs 32 o.d
  | .gspInj o | .gspRd o | .gspSpread o => dstRegs 64 o.d
  | .gspMass o => dstRegs 128 o.d
  | .strCmp o => dstRegs 32 o.d
  | .strEq o => [(o.reg.toNat, 1)]
  | .strHash o | .hashI64 o | .strFind o | .partIdx o | .strPfx o => dstRegs 64 o.d
  | .launch _ d _ _ => match d with | some n => [(n.toNat, 2)] | none => []
  | .rdsr _ d r => dstRegs (if r == .clock || r == .stack then 64 else 32) d
  | .rdcr o => dstRegs (if o.wide then 64 else 32) o.d
  | .rdctr _ _ d _ _ => dstRegs 32 d
  | _ => []

/-- The accumulators that an instruction names and that its group must hold (R29 step 4, R105). -/
def accsOf : Instr → List Nat
  | .accZero o | .accRd o | .accWr o => [o.acc.toNat]
  | .mma o => [o.fn.toNat % 4]
  | .shrink (.acc n) _ _ => [n.toNat]
  | _ => []

/-- The streams that an instruction names and that its group must hold. -/
def streamsOf : Instr → List Nat
  | .sfeed o => [o.fn.toNat % 4]
  | .mma o => [o.fa.toNat, o.fb.toNat]
  | .shrink (.stream n) _ _ => [n.toNat]
  | _ => []

/-- REG_RANGE (R29, step 4). -/
def Group.outOfRange (g : Group) (i : Instr) : Bool :=
  (regsOf i).any (fun r => g.pool < r.1 + r.2)
    || (accsOf i).any (fun n => !g.accHeld.getLsbD n) || (streamsOf i).any (fun n => !g.strHeld.getLsbD n)

/-- The OPs that Table 2-9 marks P, and the control registers that the User column of Table 6-5 withholds (R117). -/
def needsPrivilege : Instr → Bool
  | .park _ | .unpark _ | .tlbi _ | .ctxSave _ | .ctxLoad _ | .teamOut _ | .teamIn _ | .halt _ | .haltRelease _ =>
    true
  | .rdcr o => !crnUserRead o.crn
  | .wrcr o => !crnUserWrite o.crn
  | _ => false

/-! ### Issue (R23, R29, R30) -/

/-- Parks the issuing slot whole, with detail 0 (R30). -/
def State.parkMe (s : State) (cause : BitVec 8) : State :=
  s.parkWhole s.cur.core s.cur.gslot s.cur.slot (everyLane s.mySlot.mask cause 0) .none

/-- Steps 2 to 5 of R29 for an instruction whose guard is `gd`; `body` acts on `active`. With `always` the
instruction acts with `active` empty too (R94); otherwise it then only advances the PC (R23). -/
def issue (i : Instr) (gd : Guard) (s : State) (body : Mask → State) (always : Bool := false) : Out :=
  let x := s.mySlot
  if x.state == .empty || x.mask == 0 then .fault .noIssuer
  else if !wellFormed i then .next (s.parkMe Cause.illegal)
  else if needsPrivilege i && !s.me.privileged then .next (s.parkMe Cause.privileged)
  else if s.me.outOfRange i then .next (s.parkMe Cause.regRange)
  else
    let act := s.me.active x.mask gd
    if act == 0 && !always then .next (s.advance i) else .next (body act)

/-- A step of the device or an access of the host: its operands name what exists, or nothing happens. -/
def happen (i : Instr) (s : State) (f : State → State) : Out := .next (if wellFormed i then f s else s)

/-- An access through the BAR pages. Where no management image is valid, the device has its configuration space alone, and
nothing happens (21 R386). -/
def reachBar (i : Instr) (s : State) (f : State → State) : Out :=
  happen i s fun s => if s.boot == .ioOnly then s else f s

/-- A per-lane instruction that raises no cause: every active lane gets `f`, `w` register bits wide. -/
def alu (i : Instr) (gd : Guard) (d : Dst) (w : Nat) (f : Group → Nat → BitVec 128) (s : State) : Out :=
  issue i gd s fun act => (s.onMe fun g => g.perLane d w act (f s.me)).advance i

/-- The same with a bit for its destination. -/
def aluBit (i : Instr) (gd : Guard) (reg bit : Nat) (f : Group → Nat → Bool) (s : State) : Out :=
  issue i gd s fun act => (s.onMe fun g => g.perLaneBit reg bit act (f s.me)).advance i

end Sys2Proof.Machine
end

