-- ==== Sys2Proof/Machine/Diverge.lean ====
section
/-! DEFINITION. Reconvergence: what the device does with the entries of a group after every change of one (03 R44, R45),
and the waits that a popped entry takes up again (06 R127). -/

namespace Sys2Proof.Machine

open Sys2Proof

/-- The bytes from an instruction's address to the end of its block, as the group fetches them: from the core's
instruction cache, else from memory. -/
def State.codeAt (s : State) (c g : Nat) (pc : Word) : Res (List Byte) :=
  let a := s.serviceAgent c g
  match (s.probe a pc .fetch).2 with
  | .ok w =>
    match (s.core c).icache.find? (w.pa / 32) with
    | some bs => .ok (bs.drop (w.pa % 32))
    | none =>
      (s.peerLine a w.pa).bind fun line =>
        match s.below w.pa (32 - w.pa % 32) line with
        | some bs => .ok bs
        | none => .no Cause.remoteTimeout
  | .no c => .no c
  | .need w o => .need w o
  | .away l t => .away l t

/-- The length of the instruction at an address, from the LEN field of its first word; 0 where LEN is 00 (R114). -/
def State.lenAt (s : State) (c g : Nat) (pc : Word) : Res Nat :=
  (s.codeAt c g pc).bind fun bs => .ok (lenBytes (BitVec.ofNat 2 (leNat (bs.take 4))))

/-- The length that a wait is left behind by: the one its slot knows, else the one that stands at its PC. -/
def State.waitLen (s : State) (c g : Nat) (y : Slot) : Nat :=
  if y.len != 0 then y.len else match s.lenAt c g y.pc with | .ok n => n | _ => 0

/-- Entry `i` of a stack as it stands in memory, and its place, without an access of the group. -/
def State.peekStack (s : State) (c g i : Nat) : Res (Where × StackEntry) :=
  let a := s.serviceAgent c g
  match (s.probe a (s.stackAddr c g i) .read).2 with
  | .ok w => (s.fetchStack a w).2.bind fun e => .ok (w, e)
  | .no c => .no c
  | .need w o => .need w o
  | .away l t => .away l t

/-- The SLOT entries on a group's stack, with their index and place. -/
def State.spilledSlots (s : State) (c g : Nat) : List (Nat × Where × StackEntry) :=
  (List.range (s.group c g).depth).filterMap fun i =>
    match s.peekStack c g i with
    | .ok (w, e) => if e.kind == 1 && e.legal then some (i, w, e) else none
    | _ => none

/-- The lanes of a group that have not exited, as far as its stack can be read (R41). -/
def State.lanesLeft (s : State) (c g : Nat) : Mask :=
  let x := s.group c g
  let m := fun (y : Slot) => if y.state == .empty then 0 else y.mask
  (s.spilledSlots c g).foldl (fun a e => a ||| e.2.2.mask) (m x.slot0 ||| m x.slot1)

/-- A stack entry holds no lanes: a JOIN entry, or a SLOT entry that KILL has emptied (R44). -/
def StackEntry.bare (e : StackEntry) : Bool := e.legal && (e.kind == 2 || e.mask == 0)

/-- Every lane of a group has exited (R41, R100): no slot and no stack entry holds any. An entry that cannot be read now
may hold some. -/
def State.allExited (s : State) (c g : Nat) : Bool :=
  let x := s.group c g
  x.slot0.state == .empty && x.slot1.state == .empty
    && (List.range x.depth).all fun i => match s.peekStack c g i with | .ok (_, e) => e.bare | _ => false

/-- An outcome of one look at a group's entries: changed, with what to look at again, or nothing to do. -/
abbrev Look := Option State

/-- Slots that have reached their reconvergence address wait (R44). -/
def State.enterWait (s : State) (c g n : Nat) : Look :=
  let y := (s.group c g).slot n
  if y.state == .ready && y.pc == y.rcv && y.rcv != noRcv then
    some (s.onGroup c g fun x => x.onSlot n fun y => { y with state := .wait })
  else none

/-- R44, step 1: the lower-numbered slot takes the union. -/
def State.merge (s : State) (c g : Nat) : Look :=
  let x := s.group c g
  if x.slot0.state == .wait && x.slot1.state == .wait && x.slot0.rcv == x.slot1.rcv then
    some (s.setGroup c g { x with
      slot0 := { x.slot0 with mask := x.slot0.mask ||| x.slot1.mask, since := min x.slot0.since x.slot1.since },
      slot1 := .empty })
  else none

/-- Whether an entry whose reconvergence address is `rcv` comes back to `r` through the JOIN entries that stand below a
depth (log 54). -/
def State.leadsBack (s : State) (c g : Nat) (r : Word) : Nat → Word → Bool
  | 0, _ => false
  | d + 1, rcv =>
    match s.peekStack c g d with
    | .ok (_, e) =>
      if e.legal && e.kind == 2 && e.pc == rcv then e.rcv == r || State.leadsBack s c g r d e.rcv
      else State.leadsBack s c g r d rcv
    | _ => State.leadsBack s c g r d rcv

/-- The top entry as it stands: the entry, a cause with the entry's address as detail, or a wait for the fabric. -/
def State.readTop (s : State) (c g n : Nat) : State × Res StackEntry :=
  s.readStack c g n ((s.group c g).depth - 1)

/-- A JOIN entry was pushed at the top of a group's stack, whether or not it can be read now. -/
def Group.joinOnTop (x : Group) : Bool := x.joins.contains (x.depth - 1)

/-- The pop of step 3 of R44 is refused: the lanes of the completing slot park at r (R45). -/
def State.popRefused (s : State) (c g n : Nat) (cause : BitVec 8) : State :=
  let d := (s.group c g).depth - 1
  let detail := if cause == Cause.illegal then 0 else s.stackAddr c g d
  s.parkWhole c g n (everyLane ((s.group c g).slot n).mask cause detail) .stack

/-- A slot in WAIT is complete: it is READY at r with a new reconvergence address (R44, step 3). -/
def State.complete (s : State) (c g n : Nat) (rcv : Word) (pop : Bool) : State :=
  s.onGroup c g fun x =>
    let x := if pop then { x with depth := x.depth - 1 } else x
    x.onSlot n fun y => { y with state := .ready, rcv := rcv, since := s.turn + 1, got := [] }

/-- Asks the fabric for what a pop needs, once. -/
def State.askLook (s : State) (c g n : Nat) (w : Want) (op : HomeOp) : Look :=
  if s.requests.any fun (r : Request) => r.origin == .slot c g n w && s.slotAsked c g n r then none
  else some (s.askSlot c g n w op)

/-- R44, steps 2 and 3, for one slot. Where the top is a SLOT entry that cannot be read for step 2's test, an EMPTY slot's
pop of it is what is refused; with both slots occupied the waiting lanes park at r, as for a JOIN entry (log 55). -/
def State.tryComplete (s : State) (c g n : Nat) : Look :=
  let x := s.group c g
  let y := x.slot n
  let o := x.slot (other n)
  if y.state != .wait then none
  else if o.state != .empty && (o.rcv == y.rcv || s.leadsBack c g y.rcv x.depth o.rcv) then none
  else if x.depth = 0 then some (s.complete c g n noRcv false)
  else
    match s.readTop c g n with
    | (s, .no cause) => if o.state == .empty && !x.joinOnTop then none else some (s.popRefused c g n cause)
    | (s, .need w op) => s.askLook c g n w op
    | (_, .away _ _) => none
    | (s, .ok e) =>
      if e.kind == 1 then
        if e.mask != 0 && e.rcv == y.rcv || !e.legal && o.state == .empty then none
        else some (s.complete c g n noRcv false)
      else if e.kind != 2 then some (s.popRefused c g n Cause.illegal)
      else if e.pc == y.rcv then
        some (if e.legal then s.complete c g n e.rcv true else s.popRefused c g n Cause.illegal)
      else some (s.complete c g n noRcv false)

/-- The pop of a SLOT entry is refused: the team is halted and a STOP message posted (R45). -/
def State.refillRefused (s : State) (c g : Nat) (cause : BitVec 8) : State :=
  let x := s.group c g
  let t := s.team c x.team
  let a := s.stackAddr c g (x.depth - 1)
  let s := s.haltTeam c x.team .pop 5
  s.addMsg x.asid
    { kind := .stop, cause := cause, asid := x.asid, seq := 0, addr := a, mask := 0, core := c, index := 0xFFFF,
      tid := t.tid, group := x.number, access := Access.stack.code, launch := t.launch, pc := a }

/-- A SLOT entry without lanes is discarded as soon as it reaches the top (R44, step 4). -/
def State.discard (s : State) (c g : Nat) : Look :=
  let x := s.group c g
  if x.depth = 0 then none
  else
    match s.peekStack c g (x.depth - 1) with
    | .ok (_, e) =>
      if e.kind == 1 && e.legal && e.mask == 0 then some (s.onGroup c g fun x => { x with depth := x.depth - 1, tagWaits := x.tagWaits.erase (x.depth - 1) })
      else none
    | _ => none

/-- R44, step 4: a SLOT entry on top refills an EMPTY slot. An entry that cannot be read is popped only where no JOIN entry
was pushed there. The pop waits for an instruction of the other slot that has checked its spill (R45). -/
def State.refill (s : State) (c g : Nat) : Look :=
  let x := s.group c g
  let n := if x.slot0.state == .empty then 0 else 1
  if x.depth = 0 || (s.team c x.team).halts.contains .pop || (x.slot (other n)).checked.isSome then none
  else
    match s.readTop c g n with
    | (s, .ok e) =>
      if e.kind == 2 || (x.slot n).state != .empty then none
      else if !e.legal then some (s.refillRefused c g Cause.illegal)
      else
        let y := e.slot s.turn s.nextTag (x.steps.contains (x.depth - 1))
        let y := if y.wait.kind == .reissue then y else { y with len := s.waitLen c g y }
        let y := match x.tagWaits.find? (x.depth - 1) with
          | some (m, t) => if e.state == 3 then { y with act := m, tagged := some t } else y
          | none => y
        let s := s.onGroup c g fun x =>
          { x with depth := x.depth - 1, steps := x.steps.filter (· < x.depth - 1),
                   tagWaits := x.tagWaits.erase (x.depth - 1) }.setSlot n y
        some (if e.state == 2 then s.movePlace c g (.spilled (x.depth - 1)) (placeOf n) else s)
    | (s, .no cause) =>
      if (x.slot n).state != .empty || x.joinOnTop then none else some (s.refillRefused c g cause)
    | (s, .need w op) =>
      if (x.slot n).state == .empty then s.askLook c g n w op else none
    | (_, .away _ _) => none

/-- One round of R44's check. -/
def State.look (s : State) (c g : Nat) : Look :=
  (s.enterWait c g 0).orElse fun _ => (s.enterWait c g 1).orElse fun _ => (s.merge c g).orElse fun _ =>
    (s.discard c g).orElse fun _ => (s.tryComplete c g 0).orElse fun _ => (s.tryComplete c g 1).orElse fun _ => s.refill c g

/-- The check of R44, repeated after every change; each round consumes an entry or moves a slot on. -/
def State.settleGroup (s : State) (c g : Nat) : Nat → State
  | 0 => s
  | k + 1 =>
    match s.look c g with
    | some s => State.settleGroup s c g k
    | none => s

/-- Rounds that suffice: 256 entries and two slots, each moved a bounded number of times. -/
def settleFuel : Nat := 1100

/-- The check for every group with lanes (R44). -/
def State.settle (s : State) : State :=
  s.cores.foldl (fun s (c, k) => k.groups.foldl (fun s (g, x) =>
    if x.live then s.settleGroup c g settleFuel else s) s) s

end Sys2Proof.Machine
end

