-- ==== Sys2Proof/Machine/Float.lean ====
section
/-! DEFINITION. Floating-point arithmetic: exact results on integers, rounded once (04 R55 to R61, R82 to R89). -/

namespace Sys2Proof.Machine

open Sys2Proof Forms

/-- A format (Table 4-1): exponent bits and fraction bits. -/
structure Fmt where
  e : Nat
  f : Nat
  deriving DecidableEq, Repr

def fp64 : Fmt := ⟨11, 52⟩
def fp32 : Fmt := ⟨8, 23⟩
def fp16 : Fmt := ⟨5, 10⟩
def bf16 : Fmt := ⟨8, 7⟩

/-- The format of a TYPE. -/
def fmtOf : Ty → Fmt
  | .f16 => fp16
  | .bf16 => bf16
  | .f64 => fp64
  | _ => fp32

def Fmt.bits (m : Fmt) : Nat := 1 + m.e + m.f
def Fmt.bias (m : Fmt) : Int := 2 ^ (m.e - 1) - 1
/-- The exponent of the smallest normal value. -/
def Fmt.emin (m : Fmt) : Int := 1 - m.bias
def Fmt.infinity (m : Fmt) : Nat := (2 ^ m.e - 1) * 2 ^ m.f
def Fmt.sign (m : Fmt) (neg : Bool) : Nat := if neg then 2 ^ (m.e + m.f) else 0
/-- The default NaN (Table 4-1). -/
def Fmt.nan (m : Fmt) : Nat := m.infinity + 2 ^ (m.f - 1)
def Fmt.inf (m : Fmt) (neg : Bool) : Nat := m.sign neg + m.infinity
def Fmt.zero (m : Fmt) (neg : Bool) : Nat := m.sign neg

/-- A value: a NaN, quiet or signalling, an infinity, or plus or minus `m` x 2^`e`. -/
inductive FVal where
  | nan (signalling : Bool)
  | inf (neg : Bool)
  | num (neg : Bool) (m : Nat) (e : Int)
  deriving DecidableEq, Repr

/-- The value of a word (R55). -/
def Fmt.read (m : Fmt) (x : Nat) : FVal :=
  let fr := x % 2 ^ m.f
  let ex := x / 2 ^ m.f % 2 ^ m.e
  let neg := x / 2 ^ (m.e + m.f) % 2 == 1
  if ex = 2 ^ m.e - 1 then
    if fr = 0 then .inf neg else .nan (fr / 2 ^ (m.f - 1) == 0)
  else if ex = 0 then .num neg fr (m.emin - m.f)
  else .num neg (2 ^ m.f + fr) ((ex : Int) - m.bias - m.f)

def FVal.isNan : FVal → Bool
  | .nan _ => true
  | _ => false

def FVal.isSnan : FVal → Bool
  | .nan s => s
  | _ => false

/-! ### Exceptions (Table 4-3) -/

abbrev Exc := BitVec 5

def noExc : Exc := 0
def invalid : Exc := 1
def divZero : Exc := 2
def overflow : Exc := 4
def underflow : Exc := 8
def inexact : Exc := 16

/-- Whether a magnitude is rounded up: `r` is what was cut off, of `2^k`, and `more` that something nonzero lies below
it. -/
def roundsUp (rm : Rm) (neg odd : Bool) (r k : Nat) (more : Bool) : Bool :=
  match rm with
  | .rtz => false
  | .rup => !neg && (r != 0 || more)
  | .rdn => neg && (r != 0 || more)
  | .rne => if k = 0 then false else 2 ^ (k - 1) < r || (r == 2 ^ (k - 1) && (more || odd))

/-- A magnitude rounded to a format as if its exponents had no upper end. -/
structure Rounded where
  code : Nat
  tiny : Bool
  inx : Bool
  deriving DecidableEq, Repr

/-- Rounds (`n` + d) x 2^`e`, where d is 0, or with `more` lies between 0 and 1; `n` is not 0 and has, with `more`, more
bits than the format. -/
def Fmt.code (m : Fmt) (rm : Rm) (neg : Bool) (n : Nat) (e : Int) (more : Bool) : Rounded :=
  let top := e + n.log2
  let big := max top m.emin
  let q := big - m.f
  let k := (q - e).toNat
  let base := if e < q then n / 2 ^ k else n * 2 ^ (e - q).toNat
  let r := if e < q then n % 2 ^ k else 0
  let up := roundsUp rm neg (base % 2 == 1) r k more
  ⟨(big - m.emin).toNat * 2 ^ m.f + base + (if up then 1 else 0), top < m.emin, r != 0 || more⟩

/-- Rounds plus or minus (`n` + d) x 2^`e` to a format (R58, Table 4-3). -/
def Fmt.round (m : Fmt) (rm : Rm) (neg : Bool) (n : Nat) (e : Int) (more : Bool) : Nat × Exc :=
  if n = 0 then (m.zero neg, noExc)
  else
    let c := m.code rm neg n e more
    if m.infinity ≤ c.code then
      let toInf := match rm with
        | .rne => true | .rtz => false | .rup => !neg | .rdn => neg
      (m.sign neg + (if toInf then m.infinity else m.infinity - 1), overflow ||| inexact)
    else
      (m.sign neg + c.code, if c.inx then (if c.tiny then underflow ||| inexact else inexact) else noExc)

/-- Invalid for a signalling NaN among the inputs (R60). -/
def snanExc (vs : List FVal) : Exc := if vs.any FVal.isSnan then invalid else noExc

/-- The sign of an exact zero sum (R59). -/
def zeroSumNeg (rm : Rm) (a b : Bool) : Bool := if a == b then a else rm == .rdn

/-- The exact sum of two finite values, and its sign if it is zero. -/
def addExact (rm : Rm) (na : Bool) (ma : Nat) (ea : Int) (nb : Bool) (mb : Nat) (eb : Int) : Bool × Nat × Int :=
  let e := min ea eb
  let x : Int := (ma * 2 ^ (ea - e).toNat : Nat)
  let y : Int := (mb * 2 ^ (eb - e).toNat : Nat)
  let z := (if na then -x else x) + (if nb then -y else y)
  if z = 0 then (zeroSumNeg rm na nb, 0, e) else (z < 0, z.natAbs, e)

/-- `fadd` (Table 4-7). -/
def Fmt.add (m : Fmt) (rm : Rm) (x y : Nat) : Nat × Exc :=
  match m.read x, m.read y with
  | .inf a, .inf b => if a == b then (m.inf a, noExc) else (m.nan, invalid)
  | .inf a, .num _ _ _ => (m.inf a, noExc)
  | .num _ _ _, .inf b => (m.inf b, noExc)
  | .num a ma ea, .num b mb eb =>
    let (n, z, e) := addExact rm a ma ea b mb eb
    m.round rm n z e false
  | a, b => (m.nan, snanExc [a, b])

def Fmt.negate (m : Fmt) (x : Nat) : Nat := x ^^^ 2 ^ (m.e + m.f)

/-- `fsub`: as `fadd` of a and -b, but for NaNs. -/
def Fmt.sub (m : Fmt) (rm : Rm) (x y : Nat) : Nat × Exc := m.add rm x (m.negate y)

/-- `fmul`. -/
def Fmt.mul (m : Fmt) (rm : Rm) (x y : Nat) : Nat × Exc :=
  match m.read x, m.read y with
  | .nan a, b => (m.nan, snanExc [.nan a, b])
  | a, .nan b => (m.nan, snanExc [a, .nan b])
  | .inf a, .inf b => (m.inf (a != b), noExc)
  | .inf a, .num b mb _ => if mb = 0 then (m.nan, invalid) else (m.inf (a != b), noExc)
  | .num a ma _, .inf b => if ma = 0 then (m.nan, invalid) else (m.inf (a != b), noExc)
  | .num a ma ea, .num b mb eb => m.round rm (a != b) (ma * mb) (ea + eb) false

/-- `ffma`: rounded once. 0 x infinity is invalid even when c is a quiet NaN. -/
def Fmt.fma (m : Fmt) (rm : Rm) (x y z : Nat) : Nat × Exc :=
  let a := m.read x
  let b := m.read y
  let c := m.read z
  let zeroInf := match a, b with
    | .inf _, .num _ n _ | .num _ n _, .inf _ => n == 0
    | _, _ => false
  if zeroInf then (m.nan, invalid)
  else
    match a, b, c with
    | .num na ma ea, .num nb mb eb, .num nc mc ec =>
      let (n, v, e) := addExact rm (na != nb) (ma * mb) (ea + eb) nc mc ec
      m.round rm n v e false
    | .num _ _ _, .num _ _ _, .inf nc => (m.inf nc, noExc)
    | _, _, _ =>
      if a.isNan || b.isNan || c.isNan then (m.nan, snanExc [a, b, c])
      else
        let sgn := fun v => match v with | FVal.inf n => n | .num n _ _ => n | .nan _ => false
        let p := sgn a != sgn b
        match c with
        | .inf nc => if nc == p then (m.inf p, noExc) else (m.nan, invalid)
        | _ => (m.inf p, noExc)

/-- More bits than any format's fraction, for quotients and roots. -/
def guardBits : Nat := 128

/-- Plus or minus a / b for finite values, b not zero. -/
def Fmt.quotient (m : Fmt) (rm : Rm) (neg : Bool) (ma : Nat) (ea : Int) (mb : Nat) (eb : Int) : Nat × Exc :=
  let n := ma * 2 ^ guardBits
  m.round rm neg (n / mb) (ea - eb - guardBits) (n % mb != 0)

/-- `fdiv`. -/
def Fmt.div (m : Fmt) (rm : Rm) (x y : Nat) : Nat × Exc :=
  match m.read x, m.read y with
  | .nan a, b => (m.nan, snanExc [.nan a, b])
  | a, .nan b => (m.nan, snanExc [a, .nan b])
  | .inf _, .inf _ => (m.nan, invalid)
  | .inf a, .num b _ _ => (m.inf (a != b), noExc)
  | .num a _ _, .inf b => (m.zero (a != b), noExc)
  | .num a ma ea, .num b mb eb =>
    if mb = 0 then
      if ma = 0 then (m.nan, invalid) else (m.inf (a != b), divZero)
    else m.quotient rm (a != b) ma ea mb eb

/-- `frcp`. -/
def Fmt.rcp (m : Fmt) (rm : Rm) (x : Nat) : Nat × Exc :=
  match m.read x with
  | .nan s => (m.nan, snanExc [.nan s])
  | .inf a => (m.zero a, noExc)
  | .num a ma ea => if ma = 0 then (m.inf a, divZero) else m.quotient rm a 1 0 ma ea

/-- The integer square root below 2^`k`, bit by bit. -/
def isqrt (n : Nat) : Nat → Nat → Nat
  | 0, r => r
  | k + 1, r => isqrt n k (if (r + 2 ^ k) * (r + 2 ^ k) ≤ n then r + 2 ^ k else r)

def natSqrt (n : Nat) : Nat := isqrt n (n.log2 / 2 + 1) 0

/-- A value's significand and exponent with the exponent even. -/
def evenExp (n : Nat) (e : Int) : Nat × Int := if e % 2 = 0 then (n, e) else (2 * n, e - 1)

/-- `fsqrt`. -/
def Fmt.sqrt (m : Fmt) (rm : Rm) (x : Nat) : Nat × Exc :=
  match m.read x with
  | .nan s => (m.nan, snanExc [.nan s])
  | .inf a => if a then (m.nan, invalid) else (m.inf false, noExc)
  | .num a n e =>
    if n = 0 then (m.zero a, noExc)
    else if a then (m.nan, invalid)
    else
      let (n, e) := evenExp n e
      let w := n * 2 ^ (2 * guardBits)
      let r := natSqrt w
      m.round rm false r (e / 2 - guardBits) (r * r != w)

/-- `frsqrt`. -/
def Fmt.rsqrt (m : Fmt) (rm : Rm) (x : Nat) : Nat × Exc :=
  match m.read x with
  | .nan s => (m.nan, snanExc [.nan s])
  | .inf a => if a then (m.nan, invalid) else (m.zero false, noExc)
  | .num a n e =>
    if n = 0 then (m.inf a, divZero)
    else if a then (m.nan, invalid)
    else
      let (n, e) := evenExp n e
      let k := 2 * guardBits
      let r := natSqrt (2 ^ (2 * k) / n)
      m.round rm false r (-(e / 2) - k) (r * r * n != 2 ^ (2 * k))

/-! ### 2^a and log2 a: fixed point of `fixBits` bits, far beyond any rounding boundary of a result
(log 10) -/

def fixBits : Nat := 400

/-- The sum of z^(2i+1) / (2i+1), for z = `p` / 2^fixBits and `sq` = z^2. -/
def atanhSum (sq : Nat) : Nat → Nat → Nat → Nat
  | 0, _, _ => 0
  | k + 1, i, p => p / (2 * i + 1) + atanhSum sq k (i + 1) (p * sq / 2 ^ fixBits)

/-- ln (num / den), between 1 and 2, in fixed point. -/
def fixLn (num den : Nat) : Nat :=
  let z := (num - den) * 2 ^ fixBits / (num + den)
  2 * atanhSum (z * z / 2 ^ fixBits) 140 0 z

/-- The sum of y^i / i! from `t` = y^i / i! on. -/
def expSum (y : Nat) : Nat → Nat → Nat → Nat
  | 0, _, _ => 0
  | k + 1, i, t => t + expSum y k (i + 1) (t * y / 2 ^ fixBits / (i + 1))

/-- 2^(f / 2^fixBits) in fixed point, for f below 2^fixBits. -/
def fixExp2 (f : Nat) : Nat := expSum (f * fixLn 2 1 / 2 ^ fixBits) 110 0 (2 ^ fixBits)

/-- `fexp2`. An exponent beyond plus or minus 4,096 over- or underflows in every format alike; one too small for the
fixed point leaves the result next to 1. -/
def Fmt.exp2 (m : Fmt) (rm : Rm) (x : Nat) : Nat × Exc :=
  match m.read x with
  | .nan s => (m.nan, snanExc [.nan s])
  | .inf a => if a then (m.zero false, noExc) else (m.inf false, noExc)
  | .num a n e =>
    if n = 0 then m.round rm false 1 0 false
    else if 12 < e + n.log2 then m.round rm false 1 (if a then -4096 else 4096) false
    else if e + fixBits < 0 then m.round rm false (if a then 2 ^ fixBits - 1 else 2 ^ fixBits) (-fixBits) true
    else
      let f : Int := (n * 2 ^ (e + fixBits).toNat : Nat)
      let v := if a then -f else f
      let whole := v / 2 ^ fixBits
      let part := (v % 2 ^ fixBits).toNat
      if part = 0 then m.round rm false 1 whole false
      else m.round rm false (fixExp2 part) (whole - fixBits) true

/-- `flog2`. -/
def Fmt.log2 (m : Fmt) (rm : Rm) (x : Nat) : Nat × Exc :=
  match m.read x with
  | .nan s => (m.nan, snanExc [.nan s])
  | .inf a => if a then (m.nan, invalid) else (m.inf false, noExc)
  | .num a n e =>
    if n = 0 then (m.inf true, divZero)
    else if a then (m.nan, invalid)
    else
      let k := e + n.log2
      if n = 2 ^ n.log2 then m.round rm (k < 0) k.natAbs 0 false
      else
        let frac := fixLn n (2 ^ n.log2) * 2 ^ fixBits / fixLn 2 1
        let v := k * 2 ^ fixBits + frac
        if v < 0 then m.round rm true (v.natAbs - 1) (-fixBits) true
        else m.round rm false v.toNat (-fixBits) true

/-! ### Order, classes, integral values, conversion -/

/-- Signed magnitude compare of two finite values. -/
def cmpFin (na : Bool) (ma : Nat) (ea : Int) (nb : Bool) (mb : Nat) (eb : Int) : Ordering :=
  let e := min ea eb
  let x : Int := (ma * 2 ^ (ea - e).toNat : Nat)
  let y : Int := (mb * 2 ^ (eb - e).toNat : Nat)
  compare (if na then -x else x) (if nb then -y else y)

/-- The order of two values; none with a NaN. Zeros compare equal. -/
def cmpVal : FVal → FVal → Option Ordering
  | .nan _, _ => none
  | _, .nan _ => none
  | .inf a, .inf b => some (if a == b then .eq else if a then .lt else .gt)
  | .inf a, .num _ _ _ => some (if a then .lt else .gt)
  | .num _ _ _, .inf b => some (if b then .gt else .lt)
  | .num na ma ea, .num nb mb eb => some (cmpFin na ma ea nb mb eb)

/-- Signs of two equal values: -0 is less than +0. -/
def Fmt.less (m : Fmt) (x y : Nat) : Bool :=
  match cmpVal (m.read x) (m.read y) with
  | some .lt => true
  | some .eq => x / 2 ^ (m.e + m.f) % 2 == 1 && y / 2 ^ (m.e + m.f) % 2 == 0
  | _ => false

/-- `fmin` and `fmax` (R83). -/
def Fmt.minmax (m : Fmt) (greater : Bool) (x y : Nat) : Nat × Exc :=
  let a := m.read x
  let b := m.read y
  let r := if a.isNan && b.isNan then m.nan
    else if a.isNan then y
    else if b.isNan then x
    else if greater then (if m.less x y then y else x)
    else (if m.less y x then y else x)
  (r, snanExc [a, b])

/-- `fcmp` (R85). -/
def Fmt.cmp (m : Fmt) (c : Cond) (x y : Nat) : Bool × Exc :=
  let a := m.read x
  let b := m.read y
  let nan := a.isNan || b.isNan
  let o := cmpVal a b
  let ordered := match c with | .lt | .le | .gt | .ge => true | _ => false
  let r := match c with
    | .eq => o == some .eq | .ne => o != some .eq
    | .lt => o == some .lt | .le => o == some .lt || o == some .eq
    | .gt => o == some .gt | .ge => o == some .gt || o == some .eq
    | .ord => !nan | .uno => nan
  (r, if ordered && nan then invalid else snanExc [a, b])

/-- The class bit of `fclass` (R86). -/
def Fmt.classBit (m : Fmt) (x : Nat) : Nat :=
  match m.read x with
  | .nan s => if s then 8 else 9
  | .inf n => if n then 0 else 7
  | .num n v _ =>
    if v = 0 then (if n then 3 else 4)
    else if v < 2 ^ m.f then (if n then 2 else 5)
    else (if n then 1 else 6)

/-- A finite value rounded to an integer: its magnitude, and whether that is exact. -/
def roundInt (rm : Rm) (neg : Bool) (n : Nat) (e : Int) : Nat × Bool :=
  if 0 ≤ e then (n * 2 ^ e.toNat, true)
  else
    let k := (-e).toNat
    let base := n / 2 ^ k
    let r := n % 2 ^ k
    (base + (if roundsUp rm neg (base % 2 == 1) r k false then 1 else 0), r == 0)

/-- `frnd` (R87). -/
def Fmt.integral (m : Fmt) (rm : Rm) (x : Nat) : Nat × Exc :=
  match m.read x with
  | .nan s => (m.nan, snanExc [.nan s])
  | .inf _ => (x, noExc)
  | .num a n e =>
    if n = 0 || 0 ≤ e then (x, noExc)
    else ((m.round rm a (roundInt rm a n e).1 0 false).1, noExc)

/-- An integer to a format (Table 4-9). -/
def Fmt.ofInt (m : Fmt) (rm : Rm) (v : Int) : Nat × Exc := m.round rm (v < 0) v.natAbs 0 false

/-- One format to another (Table 4-9). -/
def Fmt.convert (src dst : Fmt) (rm : Rm) (x : Nat) : Nat × Exc :=
  match src.read x with
  | .nan s => (dst.nan, snanExc [.nan s])
  | .inf a => (dst.inf a, noExc)
  | .num a n e => dst.round rm a n e false

/-- A format to an integer of a range (Table 4-9). -/
def Fmt.toInt (m : Fmt) (rm : Rm) (lo hi : Int) (x : Nat) : Int × Exc :=
  match m.read x with
  | .nan _ => (0, invalid)
  | .inf a => (if a then lo else hi, invalid)
  | .num a n e =>
    let k : Int := ((roundInt rm a n e).1 : Nat)
    let v := if a then -k else k
    if v < lo then (lo, invalid) else if hi < v then (hi, invalid) else (v, noExc)

end Sys2Proof.Machine
end

