-- ==== Sys2Proof/Machine/Spots.lean ====
section
/-! DEFINITION. Where a lane's access falls, and its checks in the order of 12 R234: effective addresses, local, remote
and global places, watches. -/

namespace Sys2Proof.Machine

open Sys2Proof Forms

/-- Bytes of a width (Table 2-7). -/
def widthBytes : Width → Nat
  | .b8 => 1 | .b16 => 2 | .b32 => 4 | .b64 => 8 | .b128 => 16

/-- The effective address of a lane (R232). -/
def Group.ea (g : Group) (sp : Space) (l : Nat) (a : Src) (x : Ext) : Word :=
  match sp with
  | .s => ((g.src l 32 0 a).setWidth 32 + imm32 x).setWidth 64
  | _ => g.src64 l a + (imm32 x).signExtend 64

/-- A place: bytes of memory, or an offset of a resident team's scratchpad. -/
inductive Spot where
  | mem (w : Where)
  | pad (core team off : Nat)
  deriving DecidableEq, Repr

/-- The team that a remote address names in a launch of `teams` teams and `stages` stages (R203, R204), for an issuer
of linear id `tid` and stage `stage`: its linear id and the offset. -/
def remoteName (tid stage stages teams : Nat) (a : Word) : Option (Nat × Nat) :=
  let off := (a.extractLsb' 0 19).toNat
  if a.extractLsb' 51 11 != 0 then .none
  else
    match (a.extractLsb' 62 2).toNat with
    | 0 =>
      let t := (a.extractLsb' 19 32).toNat
      if teams ≤ t then .none else some (t, off)
    | 1 =>
      let st := (a.extractLsb' 19 3).toNat
      if a.extractLsb' 22 29 != 0 || stages ≤ st then .none else some (tid - stage + st, off)
    | _ => .none

/-- The same for the issuing team. -/
def Team.remote (t : Team) (a : Word) : Option (Nat × Nat) := remoteName t.tid t.stage t.stages t.teams a

/-- The checks of R204 and R208 on a remote access of `n` bytes. -/
def State.remoteSpot (s : State) (t : Team) (a : Word) (n : Nat) (u : TagUse) : Res Spot :=
  match t.remote a with
  | none => .no Cause.scratchRange
  | some (tid, off) =>
    match s.findTeam t.launch tid with
    | some (c, i) =>
      match (s.team c i).check off n u with
      | some x => .no x
      | none => .ok (.pad c i off)
    | none =>
      if s.saved.any fun (e : SavedTeam) => e.launch == t.launch && e.tid == tid then .away t.launch tid
      else .no Cause.scratchRange

/-- A local access (R202, R208). -/
def State.localSpot (s : State) (c t off n : Nat) (u : TagUse) : Res Spot :=
  match (s.team c t).check off n u with
  | some x => .no x
  | none => .ok (.pad c t off)

/-- A global access of the issuing group: the walk and the checks of R195, then the watches (R234). -/
def State.globalSpot (s : State) (va : Word) (n : Nat) (acc : Access) : State × Res Spot :=
  match s.reach (s.agent s.cur.core s.cur.gslot s.cur.slot) s.myTeam.tid va n acc with
  | (s, .ok w) => (s, .ok (.mem w))
  | (s, .no c) => (s, .no c)
  | (s, .need w o) => (s, .need w o)
  | (s, .away l t) => (s, .away l t)

/-- The checks of R234 on a lane: alignment to `align`, then those of the space for `n` bytes. -/
def State.spotOf (s : State) (sp : Space) (ea : Word) (align n : Nat) (acc : Access) (u : TagUse) :
    State × Res Spot :=
  if ea.toNat % align != 0 then (s, .no Cause.align)
  else
    match sp with
    | .g => s.globalSpot ea n acc
    | .s => (s, s.localSpot s.cur.core s.me.team ea.toNat n u)
    | .rs => (s, s.remoteSpot s.myTeam ea n u)

/-- A lane with its address and what its checks came to. -/
structure LaneAt where
  lane : Nat
  ea : Word
  res : Res Spot
  deriving DecidableEq, Repr

/-- Checks the lanes of a mask, one after the other. -/
def State.checkLanes (s : State) (sp : Space) (ea : Nat → Word) (align n : Nat) (acc : Access) (u : TagUse) :
    List Nat → State × List LaneAt
  | [] => (s, [])
  | l :: ls =>
    let (s, r) := s.spotOf sp (ea l) align n acc u
    let (s, rs) := State.checkLanes s sp ea align n acc u ls
    (s, ⟨l, ea l, r⟩ :: rs)

/-- The lanes refused, each with its own cause and address (R199, R234). -/
def refused (ls : List LaneAt) : List LaneTrap :=
  ls.filterMap fun l => match l.res with | .no c => some ⟨l.lane, c, l.ea⟩ | _ => none

/-- The lanes that may go on. -/
def passed (ls : List LaneAt) : List (Nat × Word × Spot) :=
  ls.filterMap fun l => match l.res with | .ok p => some (l.lane, l.ea, p) | _ => none

/-- What the lanes wait for, if anything: the fabric is asked, the dispatcher is told (R131). -/
def State.askFor (s : State) (ls : List LaneAt) : State × Bool :=
  ls.foldl (fun (s, w) l =>
    match l.res with
    | .need want op => (s.askSlot s.cur.core s.cur.gslot s.cur.slot want op, true)
    | .away launch tid => (s.needTeam launch tid, true)
    | _ => (s, w)) (s, false)

/-- A lane's access has a frame in a peer window. -/
def Spot.peer : Spot → Bool
  | .mem w => isPeer w.pa
  | .pad _ _ _ => false

/-- The bytes of a value. -/
def valueBytes (n : Nat) (x : BitVec 128) : List Byte := leBytes n x.toNat

def bytesValue (bs : List Byte) : BitVec 128 := BitVec.ofNat 128 (leNat bs)

/-- Reads a place of the scratchpad. -/
def State.padRead (s : State) (c t off n : Nat) : List Byte := (s.team c t).read off n

def State.padWrite (s : State) (c t off : Nat) (bs : List Byte) : State := s.onTeam c t fun x => x.write off bs

/-- Raises the outstanding count of the issuing group (R216). -/
def State.outstand (s : State) (k : Nat) : State := s.onMe fun g => { g with outstanding := g.outstanding + k }

end Sys2Proof.Machine
end

