-- ==== Sys2Proof/Machine/MemOps.lean ====
section
/-! DEFINITION. Loads, stores, tagged words, tags, atomics, reductions, prefetch and line maintenance (12 R231 to
R247). -/

namespace Sys2Proof.Machine

open Sys2Proof Forms

/-- Whether the spill is checked though the slot may not divide: a lane may be refused after others are performed
(R45). -/
def lateRefusal (sp : Space) (ps : List (Nat × Word × Spot)) : Bool := sp == .rs || ps.any fun p => p.2.2.peer

/-! ### `ld` and `st` -/

/-- What a load lane reads: the value, a cause, or a line that must come over the fabric first (R234, R235). -/
def State.loadSpot (s : State) (p : Spot) (n : Nat) : State × Res (BitVec 128) :=
  let c := s.cur.core
  match p with
  | .pad c t off => (s, .ok (bytesValue (s.padRead c t off n)))
  | .mem w =>
    match s.peerLine (s.agent c s.cur.gslot s.cur.slot) w.pa with
    | .no x => (s, .no x)
    | .need want op => (s, .need want op)
    | .away l t => (s, .away l t)
    | .ok line =>
      match s.loadL1 c w.pa n line with
      | (s, some bs) => (s, .ok (bytesValue bs))
      | (s, none) => (s, .no Cause.remoteTimeout)

/-- Reads the lanes that passed. -/
def State.loadLanes (s : State) (n : Nat) : List (Nat × Word × Spot) → State × List (Nat × Word × Res (BitVec 128))
  | [] => (s, [])
  | (l, ea, p) :: ps =>
    let (s, r) := s.loadSpot p n
    let (s, rs) := State.loadLanes s n ps
    (s, (l, ea, r) :: rs)

/-- Asks for the lines that loads need. -/
def State.askLines (s : State) (rs : List (Nat × Word × Res (BitVec 128))) : State × Bool :=
  rs.foldl (fun (s, w) r =>
    match r.2.2 with
    | .need want op => (s.askSlot s.cur.core s.cur.gslot s.cur.slot want op, true)
    | _ => (s, w)) (s, false)

def execLd (o : Mem Unit) (s : State) : Out :=
  issue (.ld o) o.g s fun act =>
    let n := widthBytes o.w
    let g := s.me
    let (s, ls) := s.checkLanes o.sp (fun l => g.ea o.sp l o.a o.x) n n .read .load (lanes act)
    let (s, waits) := s.askFor ls
    if waits then s.reissueRead
    else
      let (s, rs) := s.loadLanes n (passed ls)
      let (s, waits) := s.askLines rs
      if waits then s.reissueRead
      else
        let bad := refused ls ++ rs.filterMap fun r => match r.2.2 with | .no c => some ⟨r.1, c, r.2.1⟩ | _ => none
        let vals := rs.filterMap fun r => match r.2.2 with | .ok v => some (r.1, v) | _ => none
        s.step1 (.ld o) bad .read (lateRefusal o.sp (passed ls)) fun s =>
          s.onMe fun x => x.putAll o.d (widthBits o.w) vals

/-- A store to a place: the L1 of the core holds it, or the bank performs it. -/
def State.storeSpot (s : State) (p : Spot) (bs : List Byte) : State :=
  match p with
  | .pad c t off => s.padWrite c t off bs
  | .mem w => s.onCore s.cur.core fun k => k.storeBytes s.cur.gslot w.pa w.scopeCore bs

/-- Lanes of a slot that wait at a remote word and are counted until their step is taken (R216, R237). -/
def Slot.counted (x : Slot) : Nat :=
  match x.tagged with
  | some t => if t.counted then t.at_.length else 0
  | none => 0

/-- The outstanding count of a group (R216), with the lanes that wait so in spilled entries. -/
def Group.unacknowledged (g : Group) : Nat :=
  g.outstanding + g.slot0.counted + g.slot1.counted
    + (g.tagWaits.map fun e => if e.2.2.counted then e.2.2.at_.length else 0).sum

/-- Lanes that the outstanding count counts: all but local scratchpad (R216). -/
def counted (sp : Space) (k : Nat) : Nat := if sp == .s then 0 else k

def execSt (o : Mem Unit) (s : State) : Out :=
  issue (.st o) o.g s fun act =>
    let n := widthBytes o.w
    let g := s.me
    let (s, ls) := s.checkLanes o.sp (fun l => g.ea o.sp l o.a o.x) n n .write .store (lanes act)
    let (s, waits) := s.askFor ls
    if waits then s.reissue
    else
      let ps := passed ls
      s.step1 (.st o) (refused ls) .write (o.sp == .rs) fun s =>
        (ps.foldl (fun s p => s.storeSpot p.2.2 (valueBytes n (g.src p.1 (widthBits o.w) 0 o.b))) s).outstand
          (counted o.sp ps.length)

/-! ### Tagged words (R237 to R239) -/

/-- What a tagged-word instruction does. -/
inductive TagStep where
  | take | keep | put
  deriving DecidableEq, Repr

/-- One lane's step at the bank, if the word's tag lets it be taken: EMPTY 1, FULL 2 (R237). -/
def State.tagStep (s : State) (k : TagStep) (c t off n : Nat) (x : BitVec 128) : Option (State × BitVec 128) :=
  let tm := s.team c t
  match k, tm.tag off with
  | .take, 2 => some (s.setTeam c t (tm.setTag off 1), bytesValue (tm.read off n))
  | .keep, 2 => some (s, bytesValue (tm.read off n))
  | .put, 1 => some (s.setTeam c t ((tm.write off (valueBytes n x)).setTag off 2), 0)
  | _, _ => none

/-- The steps of lanes in rising order; `done` gathers the lanes whose step is taken. Sources were read before. -/
def State.tagSteps (s : State) (k : TagStep) (n w : Nat) (d : Dst) (src : Nat → BitVec 128) :
    List (Nat × Word × Spot) → Mask → State × Mask
  | [], m => (s, m)
  | (l, _, p) :: ps, m =>
    match p with
    | .mem _ => State.tagSteps s k n w d src ps m
    | .pad c t off =>
      match s.tagStep k c t off n (src l) with
      | none => State.tagSteps s k n w d src ps m
      | some (s, v) =>
        let s := if k == .put then s else s.onMe fun g => g.put d l w v
        State.tagSteps s k n w d src ps (m ||| BitVec.twoPow 32 l)

/-- The 8-byte word that holds an address (R239). -/
def wordAt (a : Word) : Word := a &&& ~~~7

/-- `ldf`, `ldfk` and `ste`: the slot is BLOCKED until every active lane has taken its step. The addresses and the
active lanes are those of the issue; lanes whose word has lost its tag since park (R239). -/
def taggedWord (i : Instr) (o : Mem Unit) (k : TagStep) (s : State) : Out :=
  issue i o.g s fun act =>
    let n := widthBytes o.w
    let w := widthBits o.w
    let g := s.me
    let x := s.mySlot
    let acc : Access := if k == .put then .write else if k == .take then .rmw else .read
    let act := if x.tagged.isSome then x.act else act
    let ea := fun l =>
      match x.tagged.bind fun t => t.at_.find? l with
      | some a => a
      | none => g.ea o.sp l o.a o.x
    let lost := match x.tagged with | some t => t.bad &&& act &&& ~~~x.done | none => 0
    let todo := lanes (act &&& ~~~x.done &&& ~~~lost)
    let wait : WaitRec := { WaitRec.zero with place := if k == .put then 0 else 1 }
    let (s, ls) := s.checkLanes o.sp ea n n acc .tagged todo
    let (s, waits) := s.askFor ls
    if waits then s.block wait i.bytes act
    else
      let ps := passed ls
      let src := fun l => g.src l w 0 o.b
      let run := fun (s : State) => s.tagSteps k n w o.d src ps x.done
      let done := (run s).2
      let bad := refused ls ++ (lanes lost).map fun l => ⟨l, Cause.tagClass, wordAt (ea l)⟩
      let left := (act &&& ~~~done) &&& ~~~(trapMask bad)
      let remotePut := k == .put && o.sp == .rs
      let eff := fun (s : State) =>
        (run s).1.outstand (if remotePut then (lanes (done &&& ~~~x.done)).length else 0)
      if left == 0 then s.step1 i bad acc (o.sp == .rs) eff
      else
        let rest := x.mask &&& ~~~(trapMask bad)
        let tw : TagWait := ⟨o.sp == .rs, acc, remotePut, (lanes left).map fun l => (l, ea l), 0⟩
        let y := { x with state := .blocked, mask := rest, act := act &&& ~~~(trapMask bad), done := done, len := i.bytes,
                          wait := wait, tagged := some tw, got := [], asked := s.nextTag }
        s.finish { parts := [y], parked := bad, acc := acc, early := o.sp == .rs, retired := false } eff

def execLdf (o : Mem Unit) (s : State) : Out := taggedWord (.ldf o) o .take s

def execLdfk (o : Mem Unit) (s : State) : Out := taggedWord (.ldfk o) o .keep s

def execSte (o : Mem Unit) (s : State) : Out := taggedWord (.ste o) o .put s

/-! ### Waits whose word has lost its tag (R239) -/

/-- The word at which a lane waits no longer carries a tag that `ldf`, `ldfk` or `ste` accepts. -/
def State.tagLost (s : State) (t : Team) (w : TagWait) (a : Word) : Bool :=
  let bad := fun (c i off : Nat) => !tagAllows .tagged ((s.team c i).tag off)
  if w.remote then
    match t.remote a with
    | some (tid, off) => match s.findTeam t.launch tid with | some (c, i) => bad c i off | none => false
    | none => false
  else !tagAllows .tagged (t.tag a.toNat)

/-- The lanes whose word has lost its tag, now or before, are remembered. -/
def State.markWait (s : State) (t : Team) (w : TagWait) : TagWait :=
  { w with bad := maskOf ((w.at_.filter fun e => w.bad.getLsbD e.1 || s.tagLost t w e.2).map (·.1)) }

/-- The same for a slot, and for one that waits at a barrier word. -/
def State.markSlot (s : State) (t : Team) (y : Slot) : Slot :=
  if y.state != .blocked then y
  else
    { y with tagged := y.tagged.map (s.markWait t),
             lost := y.lost || (y.wait.kind == .word && t.tag y.wait.offset.toNat != 3) }

def State.markGroup (s : State) (c : Nat) (x : Group) : Group :=
  let t := s.team c x.team
  { x with slot0 := s.markSlot t x.slot0, slot1 := s.markSlot t x.slot1,
           tagWaits := x.tagWaits.mapAll fun _ e => (e.1, s.markWait t e.2) }

/-- After a change of a tag: every wait is looked at. What is marked parks once the instruction in hand has ended. -/
def State.markLost (s : State) : State :=
  { s with cores := s.cores.mapAll fun c k =>
      { k with groups := k.groups.mapAll fun _ x => if x.live then s.markGroup c x else x } }

/-! ### Tags (R240) -/

def execTagSet (o : Mem Unit) (s : State) : Out :=
  issue (.tagSet o) o.g s fun act =>
    let g := s.me
    let (s, ls) := s.checkLanes o.sp (fun l => g.ea o.sp l o.a o.x) 8 8 .write .tags (lanes act)
    let (s, waits) := s.askFor ls
    if waits then s.reissue
    else
      let ps := passed ls
      s.step1 (.tagSet o) (refused ls) .write (o.sp == .rs) fun s =>
        (ps.foldl (fun s p => match p.2.2 with
          | .pad c t off => (s.onTeam c t fun x => x.setTag off ((g.src p.1 32 0 o.b).setWidth 2)).markLost
          | .mem _ => s) s).outstand (counted o.sp ps.length)

/-- The tile form: the mode from bit 0, and with bit 1 all 128 tags PLAIN. -/
def Team.setTile (t : Team) (off : Nat) (v : BitVec 2) : Team :=
  let tile := off / 1024
  let t := { t with diagonal := t.diagonal.put false tile (v.getLsbD 0) }
  if v.getLsbD 1 then { t with tags := t.tags.keep fun w _ => w / 128 != tile } else t

def execTagSetTile (o : Mem Unit) (s : State) : Out :=
  issue (.tagSetTile o) o.g s fun act =>
    let g := s.me
    let (s, ls) := s.checkLanes o.sp (fun l => g.ea o.sp l o.a o.x) 1 1 .write .tags (lanes act)
    let (s, waits) := s.askFor ls
    if waits then s.reissue
    else
      let ps := passed ls
      s.step1 (.tagSetTile o) (refused ls) .write (o.sp == .rs) fun s =>
        (ps.foldl (fun s p => match p.2.2 with
          | .pad c t off => (s.onTeam c t fun x => x.setTile off ((g.src p.1 32 0 o.b).setWidth 2)).markLost
          | .mem _ => s) s).outstand (counted o.sp ps.length)

/-- `tag.rd`: the word's tag in bits [1:0] and the tile's mode in bit 2. -/
def Team.tagWord (t : Team) (off : Nat) : BitVec 128 :=
  (t.tag off).setWidth 128 ||| (if t.diagonal.get false (off / 1024) then 4 else 0)

def execTagRd (o : Mem Unit) (s : State) : Out :=
  issue (.tagRd o) o.g s fun act =>
    let g := s.me
    let (s, ls) := s.checkLanes o.sp (fun l => g.ea o.sp l o.a o.x) 8 8 .read .tags (lanes act)
    let (s, waits) := s.askFor ls
    if waits then s.reissue
    else
      let vals := (passed ls).filterMap fun p => match p.2.2 with
        | .pad c t off => some (p.1, (s.team c t).tagWord off)
        | .mem _ => none
      s.step1 (.tagRd o) (refused ls) .read (o.sp == .rs) fun s => s.onMe fun x => x.putAll o.d 32 vals

/-! ### Atomics and reductions (R241 to R245) -/

/-- The new value of Table 12-3, of `w` bits. -/
def atomValue (op : AtomOp) (w : Nat) (old b cmp : BitVec 128) : BitVec 128 :=
  let sgn := fun (x : BitVec 128) => (x.setWidth w).toInt
  let low := fun (x : BitVec 128) => (x.setWidth w).setWidth 128
  match op with
  | .add => low (old + b)
  | .min => if sgn old ≤ sgn b then low old else low b
  | .max => if sgn old ≤ sgn b then low b else low old
  | .and => low (old &&& b)
  | .or => low (old ||| b)
  | .xor => low (old ^^^ b)
  | .exch => low b
  | .cas => if low old == low cmp then low b else low old
  | .fadd =>
    let m := if w = 64 then fp64 else fp32
    BitVec.ofNat 128 (m.add .rne (old.setWidth w).toNat (b.setWidth w).toNat).1

/-- The operands of a lane: the new value and the compare value (R242). -/
def Group.atomArgs (g : Group) (op : AtomOp) (l w : Nat) (b : Src) : BitVec 128 × BitVec 128 :=
  if op == .cas then
    let x := g.src l (2 * w) 0 b
    if w = 32 then (x.extractLsb' 32 32 |>.setWidth 128, x.extractLsb' 0 32 |>.setWidth 128)
    else (x.extractLsb' 64 64 |>.setWidth 128, x.extractLsb' 0 64 |>.setWidth 128)
  else (g.src l w 0 b, 0)

/-- The L1 of a core gives up its clean copy of the 128-byte line at `pa` (R224). -/
def Core.dropLine (k : Core) (pa : Nat) : Core :=
  { k with clean := k.clean.keep fun sec _ => sec / 4 != pa / 128 }

/-- An atomic of a lane at a home of this device: the stacked cache, or a host line, once the L1 of the core has published
what it holds written there (R224). -/
def State.atomMem (s : State) (c : Nat) (pa n : Nat) (op : AtomOp) (b cmp : BitVec 128) : State × BitVec 128 :=
  let s := s.publishSector c (pa / 32)
  let old := bytesValue (s.readMem pa n)
  let new := atomValue op (8 * n) old b cmp
  let s := if op == .cas && old != cmp then s else s.homeWrite c pa (valueBytes n new)
  (s.onCore c fun k => k.dropLine pa, old)

def State.atomPad (s : State) (c t off n : Nat) (op : AtomOp) (b cmp : BitVec 128) : State × BitVec 128 :=
  let old := bytesValue (s.padRead c t off n)
  let new := atomValue op (8 * n) old b cmp
  (if op == .cas && old != cmp then s else s.padWrite c t off (valueBytes n new), old)

/-- What this device wrote in the sector at `pa` goes home, ahead of an atomic that follows it there (R211, R329). -/
def State.sendAhead (s : State) (c pa : Nat) : State := (s.publishSector c (pa / 32)).writeBack (pa / 32)

/-- A lane of an `atom` whose home is a peer: its answer, or what it waits for. -/
def State.atomPeer (s : State) (l pa : Nat) (op : AtomOp) (w : Width) (b cmp : BitVec 128) :
    State × Res (BitVec 128) :=
  let c := s.cur.core
  let a := s.agent c s.cur.gslot s.cur.slot
  match s.answerTo a (.amo pa l) 0 pa with
  | some (.data bs) => (s.onCore c fun k => k.dropLine pa, .ok (bytesValue bs))
  | some .notSupported => (s, .no Cause.remoteOp)
  | some .addressError => (s, .no Cause.permission)
  | some _ => (s, .no Cause.remoteTimeout)
  | none => (s.sendAhead c pa, .need (.amo pa l) (.atomic op w b cmp))

/-- The answers of the lanes whose home is a peer. -/
def State.atomPeers (s : State) (o : Mem AtomOp) (g : Group) :
    List (Nat × Word × Spot) → State × List (Nat × Word × Res (BitVec 128))
  | [] => (s, [])
  | (l, ea, p) :: ps =>
    match p with
    | .mem w =>
      if isPeer w.pa then
        let (b, cmp) := g.atomArgs o.f l (widthBits o.w) o.b
        let (s, r) := s.atomPeer l w.pa o.f o.w b cmp
        let (s, rs) := State.atomPeers s o g ps
        (s, (l, ea, r) :: rs)
      else State.atomPeers s o g ps
    | .pad _ _ _ => State.atomPeers s o g ps

/-- Asks for the atomics that wait for the fabric. -/
def State.askAtoms (s : State) (rs : List (Nat × Word × Res (BitVec 128))) : State × Bool :=
  rs.foldl (fun (s, w) r =>
    match r.2.2 with
    | .need want op => (s.askSlot s.cur.core s.cur.gslot s.cur.slot want op, true)
    | _ => (s, w)) (s, false)

/-- Performs the lanes whose home is on this device, in rising order; their old values. -/
def State.atomLocals (s : State) (o : Mem AtomOp) (g : Group) :
    List (Nat × Word × Spot) → State × List (Nat × BitVec 128)
  | [] => (s, [])
  | (l, _, p) :: ps =>
    let (b, cmp) := g.atomArgs o.f l (widthBits o.w) o.b
    match p with
    | .pad c t off =>
      let (s, old) := s.atomPad c t off (widthBytes o.w) o.f b cmp
      let (s, rs) := State.atomLocals s o g ps
      (s, (l, old) :: rs)
    | .mem w =>
      if isPeer w.pa then State.atomLocals s o g ps
      else
        let (s, old) := s.atomMem s.cur.core w.pa (widthBytes o.w) o.f b cmp
        let (s, rs) := State.atomLocals s o g ps
        (s, (l, old) :: rs)

/-- Lanes of an atomic that the outstanding count counts now: those of a peer were counted when they were asked. -/
def countedAtoms (sp : Space) (ps : List (Nat × Word × Spot)) : Nat :=
  counted sp (ps.filter fun p => !p.2.2.peer).length

/-- The place of a lane whose atomic the issuing slot has sent to a peer. -/
def State.amoSent (s : State) (l : Nat) : Option Nat :=
  let at_ := fun (w : Want) => match w with | .amo pa l' => if l' == l then some pa else none | _ => none
  match s.mySlot.got.findSome? fun x => at_ x.want with
  | some pa => some pa
  | none => s.requests.findSome? fun r =>
    match r.origin with
    | .slot _ _ _ w => if s.slotAsked s.cur.core s.cur.gslot s.cur.slot r then at_ w else none
    | _ => none

/-- The lanes of an atomic with what their checks came to; those whose atomic has been sent passed theirs then. -/
def State.atomLanes (s : State) (o : Mem AtomOp) (g : Group) (act : Mask) : State × List LaneAt :=
  let ea := fun l => g.ea o.sp l o.a o.x
  let n := widthBytes o.w
  let sent := fun l => s.amoSent l
  let (s, ls) := s.checkLanes o.sp ea n n .rmw .store ((lanes act).filter fun l => (sent l).isNone)
  (s, (lanes act).filterMap fun l =>
    match sent l with
    | some pa => some ⟨l, ea l, .ok (.mem ⟨pa, false, ⟨0, 0, 0, 0⟩⟩)⟩
    | none => ls.find? fun x => x.lane == l)

def execAtom (o : Mem AtomOp) (s : State) : Out :=
  issue (.atom o) o.g s fun act =>
    let g := s.me
    let (s, ls) := s.atomLanes o g act
    let (s, waits) := s.askFor ls
    if waits then s.reissueRead
    else
      let ps := passed ls
      let (s, ready) := if lateRefusal o.sp ps then s.spillReady else (s, true)
      if !ready then s else
      let (s, rs) := s.atomPeers o g ps
      let (s, waits) := s.askAtoms rs
      if waits then s.reissueRead
      else
        let bad := refused ls ++ rs.filterMap fun r => match r.2.2 with | .no c => some ⟨r.1, c, r.2.1⟩ | _ => none
        let far := rs.filterMap fun r => match r.2.2 with | .ok v => some (r.1, v) | _ => none
        s.step1 (.atom o) bad .rmw (lateRefusal o.sp ps) fun s =>
          let (s, near) := s.atomLocals o g ps
          (s.onMe fun x => x.putAll o.d (widthBits o.w) (near ++ far)).outstand (countedAtoms o.sp ps)

/-- A `red` lane to a peer: it is sent, and never holds the slot; where no port reaches the home the failure is
recorded at once (R244, R335). -/
def State.redPeer (s : State) (o : Mem AtomOp) (pc : Word) (l pa : Nat) (ea : Word) (b : BitVec 128) : State :=
  let c := s.cur.core
  let s := (s.sendAhead c pa).onCore c fun k => k.dropLine pa
  if s.reachable (peerOf pa) then
    (s.request (.red c s.cur.gslot l pc ea) pa (.atomic o.f o.w b 0)).outstand 1
  else s.onMe fun g => g.fabricError ea

def execRed (o : Mem AtomOp) (s : State) : Out :=
  issue (.red o) o.g s fun act =>
    let n := widthBytes o.w
    let g := s.me
    let pc := s.mySlot.pc
    let (s, ls) := s.checkLanes o.sp (fun l => g.ea o.sp l o.a o.x) n n .rmw .store (lanes act)
    let (s, waits) := s.askFor ls
    if waits then s.reissue
    else
      let ps := passed ls
      s.step1 (.red o) (refused ls) .rmw (o.sp == .rs) fun s =>
        let (s, _) := s.atomLocals o g ps
        let s := s.outstand (countedAtoms o.sp ps)
        ps.foldl (fun s p => match p.2.2 with
          | .mem w => if isPeer w.pa then s.redPeer o pc p.1 w.pa p.2.1 (g.atomArgs o.f p.1 (widthBits o.w) o.b).1 else s
          | .pad _ _ _ => s) s

/-! ### `pf` and `cln` (R246, R247) -/

/-- The line that a lane names, with no change of any leaf; for `cln` the permissions of the page do not count (R247). -/
def State.lineOf (s : State) (va : Word) (privileged : Bool) : Res Nat :=
  let a := s.agent s.cur.core s.cur.gslot s.cur.slot
  match (s.probe { a with privileged := a.privileged || privileged } va .read).2 with
  | .ok w => .ok (w.pa / 128)
  | .no c => .no c
  | .need w o => .need w o
  | .away l t => .away l t

/-- The lines that active lanes name, and whether page tables must come over the fabric first. -/
def State.linesOf (s : State) (ea : Nat → Word) (act : Mask) (privileged : Bool) : State × List Nat × Bool :=
  (lanes act).foldl (fun (s, ls, w) l =>
    match s.lineOf (ea l) privileged with
    | .ok line => (s, ls ++ [line], w)
    | .need want op => (s.askSlot s.cur.core s.cur.gslot s.cur.slot want op, ls, true)
    | _ => (s, ls, w)) (s, [], false)

/-- Brings a line into the stacked cache: a peer's is asked for, a host line is held under CXL.cache. -/
def State.bringLine (s : State) (line : Nat) : State :=
  let pa := 128 * line
  if isPeer pa then
    if s.holdsLine pa || !s.reachable (peerOf pa)
        || s.requests.any fun r => r.op == .readLine && r.pa / 128 == line && s.lineFrom.get 0 line ≤ r.tag then s
    else s.request (.prefetch s.cur.core s.me.asid) pa .readLine
  else if isHost pa && !s.hostLines.contains line then { s with hostLines := s.hostLines ++ [line] }
  else s

/-- Brings a line into the L1; a peer line that the stacked cache does not hold comes that far first. -/
def State.fillLine (s : State) (c line : Nat) : State :=
  let s := s.bringLine line
  if isPeer (128 * line) && !s.holdsLine (128 * line) then s
  else (List.range 4).foldl (fun s i => (s.loadL1 c (128 * line + 32 * i) 1 none).1) s

/-- `pf` (R246). A lane that would be refused is dropped. -/
def execPf (o : Mem Bool) (s : State) : Out :=
  issue (.pf o) o.g s fun act =>
    let g := s.me
    let (s, ls, waits) := s.linesOf (fun l => g.ea .g l o.a o.x) act false
    if waits then s.reissue
    else (ls.foldl (fun s l => if o.f then s.bringLine l else s.fillLine s.cur.core l) s).advance (.pf o)

/-- Publishes the issuing group's bytes in a line; a peer line's go home (R247, R227). -/
def State.publishLine (s : State) (line : Nat) : State :=
  let c := s.cur.core
  let g := s.cur.gslot
  let s := s.publish c g fun pa => pa / 128 == line
  if isPeer (128 * line) then
    (s.dirtySectors fun pa b => pa / 128 == line && b.writers.contains (c, g)).foldl (fun s x => s.writeBack x) s
  else s

/-- Discards the clean bytes of a line that the core and, for a peer line, the stacked cache hold (R218, R227). -/
def State.discardLine (s : State) (c line : Nat) : State :=
  let s := s.onCore c fun k =>
    { k.dropLine (128 * line) with icache := k.icache.keep fun b _ => b / 4 != line }
  s.dropPeerLine line

/-- The loads, atomics and tagged-word reads that the other slot issued have returned (R218). -/
def State.readsReturned (s : State) : Bool :=
  let o := other s.cur.slot
  let y := s.me.slot o
  !s.underWay s.cur.core s.cur.gslot o
    && !(y.state == .blocked && y.wait.kind == .reissue && y.wait.place == 1)

def execClnWb (o : Mem Unit) (s : State) : Out :=
  issue (.clnWb o) o.g s fun act =>
    let g := s.me
    let (s, ls, waits) := s.linesOf (fun l => g.ea .g l o.a o.x) act true
    if waits then s.reissue
    else (ls.foldl (fun s l => s.publishLine l) s).advance (.clnWb o)

def execClnInv (o : Mem Unit) (s : State) : Out :=
  issue (.clnInv o) o.g s fun act =>
    let g := s.me
    let (s, ls, waits) := s.linesOf (fun l => g.ea .g l o.a o.x) act true
    if waits || !s.readsReturned then s.reissue
    else (ls.foldl (fun s l => s.discardLine s.cur.core l) s).advance (.clnInv o)

def execClnWbinv (o : Mem Unit) (s : State) : Out :=
  issue (.clnWbinv o) o.g s fun act =>
    let g := s.me
    let (s, ls, waits) := s.linesOf (fun l => g.ea .g l o.a o.x) act true
    let s := ls.foldl (fun s l => s.publishLine l) s
    if waits || !s.readsReturned || s.peerPending s.cur.core s.cur.gslot (fun pa => ls.contains (pa / 128)) then s.reissue
    else (ls.foldl (fun s l => s.discardLine s.cur.core l) s).advance (.clnWbinv o)

end Sys2Proof.Machine
end

