-- ==== Sys2Proof/Machine/Barrier.lean ====
section
/-! DEFINITION. Barrier words and the team barrier (12 R249 to R256), phase counts and the phase stop (08 R172, R173). -/

namespace Sys2Proof.Machine

open Sys2Proof Forms

/-! ### The barrier word (Table 12-4) -/

def bwPh (w : Word) : Bool := w.getLsbD 63
def bwExp (w : Word) : Nat := (w.extractLsb' 52 11).toNat
def bwArr (w : Word) : Nat := (w.extractLsb' 41 11).toNat
def bwSec (w : Word) : BitVec 41 := w.extractLsb' 0 41

def bwMake (ph : Bool) (exp arr : Nat) (sec : BitVec 41) : Word :=
  (if ph then 1#64 <<< 63 else 0) ||| (BitVec.ofNat 11 exp).setWidth 64 <<< 52
    ||| (BitVec.ofNat 11 arr).setWidth 64 <<< 41 ||| sec.setWidth 64

/-! ### Slots that wait -/

/-- An instruction of a group that has waited retires (08 R179). -/
def State.waited (s : State) (c g : Nat) : State :=
  let a := (s.group c g).asid
  (s.count c a 0 1).alive a

/-- The wait of a slot ends: its instruction retires, and its lanes go on behind it. -/
def State.waitOver (s : State) (c g n : Nat) : State :=
  let y := (s.group c g).slot n
  let on := y.pc + BitVec.ofNat 64 (s.waitLen c g y)
  (s.onGroup c g fun x => x.setSlot n (y.go on y.mask s.turn)).waited c g

/-- Changes every slot of a team's groups, and every BLOCKED entry on their stacks, that a test accepts; a spilled entry
that the change makes READY has its PC moved past its instruction (R127, R250). -/
def State.mapWaits (s : State) (c t : Nat) (p : WaitRec → Bool) (f : WaitRec → Option WaitRec) : State :=
  (s.groupsOf c t).foldl (fun s (g, _) =>
    let one := fun (s : State) (n : Nat) =>
      let y := (s.group c g).slot n
      if y.state == .blocked && p y.wait then
        match f y.wait with
        | some w => s.onGroup c g fun x => x.setSlot n { y with wait := w }
        | none => s.waitOver c g n
      else s
    let s := one (one s 0) 1
    (s.spilledSlots c g).foldl (fun s (_, w, e) =>
      match (if e.state == 3 then WaitRec.ofWord e.wait else none) with
      | none => s
      | some r =>
        if !p r then s
        else
          match f r with
          | some r' => s.writeStack c g w { e with wait := r'.word }
          | none =>
            let on := e.pc + BitVec.ofNat 64 (s.waitLen c g (e.slot s.turn 0 false))
            (s.writeStack c g w { e with wait := 0, state := 0, pc := on }).waited c g) s) s

/-- The slots on a word with a recorded phase are released when the word's phase differs (R250, R254). -/
def State.releaseWord (s : State) (c t off : Nat) (ph : Bool) : State :=
  s.mapWaits c t (fun w => w.kind == .word && w.offset.toNat == off && !w.held && w.phase != ph) fun _ => none

/-- The head of the held arrivals is applied: the slot with place 0 records `p`, the others move up (R254). -/
def State.headApplied (s : State) (c t off : Nat) (p : Bool) : State :=
  s.mapWaits c t (fun w => w.kind == .word && w.offset.toNat == off && w.held) fun w =>
    some (if w.place = 0 then { w with held := false, phase := p } else { w with place := w.place - 1 })

/-- A completed phase counts, and stops the team where a phase stop is armed for it (R172, R173). -/
def State.phaseDone (s : State) (c t : Nat) : State :=
  let x := s.team c t
  if !s.counts x.asid x.tid then s
  else
    let k := s.phaseCount x.asid x.tid + 1
    let s := s.deviceWrite (s.phaseAddr x.asid x.tid) (leBytes 4 k.toNat)
    let d := (s.ctx x.asid).dbg
    if s.attached x.asid && d.stopph.getLsbD 32 && d.stopph.extractLsb' 0 32 == k
        && (d.stopt.extractLsb' 0 32).toNat == x.tid then
      let s := s.haltTeam c t .debugger 2
      let s := s.onCtx x.asid fun y => { y with dbg := { y.dbg with stopph := y.dbg.stopph &&& ~~~(1#64 <<< 32) } }
      s.addMsg x.asid
        { kind := .stop, cause := 0, asid := x.asid, seq := 0, addr := 0, mask := 0, core := c, index := 0xFFFF,
          tid := x.tid, group := unstated 0 s.turn % 256, access := 0, launch := x.launch,
          pc := BitVec.ofNat 64 (unstated 1 s.turn) }
    else s

/-- A step of Update (R250): darr is 1 for an arrival, dsec the change of SEC. A completion releases the waiting slots. -/
def State.updateStep (s : State) (c t off : Nat) (darr : Nat) (dsec : BitVec 41) : State :=
  let x := s.team c t
  let w := x.word off
  let arr := bwArr w - darr
  let sec := bwSec w + dsec
  if arr = 0 && sec == 0 then
    let ph := !bwPh w
    let s := s.setTeam c t (x.setWord off (bwMake ph (bwExp w) (bwExp w) 0))
    (s.phaseDone c t).releaseWord c t off ph
  else s.setTeam c t (x.setWord off (bwMake (bwPh w) (bwExp w) arr sec))

/-- The held arrivals that a completion lets in are applied, each as a step of its own, while the word takes arrivals
(R250, R254). -/
def State.applyHeld (s : State) (c t off : Nat) : Nat → State
  | 0 => s
  | k + 1 =>
    let x := s.team c t
    let held := x.heldArr.get 0 off
    let w := x.word off
    if held = 0 || bwArr w = 0 then s
    else
      let s := s.onTeam c t fun x => { x with heldArr := x.heldArr.put 0 off (held - 1) }
      State.applyHeld ((s.headApplied c t off (bwPh w)).updateStep c t off 1 0) c t off k

/-- At most 2,047 arrivals are held. -/
def heldFuel : Nat := 2047

/-- One change of a barrier word, then the held arrivals that it lets in (R250). -/
def State.updateWord (s : State) (c t off : Nat) (darr : Nat) (dsec : BitVec 41) : State :=
  (s.updateStep c t off darr dsec).applyHeld c t off heldFuel

/-- How an arrival ends: applied with the phase just before it, held at a place, or refused (R250). -/
inductive Arrival where
  | applied (p : Bool)
  | held (place : Nat) (ph : Bool)
  | tooMany
  deriving DecidableEq, Repr

/-- An arrival (R250, R253). -/
def State.arrive (s : State) (c t off : Nat) : State × Arrival :=
  let x := s.team c t
  let w := x.word off
  if bwArr w = 0 then
    let k := x.heldArr.get 0 off
    if 2047 ≤ k then (s, .tooMany)
    else (s.setTeam c t { x with heldArr := x.heldArr.put 0 off (k + 1) }, .held k (bwPh w))
  else (s.updateWord c t off 1 0, .applied (bwPh w))

/-! ### The instructions -/

/-- The place of a barrier instruction's word, from the lowest-numbered active lane (R251). -/
def State.barSpot (s : State) (o : Bar) (act : Mask) (u : TagUse) : Word × Res Spot :=
  let sp : Space := if o.remote then .rs else .s
  let ea := s.me.ea sp (lowest act) o.a .a
  (ea, (s.spotOf sp ea 8 8 .rmw u).2)

/-- The SB value: a scalar, or IMM32 sign-extended (R251). -/
def Group.barValue (g : Group) (o : Bar) : Word := (g.src 0 64 ((imm32 o.x).signExtend 64) o.b).setWidth 64

/-- A barrier instruction: the checks, then `f` on the word's place. A cause names every active lane. -/
def barOp (i : Instr) (o : Bar) (u : TagUse) (f : State → Mask → Nat → Nat → Nat → State) (s : State) : Out :=
  issue i o.g s fun act =>
    match s.barSpot o act u with
    | (ea, .no cause) =>
      s.step1 i (everyLane act cause ea) .rmw o.remote id
    | (_, .away l t) => (s.needTeam l t).reissue
    | (_, .need w op) => s.awaitWant w op
    | (_, .ok (.mem _)) => s
    | (_, .ok (.pad c t off)) => f s act c t off

/-- Counts a remote update (R216). -/
def State.countBar (s : State) (o : Bar) : State := if o.remote then s.outstand 1 else s

/-- `bar.init` (R252). -/
def State.initWord (s : State) (c t off n : Nat) : State :=
  let s := s.onTeam c t fun x =>
    { (x.setWord off (bwMake false n n 0)).setTag off 3 with heldArr := x.heldArr.put 0 off 0 }
  let s := s.mapWaits c t (fun w => w.kind == .word && w.offset.toNat == off && w.held) fun _ => none
  s.mapWaits c t (fun w => w.kind == .word && w.offset.toNat == off && !w.held && w.phase) fun _ => none

def execBarInit (o : Bar) (s : State) : Out :=
  barOp (.barInit o) o .init (fun s act c t off =>
    let n := (s.me.barValue o).toNat
    if n = 0 || 2047 < n then s.raise (.barInit o) act Cause.resource 0
    else s.step1 (.barInit o) [] .none o.remote fun s => (s.initWord c t off n).countBar o) s

def execBarArr (o : Bar) (s : State) : Out :=
  barOp (.barArr o) o .word (fun s act c t off =>
    match (s.arrive c t off).2 with
    | .tooMany => s.raise (.barArr o) act Cause.resource 0
    | a =>
      let p := match a with | .applied p => p | .held _ ph => !ph | .tooMany => false
      s.step1 (.barArr o) [] .none o.remote fun s =>
        ((s.arrive c t off).1.onMe fun g => g.putOpt o.d (if p then 1 else 0)).countBar o) s

def execBarExp (o : Bar) (s : State) : Out :=
  barOp (.barExp o) o .word (fun s _ c t off =>
    let n := (s.me.barValue o).setWidth 41
    s.step1 (.barExp o) [] .none o.remote fun s => (s.updateWord c t off 0 n).countBar o) s

/-- The wait of a slot on a word (KIND 1). -/
def wordWait (off : Nat) (phase held : Bool) (place : Nat) : WaitRec :=
  ⟨.word, held, place, BitVec.ofNat 32 off, phase⟩

def execBarWait (o : Bar) (s : State) : Out :=
  barOp (.barWait o) o .word (fun s act c t off =>
    let p := (s.me.barValue o).getLsbD 0
    if bwPh ((s.team c t).word off) != p then s.advance (.barWait o)
    else s.block (wordWait off p false 0) (Instr.barWait o).bytes act) s

/-- `bar.arrw` (R254): the slot is BLOCKED before the arrival is applied, so that a completion releases it. -/
def execBarArrw (o : Bar) (s : State) : Out :=
  barOp (.barArrw o) o .word (fun s act c t off =>
    match (s.arrive c t off).2 with
    | .tooMany => s.raise (.barArrw o) act Cause.resource 0
    | .applied p => ((s.block (wordWait off p false 0) (Instr.barArrw o).bytes act).arrive c t off).1
    | .held k _ => ((s.block (wordWait off false true k) (Instr.barArrw o).bytes act).arrive c t off).1) s

/-! ### The team barrier (R255) -/

/-- A group has arrived: any of its entries stands BLOCKED with KIND 2. -/
def State.arrived (s : State) (c g : Nat) : Bool :=
  let x := s.group c g
  let at2 := fun (y : Slot) => y.state == .blocked && y.wait.kind == .team
  at2 x.slot0 || at2 x.slot1
    || (s.spilledSlots c g).any fun (_, _, e) => e.state == 3 && (WaitRec.ofWord e.wait).any fun w => w.kind == .team

/-- The entries of a group's stack that cannot be read now and may be SLOT entries. -/
def State.hiddenSlots (s : State) (c g : Nat) : List (Res (Where × StackEntry)) :=
  ((List.range (s.group c g).depth).filter fun i => !(s.group c g).joins.contains i).filterMap fun i =>
    match s.peekStack c g i with
    | .ok _ => none
    | r => some r

/-- The phase of the team barrier completes when every group that has not ended has arrived. It is looked at again after
every change, and completes once every entry that it may release can be read; what must come over the fabric for that is
asked for (log 9). -/
def State.checkTeamBarrier (s : State) (c t : Nat) : State :=
  let gs := s.groupsOf c t
  let hidden := gs.flatMap fun (g, _) => s.hiddenSlots c g
  if gs.isEmpty then s
  else if hidden.isEmpty then
    if gs.all fun (g, _) => s.arrived c g then s.mapWaits c t (fun w => w.kind == .team) fun _ => none else s
  else hidden.foldl (fun s r => match r with | .need w o => s.askService c w o | _ => s) s

/-- The team barriers at which a group waits, after every change. -/
def State.recheckBarriers (s : State) : State :=
  s.cores.foldl (fun s (c, k) => k.teams.foldl (fun s (t, _) =>
    if (s.groupsOf c t).any fun (g, x) => 0 < x.depth || s.arrived c g then s.checkTeamBarrier c t else s) s) s

/-- Arrives at the team barrier and waits. -/
def State.teamArrive (s : State) (i : Instr) (act : Mask) : State :=
  let s := s.block ⟨.team, false, 0, 0, false⟩ i.bytes act
  s.checkTeamBarrier s.cur.core s.me.team

def execTbar (g : Guard) (s : State) : Out := issue (.tbar g) g s fun act => s.teamArrive (.tbar g) act

/-! ### Waits whose word has changed (R239) -/

/-- The lanes for which the blocked instruction of a slot acts; all where the slot was popped or restored, whose guard
is not kept (log 22). -/
def Slot.acting (x : Slot) : Mask := if x.act == 0 then x.mask else x.act

/-- Parks lanes of a waiting slot with TAG_CLASS and the address that each gave; its other lanes stay as they are, or,
where none of them waits, go on. -/
def State.parkWaiting (s : State) (c g n : Nat) (ts : List LaneTrap) (acc : Access) (rest : Slot) : State :=
  let keep := s.cur
  let s := { s with cur := ⟨c, g, n⟩ }
  let s := s.finish { parts := if rest.mask == 0 then [] else [rest], parked := ts, acc := acc, retired := false } id
  { s with cur := keep }

/-- Lanes that wait at tagged words which have lost their tag. A lane that must park is remembered until it has. -/
def State.recheckTags (s : State) (c g n : Nat) : State :=
  let y := (s.group c g).slot n
  match y.tagged with
  | none => s
  | some w =>
    if y.state != .blocked || w.bad == 0 then s
    else
      let at_ := w.at_.keep fun l _ => !w.bad.getLsbD l
      let ts := (lanes w.bad).map fun l => ⟨l, Cause.tagClass, wordAt (w.at_.get 0 l)⟩
      let left := y.mask &&& ~~~w.bad
      s.parkWaiting c g n ts w.acc
        (if at_.isEmpty then y.go (y.pc + BitVec.ofNat 64 (s.waitLen c g y)) left s.turn
         else { y with mask := left, act := y.act &&& ~~~w.bad, tagged := some { w with at_ := at_, bad := 0 } })

/-- A slot that waits on a word that is no longer tagged BARRIER parks the lanes for which it waits; one whose word has
left the phase it waits in goes on. -/
def State.recheckWord (s : State) (c g n : Nat) : State :=
  let x := s.group c g
  let y := x.slot n
  if y.state != .blocked || y.wait.kind != .word then s
  else if y.lost then
    let on := y.pc + BitVec.ofNat 64 (s.waitLen c g y)
    s.parkWaiting c g n (everyLane y.acting Cause.tagClass (y.wait.offset.setWidth 64)) .rmw
      (y.go on (y.mask &&& ~~~y.acting) s.turn)
  else if !y.wait.held && bwPh ((s.team c x.team).word y.wait.offset.toNat) != y.wait.phase then s.waitOver c g n
  else s

/-- An entry of the stack parks where it stands, all its lanes. -/
def State.parkSpilled (s : State) (c g i : Nat) (w : Where) (e : StackEntry) (ts : List LaneTrap) (acc : Access) : State :=
  let e' := { e with state := 2, wait := 0 }
  let s := s.onGroup c g fun x => { x with tagWaits := x.tagWaits.erase i }
  (s.writeStack c g w e').landAt c g (.spilled i) e' ts acc

/-- The same checks for an entry on a group's stack. Of lanes that wait at tagged words some may have to park: they do where
all of the entry's lanes must, and else once it is popped. -/
def State.recheckSpilled (s : State) (c g i : Nat) (w : Where) (e : StackEntry) : State :=
  let x := s.group c g
  let t := s.team c x.team
  match (if e.state == 3 then WaitRec.ofWord e.wait else none) with
  | none => s
  | some r =>
    let off := r.offset.toNat
    if r.kind == .word then
      if t.tag off != 3 then
        s.parkSpilled c g i w e (everyLane e.mask Cause.tagClass (r.offset.setWidth 64)) .rmw
      else if !r.held && bwPh (t.word off) != r.phase then
        let on := e.pc + BitVec.ofNat 64 (s.waitLen c g (e.slot s.turn 0 false))
        (s.writeStack c g w { e with wait := 0, state := 0, pc := on }).waited c g
      else s
    else
      match x.tagWaits.find? i with
      | some (_, tw) =>
        if e.mask != 0 && e.mask &&& ~~~tw.bad == 0 then
          s.parkSpilled c g i w e ((lanes e.mask).map fun l => ⟨l, Cause.tagClass, wordAt (tw.at_.get 0 l)⟩) tw.acc
        else s
      | none => s

/-- The check of every wait, after every change. -/
def State.recheckWaits (s : State) : State :=
  let s := s.markLost
  s.cores.foldl (fun s (c, k) => k.groups.foldl (fun s (g, x) =>
    if x.live then
      let s := [0, 1].foldl (fun s n => (s.recheckWord c g n).recheckTags c g n) s
      (s.spilledSlots c g).foldl (fun s (i, w, e) => s.recheckSpilled c g i w e) s
    else s) s) s

end Sys2Proof.Machine
end

