-- ==== Sys2Proof/Machine/Control.lean ====
section
/-! DEFINITION. Branches, calls, group instructions and special registers (05 R91 to R98, R101 to R104, R108). -/

namespace Sys2Proof.Machine

open Sys2Proof Forms

/-- The target of a displacement from an address (R92). -/
def relative (pc : Word) (d : BitVec 32) : Word := pc + d.signExtend 64

/-- The whole slot goes to an address. -/
def State.jumpTo (s : State) (pc : Word) : State :=
  s.finish { parts := [s.mySlot.go pc s.mySlot.mask s.turn] } id

/-- `bra` (R93): every lane of the slot goes to the target. -/
def execBra (o : Jump) (s : State) : Out :=
  issue (.bra o) o.g s fun _ => s.jumpTo (relative s.mySlot.pc o.d0)

/-- `brx` (R43, R94). -/
def branchDivide (i : Instr) (o : Jump) (s : State) (act : Mask) : State :=
  let x := s.mySlot
  let t := relative x.pc o.d0
  let r1 := relative x.pc o.d1
  let x' := { x with rcv := r1 }
  let taken := act
  let rest := x.mask &&& ~~~act
  let part : Word → Mask → List Slot := fun pc m => if m == 0 then [] else [x'.go pc m s.turn]
  let join := if x.rcv != noRcv && r1 != x.rcv then some (r1, x.rcv) else none
  s.finish { parts := part t taken ++ part (s.nextPc i) rest, join := join } id

def execBrx (o : Jump) (s : State) : Out :=
  issue (.brx o) o.g s (branchDivide (.brx o) o s) (always := true)

/-- `join` (R95): the active lanes go to the slot's reconvergence address. Which part of a division takes the other slot
the rule does not say; here the lanes that go to r0 keep the issuing slot (log 9). -/
def execJoin (g : Guard) (s : State) : Out :=
  issue (.join g) g s fun act =>
    let x := s.mySlot
    if x.rcv == noRcv then s.advance (.join g)
    else
      let rest := x.mask &&& ~~~act
      let part : Word → Mask → List Slot := fun pc m => if m == 0 then [] else [x.go pc m s.turn]
      s.finish { parts := part x.rcv act ++ part (s.nextPc (.join g)) rest } id

/-- The CALL or RET record of a transfer, with FLOW set (Table 8-5). -/
def State.flowRec (s : State) (kind : Nat) (pc target : Word) (m : Mask) : State :=
  let a := s.me.asid
  if (s.ctx a).dbg.trcfg.getLsbD 9 then
    s.traceWrite a (s.traceRec s.cur.core s.cur.gslot kind pc target m) []
  else s

/-- An indirect transfer (R92, R96): the lanes that hold the target of the lowest-numbered lane transfer, with `eff`,
or park with ALIGN, in the issuing slot; the others stay at the instruction and take the other slot. -/
def indirect (t : Src) (s : State) (eff : Word → Mask → State → State) : State :=
  let x := s.mySlot
  let g := s.me
  let target := g.src64 (lowest x.mask) t
  let taken := maskOf ((lanes x.mask).filter fun l => g.src64 l t == target)
  let rest := x.mask &&& ~~~taken
  let stay := if rest == 0 then [] else [x.ready x.pc rest s.turn]
  if target.toNat % 4 != 0 then
    s.finish { parts := stay, parked := everyLane taken Cause.align target, retired := false, keepParked := true } id
  else s.finish { parts := x.go target taken s.turn :: stay } (eff target taken)

/-- Writes the address of the next instruction to the link pair of lanes (R97). -/
def Group.link (g : Group) (n : Nat) (m : Mask) (next : Word) : Group :=
  g.putAll (.v (BitVec.ofNat 8 n)) 64 ((Machine.lanes m).map fun l => (l, next.setWidth 128))

def execCall (link : BitVec 8) (o : Jump) (s : State) : Out :=
  issue (.call link o) o.g s fun _ =>
    let x := s.mySlot
    let t := relative x.pc o.d0
    let next := s.nextPc (.call link o)
    s.finish { parts := [x.go t x.mask s.turn] } fun s =>
      (s.onMe fun g => g.link link.toNat x.mask next).flowRec 3 x.pc t x.mask

def execCallIndirect (link : BitVec 8) (t : Src) (s : State) : Out :=
  issue (.callIndirect link t) .always s fun _ =>
    let next := s.nextPc (.callIndirect link t)
    let pc := s.mySlot.pc
    indirect t s fun target m s => (s.onMe fun g => g.link link.toNat m next).flowRec 3 pc target m

def execRet (t : Src) (s : State) : Out :=
  issue (.ret t) .always s fun _ =>
    let pc := s.mySlot.pc
    indirect t s fun target m s => s.flowRec 4 pc target m

def execJmp (o : Jump) (s : State) : Out :=
  issue (.jmp o) o.g s fun _ => s.jumpTo (relative s.mySlot.pc o.d0)

def execJmpIndirect (t : Src) (s : State) : Out :=
  issue (.jmpIndirect t) .always s fun _ => indirect t s fun _ _ s => s

/-- `yield` (R101): the ready time is the cycle after this one, as `advance` leaves it. -/
def execYield (g : Guard) (s : State) : Out :=
  issue (.yield g) g s fun _ =>
    (s.advance (.yield g)).onMySlot fun x => { x with since := s.turn + 1 }

/-- `nop` (R32). -/
def execNop (g : Guard) (s : State) : Out := issue (.nop g) g s fun _ => s.advance (.nop g)

/-- The result of `vote` (R102), from the lanes whose bit is 1. -/
def voteResult (k : VoteKind) (act ones : Mask) : BitVec 32 :=
  match k with
  | .any => if ones != 0 then 1 else 0
  | .all => if ones == act then 1 else 0
  | .eq => if ones == act || ones == 0 then 1 else 0
  | .ballot => ones

def execVote (o : VoteOp) (s : State) : Out :=
  issue (.vote o) o.g s fun act =>
    let g := s.me
    let ones := maskOf ((lanes act).filter fun l => (g.vreg o.a.toNat l).getLsbD o.bit.toNat)
    let r := voteResult o.kind act ones
    let d : Dst := if o.scalar then .s (o.d.setWidth 6) else .v o.d
    (s.onMe fun g => g.perLane d 32 act fun _ => r.setWidth 128).advance (.vote o)

/-- The lane that `shfl` reads, or none (R103). -/
def shflFrom (m : ShflMode) (l b : Nat) (act : Mask) : Option Nat :=
  let k : Int := match m with
    | .idx => b % 32
    | .up => (l : Int) - b
    | .down => (l : Int) + b
    | .xor => l ^^^ (b % 32)
  if 0 ≤ k && k ≤ 31 && act.getLsbD k.toNat then some k.toNat else none

def execShfl (o : Alu ShflMode) (s : State) : Out :=
  issue (.shfl o) o.g s fun act =>
    let g := s.me
    let w := regBits o.ty
    (s.onMe fun x => x.perLane o.d w act fun l =>
      let b := (g.src32 l o.x o.b).toNat
      g.src ((shflFrom o.f l b act).getD l) w 0 o.a).advance (.shfl o)

def execElect (g : Guard) (reg : BitVec 8) (bit : BitVec 5) (s : State) : Out :=
  issue (.elect g reg bit) g s fun act =>
    (s.onMe fun x => x.perLaneBit reg.toNat bit.toNat act fun l => l == lowest act).advance (.elect g reg bit)

/-- A special register in a lane (Table 3-7). -/
def State.special (s : State) (r : SpecialReg) (l : Nat) : Word :=
  let g := s.me
  let t := s.myTeam
  match r with
  | .lane => BitVec.ofNat 64 l
  | .group => BitVec.ofNat 64 g.number
  | .ngroups => BitVec.ofNat 64 t.groups
  | .team => BitVec.ofNat 64 t.tid
  | .tx => BitVec.ofNat 64 t.x
  | .ty => BitVec.ofNat 64 t.y
  | .tz => BitVec.ofNat 64 t.z
  | .stage => BitVec.ofNat 64 t.stage
  | .core => BitVec.ofNat 64 s.cur.core
  | .ctx => BitVec.ofNat 64 g.asid
  | .clock => BitVec.ofNat 64 s.time
  | .stack => g.stk l

/-- Register bits of a special register. -/
def specialBits : SpecialReg → Nat
  | .clock | .stack => 64
  | _ => 32

/-- `rdsr` (R51, R108): a per-lane value goes to a scalar from the lowest-numbered active lane. -/
def execRdsr (g : Guard) (d : Dst) (r : SpecialReg) (s : State) : Out :=
  issue (.rdsr g d r) g s fun act =>
    (s.onMe fun x => x.perLane d (specialBits r) act fun l =>
      (s.special r (if dk d then lowest act else l)).setWidth 128).advance (.rdsr g d r)

end Sys2Proof.Machine
end

