-- ==== Sys2Proof/Machine/Flags.lean ====
section
/-! DEFINITION. How a floating-point instruction ends each lane: sticky flags, trap enables and the parked entry (04 R61
to R66). -/

namespace Sys2Proof.Machine

open Sys2Proof Forms

/-- The lowest set bit of a nonzero set of exceptions. -/
def lowestExc (x : Exc) : Nat := ((List.range 5).find? fun i => x.getLsbD i).getD 0

/-- The cause code of an exception (Table 4-3). -/
def excCause (x : Exc) : BitVec 8 := Cause.fpInvalid + BitVec.ofNat 8 (lowestExc x)

/-- What a lane has come to: its result and its exceptions. -/
structure LaneResult where
  lane : Nat
  value : BitVec 128
  exc : Exc

/-- The lanes whose exceptions are enabled (R64), with the detail words of R65. -/
def fpTraps (fpctl : Exc) (rs : List LaneResult) : List LaneTrap :=
  let bad := (rs.filter fun r => r.exc &&& fpctl != 0).map fun r =>
    LaneTrap.mk r.lane (excCause (r.exc &&& fpctl)) 0
  let c := lowestCause bad
  bad.map fun t => if t.cause == c then t else { t with detail := t.cause.setWidth 64 }

/-- Writes the results of the lanes that do not trap, and ORs their exceptions into their flags (R64). -/
def Group.fpWrite (g : Group) (fpctl : Exc) (rs : List LaneResult) (write : Group → Nat → BitVec 128 → Group) : Group :=
  (rs.filter fun r => r.exc &&& fpctl == 0).foldl (fun g r =>
    (write g r.lane r.value).setFlags r.lane (g.flags r.lane ||| r.exc)) g

/-- The end of a floating-point instruction (R64, R66). -/
def fpOp (i : Instr) (gd : Guard) (write : Group → Nat → BitVec 128 → Group) (f : Group → Nat → BitVec 128 × Exc)
    (s : State) : Out :=
  issue i gd s fun act =>
    let g := s.me
    let rs := (lanes act).map fun l => LaneResult.mk l (f g l).1 (f g l).2
    s.step1 i (fpTraps g.fpctl rs) .none false fun s => s.onMe fun x => x.fpWrite g.fpctl rs write

/-! ### Elements (R56) -/

/-- A packed type. -/
def packed (ty : Ty) : Bool := ty == .f16 || ty == .bf16

/-- An element of an operand. -/
def elemOf (ty : Ty) (k : Nat) (x : BitVec 128) : Nat :=
  if packed ty then (x.extractLsb' (16 * k) 16).toNat else (x.setWidth (valBits ty)).toNat

/-- Both elements of a packed pair, or the one value. -/
def perElem (ty : Ty) (f : Nat → Nat × Exc) : BitVec 128 × Exc :=
  if packed ty then
    let a := f 0
    let b := f 1
    (BitVec.ofNat 128 (a.1 + 65536 * b.1), a.2 ||| b.2)
  else
    let a := f 0
    (BitVec.ofNat 128 a.1, a.2)

/-- A floating-point instruction with a register destination, element by element. -/
def fpAlu {F : Type} (i : Instr) (o : Alu F) (f : Nat → Nat → Nat → Nat × Exc) (s : State) : Out :=
  fpOp i o.g (fun g l x => g.put o.d l (regBits o.ty) x) (fun g l =>
    let r := fun x => g.arg l o.ty o.x x
    let a := r o.a
    let b := r o.b
    let c := match o.x with | .s c _ => r c | _ => 0
    perElem o.ty fun k => f (elemOf o.ty k a) (elemOf o.ty k b) (elemOf o.ty k c)) s

end Sys2Proof.Machine
end

