-- ==== Sys2Proof/Machine/Integer.lean ====
section
/-! DEFINITION. Integer, bit, compare, select, move and address instructions (04 R69 to R81). -/

namespace Sys2Proof.Machine

open Sys2Proof Forms

/-- An integer operand (R57): the low w bits, unsigned or two's complement by TYPE. -/
def intOf (ty : Ty) (x : BitVec 128) : Int :=
  let v := x.setWidth (valBits ty)
  if isSigned ty then v.toInt else (v.toNat : Int)

/-- The operand's w bits read unsigned. -/
def natOf (ty : Ty) (x : BitVec 128) : Nat := (x.setWidth (valBits ty)).toNat

/-- An integer result (R57): formed as w bits, then extended to the register's bits. -/
def ofInt (ty : Ty) (x : Int) : BitVec 128 :=
  let v := BitVec.ofInt (valBits ty) x
  if isSigned ty then (v.signExtend (regBits ty)).setWidth 128 else v.setWidth 128

def minOf (ty : Ty) : Int := if isSigned ty then -(2 ^ (valBits ty - 1) : Int) else 0

def maxOf (ty : Ty) : Int := if isSigned ty then 2 ^ (valBits ty - 1) - 1 else 2 ^ valBits ty - 1

def clamp (ty : Ty) (x : Int) : Int := max (minOf ty) (min (maxOf ty) x)

/-- The result of the add family (R69): clamped with FN 1, then reduced. -/
def addResult (ty : Ty) (sat : Bool) (x : Int) : BitVec 128 := ofInt ty (if sat then clamp ty x else x)

/-- An integer instruction of sources SA, SB and SC. -/
def intOp {F : Type} (i : Instr) (o : Alu F) (f : Int → Int → Int → BitVec 128) (s : State) : Out :=
  alu i o.g o.d (regBits o.ty) (fun g l =>
    let r := fun x => intOf o.ty (g.arg l o.ty o.x x)
    f (r o.a) (r o.b) (match o.x with | .s c _ => r c | _ => 0)) s

/-- An integer instruction on the w bits of SA and SB. -/
def bitsOp {F : Type} (i : Instr) (o : Alu F) (f : Nat → Nat → Nat) (s : State) : Out :=
  alu i o.g o.d (regBits o.ty) (fun g l =>
    let r := fun x => natOf o.ty (g.arg l o.ty o.x x)
    ofInt o.ty (f (r o.a) (r o.b))) s

def execIadd (o : Alu Bool) (s : State) : Out := intOp (.iadd o) o (fun a b _ => addResult o.ty o.f (a + b)) s

def execIsub (o : Alu Bool) (s : State) : Out := intOp (.isub o) o (fun a b _ => addResult o.ty o.f (a - b)) s

def execImulLo (o : Alu Unit) (s : State) : Out := intOp (.imulLo o) o (fun a b _ => ofInt o.ty (a * b)) s

def execImulHi (o : Alu Unit) (s : State) : Out :=
  intOp (.imulHi o) o (fun a b _ => ofInt o.ty ((a * b).fdiv (2 ^ valBits o.ty))) s

def execImad (o : Alu Bool) (s : State) : Out := intOp (.imad o) o (fun a b c => addResult o.ty o.f (a * b + c)) s

def execIabs (o : Alu Bool) (s : State) : Out := intOp (.iabs o) o (fun a _ _ => addResult o.ty o.f a.natAbs) s

def execIneg (o : Alu Bool) (s : State) : Out := intOp (.ineg o) o (fun a _ _ => addResult o.ty o.f (-a)) s

def execImin (o : Alu Unit) (s : State) : Out := intOp (.imin o) o (fun a b _ => ofInt o.ty (min a b)) s

def execImax (o : Alu Unit) (s : State) : Out := intOp (.imax o) o (fun a b _ => ofInt o.ty (max a b)) s

def execIand (o : Alu Unit) (s : State) : Out := bitsOp (.iand o) o (fun a b => a &&& b) s

def execIor (o : Alu Unit) (s : State) : Out := bitsOp (.ior o) o (fun a b => a ||| b) s

def execIxor (o : Alu Unit) (s : State) : Out := bitsOp (.ixor o) o (fun a b => a ^^^ b) s

def execInot (o : Alu Unit) (s : State) : Out := bitsOp (.inot o) o (fun a _ => 2 ^ valBits o.ty - 1 - a) s

/-- `shl` (R73): a shift of w or more clears the result. -/
def shiftLeft (w a n : Nat) : Nat := if w ≤ n then 0 else a * 2 ^ n % 2 ^ w

def shiftRight (w a n : Nat) : Nat := if w ≤ n then 0 else a / 2 ^ n

/-- `sra` (R73): copies of bit w - 1 enter, and a shift of w or more leaves copies only. -/
def shiftArith (w a n : Nat) : Int := (BitVec.ofNat w a).toInt.fdiv (2 ^ min n w)

def rotateLeft (w a n : Nat) : Nat :=
  let m := n % w
  (a * 2 ^ m + a / 2 ^ (w - m)) % 2 ^ w

def execShl (o : Alu Unit) (s : State) : Out := bitsOp (.shl o) o (shiftLeft (valBits o.ty)) s

def execShr (o : Alu Unit) (s : State) : Out := bitsOp (.shr o) o (shiftRight (valBits o.ty)) s

def execSra (o : Alu Unit) (s : State) : Out :=
  alu (.sra o) o.g o.d (regBits o.ty) (fun g l =>
    let r := fun x => natOf o.ty (g.arg l o.ty o.x x)
    ofInt o.ty (shiftArith (valBits o.ty) (r o.a) (r o.b))) s

def execRotl (o : Alu Unit) (s : State) : Out := bitsOp (.rotl o) o (rotateLeft (valBits o.ty)) s

/-- The third source of form S, 32 bits whatever the TYPE (R74, R77). -/
def Group.control (g : Group) (l : Nat) (x : Ext) : BitVec 32 :=
  match x with
  | .s c v => (g.src l 32 ((v.signExtend 32).setWidth 64) c).setWidth 32
  | _ => 0

/-- Position and length of the field of R74, cut at w. -/
def fieldOf (w : Nat) (c : BitVec 32) : Nat × Nat :=
  let p := (c.extractLsb' 0 8).toNat
  (p, if w ≤ p then 0 else min (c.extractLsb' 8 8).toNat (w - p))

/-- `bfe` (R74). -/
def extractField (ty : Ty) (a : Nat) (c : BitVec 32) : Int :=
  let (p, k) := fieldOf (valBits ty) c
  let f := a / 2 ^ p % 2 ^ k
  if isSigned ty && k != 0 && 2 ^ (k - 1) ≤ f then (f : Int) - 2 ^ k else f

/-- `bfi` (R74). -/
def insertField (ty : Ty) (a b : Nat) (c : BitVec 32) : Int :=
  let (p, k) := fieldOf (valBits ty) c
  let old := a / 2 ^ p % 2 ^ k
  (a - old * 2 ^ p + b % 2 ^ k * 2 ^ p : Nat)

def execBfe (o : Alu Unit) (s : State) : Out :=
  alu (.bfe o) o.g o.d (regBits o.ty) (fun g l =>
    ofInt o.ty (extractField o.ty (natOf o.ty (g.arg l o.ty o.x o.a)) (g.control l o.x))) s

def execBfi (o : Alu Unit) (s : State) : Out :=
  alu (.bfi o) o.g o.d (regBits o.ty) (fun g l =>
    ofInt o.ty (insertField o.ty (natOf o.ty (g.arg l o.ty o.x o.a)) (natOf o.ty (g.arg l o.ty o.x o.b))
      (g.control l o.x))) s

/-- The ones of the low `w` bits. -/
def popCount (w a : Nat) : Nat := (List.range w).countP fun i => a.testBit i

/-- The zeros above the highest one of `w` bits; w for zero. -/
def leadingZeros (w a : Nat) : Nat := if a = 0 then w else w - 1 - a.log2

/-- The zeros below the lowest one of `w` bits; w for zero. -/
def trailingZeros (w a : Nat) : Nat := ((List.range w).find? fun i => a.testBit i).getD w

def reverseBits (w a : Nat) : Nat := (List.range w).foldl (fun r i => 2 * r + (if a.testBit i then 1 else 0)) 0

def execPopc (o : Alu Unit) (s : State) : Out := bitsOp (.popc o) o (fun a _ => popCount (valBits o.ty) a) s

def execClz (o : Alu Unit) (s : State) : Out := bitsOp (.clz o) o (fun a _ => leadingZeros (valBits o.ty) a) s

def execCtz (o : Alu Unit) (s : State) : Out := bitsOp (.ctz o) o (fun a _ => trailingZeros (valBits o.ty) a) s

/-- `brev`: a signed type gives the bits of the unsigned one (R75), so the result is extended with zeros (log 51). -/
def execBrev (o : Alu Unit) (s : State) : Out :=
  alu (.brev o) o.g o.d (regBits o.ty) (fun g l =>
    BitVec.ofNat 128 (reverseBits (valBits o.ty) (natOf o.ty (g.arg l o.ty o.x o.a)))) s

/-- The conditions of `icmp` (R76); it has the first six. -/
def condInt (c : Cond) (a b : Int) : Bool :=
  match c with
  | .eq => a == b | .ne => a != b | .lt => a < b | .le => a ≤ b | .gt => b < a | .ge => b ≤ a
  | .ord => false | .uno => false

def execIcmp (o : BitOp Cond) (s : State) : Out :=
  aluBit (.icmp o) o.g o.reg.toNat o.bit.toNat (fun g l =>
    condInt o.f (intOf o.ty (g.arg l o.ty o.x o.a)) (intOf o.ty (g.arg l o.ty o.x o.b))) s

/-- The immediate of `sel` (R77): IMM23[22:5], sign-extended to 32 bits. -/
def selImm (x : Ext) : Word := ((((imm23 x).extractLsb' 5 18).signExtend 32).setWidth 64)

/-- The bit that `sel` tests (R77): IMM23[4:0]. -/
def selBit (x : Ext) : Nat := ((imm23 x).extractLsb' 0 5).toNat

def execSel (o : Alu Unit) (s : State) : Out :=
  alu (.sel o) o.g o.d (regBits o.ty) (fun g l =>
    if (g.control l o.x).getLsbD (selBit o.x) then g.src l (regBits o.ty) (selImm o.x) o.a
    else g.src l (regBits o.ty) (selImm o.x) o.b) s

/-- `mov` (R78): a quad is copied, an integer extended by R57. -/
def movValue (ty : Ty) (x : BitVec 128) : BitVec 128 := if ty == .b128 then x else ofInt ty (intOf ty x)

def execMov (o : Alu Unit) (s : State) : Out :=
  alu (.mov o) o.g o.d (regBits o.ty) (fun g l => movValue o.ty (g.arg l o.ty o.x o.a)) s

/-- The value of `movi` (R79): zero-extended. -/
def moviValue (x : Ext) : BitVec 128 :=
  match x with
  | .i v => v.setWidth 128
  | .w v => v.setWidth 128
  | _ => 0

/-- The W form writes 64 bits, to a pair or a scalar (R79). -/
def moviBits (ty : Ty) (x : Ext) : Nat :=
  match x with
  | .w _ => 64
  | _ => regBits ty

def execMovi (o : Alu Unit) (s : State) : Out :=
  alu (.movi o) o.g o.d (moviBits o.ty o.x) (fun _ _ => moviValue o.x) s

/-- The address of `lea` (R81), modulo 2^64. -/
def leaValue (ty : Ty) (base : Word) (index : BitVec 128) (shift : Nat) (disp : BitVec 32) : Word :=
  base + BitVec.ofInt 64 (intOf ty index * 2 ^ shift) + disp.signExtend 64

def execLea (o : Alu (BitVec 4)) (s : State) : Out :=
  alu (.lea o) o.g o.d 64 (fun g l =>
    (leaValue o.ty (g.src64 l o.a) (g.src l (regBits o.ty) 0 o.b) o.f.toNat (imm32 o.x)).setWidth 128) s

end Sys2Proof.Machine
end

