-- ==== Sys2Proof/Machine/FloatOps.lean ====
section
/-! DEFINITION. Floating-point instructions and `cvt` (04 R82 to R89). -/

namespace Sys2Proof.Machine

open Sys2Proof Forms

def execFadd (o : Alu Rm) (s : State) : Out := fpAlu (.fadd o) o (fun a b _ => (fmtOf o.ty).add o.f a b) s

def execFsub (o : Alu Rm) (s : State) : Out := fpAlu (.fsub o) o (fun a b _ => (fmtOf o.ty).sub o.f a b) s

def execFmul (o : Alu Rm) (s : State) : Out := fpAlu (.fmul o) o (fun a b _ => (fmtOf o.ty).mul o.f a b) s

def execFfma (o : Alu Rm) (s : State) : Out := fpAlu (.ffma o) o (fun a b c => (fmtOf o.ty).fma o.f a b c) s

def execFdiv (o : Alu Rm) (s : State) : Out := fpAlu (.fdiv o) o (fun a b _ => (fmtOf o.ty).div o.f a b) s

def execFsqrt (o : Alu Rm) (s : State) : Out := fpAlu (.fsqrt o) o (fun a _ _ => (fmtOf o.ty).sqrt o.f a) s

def execFrcp (o : Alu Rm) (s : State) : Out := fpAlu (.frcp o) o (fun a _ _ => (fmtOf o.ty).rcp o.f a) s

def execFrsqrt (o : Alu Rm) (s : State) : Out := fpAlu (.frsqrt o) o (fun a _ _ => (fmtOf o.ty).rsqrt o.f a) s

def execFexp2 (o : Alu Rm) (s : State) : Out := fpAlu (.fexp2 o) o (fun a _ _ => (fmtOf o.ty).exp2 o.f a) s

def execFlog2 (o : Alu Rm) (s : State) : Out := fpAlu (.flog2 o) o (fun a _ _ => (fmtOf o.ty).log2 o.f a) s

def execFmin (o : Alu Unit) (s : State) : Out := fpAlu (.fmin o) o (fun a b _ => (fmtOf o.ty).minmax false a b) s

def execFmax (o : Alu Unit) (s : State) : Out := fpAlu (.fmax o) o (fun a b _ => (fmtOf o.ty).minmax true a b) s

/-- The sign bits of a TYPE's elements. -/
def signBits (ty : Ty) : Nat := if packed ty then 0x80008000 else 2 ^ (valBits ty - 1)

def execFabs (o : Alu Unit) (s : State) : Out :=
  alu (.fabs o) o.g o.d (regBits o.ty) (fun g l =>
    g.arg l o.ty o.x o.a &&& ~~~(BitVec.ofNat 128 (signBits o.ty))) s

def execFneg (o : Alu Unit) (s : State) : Out :=
  alu (.fneg o) o.g o.d (regBits o.ty) (fun g l =>
    g.arg l o.ty o.x o.a ^^^ BitVec.ofNat 128 (signBits o.ty)) s

def execFcmp (o : BitOp Cond) (s : State) : Out :=
  fpOp (.fcmp o) o.g (fun g l x => g.putBit o.reg.toNat o.bit.toNat l (x.getLsbD 0)) (fun g l =>
    let r := (fmtOf o.ty).cmp o.f (elemOf o.ty 0 (g.arg l o.ty o.x o.a)) (elemOf o.ty 0 (g.arg l o.ty o.x o.b))
    (if r.1 then 1 else 0, r.2)) s

/-- The mask of `fclass` (R86). -/
def classMask (ty : Ty) (x : BitVec 128) : BitVec 128 :=
  let m := fmtOf ty
  BitVec.ofNat 128 (2 ^ m.classBit (elemOf ty 0 x)
    + (if packed ty then 65536 * 2 ^ m.classBit (elemOf ty 1 x) else 0))

def execFclass (o : Alu Unit) (s : State) : Out :=
  alu (.fclass o) o.g o.d 32 (fun g l => classMask o.ty (g.arg l o.ty o.x o.a)) s

def execFrnd (o : Alu Rm) (s : State) : Out := fpAlu (.frnd o) o (fun a _ _ => (fmtOf o.ty).integral o.f a) s

/-- The mode of `cvt` (R88): RNE in form A, IMM23[1:0] in form S. -/
def cvtMode : Ext → Rm
  | .s _ v => (match (v.extractLsb' 0 2).toNat with | 0 => .rne | 1 => .rtz | 2 => .rup | _ => .rdn)
  | _ => .rne

/-- `cvt` of one value (Table 4-9). -/
def cvtValue (dst src : Ty) (rm : Rm) (x : BitVec 128) : BitVec 128 × Exc :=
  if isInt src then
    if isInt dst then (ofInt dst (clamp dst (intOf src x)), noExc)
    else
      let r := (fmtOf dst).ofInt rm (intOf src x)
      (BitVec.ofNat 128 r.1, r.2)
  else if isInt dst then
    let r := (fmtOf src).toInt rm (minOf dst) (maxOf dst) (elemOf src 0 x)
    (ofInt dst r.1, r.2)
  else
    let r := (fmtOf src).convert (fmtOf dst) rm (elemOf src 0 x)
    (BitVec.ofNat 128 r.1, r.2)

def execCvt (o : Alu Ty) (s : State) : Out :=
  fpOp (.cvt o) o.g (fun g l x => g.put o.d l (regBits o.ty) x)
    (fun g l => cvtValue o.ty o.f (cvtMode o.x) (g.src l (regBits o.f) 0 o.a)) s

end Sys2Proof.Machine
end

