-- ==== Sys2Proof/Machine/Narrow.lean ====
section
/-! DEFINITION. Narrow formats, the Hadamard transform and `cvtq`, `cvtx`, `hadm`, `scl.find` (15 R298, R299, R318 to
R323). -/

namespace Sys2Proof.Machine

open Sys2Proof Forms

def e4m3 : Fmt := ⟨4, 3⟩
def e5m2 : Fmt := ⟨5, 2⟩
def ue5m3 : Fmt := ⟨5, 3⟩

/-- The value of a floating code without special codes (R298). -/
def Fmt.finite (m : Fmt) (x : Nat) : FVal :=
  let fr := x % 2 ^ m.f
  let ex := x / 2 ^ m.f % 2 ^ m.e
  let neg := x / 2 ^ (m.e + m.f) % 2 == 1
  if ex = 0 then .num neg fr (m.emin - m.f) else .num neg (2 ^ m.f + fr) ((ex : Int) - m.bias - m.f)

/-- A signed integer element as a value. -/
def intVal (v : Int) : FVal := .num (v < 0) v.natAbs 0

/-- The value of a narrow code (Table 15-1). -/
def narrowVal (f : NFmt) (x : Nat) : FVal :=
  match f with
  | .e4m3 => if x % 128 = 0x7F then .nan false else e4m3.finite x
  | .e5m2 => e5m2.read x
  | .ue5m3 => if x = 0xFF then .nan false else ue5m3.finite x
  | .int4 => intVal (BitVec.ofNat 4 x).toInt
  | .int3 => intVal (BitVec.ofNat 3 x).toInt

/-- A value as FP32, exactly (R323). -/
def toFp32 : FVal → Nat
  | .nan _ => fp32.nan
  | .inf n => fp32.inf n
  | .num n m e => (fp32.round .rne n m e false).1

def FVal.negate : FVal → FVal
  | .nan s => .nan s
  | .inf n => .inf (!n)
  | .num n m e => .num (!n) m e

/-- The exact sum of two values, with the signs of R59 in RNE; a NaN from infinities of both signs. -/
def addVal : FVal → FVal → FVal
  | .nan s, _ => .nan s
  | _, .nan s => .nan s
  | .inf a, .inf b => if a == b then .inf a else .nan false
  | .inf a, .num _ _ _ => .inf a
  | .num _ _ _, .inf b => .inf b
  | .num na ma ea, .num nb mb eb =>
    let (n, m, e) := addExact .rne na ma ea nb mb eb
    .num n m e

/-- The exact sum of values: NaN with a NaN term or infinities of both signs; an exact zero is -0 only when every term
is (R310). -/
def sumVal : List FVal → FVal
  | [] => .num false 0 0
  | v :: vs => vs.foldl addVal v

/-- The exact product of two values (R310): a zero and an infinity make NaN. -/
def mulVal : FVal → FVal → FVal
  | .nan s, _ => .nan s
  | _, .nan s => .nan s
  | .inf a, .inf b => .inf (a != b)
  | .inf a, .num b m _ => if m = 0 then .nan false else .inf (a != b)
  | .num a m _, .inf b => if m = 0 then .nan false else .inf (a != b)
  | .num na ma ea, .num nb mb eb => .num (na != nb) (ma * mb) (ea + eb)

def FVal.scale (k : Int) : FVal → FVal
  | .num n m e => .num n m (e + k)
  | v => v

/-- Lanes of a block of R318, and the exponent e. -/
def trBlock : Tr → Nat × Int
  | .none => (1, 0) | .h16 => (16, 2) | .h32 => (32, 3)

/-- The terms of y(l) (R318), before the factor 2^-e. -/
def trTerms (t : Tr) (x : Nat → FVal) (l : Nat) : List FVal :=
  let n := (trBlock t).1
  (List.range n).map fun m =>
    let v := x (l - l % n + m)
    if ((List.range 6).countP fun i => (l % n &&& m).testBit i) % 2 = 1 then v.negate else v

/-- y(l): the source, or T of it, formed exactly (R318, R321). -/
def trVal (t : Tr) (x : Nat → FVal) (l : Nat) : FVal := (sumVal (trTerms t x l)).scale (-(trBlock t).2)

/-- The FP32 source of a lane. -/
def Group.fp32At (g : Group) (a : Src) (l : Nat) : FVal := fp32.read (g.src l 32 0 a).toNat

/-- `hadm` (R320). -/
def hadmValue (t : Tr) (x : Nat → FVal) (l : Nat) : BitVec 128 × Exc :=
  let ts := trTerms t x l
  match trVal t x l with
  | .nan _ => (BitVec.ofNat 128 fp32.nan,
      if ts.any FVal.isSnan || (ts.contains (.inf true) && ts.contains (.inf false)) then invalid else noExc)
  | .inf n => (BitVec.ofNat 128 (fp32.inf n), noExc)
  | .num n m e =>
    let r := fp32.round .rne n m e false
    (BitVec.ofNat 128 r.1, r.2)

def execHadm (o : Narrow) (s : State) : Out :=
  fpOp (.hadm o) o.g (fun g l x => g.put o.d l 32 x) (fun g l => hadmValue o.tr (g.fp32At o.a) l) s

/-- F of a target format (R321). -/
def largestOf : NFmt → Nat
  | .e4m3 => 448 | .e5m2 => 57344 | .int4 => 7 | .int3 => 3 | .ue5m3 => 114688

/-- |v| is at most |w|, for finite values. -/
def absLe (m : Nat) (e : Int) (n : Nat) (f : Int) : Bool := cmpFin false m e false n f != .gt

/-- The magnitude of a value, for the largest of R321: of two finite values the greater. -/
def absMax : List FVal → Nat × Int
  | [] => (0, 0)
  | v :: vs =>
    let (m, e) := absMax vs
    match v with
    | .num _ n f => if absLe m e n f then (n, f) else (m, e)
    | _ => (m, e)

/-- The smallest finite UE5M3 code whose value times F reaches the magnitude (R321). -/
def leastScale (big : Nat) (m : Nat) (e : Int) : Nat :=
  ((List.range 255).find? fun c =>
    match ue5m3.finite c with
    | .num _ n f => absLe m e (n * big) f
    | _ => false).getD 0xFE

/-- `scl.find` (R321), from the values of a half of the group. -/
def scaleCode (f : NFmt) (ys : List FVal) : Nat :=
  let (m, e) := absMax ys
  if ys.any FVal.isNan then 0xFF
  else if ys.any (fun v => match v with | .inf _ => true | _ => false) || !absLe m e (114688 * largestOf f) 0 then 0xFE
  else if m = 0 then 0x78
  else leastScale (largestOf f) m e

def execSclFind (o : Narrow) (s : State) : Out :=
  alu (.sclFind o) o.g o.d 32 (fun g l =>
    let ys := (List.range 16).map fun k => trVal o.tr (g.fp32At o.a) (l - l % 16 + k)
    BitVec.ofNat 128 (scaleCode o.fmt ys)) s

/-- Rounds num / den to an integer, ties to even. -/
def divEven (num den : Nat) : Nat :=
  let q := num / den
  let r := num % den
  if den < 2 * r || (2 * r == den && q % 2 == 1) then q + 1 else q

/-- The code of a NaN of `cvtq` (Table 15-8). -/
def quantNan : NFmt → Nat
  | .e4m3 => 0x7F | .e5m2 => 0x7E | _ => 0

/-- A finite quotient in an FP8 format, saturated (Table 15-8). -/
def quantFloat (m : Fmt) (top : Nat) (neg : Bool) (num : Nat) (den : Nat) (e : Int) : Nat :=
  let n := num * 2 ^ guardBits / den
  let c := if num = 0 then 0
    else (m.code .rne neg n (e - guardBits) (num * 2 ^ guardBits % den != 0)).code
  m.sign neg + min c top

/-- A finite quotient clamped to a signed range of `w` bits (Table 15-8), as a code. -/
def quantInt (w : Nat) (neg : Bool) (num den : Nat) (e : Int) : Nat :=
  let q := divEven (num * 2 ^ e.toNat) (den * 2 ^ (-e).toNat)
  let v : Int := if neg then -q else q
  (BitVec.ofInt w (max (-(2 ^ (w - 1) : Int)) (min (2 ^ (w - 1) - 1) v))).toNat

/-- `cvtq` (R322, Table 15-8): y over the value of a scale code. -/
def quantCode (f : NFmt) (y : FVal) (scale : Nat) : Nat :=
  match y, narrowVal .ue5m3 scale with
  | .nan _, _ => quantNan f
  | _, .nan _ => quantNan f
  | _, .inf _ => quantNan f
  | .inf n, .num _ sm _ =>
    if sm = 0 then quantNan f
    else match f with
      | .e4m3 => e4m3.sign n + 0x7E
      | .e5m2 => e5m2.inf n
      | .int3 => if n then 4 else 3
      | _ => if n then 8 else 7
  | .num n m e, .num _ sm se =>
    if sm = 0 then quantNan f
    else match f with
      | .e4m3 => quantFloat e4m3 0x7E n m sm (e - se)
      | .e5m2 => quantFloat e5m2 0x7B n m sm (e - se)
      | .int3 => quantInt 3 n m sm (e - se)
      | _ => quantInt 4 n m sm (e - se)

def execCvtq (o : Narrow) (s : State) : Out :=
  alu (.cvtq o) o.g o.d 32 (fun g l =>
    BitVec.ofNat 128 (quantCode o.fmt (trVal o.tr (g.fp32At o.a) l) ((g.src l 32 0 o.b).toNat % 256))) s

/-- The element of a packed word that `cvtx` expands (R323). -/
def packedElem (f : NFmt) (w e : Nat) : Nat :=
  match f with
  | .int4 => w / 2 ^ (4 * (e % 8)) % 16
  | .int3 => w % 2 ^ 24 / 2 ^ (3 * (e % 8)) % 8
  | _ => w / 2 ^ (8 * (e % 4)) % 256

def execCvtx (o : Narrow) (s : State) : Out :=
  alu (.cvtx o) o.g o.d 32 (fun g l =>
    let e := (g.src32 l o.x o.b).toNat
    BitVec.ofNat 128 (toFp32 (narrowVal o.fmt (packedElem o.fmt (g.src l 32 0 o.a).toNat e)))) s

end Sys2Proof.Machine
end

