-- ==== Sys2Proof/Machine/Phase.lean ====
section
/-! DEFINITION. Phases (11 R215 to R220, 12 R245, R248): publication, acquisition and the report of deferred failures;
`drain`. -/

namespace Sys2Proof.Machine

open Sys2Proof

/-- Step 2 of R217 for a group: its bytes are published, and those of peer lines start home (R227). -/
def State.release (s : State) (c g : Nat) : State :=
  let s := s.publish c g fun _ => true
  (s.dirtySectors fun _ b => b.writers.contains (c, g)).foldl (fun s x => s.writeBack x) s

/-- Every publication of a group is complete (R217, step 3). -/
def State.released (s : State) (c g : Nat) : Bool := !s.peerPending c g fun _ => true

/-- R218: the core's clean bytes, its instruction blocks and the clean bytes of every peer line are given up. -/
def State.acquire (s : State) (c : Nat) : State :=
  (s.onCore c fun k => { k with clean := [], icache := [] }).dropPeers

/-- What a phase instruction reports on its active lanes: the fabric error record (R335), else the deferred record
(R245). -/
def Group.reports (g : Group) (act : Mask) : List LaneTrap :=
  if g.fabPend then everyLane act Cause.remoteTimeout g.fabAddr
  else everyLane (act &&& g.defMask) Cause.deferredReduction g.defAddr

/-- The record after its report. -/
def Group.reported (g : Group) (act : Mask) : Group :=
  if g.fabPend then { g with fabPend := false, fabAddr := 0 }
  else
    let m := g.defMask &&& ~~~act
    { g with defMask := m, defAddr := if m == 0 then 0 else g.defAddr }

/-- A phase instruction whose work is done: the report, and the lanes go on. -/
def State.phaseEnd (s : State) (i : Instr) (act : Mask) (eff : State → State) : State :=
  s.step1 i (s.me.reports act) .none false fun s => (eff s).onMe fun g => g.reported act

/-- The release of the issuing group, as far as it has come: whether it is complete. -/
def State.tryRelease (s : State) : State × Bool :=
  let c := s.cur.core
  let g := s.cur.gslot
  if s.me.unacknowledged != 0 then (s, false)
  else
    let s := s.release c g
    (s, s.released c g)

def execPhaseRel (g : Guard) (s : State) : Out :=
  issue (.phaseRel g) g s fun act =>
    match s.tryRelease with
    | (s, false) => s.reissue
    | (s, true) => s.phaseEnd (.phaseRel g) act id

def execPhaseAcq (g : Guard) (s : State) : Out :=
  issue (.phaseAcq g) g s fun _ =>
    if !s.readsReturned then s.reissue
    else (s.acquire s.cur.core).advance (.phaseAcq g)

def execPhase (g : Guard) (s : State) : Out :=
  issue (.phase g) g s fun act =>
    match s.tryRelease with
    | (s, false) => s.reissue
    | (s, true) =>
      if !s.readsReturned then s.reissue
      else s.phaseEnd (.phase g) act fun s => s.acquire s.cur.core

/-- No write-back that carries bytes of the group is in flight. -/
def State.quietGroup (s : State) (c g : Nat) : Bool :=
  s.requests.all fun r => match r.origin with
    | .writeback _ ws => !ws.contains (c, g)
    | _ => true

/-- `drain`: the count, the report, then the lanes not reported arrive at the team barrier. -/
def execDrain (g : Guard) (s : State) : Out :=
  issue (.drain g) g s fun act =>
    if s.me.unacknowledged != 0 || !s.quietGroup s.cur.core s.cur.gslot then s.reissue
    else
      let bad := s.me.reports act
      if bad.isEmpty then s.teamArrive (.drain g) act
      else
        let x := s.mySlot
        let rest := x.mask &&& ~~~(trapMask bad)
        let wait : Slot :=
          { x.clear with state := .blocked, mask := rest, wait := ⟨.team, false, 0, 0, false⟩, act := act &&& rest,
                         len := (Instr.drain g).bytes }
        let s := s.finish { parts := if rest == 0 then [] else [wait], parked := bad, retired := false } fun s =>
          s.onMe fun x => x.reported act
        s.checkTeamBarrier s.cur.core s.me.team

end Sys2Proof.Machine
end

