-- ==== Sys2Proof/Machine/Token.lean ====
section
/-! DEFINITION. Engine operations as tokens: the token table, handles, states, ownership, holds, and the token
instructions (13 R259 to R276, R288 to R293). -/

namespace Sys2Proof.Machine

open Sys2Proof

/-! ### Handles and entries -/

/-- A token handle (Table 13-1). -/
def handleOf (gen : BitVec 24) (c e : Nat) : Word :=
  gen.setWidth 64 <<< 16 ||| BitVec.ofNat 64 (256 * (c % 256) + e % 256)

def handleCore (h : Word) : Nat := (h.extractLsb' 8 8).toNat
def handleSlot (h : Word) : Nat := (h.extractLsb' 0 8).toNat

def TokState.final : TokState → Bool
  | .done | .cancelled => true
  | _ => false

/-- STATE of a status word (Table 13-9). -/
def TokState.code : TokState → Nat
  | .issued => 0 | .running => 1 | .parked => 2 | .faulted => 3 | .done => 4 | .cancelled => 5

/-- The operation of a LIVE entry. -/
def State.op? (s : State) (c e : Nat) : Option Op :=
  match (s.token c e).use with
  | .live op => some op
  | _ => none

def State.setOp (s : State) (c e : Nat) (op : Op) : State := s.setToken c e { s.token c e with use := .live op }

/-- Every LIVE operation of the device: core, entry, operation. -/
def State.allOps (s : State) : List (Nat × Nat × Op) :=
  s.cores.flatMap fun (c, k) => k.tokens.filterMap fun (e, t) =>
    match t.use with
    | .live op => some (c, e, op)
    | _ => none

/-- Operations saved in the slipway, by their FORWARD entries. -/
def State.savedOps (s : State) : List (Nat × Nat × Op) :=
  s.cores.flatMap fun (c, k) => k.tokens.filterMap fun (e, t) =>
    match t.use with
    | .forwardSaved _ _ op => some (c, e, op)
    | _ => none

/-- R260: whether an entry is reclaimable. Orphans that end become so without being read (R274), and the FORWARD entry of
an operation that reached DONE while its team was saved is (R275). -/
def State.reclaimable (s : State) (c e : Nat) : Bool :=
  let t := s.token c e
  match t.use with
  | .live op => op.state == .done || (op.state == .cancelled && (t.seen || op.orphan))
  | .forwardTo c' e' =>
    match s.op? c' e' with
    | some op => op.handle != handleOf t.gen c e
    | none => true
  | .forwardSaved _ _ op => op.state == .done
  | .free => false

/-- The entry that an issue takes: a FREE one, else the one that has been reclaimable longest (R260). -/
def State.tokenSlot (s : State) (c : Nat) : Option Nat :=
  match s.pick 2 ((List.range 256).filter fun e => (s.token c e).use == .free) with
  | some e => some e
  | none =>
    ((List.range 256).filter (s.reclaimable c)).foldl (fun m e =>
      match m with
      | some x => if (s.token c e).final < (s.token c x).final then some e else m
      | none => some e) none

/-- An entry gives up its operation: the FORWARD entries that lead to it become reclaimable (R260). -/
def State.forwardsEnd (s : State) (c e : Nat) : State :=
  { s with cores := s.cores.mapAll fun _ k => { k with tokens := k.tokens.mapAll fun _ t =>
      bif t.use == (.forwardTo c e) then { t with final := s.turn } else t } }

/-- The next generation of an entry: never 0 (R260). -/
def nextGen (g : BitVec 24) : BitVec 24 := if g + 1 == 0 then 1 else g + 1

/-! ### Resolving a handle (R261) -/

inductive Resolved where
  | bad
  | reclaimed
  | live (c e : Nat) (op : Op)
  | saved (c e : Nat) (op : Op)
  deriving DecidableEq, Repr

def State.resolveToken (s : State) (asid : Nat) (privileged : Bool) (h : Word) : Resolved :=
  let c := handleCore h
  let e := handleSlot h
  let mine := fun (op : Op) (r : Resolved) => if op.asid != asid && !privileged then Resolved.bad else r
  if h.extractLsb' 40 24 != 0 || Config.cores ≤ c then .bad
  else if (s.token c e).gen != h.extractLsb' 16 24 || h == 0 then .reclaimed
  else
    match (s.token c e).use with
    | .free => .reclaimed
    | .live op => mine op (.live c e op)
    | .forwardSaved _ _ op => mine op (.saved c e op)
    | .forwardTo c' e' =>
      match s.op? c' e' with
      | some op => if op.handle == h then mine op (.live c' e' op) else .reclaimed
      | none => .reclaimed

/-- A status word (Table 13-9). -/
def Op.status (op : Op) : Word :=
  (BitVec.ofNat 32 op.delivered).setWidth 64 <<< 16 ||| op.cause.setWidth 64 <<< 8 ||| BitVec.ofNat 64 op.state.code

/-- The status of a reclaimed operation: DONE with RECL. -/
def reclaimedStatus : Word := 0x14

/-- A final CANCELLED state was returned, so that the entry is reclaimable (R260). -/
def State.sawState (s : State) (c e : Nat) : State :=
  let t := s.token c e
  match t.use with
  | .live op => if op.state == .cancelled && !t.seen then s.setToken c e { t with seen := true, final := s.turn } else s
  | .forwardSaved _ _ op => if op.state == .cancelled && !t.seen then s.setToken c e { t with seen := true } else s
  | _ => s

/-! ### What an operation names -/

/-- Spaces of a copy form in FN (R279). -/
def Op.srcSpace (op : Op) : Nat := op.fn.toNat / 4
def Op.dstSpace (op : Op) : Nat := op.fn.toNat % 4

def Op.isCopy (op : Op) : Bool := 0x90 ≤ op.op.toNat && op.op.toNat ≤ 0x96
def Op.isFeed (op : Op) : Bool := op.op == 0x97
def Op.isMma (op : Op) : Bool := op.op == 0xB0
def Op.isStep (op : Op) : Bool := op.op == 0xC3

/-- The accumulator or stream that an operation names (R300, R307, Table 15-7). -/
def Op.usesAcc (op : Op) (n : Nat) : Bool := op.isMma && op.dst.toNat == n

def Op.usesStream (op : Op) (n : Nat) : Bool :=
  (op.isFeed && op.dst.toNat == n)
    || (op.isMma && ((op.src.extractLsb' 0 2).toNat == n || (op.src.extractLsb' 2 2).toNat == n))

/-- A token that is not final names something of a group (R107, R316). -/
def State.groupBusy (s : State) (c g : Nat) (p : Op → Bool) : Bool :=
  (s.core c).tokens.any fun (_, t) =>
    match t.use with
    | .live op => !op.state.final && !op.detached && op.byGslot == g && p op
    | _ => false

def State.accBusy (s : State) (c g n : Nat) : Bool := s.groupBusy c g fun op => op.usesAcc n

def State.streamBusy (s : State) (c g n : Nat) : Bool := s.groupBusy c g fun op => op.usesStream n

/-- The team that a remote address of an operation names. -/
def Op.remoteAt (op : Op) (a : Word) : Option (Nat × Nat) := remoteName op.tid op.stage op.stages op.teams a

/-- The operation has a span in its issuing team's own allocation, or names an accumulator or a stream (R273,
R307). -/
def Op.ownSpan (op : Op) : Bool :=
  let own := fun (sp : Nat) (a : Word) => sp == 1 || (sp == 2 && (op.remoteAt a).any fun x => x.1 == op.tid)
  op.isFeed || op.isMma
    || (op.isCopy && (own op.srcSpace op.src || own op.dstSpace op.dst
          || ((op.op == 0x92 || op.op == 0x93) && op.fp.getLsbD 4)))

/-! ### Dependence counters (07 R159, R160) -/

/-- `dep.sub` of an amount; an attempt below zero sets UNDER. -/
def DepCounter.sub (d : DepCounter) (n : Nat) : DepCounter :=
  { d with under := d.under || d.count.toNat < n, count := BitVec.ofNat 32 (d.count.toNat - n) }

def DepCounter.add (d : DepCounter) (n : Nat) : DepCounter :=
  { d with count := BitVec.ofNat 32 (min (d.count.toNat + n) (2 ^ 32 - 1)) }

/-- R160: the index names a counter of the context. -/
def State.depOk (s : State) (asid : Nat) (ix : Word) : Bool := ix.toNat < 4096 && (s.dep ix.toNat).owner == asid

/-! ### Holds (R272) -/

/-- Adds a hold to tiles of a team. -/
def Team.hold (t : Team) (tiles : List Nat) : Team :=
  tiles.foldl (fun t i => { t with holds := t.holds.put 0 i (t.holds.get 0 i + 1) }) t

def Team.unhold (t : Team) (tiles : List Nat) : Team :=
  tiles.foldl (fun t i => { t with holds := t.holds.put 0 i (t.holds.get 0 i - 1) }) t

/-- The tiles that a span of bytes overlaps. -/
def tilesOf (lo hi : Nat) : List Nat := if hi ≤ lo then [] else (List.range ((hi - 1) / 1024 + 1 - lo / 1024)).map (lo / 1024 + ·)

def distinct (l : List Nat) : List Nat := l.foldl (fun a x => if a.contains x then a else a ++ [x]) []

/-- The holds of an operation are released. -/
def State.releaseHolds (s : State) (c : Nat) (op : Op) : State :=
  let s := match op.byTeam with
    | some t => s.onTeam c t fun x => x.unhold op.tiles
    | none => s
  op.remote.foldl (fun s (tid, tile) =>
    match s.findTeam op.launch tid with
    | some (c', t') => s.onTeam c' t' fun x => x.unhold [tile]
    | none => s) s

/-! ### Ends of operations (Table 13-3) -/

/-- A group that has ended keeps an accumulator or a stream until every token that names it is final (R100). It stands
beside the group slots then (`State.moveUnits`). -/
def State.dropUnits (s : State) (c g : Nat) : State :=
  let x := s.group c g
  if x.live || (x.accHeld == 0 && x.strHeld == 0) then s
  else
    let busy := fun (held : BitVec 4) (p : Nat → Bool) =>
      (List.range 4).foldl (fun (m : BitVec 4) n => if held.getLsbD n && p n then m ||| BitVec.twoPow 4 n else m) 0
    s.setGroup c g { x with accHeld := busy x.accHeld (s.accBusy c g), strHeld := busy x.strHeld (s.streamBusy c g) }

/-- An operation ends: holds released, the state final, and at DONE the linked counter decremented (R267). -/
def State.endOp (s : State) (c e : Nat) (st : TokState) : State :=
  match s.op? c e with
  | none => s
  | some op =>
    if op.state.final then s
    else
      let s := (s.releaseHolds c op).disownUnit c e
      let op' := { op with state := st, tiles := [], remote := [], slices := [], unit := .idle, got := [],
                           cancel := false, preempt := false }
      let s := s.setToken c e { s.token c e with use := .live op', final := s.turn }
      let s := if op.isFeed || op.isMma then s.dropUnits c op.byGslot else s
      if st == .done && op.lk == .counter then s.setDep op.link ((s.dep op.link).sub 1) else s

/-- Operations that wait for a handle (R266). -/
def waitsFor (h : Word) (op : Op) : Bool := op.state == .issued && h != 0 && (op.pred1 == h || op.pred2 == h)

/-- Every dependent of the cancelled operations becomes CANCELLED, and theirs in turn (R266). -/
def State.cancelChain (s : State) : Nat → List Word → State
  | 0, _ => s
  | _ + 1, [] => s
  | k + 1, h :: hs =>
    let ds := s.allOps.filter fun x => waitsFor h x.2.2
    let fs := s.savedOps.filter fun x => waitsFor h x.2.2
    let s := ds.foldl (fun s (c, e, _) => s.endOp c e .cancelled) s
    let s := fs.foldl (fun s (c, e, op) =>
      match (s.token c e).use with
      | .forwardSaved a va _ =>
        let s := s.releaseHolds c op
        s.setToken c e { s.token c e with
          use := .forwardSaved a va { op with state := .cancelled, tiles := [], remote := [] } }
      | _ => s) s
    State.cancelChain s k (hs ++ (ds ++ fs).map fun x => x.2.2.handle)

/-- Chains are no longer than the device's token entries. -/
def chainFuel : Nat := 49152

/-- An operation becomes CANCELLED, with what depends on it. -/
def State.cancelOp (s : State) (c e : Nat) : State :=
  match s.op? c e with
  | some op => if op.state.final then s else (s.endOp c e .cancelled).cancelChain chainFuel [op.handle]
  | none => s

/-- A cancel is requested (Table 13-3, R291): at once in ISSUED and FAULTED, at the next quiescent point in RUNNING,
as it leaves PARKED otherwise. -/
def State.requestCancel (s : State) (c e : Nat) : State :=
  match s.op? c e with
  | some op =>
    match op.state with
    | .issued | .faulted => s.cancelOp c e
    | .running | .parked => s.setOp c e { op with cancel := true }
    | .done | .cancelled => s
  | none => s

/-- R270: a FAULTED operation returns to ISSUED with its cursor. -/
def State.resumeOp (s : State) (c e : Nat) : State :=
  match s.op? c e with
  | some op =>
    if op.state != .faulted
        || (op.op == 0x96 && (op.cause == Cause.remoteOp || op.cause == Cause.remoteTimeout)) then s
    else s.setOp c e { op with state := .issued, cause := 0, refused := 0, unit := .idle, got := [], posted := false }
  | none => s

/-! ### Ownership (Table 13-2) -/

/-- The issuing group may control the operation. -/
def State.owns (s : State) (op : Op) : Bool :=
  let t := s.myTeam
  s.me.privileged
    || (if !op.detached then op.tid == t.tid && op.launch == t.launch
        else if op.orphan then op.adopter == some (t.launch.toNat, t.tid)
        else op.asid == s.me.asid)

/-! ### Token instructions (R288 to R293) -/

/-- What an instruction that controls a token does with the operation it names: TOKEN_FAULT for a handle it may not
name, a wait for a saved one, nothing for a reclaimed one (R261, R262). -/
def State.controls (s : State) (i : Instr) (act : Mask) (h : Word) (gone : State → State) (f : Nat → Nat → Op → State) :
    State :=
  match s.resolveToken s.me.asid s.me.privileged h with
  | .bad => s.raise i act Cause.tokenFault h
  | .reclaimed => gone s
  | .saved _ _ op =>
    if s.owns op then (s.needTeam op.launch op.tid).reissue else s.raise i act Cause.tokenFault h
  | .live c e op => if s.owns op then f c e op else s.raise i act Cause.tokenFault h

/-- Writes the status and goes on. -/
def State.answerTok (s : State) (i : Instr) (d : Option (BitVec 6)) (x : Word) : State :=
  (s.onMe fun g => g.putOpt d x).advance i

/-- What an observing instruction finds: a fault, or the operation and where its entry stands; none where it is
reclaimed. -/
def State.observes (s : State) (h : Word) : Option (Option (Nat × Nat × Op)) :=
  match s.resolveToken s.me.asid s.me.privileged h with
  | .bad => none
  | .reclaimed => some none
  | .saved c e op | .live c e op => some (some (c, e, op))

def execTokWait (o : TokOp) (s : State) : Out :=
  issue (.tokWait o) o.g s fun act =>
    let h := s.me.sreg o.a.toNat
    match s.observes h with
    | none => s.raise (.tokWait o) act Cause.tokenFault h
    | some none => s.answerTok (.tokWait o) o.d reclaimedStatus
    | some (some (c, e, op)) =>
      match op.state with
      | .issued | .running | .parked => s.reissue
      | st =>
        if o.fn == 1 && st != .done then s.raise (.tokWait o) act Cause.tokenFault h
        else (s.sawState c e).answerTok (.tokWait o) o.d op.status

def execTokTest (o : TokOp) (s : State) : Out :=
  issue (.tokTest o) o.g s fun act =>
    let h := s.me.sreg o.a.toNat
    match s.observes h with
    | none => s.raise (.tokTest o) act Cause.tokenFault h
    | some none => s.answerTok (.tokTest o) o.d reclaimedStatus
    | some (some (c, e, op)) => (s.sawState c e).answerTok (.tokTest o) o.d op.status

def execTokCancel (o : TokOp) (s : State) : Out :=
  issue (.tokCancel o) o.g s fun act =>
    s.controls (.tokCancel o) act (s.me.sreg o.a.toNat)
      (fun s => s.answerTok (.tokCancel o) o.d reclaimedStatus)
      fun c e op => (s.requestCancel c e).answerTok (.tokCancel o) o.d op.status

/-- Makes an operation belong to its context (R273). -/
def Op.detach (op : Op) : Op := { op with detached := true, byTeam := none }

def execTokDetach (o : TokOp) (s : State) : Out :=
  issue (.tokDetach o) o.g s fun act =>
    let h := s.me.sreg o.a.toNat
    s.controls (.tokDetach o) act h (fun s => s.advance (.tokDetach o)) fun c e op =>
      if op.detached then s.advance (.tokDetach o)
      else if op.ownSpan || op.lk == .barrier then s.raise (.tokDetach o) act Cause.tokenFault h
      else (s.setOp c e op.detach).advance (.tokDetach o)

/-- An entry gives up its operation: it stands in no queue of orphans any more (R274). -/
def State.dropOrphan (s : State) (c e : Nat) : State :=
  { s with ctxs := s.ctxs.mapAll fun _ x => { x with orphans := x.orphans.filter fun y => y != (c, e) } }

/-- The oldest unclaimed orphan of a context: its entry and handle. -/
def State.orphan (s : State) (a : Nat) : Option (Nat × Nat × Op) :=
  (s.ctx a).orphans.findSome? fun (c, e) =>
    match s.op? c e with
    | some op => if op.orphan && op.adopter.isNone && op.asid == a then some (c, e, op) else none
    | none => none

/-- `tok.adopt` (R274, R292). -/
def execTokAdopt (o : TokOp) (s : State) : Out :=
  issue (.tokAdopt o) o.g s fun _ =>
    let a := s.me.asid
    let t := s.myTeam
    let by_ := (t.launch.toNat, t.tid)
    let s := s.onCtx a fun x => { x with adopter := some by_ }
    match s.orphan a with
    | some (c, e, op) =>
      let s := s.onCtx a fun x => { x with orphans := x.orphans.filter fun y => y != (c, e) }
      (s.setOp c e { op with adopter := some by_ }).answerTok (.tokAdopt o) o.d op.handle
    | none => if o.fn == 1 then s.answerTok (.tokAdopt o) o.d 0 else s.reissue

def execTokPrio (o : TokOp) (s : State) : Out :=
  issue (.tokPrio o) o.g s fun act =>
    s.controls (.tokPrio o) act (s.me.sreg o.a.toNat) (fun s => s.advance (.tokPrio o)) fun c e op =>
      (s.setOp c e { op with prio := ((s.me.sreg o.b.toNat).extractLsb' 0 2).toNat }).advance (.tokPrio o)

/-- The state of a predecessor: none where it counts as DONE. -/
def State.predState (s : State) (h : Word) : Option TokState :=
  match s.resolveToken 0 true h with
  | .live _ _ op | .saved _ _ op => if op.state == .done then none else some op.state
  | _ => none

/-- An operation that has just been given a CANCELLED predecessor is CANCELLED (R266). -/
def State.checkPreds (s : State) (c e : Nat) : State :=
  match s.op? c e with
  | some op =>
    if op.state == .issued && (s.predState op.pred1 == some .cancelled || s.predState op.pred2 == some .cancelled) then
      s.cancelOp c e
    else s
  | none => s

/-- `tok.after` (R293). -/
def execTokAfter (o : TokOp) (s : State) : Out :=
  issue (.tokAfter o) o.g s fun act =>
    let h := s.me.sreg o.a.toNat
    let p := s.me.sreg o.b.toNat
    let bad := fun (s : State) => s.raise (.tokAfter o) act Cause.tokenFault h
    s.controls (.tokAfter o) act h bad fun c e op =>
      if op.state != .issued || op.pred2 != 0 then bad s
      else if p == 0 then (s.setOp c e { op with hold := false }).advance (.tokAfter o)
      else
        match s.resolveToken s.me.asid s.me.privileged p with
        | .bad => s.raise (.tokAfter o) act Cause.tokenFault p
        | .saved _ _ q => (s.needTeam q.launch q.tid).reissue
        | _ => ((s.setOp c e { op with hold := false, pred2 := p }).checkPreds c e).advance (.tokAfter o)

def execTokResume (o : TokOp) (s : State) : Out :=
  issue (.tokResume o) o.g s fun act =>
    s.controls (.tokResume o) act (s.me.sreg o.a.toNat)
      (fun s => s.answerTok (.tokResume o) o.d reclaimedStatus)
      fun c e op =>
        let s := s.resumeOp c e
        s.answerTok (.tokResume o) o.d ((s.op? c e).getD op).status

/-- FN 3 of `tok.state` (R293). -/
def Op.info (op : Op) : Word :=
  op.op.setWidth 64 ||| op.fn.setWidth 64 <<< 8
    ||| BitVec.ofNat 64 ((match op.lk with | .none => 0 | .barrier => 1 | .counter => 2) * 4096 + op.prio % 4 * 16384
          + (if op.detached then 2 ^ 16 else 0) + (if op.orphan then 2 ^ 17 else 0) + (if op.hold then 2 ^ 18 else 0))

def execTokState (o : TokOp) (s : State) : Out :=
  issue (.tokState o) o.g s fun act =>
    let h := s.me.sreg o.a.toNat
    match s.observes h with
    | none => s.raise (.tokState o) act Cause.tokenFault h
    | some none => s.answerTok (.tokState o) o.d (if o.fn == 0 then reclaimedStatus else 0)
    | some (some (c, e, op)) =>
      if o.fn == 0 then (s.sawState c e).answerTok (.tokState o) o.d op.status
      else
        s.answerTok (.tokState o) o.d
          (if o.fn == 1 then BitVec.ofNat 64 op.cursor
           else if o.fn == 2 then (if op.state == .faulted then op.refused else 0) else op.info)

end Sys2Proof.Machine
end

