-- ==== Sys2Proof/Machine/Engine.lean ====
section
/-! DEFINITION. Issue of engine operations: the copy forms, the stream feed and the matrix operation with the checks of
13 R278, and the accumulator instructions (13 R277 to R286, 15 R303 to R307, R316). -/

namespace Sys2Proof.Machine

open Sys2Proof

/-- A cause with its detail word, or none. -/
abbrev Check := Option (BitVec 8 × Word)

/-- An operation of the issuing group before its form's operands are filled in. -/
def State.newOp (s : State) (code : BitVec 8) (fn : BitVec 4) (fp : BitVec 13) : Op :=
  let t := s.myTeam
  { op := code, fn := fn, fp := fp, dst := 0, src := 0, x := 0, y := 0, len := 0, lk := .none, link := 0, prio := 0,
    hold := false, cancel := false, preempt := false, started := false, state := .issued, cause := 0, refused := 0,
    cursor := 0, delivered := 0, pred1 := 0, pred2 := 0, asid := s.me.asid, privileged := s.me.privileged,
    byTeam := some s.me.team, byGroup := s.me.number, byGslot := s.cur.gslot, tid := t.tid, launch := t.launch,
    stage := t.stage, stages := t.stages, teams := t.teams, detached := false, orphan := false, adopter := none,
    order := s.issued, list := [], claimed := false, unit := .idle, got := [], slices := [], tiles := [], remote := [],
    first := 0, recal := false, posted := false, disarmed := false, handle := 0 }

/-- Makes an entry LIVE with an operation, with its holds and its handle (R260, R272). -/
def State.startToken (s : State) (c e : Nat) (op : Op) : State × Word :=
  let t := s.token c e
  let g := nextGen t.gen
  let h := handleOf g c e
  let s := match op.byTeam with
    | some tm => s.onTeam c tm fun x => x.hold op.tiles
    | none => s
  let s := s.dropOrphan c e
  let s := (s.forwardsEnd c e).setToken c e ⟨g, .live { op with handle := h }, false, 0⟩
  (({ s with issued := s.issued + 1 }).checkPreds c e, h)

/-- Steps 2 to 6 of R278 and the issue. `before` are checks that come ahead of the predecessor's (R363). -/
def State.issueOp (s : State) (i : Instr) (act : Mask) (d pred : Option (BitVec 6)) (det : Bool) (op : Op)
    (before checks : List Check) : State :=
  let h := s.me.opt pred
  let r := s.resolveToken s.me.asid s.me.privileged h
  let p : Check := match r with | .bad => some (Cause.tokenFault, h) | _ => none
  let t := s.myTeam
  let late : List Check :=
    [if det && (op.ownSpan || op.lk == .barrier) then some (Cause.tokenFault, 0) else none,
     if op.tiles.any fun n => 255 ≤ t.holds.get 0 n then some (Cause.resource, 0) else none]
  match (before ++ [p]).findSome? id with
  | some (cause, detail) => s.raise i act cause detail
  | none =>
    match r with
    | .saved _ _ q => (s.needTeam q.launch q.tid).reissue
    | _ =>
      match (checks ++ late).findSome? id with
      | some (cause, detail) => s.raise i act cause detail
      | none =>
        match s.tokenSlot s.cur.core with
        | none => s.reissue
        | some e =>
          let op := { op with pred1 := h }
          let (s, h) := s.startToken s.cur.core e (if det then op.detach else op)
          s.answerTok i d h

/-! ### Operand checks -/

/-- The local offset that an address operand gives (R279). -/
def localOff (a : Word) : Nat := (a.extractLsb' 0 32).toNat

/-- The address as the form uses it: the low 32 bits of a local one. -/
def spaceAddr (sp : Nat) (a : Word) : Word := if sp = 1 then a &&& 0xFFFFFFFF else a

def checkAlign (a : Word) (n : Nat) : Check := if a.toNat % n != 0 then some (Cause.align, a) else none

/-- A local span from `lo` to `hi` must lie in the allocation. -/
def checkSpan (size : Nat) (a : Word) (lo hi : Int) : Check :=
  if lo < 0 || (size : Int) < hi then some (Cause.scratchRange, a) else none

def checkCount (ok : Bool) : Check := if ok then none else some (Cause.resource, 0)

/-- The link operand (R278, R267): a barrier word in the allocation and outside the operation's own tiles, or a
counter of the context. -/
def State.checkLink (s : State) (lk : LinkKind) (k : Word) (tiles : List Nat) : Check :=
  let t := s.myTeam
  match lk with
  | .none => none
  | .barrier =>
    let off := localOff k
    let d := BitVec.ofNat 64 off
    if off % 8 != 0 then some (Cause.align, d)
    else if t.spadBytes < off + 8 then some (Cause.scratchRange, d)
    else if t.engineOwned off || tiles.contains (off / 1024) then some (Cause.ownership, d)
    else if t.tag off != 3 then some (Cause.tagClass, d)
    else none
  | .counter => checkCount (s.depOk s.me.asid k)

/-- The link as the operation keeps it (Table 13-4). -/
def linkOf (lk : LinkKind) (k : Word) : Nat :=
  match lk with
  | .none => 0
  | .barrier => localOff k
  | .counter => k.toNat

/-! ### The copy forms -/

/-- The code of a space (R279). -/
def spaceCode : CSpace → Nat
  | .g => 0 | .s => 1 | .r => 2

/-- Elements of a gather or scatter: E bytes (R282). -/
def Op.elemBytes (op : Op) : Nat := 2 ^ (op.fp.toNat % 16)

/-- PART of a scatter (R283). -/
def Op.partition (op : Op) : Bool := op.op == 0x93 && op.fp.getLsbD 5

/-- The strides of `cpy.tile` (R281). -/
def Op.srcStride (op : Op) : Int := (op.x.extractLsb' 0 32).toInt
def Op.dstStride (op : Op) : Int := (op.x.extractLsb' 32 32).toInt
def Op.rows (op : Op) : Nat := (op.y.extractLsb' 0 24).toNat
def Op.validRows (op : Op) : Nat := (op.y.extractLsb' 24 24).toNat
def Op.validSectors (op : Op) : Nat := (op.y.extractLsb' 48 16).toNat

/-- The interval from the lowest to the highest byte that any row of `cpy.tile` touches. -/
def rowSpan (a : Nat) (stride : Int) (rows len : Nat) : Int × Int :=
  if rows = 0 then (a, a)
  else
    let z : Int := (a : Int) + stride * ((rows : Int) - 1)
    (min (a : Int) z, max (a : Int) z + len)

/-- The local spans of a copy: destination, source, index list, each where it is local. -/
def Op.dstSpan (op : Op) : Int × Int :=
  let a := localOff op.dst
  if op.op == 0x91 then rowSpan a op.dstStride op.rows op.len
  else if op.op == 0x92 then (a, a + op.len * op.elemBytes)
  else if op.op == 0x93 then (a, a + op.y.toNat * op.elemBytes)
  else (a, a + op.len)

def Op.srcSpan (op : Op) : Int × Int :=
  let a := localOff op.src
  if op.op == 0x91 then rowSpan a op.srcStride op.rows op.len
  else if op.op == 0x92 then (a, a + op.y.toNat * op.elemBytes)
  else if op.op == 0x93 then (a, a + op.len * op.elemBytes)
  else (a, a + op.len)

def Op.listSpan (op : Op) : Int × Int := (localOff op.x, localOff op.x + 4 * op.len)

/-- The index list lies in local scratchpad. -/
def Op.localList (op : Op) : Bool := (op.op == 0x92 || op.op == 0x93) && op.fp.getLsbD 4

/-- The tiles of the issuing team's allocation that a copy holds (R272); no allocation has more than 2^19 bytes. -/
def Op.copyTiles (op : Op) : List Nat :=
  let t := fun (x : Int × Int) => tilesOf x.1.toNat (min x.2.toNat (2 ^ 19))
  distinct ((if op.dstSpace = 1 then t op.dstSpan else []) ++ (if op.srcSpace = 1 then t op.srcSpan else [])
    ++ (if op.localList then t op.listSpan else []))

/-- The alignment of the addresses of a copy form. -/
def Op.addrAlign (op : Op) : Nat := if op.op == 0x92 || op.op == 0x93 then min op.elemBytes 32 else 32

/-- The length or count within the limits of the form (R280 to R286). -/
def Op.lenOk (op : Op) (l : Word) : Bool :=
  let n := l.toNat
  if op.op == 0x91 then n % 32 == 0 && 32 ≤ n && n ≤ 2 ^ 20
  else if op.op == 0x92 || op.op == 0x93 then n < 2 ^ 32
  else n % 32 == 0 && n < 2 ^ 32

/-- Step 3 of R278 for a copy: SA, SB, OPL, OPX, OPY, OPK. -/
def State.copyChecks (s : State) (op : Op) (l : Word) (k : Word) : List Check :=
  let size := s.myTeam.spadBytes
  let span := fun (sp : Nat) (a : Word) (x : Int × Int) => if sp = 1 then checkSpan size a x.1 x.2 else none
  let wide := { op with len := l.toNat }
  [if op.partition then checkAlign op.dst 8 else checkAlign op.dst op.addrAlign,
   span op.dstSpace op.dst wide.dstSpan,
   checkAlign op.src op.addrAlign, span op.srcSpace op.src wide.srcSpan,
   checkCount (op.lenOk l),
   if op.op == 0x91 then checkCount (op.srcStride % 32 == 0 && op.dstStride % 32 == 0)
   else if op.op == 0x92 || op.op == 0x93 then checkAlign op.x 4
   else if op.op == 0x95 then checkAlign op.x 8
   else none,
   if op.localList then checkSpan size op.x wide.listSpan.1 wide.listSpan.2 else none,
   s.checkLink op.lk k op.copyTiles]

/-- The issue of a copy form. -/
def copyIssue (i : Instr) (code : BitVec 8) (o : CpyOp) (s : State) : Out :=
  issue i o.g s fun act =>
    let g := s.me
    let fn := BitVec.ofNat 4 (4 * spaceCode o.ss + spaceCode o.ds)
    let l := g.opt o.opl
    let k := g.opt o.opk
    let op := s.newOp code fn o.fp
    let op := { op with
      dst := spaceAddr (spaceCode o.ds) (g.sreg o.dst.toNat), src := spaceAddr (spaceCode o.ss) (g.sreg o.src.toNat),
      x := g.opt o.opx, y := g.opt o.opy, len := l.toNat % 2 ^ 32, lk := o.lk, link := linkOf o.lk k,
      prio := o.pri.toNat, hold := o.hold }
    let op := if op.localList then { op with x := spaceAddr 1 op.x } else op
    let op := { op with tiles := op.copyTiles }
    s.issueOp i act o.d o.opp o.det op [] (s.copyChecks op l k)

def execCpy (o : CpyOp) (s : State) : Out := copyIssue (.cpy o) 0x90 o s
def execCpyTile (o : CpyOp) (s : State) : Out := copyIssue (.cpyTile o) 0x91 o s
def execCpyGth (o : CpyOp) (s : State) : Out := copyIssue (.cpyGth o) 0x92 o s
def execCpySct (o : CpyOp) (s : State) : Out := copyIssue (.cpySct o) 0x93 o s
def execCpyRem (o : CpyOp) (s : State) : Out := copyIssue (.cpyRem o) 0x94 o s
def execCpyMcast (o : CpyOp) (s : State) : Out := copyIssue (.cpyMcast o) 0x95 o s
def execCpyRed (o : CpyOp) (s : State) : Out := copyIssue (.cpyRed o) 0x96 o s

/-! ### `sfeed` and `mma` -/

/-- n: COUNT, or the count scalar (R303). -/
def Group.engCount (g : Group) (o : EngOp2) : Word := if o.count != 0 then o.count.setWidth 64 else g.opt o.opl

/-- An OPL value of 0 or above 65,535 raises RESOURCE. -/
def checkN (o : EngOp2) (n : Word) : Check := checkCount (o.count != 0 || (n != 0 && n.toNat ≤ 65535))

/-- Slice and scale bytes of a feed format (Table 15-4). -/
def sliceBytes (fmt : Nat) (kw : Bool) : Nat :=
  if fmt < 3 then 1024 else (if fmt = 3 then 512 else 384) / (if kw then 2 else 1)

def scaleBytes (fmt : Nat) (kw : Bool) : Nat := if fmt < 3 then 0 else if kw then 32 else 64

/-- FMT and KW of a feed (Table 15-3). -/
def Op.fmt (op : Op) : Nat := op.fp.toNat % 8
def Op.kw (op : Op) : Bool := op.fp.getLsbD 3

def execSfeed (o : EngOp2) (s : State) : Out :=
  issue (.sfeed o) o.g s fun act =>
    let g := s.me
    let n := g.engCount o
    let k := g.opt o.opk
    let op := s.newOp 0x97 o.fn o.fp
    let src := localOff (g.opt o.a)
    let so := localOff (g.opt o.b)
    let hi := src + n.toNat * sliceBytes op.fmt op.kw
    let shi := so + n.toNat * scaleBytes op.fmt op.kw
    let scaled := 3 ≤ op.fmt
    let size := s.myTeam.spadBytes
    let op := { op with
      dst := BitVec.ofNat 64 (o.fn.toNat % 4), src := BitVec.ofNat 64 src, x := if scaled then BitVec.ofNat 64 so else 0,
      len := n.toNat, lk := o.lk, link := linkOf o.lk k, prio := o.pri.toNat, hold := o.hold,
      tiles := if size < hi || size < shi then [] else
        distinct (tilesOf src hi ++ (if scaled then tilesOf so shi else [])) }
    s.issueOp (.sfeed o) act o.d o.opp o.det op []
      [checkAlign op.src 32, checkSpan size op.src src hi,
       if scaled then checkAlign op.x 32 else none, if scaled then checkSpan size op.x so shi else none,
       checkN o n, s.checkLink o.lk k []]

def execMma (o : EngOp2) (s : State) : Out :=
  issue (.mma o) o.g s fun act =>
    let g := s.me
    let n := g.engCount o
    let k := g.opt o.opk
    let op := { s.newOp 0xB0 o.fn o.fp with
      dst := BitVec.ofNat 64 (o.fn.toNat % 4), src := BitVec.ofNat 64 (o.fa.toNat + 4 * o.fb.toNat),
      x := act.setWidth 64, len := n.toNat, lk := o.lk, link := linkOf o.lk k, prio := o.pri.toNat, hold := o.hold }
    s.issueOp (.mma o) act o.d o.opp o.det op [] [checkN o n, s.checkLink o.lk k []]

/-! ### Accumulators (15 R316) -/

/-- The column that a lane names. -/
def Group.accCol (g : Group) (o : AccOp) (l : Nat) : Nat := ((g.src l 32 0 o.a).setWidth 32 : BitVec 32).toNat

/-- An accumulator instruction: OWNERSHIP while a token names the accumulator; RESOURCE for columns above 31. -/
def accOp (i : Instr) (o : AccOp) (s : State) (col : Group → Nat → Nat) (f : Group → List Nat → Group) : Out :=
  issue i o.g s fun act =>
    if s.accBusy s.cur.core s.cur.gslot o.acc.toNat then s.raise i act Cause.ownership 0
    else
      let g := s.me
      let bad := maskOf ((lanes act).filter fun l => 31 < col g l)
      s.step1 i (everyLane bad Cause.resource 0) .none false fun s => s.onMe fun g => f g (lanes (act &&& ~~~bad))

def execAccZero (o : AccOp) (s : State) : Out :=
  accOp (.accZero o) o s (fun _ _ => 0) fun g ls =>
    ls.foldl (fun g l => (List.range 32).foldl (fun g c => g.setAcc o.acc.toNat l c 0) g) g

def execAccRd (o : AccOp) (s : State) : Out :=
  accOp (.accRd o) o s (fun g l => g.accCol o l) fun g ls =>
    g.putAll o.d 32 (ls.map fun l => (l, (g.accAt o.acc.toNat l (g.accCol o l)).setWidth 128))

def execAccWr (o : AccOp) (s : State) : Out :=
  accOp (.accWr o) o s (fun g l => g.accCol o l) fun g ls =>
    (ls.map fun l => (l, g.accCol o l, (g.src l 32 0 o.b).setWidth 32)).foldl
      (fun g (l, c, x) => g.setAcc o.acc.toNat l c x) g

end Sys2Proof.Machine
end

