-- ==== Sys2Proof/Machine/Resource.lean ====
section
/-! DEFINITION. Allotment and dependence counters: `grow`, `shrink` and the core's pools (03 R48, R49, 05 R105 to R107),
`dep.add` and `dep.sub` (07 R160). -/

namespace Sys2Proof.Machine

open Sys2Proof

/-! ### Pools (Table 3-5) -/

def countBits (x : BitVec 4) : Nat := ((List.range 4).filter fun i => x.getLsbD i).length

/-- A group that has not ended, or what an ended one still holds (R100). -/
def Group.keeps (g : Group) : Bool := g.live || g.accHeld != 0 || g.strHeld != 0

/-- The groups of a core, those that have ended among them with what they still hold; the supervisor group lies outside
the pools (R116). -/
def Core.pooled (k : Core) : List (Nat × Group) := k.groups.filter fun e => e.1 != Config.supervisorSlot

def Core.regsUsed (k : Core) : Nat := k.pooled.foldl (fun n e => n + e.2.pool) 0
def Core.accsUsed (k : Core) : Nat := k.pooled.foldl (fun n e => n + countBits e.2.accHeld) 0
def Core.streamsUsed (k : Core) : Nat := k.pooled.foldl (fun n e => n + countBits e.2.strHeld) 0

/-- Whether two requests are for one pool of the core. -/
def samePool : Pool → Pool → Bool
  | .regs, .regs | .acc _, .acc _ | .stream _, .stream _ => true
  | _, _ => false

/-- The core can grant a request now. -/
def Core.canGrant (k : Core) (p : Pool) (n : Nat) : Bool :=
  match p with
  | .regs => k.regsUsed + n ≤ 4096
  | .acc _ => k.accsUsed < 64
  | .stream _ => k.streamsUsed < 16

/-- A sum over a team's groups. -/
def State.teamSum (s : State) (c t : Nat) (f : Group → Nat) : Nat := (s.groupsOf c t).foldl (fun n e => n + f e.2) 0

/-- The count of a request for registers. -/
def Group.growCount (g : Group) (a : Src) (x : Ext) : Nat :=
  match a with
  | .s n => (g.sreg n.toNat).toNat
  | _ => (imm32 x).toNat

/-- R106: the request of a group can never be granted. -/
def State.neverGranted (s : State) (c g : Nat) (p : Pool) (n : Nat) : Bool :=
  let x := s.group c g
  match p with
  | .regs => n == 0 || n % 16 != 0 || 256 < x.pool + n || 4096 < s.teamSum c x.team (·.pool) + n
  | .acc k => x.accHeld.getLsbD k.toNat || 64 ≤ s.teamSum c x.team fun y => countBits y.accHeld
  | .stream k => x.strHeld.getLsbD k.toNat || 16 ≤ s.teamSum c x.team fun y => countBits y.strHeld

/-- What a grant gives: registers that read zero, a zero accumulator, an empty stream (R106). -/
def Group.granted (g : Group) (p : Pool) (n : Nat) : Group :=
  match p with
  | .regs =>
    { g with pool := g.pool + n, v := g.v.keep fun k _ => !(32 * g.pool ≤ k && k < 32 * (g.pool + n)) }
  | .acc k =>
    { g with accHeld := g.accHeld ||| BitVec.twoPow 4 k.toNat, acc := g.acc.keep fun i _ => i / 1024 != k.toNat }
  | .stream k => { g with strHeld := g.strHeld ||| BitVec.twoPow 4 k.toNat, streams := g.streams.erase k.toNat }

/-- The request that a slot has made and that is not granted yet. -/
def State.request? (s : State) (c g n : Nat) : Option GrowReq :=
  (s.core c).grows.find? fun q => q.gslot == g && q.slot == n

/-- `grow`: the request joins the core's queue, and the slot waits for its grant (R49, R106). A request that has been
made stands as it was made. -/
def execGrow (pool : Pool) (a : Src) (x : Ext) (s : State) : Out :=
  issue (.grow pool a x) .always s fun _ =>
    let c := s.cur.core
    let g := s.cur.gslot
    let n := s.me.growCount a x
    let q : GrowReq := ⟨g, s.cur.slot, pool, n⟩
    if (s.request? c g s.cur.slot).isSome then s.onMySlot fun x => x.quiet s.nextTag
    else if s.neverGranted c g pool n then s.raise (.grow pool a x) s.mySlot.mask Cause.resource 0
    else
      (s.onCore c fun k => { k with grows := k.grows ++ [q] }).block .zero (Instr.grow pool a x).bytes s.mySlot.mask

/-- The pool that an operand of GROW_GRANT names: registers, accumulators, streams. -/
def poolIs (p : Pool) (k : Nat) : Bool :=
  match p with
  | .regs => k == 0
  | .acc _ => k == 1
  | .stream _ => k == 2

/-- A request is still made: its slot is BLOCKED at it, and its team is not leaving (R49). -/
def State.grantable (s : State) (c : Nat) (q : GrowReq) : Bool :=
  ((s.group c q.gslot).slot q.slot).state == .blocked && !(s.team c (s.group c q.gslot).team).moving

/-- GROW_GRANT (R49): the oldest blocked request of a pool is granted whole, if the core can; a request that another
grant has made impossible is issued again, to trap. -/
def execGrowGrant (core pool : Nat) (s : State) : Out :=
  happen (.growGrant core pool) s fun s => (match (s.core core).grows.find? fun q => poolIs q.pool pool && s.grantable core q with
    | none => s
    | some q =>
      let y := (s.group core q.gslot).slot q.slot
      let drop := fun (s : State) => s.onCore core fun k => { k with grows := k.grows.erase q }
      if s.neverGranted core q.gslot q.pool q.count then
        (drop s).onGroup core q.gslot fun g => g.setSlot q.slot (y.ready y.pc y.mask s.turn)
      else if !(s.core core).canGrant q.pool q.count then s
      else
        let len := s.waitLen core q.gslot y
        let s := (drop s).onGroup core q.gslot fun g =>
          (g.granted q.pool q.count).setSlot q.slot (y.go (y.pc + BitVec.ofNat 64 len) y.mask s.turn)
        (s.count core (s.group core q.gslot).asid 0 1).alive (s.group core q.gslot).asid)

/-- What `shrink` returns. -/
def Group.shrunk (g : Group) (p : Pool) (n : Nat) : Group :=
  match p with
  | .regs => { g with pool := g.pool - n, v := g.v.keep fun k _ => k < 32 * (g.pool - n) }
  | .acc k =>
    { g with accHeld := g.accHeld &&& ~~~(BitVec.twoPow 4 k.toNat), acc := g.acc.keep fun i _ => i / 1024 != k.toNat }
  | .stream k => { g with strHeld := g.strHeld &&& ~~~(BitVec.twoPow 4 k.toNat), streams := g.streams.erase k.toNat }

/-- The instruction at a PC of the group writes one of the registers that a `shrink` returns. -/
def State.writesReturned (s : State) (n : Nat) (pc : Word) : Bool :=
  let x := s.me
  match s.codeAt s.cur.core s.cur.gslot pc with
  | .ok bs => match decode bs with
    | .ok i => (writtenRegs i).any fun r => x.pool - n < r.1 + r.2
    | .error _ => false
  | _ => false

/-- An earlier instruction of the group is under way, in the other slot or spilled, and writes a register that a
`shrink` returns (R107). -/
def State.usesReturned (s : State) (n : Nat) : Bool :=
  let y := s.me.slot (other s.cur.slot)
  (y.state == .blocked && s.writesReturned n y.pc)
    || (s.spilledSlots s.cur.core s.cur.gslot).any fun (_, _, e) => e.state == 3 && s.writesReturned n e.pc

/-- `shrink` (R107). -/
def execShrink (pool : Pool) (a : Src) (x : Ext) (s : State) : Out :=
  issue (.shrink pool a x) .always s fun _ =>
    let n := s.me.growCount a x
    let m := s.mySlot.mask
    let busy := match pool with
      | .regs => false
      | .acc k => s.accBusy s.cur.core s.cur.gslot k.toNat
      | .stream k => s.streamBusy s.cur.core s.cur.gslot k.toNat
    if pool == .regs && (n == 0 || n % 16 != 0 || s.me.pool < 32 + n) then
      s.raise (.shrink pool a x) m Cause.resource 0
    else if busy then s.raise (.shrink pool a x) m Cause.ownership 0
    else if pool == .regs && s.usesReturned n then s.reissue
    else (s.onMe fun g => g.shrunk pool n).advance (.shrink pool a x)

/-! ### Dependence counters -/

/-- The amount: the low 32 bits of SB, unsigned. -/
def Group.amount (g : Group) (b : Src) (x : Ext) : Nat := (g.src32 0 x b).toNat

/-- One change of a counter (R160). -/
def depOp (i : Instr) (g : Guard) (d : Option (BitVec 6)) (ix : BitVec 6) (f : Group → DepCounter → DepCounter)
    (s : State) : Out :=
  issue i g s fun act =>
    let k := s.me.sreg ix.toNat
    if !s.depOk s.me.asid k then s.raise i act Cause.resource 0
    else
      let x := f s.me (s.dep k.toNat)
      ((s.setDep k.toNat x).onMe fun g => g.putOpt d (x.count.setWidth 64)).advance i

def execDepAdd (g : Guard) (d : Option (BitVec 6)) (ix : BitVec 6) (b : Src) (x : Ext) (s : State) : Out :=
  depOp (.depAdd g d ix b x) g d ix (fun m k => k.add (m.amount b x)) s

def execDepSub (g : Guard) (d : Option (BitVec 6)) (ix : BitVec 6) (b : Src) (x : Ext) (s : State) : Out :=
  depOp (.depSub g d ix b x) g d ix (fun m k => k.sub (m.amount b x)) s

end Sys2Proof.Machine
end

