-- ==== Sys2Proof/Machine/Walk.lean ====
section
/-! DEFINITION. The walk of a copy: its units, what each reads and writes, and the steps of an operation at its engine
(13 R263 to R272, R280 to R286). -/

namespace Sys2Proof.Machine

open Sys2Proof

/-- A place that an engine names: a global address, an offset of the issuing team's allocation, a remote address. -/
inductive Seg where
  | g (va : Word)
  | s (off : Nat)
  | r (addr : Word)
  deriving DecidableEq, Repr

/-- What a refused address is (R269). -/
def Seg.addr : Seg → Word
  | .g va => va
  | .s off => BitVec.ofNat 64 off
  | .r a => a

/-- The place `d` bytes on from an operand of a space. -/
def segAt (sp : Nat) (a : Word) (d : Int) : Seg :=
  if sp = 1 then .s ((localOff a + d) % 2 ^ 32).toNat
  else if sp = 2 then .r (a + BitVec.ofInt 64 d)
  else .g (a + BitVec.ofInt 64 d)

/-- Where a write goes. -/
inductive Target where
  | mem (pa : Nat)
  | pad (c t off : Nat)
  deriving DecidableEq, Repr

/-- What one step at an engine takes: units, sectors counted, and bytes to write, each with where they go and the address
that names it. -/
structure Plan where
  units : Nat
  counted : Nat
  writes : List (Target × Word × List Byte)
  deriving DecidableEq, Repr

/-- What one step at an engine finds: a plan; a refusal with its cause, its address and the unit refused; or a wait. -/
inductive Tried where
  | ok (p : Plan)
  | refused (cause : BitVec 8) (addr : Word) (unit : Nat)
  | need (w : Want) (op : HomeOp)
  | away (launch : Word) (tid : Nat)
  | wait

/-! ### Accesses of an engine -/

def Op.agent (op : Op) (c : Nat) : Agent := ⟨c, op.asid, op.privileged, op.got, 0⟩

/-- A result of unit `u` with an address that may be refused. -/
def tried {α : Type} (u : Nat) (r : Res α) (addr : Word) (f : α → Tried) : Tried :=
  match r with
  | .ok a => f a
  | .no c => .refused c addr u
  | .need w o => .need w o
  | .away l t => .away l t

/-- Where a place of the scratchpad lies: the core, the team index and the offset (R203, R204). -/
def State.padAt (s : State) (c : Nat) (op : Op) : Seg → Res (Nat × Nat × Nat)
  | .g _ => .no Cause.scratchRange
  | .s off =>
    match op.byTeam with
    | some t => .ok (c, t, off)
    | none => .no Cause.scratchRange
  | .r a =>
    match op.remoteAt a with
    | none => .no Cause.scratchRange
    | some (tid, off) =>
      match s.findTeam op.launch tid with
      | some (c', t') => .ok (c', t', off)
      | none =>
        if s.saved.any fun (e : SavedTeam) => e.launch == op.launch && e.tid == tid then .away op.launch tid
        else .no Cause.scratchRange

/-- Reads `n` bytes within one sector (R200, R225). -/
def State.engRead (s : State) (c : Nat) (op : Op) (p : Seg) (n : Nat) : State × Res (List Byte) :=
  match p with
  | .g va =>
    let a := op.agent c
    match s.translate a va .read with
    | (s, .ok w) =>
      match s.peerLine a w.pa with
      | .ok line =>
        match s.homeRead c w.pa n line with
        | (s, some bs) => (s, .ok bs)
        | (s, none) => (s, .no Cause.remoteTimeout)
      | r => (s, r.bind fun _ => .ok [])
    | (s, .no x) => (s, .no x)
    | (s, .need w o) => (s, .need w o)
    | (s, .away l t) => (s, .away l t)
  | p => (s, (s.padAt c op p).bind fun (c', t', off) => .ok (s.padRead c' t' off n))

/-- Translates and checks a destination (R200); the peer forms need a peer window (R284). -/
def State.engDest (s : State) (c : Nat) (op : Op) (p : Seg) : State × Res Target :=
  match p with
  | .g va =>
    let far := op.op == 0x94 || op.op == 0x95 || op.op == 0x96
    if va.toNat % 32 != 0 && op.op == 0x95 then (s, .no Cause.align)
    else
      match s.translate (op.agent c) va (if op.op == 0x96 then .rmw else .write) with
      | (s, .ok w) => (s, if far && !isPeer w.pa then .no Cause.permission else .ok (.mem w.pa))
      | (s, .no x) => (s, .no x)
      | (s, .need w o) => (s, .need w o)
      | (s, .away l t) => (s, .away l t)
  | p => (s, (s.padAt c op p).bind fun (c', t', off) => .ok (.pad c' t' off))

/-! ### Units -/

/-- Units of the walk (Table 13-6). -/
def Op.units (op : Op) : Nat :=
  if op.op == 0x91 then op.rows * (op.len / 32)
  else if op.op == 0x92 || op.op == 0x93 then op.len
  else if op.op == 0x95 then (op.fp.toNat % 8 + 1) * (op.len / 32)
  else if op.isCopy then op.len / 32
  else op.len

/-- Destination and sector of a unit of `cpy.mcast` (R285): the list position and the byte offset. -/
def Op.mcastAt (op : Op) (u : Nat) : Nat × Nat :=
  let n := op.fp.toNat % 8 + 1
  let q := u / (128 * n)
  let m := min 128 (op.len / 32 - 128 * q)
  let k := u % (128 * n)
  (k / m, 4096 * q + 32 * (k % m))

/-- The sector of a unit of the sector forms: source, destination, and whether the unit is out of range (R281). -/
def Op.sectorAt (op : Op) (u : Nat) : Seg × Seg × Bool :=
  if op.op == 0x91 then
    let w := op.len / 32
    let r := u / w
    let k := u % w
    (segAt op.srcSpace op.src (op.srcStride * r + 32 * k), segAt op.dstSpace op.dst (op.dstStride * r + 32 * k),
      decide (op.validRows ≤ r) || decide (op.validSectors ≤ k))
  else if op.op == 0x95 then
    let (d, off) := op.mcastAt u
    (segAt op.srcSpace op.src off, .g (op.list.getD d 0 + BitVec.ofNat 64 off), false)
  else (segAt op.srcSpace op.src (32 * u), segAt op.dstSpace op.dst (32 * u), false)

/-- One unit of a sector form. -/
def State.trySector (s : State) (c : Nat) (op : Op) (u : Nat) : State × Tried :=
  let (src, dst, out) := op.sectorAt u
  if out && !op.fp.getLsbD 0 then (s, .ok ⟨1, 0, []⟩)
  else
    let (s, r) := if out then (s, .ok (List.replicate 32 0)) else s.engRead c op src 32
    match r with
    | .ok bs =>
      let (s, d) := s.engDest c op dst
      (s, tried u d dst.addr fun t => .ok ⟨1, 1, [(t, dst.addr, bs)]⟩)
    | r => (s, tried u r src.addr fun _ => .wait)

/-- The index of element `i` (R282). -/
def Op.indexSeg (op : Op) (i : Nat) : Seg :=
  segAt (if op.localList then 1 else 0) op.x (4 * i)

/-- Pieces of an element that lie each in one sector. -/
def elemPieces (e : Nat) : List (Nat × Nat) :=
  if e ≤ 32 then [(0, e)] else (List.range (e / 32)).map fun k => (32 * k, 32)

/-- Reads an element of unit `u` piece by piece and checks where each piece goes. -/
def State.tryPieces (s : State) (c : Nat) (op : Op) (u : Nat) (src dst : Nat → Seg) :
    List (Nat × Nat) → State × Tried
  | [] => (s, .ok ⟨1, 0, []⟩)
  | (k, n) :: ps =>
    match s.engRead c op (src k) n with
    | (s, .ok bs) =>
      match s.engDest c op (dst k) with
      | (s, .ok t) =>
        match State.tryPieces s c op u src dst ps with
        | (s, .ok p) => (s, .ok ⟨1, p.counted + 1, (t, (dst k).addr, bs) :: p.writes⟩)
        | r => r
      | (s, r) => (s, tried u r (dst k).addr fun _ => .wait)
    | (s, r) => (s, tried u r (src k).addr fun _ => .wait)

/-- Element `i` of a partition scatter, once it is claimed: it goes to the address kept in Y, whatever the index list
holds now (R283). -/
def State.tryClaimed (s : State) (c : Nat) (op : Op) (i : Nat) : State × Tried :=
  s.tryPieces c op i (fun k => segAt op.srcSpace op.src (i * op.elemBytes + k : Nat)) (fun k => segAt 0 op.y k)
    (elemPieces op.elemBytes)

/-- Element `i` of a gather or of a scatter by index (R282, R283). -/
def State.tryElement (s : State) (c : Nat) (op : Op) (i : Nat) : State × Tried :=
  let e := op.elemBytes
  match s.engRead c op (op.indexSeg i) 4 with
  | (s, .ok ix) =>
    let x := leNat ix
    if x == 0xFFFFFFFF || op.y.toNat ≤ x then (s, .ok ⟨1, 0, []⟩)
    else
      let gather := op.op == 0x92
      let src := fun (k : Nat) => segAt op.srcSpace op.src (if gather then x * e + k else i * e + k : Nat)
      let dst := fun (k : Nat) => segAt op.dstSpace op.dst (if gather then i * e + k else x * e + k : Nat)
      s.tryPieces c op i src dst (elemPieces e)
  | (s, r) => (s, tried i r (op.indexSeg i).addr fun _ => .wait)

/-- `k` elements of a gather from element `i` on, which lie in one destination sector: they are one write (R282). -/
def State.tryBatch (s : State) (c : Nat) (op : Op) : Nat → Nat → State × Tried
  | _, 0 => (s, .ok ⟨0, 0, []⟩)
  | i, k + 1 =>
    match s.tryElement c op i with
    | (s, .ok p) =>
      match State.tryBatch s c op (i + 1) k with
      | (s, .ok q) => (s, .ok ⟨p.units + q.units, max p.counted q.counted, p.writes ++ q.writes⟩)
      | r => r
    | r => r

/-- The first element of a gather in the destination sector of element `u`, and the number of them there. Small elements
share sectors; the sector of a refused element is gathered again from its first element on (R268, log 30). -/
def Op.batchAt (op : Op) (u : Nat) : Nat × Nat :=
  let e := op.elemBytes
  if 32 ≤ e then (u, 1)
  else
    let per := 32 / e
    let at_ := (op.dst.toNat / e + u) % per
    let first := u - min u at_
    (first, min (u + (per - at_)) op.units - first)

/-- The list of `cpy.mcast`, read once (R285). -/
def State.tryList (s : State) (c : Nat) (op : Op) : Nat → Nat → List Word → State × Tried × List Word
  | _, 0, ws => (s, .ok ⟨0, 0, []⟩, ws)
  | i, k + 1, ws =>
    let p := Seg.g (op.x + BitVec.ofNat 64 (8 * i))
    match s.engRead c op p 8 with
    | (s, .ok bs) => State.tryList s c op (i + 1) k (ws ++ [BitVec.ofNat 64 (leNat bs)])
    | (s, r) => (s, tried 0 r p.addr fun _ => .wait, ws)

/-- The entry of the partition table that an element claims from, and whether the element takes part (R283). -/
def State.tryClaim (s : State) (c : Nat) (op : Op) (i : Nat) : State × Tried × Option Word :=
  match s.engRead c op (op.indexSeg i) 4 with
  | (s, .ok ix) =>
    let x := leNat ix
    if x == 0xFFFFFFFF || 2 ^ (op.fp.toNat / 64 % 16) ≤ x then (s, .ok ⟨1, 0, []⟩, none)
    else
      let va := op.dst + BitVec.ofNat 64 (8 * x)
      match s.translate (op.agent c) va .rmw with
      | (s, .ok _) => (s, .wait, some va)
      | (s, r) => (s, tried i r va fun _ => .wait, none)
  | (s, r) => (s, tried i r (op.indexSeg i).addr fun _ => .wait, none)

/-- The next unit or units of a copy, checked. For a partition scatter without its claim an empty plan says that the
claim may be made. -/
def State.tryCopy (s : State) (c : Nat) (op : Op) : State × Tried :=
  let u := op.cursor
  if op.partition then
    if op.claimed then
      if op.y.toNat % min op.elemBytes 32 != 0 then (s, .refused Cause.align op.y u) else s.tryClaimed c op u
    else
      match s.tryClaim c op u with
      | (s, _, some _) => (s, .ok ⟨0, 0, []⟩)
      | (s, r, none) => (s, r)
  else if op.op == 0x92 then
    let (first, n) := op.batchAt u
    match s.tryBatch c op first n with
    | (s, .ok p) => (s, .ok { p with units := first + n - u })
    | r => r
  else if op.op == 0x93 then s.tryElement c op u
  else s.trySector c op u

/-- The units after a plan are skipped to the walk's end: how many; none where one is not, or must wait. -/
def State.tailSkipped (s : State) (c : Nat) (op : Op) : Nat → State × Tried
  | 0 => (s, .ok ⟨0, 0, []⟩)
  | k + 1 =>
    if op.units ≤ op.cursor then (s, .ok ⟨0, 0, []⟩)
    else
      match s.tryCopy c op with
      | (s', .ok p) =>
        if p.units = 0 || p.counted != 0 then (s, .wait)
        else
          match State.tailSkipped s' c { op with cursor := op.cursor + p.units } k with
          | (s, .ok q) => (s, .ok { q with units := p.units + q.units })
          | r => r
      | (_, .need w o) => (s, .need w o)
      | _ => (s, .wait)

/-! ### Delivery -/

/-- A sector of a plan at a peer: its number, the address that first names it, bytes and mask. -/
structure PeerSector where
  sec : Nat
  addr : Word
  bytes : List Byte
  mask : BitVec 32
  deriving DecidableEq, Repr

/-- The sectors of a plan at peers. -/
def peerSectors (ws : List (Target × Word × List Byte)) : List PeerSector :=
  let one := fun (l : List PeerSector) (pa : Nat) (addr : Word) (bs : List Byte) =>
    let old := (l.find? fun x => x.sec == pa / 32).getD ⟨pa / 32, addr, List.replicate 32 0, 0⟩
    let new := bs.zipIdx.foldl (fun (x : PeerSector) b =>
      { x with bytes := x.bytes.set (pa % 32 + b.2) b.1, mask := x.mask ||| BitVec.twoPow 32 (pa % 32 + b.2) }) old
    l.filter (fun x => x.sec != pa / 32) ++ [new]
  ws.foldl (fun l (t, addr, bs) =>
    match t with | .mem pa => if isPeer pa then one l pa addr bs else l | .pad _ _ _ => l) []

/-- The request of a sector at its home (R284, R286). -/
def Op.sectorReq (op : Op) (bs : List Byte) (m : BitVec 32) : HomeOp :=
  if op.op == 0x96 then
    .reduceSector
      (if op.fp == 5 then .s32 else if op.fp == 7 then .s64 else if op.fp == 8 then .f16
       else if op.fp == 9 then .bf16 else .f32) bs
  else .write bs m

/-- The L1s give up what they hold clean of a line (R284). -/
def State.dropClean (s : State) (line : Nat) : State :=
  { s with cores := s.cores.mapAll fun _ k => { k with clean := k.clean.keep fun sec _ => sec / 4 != line } }

/-- The answer of the peers to the sectors of a plan: a refusal, a wait, or all acknowledged. -/
def State.peersDone (s : State) (c e : Nat) (op : Op) : List PeerSector → State × Tried
  | [] => (s, .ok ⟨0, 0, []⟩)
  | x :: r =>
    match s.answerTo (op.agent c) (.sector (32 * x.sec)) 0 (32 * x.sec) with
    | some .ok | some (.data _) => State.peersDone ((s.dropPeerLine (x.sec / 4)).dropClean (x.sec / 4)) c e op r
    | some .addressError => (s, .refused Cause.permission x.addr op.cursor)
    | some .notSupported => (s, .refused Cause.remoteOp x.addr op.cursor)
    | some .timedOut => (s, .refused Cause.remoteTimeout x.addr op.cursor)
    | none =>
      let s := s.askUnit c e (.sector (32 * x.sec)) (op.sectorReq x.bytes x.mask)
      match State.peersDone s c e op r with
      | (s, .refused x a u) => (s, .refused x a u)
      | (s, _) => (s, .wait)

/-- Performs the writes of a plan that fall on this device (R226). -/
def State.performWrites (s : State) (c : Nat) (ws : List (Target × Word × List Byte)) : State :=
  ws.foldl (fun s (t, _, bs) =>
    match t with
    | .mem pa => if isPeer pa then s else s.homeWrite c pa bs
    | .pad c' t' off => s.padWrite c' t' off bs) s

/-- The linked barrier word loses the delivered sectors, one by one, while it is a barrier word (R250, R267). -/
def State.linkDecrement (s : State) (c : Nat) (op : Op) : Nat → State
  | 0 => s
  | n + 1 =>
    match op.lk, op.byTeam with
    | .barrier, some t =>
      if (s.team c t).tag op.link != 3 then s
      else State.linkDecrement (s.updateWord c t op.link 0 (0 - 1)) c op n
    | _, _ => s

/-- Where a cancel and a pre-emption take effect (Table 6-12): between units, and for the bulk forms between 4 KiB
chunks. -/
def Op.quiescent (op : Op) : Bool :=
  if op.op == 0x94 || op.op == 0x96 then op.cursor % 128 == 0
  else if op.op == 0x95 then (op.mcastAt op.cursor).2 % 4096 == 0
  else true

/-- Units are delivered: the cursor advances, the last delivery ends the operation with its holds released before the
last decrement; so do the holds of one that is cancelled at the quiescent point it comes to (R226, R263, R264, R267,
R268). -/
def State.deliver (s : State) (c e : Nat) (op : Op) (units counted : Nat) : State :=
  let op' := { op with cursor := op.cursor + units, delivered := op.delivered + counted, unit := .idle, got := [],
                       claimed := false, y := if op.partition then 0 else op.y }
  let s := (s.setOp c e op').alive op.asid
  if op'.units ≤ op'.cursor then
    let s := (s.releaseHolds c op').setOp c e { op' with tiles := [], remote := [] }
    (s.linkDecrement c op' counted).endOp c e .done
  else if op'.cancel && op'.quiescent then
    let s := (s.releaseHolds c op').setOp c e { op' with tiles := [], remote := [] }
    s.linkDecrement c op' counted
  else s.linkDecrement c op' counted

/-- A refused unit (R264, R269): FAULTED, or CANCELLED where a cancel is pending; the cause is kept in both. -/
def State.refuseUnit (s : State) (c e : Nat) (cause : BitVec 8) (addr : Word) (unit : Nat) : State :=
  match s.op? c e with
  | none => s
  | some op =>
    let op := { op with cause := cause, refused := addr, cursor := unit, unit := .idle, got := [] }
    let s := (s.setOp c e op).disownUnit c e
    if op.cancel then s.cancelOp c e
    else s.setOp c e { op with state := .faulted, preempt := false, posted := false }

/-- What a step at an engine does with what it found. -/
def State.afterTry (s : State) (c e : Nat) (r : Tried) (f : Plan → State) : State :=
  match r with
  | .ok p => f p
  | .refused cause addr unit => s.refuseUnit c e cause addr unit
  | .need w o => s.askUnit c e w o
  | .away l t => s.needTeam l t
  | .wait => s

/-! ### The start of an operation (Table 13-3, R265, R272) -/

def State.running (s : State) (c : Nat) : Nat :=
  ((s.core c).tokens.filter fun (_, t) =>
    match t.use with
    | .live op => op.state == .running
    | _ => false).length

/-- The remote spans of a copy: the operand, and the interval of bytes from the offset that it names (R281). -/
def Op.remoteSpans (op : Op) : List (Word × Int × Int) :=
  let one := fun (sp : Nat) (a : Word) (stride : Int) =>
    if !op.isCopy || sp != 2 then []
    else [(a, if op.op == 0x91 then rowSpan 0 stride op.rows op.len else ((0 : Int), (op.len : Int)))]
  one op.dstSpace op.dst op.dstStride ++ one op.srcSpace op.src op.srcStride

/-- The holds on remote allocations that an operation asks for, or why they cannot be had, with the address of the span
(R204, R272). A tile carries 255 holds at most. -/
def State.remoteHolds (s : State) (op : Op) : List (Word × Int × Int) → List (Nat × Nat) → Tried × List (Nat × Nat)
  | [], hs => (.ok ⟨0, 0, []⟩, hs)
  | (a, lo, hi) :: r, hs =>
    match op.remoteAt a with
    | none => (.refused Cause.scratchRange a op.cursor, hs)
    | some (tid, off) =>
      match s.findTeam op.launch tid with
      | some (c, t) =>
        let x := s.team c t
        if off + lo < 0 || (x.spadBytes : Int) < off + hi then (.refused Cause.scratchRange a op.cursor, hs)
        else
          let tiles := tilesOf (off + lo).toNat (off + hi).toNat
          if tiles.any fun i => 255 ≤ x.holds.get 0 i then (.refused Cause.resource a op.cursor, hs)
          else State.remoteHolds s op r (hs ++ (tiles.map fun i => (tid, i)).filter fun x => !hs.contains x)
      | none =>
        if s.saved.any fun (x : SavedTeam) => x.launch == op.launch && x.tid == tid then (.away op.launch tid, hs)
        else (.refused Cause.scratchRange a op.cursor, hs)

def State.applyRemote (s : State) (op : Op) (hs : List (Nat × Nat)) : State :=
  hs.foldl (fun s (tid, i) =>
    match s.findTeam op.launch tid with
    | some (c, t) => s.onTeam c t fun x => x.hold [i]
    | none => s) s

/-- `b` goes ahead of `a` at an engine: the higher priority, then the earlier issue (R265). -/
def Op.ahead (b a : Op) : Bool := a.prio < b.prio || (a.prio == b.prio && b.order < a.order)

/-- What an operation still asks for before it may leave ISSUED. -/
def State.startHolds (s : State) (op : Op) : Tried × List (Nat × Nat) :=
  s.remoteHolds op (if op.remote.isEmpty then op.remoteSpans else []) []

/-- The team of an attached operation is leaving the core or is dumped: its operations stop (R125, R174). -/
def State.stopping (s : State) (c : Nat) (op : Op) : Bool :=
  match op.byTeam with
  | some t => (s.team c t).moving || (s.team c t).halts.contains .dump
  | none => false

/-- An ISSUED operation of a core may leave ISSUED, but for the choice of R265. -/
def State.mayStart (s : State) (c : Nat) (op : Op) : Bool :=
  op.state == .issued && !op.hold && (s.predState op.pred1).isNone && (s.predState op.pred2).isNone && !s.stopping c op

/-- Another operation of the core starts before this one (R263, R265). -/
def State.startsLater (s : State) (c : Nat) (op : Op) : Bool :=
  s.allOps.any fun (c', _, x) =>
    c' == c && x.ahead op && s.mayStart c x && match (s.startHolds x).1 with | .away _ _ => false | _ => true

/-- TOKEN_START: an ISSUED operation leaves ISSUED when it may. Its reads then meet what was published before (R225). -/
def execTokenStart (core slot : Nat) (s : State) : Out :=
  happen (.tokenStart core slot) s fun s =>
    match s.op? core slot with
    | none => s
    | some op =>
      if !s.mayStart core op || 64 ≤ s.running core || s.startsLater core op then s
      else
        match s.startHolds op with
        | (.ok _, hs) =>
          let s := ((s.applyRemote op hs).dropPeers).disownUnit core slot
          let op := { op with state := .running, started := true, remote := op.remote ++ hs, unit := .idle, got := [] }
          let s := s.setOp core slot op
          if op.units ≤ op.cursor && !op.isStep then s.endOp core slot .done else s
        | (r, _) => s.afterTry core slot r fun _ => s

/-! ### Quiescent points -/

/-- The matrix engine of the core is being recalibrated, so that its operations park (21 R394). -/
def State.recals (s : State) (c : Nat) (op : Op) : Bool := (s.core c).recalBusy && (op.isFeed || op.isMma)

/-- The steps of R264 before the next unit: whether the engine may try one. -/
def State.quiesce (s : State) (c e : Nat) (op : Op) : State × Bool :=
  if op.unit != .idle || !op.quiescent then (s, true)
  else if op.cancel then (s.cancelOp c e, false)
  else if op.preempt || s.recals c op then
    (s.setOp c e { op with state := .parked, preempt := false, got := [], recal := s.recals c op }, false)
  else (s, true)

/-- The next unit of a copy is translated and checked; a list is read first (R285). -/
def State.tryUnit (s : State) (c e : Nat) (op : Op) : State :=
  if op.op == 0x95 && op.list.isEmpty then
    match s.tryList c op 0 (op.fp.toNat % 8 + 1) [] with
    | (s, r, ws) => s.afterTry c e r fun _ => s.setOp c e { op with list := ws, got := [] }
  else
    match s.tryCopy c op with
    | (s, r) => s.afterTry c e r fun _ => s.setOp c e { op with unit := .checked }

/-- The claim of a partition scatter: a fetch-and-add of E at the entry's home (R283). -/
def State.claim (s : State) (c e : Nat) (op : Op) : State :=
  match s.tryClaim c op op.cursor with
  | (s, r, none) => s.afterTry c e r fun p => s.deliver c e op p.units p.counted
  | (s, _, some va) =>
    let a := op.agent c
    match s.translate a va .rmw with
    | (s, .ok w) =>
      let n := BitVec.ofNat 128 op.elemBytes
      let took := fun (s : State) (old : Word) => s.setOp c e { op with claimed := true, y := old, got := [] }
      let u := op.cursor
      if isPeer w.pa then
        match s.answerTo a (.amo w.pa 0) 0 w.pa with
        | some (.data bs) => took s (BitVec.ofNat 64 (leNat bs))
        | some .ok => s
        | some .notSupported => s.refuseUnit c e Cause.remoteOp va u
        | some .addressError => s.refuseUnit c e Cause.permission va u
        | some .timedOut => s.refuseUnit c e Cause.remoteTimeout va u
        | none => s.askUnit c e (.amo w.pa 0) (.atomic .add .b64 n 0)
      else
        let (s, old) := s.atomMem c w.pa 8 .add n 0
        took s (old.setWidth 64)
    | (s, r) => s.afterTry c e (tried op.cursor r va fun _ => .wait) fun _ => s

/-- A delivery may be the operation's last: how many units after it are skipped to the end. The engine looks on only where
the order of holds and decrements rests on it: a skipped unit moves nothing, so that it is passed over while a pre-emption
is pending too, and one that is not skipped is left to its own try (R264, R267). -/
def State.tail (s : State) (c : Nat) (op : Op) (p : Plan) : State × Tried :=
  if op.lk != .barrier || p.counted = 0 || op.cancel then (s, .ok ⟨0, 0, []⟩)
  else s.tailSkipped c { op with cursor := op.cursor + p.units } (op.units - (op.cursor + p.units))

/-- UNIT_DELIVERED for a copy: the unit is checked as it stands and its writes are performed. -/
def State.deliverCopy (s : State) (c e : Nat) (op : Op) : State :=
  if op.partition && !op.claimed then s.claim c e op
  else
    match s.tryCopy c op with
    | (s, .ok p) =>
      match s.tail c op p with
      | (s, .need w o) => s.askUnit c e w o
      | (s, t) =>
        let more := match t with | .ok q => q.units | _ => 0
        let s := s.performWrites c p.writes
        match s.peersDone c e op (peerSectors p.writes) with
        | (s, .ok _) =>
          (s.count c op.asid 5 p.counted).deliver c e op (p.units + more) p.counted
        | (s, .refused cause addr u) => s.refuseUnit c e cause addr u
        | (s, _) => s.setOp c e { (s.op? c e).getD op with unit := .sent }
    | (s, r) => s.afterTry c e r fun _ => s

end Sys2Proof.Machine
end

