-- ==== Sys2Proof/Machine/Matrix.lean ====
section
/-! DEFINITION. Streams and slices, the feed's walk and the k-step of the matrix engine (15 R300 to R315). -/

namespace Sys2Proof.Machine

open Sys2Proof

/-! ### Slices (R299 to R302) -/

/-- Element `q` of a packed sequence of `w`-bit elements, sign-extended to a byte (R299). -/
def packedSigned (bits : Nat) (w q : Nat) : Byte := (BitVec.ofNat w (bits / 2 ^ (w * q))).signExtend 8

/-- k of a slice (R300): columns of a row of A. -/
def sliceK (fmt : Nat) (kw : Bool) : Nat := if fmt = 2 || kw then 16 else 32

/-- The bytes of a slice as a stream holds them: weights one signed byte each (R304). -/
def sliceData (fmt : Nat) (kw : Bool) (bytes : List Byte) : List Byte :=
  if fmt < 3 then bytes
  else
    let w := if fmt = 3 then 4 else 3
    let bits := leNat bytes
    (List.range (32 * sliceK fmt kw)).map fun q => packedSigned bits w q

/-- Slice `u` of a feed, from the scratchpad of its team. -/
def Team.slice (t : Team) (op : Op) (u : Nat) : Slice :=
  let sb := sliceBytes op.fmt op.kw
  let sc := scaleBytes op.fmt op.kw
  { fmt := op.fmt, kw := op.kw, col := op.fn.getLsbD 2,
    elems := sliceData op.fmt op.kw (t.read (op.src.toNat + u * sb) sb),
    scales := t.read (op.x.toNat + u * sc) sc }

/-- The value at a packed position of a slice (R298). -/
def elemVal (fmt : Nat) (elems : Array Byte) (q : Nat) : FVal :=
  let b := fun i => (elems.getD i 0).toNat
  if fmt = 0 then narrowVal .e4m3 (b q)
  else if fmt = 1 then narrowVal .e5m2 (b q)
  else if fmt = 2 then bf16.read (b (2 * q) + 256 * b (2 * q + 1))
  else intVal (elems.getD q 0).toInt

/-- Packed positions of operand elements (Table 15-2). -/
def aPos (col : Bool) (k i x : Nat) : Nat := if col then 32 * x + i else k * i + x

def bPos (col : Bool) (k x j : Nat) : Nat := if col then k * j + x else 32 * x + j

/-- MODE of an `mma` (Table 15-5): the format of A, the format of B or none for weights, and KW. -/
def modeFmts (mode : Nat) : Nat × Option Nat × Bool :=
  match mode with
  | 0 => (2, some 2, false)
  | 1 => (0, some 0, false)
  | 2 => (0, some 1, false)
  | 3 => (1, some 0, false)
  | 4 => (1, some 1, false)
  | 5 => (0, none, false)
  | 6 => (1, none, false)
  | _ => (2, none, true)

/-- The head slices suit the mode (R312). -/
def slicesMatch (mode : Nat) (a b : Slice) : Bool :=
  let (fa, fb, kw) := modeFmts mode
  a.fmt == fa && (match fb with | some f => b.fmt == f | none => (b.fmt == 3 || b.fmt == 4) && b.kw == kw)

/-- k of a mode. -/
def modeK (mode : Nat) : Nat := if mode = 0 || mode = 7 then 16 else 32

/-- Dot of R309 and R310 for one element. -/
def dot (mode : Nat) (a b : Slice) (i j : Nat) : FVal :=
  let k := modeK mode
  let ea := a.elems.toArray
  let eb := b.elems.toArray
  let sc := b.scales.toArray
  sumVal ((List.range k).map fun x =>
    let t := mulVal (elemVal a.fmt ea (aPos a.col k i x)) (elemVal b.fmt eb (bPos b.col k x j))
    if mode < 5 then t else mulVal t (narrowVal .ue5m3 (sc.getD (32 * (x / 16) + j) 0).toNat))

/-- One k-step on an accumulator (R309): two roundings, in each row of the mask. -/
def Group.kstep (g : Group) (acc : Nat) (rows : Mask) (mode : Nat) (a b : Slice) : Group :=
  (Machine.lanes rows).foldl (fun g i => (List.range 32).foldl (fun g j =>
    let t := toFp32 (dot mode a b i j)
    g.setAcc acc i j (BitVec.ofNat 32 (fp32.add .rne (g.accAt acc i j).toNat t).1)) g) g

/-! ### Steps at the engines -/

/-- An earlier operation of the group that is not final (R305, R308). -/
def State.earlier (s : State) (c : Nat) (op : Op) (p : Op → Bool) : Bool :=
  s.groupBusy c op.byGslot fun x => decide (x.order < op.order) && p x

/-- A feed at a quiescent point: the next slice may be pushed (R304, R305). -/
def State.tryFeed (s : State) (c e : Nat) (op : Op) : State :=
  let n := op.dst.toNat
  if s.earlier c op (fun x => x.isFeed && x.dst == op.dst) || 4 ≤ ((s.group c op.byGslot).stream n).length then s
  else s.setOp c e { op with unit := .checked }

/-- The slice enters at the tail. -/
def State.pushSlice (s : State) (c e : Nat) (op : Op) : State :=
  match op.byTeam with
  | none => s
  | some t =>
    let sl := (s.team c t).slice op op.cursor
    let n := op.dst.toNat
    let s := s.onGroup c op.byGslot fun g => g.setStream n (g.stream n ++ [sl])
    (s.count c op.asid 6 1).deliver c e op 1 1

/-- Streams FA and FB of an `mma` (Table 15-7). -/
def Op.fa (op : Op) : Nat := (op.src.extractLsb' 0 2).toNat
def Op.fb (op : Op) : Nat := (op.src.extractLsb' 2 2).toNat

def Op.mode (op : Op) : Nat := op.fp.toNat % 16

/-- An `mma` at a quiescent point: it waits for its turn and for two slices, checks them, and is granted them, which
pops both (R308, R309, R312, R313). -/
def State.tryStep (s : State) (c e : Nat) (op : Op) : State :=
  let g := s.group c op.byGslot
  if s.earlier c op (fun x => x.isMma && (x.dst == op.dst || x.usesStream op.fa || x.usesStream op.fb)) then s
  else
    match g.stream op.fa, g.stream op.fb with
    | a :: as, b :: bs =>
      if !slicesMatch op.mode a b then s.refuseUnit c e Cause.illegal 0 op.cursor
      else
        let s := s.setGroup c op.byGslot ((g.setStream op.fa as).setStream op.fb bs)
        s.setOp c e { op with unit := .checked, slices := [a, b] }
    | _, _ => s

/-- The commit of a granted k-step. -/
def State.commitStep (s : State) (c e : Nat) (op : Op) : State :=
  match op.slices with
  | [a, b] =>
    let s := s.onGroup c op.byGslot fun g => g.kstep op.dst.toNat (op.x.setWidth 32) op.mode a b
    (s.count c op.asid 7 1).deliver c e { op with slices := [] } 1 1
  | _ => s

end Sys2Proof.Machine
end

