-- ==== Sys2Proof/Machine/Gossip.lean ====
section
/-! DEFINITION. Gossip regions: takes, halves, recalls, arming, and the `gsp.*` instructions (18 R345 to R364). -/

namespace Sys2Proof.Machine

open Sys2Proof Forms

/-! ### The replica (R345) -/

def Region.slotPa (r : Region) (j : Nat) : Nat := r.frame + 8 * j
def Region.weightPa (r : Region) : Nat := r.frame + 0x1000

/-- Both frames of a replica are mapped: neither is retired (21 R395). -/
def State.replicaMapped (s : State) (r : Region) : Bool := s.own r.frame && s.own r.weightPa

def State.slotVal (s : State) (r : Region) (j : Nat) : Word := s.read64 (r.slotPa j)

def State.weight (s : State) (r : Region) : Word := s.read64 r.weightPa

/-- RoundNE(S x 2^(62 - F) / w, FP64) (R357). -/
def estimate (sum : Int) (frac : Nat) (w : Word) : Nat :=
  if w == 0 then
    if sum = 0 then fp64.nan else fp64.inf (sum < 0)
  else if sum = 0 then fp64.zero false
  else (fp64.quotient .rne (sum < 0) sum.natAbs (62 - (frac : Int)) w.toNat 0).1

/-- The probe of a replica (R357). -/
def State.replicaProbe (s : State) (r : Region) : BitVec 64 :=
  BitVec.ofNat 64
    (estimate ((List.range 512).foldl (fun a j => a + (s.slotVal r j).toInt) (0 : Int)) r.frac (s.weight r))

/-- The index under which State keeps SEQOUT toward neighbour `n`: SEQOUT belongs to a device, and NB may name one more
than once (R350). -/
def Region.outIx (r : Region) (n : Nat) : Nat :=
  if n < r.nb.length then (r.nb.findIdx? (· == r.nb.getD n 0)).getD n else n

/-- The device keeps the RO fields of a descriptor current in memory (R347). -/
def State.syncRegion (s : State) (i : Nat) : State :=
  let r := s.region i
  let base := s.gspBase + 256 * i
  let s := s.deviceWrite (base + 0x28) (leBytes 8 r.step.toNat ++ leBytes 8 r.done.toNat ++ leBytes 8 r.recalled.toNat)
  (List.range 8).foldl (fun s n =>
    s.deviceWrite (base + 0x40 + 24 * n)
      (leBytes 4 (r.seqout.getD (r.outIx n) 0).toNat ++ leBytes 4 (r.seqin.getD n 0).toNat
        ++ leBytes 8 (r.probe.getD n 0).toNat ++ leBytes 8 (r.time.getD n (BitVec.allOnes 64)).toNat)) s

def State.onRegion (s : State) (i : Nat) (f : Region → Region) : State :=
  (s.setRegion i (f (s.region i))).syncRegion i

/-- Adds a half and its weight into a replica, as one change. -/
def State.addHalf (s : State) (r : Region) (vals : List Word) (w : Word) : State :=
  let s := vals.zipIdx.foldl (fun s (h, j) => if h == 0 then s else s.write64 (r.slotPa j) (s.slotVal r j + h)) s
  if w == 0 then s else s.write64 r.weightPa (s.weight r + w)

/-! ### Steps (R353) -/

/-- An operation that stands saved and whose steps on a region are all complete is DONE: it reads so, its FORWARD entry is
reclaimable and its counter is decremented (13 R267, R275, R364). A cancel that is pending goes first (R264). -/
def State.finishSaved (s : State) (i : Nat) : State :=
  s.savedOps.foldl (fun s (c, e, op) =>
    match (s.token c e).use with
    | .forwardSaved a va _ =>
      if op.isStep && op.started && op.state == .parked && !op.cancel && op.dst.toNat == i && op.len ≤ op.cursor
          && op.first + op.len ≤ (s.region i).done.toNat then
        let s := s.setToken c e { s.token c e with use := .forwardSaved a va { op with state := .done }, final := s.turn }
        if op.lk == .counter then s.setDep op.link ((s.dep op.link).sub 1) else s
      else s
    | _ => s) s

/-- Half of the step in hand is resolved and what must come in for it has: the step is complete. -/
def State.completeStep (s : State) (i : Nat) (returned : Bool) : State :=
  let r := s.region i
  let cur := r.step - 1
  if !r.mode || r.done == r.step then s
  else if returned || (r.stepAcked && r.stepIn.contains cur) then
    (s.onRegion i fun r =>
      { r with done := cur + 1, stepAcked := false, stepIn := r.stepIn.filter fun x => cur.toNat < x.toNat }).finishSaved i
  else s

/-- A resolved half counts for the operation that took it, wherever that stands now (R364). -/
def State.resolvedFor (s : State) (h : Option Word) : State :=
  let bump := fun (op : Op) => { op with delivered := op.delivered + 1 }
  match h with
  | none => s
  | some h =>
    match s.resolveToken 0 true h with
    | .live c e op => s.setOp c e (bump op)
    | .saved c e op =>
      match (s.token c e).use with
      | .forwardSaved a va _ => s.setToken c e { s.token c e with use := .forwardSaved a va (bump op) }
      | _ => s
    | _ => s

/-- A held half returns to its sender (R352). -/
def State.returnHalf (s : State) (h : HeldHalf) (seq : BitVec 32) : State :=
  let s := { s with heldHalves := s.heldHalves.filter fun x => x != h }
  let s := s.addHalf (s.region h.region) h.vals h.weight
  let s := s.onRegion h.region fun r => { r with seqout := r.seqout.set h.k seq }
  let s := s.resolvedFor h.op
  if h.step == (s.region h.region).step - 1 then s.completeStep h.region true else s

/-- DISARM completes when no half of the region is held (R348). -/
def State.finishDisarm (s : State) (i : Nat) : State :=
  if (s.region i).disarming && !s.heldHalves.any fun h => h.region == i then
    s.onRegion i fun r => { r with disarming := false }
  else s

/-- GSPSTAT.BUSY: the last ARM, DISARM or abandonment is a DISARM in progress (Table 18-1). -/
def State.gspBusy (s : State) : Bool := s.gspLast.any fun i => (s.region i).disarming

/-! ### Receiving (R351) -/

/-- Answers to a half or a recall. -/
inductive HalfAnswer where
  | ack | nack (n : BitVec 32) | recalled (n : BitVec 32)
  deriving DecidableEq, Repr

def State.answerHalf (s : State) (q r : Nat) (seq : BitVec 32) (a : HalfAnswer) : State :=
  match a with
  | .ack => s.send (.halfAnswer q r 0 seq 0)
  | .nack n => s.send (.halfAnswer q r 1 seq n)
  | .recalled n => s.send (.halfAnswer q r 2 seq n)

/-- Table 18-3. The half is accepted, answered, discarded or held unanswered. -/
def State.receiveHalf (s : State) (h : HalfPkt) : State :=
  let r := s.region h.region
  match r.nb.findIdx? (· == h.src) with
  | none => s.answerHalf h.src h.region h.seq (.nack 0)
  | some k =>
    let seqin := r.seqin.getD k 0
    if !r.armed then s.answerHalf h.src h.region h.seq (.nack 0)
    else if (s.route h.src).down || h.stepped != r.mode then s.answerHalf h.src h.region h.seq (.nack seqin)
    else if h.seq == seqin then
      s.answerHalf h.src h.region h.seq (if r.recalled.getLsbD k then .recalled seqin else .ack)
    else if h.seq != seqin + 1 then s
    else if r.mode && r.step.toNat ≤ h.step.toNat then { s with waitingHalves := s.waitingHalves ++ [h] }
    else
      let s := s.addHalf r h.vals h.weight
      let s := s.onRegion h.region fun r =>
        { r with seqin := r.seqin.set k h.seq, recalled := r.recalled &&& ~~~(BitVec.twoPow 8 k),
                 probe := r.probe.set k h.probe, time := r.time.set k (BitVec.ofNat 64 s.time),
                 stepIn := if r.mode && r.nb.getD (h.step.toNat % r.nb.length) 1024 == h.src then r.stepIn ++ [h.step]
                           else r.stepIn }
      (s.answerHalf h.src h.region h.seq .ack).completeStep h.region false

/-- Halves held unanswered for a region are tested again from row 1. -/
def State.retestHalves (s : State) (i : Nat) : State :=
  let hs := s.waitingHalves.filter fun h => h.region == i
  let s := { s with waitingHalves := s.waitingHalves.filter fun h => h.region != i }
  hs.foldl (fun s h => s.receiveHalf h) s

/-! ### Taking (R350) -/

/-- One take, for an operation or for the shuttle's own period. -/
def State.take (s : State) (i : Nat) (op : Option Word) : State :=
  let r := s.region i
  let k := r.outIx (r.step.toNat % r.nb.length)
  let p := r.nb.getD k 0
  let probe := s.replicaProbe r
  let vals := (List.range 512).map fun j => (s.slotVal r j).sshiftRight 1
  let w := s.weight r
  let hw := w >>> 1
  let s := vals.zipIdx.foldl (fun s (h, j) => if h == 0 then s else s.write64 (r.slotPa j) (s.slotVal r j - h)) s
  let s := if hw == 0 then s else s.write64 r.weightPa (w - hw)
  let seq := r.seqout.getD k 0 + 1
  let h : HeldHalf := ⟨i, p, k, r.step, seq, vals, hw, s.time, op⟩
  let s := s.onRegion i fun r => { r with seqout := r.seqout.set k seq, step := r.step + 1 }
  let s := if (s.route p).down || (s.upPorts p).isEmpty then s.returnHalf h (seq - 1)
    else
      { s with heldHalves := s.heldHalves ++ [h] }.send
        (.half i k ⟨s.domId, i, h.step, seq, r.mode, probe, vals, hw⟩)
  s.retestHalves i

/-- The held half that an answer names. -/
def State.heldHalf (s : State) (r p : Nat) (n : BitVec 32) : Option HeldHalf :=
  s.heldHalves.find? fun h => h.region == r && h.k == p && h.seq == n

/-! ### The shuttle's events -/

def execHalf (h : HalfPkt) (s : State) : Out :=
  happen (.half h) s fun s => if s.linked then s.receiveHalf h else s

/-- HALF_ACK (R352). -/
def execHalfAck (r p : Nat) (n : BitVec 32) (s : State) : Out :=
  happen (.halfAck r p n) s fun s =>
    match s.heldHalf r p n with
    | none => s
    | some h =>
      let x := s.region r
      let s := { s with heldHalves := s.heldHalves.filter fun y => y != h }
      let s := s.resolvedFor h.op
      let c := match h.op with | some x => handleCore x | none => Config.choice 4 s.turn % Config.cores
      let s := (s.count c x.asid 12 1).alive x.asid
      let s := if x.mode && h.step == x.step - 1 then
          (s.onRegion r fun y => { y with stepAcked := true }).completeStep r false
        else s
      s.finishDisarm r

/-- A refusal or a recalled half: the half returns (R352). -/
def State.returned (s : State) (r p : Nat) (n seqin : BitVec 32) : State :=
  match s.heldHalf r p n with
  | none => s
  | some h => (s.returnHalf h seqin).finishDisarm r

def execHalfNack (r p : Nat) (n seqin : BitVec 32) (s : State) : Out :=
  happen (.halfNack r p n seqin) s fun s => s.returned r p n seqin

def execHalfRecalled (r p : Nat) (n seqin : BitVec 32) (s : State) : Out :=
  happen (.halfRecalled r p n seqin) s fun s => s.returned r p n seqin

/-- RECALL_SEND (R352): a half without an answer for 2^TMOEXP ns is asked back. -/
def execRecallSend (r p : Nat) (n : BitVec 32) (s : State) : Out :=
  happen (.recallSend r p n) s fun s =>
    match s.heldHalf r p n with
    | none => s
    | some h =>
      if s.time < h.sent + 2 ^ s.tmoexp || (s.upPorts h.peer).isEmpty then s
      else
        { s with heldHalves := s.heldHalves.map fun y => if y == h then { y with sent := s.time } else y }.send
          (.recall h.peer r h.step n)

/-- RECALL from device `q` (R352). -/
def execRecall (r q : Nat) (st : BitVec 64) (n : BitVec 32) (s : State) : Out :=
  happen (.recall r q st n) s fun s =>
    let x := s.region r
    if !s.linked then s else
    match (if x.armed then x.nb.findIdx? (· == q) else none) with
    | none => s.answerHalf q r n (.recalled 0)
    | some k =>
      let seqin := x.seqin.getD k 0
      if n == seqin && !x.recalled.getLsbD k then s.answerHalf q r n .ack
      else if n == seqin + 1 then
        let s := { s with waitingHalves := s.waitingHalves.filter fun h => !(h.region == r && h.src == q && h.seq == n) }
        let s := s.onRegion r fun y =>
          { y with seqin := y.seqin.set k n, recalled := y.recalled ||| BitVec.twoPow 8 k,
                   stepIn := if y.mode && y.done.toNat ≤ st.toNat && y.nb.getD (st.toNat % y.nb.length) 1024 == q then
                       y.stepIn ++ [st]
                     else y.stepIn }
        (s.answerHalf q r n (.recalled n)).completeStep r false
      else s.answerHalf q r n (.recalled seqin)

/-- GOSSIP_PERIOD (R354). Nothing is taken from a replica with a retired frame (21 R395). -/
def execGossipPeriod (r : Nat) (s : State) : Out :=
  happen (.gossipPeriod r) s fun s =>
    let x := s.region r
    if !x.armed || x.mode || !s.replicaMapped x || s.heldHalves.any (fun h => h.region == r) || s.time < x.lastTake + 1000 * x.period then s
    else (s.onRegion r fun y => { y with lastTake := s.time }).take r none

/-! ### Arming (R348, R355) -/

/-- A descriptor is malformed (R348). -/
def State.badDescriptor (s : State) (ctl va frame : Word) (nbs : List (BitVec 16)) : Bool :=
  let nnb := (ctl.extractLsb' 16 4).toNat
  !ctl.getLsbD 0 || ctl.extractLsb' 2 6 != 0 || ctl.extractLsb' 14 2 != 0 || ctl.extractLsb' 20 12 != 0
    || nnb < 1 || 8 < nnb || va.extractLsb' 0 13 != 0 || va.extractLsb' 57 7 != 0 || frame.extractLsb' 0 13 != 0
    || (nbs.zipIdx.any fun (x, n) => x.extractLsb' 10 6 != 0 || (decide (nnb ≤ n) && x != 0)
          || (decide (n < nnb) && x.toNat == s.domId))
    || (!ctl.getLsbD 1 && ctl.extractLsb' 48 16 == 0)
    || !s.own frame.toNat || !s.own (frame.toNat + 4096)

def execGsparmArm (r : Nat) (s : State) : Out :=
  reachBar (.gsparmArm r) s fun s =>
    let base := s.gspBase + 256 * r
    let ctl := s.device64 base
    let va := s.device64 (base + 8)
    let frame := s.device64 (base + 16)
    let nbs := (List.range 8).map fun n => BitVec.ofNat 16 (leNat (s.deviceRead (base + 24 + 2 * n) 2))
    let asid := (ctl.extractLsb' 32 16).toNat
    let nnb := (ctl.extractLsb' 16 4).toNat
    let clash := s.regions.any fun (j, x) =>
      j != r && x.armed && ((x.va == va && x.asid == asid) || x.frame == frame.toNat)
    let s := { s with gspLast := none }
    if s.badDescriptor ctl va frame nbs then { s with gspErr := 1 }
    else if clash then { s with gspErr := 2 }
    else
      { s with gspErr := 0 }.onRegion r fun _ =>
        { armed := true, mode := ctl.getLsbD 1, frac := (ctl.extractLsb' 8 6).toNat,
          nb := (nbs.take nnb).map BitVec.toNat, asid := asid, period := (ctl.extractLsb' 48 16).toNat, va := va,
          frame := frame.toNat, step := 0, done := 0, recalled := 0, seqout := List.replicate 8 0,
          seqin := List.replicate 8 0,
          probe := (List.range 8).map fun n => s.device64 (base + 0x48 + 24 * n),
          time := List.replicate 8 (BitVec.allOnes 64), lastTake := s.time, disarming := false,
          stepAcked := false, stepIn := [] }

/-- The operations on a region that is disarmed become FAULTED at their next quiescent point (R364). -/
def State.disarmOps (s : State) (r : Nat) : State :=
  let f := fun (op : Op) => if op.isStep && op.dst.toNat == r && !op.state.final then { op with disarmed := true } else op
  { s with cores := s.cores.mapAll fun _ k => { k with tokens := k.tokens.mapAll fun _ t =>
      match t.use with
      | .live op => { t with use := .live (f op) }
      | .forwardSaved a va op => { t with use := .forwardSaved a va (f op) }
      | _ => t } }

/-- DISARM: no further take, every arriving half refused (R348). -/
def execGsparmDisarm (r : Nat) (s : State) : Out :=
  reachBar (.gsparmDisarm r) s fun s =>
    let s := { s with gspLast := some r }
    if !(s.region r).armed then s
    else
      let s := s.onRegion r fun x => { x with armed := false, disarming := true }
      ((s.disarmOps r).retestHalves r).finishDisarm r

/-- GSPABANDON: every half held toward a device returns (R355). -/
def execGspabandon (d : Nat) (s : State) : Out :=
  reachBar (.gspabandon d) s fun s =>
    let s := { s with gspLast := none }
    (s.heldHalves.filter fun h => h.peer == d).foldl (fun s h =>
      (s.returnHalf h ((s.region h.region).seqout.getD h.k 0 - 1)).finishDisarm h.region) s

/-! ### Finding a region (R349) -/

/-- The armed region of a context at a virtual address and a frame. -/
def State.regionAt (s : State) (asid va frame : Nat) : Option Nat :=
  s.regions.findSome? fun (i, r) =>
    if r.armed && r.asid == asid && r.va.toNat == va && r.frame == frame then some i else none

/-- The region that an address of a group names and the offset in it, which a test accepts: ALIGN, the walk and the
checks of R195, the region (R349), the offset, the frames of a replica that is read whole (`all`; 21 R395), then the watches
(R199), and last the bits of the leaf. -/
def State.gspCheck (s : State) (va : Word) (acc : Access) (all : Bool) (ok : Nat → Bool) : State × Res (Nat × Nat) :=
  let a := s.agent s.cur.core s.cur.gslot s.cur.slot
  if va.toNat % 8 != 0 then (s, .no Cause.align)
  else
    match s.probe a va acc true with
    | (s, .ok w) =>
      let off := va.toNat % 0x2000
      if eClass w.leaf.entry != 1 || w.pa < off then (s, .no Cause.permission)
      else
        match s.regionAt s.me.asid (va.toNat - off) (w.pa - off) with
        | none => (s, .no Cause.permission)
        | some i =>
          if !ok off || (all && !s.replicaMapped (s.region i)) then (s, .no Cause.permission)
          else if s.watched s.cur.core s.me.asid s.myTeam.tid va.toNat 8 acc then (s, .no Cause.watchpoint)
          else
            match s.translate a va acc true with
            | (s, .ok _) => (s, .ok (i, off))
            | (s, r) => (s, r.bind fun _ => .ok (i, off))
    | (s, r) => (s, r.bind fun _ => .ok (0, 0))

/-- A lane, its address and the region and offset that it names. -/
structure GspLane where
  lane : Nat
  ea : Word
  res : Res (Nat × Nat)
  deriving DecidableEq, Repr

def State.gspLanes (s : State) (ea : Nat → Word) (acc : Access) (ok : Nat → Bool) : List Nat → State × List GspLane
  | [] => (s, [])
  | l :: ls =>
    let (s, r) := s.gspCheck (ea l) acc (acc == .read) ok
    let (s, rs) := State.gspLanes s ea acc ok ls
    (s, ⟨l, ea l, r⟩ :: rs)

/-- What the lanes of a gossip access wait for. -/
def State.gspAsk (s : State) (ls : List GspLane) : State × Bool :=
  ls.foldl (fun (s, w) l =>
    match l.res with
    | .need want op => (s.askSlot s.cur.core s.cur.gslot s.cur.slot want op, true)
    | _ => (s, w)) (s, false)

def gspRefused (ls : List GspLane) : List LaneTrap :=
  ls.filterMap fun l => match l.res with | .no c => some ⟨l.lane, c, l.ea⟩ | _ => none

def gspPassed (ls : List GspLane) : List (Nat × Nat × Nat) :=
  ls.filterMap fun l => match l.res with | .ok (i, off) => some (l.lane, i, off) | _ => none

/-- A per-lane gossip access: the checks of every active lane, then `f` on the lanes that pass. -/
def gspOp (i : Instr) (o : GspOp) (acc : Access) (ok : Nat → Bool)
    (f : Group → State → List (Nat × Nat × Nat) → State) (s : State) : Out :=
  issue i o.g s fun act =>
    let g := s.me
    let (s, ls) := s.gspLanes (fun l => g.ea .g l o.a o.x) acc ok (lanes act)
    let (s, waits) := s.gspAsk ls
    if waits then s.reissue
    else s.step1 i (gspRefused ls) acc false fun s => f g s (gspPassed ls)

/-- `gsp.inj` (R360). -/
def execGspInj (o : GspOp) (s : State) : Out :=
  gspOp (.gspInj o) o .write (fun off => off ≤ 0x1000) (fun g s ls =>
    ls.foldl (fun s (l, i, off) =>
      let pa := (s.region i).frame + off
      s.write64 pa (s.read64 pa + g.src64 l o.b)) s) s

/-- `gsp.rd` (R361). -/
def execGspRd (o : GspOp) (s : State) : Out :=
  gspOp (.gspRd o) o .read (fun off => off ≤ 0xFF8) (fun _ s ls =>
    let vals := ls.map fun (l, i, off) =>
      let r := s.region i
      (l, BitVec.ofNat 128 (estimate (s.read64 (r.frame + off)).toInt r.frac (s.weight r)))
    s.onMe fun x => x.putAll o.d 64 vals) s

/-- `gsp.mass` (R361): v in the low pair, w in the high pair. -/
def execGspMass (o : GspOp) (s : State) : Out :=
  gspOp (.gspMass o) o .read (fun off => off ≤ 0xFF8) (fun _ s ls =>
    let vals := ls.map fun (l, i, off) => (l, s.weight (s.region i) ++ s.read64 ((s.region i).frame + off))
    s.onMe fun x => x.putAll o.d 128 vals) s

/-- The difference of a neighbour's probe (R362). -/
def spreadOf (p q t : BitVec 64) : Nat :=
  if t == BitVec.allOnes 64 then fp64.inf false
  else if (fp64.read p.toNat).isNan || (fp64.read q.toNat).isNan then fp64.nan
  else (fp64.sub .rne p.toNat q.toNat).1 % 2 ^ 63

/-- The age of a neighbour's probe. -/
def ageOf (now : Nat) (t : BitVec 64) : Nat :=
  if t == BitVec.allOnes 64 then 2 ^ 64 - 1 else (now - t.toNat) % 2 ^ 64

/-- The neighbour that gives the result of `gsp.spread` into a scalar: the lowest with a NaN, else the lowest with the
largest difference. -/
def spreadMax (ds : List Nat) : Nat :=
  match ds.findIdx? fun d => (fp64.read d).isNan with
  | some n => n
  | none => (ds.zipIdx.foldl (fun (b : Nat × Nat) d => if b.1 < d.1 then d else b) (ds.headD 0, 0)).2

/-- `gsp.spread` (R362). -/
def execGspSpread (o : GspOp) (s : State) : Out :=
  issue (.gspSpread o) o.g s fun act =>
    let ea := s.me.ea .g (lowest act) o.a o.x
    match s.gspCheck ea .read true (fun _ => true) with
    | (s, .no cause) => s.raise (.gspSpread o) act cause ea .read
    | (s, .need w op) => s.awaitWant w op
    | (s, .away l t) => (s.needTeam l t).reissue
    | (s, .ok (i, _)) =>
      let r := s.region i
      let p := s.replicaProbe r
      let ds := (List.range r.nb.length).map fun n => spreadOf p (r.probe.getD n 0) (r.time.getD n 0)
      let as := (r.time.take r.nb.length).map (ageOf s.time)
      let xs := if o.age then as else ds
      let v := fun (l : Nat) => if dk o.d then xs.getD (spreadMax ds) 0 else if l < r.nb.length then xs.getD l 0 else 0
      (s.onMe fun x => x.perLane o.d 64 act fun l => BitVec.ofNat 128 (v l)).advance (.gspSpread o)

/-- `gsp.step` (R363). -/
def execGspStep (o : EngOp2) (s : State) : Out :=
  issue (.gspStep o) o.g s fun act =>
    let ea := s.me.opt o.a
    match s.gspCheck ea .read false (fun _ => true) with
    | (s, .no cause) => s.raise (.gspStep o) act cause ea .read
    | (s, .need w op) => s.awaitWant w op
    | (s, .away l t) => (s.needTeam l t).reissue
    | (s, .ok (i, _)) =>
      let n := s.me.engCount o
      let k := s.me.opt o.opk
      let op := { s.newOp 0xC3 o.fn o.fp with
        dst := BitVec.ofNat 64 i, src := (s.region i).va, len := n.toNat, lk := o.lk, link := linkOf o.lk k,
        prio := o.pri.toNat, hold := o.hold }
      s.issueOp (.gspStep o) act o.d o.opp o.det op
        [if (s.region i).mode then none else some (Cause.resource, 0), checkN o n] [s.checkLink o.lk k []]

/-- An earlier `gsp.step` on the region goes first (R363): one of the same group until it is final, one of another group
until it has taken all its steps or is final. The device receives an operation as it is issued (log 34). -/
def State.stepFirst (s : State) (op : Op) : Bool :=
  (s.allOps ++ s.savedOps).any fun (_, _, x) =>
    x.isStep && x.dst == op.dst && decide (x.order < op.order) && !x.state.final
      && ((x.launch == op.launch && x.tid == op.tid && x.byGroup == op.byGroup) || decide (x.cursor < x.len))

/-- A `gsp.step` at a quiescent point (R363, R364). A take from a replica with a retired frame is refused (21 R395). -/
def State.tryTake (s : State) (c e : Nat) (op : Op) : State :=
  let i := op.dst.toNat
  let r := s.region i
  if op.disarmed || !r.armed || r.va != op.src || r.asid != op.asid then
    (s.setOp c e { op with disarmed := false }).refuseUnit c e Cause.resource op.src op.cursor
  else if op.len ≤ op.cursor then
    if op.first + op.len ≤ r.done.toNat then s.endOp c e .done else s
  else if (op.cursor = 0 && s.stepFirst op) || r.done != r.step then s
  else if !s.replicaMapped r then
    s.refuseUnit c e Cause.permission (if s.own r.frame then op.src + 0x1000 else op.src) op.cursor
  else
    let op := { op with cursor := op.cursor + 1, first := if op.cursor = 0 then r.step.toNat else op.first }
    (s.setOp c e op).take i (some op.handle)

end Sys2Proof.Machine
end

