-- ==== Sys2Proof/Machine/Ending.lean ====
section
/-! DEFINITION. The ends of lanes, groups and teams (05 R99, R100; 13 R272 to R274). -/

namespace Sys2Proof.Machine

open Sys2Proof

/-- The GROUPERR messages of a group's records (12 R245, 16 R335): the deferred failures, then the fabric error. -/
def State.groupErrors (s : State) (c g : Nat) : List Msg :=
  let x := s.group c g
  let t := s.team c x.team
  let m := fun (cause : BitVec 8) (mask : Mask) (addr : Word) =>
    ({ kind := .groupErr, cause := cause, asid := x.asid, seq := 0, addr := addr, mask := mask, core := c,
       index := 0xFFFF, tid := t.tid, group := x.number, access := 0, launch := t.launch, pc := 0 } : Msg)
  (if x.defMask == 0 then [] else [m Cause.deferredReduction x.defMask x.defAddr])
    ++ (if x.fabPend then [m Cause.remoteTimeout 0 x.fabAddr] else [])

/-- The group's messages wait for the ring, and its records are discarded. -/
def State.postErrors (s : State) (c g : Nat) : State :=
  let ms := s.groupErrors c g
  let s := ms.foldl (fun s m => s.addMsg (s.group c g).asid m) s
  s.onGroup c g fun x => { x with defMask := 0, defAddr := 0, fabPend := false, fabAddr := 0 }

/-- A GROUPERR message of the group has not been written yet. -/
def State.errorsWait (s : State) (c g : Nat) : Bool :=
  let x := s.group c g
  let t := s.team c x.team
  (s.ctx x.asid).msgs.any fun m =>
    m.kind == .groupErr && m.core == c && m.tid == t.tid && m.group == x.number && m.launch == t.launch

/-- The group is the last of its team that has not ended. -/
def State.lastGroup (s : State) (c g : Nat) : Bool := (s.groupsOf c (s.group c g).team).all fun e => e.1 == g

/-- The operations attached to a team: core, entry, operation. -/
def State.attachedOps (s : State) (launch : Word) (tid : Nat) : List (Nat × Nat × Op) :=
  s.allOps.filter fun (_, _, op) => !op.detached && op.launch == launch && op.tid == tid

/-- Nothing holds the team back: every attached operation is final and no operation holds its tiles. -/
def State.teamQuiet (s : State) (c t : Nat) : Bool :=
  let x := s.team c t
  (s.attachedOps x.launch x.tid).all (fun (_, _, op) => op.state.final) && x.holds.isEmpty

/-- What stands between a group without lanes and its end, as far as it can be done now: whether it may end. -/
def State.tryEnd (s : State) (c g : Nat) : State × Bool :=
  if (s.group c g).unacknowledged != 0 then (s, false)
  else
    let s := s.release c g
    if !s.released c g then (s, false)
    else
      let s := s.postErrors c g
      (s, !s.errorsWait c g && (!s.lastGroup c g || s.teamQuiet c (s.group c g).team))

/-- A detached operation that is not yet reclaimable becomes an orphan (R274). -/
def State.makeOrphans (s : State) (launch : Word) (tid : Nat) : State :=
  s.allOps.foldl (fun s (c, e, op) =>
    let a := op.asid
    let queue := fun (s : State) => s.onCtx a fun x => { x with orphans := x.orphans ++ [(c, e)] }
    if op.detached && op.byGroup != 0xFF && op.launch == launch && op.tid == tid && !op.orphan && !s.reclaimable c e then
      let s := s.setOp c e { op with orphan := true }
      if op.state.final then s.setToken c e { s.token c e with final := s.turn } else queue s
    else if op.orphan && op.adopter == some (launch.toNat, tid) && !op.state.final then
      queue (s.setOp c e { op with adopter := none })
    else s) s

/-- The team ends: scratchpad and token entries are returned, orphans are made, the launch counts it (R100). -/
def State.endTeam (s : State) (c t : Nat) : State :=
  let x := s.team c t
  let s := s.makeOrphans x.launch x.tid
  let s := (s.attachedOps x.launch x.tid).foldl (fun s (c', e, _) =>
    (s.forwardsEnd c' e).setToken c' e { s.token c' e with use := .free }) s
  let s := s.onCtx x.asid fun y =>
    if y.adopter == some (x.launch.toNat, x.tid) then { y with adopter := none } else y
  let s := s.onCore c fun k => { k with teams := k.teams.erase t }
  { s with launches := s.launches.map fun (l : Launch) => if l.id == x.launch then { l with ended := l.ended + 1 } else l }

/-- Numbers outside the group slots under which State holds what ended groups keep: as many as a core has accumulators
and streams (log 33). -/
def Core.endedKeys (k : Core) : List Nat :=
  ((List.range 80).map (Config.supervisorSlot + 1 + ·)).filter fun i => !(k.groups.get .none i).keeps

/-- The accumulators and streams that a group keeps at its end stand beside the group slots, with the operations that name
them, and its group slot is free (R100). -/
def State.moveUnits (s : State) (c g : Nat) : State :=
  let x := s.group c g
  let move := fun (i : Nat) (_ : Nat) (t : TokEntry) =>
    match t.use with
    | .live op => if op.byGslot == g && !op.state.final then { t with use := .live { op with byGslot := i } } else t
    | _ => t
  match (if x.keeps then (s.core c).endedKeys else []) with
  | [] => s.setGroup c g .none
  | i :: _ =>
    (s.onCore c fun k => { k with groups := k.groups.set i x, tokens := k.tokens.mapAll (move i) }).setGroup c g .none

/-- A group ends: what stands on its stack is discarded, its slot and registers return to the pools, and with the last
one the team ends (R100). -/
def State.endGroup (s : State) (c g : Nat) : State :=
  let x := s.group c g
  let s := (s.disownGroup c g).setGroup c g { Group.none with
    asid := x.asid, team := x.team, number := x.number, accHeld := x.accHeld, acc := x.acc, strHeld := x.strHeld,
    streams := x.streams }
  let s := (s.dropUnits c g).moveUnits c g
  let s := s.onTeam c x.team fun t => { t with ended := t.ended ++ [x.number] }
  if (s.groupsOf c x.team).isEmpty then s.endTeam c x.team else s.checkTeamBarrier c x.team

/-- Asks the fabric for the stack entries of a group that cannot be read without it; a refusal is asked again. -/
def State.askStack (s : State) (c g : Nat) : State :=
  (List.range (s.group c g).depth).foldl (fun s i =>
    match s.peekStack c g i with
    | .need w o => s.askService c w o
    | .no _ => s.onCore c fun k => { k with got := [] }
    | _ => s) s

/-- Tries to end a group that has no lanes left. -/
def State.endIfEmpty (s : State) (c g : Nat) : State :=
  if !(s.group c g).live || (s.group c g).slot0.state != .empty || (s.group c g).slot1.state != .empty then s
  else if !s.allExited c g then s.askStack c g
  else
    match s.tryEnd c g with
    | (s, true) => s.endGroup c g
    | (s, false) => s

/-- `exit` (R99). The lane that ends its group waits in its slot until the group may end (R100). -/
def execExit (g : Guard) (s : State) : Out :=
  issue (.exit g) g s fun act =>
    let c := s.cur.core
    let gs := s.cur.gslot
    let rest := s.mySlot.mask &&& ~~~act
    let parts := if rest == 0 then [] else [s.mySlot.go (s.nextPc (.exit g)) rest s.turn]
    if rest != 0 || !(s.onMe fun x => x.setSlot s.cur.slot .empty).allExited c gs then s.finish { parts := parts } id
    else
      match s.tryEnd c gs with
      | (s, false) => s.reissue
      | (s, true) => s.retire.endGroup c gs

/-- TEAM_END: the groups of a team whose lanes have all gone end, as far as they may. -/
def execTeamEnd (core teamIx : Nat) (s : State) : Out :=
  happen (.teamEnd core teamIx) s fun s =>
    (s.groupsOf core teamIx).foldl (fun s (g, _) => s.endIfEmpty core g) s

end Sys2Proof.Machine
end

