-- ==== Sys2Proof/Machine/Record.lean ====
section
/-! DEFINITION. The save record of a team: its layout, written and read (06 R126, Tables 6-13, 6-14; 13 Table 13-4; 15
Table 15-6), and accesses to the slipway. -/

namespace Sys2Proof.Machine

open Sys2Proof

/-! ### Virtual accesses of the supervisor (R126, R168) -/

/-- The supervisor of a core, accessing memory for a context: with privilege, in the context's translation, with the
answers that the core's service has received. -/
def State.svcAgent (s : State) (c a : Nat) : Agent := ⟨c, a, true, (s.core c).got, 0⟩

/-- A service of a core is over: what it received is used up. -/
def State.svcDone (s : State) (c : Nat) : State := s.onCore c fun k => { k with got := [] }

/-- The pieces of a span of bytes within 32-byte sectors, on fuel. -/
def pieces : Nat → Word → Nat → List (Word × Nat)
  | 0, _, _ => []
  | k + 1, va, n =>
    if n = 0 then []
    else
      let m := min n (32 - va.toNat % 32)
      (va, m) :: pieces k (va + BitVec.ofNat 64 m) (n - m)

/-- Translates pieces, up to the first that cannot be had now. -/
def State.places (s : State) (a : Agent) (acc : Access) : List (Word × Nat) → State × Res (List (Nat × Nat))
  | [] => (s, .ok [])
  | (va, n) :: ps =>
    match s.translate a va acc with
    | (s, .no x) => (s, .no x)
    | (s, .need w o) => (s, .need w o)
    | (s, .away l t) => (s, .away l t)
    | (s, .ok w) =>
      match State.places s a acc ps with
      | (s, .ok r) => (s, .ok ((w.pa, n) :: r))
      | r => r

/-- Writes bytes over places. -/
def State.writePlaces (s : State) : List (Nat × Nat) → List Byte → State
  | [], _ => s
  | (pa, n) :: ps, bs => State.writePlaces (s.deviceWrite pa (bs.take n)) ps (bs.drop n)

/-- Reads places; a peer line must have come over the fabric. -/
def State.readPlaces (s : State) (a : Agent) : List (Nat × Nat) → Res (List Byte)
  | [] => .ok []
  | (pa, n) :: ps =>
    (s.peerLine a pa).bind fun line =>
      match s.below pa n line with
      | some bs => (State.readPlaces s a ps).bind fun r => .ok (bs ++ r)
      | none => .no Cause.remoteTimeout

/-- Writes bytes at a virtual address once every piece is translated. -/
def State.store (s : State) (a : Agent) (va : Word) (bs : List Byte) : State × Res Unit :=
  match s.places a .write (pieces (bs.length + 1) va bs.length) with
  | (s, .ok ps) => (s.writePlaces ps bs, .ok ())
  | (s, r) => (s, r.bind fun _ => .ok ())

/-- Reads bytes at a virtual address. -/
def State.fetch (s : State) (a : Agent) (va : Word) (n : Nat) : State × Res (List Byte) :=
  match s.places a .read (pieces (n + 1) va n) with
  | (s, .ok ps) => (s, s.readPlaces a ps)
  | (s, r) => (s, r.bind fun _ => .ok [])

/-! ### Writing a record -/

def zeros (n : Nat) : List Byte := List.replicate n 0

/-- Fills a section to a multiple of `m` bytes. -/
def padded (m : Nat) (bs : List Byte) : List Byte := bs ++ zeros ((m - bs.length % m) % m)

/-- A slot in the layout of Table 3-3; EMPTY as KIND 0. -/
def Slot.bytes (x : Slot) : List Byte := if x.state == .empty then zeros 32 else x.entry.bytes

/-- Slot `n` of the group in group slot `g` comes before another in the order of step 4 of R53: ready for longer, then
the lower group slot, then slot 0. -/
def before4 (x : Slot) (g n : Nat) (y : Slot) (g' n' : Nat) : Bool :=
  x.since < y.since || (x.since == y.since && (g < g' || (g == g' && n < n')))

/-- The ready rank of slot `n` of the group in group slot `g` among the ready slots of its team (R127). -/
def rankOf (team : List (Nat × Group)) (g n : Nat) (x : Slot) : Word :=
  if x.state != .ready then BitVec.allOnes 64
  else
    BitVec.ofNat 64 ((team.flatMap fun (g', y) => [(g', 0, y.slot0), (g', 1, y.slot1)]).filter fun (g', n', y) =>
      y.state == .ready && before4 y g' n' x g n).length

/-- The values of a key range as 4-byte words. -/
def words32 (st : Store Lane32) (base n : Nat) : List Byte := (st.getList 0 base n).flatMap fun x => leBytes 4 x.toNat

/-- The record of the group in a group slot (Table 6-14). A group that has ended has A = 0 and no lanes. -/
def Group.record (g : Group) (gslot : Nat) (team : List (Nat × Group)) : List Byte :=
  g.slot0.bytes ++ g.slot1.bytes ++ leBytes 2 g.depth ++ leBytes 2 g.pool ++ leBytes 1 g.accHeld.toNat
    ++ leBytes 1 g.strHeld.toNat ++ zeros 2 ++ leBytes 8 g.fpctl.toNat ++ leBytes 8 (if g.sstep then 1 else 0)
    ++ leBytes 8 g.defAddr.toNat ++ leBytes 4 g.defMask.toNat ++ zeros 4 ++ leBytes 8 g.fabAddr.toNat
    ++ leBytes 4 (if g.fabPend then 1 else 0) ++ zeros 4 ++ leBytes 8 (rankOf team gslot 0 g.slot0).toNat
    ++ leBytes 8 (rankOf team gslot 1 g.slot1).toNat ++ zeros 120 ++ ((g.s.getList 0 0 64).flatMap fun x => leBytes 8 x.toNat)
    ++ ((g.fpflags.getList 0 0 32).flatMap fun x => leBytes 4 x.toNat)
    ++ ((g.stack.getList 0 0 32).flatMap fun x => leBytes 8 x.toNat) ++ words32 g.bl 0 128 ++ zeros 384
    ++ words32 g.v 0 (32 * g.pool)

/-- Names held, in order. -/
def heldNames (m : BitVec 4) : List Nat := (List.range 4).filter fun n => m.getLsbD n

/-- The image of a stream (Table 15-6). -/
def streamImage (sl : List Slice) : List Byte :=
  let desc := fun (x : Slice) => leBytes 8 (x.fmt + (if x.kw then 8 else 0) + (if x.col then 16 else 0))
  leBytes 8 sl.length ++ zeros 56 ++ padded 32 (sl.flatMap desc) ++ zeros (if sl.isEmpty then 32 else 0) ++ zeros 160
    ++ (List.range 4).flatMap (fun i =>
        match sl[i]? with
        | some x => padded 64 x.scales ++ zeros (if x.scales.isEmpty then 64 else 0)
        | none => zeros 64)
    ++ zeros 512
    ++ (List.range 4).flatMap (fun i =>
        match sl[i]? with
        | some x => x.elems ++ zeros (1024 - x.elems.length)
        | none => zeros 1024)
    ++ zeros 3072

/-- The address of the first access of the unit at the cursor (R276). -/
def Op.unitAddr (op : Op) : Word :=
  let off := fun (sp : Nat) (a : Word) (d : Int) => if sp = 1 then BitVec.ofInt 64 (localOff a + d) else a + BitVec.ofInt 64 d
  if op.isStep then op.src
  else if !op.isCopy then 0
  else if op.partition then op.y
  else if op.op == 0x92 || op.op == 0x93 then off (if op.localList then 1 else 0) op.x (4 * op.cursor)
  else if op.op == 0x91 then
    let w := op.len / 32
    let r := op.cursor / w
    let k := op.cursor % w
    if op.validRows ≤ r || op.validSectors ≤ k then off op.dstSpace op.dst (op.dstStride * r + 32 * k)
    else off op.srcSpace op.src (op.srcStride * r + 32 * k)
  else if op.op == 0x95 then
    let n := op.fp.toNat % 8 + 1
    let q := op.cursor / (128 * n)
    let m := min 128 (op.len / 32 - 128 * q)
    off op.srcSpace op.src (4096 * q + 32 * (op.cursor % (128 * n) % m))
  else off op.srcSpace op.src (32 * op.cursor)

/-- The predecessor that an operation still awaits (Table 13-4). -/
def State.awaited (s : State) (op : Op) : Word :=
  if (s.predState op.pred1).isSome then op.pred1 else if (s.predState op.pred2).isSome then op.pred2 else 0

/-- A TOKS record (Tables 13-4, 15-7; R364). -/
def State.opRecord (s : State) (op : Op) : List Byte :=
  let ctl := op.op.toNat + op.fn.toNat * 2 ^ 8 + (match op.lk with | .none => 0 | .barrier => 1 | .counter => 2) * 2 ^ 12
    + op.prio % 4 * 2 ^ 14 + (if op.hold then 2 ^ 16 else 0) + (if op.cancel then 2 ^ 17 else 0)
    + (if op.started then 2 ^ 18 else 0) + op.fp.toNat * 2 ^ 19
  leBytes 8 op.handle.toNat ++ leBytes 8 op.dst.toNat ++ leBytes 8 op.src.toNat ++ leBytes 8 op.x.toNat
    ++ leBytes 8 op.y.toNat ++ leBytes 4 op.len ++ leBytes 4 (op.link % 2 ^ 24) ++ leBytes 4 ctl
    ++ leBytes 1 op.state.code ++ leBytes 1 op.cause.toNat ++ leBytes 1 op.byGroup ++ [0]
    ++ leBytes 8 (if op.started then op.cursor % 2 ^ 32 else (s.awaited op).toNat)

/-- Tags of a team, four to a byte. -/
def Team.tagBytes (t : Team) : List Byte :=
  (List.range (t.spadBytes / 32)).map fun i =>
    BitVec.ofNat 8 ((List.range 4).foldl (fun x k => x + (t.tags.get 0 (4 * i + k)).toNat * 4 ^ k) 0)

def Team.tileBytes (t : Team) : List Byte :=
  (List.range (t.spadBytes / 1024)).map fun i =>
    BitVec.ofNat 8 ((if t.diagonal.get false i then 1 else 0) + (if t.holds.get 0 i != 0 then 2 else 0))

/-- All groups of a team in order of number with their group slots, those that have ended among them as empty ones. -/
def State.allGroups (s : State) (c t : Nat) : List (Nat × Group) :=
  (List.range (s.team c t).groups).map fun n =>
    match List.find? (fun (e : Nat × Group) => e.1 != Config.supervisorSlot && e.2.keeps && e.2.team == t && e.2.number == n)
        (s.core c).groups with
    | some e => e
    | none => (Config.gslots, { Group.none with number := n })

/-- A team's landing entries in SEQ order. -/
def State.entriesOf (s : State) (c t : Nat) : List (Nat × Landing) :=
  let l := (s.core c).landing.filter fun e => e.2.state != .free && e.2.team == t
  l.foldl (fun r e => (r.filter fun x => x.2.seq.toNat ≤ e.2.seq.toNat) ++ [e]
    ++ r.filter fun x => !(x.2.seq.toNat ≤ e.2.seq.toNat)) []

/-- The attached operations that a record lists, in order of issue (R275). -/
def State.recordOps (s : State) (c t : Nat) : List (Nat × Nat × Op) :=
  let x := s.team c t
  let l := (s.attachedOps x.launch x.tid).filter fun (c', e, _) => !s.reclaimable c' e
  l.foldl (fun r e => (r.filter fun x => x.2.2.order ≤ e.2.2.order) ++ [e] ++ r.filter fun x => !(x.2.2.order ≤ e.2.2.order)) []

/-- A team record (Table 6-13) of KIND 1, a save record, or KIND 2, a dump's; `ops` are the operations as recorded. -/
def State.teamRecord (s : State) (c t kind : Nat) (ops : List Op) : List Byte :=
  let x := s.team c t
  let gs := s.allGroups c t
  let sec := padded 64
  let groups := sec (gs.flatMap fun (i, g) => g.record i gs)
  let accs := gs.flatMap fun (_, g) => (heldNames g.accHeld).flatMap fun n => words32 g.acc (1024 * n) 1024
  let strs := gs.flatMap fun (_, g) => (heldNames g.strHeld).flatMap fun n => streamImage (g.stream n)
  let spad := sec (x.read 0 x.spadBytes)
  let tags := sec x.tagBytes
  let tiles := sec x.tileBytes
  let toks := ops.flatMap fun op => s.opRecord op
  let land := sec ((s.entriesOf c t).flatMap fun e => e.2.bytes)
  let held := sec (x.heldArr.flatMap fun e => leBytes 8 (e.1 + e.2 * 2 ^ 32))
  let secs := [groups, accs, strs, spad, tags, tiles, toks, land, held]
  let offs := (List.range 9).map fun i => 0x200 + ((secs.take i).map List.length).sum
  let size := 0x200 + (secs.map List.length).sum
  leBytes 8 (1 + kind * 2 ^ 16 + (if x.halted then 2 ^ 32 else 0)) ++ leBytes 8 x.launch.toNat ++ leBytes 4 x.tid
    ++ leBytes 4 x.x ++ leBytes 2 x.y ++ leBytes 2 x.z ++ leBytes 1 x.stage ++ leBytes 1 x.groups ++ zeros 2
    ++ leBytes 4 x.spadBytes ++ leBytes 2 ops.length ++ leBytes 2 (s.entriesOf c t).length ++ leBytes 8 x.pb.toNat
    ++ leBytes 8 x.lss ++ (offs.take 8).flatMap (leBytes 8) ++ leBytes 8 size ++ leBytes 8 (offs.getD 8 0)
    ++ leBytes 4 x.heldArr.length ++ zeros 0x174 ++ secs.flatten

/-! ### Reading a record -/

/-- A record as bytes, and a little-endian field of it. -/
abbrev Rec := Array Byte

def Rec.num (r : Rec) (off n : Nat) : Nat := leNat ((List.range n).map fun i => r.getD (off + i) 0)

def Rec.word (r : Rec) (off : Nat) : Word := BitVec.ofNat 64 (r.num off 8)

def Rec.take (r : Rec) (off n : Nat) : List Byte := (List.range n).map fun i => r.getD (off + i) 0

/-- Keyed values of 4 bytes from an offset, zeros unlisted. -/
def Rec.store32 (r : Rec) (off base n : Nat) : Store Lane32 :=
  (List.range n).filterMap fun i =>
    let x := r.num (off + 4 * i) 4
    if x = 0 then none else some (base + i, BitVec.ofNat 32 x)

/-- A slot of a group record: EMPTY, an entry, or none where the entry is not legal. Ready slots come after every slot of
the core that is ready already, in rank order (R127). -/
def Rec.slot (r : Rec) (off turn : Nat) (rank : Word) : Option Slot :=
  if r.num (off + 20) 1 = 0 then some .empty
  else
    let e := StackEntry.read (r.take off 32)
    if e.legal && e.kind == 1 then
      some { e.slot turn 0 false with since := turn + 2 + (if rank == BitVec.allOnes 64 then 0 else rank.toNat) }
    else none

/-- The length of a group record. -/
def Rec.groupLen (r : Rec) (off : Nat) : Nat := 2048 + 128 * r.num (off + 0x42) 2

/-- Offsets of a record's group records. -/
def Rec.groupOffs (r : Rec) : Nat → Nat → List Nat
  | 0, _ => []
  | k + 1, off => off :: Rec.groupOffs r k (off + r.groupLen off)

/-- A group of a record, without what other sections hold and with its slots EMPTY. -/
def Rec.group (r : Rec) (off n asid team : Nat) : Group :=
  { Group.none with
    live := r.num (off + 0x42) 2 != 0, asid := asid, number := n, team := team, pool := r.num (off + 0x42) 2,
    v := r.store32 (off + 0x800) 0 (32 * r.num (off + 0x42) 2),
    s := (List.range 64).filterMap fun i =>
      let x := r.word (off + 0x100 + 8 * i)
      if x == 0 then none else some (i, x),
    bl := r.store32 (off + 0x480) 0 128, accHeld := BitVec.ofNat 4 (r.num (off + 0x44) 1),
    strHeld := BitVec.ofNat 4 (r.num (off + 0x45) 1), depth := r.num (off + 0x40) 2,
    fpctl := BitVec.ofNat 5 (r.num (off + 0x48) 1),
    fpflags := (List.range 32).filterMap fun l =>
      let x := BitVec.ofNat 5 (r.num (off + 0x300 + 4 * l) 4)
      if x == 0 then none else some (l, x),
    stack := (List.range 32).filterMap fun l =>
      let x := r.word (off + 0x380 + 8 * l)
      if x == 0 then none else some (l, x),
    sstep := r.num (off + 0x50) 1 % 2 == 1, defAddr := r.word (off + 0x58), defMask := BitVec.ofNat 32 (r.num (off + 0x60) 4),
    fabAddr := r.word (off + 0x68), fabPend := r.num (off + 0x70) 1 % 2 == 1 }

/-- A stream from its image. -/
def Rec.stream (r : Rec) (off : Nat) : List Slice :=
  (List.range (r.num off 1 % 8)).map fun i =>
    let d := r.num (off + 0x40 + 8 * i) 8
    let fmt := d % 8
    let kw := d / 8 % 2 == 1
    { fmt := fmt, kw := kw, col := d / 16 % 2 == 1, elems := r.take (off + 0x400 + 1024 * i) (if fmt < 3 then 1024 else
        32 * (if kw then 16 else 32)), scales := r.take (off + 0x100 + 64 * i) (scaleBytes fmt kw) }

/-- An operation of a TOKS record. -/
def Rec.op (r : Rec) (off : Nat) (t : Team) : Op :=
  let ctl := r.num (off + 0x30) 4
  let bit := fun n => ctl / 2 ^ n % 2 == 1
  let st := r.num (off + 0x34) 1
  let started := bit 18
  let prog := r.word (off + 0x38)
  { op := BitVec.ofNat 8 ctl, fn := BitVec.ofNat 4 (ctl / 2 ^ 8), fp := BitVec.ofNat 13 (ctl / 2 ^ 19),
    dst := r.word (off + 8), src := r.word (off + 0x10), x := r.word (off + 0x18), y := r.word (off + 0x20),
    len := r.num (off + 0x28) 4,
    lk := (match ctl / 2 ^ 12 % 4 with | 1 => .barrier | 2 => .counter | _ => .none),
    link := r.num (off + 0x2C) 3, prio := ctl / 2 ^ 14 % 4, hold := bit 16, cancel := bit 17, preempt := false,
    started := started,
    state := (match st with | 0 => .issued | 1 => .running | 2 => .parked | 3 => .faulted | 4 => .done | _ => .cancelled),
    cause := BitVec.ofNat 8 (r.num (off + 0x35) 1), refused := 0, cursor := if started then prog.toNat % 2 ^ 32 else 0,
    delivered := if started then prog.toNat % 2 ^ 32 else 0, pred1 := if started then 0 else prog, pred2 := 0,
    asid := t.asid, privileged := false, byTeam := none, byGroup := r.num (off + 0x36) 1, byGslot := 0, tid := t.tid,
    launch := t.launch, stage := t.stage, stages := t.stages, teams := t.teams, detached := false, orphan := false,
    adopter := none, order := 0, list := [], claimed := false, unit := .idle, got := [], slices := [], tiles := [],
    remote := [], first := 0, recal := false, posted := false,
    disarmed := false, handle := r.word off }

/-- A landing entry of a record (Table 6-1). -/
def Rec.landing (r : Rec) (off : Nat) : Landing :=
  let mask : Mask := BitVec.ofNat 32 (r.num (off + 0x10) 4)
  { pc := r.word off, rcv := r.word (off + 8), mask := mask, cause := BitVec.ofNat 8 (r.num (off + 0x14) 1),
    state := if r.num (off + 0x15) 1 = 3 then .held else .pending, access := BitVec.ofNat 3 (r.num (off + 0x16) 1),
    asid := r.num (off + 0x18) 2, gslot := 0, group := r.num (off + 0x1B) 1, team := 0,
    place := (match r.num (off + 0x1D) 1 with | 0 => .slot0 | 1 => .slot1 | _ => .spilled (r.num (off + 0x1E) 2)),
    seq := BitVec.ofNat 32 (r.num (off + 0x20) 4), tid := r.num (off + 0x24) 4, launch := r.word (off + 0x28),
    detail := (lanes mask).map fun l => (l, r.word (off + 0x40 + 8 * l)), frame := none,
    cow := false, ahead := 0, pend := none }

end Sys2Proof.Machine
end

