-- ==== Sys2Proof/Machine/Traps.lean ====
section
/-! DEFINITION. Traps raised by instructions, the return from a signal, and the control registers (06 R117, R135 to
R138). -/

namespace Sys2Proof.Machine

open Sys2Proof Forms

/-! ### `sys`, `trap`, `brk` (R136) -/

/-- A trap on every active lane, with each lane's own number. -/
def trapOp (i : Instr) (g : Guard) (cause : BitVec 8) (a : Src) (x : Ext) (s : State) : Out :=
  issue i g s fun act =>
    s.step1 i ((lanes act).map fun l => ⟨l, cause, (s.me.src32 l x a).setWidth 64⟩) .none false id

def execSys (g : Guard) (a : Src) (x : Ext) (s : State) : Out := trapOp (.sys g a x) g Cause.syscall a x s
def execTrap (g : Guard) (a : Src) (x : Ext) (s : State) : Out := trapOp (.trap g a x) g Cause.softTrap a x s
def execBrk (g : Guard) (a : Src) (x : Ext) (s : State) : Out := trapOp (.brk g a x) g Cause.breakpoint a x s

/-! ### `sigret` (R137, Table 6-11) -/

/-- The pieces of a frame that `sigret` reads: RPC, STACK, SAVED. -/
def framePieces (f : Word) : List (Word × Nat) :=
  [(f, 8), (f + 0x18, 8)] ++ (List.range 8).map fun k => (f + 0x20 + BitVec.ofNat 64 (4 * k), 4)

/-- Reads the pieces of a lane's frame: the values, or a cause and the address refused, or a wait. -/
def State.readFrame (s : State) : List (Word × Nat) → State × Word × Res (List (BitVec 128))
  | [] => (s, 0, .ok [])
  | (a, n) :: ps =>
    match s.spotOf .g a n n .read .load with
    | (s, .no c) => (s, a, .no c)
    | (s, .need w o) => (s, a, .need w o)
    | (s, .away l t) => (s, a, .away l t)
    | (s, .ok p) =>
      match s.loadSpot p n with
      | (s, .no c) => (s, a, .no c)
      | (s, .need w o) => (s, a, .need w o)
      | (s, .away l t) => (s, a, .away l t)
      | (s, .ok v) =>
        match State.readFrame s ps with
        | (s, b, .ok vs) => (s, b, .ok (v :: vs))
        | r => r

/-- A frame as `sigret` uses it. -/
structure FrameRead where
  rpc : Word
  stack : Word
  saved : List Lane32
  deriving DecidableEq, Repr

def FrameRead.of (vs : List (BitVec 128)) : FrameRead :=
  ⟨(vs.getD 0 0).setWidth 64, (vs.getD 1 0).setWidth 64, (vs.drop 2).map fun v => v.setWidth 32⟩

def State.readFrames (s : State) : List Nat → State × List (Nat × Word × Res FrameRead)
  | [] => (s, [])
  | l :: ls =>
    let (s, a, r) := s.readFrame (framePieces (s.me.stk l))
    let (s, rs) := State.readFrames s ls
    (s, (l, a, r.bind fun vs => .ok (FrameRead.of vs)) :: rs)

/-- An address that the issuer reads lies in a peer window, so that the read may be refused late (R45). -/
def State.peerAt (s : State) (va : Word) : Bool :=
  match (s.probe (s.agent s.cur.core s.cur.gslot s.cur.slot) va .read).2 with
  | .ok w => isPeer w.pa
  | _ => false

/-- A piece of a lane's frame lies in a peer window. -/
def State.framePeer (s : State) (l : Nat) : Bool := (framePieces (s.me.stk l)).any fun (a, _) => s.peerAt a

/-- Restores a lane from its frame: the saved registers within the allotment and `%stack`. -/
def Group.restoreFrame (g : Group) (l : Nat) (f : FrameRead) : Group :=
  let g := f.saved.zipIdx.foldl (fun (g : Group) (x, k) => if 248 + k < g.pool then g.setVreg (248 + k) l x else g) g
  g.setStk l f.stack

/-- `sigret`: refused lanes park; of the others those with the RPC of the lowest-numbered lane go there, and the rest
stay at the instruction. For SSTEP those have executed an instruction too (log 56). -/
def execSigret (g : Guard) (s : State) : Out :=
  issue (.sigret g) g s fun act =>
    let (s, rs) := s.readFrames (lanes act)
    let waits := rs.filterMap fun r => match r.2.2 with | .need w o => some (w, o) | _ => none
    if !waits.isEmpty then
      (waits.foldl (fun s (w, o) => s.askSlot s.cur.core s.cur.gslot s.cur.slot w o) s).reissueRead
    else
      let x := s.mySlot
      let got := rs.filterMap fun r => match r.2.2 with | .ok f => some (r.1, f) | _ => none
      let bad := (rs.filterMap fun r => match r.2.2 with | .no c => some (LaneTrap.mk r.1 c r.2.1) | _ => none)
        ++ (got.filter fun e => e.2.rpc.toNat % 4 != 0).map fun e => ⟨e.1, Cause.align, e.2.rpc⟩
      let ok := got.filter fun e => e.2.rpc.toNat % 4 == 0
      let pc := ((ok.head?).map fun e => e.2.rpc).getD 0
      let taken := ok.filter fun e => e.2.rpc == pc
      let stay := maskOf ((ok.filter fun e => e.2.rpc != pc).map (·.1))
      let through := x.mask &&& ~~~act
      let part := fun (pc : Word) (m : Mask) => if m == 0 then [] else [x.go pc m s.turn]
      s.finish { parts := part pc (maskOf (taken.map (·.1))) ++ part x.pc stay ++ part (s.nextPc (.sigret g)) through,
                 parked := bad, acc := .read, early := (lanes act).any s.framePeer } fun s =>
        s.onMe fun y => taken.foldl (fun y e => y.restoreFrame e.1 e.2) y

/-! ### Control registers (R117, Table 6-5) -/

/-- A context-scope register by its number. -/
def CtxRegs.read (r : CtxRegs) (n : Nat) : Word :=
  match n with
  | 0x100 => r.ptroot | 0x101 => r.sigh | 0x102 => r.disp | 0x103 => r.svcmode | 0x104 => r.wdog | 0x105 => r.share
  | 0x106 => r.slip | 0x107 => r.freering | 0x108 => r.fring
  | 0x110 => r.wpa[0] | 0x111 => r.wpa[1] | 0x112 => r.wpa[2] | 0x113 => r.wpa[3]
  | 0x114 => r.wpc[0] | 0x115 => r.wpc[1] | 0x116 => r.wpc[2] | 0x117 => r.wpc[3]
  | _ => 0

/-- The causes that DISP may name: those of Table 6-4 that park lanes. -/
def dispMask : Word := 0x09FF7FFE

/-- WDOG as a write leaves it (Table 6-7): FIRED is cleared by a 1, EXP is held to its range. -/
def wdogWrite (old v : Word) : Word :=
  let e := (v.extractLsb' 0 6).toNat
  let e := if e = 0 then 0 else max 20 (min 34 e)
  (if old.getLsbD 8 && !v.getLsbD 8 then 0x100 else 0) ||| BitVec.ofNat 64 e

/-- A write of a context-scope register; reserved bits keep nothing (R117). A LOG2SZ of 31, which Table 6-8 does not list,
is kept as written and watches 2 GiB (log 32). -/
def CtxRegs.write (r : CtxRegs) (n : Nat) (v : Word) : CtxRegs :=
  match n with
  | 0x100 => { r with ptroot := v &&& 0x000FFFFFFFFFF001 }
  | 0x101 => { r with sigh := v &&& ~~~3 }
  | 0x102 => { r with disp := v &&& dispMask }
  | 0x103 => { r with svcmode := v &&& 0xF }
  | 0x104 => { r with wdog := wdogWrite r.wdog v }
  | 0x105 => { r with share := if v &&& 0xFF == 0 then 1 else v &&& 0xFF }
  | 0x106 => { r with slip := v &&& ~~~0xFFF }
  | 0x107 => { r with freering := v }
  | 0x108 => { r with fring := v }
  | 0x110 => { r with wpa := r.wpa.set 0 v }
  | 0x111 => { r with wpa := r.wpa.set 1 v }
  | 0x112 => { r with wpa := r.wpa.set 2 v }
  | 0x113 => { r with wpa := r.wpa.set 3 v }
  | 0x114 => { r with wpc := r.wpc.set 0 (v &&& 0x7C7) }
  | 0x115 => { r with wpc := r.wpc.set 1 (v &&& 0x7C7) }
  | 0x116 => { r with wpc := r.wpc.set 2 (v &&& 0x7C7) }
  | 0x117 => { r with wpc := r.wpc.set 3 (v &&& 0x7C7) }
  | _ => r

/-- Changes the registers of a context that govern on a core: the core's own copy, which other cores do not see (R117). A
core that holds none yet takes one. -/
def State.onRegs (s : State) (c a : Nat) (f : CtxRegs → CtxRegs) : State :=
  s.onCore c fun k => { k with copies := k.copies.set a (f (s.regs c a)) }

/-- The value of a control register in a lane. -/
def State.crValue (s : State) (n l : Nat) : Word :=
  let g := s.me
  match n with
  | 0x001 => g.fpctl.setWidth 64
  | 0x002 => (g.flags l).setWidth 64
  | 0x003 => if g.sstep then 1 else 0
  | 0x004 => if g.privileged then 1 else 0
  | 0x200 => (s.core s.cur.core).landbase
  | 0x201 => (s.core s.cur.core).landseq.setWidth 64
  | n => (s.regs s.cur.core g.asid).read n

/-- SSTEP of a group; a write arms the step from the next instruction on (Table 6-8). -/
def Group.setStep (g : Group) (on : Bool) : Group :=
  { g with sstep := on, steps := [], slot0 := { g.slot0 with stepped := false }, slot1 := { g.slot1 with stepped := false } }

/-- A write of a group-, core- or context-scope register. -/
def State.crWrite (s : State) (n : Nat) (v : Word) : State :=
  match n with
  | 0x001 => s.onMe fun g => { g with fpctl := v.setWidth 5 }
  | 0x003 => s.onMe fun g => g.setStep (v.getLsbD 0)
  | 0x200 => s.onCore s.cur.core fun k => { k with landbase := v &&& ~~~0x3F }
  | n => s.onRegs s.cur.core s.me.asid fun r => r.write n v

/-- `rdcr` (R63, R138). A per-lane register goes to a scalar from the lowest-numbered active lane. -/
def execRdcr (o : CrOp) (s : State) : Out :=
  issue (.rdcr o) o.g s fun act =>
    (s.onMe fun x => x.perLane o.d (if o.wide then 64 else 32) act fun l =>
      let v := s.crValue o.crn.toNat (if dk o.d then lowest act else l)
      (if o.wide then v else (v.setWidth 32).setWidth 64).setWidth 128).advance (.rdcr o)

/-- `wrcr` (R62, R63, R138). -/
def execWrcr (o : CrOp) (s : State) : Out :=
  issue (.wrcr o) o.g s fun act =>
    let g := s.me
    let v := fun (l : Nat) => (g.src l (if o.wide then 64 else 32) 0 o.a).setWidth 64
    let s := if o.crn == 0x002 then
        s.onMe fun x => (lanes act).foldl (fun x l => x.setFlags l ((v l).setWidth 5)) x
      else s.crWrite o.crn.toNat (v (lowest act))
    s.advance (.wrcr o)

end Sys2Proof.Machine
end

