-- ==== Sys2Proof/Machine/Resolve.lean ====
section
/-! DEFINITION. Resolutions of landing entries, the delivery of signals, halts and their release (06 R113, R114, R121,
R123, R124, R134, R143). -/

namespace Sys2Proof.Machine

open Sys2Proof

/-! ### Halts and their release -/

/-- Teams of a context on a core, by team index. -/
def State.teamsOf (s : State) (c a : Nat) : List Nat := ((s.core c).teams.filter fun e => e.2.asid == a).map (·.1)

/-- Does something on every core. -/
def State.eachCore (s : State) (f : State → Nat → State) : State := (s.cores.map (·.1)).foldl f s

/-- Does something to every resident team of a context. -/
def State.eachTeam (s : State) (a : Nat) (f : State → Nat → Nat → State) : State :=
  s.eachCore fun s c => (s.teamsOf c a).foldl (fun s t => f s c t) s

/-- The team's HELD entries become PENDING ahead of every other of the core (R134). -/
def State.unholdEntries (s : State) (c t : Nat) : State :=
  (s.core c).landing.foldl (fun s (i, e) =>
    if e.state == .held && e.team == t then
      s.onEntry c i fun x => { x with state := .pending, ahead := s.turn + 1 }
    else s) s

/-- The ready slots of a team were not ready while it could not issue (R52): they are ready from now on. -/
def State.readyAgain (s : State) (c t : Nat) : State :=
  let f := fun (y : Slot) => if y.state == .ready then { y with since := s.turn + 1 } else y
  (s.groupsOf c t).foldl (fun s (g, _) => s.onGroup c g fun x => { x with slot0 := f x.slot0, slot1 := f x.slot1 }) s

/-- Takes reasons away; a team that none is left for is released (R134). -/
def State.unhalt (s : State) (c t : Nat) (gone : HaltReason → Bool) : State :=
  let x := s.team c t
  if !s.hasTeam c t || !x.halted then s
  else
    let left := x.halts.filter fun r => !gone r
    let s := s.setTeam c t { x with halts := left }
    if left.isEmpty then (s.unholdEntries c t).readyAgain c t else s

/-- A release by `halt`: a STOP and a dump still hold the team (R143, R174). -/
def State.release1 (s : State) (c t : Nat) : State :=
  s.unhalt c t fun r => r != .stop && r != .dump && r != .late && r != .unsaved

/-- A release by RELEASE (Table 7-10). A team that could not be saved on a core that it was to leave stays halted (21 R391). -/
def State.releaseAll (s : State) (c t : Nat) : State :=
  s.unhalt c t fun r => r != .dump && r != .late && r != .unsaved

/-- The last HELD entry of a team that a STOP or a hit stopped is gone: the team is released, unless another halt holds it
(R121, R173; log 52). -/
def State.stopOver (s : State) (c t : Nat) : State :=
  if (s.core c).landing.any fun (_, e) => e.state == .held && e.team == t then s
  else s.unhalt c t fun r => r == .stop || r == .hit

/-! ### Entries that leave the landing -/

/-- Frees a landing entry. -/
def State.freeEntry (s : State) (c i : Nat) : State := s.onEntry c i fun e => { e with state := .free, frame := none, pend := none }

/-- A parked entry becomes READY at an address: the device's own write where it is spilled (R114). -/
def State.readyAt (s : State) (c g : Nat) (p : Place) (pc : Word) : State × Res Unit :=
  let at_ := fun (n : Nat) => (s.onGroup c g fun x => x.onSlot n fun y => y.ready pc y.mask s.turn, Res.ok ())
  match p with
  | .slot0 => at_ 0
  | .slot1 => at_ 1
  | .spilled ix =>
    match s.peekStack c g ix with
    | .ok (w, e) => (s.writeStack c g w { e with state := 0, pc := pc, wait := 0 }, .ok ())
    | r => (s, r.bind fun _ => .ok ())

/-- The lanes of a parked entry end (R114, R99). -/
def State.endAt (s : State) (c g : Nat) (p : Place) : State × Res Unit :=
  let at_ := fun (n : Nat) => (s.onGroup c g fun x => x.setSlot n .empty, Res.ok ())
  match p with
  | .slot0 => at_ 0
  | .slot1 => at_ 1
  | .spilled ix =>
    match s.peekStack c g ix with
    | .ok (w, e) => (s.writeStack c g w { e with state := 0, mask := 0 }, .ok ())
    | r => (s, r.bind fun _ => .ok ())

/-- The length that a SKIP moves past; 0 where it is not obeyed (R114). -/
def State.skipLen (s : State) (c i : Nat) : Res Nat :=
  let e := s.entry c i
  if e.access == Access.fetch.code then .ok 0 else s.lenAt c e.gslot e.pc

/-! ### Signals (R123, Table 6-11) -/

/-- `%stack` of a lane once a frame is on it (R123, step 1). -/
def frameAt (stk : Word) : Word := (stk - 64) &&& ~~~63

/-- A frame's bytes. -/
def Group.frameBytes (g : Group) (l : Nat) (pc : Word) (cause : BitVec 8) (detail : Word) : List Byte :=
  leBytes 8 pc.toNat ++ leBytes 4 cause.toNat ++ leBytes 4 (32 * g.number + l) ++ leBytes 8 detail.toNat
    ++ leBytes 8 (g.stk l).toNat
    ++ (List.range 8).flatMap fun k => leBytes 4 (if 248 + k < g.pool then g.vreg (248 + k) l else 0).toNat

/-- The places of the frames of lanes, as writes of the group: each lane with its frame's address and the place or the
cause of the refusal; or what must come over the fabric first. -/
def State.frameSpots (s : State) (c g : Nat) : List Nat → State × Res (List (Nat × Word × Res Where))
  | [] => (s, .ok [])
  | l :: ls =>
    let f := frameAt ((s.group c g).stk l)
    let (s, r) := s.reach (s.serviceAgent c g) (s.team c (s.group c g).team).tid f 64 .frame
    match r with
    | .need w o => (s, .need w o)
    | r =>
      match State.frameSpots s c g ls with
      | (s, .ok rs) => (s, .ok ((l, f, r) :: rs))
      | x => x

/-- Writes the frames that have a place, as stores of the group. -/
def State.writeFrames (s : State) (c g : Nat) (pc : Word) (cause : BitVec 8) (detail : Store Word)
    (fs : List (Nat × Word × Res Where)) : State :=
  fs.foldl (fun s (l, _, r) =>
    match r with
    | .ok w =>
      let bs := (s.group c g).frameBytes l pc cause (detail.get 0 l)
      (s.onCore c fun k => k.storeBytes g w.pa w.scopeCore bs).onGroup c g fun x => { x with outstanding := x.outstanding + 1 }
    | _ => s) s

/-- The lanes of refused frames, each with the cause and the frame's address. -/
def frameTraps (rs : List (Nat × Word × Res Where)) : List LaneTrap :=
  rs.filterMap fun r => match r.2.2 with | .no c => some ⟨r.1, c, r.2.1⟩ | _ => none

/-- An entry whose frames could not be written stays whole, as the entry of the write (R124): it is rewritten, with no PARK
record and no count (log 56). -/
def State.frameEntry (s : State) (c i : Nat) (ts : List LaneTrap) (all : List (Nat × Word × Res Where))
    (cause : BitVec 8) (detail : Store Word) : State :=
  let t := s.team c (s.entry c i).team
  s.onEntry c i fun e =>
    { e with cause := lowestCause ts, access := Access.frame.code, state := if t.halted then .held else .pending,
             detail := all.foldl (fun d r => d.set r.1 r.2.1) [], frame := some (cause, detail),
             cow := s.cowRefused c e.gslot .frame ts }

/-- Moves `%stack` of delivered lanes below their frames. -/
def Group.lowered (g : Group) (ls : List (Nat × Word × Res Where)) : Group :=
  ls.foldl (fun g r => match r.2.2 with | .ok _ => g.setStk r.1 r.2.1 | _ => g) g

/-- The landing entry of a slot takes what a RETRY delivers again. -/
def State.markFrame (s : State) (c g n : Nat) (cause : BitVec 8) (detail : Store Word) : State :=
  match s.entryAt c g (placeOf n) with
  | some i => s.onEntry c i fun e => { e with frame := some (cause, detail) }
  | none => s

/-- Delivers a signal to the lanes of an entry (R123, R124), or says what it waits for. An entry that cannot be divided,
because the other slot's spill is refused or its instruction is under way, stays whole as a spilled one does (log 9). -/
def State.deliverSignal (s : State) (c i : Nat) (cause : BitVec 8) (detail : Store Word) : State × Res Unit :=
  let e := s.entry c i
  let g := e.gslot
  let sigh := (s.regs c e.asid).sigh
  let n := if e.place == .slot1 then 1 else 0
  match s.frameSpots c g (lanes e.mask) with
  | (s, .need w o) => (s, .need w o)
  | (s, .no x) => (s, .no x)
  | (s, .away l t) => (s, .away l t)
  | (s, .ok fs) =>
    let bad := frameTraps fs
    let good := e.mask &&& ~~~(trapMask bad)
    let write := fun (s : State) => s.writeFrames c g e.pc cause detail fs
    if bad.isEmpty then
      match s.readyAt c g e.place sigh with
      | (s, .ok _) => (((write s).onGroup c g fun x => x.lowered fs).freeEntry c i, .ok ())
      | r => r
    else
      let whole := fun (s : State) => ((write s).frameEntry c i bad fs cause detail, Res.ok ())
      match e.place with
      | .spilled _ => whole s
      | _ =>
        if good == 0 || s.underWay c g (other n) then whole s
        else
          let y := (s.group c g).slot n
          match s.checkPushes (s.serviceAgent c g) g (s.group c g).depth (pushesFor ((s.group c g).slot (other n)) 1) with
          | (s, _, .ok ws) =>
            let s := ((write s).onGroup c g fun x => x.lowered fs).freeEntry c i
            let s := s.onGroup c g fun x => x.setSlot n (y.ready sigh good s.turn)
            let s := (s.place c g n [{ y with mask := trapMask bad }] ws).1
            ((s.land c g (other n) bad .frame).markFrame c g (other n) cause detail, .ok ())
          | (s, _, .need w o) => (s, .need w o)
          | (s, _, _) => whole s

/-! ### The five actions (Table 6-3) -/

/-- STOP: the team is halted, the entry HELD, a message posted. -/
def State.stopEntry (s : State) (c i : Nat) : State :=
  let e := s.entry c i
  let s := s.onEntry c i fun e => { e with state := .held }
  let s := s.haltTeam c e.team .stop (haltAux .stop s.turn)
  s.addMsg e.asid (s.entryMsg .stop c i)

/-- A resolution acts on an entry (Table 6-3), or says what it waits for. A SIGNAL of an entry that a frame write made is
a STOP (R124). -/
def State.resolveOnce (s : State) (c i act : Nat) : State × Res Unit :=
  let e := s.entry c i
  let g := e.gslot
  let free := fun (r : State × Res Unit) => match r with
    | (s, .ok _) => (s.freeEntry c i, Res.ok ())
    | r => r
  match act with
  | 0 =>
    match e.frame with
    | some (cause, detail) => s.deliverSignal c i cause detail
    | none => free (s.readyAt c g e.place e.pc)
  | 1 => match s.skipLen c i with
    | .ok n => free (s.readyAt c g e.place (e.pc + BitVec.ofNat 64 n))
    | r => (s, r.bind fun _ => .ok ())
  | 2 => if e.frame.isSome then (s.stopEntry c i, .ok ()) else s.deliverSignal c i e.cause e.detail
  | 3 => (s.stopEntry c i, .ok ())
  | _ => free (s.endAt c g e.place)

/-- A resolution acts on an entry; `true` says that it has. Where a page-table entry, a line of code or a stack entry must
come over the fabric first, it is asked for and the entry stays as it is (R192). Where the stack entry of a spilled entry
cannot be read, because its page is refused now, the landing entry is freed and the stack entry stays PARKED (log 9). -/
def State.tryResolve (s : State) (c i act : Nat) : State × Bool :=
  let e := s.entry c i
  let after := fun (s : State) =>
    let s := (if act = 3 || !e.state == .held then s else s.stopOver c e.team).svcDone c
    if act = 4 then s.endIfEmpty c e.gslot else s
  match s.resolveOnce c i act with
  | (s, .ok _) => (after s, true)
  | (s, .need w o) => (s.askService c w o, false)
  | (s, .away _ _) => (s, false)
  | (s, .no _) => (after (s.freeEntry c i), true)

/-- An entry that a resolution may act on (R121, R139): IN_SERVICE or HELD, and no other resolution of it under way. -/
def Landing.resolvable (e : Landing) : Bool := (e.state == .inService || e.state == .held) && e.pend.isNone

/-- R114: whether an action on an entry is obeyed. A SKIP whose instruction can no longer be read has no length (log 9). -/
def State.obeyed (s : State) (c i act : Nat) : Bool :=
  act != 1 || match s.skipLen c i with | .ok n => n != 0 | .need _ _ => true | _ => false

/-- A resolution by the host or by the supervisor's own choice acts, or waits at the entry for the fabric. -/
def State.resolveEntry (s : State) (c i act : Nat) : State :=
  if !s.obeyed c i act then s
  else
    match s.tryResolve c i act with
    | (s, true) => s
    | (s, false) => s.onEntry c i fun e => { e with pend := some act }

/-- A resolution that waits is tried again. -/
def State.resolvePending (s : State) (c i : Nat) : State :=
  match (s.entry c i).pend with
  | some act => (s.onEntry c i fun e => { e with pend := none }).resolveEntry c i act
  | none => s

/-! ### KILL of a team (07 R165) -/

/-- The lanes of a group end as KILL ends them, wherever they stand. -/
def State.killGroup (s : State) (c g : Nat) : State :=
  let s := (s.disownGroup c g).onGroup c g fun x => { x with slot0 := .empty, slot1 := .empty, depth := 0, steps := [], joins := [], tagWaits := [] }
  s.onCore c fun k => { k with grows := k.grows.filter fun q => q.gslot != g }

/-- A team is killed on its core: its lanes end, its attached operations are cancelled, and it is released. -/
def State.killHere (s : State) (c t : Nat) : State :=
  let x := s.team c t
  let gs := (s.groupsOf c t).map (·.1)
  let s := (s.core c).landing.foldl (fun s (i, e) =>
    if e.state != .free && e.team == t then s.freeEntry c i else s) s
  let s := gs.foldl (fun s g => s.killGroup c g) s
  let s := (s.attachedOps x.launch x.tid).foldl (fun s (c', e, _) => s.requestCancel c' e) s
  gs.foldl (fun s g => s.endIfEmpty c g) (s.unhalt c t fun r => r != .dump && r != .late)

end Sys2Proof.Machine
end

