-- ==== Sys2Proof/Machine/Swap.lean ====
section
/-! DEFINITION. A team leaves a core and comes back: slipway slots, the stop of its engines, the save record, the restore
(06 R125 to R132, R142; 07 R168; 13 R275). -/

namespace Sys2Proof.Machine

open Sys2Proof

/-! ### Slipway slots (R168) -/

/-- A slot entry of the slipway and its address. -/
structure SlipSlot where
  at_ : Word
  record : Word
  launch : Word
  tid : Nat
  state : Nat
  deriving DecidableEq, Repr

def SlipSlot.read (a : Word) (bs : List Byte) : SlipSlot :=
  let r : Rec := bs.toArray
  ⟨a, r.word 0, r.word 8, r.num 0x10 4, r.num 0x14 1⟩

/-- The first slot, from the one at an address on, that a test accepts; the cause of a read that is refused. -/
def State.findSlip (s : State) (a : Agent) (p : SlipSlot → Bool) : Nat → Word → State × Res (Option SlipSlot)
  | 0, _ => (s, .ok none)
  | k + 1, va =>
    match s.fetch a va 32 with
    | (s, .ok bs) =>
      if p (SlipSlot.read va bs) then (s, .ok (some (SlipSlot.read va bs))) else State.findSlip s a p k (va + 32)
    | (s, r) => (s, r.bind fun _ => .ok none)

/-- The slots of a slipway. -/
def slipSlots : Nat := 8192

/-- A slot that a save may use: free, with a space. -/
def SlipSlot.usable (x : SlipSlot) : Bool := x.state == 0 && x.record != 0

/-- Writes STATE of a slot. -/
def State.setSlip (s : State) (a : Agent) (x : SlipSlot) (st : Nat) : State × Res Unit :=
  s.store a (x.at_ + 0x14) (leBytes 1 st)

/-! ### The stop (R125) -/

/-- The ops of a team that must reach a quiescent point. -/
def State.stillRunning (s : State) (c t : Nat) : Bool :=
  let x := s.team c t
  (s.attachedOps x.launch x.tid).any fun (_, _, op) => op.state == .running

/-- Asks every RUNNING operation attached to a team to stop. -/
def State.preemptOps (s : State) (c t : Nat) (on : Bool) : State :=
  let x := s.team c t
  (s.attachedOps x.launch x.tid).foldl (fun s (c', e, op) =>
    if op.state == .running then s.setOp c' e { op with preempt := on } else s) s

/-- PARKED operations of a team leave PARKED: to RUNNING, or to CANCELLED where a cancel is recorded (Table 13-3). -/
def State.unparkOps (s : State) (c t : Nat) : State :=
  let x := s.team c t
  (s.attachedOps x.launch x.tid).foldl (fun s (c', e, op) =>
    if op.state != .parked || op.recal then s
    else if op.cancel then s.cancelOp c' e
    else if s.recals c' op then s.setOp c' e { op with recal := true }
    else s.setOp c' e { op with state := .running }) s

/-- The team begins to leave: nothing of it issues any more, its engines stop (R125), and what a tagged-word instruction
has taken is divided off (12 R238). Its requests for the core's pools keep their place until it has left (R129). -/
def State.beginMove (s : State) (c t : Nat) : State :=
  let s := s.onTeam c t fun x => { x with moving := true }
  (s.divideTeam c t).preemptOps c t true

/-- The team stays (R129). -/
def State.abandonMove (s : State) (c t : Nat) : State :=
  let s := s.onTeam c t fun x => { x with moving := false, hostAsked := false }
  ((s.preemptOps c t false).unparkOps c t).readyAgain c t

/-- Publishes all that the core's L1 holds written, so that whatever the team's lanes have read is read on the core that
the team goes to (R212, R229): whether every engine has acknowledged and every access is complete (R125). A lane that
waits at a remote tagged word has taken no step, and is saved as one that issues again (R127). -/
def State.stopped (s : State) (c t : Nat) : State × Bool :=
  let gs := s.groupsOf c t
  if s.stillRunning c t || (s.entriesOf c t).any (fun e => e.2.pend.isSome) || gs.any fun (g, x) => x.outstanding != 0 || s.underWay c g 0 || s.underWay c g 1 then (s, false)
  else
    let s := gs.foldl (fun s (g, _) => s.release c g) (s.publishAll c)
    (s, gs.all fun (g, _) => s.released c g)

/-! ### team.out -/

/-- An operation as its record and its FORWARD entry hold it. -/
def Op.savedAs (op : Op) : Op :=
  { op with cursor := if op.started then op.cursor else 0, byTeam := none, unit := .idle, got := [],
            refused := if op.state == .faulted then op.unitAddr else op.refused }

/-- The entry of an operation, or the FORWARD entry at its handle, names the record (R275). -/
def State.forwardOp (s : State) (asid : Nat) (va : Word) (c e : Nat) (op : Op) : State :=
  let oc := handleCore op.handle
  let oe := handleSlot op.handle
  let s := (s.disownUnit c e).setToken c e { s.token c e with use := .free }
  s.setToken oc oe { s.token oc oe with use := .forwardSaved asid va op.savedAs }

/-- Everything of a team leaves the core. -/
def State.dropTeam (s : State) (c t : Nat) : State :=
  let mine := fun (g : Group) => g.team == t && g.keeps
  let slots := ((s.core c).groups.filter fun e => e.1 != Config.supervisorSlot && mine e.2).map (·.1)
  let s := (s.core c).landing.foldl (fun s (i, e) =>
    if e.state != .free && e.team == t then s.freeEntry c i else s) s
  s.onCore c fun k =>
    { k with groups := k.groups.keep fun g _ => !slots.contains g, teams := k.teams.erase t,
             grows := k.grows.filter fun q => !slots.contains q.gslot }

/-- The steps that slots of a team have taken of a tagged-word instruction that could not be divided (R238, log 22). -/
def State.savedDones (s : State) (c t : Nat) : List (Nat × Nat × Mask × Nat) :=
  (s.groupsOf c t).flatMap fun (_, g) =>
    [(0, g.slot0), (1, g.slot1)].filterMap fun (n, x) =>
      if x.state == .blocked && x.done != 0 then some (g.number, n, x.done, x.len) else none

/-- The places at which an instruction was executed since the last single-step trap (Table 6-8). -/
def State.savedSteps (s : State) (c t : Nat) : List (Nat × Nat) :=
  (s.groupsOf c t).flatMap fun (_, g) =>
    ([(0, g.slot0.stepped), (1, g.slot1.stepped)].filterMap fun (n, on) => if on then some (g.number, n) else none)
      ++ g.steps.map fun i => (g.number, 2 + i)

/-- The depths at which JOIN entries stand on the stacks of a team's groups (R45). -/
def State.savedJoins (s : State) (c t : Nat) : List (Nat × Nat) :=
  (s.groupsOf c t).flatMap fun (_, g) => (g.joins.filter (· < g.depth)).map fun i => (g.number, i)

/-- The entries of a stopped team's operations name its record; those of reclaimable ones are free (R275). -/
def State.forwardOps (s : State) (c t : Nat) (asid : Nat) (toks : Word) : State :=
  let x := s.team c t
  let s := (s.recordOps c t).zipIdx.foldl (fun s ((c', e, op), i) =>
    s.forwardOp asid (toks + BitVec.ofNat 64 (64 * i)) c' e op) s
  (s.attachedOps x.launch x.tid).foldl (fun s (c', e, _) =>
    (s.forwardsEnd c' e).setToken c' e { s.token c' e with use := .free }) s

/-- Writes the record of a stopped team at a slot's space, marks the slot and frees what the team held (R142, R168). -/
def State.saveTeam (s : State) (c t : Nat) (slip : SlipSlot) : State × Res Nat :=
  let x := s.team c t
  let a := s.svcAgent c x.asid
  let rec_ := s.teamRecord c t 1 ((s.recordOps c t).map fun o => o.2.2)
  match s.store a slip.record rec_ with
  | (s, .ok _) =>
    match s.store a (slip.at_ + 8) (leBytes 8 x.launch.toNat ++ leBytes 4 x.tid ++ leBytes 1 1) with
    | (s, .ok _) =>
      let saved : SavedTeam :=
        { asid := x.asid, launch := x.launch, tid := x.tid, record := slip.record,
          halts := x.halts.filter fun r => r != .dump && r != .late,
          frames := (s.entriesOf c t).filterMap fun e => e.2.frame.map fun f => (e.2.seq, f.1, f.2),
          cows := (s.entriesOf c t).filterMap fun e => if e.2.cow then some e.2.seq else none,
          dones := s.savedDones c t, steps := s.savedSteps c t, joins := s.savedJoins c t, stepReqs := [], killed := false }
      let s := s.forwardOps c t x.asid (slip.record + Rec.word rec_.toArray (0x38 + 48))
      let s := (s.dropTeam c t).count c x.asid 14 1
      ({ s with saved := s.saved ++ [saved] }, .ok 0)
    | (s, r) => (s, r.bind fun _ => .ok 0)
  | (s, r) => (s, r.bind fun _ => .ok 0)

/-- A stopped team is saved in the lowest free slot (R142, R168). Status 5: no slot. -/
def State.finishOut (s : State) (c t : Nat) : State × Res Nat :=
  let x := s.team c t
  match s.findSlip (s.svcAgent c x.asid) SlipSlot.usable slipSlots (s.regs c x.asid).slip with
  | (s, .ok (some y)) => s.saveTeam c t y
  | (s, .ok none) => (s.abandonMove c t, .ok 5)
  | (s, r) => (s, r.bind fun _ => .ok 0)

/-- The core gives up its teams: it is drained or FAULTED (21 R391). -/
def Core.leaving (k : Core) : Bool := k.svc == .draining || k.svc == .faulted

/-- A team that could not be saved stays; on a core that gives up its teams it is halted until the host kills it (21
R391). -/
def State.keepTeam (s : State) (c t : Nat) : State := if (s.core c).leaving then s.haltTeam c t .unsaved 5 else s

/-- The record of the team could not be written on a core that gives up its teams: no request moves it (21 R391). -/
def Team.unsaved (t : Team) : Bool := t.halts.contains .unsaved

/-- A team that has begun to leave goes on: none while something of it still runs or comes over the fabric; else the
status of Table 6-17 or of SWAPSTAT. -/
def State.continueOut (s : State) (c t : Nat) : State × Option Nat :=
  let s := (s.divideTeam c t).preemptOps c t true
  match s.stopped c t with
  | (s, false) => (s, none)
  | (s, true) =>
    match s.finishOut c t with
    | (s, .ok n) => ((if n = 0 then s else s.keepTeam c t).svcDone c, some n)
    | (s, .no _) => (((s.abandonMove c t).keepTeam c t).svcDone c, some 3)
    | (s, .need w o) => (s.askService c w o, none)
    | (s, .away _ _) => (s, none)

/-- A live dump of the team's context has not ended (R176). The rule gives status 4 for a team that is being dumped; a team
swapped in during the dump, which is halted and not recorded, has it too (log 41). -/
def Team.dumped (t : Team) : Bool := t.halts.contains .dump || t.halts.contains .late

/-! ### team.in -/

/-- The contexts resident on a core (R117); the supervisor's own, ASID 0, is no user context. -/
def Core.residents (k : Core) : List (Nat × CtxRegs) := k.copies.filter fun e => e.1 != 0

/-- A context becomes resident on a core: its copies come from the master block and its credits are 0 (R53, R166); its
counters on the core go on from where they stood, also where its ASID was destroyed and created anew (log 19). Where 16 are
resident, one without a team there makes room (log 24). -/
def State.makeResident (s : State) (c a : Nat) : Option State :=
  let k := s.core c
  let add := fun (k : Core) =>
    { k with copies := k.copies.set a (s.ctx a).master,
             credit := (List.range 4).foldl (fun m n => m.set (4 * a + n) 0) k.credit }
  if (k.copies.find? a).isSome then some s
  else if k.residents.length < 16 then some (s.setCore c (add k))
  else
    match List.find? (fun (e : Nat × CtxRegs) => (s.teamsOf c e.1).isEmpty) k.residents with
    | some (b, _) => some (s.setCore c (add { k with copies := k.copies.erase b }))
    | none => none

/-- Group slots, team indices and token entries that a core can give. -/
def Core.freeSlots (k : Core) : List Nat :=
  (List.range Config.gslots).filter fun g => !(k.groups.get .none g).live

def Core.freeTeams (k : Core) : List Nat := (List.range 64).filter fun t => (k.teams.find? t).isNone

def Core.spadUsed (k : Core) : Nat := (k.teams.map fun e => e.2.spadBytes).sum

def State.freeTokens (s : State) (c : Nat) : Nat :=
  ((List.range 256).filter fun e => (s.token c e).use == .free || s.reclaimable c e).length

/-- As many of a list as are asked for, from a place that the device chooses. -/
def State.chooseSome (s : State) (kind n : Nat) (l : List Nat) : List Nat :=
  (l.rotateLeft (Config.choice kind s.turn % max 1 l.length)).take n

/-- The groups of a record, by number. -/
def Rec.groups (r : Rec) (asid team : Nat) : List Group :=
  ((r.groupOffs (r.num 0x1D 1) (r.num 0x38 8)).zipIdx).map fun (off, n) => r.group off n asid team

/-- The core places teams, and has what a record asks for (R48, R142, R391). -/
def State.canRestore (s : State) (c asid : Nat) (r : Rec) : Bool :=
  let k := s.core c
  let gs := (r.groups asid 0).filter Group.keeps
  k.svc == .inService && !k.faulted && (s.makeResident c asid).isSome && (gs.filter (·.live)).length ≤ k.freeSlots.length
    && !k.freeTeams.isEmpty && (gs.map fun g => g.pool).sum + k.regsUsed ≤ 4096
    && k.spadUsed + r.num 0x20 4 ≤ 524288 && r.num 0x24 2 ≤ s.freeTokens c
    && k.accsUsed + (gs.map fun g => countBits g.accHeld).sum ≤ 64
    && k.streamsUsed + (gs.map fun g => countBits g.strHeld).sum ≤ 16

/-- Teams and stages of a launch (Table 7-4). -/
def State.launchOf (s : State) (id : Word) : Option Launch := s.launches.find? fun l => l.id == id

/-- S of a launch. -/
def Launch.stages (l : Launch) : Nat := ((l.words.getD 5 0).extractLsb' 8 8).toNat

/-- Teams of a launch. -/
def Launch.teams (l : Launch) : Nat := l.x * l.y * l.z * l.stages

/-- The team of a record, with no hold counted yet. -/
def State.recTeam (s : State) (r : Rec) (asid : Nat) : Team :=
  let id := r.word 8
  let size := r.num 0x20 4
  let sec := fun (n : Nat) => r.num (0x38 + 8 * n) 8
  let tiles := r.take (sec 5) (size / 1024)
  { Team.none with
    launch := id, asid := asid, tid := r.num 0x10 4, x := r.num 0x14 4, y := r.num 0x18 2, z := r.num 0x1A 2,
    stage := r.num 0x1C 1, groups := r.num 0x1D 1, stages := ((s.launchOf id).map (·.stages)).getD 1,
    teams := ((s.launchOf id).map (·.teams)).getD 0, spadBytes := size,
    spad := (r.take (sec 3) size).zipIdx.filterMap fun (b, i) => if b == 0 then none else some (i, b),
    tags := (List.range (size / 8)).filterMap fun w =>
      let t := r.num (sec 4 + w / 4) 1 / 4 ^ (w % 4) % 4
      if t = 0 then none else some (w, BitVec.ofNat 2 t),
    diagonal := tiles.zipIdx.filterMap fun (b, i) => if b.getLsbD 0 then some (i, true) else none,
    holds := tiles.zipIdx.filterMap fun (b, i) => if b.getLsbD 1 then some (i, 1) else none,
    heldArr := (List.range (r.num 0x88 4)).filterMap fun i =>
      let e := r.num (r.num 0x80 8 + 8 * i) 8
      if e / 2 ^ 32 % 2048 = 0 then none else some (e % 2 ^ 32, e / 2 ^ 32 % 2048),
    pb := r.word 0x28, lss := r.num 0x30 8,
    ended := (r.groups asid 0).filterMap fun g => if g.live then none else some g.number }

/-- The FORWARD entry of a handle and the operation it holds, if the handle's operation stands in a record. -/
def State.savedAt (s : State) (h : Word) : Option Op :=
  let t := s.token (handleCore h) (handleSlot h)
  match t.use with
  | .forwardSaved _ _ op => if t.gen == h.extractLsb' 16 24 && op.handle == h then some op else none
  | _ => none

/-- The operation of record `i`, as the FORWARD entry keeps it where it does. -/
def State.recOp (s : State) (r : Rec) (t : Team) (i : Nat) : Op :=
  let o := r.op (r.num (0x38 + 48) 8 + 64 * i) t
  let first := if o.isStep && o.started then ((s.region o.dst.toNat).step - BitVec.ofNat 64 o.cursor).toNat else 0
  (s.savedAt o.handle).getD
    { o with delivered := o.cursor, refused := o.unitAddr, first := first, claimed := o.partition && o.y != 0 }

/-- The operation of a record has not been reclaimed while it stood saved (R260, R275). -/
def State.stillSaved (s : State) (op : Op) : Bool :=
  (s.token (handleCore op.handle) (handleSlot op.handle)).gen == op.handle.extractLsb' 16 24

/-- Hold counts from the operations that name the team's tiles and have not ended (R272): those of its record, and
others that hold its tiles as remote ones. -/
def State.rebuildHolds (s : State) (t : Team) (ops : List Op) : Team :=
  let far := (s.allOps ++ s.savedOps.filter fun x => !ops.any fun o => o.handle == x.2.2.handle).map fun x => x.2.2
  let own := ops.filter fun o => !o.state.final
  let far := (far.filter fun o => o.launch == t.launch && !o.state.final) ++ own
  let n := fun (i : Nat) =>
    (own.filter fun o => o.tiles.contains i).length + (far.filter fun o => o.remote.contains (t.tid, i)).length
  { t with holds := (List.range (t.spadBytes / 1024)).foldl (fun m i => m.put 0 i (n i)) [] }

/-- Places a restored operation in a new entry and leads its handle there (R275, Table 13-3). What was returned of its
final state stays with it (R260). -/
def State.restoreOp (s : State) (c t : Nat) (slots : List (Nat × Nat)) (op : Op) : State :=
  match s.tokenSlot c with
  | none => s
  | some e =>
    let g := ((slots.find? fun x => x.1 == op.byGroup).map (·.2)).getD Config.gslots
    let live := { op with byTeam := some t, byGslot := g, unit := .idle, got := [], preempt := false, recal := false,
                          state := if op.state == .parked then .running else op.state }
    let oc := handleCore op.handle
    let oe := handleSlot op.handle
    let was := s.token oc oe
    let s := (s.forwardsEnd c e).dropOrphan c e
    let s := s.setToken c e ⟨nextGen (s.token c e).gen, .live live, was.seen, s.turn⟩
    s.setToken oc oe { s.token oc oe with use := .forwardTo c e }

/-- What was resolved about an operation while it stood saved takes effect once the record is restored (R269). -/
def State.settleRestored (s : State) (op : Op) : State :=
  match (s.token (handleCore op.handle) (handleSlot op.handle)).use with
  | .forwardTo c e =>
    if op.cancel && !op.state.final then s.cancelOp c e
    else if op.state == .faulted && op.preempt then s.resumeOp c e
    else s
  | _ => s

/-- A slot of a record is not legal (Table 6-14a): the slot stays EMPTY, the team is halted and a STOP message names the
slot's place in the record, as a pop of a reserved SLOT entry does (R45; log 53). -/
def State.badSlot (s : State) (c g : Nat) (at_ : Word) : State :=
  let x := s.group c g
  let t := s.team c x.team
  let s := s.haltTeam c x.team .pop 5
  s.addMsg x.asid
    { kind := .stop, cause := Cause.illegal, asid := x.asid, seq := 0, addr := at_, mask := 0, core := c, index := 0xFFFF,
      tid := t.tid, group := x.number, access := Access.stack.code, launch := t.launch, pc := at_ }

/-- Gives a restored group its slots; the ready ones follow every slot of the core in rank order (R127). -/
def State.restoreSlots (s : State) (c g off : Nat) (va : Word) (r : Rec) : State :=
  let one := fun (s : State) (n : Nat) =>
    match r.slot (off + 32 * n) s.turn (r.word (off + 0x78 + 8 * n)) with
    | some y => s.onGroup c g fun x => x.setSlot n { y with asked := s.nextTag }
    | none => s.badSlot c g (va + BitVec.ofNat 64 (off + 32 * n))
  one (one s 0) 1

/-- What a saved team's record does not hold comes back to a group: steps taken, and where one was executed. -/
def SavedTeam.restoreGroup (x : SavedTeam) (g : Group) : Group :=
  let done := fun (n : Nat) (y : Slot) =>
    match List.find? (fun (d : Nat × Nat × Mask × Nat) => d.1 == g.number && d.2.1 == n) x.dones with
    | some (_, _, m, len) => if y.state == SlotState.blocked then { y with done := m, len := len } else y
    | none => y
  let slot := fun (n : Nat) (y : Slot) => { done n y with stepped := x.steps.contains (g.number, n) }
  let last := (x.stepReqs.filter fun r => r.1 == g.number).getLast?
  { g with slot0 := slot 0 g.slot0, slot1 := slot 1 g.slot1, sstep := (last.map (·.2)).getD g.sstep,
           steps := x.steps.filterMap fun p => if p.1 == g.number && 2 ≤ p.2 then some (p.2 - 2) else none,
           joins := x.joins.filterMap fun p => if p.1 == g.number then some p.2 else none }

/-- A landing entry comes back with a new SEQ (R130); no PARK record and no count says so (log 56). -/
def State.restoreEntry (s : State) (c t : Nat) (slots : List (Nat × Nat))
    (frames : List (BitVec 32 × BitVec 8 × Store Word)) (cows : List (BitVec 32)) (e : Landing) : State :=
  let k := s.core c
  match s.pick 0 ((List.range 2048).filter fun i => (s.entry c i).state == .free) with
  | none => s
  | some i =>
    let e := { e with
      team := t, gslot := ((slots.find? fun x => x.1 == e.group).map (·.2)).getD 0, seq := k.landseq,
      frame := (frames.find? fun f => f.1 == e.seq).map fun f => (f.2.1, f.2.2), cow := cows.contains e.seq }
    (s.setCore c { k with landseq := k.landseq + 1 }).setEntry c i e

/-- The groups with their accumulators and streams, which a record keeps in order of group, then name. -/
def Rec.withUnits (r : Rec) (gs : List Group) : List Group :=
  let accs := gs.flatMap fun g => (heldNames g.accHeld).map fun n => (g.number, n)
  let strs := gs.flatMap fun g => (heldNames g.strHeld).map fun n => (g.number, n)
  gs.map fun g =>
    { g with
      acc := (accs.zipIdx.filter fun x => x.1.1 == g.number).flatMap fun (x, i) =>
        r.store32 (r.num 0x40 8 + 4096 * i) (1024 * x.2) 1024,
      streams := (strs.zipIdx.filter fun x => x.1.1 == g.number).map fun (x, i) =>
        (x.2, r.stream (r.num 0x48 8 + 8192 * i)) }

/-- Restores a record at an address that the core can take (R130, R229). Entries of a team that was released while it stood
saved are HELD no longer (R134). -/
def State.restore (s : State) (c asid : Nat) (va : Word) (r : Rec) : State :=
  let s := (s.makeResident c asid).getD s
  let ti := ((s.pick 5 (s.core c).freeTeams)).getD 0
  let gs := r.withUnits (r.groups asid ti)
  let offs := r.groupOffs (r.num 0x1D 1) (r.num 0x38 8)
  let kept := gs.filter (·.live) ++ gs.filter fun g => !g.live && g.keeps
  let gslots := s.chooseSome 3 (gs.filter (·.live)).length (s.core c).freeSlots ++ (s.core c).endedKeys
  let slots := (kept.map (·.number)).zip gslots
  let t := s.recTeam r asid
  let ops := ((List.range (r.num 0x24 2)).map fun i => s.recOp r t i).filter s.stillSaved
  let was : Option SavedTeam := s.saved.find? fun (x : SavedTeam) => x.launch == t.launch && x.tid == t.tid
  let halts := match was with
    | some x => x.halts
    | none => if r.num 4 1 % 2 = 1 then [.halt] else []
  let s := s.setTeam c ti { s.rebuildHolds t ops with halts := halts }
  let s := (kept.zip gslots).foldl (fun s (g, i) => s.setGroup c i g) s
  let s := (kept.zip gslots).foldl (fun s (g, i) =>
    if g.live then s.restoreSlots c i (offs.getD g.number 0) va r else s) s
  let s : State := match was with
    | some x => slots.foldl (fun s (_, i) => s.onGroup c i x.restoreGroup) s
    | none => s
  let s := (List.range (r.num 0x26 2)).foldl (fun s i =>
    s.restoreEntry c ti slots ((was.map SavedTeam.frames).getD []) ((was.map SavedTeam.cows).getD []) (r.landing (r.num 0x70 8 + 320 * i))) s
  let s := ops.foldl (fun s op => s.restoreOp c ti slots op) s
  let s := ops.foldl (fun s op => s.settleRestored op) s
  let s := { s with
    saved := s.saved.filter fun x => !(x.launch == t.launch && x.tid == t.tid),
    swapNeeds := s.swapNeeds.filter fun x => x != (t.launch, t.tid) }
  let s := s.acquire c
  let s := if halts.isEmpty then s.unholdEntries c ti else s
  let s := if ((s.ctx asid).dbg.dumpstat).getLsbD 8 then s.haltTeam c ti .late 3 else s
  if was.any SavedTeam.killed then s.killHere c ti else s

/-- `team.in` of a record for a context: the status of Table 6-17, or what must come over the fabric first. Nonzero bits
in the zero fields of a record (KIND[63:33] and those of Tables 6-13 and 6-14) have no effect (log 25). -/
def State.swapIn (s : State) (c asid : Nat) (va : Word) : State × Res Nat :=
  let a := s.svcAgent c asid
  match s.fetch a va 0x200 with
  | (s1, .ok hd) =>
    let h : Rec := hd.toArray
    if h.num 0 4 != 0x00010001 then (s, .ok 1)
    else
      match s1.fetch a va (h.num 0x78 8) with
      | (s1, .ok bs) =>
        if s.canRestore c asid bs.toArray then (s1.restore c asid va bs.toArray, .ok 0) else (s, .ok 2)
      | (_, .no _) => (s, .ok 3)
      | (_, r) => (s, r.bind fun _ => .ok 0)
  | (_, .no _) => (s, .ok 3)
  | (_, r) => (s, r.bind fun _ => .ok 0)

/-- A swap-in by the supervisor of a team that a slot names in state 1; SWAPSTAT's value, or what must come over the
fabric first, with nothing changed (R168). -/
def State.trySwapIn (s : State) (c asid : Nat) (p : SlipSlot → Bool) : State × Res Nat :=
  let a := s.svcAgent c asid
  match s.findSlip a (fun y => y.state == 1 && p y) slipSlots (s.regs c asid).slip with
  | (_, .ok none) => (s, .ok 6)
  | (s1, .ok (some y)) =>
    if !(s.core c).svc == .inService then (s, .ok 2)
    else
      match s1.setSlip a y 2 with
      | (s2, .ok _) =>
        match s2.swapIn c asid y.record with
        | (s3, .ok 0) => ((s3.setSlip a y 0).1, .ok 0)
        | (_, r) => (s, r)
      | (_, .no _) => (s, .ok 3)
      | (_, r) => (s, r.bind fun _ => .ok 0)
  | (_, .no _) => (s, .ok 3)
  | (_, r) => (s, r.bind fun _ => .ok 0)

/-- A swap-in by the supervisor: its value for SWAPSTAT, or none while it waits for the fabric. -/
def State.swapInSlot (s : State) (c asid : Nat) (p : SlipSlot → Bool) : State × Option Nat :=
  match s.trySwapIn c asid p with
  | (s, .ok n) => (s.svcDone c, some n)
  | (s, .need w o) => (s.askService c w o, none)
  | (s, _) => (s, none)

end Sys2Proof.Machine
end

