-- ==== Sys2Proof/Machine/Privileged.lean ====
section
/-! DEFINITION. The privileged instructions (06 R139 to R143). -/

namespace Sys2Proof.Machine

open Sys2Proof

/-! ### `park`, `unpark` (R139) -/

/-- A PENDING entry that goes before another: one that a release put ahead, then the lower SEQ as a number, also where
LANDSEQ has passed 2^32 - 1 (R113, R134; log 13). -/
def Landing.before (x y : Landing) : Bool := y.ahead < x.ahead || (x.ahead == y.ahead && x.seq.toNat < y.seq.toNat)

/-- The PENDING entry that is claimed next. -/
def State.nextPending (s : State) (c : Nat) : Option Nat :=
  ((s.core c).landing.foldl (fun (m : Option (Nat × Landing)) (i, e) =>
    if e.state != .pending then m
    else
      match m with
      | some (_, x) => if e.before x then some (i, e) else m
      | none => some (i, e)) none).map (·.1)

def execPark (o : PrivOp) (s : State) : Out :=
  issue (.park o) o.g s fun _ =>
    match s.nextPending s.cur.core with
    | some i =>
      ((s.onEntry s.cur.core i fun e => { e with state := .inService }).onMe fun g =>
        g.putOpt o.d (BitVec.ofNat 64 i)).advance (.park o)
    | none =>
      if o.fn == 0 then s.reissue
      else (s.onMe fun g => g.putOpt o.d (BitVec.allOnes 64)).advance (.park o)

def execUnpark (o : PrivOp) (s : State) : Out :=
  issue (.unpark o) o.g s fun act =>
    let c := s.cur.core
    let i := (s.me.opt o.a).toNat
    let k := o.fn.toNat
    if 2048 ≤ i || !(s.entry c i).resolvable || !s.obeyed c i k then s.raise (.unpark o) act Cause.softTrap 0
    else
      match s.tryResolve c i k with
      | (s, true) => s.advance (.unpark o)
      | (s, false) => s.reissue

/-! ### `tlbi` (R140) -/

/-- What a `tlbi` names. -/
inductive TlbName where
  | page (asid : Nat) (va : Word)
  | asid (asid : Nat)
  | all
  deriving DecidableEq, Repr

/-- The page that a cached leaf of a level maps, with the pages that may be joined to it (R194). -/
def joinSize (level : Nat) : Nat := pageSize level * (if level = 0 then 16 else if level = 2 then 64 else 1)

def TlbName.leaf (n : TlbName) (key : Nat) (l : Leaf) : Bool :=
  match n with
  | .page a va =>
    let size := joinSize l.level
    key / 2 ^ 45 == a && key % 2 ^ 45 * 4096 / size == va.toNat % 2 ^ 57 / size
  | .asid a => key / 2 ^ 45 == a
  | .all => true

def TlbName.table (n : TlbName) (key : Nat) : Bool :=
  match n with
  | .page a va => (List.range 4).any fun k => key == walkKey a va (k + 1)
  | .asid a => key / 2 ^ 45 / 8 == a
  | .all => true

def TlbName.hits (n : TlbName) (a : Nat) : Bool :=
  match n with
  | .page b _ | .asid b => a == b
  | .all => true

/-- No translation cache holds a named translation any more, and no peer line that a page table may lie in is held as it
was: neither in the stacked cache nor among what services and queues have received (R192, R198). -/
def State.dropTlb (s : State) (n : TlbName) : State :=
  let lines := fun (l : List Arrived) => l.filter fun (x : Arrived) => match x.want with | .line _ => false | _ => true
  let s := s.eachCore fun s c => s.onCore c fun k =>
    { k with tlb := k.tlb.keep fun key l => !n.leaf key l, got := lines k.got }
  let queues := s.queues.mapAll fun _ q =>
    { q with got := q.got.filter fun e => match e.2.want with | .line _ => false | _ => true }
  { s with walk := s.walk.keep fun key _ => !n.table key, queues := queues }.dropPeers

/-- Who waits for a request may have used a named translation; a service of the device may act for any context. -/
def State.originHits (s : State) (n : TlbName) : Origin → Bool
  | .slot c g _ _ | .red c g _ _ _ => n.hits (s.group c g).asid
  | .unit c e _ => (s.op? c e).any fun op => n.hits op.asid
  | .queue q _ _ => n.hits ((s.queue q).cfg.extractLsb' 0 16).toNat
  | .service _ _ => true
  | .prefetch _ a => n.hits a
  | .writeback _ _ | .gone _ _ _ => false

/-- A slot or an operation that has been answered and has not gone on holds what came of a named translation: a line of a
table, or the checked places of its spill. -/
def State.holdsNamed (s : State) (n : TlbName) : Bool :=
  (s.cores.any fun (_, k) => k.groups.any fun (_, g) => n.hits g.asid
      && [g.slot0, g.slot1].any fun y => y.state == .blocked && (!y.got.isEmpty || y.checked.isSome))
    || s.allOps.any fun (_, _, op) => n.hits op.asid && op.state == .running && !op.got.isEmpty

/-- An access that may have used a named translation has left and is not answered, or its answer is not used up. -/
def State.usesNamed (s : State) (n : TlbName) : Bool :=
  (s.requests.any fun r => s.originHits n r.origin) || s.holdsNamed n

def execTlbi (o : PrivOp) (s : State) : Out :=
  issue (.tlbi o) o.g s fun _ =>
    let a := s.me.opt o.a
    let name : TlbName :=
      if o.fn == 0 then .page ((s.me.opt o.b).extractLsb' 0 16).toNat a
      else if o.fn == 1 then .asid (a.extractLsb' 0 16).toNat else .all
    let s := s.dropTlb name
    if s.usesNamed name then s.reissue else s.advance (.tlbi o)

/-! ### `ctx.save`, `ctx.load` (R141) -/

/-- The context whose master block lies at a physical address (R166). -/
def blockOf (pa : Nat) : Option Nat :=
  if blockBase ≤ pa && pa < blockBase + 256 * 65536 && pa % 256 == 0 then some ((pa - blockBase) / 256) else none

/-- The 32 registers of a block. -/
def CtxRegs.block (r : CtxRegs) : List Byte :=
  (List.range 32).flatMap fun k => leBytes 8 (r.read (0x100 + k)).toNat

/-- Registers from a block; FIRED comes back as it was saved. -/
def CtxRegs.ofBlock (bs : List Byte) : CtxRegs :=
  let w := fun k => BitVec.ofNat 64 (leNat ((bs.drop (8 * k)).take 8))
  let r := (List.range 32).foldl (fun r k => if k = 4 then r else r.write (0x100 + k) (w k)) CtxRegs.zero
  { r with wdog := wdogWrite 0 (w 4) ||| (w 4 &&& 0x100) }

def State.readBlock (s : State) (pa : Nat) : CtxRegs :=
  match blockOf pa with
  | some a => (s.ctx a).master
  | none => CtxRegs.ofBlock (s.deviceRead pa 256)

def State.writeBlock (s : State) (pa : Nat) (r : CtxRegs) : State :=
  match blockOf pa with
  | some a => s.onCtx a fun x => { x with master := r }
  | none => s.deviceWrite pa r.block

/-- `ctx.save`. A context that the core holds no copies of is saved as its master block stands (log 32). -/
def execCtxSave (o : PrivOp) (s : State) : Out :=
  issue (.ctxSave o) o.g s fun act =>
    let pa := s.me.opt o.a
    let a := ((s.me.opt o.b).extractLsb' 0 16).toNat
    if pa.toNat % 64 != 0 then s.raise (.ctxSave o) act Cause.align pa
    else (s.writeBlock pa.toNat (s.regs s.cur.core a)).advance (.ctxSave o)

def execCtxLoad (o : PrivOp) (s : State) : Out :=
  issue (.ctxLoad o) o.g s fun act =>
    let c := s.cur.core
    let pa := s.me.opt o.a
    let a := ((s.me.opt o.b).extractLsb' 0 16).toNat
    let k := s.core c
    let new := (k.copies.find? a).isNone
    if pa.toNat % 64 != 0 then s.raise (.ctxLoad o) act Cause.align pa
    else if new && a != 0 && 16 ≤ k.residents.length then s.raise (.ctxLoad o) act Cause.resource 0
    else
      let credit := if new then (List.range 4).foldl (fun m n => m.set (4 * a + n) 0) k.credit else k.credit
      (s.setCore c { k with copies := k.copies.set a (s.readBlock pa.toNat), credit := credit }).advance (.ctxLoad o)

/-! ### `team.out`, `team.in` (R142) -/

/-- Writes a status and goes on. -/
def State.answerPriv (s : State) (i : Instr) (d : Option (BitVec 6)) (n : Nat) : State :=
  (s.onMe fun g => g.putOpt d (BitVec.ofNat 64 n)).advance i

/-- The instruction that moves a team waits with the place of its wait record at 2 above the team's index, by which it
knows the move as its own when it is issued again. -/
def State.ownMove (s : State) (t : Nat) : Bool := s.mySlot.state == .blocked && s.mySlot.wait.place == t + 2

/-- A supervisor instruction of the core moves the team. -/
def State.movedHere (s : State) (c t : Nat) : Bool :=
  let g := s.group c Config.supervisorSlot
  [g.slot0, g.slot1].any fun y => y.state == .blocked && y.wait.place == t + 2

def execTeamOut (o : PrivOp) (s : State) : Out :=
  issue (.teamOut o) o.g s fun _ =>
    let c := s.cur.core
    let t := (s.me.opt o.a).toNat
    let go := fun (s : State) =>
      match s.continueOut c t with
      | (s, none) => s.block { WaitRec.zero with place := t + 2 } 0 0
      | (s, some n) => s.answerPriv (.teamOut o) o.d (if n = 5 then 3 else n)
    if 64 ≤ t || !s.hasTeam c t then s.answerPriv (.teamOut o) o.d 1
    else if s.ownMove t then (if (s.team c t).moving then go s else s.answerPriv (.teamOut o) o.d 4)
    else if (s.team c t).moving || (s.team c t).dumped then s.answerPriv (.teamOut o) o.d 4
    else if (s.team c t).unsaved then s.answerPriv (.teamOut o) o.d 3
    else go (s.beginMove c t)

/-- The first of some contexts in whose slipway a slot in a state names a record. -/
def State.recordIn (s : State) (c st : Nat) (va : Word) : List Nat → State × Res (Option Nat)
  | [] => (s, .ok none)
  | a :: as =>
    match s.findSlip (s.svcAgent c a) (fun y => y.state == st && y.record == va) slipSlots (s.regs c a).slip with
    | (s, .ok (some _)) => (s, .ok (some a))
    | (s, .need w o) => (s, .need w o)
    | (s, .away l t) => (s, .away l t)
    | (s, _) => State.recordIn s c st va as

/-- The context in whose slipway a record lies: the one with a slot, being restored or else saved, that names it
(log 25). -/
def State.recordCtx (s : State) (c : Nat) (va : Word) : State × Res (Option Nat) :=
  let as := (s.ctxs.filter fun e => e.2.exists_).map (·.1)
  match s.recordIn c 2 va as with
  | (s, .ok none) => s.recordIn c 1 va as
  | r => r

/-- `team.in` as far as it can go now. -/
def State.tryTeamIn (s : State) (c : Nat) (va : Word) : State × Res Nat :=
  match s.recordCtx c va with
  | (s, .ok none) => (s, .ok 1)
  | (s, .ok (some a)) => s.swapIn c a va
  | (s, r) => (s, r.bind fun _ => .ok 0)

def execTeamIn (o : PrivOp) (s : State) : Out :=
  issue (.teamIn o) o.g s fun _ =>
    let c := s.cur.core
    match s.tryTeamIn c (s.me.opt o.a) with
    | (s, .ok n) => (s.svcDone c).answerPriv (.teamIn o) o.d n
    | (s, .no _) => (s.svcDone c).answerPriv (.teamIn o) o.d 3
    | (s, .need w q) => (s.askService c w q).reissue
    | (s, .away _ _) => s.reissue

/-! ### `halt` (R143) -/

/-- The teams that a `halt` names. -/
def State.haltNames (s : State) (o : PrivOp) : List Nat :=
  let v := s.me.opt o.a
  if o.fn.toNat < 2 then (if v.toNat < 64 then [v.toNat] else [])
  else s.teamsOf s.cur.core (v.extractLsb' 0 16).toNat

def execHalt (o : PrivOp) (s : State) : Out :=
  issue (.halt o) o.g s fun _ =>
    ((s.haltNames o).foldl (fun s t => s.haltTeam s.cur.core t .halt 5) s).advance (.halt o)

def execHaltRelease (o : PrivOp) (s : State) : Out :=
  issue (.haltRelease o) o.g s fun _ =>
    ((s.haltNames o).foldl (fun s t => s.release1 s.cur.core t) s).advance (.haltRelease o)

end Sys2Proof.Machine
end

