-- ==== Sys2Proof/Machine/Service.lean ====
section
/-! DEFINITION. The supervisor's services as device behaviour: zero-fill, COW copies, host messages, the resolutions,
rotation, the watchdog (06 R114 to R124, R131 to R133; 13 R269). -/

namespace Sys2Proof.Machine

open Sys2Proof

/-! ### Rings (R118, R120) -/

/-- The indices of a ring at a physical address: PROD, CONS and N. -/
structure Ring where
  prod : BitVec 32
  cons : BitVec 32
  n : Nat
  deriving DecidableEq, Repr

/-- Bytes at a physical address, as the supervisor of a core reads them. -/
def State.phys (s : State) (a : Agent) (pa n : Nat) : Res (List Byte) :=
  s.readPlaces a ((pieces (n + 1) (BitVec.ofNat 64 pa) n).map fun p => (p.1.toNat, p.2))

def State.ring (s : State) (a : Agent) (pa : Nat) : Res Ring :=
  (s.phys a pa 12).bind fun bs =>
    let w := fun (i : Nat) => leNat ((bs.drop i).take 4)
    .ok ⟨BitVec.ofNat 32 (w 0), BitVec.ofNat 32 (w 4), w 8⟩

/-- The frame that the free-frame ring gives next. -/
def State.nextFrame (s : State) (c a : Nat) : Res (Option Nat) :=
  let g := s.svcAgent c a
  let pa := (s.regs c a).freering.toNat
  if pa = 0 then .ok none
  else
    (s.ring g pa).bind fun r =>
      if r.n = 0 || r.prod == r.cons then .ok none
      else (s.phys g (pa + 64 + 8 * (r.cons.toNat % r.n)) 8).bind fun bs => .ok (some (leNat bs / 4096 * 4096))

/-- CONS of the free-frame ring moves on. -/
def State.tookFrame (s : State) (c a : Nat) : State :=
  let pa := (s.regs c a).freering.toNat
  match s.ring (s.svcAgent c a) pa with
  | .ok r => s.deviceWrite (pa + 4) (leBytes 4 (r.cons + 1).toNat)
  | _ => s

/-- The caches of the cores hold nothing of a span of memory any more. -/
def State.dropSpan (s : State) (lo hi : Nat) : State :=
  { s with cores := s.cores.mapAll fun _ k =>
      { k with clean := k.clean.keep fun x _ => 32 * x + 32 ≤ lo || hi ≤ 32 * x,
               icache := k.icache.keep fun x _ => 32 * x + 32 ≤ lo || hi ≤ 32 * x,
               dirty := k.dirty.keep fun x _ => x < lo || hi ≤ x } }

/-- Zeroes a frame: whatever the caches of the cores hold of it is gone. -/
def State.zeroFrame (s : State) (f : Nat) : State :=
  let s := s.dropSpan f (f + 4096)
  if isPeer f || isHost f then s.deviceWrite f (List.replicate 4096 0)
  else { s with mem := s.mem.keep fun pa _ => pa < f || f + 4096 ≤ pa }

/-! ### The entry of a page -/

/-- What a service finds where the walk of an address ends: an entry at L0 or a leaf above it, with its place and level; a
table entry that leads no further; or a wait for the fabric. -/
inductive PageAt where
  | entry (pa : Nat) (e : Word) (level : Nat)
  | above
  | wait (w : Want) (op : HomeOp)
  deriving DecidableEq, Repr

/-- Walks to the entry of an address, without a use of any cache (R118, R119 test the entry). -/
def State.pageWalk (s : State) (a : Agent) (va : Word) : Nat → Nat → Nat → PageAt
  | 0, _, _ => .above
  | k + 1, level, table =>
    let pa := table + 8 * tableIndex va level
    match s.readEntry a pa with
    | .ok e =>
      if level = 0 then .entry pa e 0
      else if !eP e || s.malformed e level then .above
      else if eLeaf e then .entry pa e level
      else State.pageWalk s a va k (level - 1) (eFrame e)
    | .need w o => .wait w o
    | _ => .above

def State.pageAt (s : State) (c a : Nat) (va : Word) : PageAt :=
  let root := (s.regs c a).ptroot
  let table := 4096 * (root.extractLsb' 12 40).toNat
  if !root.getLsbD 0 || !s.mapped table || va.extractLsb' 57 7 != 0 then .above
  else s.pageWalk (s.svcAgent c a) va 5 4 table

/-- Writes a page-table entry as the supervisor. -/
def State.putEntry (s : State) (pa : Nat) (e : Word) : State := s.deviceWrite pa (leBytes 8 e.toNat)

/-! ### Zero-fill (R118) -/

/-- What a service makes of a fault at an address: the state once it is done; a page that needs nothing any more; no
service; or a wait for the fabric (R192). -/
inductive Service where
  | done (s : State)
  | present
  | no
  | wait (w : Want) (op : HomeOp)
  deriving DecidableEq, Repr

/-- The supervisor of a core serves: no trip has stopped it (21 R389), and no trap of its own (R116, 21 R392). -/
def State.serving (s : State) (c : Nat) : Bool := !s.tripped && !(s.core c).faulted

/-- Takes a frame of the free-frame ring for a service. -/
def State.withFrame (s : State) (c a : Nat) (f : State → Nat → Service) : Service :=
  match s.nextFrame c a with
  | .ok (some n) => f (s.tookFrame c a) n
  | .need w o => .wait w o
  | _ => .no

/-- The entry that zero-fill leaves. -/
def zeroFilled (e : Word) (f : Nat) : Word :=
  (e &&& ~~~(0x004FFFFFFFFFF060#64)) ||| BitVec.ofNat 64 f ||| 0x11

/-- Zero-fill for an address; `present` where the page's entry has been changed already. -/
def State.zeroFill (s : State) (c a : Nat) (va : Word) : Service :=
  if !(s.regs c a).svcmode.getLsbD 0 then .no
  else
    match s.pageAt c a va with
    | .wait w o => .wait w o
    | .above => .no
    | .entry pa e level =>
      if level != 0 then .no
      else if eP e then .present
      else if !eZf e then .no
      else s.withFrame c a fun s f => .done ((s.zeroFrame f).putEntry pa (zeroFilled e f))

/-- The service of the lanes of an entry: the first lane that needs a page and can have it. -/
def zeroFillLanes (f : Word → Service) : List Word → Service
  | [] => .present
  | va :: r =>
    match f va with
    | .done s => .done s
    | .wait w o => .wait w o
    | .present => zeroFillLanes f r
    | .no =>
      match zeroFillLanes f r with
      | .present => .no
      | x => x

/-- Detail words of an entry's lanes. -/
def Landing.details (e : Landing) : List Word := (lanes e.mask).map fun l => e.detail.get 0 l

/-- ZERO_FILL_SERVICE of a PENDING entry. -/
def execZeroFillService (core idx : Nat) (s : State) : Out :=
  happen (.zeroFillService core idx) s fun s =>
    let e := s.entry core idx
    if !s.serving core || e.state != .pending || e.cause != Cause.notPresent then s
    else
      match zeroFillLanes (s.zeroFill core e.asid) e.details with
      | .done s | .present => (s.svcDone core).resolveEntry core idx 0
      | .no => s.svcDone core
      | .wait w o => s.askService core w o

/-! ### COW copies (R119, R181) -/

/-- A COW-snapshot page of a level that a write may copy: its leaf lets the write through but for the bit. -/
def State.cowPage (s : State) (e : Word) (level : Nat) (privileged : Bool) : Bool :=
  eP e && eLeaf e && eCow e && eW e && eClass e != 1 && (eU e || privileged) && !s.malformed e level

/-- An L0 leaf that CONT joins into a page of 64 KiB (10 R194). -/
def State.joinedLeaf (s : State) (a : Agent) (pa : Nat) (e : Word) : Bool :=
  eCont e &&
    match s.phys a (pa / 128 * 128) 128 with
    | .ok bs => joined ((List.range 16).map fun i => BitVec.ofNat 64 (leNat ((bs.drop (8 * i)).take 8))) 4096
    | _ => false

/-- Every L1 publishes what it holds written of a frame, so that the frame can be copied (11 R215). -/
def State.publishFrame (s : State) (f : Nat) : State :=
  s.eachCore fun s c => ((s.core c).writtenSectors fun pa _ => pa / 4096 == f / 4096).foldl
    (fun s x => s.publishSector c x) s

/-- The drain ring is enabled and has room. -/
def Debug.drainRoom (d : Debug) : Bool :=
  d.draincfg.getLsbD 8 && 0 < ringRoom d.drainprod d.draincons (d.draincfg.extractLsb' 0 5).toNat

/-- A drain entry (Table 8-10). -/
def State.drain (s : State) (a frame : Nat) (va : Word) : State :=
  let d := (s.ctx a).dbg
  let n := 2 ^ (d.draincfg.extractLsb' 0 5).toNat
  let bs := leBytes 8 frame ++ leBytes 8 (va.toNat / 4096 * 4096) ++ leBytes 4 (d.draincfg.extractLsb' 16 32).toNat
    ++ leBytes 2 a ++ List.replicate 10 0
  (s.deviceWrite (d.drainbase.toNat + 32 * (d.drainprod.toNat % n)) bs).onCtx a fun x =>
    { x with dbg := { x.dbg with drainprod := x.dbg.drainprod + 1 } }

/-- The copy of a COW-snapshot page for a write at an address: of a page of 4 KiB alone. -/
def State.cowCopy (s : State) (c a : Nat) (va : Word) (privileged : Bool) : Service :=
  match s.pageAt c a va with
  | .wait w o => .wait w o
  | .above => .no
  | .entry pa e level =>
    if level != 0 || !s.cowPage e level privileged || s.joinedLeaf (s.svcAgent c a) pa e
        || !(s.regs c a).svcmode.getLsbD 2 || !(s.ctx a).dbg.drainRoom then .no
    else
      s.withFrame c a fun s f =>
        let old := eFrame e
        let s := s.publishFrame old
        match s.phys (s.svcAgent c a) old 4096 with
        | .ok bs =>
          let s := ((s.dropSpan f (f + 4096)).deviceWrite f bs).putEntry pa
            ((e &&& ~~~(0x000FFFFFFFFFF080#64)) ||| BitVec.ofNat 64 f)
          .done ((s.dropTlb (.page a va)).drain a old va)
        | .need w o => .wait w o
        | _ => .no

/-- ACCESS of an entry whose access writes. -/
def Landing.writing (e : Landing) : Bool :=
  e.access == Access.write.code || e.access == Access.rmw.code || e.access == Access.frame.code
    || e.access == Access.stack.code

/-- The first lane for which a test answers yes, in order. -/
def anyRes (f : Word → Res Bool) : List Word → Res Bool
  | [] => .ok false
  | x :: r => (f x).bind fun b => if b then .ok true else anyRes f r

/-- A lane of an entry names a COW-snapshot page, of any size, as the tables stand now. -/
def State.cowNow (s : State) (c i : Nat) : Res Bool :=
  let e := s.entry c i
  anyRes (fun va =>
    match s.pageAt c e.asid va with
    | .entry _ w level => .ok (s.cowPage w level (s.group c e.gslot).privileged)
    | .above => .ok false
    | .wait w o => .need w o) e.details

/-- An entry whose cause is a write to a COW-snapshot page: one that was refused so, also where its page has been copied
since, or one whose page is such a page now. -/
def State.cowEntry (s : State) (c i : Nat) : Res Bool :=
  let e := s.entry c i
  if e.cause != Cause.permission || !e.writing then .ok false
  else if e.cow then .ok true
  else s.cowNow c i

/-- The address lies in a page of 4 KiB. -/
def samePage (x va : Word) : Bool := x.toNat / 4096 == va.toNat / 4096

/-- Other parked entries of the context that write the same page are resolved by the same copy (R119), and so are
operations that faulted there. -/
def State.cowOthers (s : State) (a : Nat) (va : Word) : State :=
  let s := s.eachCore fun s c => (s.core c).landing.foldl (fun s (i, _) =>
    let e := s.entry c i
    if (e.state == .pending || e.resolvable) && e.asid == a && e.cause == Cause.permission && e.writing
        && e.details.any fun x => samePage x va then
      s.resolveEntry c i 0
    else s) s
  s.allOps.foldl (fun s (c, i, op) =>
    if op.state == .faulted && op.cause == Cause.permission && op.asid == a && samePage op.refused va then s.resumeOp c i
    else s) s

/-- The first page of an entry's lanes that can be copied, or that the copy waits for, with its address. -/
def cowLanes (f : Word → Service) : List Word → Word × Service
  | [] => (0, .no)
  | va :: r =>
    match f va with
    | .no | .present => cowLanes f r
    | x => (va, x)

/-- The copy for an entry; `present` where its pages have been copied since (R119: a page is copied once). -/
def State.cowFor (s : State) (c i : Nat) : Word × Service :=
  let e := s.entry c i
  match cowLanes (fun va => s.cowCopy c e.asid va (s.group c e.gslot).privileged) e.details with
  | (va, .no) =>
    match s.cowNow c i with
    | .ok false => (va, if e.cow && (s.regs c e.asid).svcmode.getLsbD 2 then .present else .no)
    | .need w o => (va, .wait w o)
    | _ => (va, .no)
  | r => r

/-- COW_COPY_SERVICE of a PENDING entry. -/
def execCowCopyService (core idx : Nat) (s : State) : Out :=
  happen (.cowCopyService core idx) s fun s =>
    let e := s.entry core idx
    if !s.serving core || e.state != .pending || e.cause != Cause.permission || !e.writing then s
    else
      match s.cowFor core idx with
      | (va, .done s) => ((s.svcDone core).resolveEntry core idx 0).cowOthers e.asid va
      | (_, .present) => (s.svcDone core).resolveEntry core idx 0
      | (_, .wait w o) => s.askService core w o
      | (_, .no) => s.svcDone core

/-! ### Host messages (R120, Table 6-9) -/

def MsgKind.code : MsgKind → Nat
  | .page => 1 | .cow => 2 | .signal => 3 | .stop => 4 | .syscall => 5 | .token => 6 | .watchdog => 7 | .groupErr => 8

/-- The body of a message with VALID set or not. -/
def Msg.bytes (m : Msg) (valid : Bool) : List Byte :=
  leBytes 8 ((if valid then 1 else 0) + 16 * m.kind.code + 2 ^ 8 * m.cause.toNat + 2 ^ 16 * m.asid + 2 ^ 32 * m.seq.toNat)
    ++ leBytes 8 m.addr.toNat ++ leBytes 4 m.mask.toNat ++ leBytes 2 m.core ++ leBytes 2 m.index ++ leBytes 4 m.tid
    ++ leBytes 1 m.group ++ leBytes 1 m.access.toNat ++ [0, 0] ++ leBytes 8 m.launch.toNat ++ leBytes 8 m.pc.toNat
    ++ List.replicate 16 0

/-- The message ring of a context, where it has room. -/
def State.msgRing (s : State) (c a : Nat) : Res (Option Ring) :=
  let pa := (s.regs c a).fring.toNat
  if pa = 0 then .ok none
  else (s.ring (s.svcAgent c a) pa).bind fun r => .ok (if (r.prod - r.cons).toNat < r.n then some r else none)

/-- Writes a message: the body first, VALID last, then PROD. -/
def State.writeMsg (s : State) (c : Nat) (r : Ring) (m : Msg) : State :=
  let pa := (s.regs c m.asid).fring.toNat
  let at_ := pa + 64 + 64 * (r.prod.toNat % r.n)
  ((s.deviceWrite at_ (m.bytes false)).deviceWrite at_ ((m.bytes true).take 8)).deviceWrite pa
    (leBytes 4 (r.prod + 1).toNat)

/-- What decides a PENDING entry (R118, R119, R122): a message of a kind; a signal; a stop; a service; or nothing yet,
while a page-table entry or a page is fetched over the fabric. -/
inductive Decision where
  | post (k : MsgKind)
  | signal
  | stop
  | service
  | wait (w : Want) (op : HomeOp)
  deriving DecidableEq, Repr

/-- R122 for an entry that no service has taken. -/
def Landing.disposition (e : Landing) (r : CtxRegs) : Decision :=
  if !r.svcmode.getLsbD 3 then .post .signal
  else if r.disp.getLsbD e.cause.toNat && r.sigh != 0 && e.frame.isNone then .signal
  else .stop

def State.decide (s : State) (c i : Nat) : Decision :=
  let e := s.entry c i
  if e.cause == Cause.syscall then .post .syscall
  else if e.cause == Cause.notPresent then
    match zeroFillLanes (s.zeroFill c e.asid) e.details with
    | .no => .post .page
    | .wait w o => .wait w o
    | _ => .service
  else
    match s.cowEntry c i with
    | .ok true =>
      match (s.cowFor c i).2 with
      | .done _ | .present => .service
      | .wait w o => .wait w o
      | _ => .post .cow
    | .need w o => .wait w o
    | _ => e.disposition (s.regs c e.asid)

/-- The head of the messages that wait for a context goes out where the ring has room (R120). -/
def State.postNext (s : State) (a : Nat) : State :=
  match (s.ctx a).msgs with
  | [] => s
  | x :: r =>
    match s.msgRing x.core a with
    | .ok (some g) => ((s.onCtx a fun y => { y with msgs := r }).writeMsg x.core g x).svcDone x.core
    | .need w o => s.askService x.core w o
    | _ => s.svcDone x.core

/-- HOST_MESSAGE_POST: a PENDING entry is claimed, and its message waits its turn at the ring with the entry IN_SERVICE;
the first message that waits goes out where the ring has room (R120). -/
def execHostMessagePost (m : MsgFrom) (s : State) : Out :=
  happen (.hostMessagePost m) s fun s =>
    match m with
    | .landing c i =>
      let e := s.entry c i
      if !s.serving c || e.state != .pending then s
      else
        match s.decide c i with
        | .post k =>
          let alone := (s.ctx e.asid).msgs.isEmpty
          let s := ((s.onEntry c i fun e => { e with state := .inService }).svcDone c).addMsg e.asid (s.entryMsg k c i)
          if alone then s.postNext e.asid else s
        | .wait w o => s.askService c w o
        | _ => s
    | .waiting a => if s.tripped then s else s.postNext a

/-! ### Resolutions as steps (Table 6-3) -/

/-- An action on an entry: on one that was claimed or is HELD, or by R122 on one about to be claimed. -/
def State.act (s : State) (c i k : Nat) (d : Option Decision) : State :=
  let e := s.entry c i
  if !s.obeyed c i k then s
  else if e.resolvable || (e.state == .pending && s.serving c && d.any fun x => s.decide c i == x) then
    s.resolveEntry c i k
  else s

def execResolveRetry (core idx : Nat) (s : State) : Out :=
  happen (.resolveRetry core idx) s fun s => s.act core idx 0 none

def execResolveSkip (core idx : Nat) (s : State) : Out :=
  happen (.resolveSkip core idx) s fun s => s.act core idx 1 none

def execResolveSignal (core idx : Nat) (s : State) : Out :=
  happen (.resolveSignal core idx) s fun s => s.act core idx 2 (some .signal)

def execResolveStop (core idx : Nat) (s : State) : Out :=
  happen (.resolveStop core idx) s fun s => s.act core idx 3 (some .stop)

def execResolveKill (core idx : Nat) (s : State) : Out :=
  happen (.resolveKill core idx) s fun s => s.act core idx 4 none

/-- RESOLVE: the host's resolve word (R121, Table 6-10). -/
def execResolve (asid : Nat) (w : Word) (s : State) : Out :=
  reachBar (.resolve asid w) s fun s =>
    let c := (w.extractLsb' 0 8).toNat
    let i := (w.extractLsb' 8 11).toNat
    let k := (w.extractLsb' 19 3).toNat
    let e := s.entry c i
    if Config.cores ≤ c || 4 < k || e.seq != w.extractLsb' 32 32 || !e.resolvable || e.asid != asid || !s.obeyed c i k then s
    else s.resolveEntry c i k

/-! ### Faulted operations (R269) -/

/-- The message of a FAULTED operation. -/
def tokenMsg (op : Op) : Msg :=
  { kind := .token, cause := op.cause, asid := op.asid, seq := (op.handle.extractLsb' 16 24).setWidth 32,
    addr := op.refused, mask := 0, core := handleCore op.handle, index := handleSlot op.handle,
    tid := if op.byGroup = 0xFF then 0xFFFFFFFF else op.tid, group := op.byGroup, access := 0, launch := op.launch,
    pc := op.handle }

/-- The services of R200 for a refused unit. -/
def State.opService (s : State) (c : Nat) (op : Op) : Service :=
  if op.cause == Cause.notPresent then s.zeroFill c op.asid op.refused
  else if op.cause == Cause.permission then s.cowCopy c op.asid op.refused op.privileged
  else .no

/-- The TOKEN message of a FAULTED operation waits for the ring. -/
def State.postToken (s : State) (c e : Nat) (op : Op) : State :=
  (s.setOp c e { op with posted := true }).addMsg op.asid (tokenMsg op)

/-- TOKEN_FAULT_SERVICE. An orphan is posted only while the supervisor is the adopter (R274). On a FAULTED core management
posts the message in place of the supervisor, and serves nothing (21 R392). -/
def execTokenFaultService (core slot : Nat) (s : State) : Out :=
  happen (.tokenFaultService core slot) s fun s =>
    match s.op? core slot with
    | none => s
    | some op =>
      if op.state != .faulted || op.posted || s.tripped then s
      else if (s.core core).faulted then s.postToken core slot op
      else
        match s.opService core op with
        | .done s =>
          let s := (s.svcDone core).resumeOp core slot
          if op.cause == Cause.permission then s.cowOthers op.asid op.refused else s
        | .present => (s.svcDone core).resumeOp core slot
        | .wait w o => s.askService core w o
        | .no =>
          let s := s.svcDone core
          if op.orphan && (s.ctx op.asid).adopter.isSome then s else s.postToken core slot op

/-- TOKRESOLVE (R269): on a live operation, or on a saved one for after its `team.in`. -/
def State.tokResolve (s : State) (asid core slot : Nat) (gen : BitVec 24) (cancel : Bool) : State :=
  match s.resolveToken asid false (handleOf gen core slot) with
  | .live c e op =>
    if op.state != .faulted then s else if cancel then s.requestCancel c e else s.resumeOp c e
  | .saved c e op =>
    match (s.token c e).use with
    | .forwardSaved a va _ =>
      if op.state != .faulted then s
      else
        s.setToken c e { s.token c e with
          use := .forwardSaved a va (if cancel then { op with cancel := true } else { op with preempt := true }) }
    | _ => s
  | _ => s

def execTokresolveResume (asid core slot : Nat) (gen : BitVec 24) (s : State) : Out :=
  reachBar (.tokresolveResume asid core slot gen) s fun s => s.tokResolve asid core slot gen false

def execTokresolveCancel (asid core slot : Nat) (gen : BitVec 24) (s : State) : Out :=
  reachBar (.tokresolveCancel asid core slot gen) s fun s => s.tokResolve asid core slot gen true

/-! ### Rotation and swap-in (R131, R132, R168, R391) -/

/-- The value of SWAPSTAT once a request of the host has ended. -/
def State.swapDone (s : State) (a n : Nat) : State := s.onCtx a fun x => { x with swapstat := BitVec.ofNat 64 n }

/-- ROTATION: the supervisor moves a team out; management does where the core is FAULTED, also a team whose `team.out` the
trap has cut off (R391). A team that is not being moved is chosen only if it is not halted, or if the core is drained; one
whose record could not be written there stays until it is killed. -/
def execRotation (core teamIx : Nat) (s : State) : Out :=
  happen (.rotation core teamIx) s fun s =>
    let t := s.team core teamIx
    let k := s.core core
    if !s.hasTeam core teamIx || s.tripped || (!k.faulted && s.movedHere core teamIx) || t.halts.contains .unsaved then s
    else if !t.moving && (t.dumped || (t.halted && !k.leaving)) then s
    else
      let s := if t.moving then s else s.beginMove core teamIx
      match s.continueOut core teamIx with
      | (s, none) => s
      | (s, some n) =>
        if t.hostAsked then s.swapDone t.asid n else s

/-- TEAM_SWAP_IN_DISPATCH: the dispatcher swaps a saved team in on a core (R132), from a slot of the slipway. -/
def execTeamSwapInDispatch (asid slip core : Nat) (s : State) : Out :=
  happen (.teamSwapInDispatch asid slip core) s fun s =>
    let at_ := (s.regs core asid).slip + BitVec.ofNat 64 (32 * slip)
    if slipSlots ≤ slip || !s.serving core then s else (s.swapInSlot core asid fun y => y.at_ == at_).1

/-! ### The watchdog (R133) -/

/-- The context has work on the device. -/
def State.hasWork (s : State) (a : Nat) : Bool :=
  (s.cores.any fun (_, k) => k.teams.any fun e => e.2.asid == a)
    || (s.saved.any fun (x : SavedTeam) => x.asid == a)
    || ((s.allOps ++ s.savedOps).any fun (_, _, op) => op.asid == a && !op.state.final)
    || (s.regions.any fun e => e.2.armed && e.2.asid == a && s.heldHalves.any fun (h : HeldHalf) => h.region == e.1)

/-- The watchdog's EXP on some core has passed. -/
def State.windowOver (s : State) (a : Nat) : Bool :=
  let over1 := fun (r : CtxRegs) =>
    let e := (r.wdog.extractLsb' 0 6).toNat
    e != 0 && 2 ^ e ≤ s.time - (s.ctx a).window
  let copies := s.cores.filterMap fun (_, k) => k.copies.find? a
  if copies.isEmpty then over1 (s.ctx a).master else copies.any over1

/-- Sets FIRED in every copy. -/
def State.fired (s : State) (a : Nat) : State :=
  let f := fun (r : CtxRegs) => { r with wdog := r.wdog ||| 0x100 }
  let s := s.onCtx a fun x => { x with master := f x.master, window := s.time }
  s.eachCore fun s c => s.onCore c fun k => { k with copies := k.copies.mapAll fun b r => if b == a then f r else r }

/-- A message of the context itself: what no rule states of it is free (log 21). -/
def State.ctxMsg (s : State) (kind : MsgKind) (cause : BitVec 8) (a : Nat) : Msg :=
  let f := fun k => unstated (10 + k) s.turn
  { kind := kind, cause := cause, asid := a, seq := 0, addr := BitVec.ofNat 64 (f 0), mask := 0, core := f 1 % Config.cores,
    index := 0xFFFF, tid := f 2 % 2 ^ 32, group := f 3 % 256, access := BitVec.ofNat 3 (f 4),
    launch := BitVec.ofNat 64 (f 5), pc := BitVec.ofNat 64 (f 6) }

/-- WATCHDOG_EXPIRY. -/
def execWatchdogExpiry (asid : Nat) (s : State) : Out :=
  happen (.watchdogExpiry asid) s fun s =>
    if !(s.ctx asid).exists_ || !s.hasWork asid || !s.windowOver asid then s
    else
      let s := s.fired asid
      let s := s.eachTeam asid fun s c t => s.haltTeam c t .watchdog 4
      s.addMsg asid (s.ctxMsg .watchdog Cause.watchdog asid)

/-! ### Acknowledgements, supervisor traps, reconvergence -/

/-- Requests of a group that its outstanding count holds. -/
def State.inFlight (s : State) (c g : Nat) : Nat :=
  (s.requests.filter fun r => match r.origin with
    | .slot c' g' _ (.amo _ _) => c' == c && g' == g
    | .red c' g' _ _ _ => c' == c && g' == g
    | .gone c' g' counted => counted && c' == c && g' == g
    | _ => false).length

/-- ACCESS_ACK: a home acknowledges one access of a group (11 R216). Accesses at peers are acknowledged by their
answers. -/
def execAccessAck (core gslot : Nat) (s : State) : Out :=
  happen (.accessAck core gslot) s fun s =>
    if (s.group core gslot).outstanding ≤ s.inFlight core gslot then s
    else s.onGroup core gslot fun x => { x with outstanding := x.outstanding - 1 }

/-- SUPERVISOR_TRAP (R116). -/
def execSupervisorTrap (core : Nat) (s : State) : Out :=
  happen (.supervisorTrap core) s fun s => s.supervisorFault core

/-- RECONVERGENCE_CHECK (03 R44). -/
def execReconvergenceCheck (core gslot : Nat) (s : State) : Out :=
  happen (.reconvergenceCheck core gslot) s fun s =>
    if (s.group core gslot).live then s.settleGroup core gslot settleFuel else s

end Sys2Proof.Machine
end

