-- ==== Sys2Proof/Machine/Units.lean ====
section
/-! DEFINITION. The steps of operations at their engines, as events (13 R264, R268; 15 R304, R309; 18 R364). -/

namespace Sys2Proof.Machine

open Sys2Proof

/-- The engine of a core that serves an operation: copy, feed, matrix, shuttle. -/
def Op.engine (op : Op) : Nat := if op.isFeed then 1 else if op.isMma then 2 else if op.isStep then 3 else 0

/-- The engines of a kind on a core: two copy engines (13 R294), one feed, one matrix engine (15), and for `gsp.step` the
shuttle, whose order R363 gives. -/
def engines (kind : Nat) : Nat := if kind = 0 then 2 else 1

/-- The next unit of a RUNNING operation is tried. -/
def State.tryNext (s : State) (c e : Nat) (op : Op) : State :=
  if op.isFeed then s.tryFeed c e op
  else if op.isMma then s.tryStep c e op
  else if op.isStep then s.tryTake c e op
  else s.tryUnit c e op

/-- A RUNNING operation can proceed: its unit is in hand, or the try of its next unit would change it. -/
def State.proceeds (s : State) (c e : Nat) (op : Op) : Bool :=
  op.unit != .idle || (!(op.quiescent && (op.cancel || op.preempt || s.recals c op)) && (s.tryNext c e op).op? c e != some op)

/-- An engine is free for an operation: it serves one unit at a time, the highest priority first, then the earliest issue
(R265; log 20). -/
def State.serves (s : State) (c e : Nat) (op : Op) : Bool :=
  op.isStep || Decidable.decide ((s.allOps.filter fun (c', e', x) =>
    c' == c && e' != e && x.state == .running && x.engine == op.engine
      && (x.unit != .idle || (x.ahead op && s.proceeds c e' x))).length < engines op.engine)

/-- ENGINE_QUIESCENT_POINT: a pending cancel, then a pending pre-emption, else the next unit is tried (R264). -/
def execEngineQuiescentPoint (core slot : Nat) (s : State) : Out :=
  happen (.engineQuiescentPoint core slot) s fun s =>
    match s.op? core slot with
    | none => s
    | some op =>
      if op.state != .running then s
      else
        match s.quiesce core slot op with
        | (s, false) => s
        | (s, true) =>
          if op.unit != .idle || !s.serves core slot op then s else s.tryNext core slot op

/-- A checked unit of a running operation. -/
def State.unitReady (s : State) (c e : Nat) (p : Op → Bool) : Option Op :=
  match s.op? c e with
  | some op => if op.state == .running && (op.unit == .checked || op.unit == .sent) && p op then some op else none
  | none => none

/-- UNIT_DELIVERED: a copy's unit is performed and counted (R268). -/
def execUnitDelivered (core slot : Nat) (s : State) : Out :=
  happen (.unitDelivered core slot) s fun s =>
    match s.unitReady core slot Op.isCopy with
    | some op => s.deliverCopy core slot op
    | none => s

/-- SLICE_PUSH: a feed's slice enters its stream (15 R304). -/
def execSlicePush (core slot : Nat) (s : State) : Out :=
  happen (.slicePush core slot) s fun s =>
    match s.unitReady core slot Op.isFeed with
    | some op => s.pushSlice core slot op
    | none => s

/-- KSTEP_COMMIT: a granted k-step commits (15 R309). -/
def execKstepCommit (core slot : Nat) (s : State) : Out :=
  happen (.kstepCommit core slot) s fun s =>
    match s.unitReady core slot Op.isMma with
    | some op => s.commitStep core slot op
    | none => s

end Sys2Proof.Machine
end

