-- ==== Sys2Proof/Machine/Queues.lean ====
section
/-! DEFINITION. Queues: control, consumption and refusal of packets, signals, copies and retirement (07 R144 to R157, 13
R287). -/

namespace Sys2Proof.Machine

open Sys2Proof

/-! ### Packets (Tables 7-3 to 7-5) -/

/-- `n` bits of word `k` of a packet or a template from bit `lo`. -/
def field (ws : List Word) (k lo n : Nat) : Nat := ((ws.getD k 0).toNat / 2 ^ lo) % 2 ^ n

def packetKind (ws : List Word) : Nat := field ws 0 4 4
def packetSignal (ws : List Word) : Word := ws.getD 1 0

/-- DEPIX (Table 7-4). -/
def depWaits (ws : List Word) : Bool := field ws 7 31 1 == 1
def depIndex (ws : List Word) : Nat := field ws 7 16 12

/-- The fields that a manifest and a template share lie within the limits of Table 7-4, but for their extents. -/
def manifestLimits (ws : List Word) : Bool :=
  let g := field ws 5 0 8
  let st := field ws 5 8 8
  let rw_ := field ws 5 16 8
  let regs := field ws 5 32 16
  let lss := field ws 7 0 8
  1 ≤ g && g ≤ 32 && 1 ≤ st && st ≤ 8 && 1 ≤ rw_ && rw_ ≤ 8 && field ws 5 24 8 ≤ 3 && 32 ≤ regs && regs ≤ 256
    && regs % 16 == 0 && field ws 5 48 16 ≤ 512 && 12 ≤ lss && lss ≤ 20 && field ws 7 8 8 == 0 && field ws 7 28 3 == 0
    && field ws 7 32 32 == 0 && (ws.drop 9).all (· == 0)

/-- R34. -/
def gridOk (x y z st : Nat) : Bool := 1 ≤ x && 1 ≤ y && 1 ≤ z && x * y * z * st ≤ 2 ^ 32 - 1

/-- R48: a team that can be placed. -/
def placeable (ws : List Word) : Bool := field ws 5 0 8 * field ws 5 32 16 ≤ 4096 && field ws 5 48 16 ≤ 512

/-- The header holds nothing in its reserved bits (Table 7-3). -/
def headerOk (ws : List Word) : Bool :=
  field ws 0 12 20 == 0 && field ws 0 9 1 == 0 && field ws 0 1 3 == 0 && (packetKind ws == 1 || field ws 0 10 1 == 0)

/-- The copy form that a COPY packet names, with its operand values (R150, R287). -/
def copyForm (ws : List Word) : CpyOp :=
  cpyOf { len := 3, op := 0, fn := BitVec.ofNat 4 (field ws 3 8 4), dd := 0, sa := 0, sb := 0, gd := 0, xf := 0,
          x := ws.getD 4 0 }

/-- The instruction of a copy form under an OP. -/
def copyInstr (op : Nat) (o : CpyOp) : Option Instr :=
  match op with
  | 0x90 => some (.cpy o) | 0x91 => some (.cpyTile o) | 0x92 => some (.cpyGth o) | 0x93 => some (.cpySct o)
  | 0x94 => some (.cpyRem o) | 0x95 => some (.cpyMcast o) | 0x96 => some (.cpyRed o) | _ => none

/-- The launch id of a packet (R161). -/
def packetId (asid q : Nat) (seq : BitVec 32) : Word :=
  BitVec.ofNat 64 (asid % 2 ^ 16 * 2 ^ 48 + q % 2 ^ 16 * 2 ^ 32 + seq.toNat)

/-- The operation of a COPY packet. -/
def State.packetOp (s : State) (asid q : Nat) (seq : BitVec 32) (ws : List Word) : Op :=
  let o := copyForm ws
  let k := ws.getD 10 0
  { op := BitVec.ofNat 8 (field ws 3 0 8), fn := BitVec.ofNat 4 (field ws 3 8 4), fp := o.fp, dst := ws.getD 5 0,
    src := ws.getD 6 0, x := ws.getD 8 0, y := ws.getD 9 0, len := (ws.getD 7 0).toNat % 2 ^ 32, lk := o.lk,
    link := linkOf o.lk k, prio := field ws 3 20 2, hold := false, cancel := false, preempt := false, started := false,
    state := .issued, cause := 0, refused := 0, cursor := 0, delivered := 0, pred1 := 0, pred2 := 0, asid := asid,
    privileged := false, byTeam := none, byGroup := 0xFF, byGslot := Config.gslots, tid := 0xFFFFFFFF,
    launch := packetId asid q seq, stage := 0, stages := 1, teams := 0, detached := true, orphan := false,
    adopter := none, order := s.issued, list := [], claimed := false, unit := .idle, got := [], slices := [], tiles := [],
    remote := [], first := 0, recal := false, posted := false, disarmed := false, handle := 0 }

/-- A COPY names a scratchpad space, an index list there, or a barrier link. -/
def namesPad (ws : List Word) : Bool :=
  let fn := field ws 3 8 4
  let op := field ws 3 0 8
  let eng := ws.getD 4 0
  fn / 4 == 1 || fn / 4 == 2 || fn % 4 == 1 || fn % 4 == 2 || ((op == 0x92 || op == 0x93) && eng.getLsbD 45)
    || eng.extractLsb' 35 2 == 1

/-- Refusal codes of a COPY packet: 1, 4, 5, 6 or 0. -/
def State.copyRefusal (s : State) (asid : Nat) (ws : List Word) : Nat :=
  let op := field ws 3 0 8
  let o := copyForm ws
  let x := s.packetOp asid 0 0 ws
  let core := field ws 3 12 8
  let zero := fun (present : Bool) (k : Nat) => present || ws.getD k 0 == 0
  let form := match copyInstr op o with
    | some i => wellFormed i && (cpyFields 0 o).x == ws.getD 4 0 && (cpyFields 0 o).fn == BitVec.ofNat 4 (field ws 3 8 4)
    | none => true
  let bad1 := field ws 3 22 42 != 0 || (Config.cores ≤ core && core != 0xFF) || (ws.drop 11).any (· != 0)
    || (0x90 ≤ op && op ≤ 0x96 && (!form || o.opp.isSome || o.hold || !zero o.opl.isSome 7
          || !zero o.opx.isSome 8 || !zero o.opy.isSome 9 || !zero o.opk.isSome 10 || !x.lenOk (ws.getD 7 0)
          || (op == 0x91 && !(x.srcStride % 32 == 0 && x.dstStride % 32 == 0))))
  let mis := ws.getD 1 0 ||| ws.getD 2 0
  let listAlign := if op == 0x92 || op == 0x93 then 4 else if op == 0x95 then 8 else 1
  let dstAlign := if x.partition then 8 else x.addrAlign
  if bad1 then 1
  else if mis.toNat % 8 != 0
      || (0x90 ≤ op && op ≤ 0x96
            && ((ws.getD 5 0).toNat % dstAlign != 0 || (ws.getD 6 0).toNat % x.addrAlign != 0
                  || (ws.getD 8 0).toNat % listAlign != 0)) then 4
  else if o.lk == .counter && !s.depOk asid (ws.getD 10 0) then 5
  else if op < 0x90 || 0x96 < op || namesPad ws then 6
  else 0

/-- Refusal of a packet at its consumption (Table 7-6): the lowest code that holds; 0 for none. -/
def State.refusal (s : State) (asid : Nat) (ws : List Word) : Nat :=
  let mis := fun (k n : Nat) => (ws.getD k 0).toNat % n != 0
  if !headerOk ws then 1
  else
    match packetKind ws with
    | 1 =>
      if !manifestLimits ws || ws.getD 8 0 != 0 then 1
      else if !gridOk (field ws 4 0 32) (field ws 4 32 16) (field ws 4 48 16) (field ws 5 8 8) then 2
      else if !placeable ws then 3
      else if mis 1 8 || mis 2 4 || mis 3 8 || mis 6 4096 then 4
      else if depWaits ws && !s.depOk asid (BitVec.ofNat 64 (depIndex ws)) then 5
      else 0
    | 2 =>
      if 3 < (ws.getD 4 0).toNat || (ws.drop 5).any (· != 0) then 1 else if mis 1 8 || mis 2 8 then 4 else 0
    | 3 =>
      if 2 < (ws.getD 4 0).toNat || (ws.drop 5).any (· != 0) then 1 else if mis 1 8 || mis 2 8 then 4 else 0
    | 4 => s.copyRefusal asid ws
    | _ => 1

/-! ### The queue engine's accesses (R152) -/

/-- The number under which State holds the translation cache of the queue engines. -/
def queueCore : Nat := 192

def Queue.asid (q : Queue) : Nat := (q.cfg.extractLsb' 0 16).toNat
def Queue.size (q : Queue) : Nat := 2 ^ (q.cfg.extractLsb' 16 5).toNat

/-- The pieces of work of a queue that wait for the fabric, by number: a look at the next slot, the start of a packet, its
retirement. -/
def lookJob : Nat := 0
def startJob (seq : BitVec 32) : Nat := 2 * seq.toNat + 1
def retireJob (seq : BitVec 32) : Nat := 2 * seq.toNat + 2

/-- What arrived for a piece of work. -/
def Queue.answers (x : Queue) (job : Nat) : List Arrived := x.got.filterMap fun e => if e.1 = job then some e.2 else none

/-- A piece of work is over: what it received is used up. -/
def Queue.over (x : Queue) (job : Nat) : Queue := { x with got := x.got.filter fun e => e.1 != job }

/-- The queue engine, for a piece of work of a queue. -/
def State.queueAgent (s : State) (q job : Nat) : Agent := ⟨queueCore, (s.queue q).asid, false, (s.queue q).answers job, 0⟩

/-- Reads 8-byte words as user-mode accesses. -/
def State.queueWords (s : State) (a : Agent) : Nat → Word → State × Res (List Word)
  | 0, _ => (s, .ok [])
  | k + 1, va =>
    match s.translate a va .read with
    | (s, .no c) => (s, .no c)
    | (s, .need w o) => (s, .need w o)
    | (s, .away l t) => (s, .away l t)
    | (s, .ok w) =>
      match s.peerLine a w.pa with
      | .no c => (s, .no c)
      | .need w o => (s, .need w o)
      | .away l t => (s, .away l t)
      | .ok line =>
        match s.homeRead queueCore w.pa 8 line with
        | (s, none) => (s, .no Cause.remoteTimeout)
        | (s, some bs) =>
          match State.queueWords s a k (va + 8) with
          | (s, .ok xs) => (s, .ok (BitVec.ofNat 64 (leNat bs) :: xs))
          | r => r

/-- What a write does to an 8-byte word: store, add, subtract (R148). -/
def signalOp (k : Nat) (v : Word) : AtomOp × BitVec 128 :=
  if k = 0 then (.exch, v.setWidth 128) else (.add, (if k = 1 then v else 0 - v).setWidth 128)

/-- The number of an atomic access of a piece of work, by which its answer is known: a write of a word, the decrement of a
completion signal, the store of a handle. -/
def wordLane : Nat := 0
def signalLane : Nat := 1
def handleLane (h : Word) : Nat := 4 + h.toNat

/-- What the answer to an atomic access of the queue engine comes to. -/
def atomAnswer : Answer → Res Unit
  | .data _ | .ok => .ok ()
  | .addressError => .no Cause.permission
  | .notSupported => .no Cause.remoteOp
  | .timedOut => .no Cause.remoteTimeout

/-- The atomic access of a piece of work that is under way. -/
def State.atomSent (s : State) (q job : Nat) : Option (Want × HomeOp) :=
  s.requests.findSome? fun r => match r.origin with
    | .queue q' j (.amo pa l) => if q' == q && j == job then some (.amo pa l, r.op) else none
    | _ => none

/-- The answer to the atomic access that a piece of work has made under a number. -/
def Agent.atomGot (a : Agent) (lane : Nat) : Option Answer :=
  a.got.findSome? fun x => match x.want with
    | .amo _ l => if l == lane then some x.ans else none
    | _ => none

/-- One atomic access at the home of an 8-byte word. It is made once for a piece of work and a number: the answer that came
stands (R152), and one under way is waited for. The decrement of a signal finds host memory unreachable where the device
cannot reach it (R152; log 45). -/
def State.queueAtom (s : State) (a : Agent) (q job : Nat) (va : Word) (lane k : Nat) (v : Word) : State × Res Unit :=
  match a.atomGot lane, s.atomSent q job with
  | some x, _ => (s, atomAnswer x)
  | none, some (w, o) => (s, .need w o)
  | none, none =>
    match s.translate a va .rmw with
    | (s, .no c) => (s, .no c)
    | (s, .need w o) => (s, .need w o)
    | (s, .away l t) => (s, .away l t)
    | (s, .ok w) =>
      let (op, b) := signalOp k v
      if isPeer w.pa then
        if s.reachable (peerOf w.pa) then (s, .need (.amo w.pa lane) (.atomic op .b64 b 0)) else (s, .no Cause.remoteTimeout)
      else if lane == signalLane && isHost w.pa && !Config.hostReached w.pa s.turn then (s, .no Cause.permission)
      else ((s.atomMem queueCore w.pa 8 op b 0).1, .ok ())

/-! ### Control (R145) -/

def execQctlEnable (q : Nat) (s : State) : Out :=
  reachBar (.qctlEnable q) s fun s =>
    let x := s.queue q
    let n := (x.cfg.extractLsb' 16 5).toNat
    if s.boot != .service || x.state != .disabled || n < 4 || 16 < n || !(s.ctx x.asid).exists_ then s
    else
      (s.disown fun o => match o with | .queue q' _ _ => q' == q | _ => false).setQueue q
        { x with cons := 0, done := 0, state := .run, packets := [], got := [] }

def execQctlPause (q : Nat) (s : State) : Out :=
  reachBar (.qctlPause q) s fun s =>
    s.onQueue q fun x => if x.state == .run then { x with state := .paused } else x

def execQctlResume (q : Nat) (s : State) : Out :=
  reachBar (.qctlResume q) s fun s =>
    s.onQueue q fun x =>
      if x.state == .paused then { x with state := .run }
      else if x.state == .error then { x with state := .run, errCode := 0, errSeq := 0 }
      else x

def execQctlDisable (q : Nat) (s : State) : Out :=
  reachBar (.qctlDisable q) s fun s =>
    s.onQueue q fun x => if x.done == x.cons then { x with state := .disabled } else x

/-! ### DONE and errors -/

/-- DONE passes what has retired or been refused (Table 7-1). A manifest that was refused while it was dealt counts once
its teams have ended, which `finished` says (R157). -/
def Queue.advance (x : Queue) : Nat → Queue
  | 0 => x
  | k + 1 =>
    match x.packets.find? fun p => p.seq == x.done + 1 with
    | some p =>
      if p.retired || (p.refused && p.finished) then
        Queue.advance { x with done := x.done + 1, packets := x.packets.filter fun y => y.seq != p.seq } k
      else x
    | none => x

def Queue.passed (x : Queue) : Queue := x.advance (x.packets.length + 1)

/-- Sets ERROR, with QERR (R157). -/
def Queue.fail (x : Queue) (code : Nat) (seq : BitVec 32) : Queue :=
  { x with state := .error, errCode := BitVec.ofNat 8 code, errSeq := seq }

/-- A completion signal could not be written: in ERROR, QERR keeps the first error (R152). -/
def Queue.unsignalled (x : Queue) (seq : BitVec 32) : Queue := if x.state == .error then x else x.fail 9 seq

def Queue.onPacket (x : Queue) (seq : BitVec 32) (f : Packet → Packet) : Queue :=
  { x with packets := x.packets.map fun p => if p.seq == seq then f p else p }

/-- Refuses a packet that was consumed (R157). -/
def Queue.refuse (x : Queue) (seq : BitVec 32) (code : Nat) : Queue :=
  (((x.fail code seq).over (startJob seq)).onPacket seq fun p => { p with refused := true, finished := true }).passed

def Queue.packet (x : Queue) (seq : BitVec 32) : Option Packet :=
  x.packets.find? fun p => p.seq == seq && !p.retired && !p.refused

/-- A packet that DONE may pass: it has retired, or was refused and nothing of it runs any more (R157). -/
def Packet.past (p : Packet) : Bool := p.retired || (p.refused && p.finished)

/-- The BARRIER of a packet holds it back: an earlier packet of the queue is not past (R149). A refused packet counts as
the earlier ones that have retired do, and SEQ is compared as a number, also where it has wrapped (log 56). -/
def Queue.barred (x : Queue) (p : Packet) : Bool :=
  field p.words 0 8 1 == 1 && !p.past && x.packets.any fun y => y.seq.toNat < p.seq.toNat && !y.past

/-- A packet has started: at its consumption, or once no BARRIER, its own or one of an earlier packet, holds it back
(R149). -/
def Queue.open (x : Queue) (p : Packet) : Bool := x.packets.all fun y => p.seq.toNat < y.seq.toNat || !x.barred y

/-- A packet whose work may begin now: `started` says that it has (R149). -/
def Queue.mayStart (x : Queue) (p : Packet) : Bool := !p.started && x.open p

/-- A packet of a kind that may start. -/
def State.startable (s : State) (q : Nat) (seq : BitVec 32) (kind : Nat) : Option Packet :=
  match (s.queue q).packet seq with
  | some p => if packetKind p.words == kind && (s.queue q).mayStart p then some p else none
  | none => none

/-! ### Consumption (R146) -/

/-- The engine looks at the next slot, and consumes or refuses the packet there. -/
def State.lookSlot (s : State) (q : Nat) : State :=
  let x := s.queue q
  let seq := x.cons + 1
  let va := x.base + BitVec.ofNat 64 (128 * (seq.toNat % x.size))
  let done := fun (s : State) => s.onQueue q fun x => x.over lookJob
  let take := fun (s : State) (ws : List Word) (code : Nat) =>
    (done s).onQueue q fun x =>
      let p : Packet := ⟨seq, ws, false, false, false, false, 0, s.turn⟩
      let x := { x with cons := seq, packets := x.packets ++ [p] }
      if code = 0 then x else x.refuse seq code
  if x.state != .run then done s
  else
    match s.queueWords (s.queueAgent q lookJob) 16 va with
    | (s, .no _) => take s [] 8
    | (s, .need w o) => s.askQueue q lookJob w o
    | (s, .away _ _) => s
    | (s, .ok ws) =>
      if field ws 0 0 1 != 1 || field ws 0 32 32 != seq.toNat then done s else take s ws (s.refusal x.asid ws)

/-- NOTIFY: the engine looks anew, from what it reads after the write; a look that waits for the fabric goes on as its
answers come. -/
def execNotify (q : Nat) (s : State) : Out :=
  reachBar (.notify q) s fun s =>
    let s := s.disown fun o => match o with | .queue q' j _ => q' == q && j == lookJob | _ => false
    (s.onQueue q fun x => x.over lookJob).lookSlot q

/-! ### Signals (R148, R149) -/

/-- The condition of a WAIT-SIGNAL. -/
def signalHolds (cond : Nat) (x v : Word) : Bool :=
  match cond with
  | 0 => x == v
  | 1 => x != v
  | 2 => x.toNat < v.toNat
  | _ => v.toNat ≤ x.toNat

/-- One read of WADDR. -/
def State.readSignal (s : State) (q : Nat) (p : Packet) : State :=
  match s.queueWords (s.queueAgent q (startJob p.seq)) 1 (p.words.getD 2 0) with
  | (s, .no _) => s.onQueue q fun x => x.refuse p.seq 7
  | (s, .need w o) => s.askQueue q (startJob p.seq) w o
  | (s, .away _ _) => s
  | (s, .ok ws) =>
    let ok := signalHolds (field p.words 4 0 3) (ws.getD 0 0) (p.words.getD 3 0)
    s.onQueue q fun x => (x.over (startJob p.seq)).onPacket p.seq fun y => { y with started := true, finished := ok }

def execWaitSignal (q : Nat) (seq : BitVec 32) (s : State) : Out :=
  happen (.waitSignal q seq) s fun s =>
    match s.startable q seq 2 with
    | some p => s.readSignal q p
    | none => s

/-- A WAIT-SIGNAL that has started is read again. -/
def execWaitSignalReread (q : Nat) (seq : BitVec 32) (s : State) : Out :=
  happen (.waitSignalReread q seq) s fun s =>
    match (s.queue q).packet seq with
    | some p => if packetKind p.words == 2 && p.started && !p.finished then s.readSignal q p else s
    | none => s

def execWriteSignal (q : Nat) (seq : BitVec 32) (s : State) : Out :=
  happen (.writeSignal q seq) s fun s =>
    match s.startable q seq 3 with
    | none => s
    | some p =>
      let j := startJob seq
      match s.queueAtom (s.queueAgent q j) q j (p.words.getD 2 0) wordLane (field p.words 4 0 2) (p.words.getD 3 0) with
      | (s, .no _) => s.onQueue q fun x => x.refuse seq 7
      | (s, .need w o) => s.askQueue q j w o
      | (s, .away _ _) => s
      | (s, .ok _) => s.onQueue q fun x => (x.over j).onPacket seq fun y => { y with started := true, finished := true }

/-! ### Copies (R150, R287) -/

/-- Stores a handle at TOKADDR, as one access of its own: another handle is another store. -/
def State.storeHandle (s : State) (q : Nat) (seq : BitVec 32) (va : Word) (h : Word) : State × Res Unit :=
  if va == 0 then (s, .ok ())
  else s.queueAtom (s.queueAgent q (startJob seq)) q (startJob seq) va (handleLane h) 0 h

/-- COPY: the handle is stored, then the operation issues on a core. The packet waits while the core that it names is not
IN_SERVICE, of which the spec says nothing (log 36); a core on which the handle in hand lies is kept to while it is. -/
def execCopy (q : Nat) (seq : BitVec 32) (core : Nat) (s : State) : Out :=
  happen (.copy q seq core) s fun s =>
    match s.startable q seq 4 with
    | none => s
    | some p =>
      let named := field p.words 3 12 8
      let inHand := p.token != 0 && (s.core (handleCore p.token)).svc == .inService
      if (named != 0xFF && named != core) || (s.core core).svc != .inService || (inHand && handleCore p.token != core) then s
      else
        let kept := inHand && ((s.token core (handleSlot p.token)).use == .free || s.reclaimable core (handleSlot p.token))
        match if kept then some (handleSlot p.token) else s.tokenSlot core with
        | none => s
        | some e =>
          let h := handleOf (nextGen (s.token core e).gen) core e
          match s.storeHandle q seq (p.words.getD 2 0) h with
          | (s, .no _) => s.onQueue q fun x => x.refuse seq 7
          | (s, .need w o) =>
            (s.askQueue q (startJob seq) w o).onQueue q fun x => x.onPacket seq fun y => { y with token := h }
          | (s, .away _ _) => s
          | (s, .ok _) =>
            let (s, h) := s.startToken core e (s.packetOp (s.queue q).asid q seq p.words)
            s.onQueue q fun x => (x.over (startJob seq)).onPacket seq fun y => { y with started := true, token := h }

/-! ### Manifests -/

/-- The launch of a manifest with its extents. -/
def launchOf (id : Word) (ws : List Word) (x y z : Nat) (ring : Option (Nat × Nat)) (tmpl : Word) (order : Nat) : Launch :=
  { id := id, words := ws, x := x, y := y, z := z, ring := ring, tmpl := tmpl, dealt := 0, chunks := [], admitted := 0,
    ended := 0, depSeen := !depWaits ws, stopped := false, order := order }

/-- MANIFEST: a consumed packet starts and becomes a grid. -/
def execManifest (q : Nat) (seq : BitVec 32) (s : State) : Out :=
  happen (.manifest q seq) s fun s =>
    match s.startable q seq 1 with
    | none => s
    | some p =>
      let ws := p.words
      let l := launchOf (packetId (s.queue q).asid q seq) ws (field ws 4 0 32) (field ws 4 32 16) (field ws 4 48 16) none 0
        p.order
      let s := { s with launches := s.launches ++ [l] }
      s.onQueue q fun x => x.onPacket seq fun y => { y with started := true }

/-! ### Retirement (R149, R151, R152) -/

/-- Teams that a grid starts in all. -/
def Launch.total (l : Launch) : Nat := l.x * l.y * l.z

/-- Every team of a grid has ended. -/
def Launch.finished (l : Launch) : Bool := l.admitted == l.total && l.ended == l.total * l.stages

/-- The work of a packet is done. -/
def State.packetDone (s : State) (q : Nat) (p : Packet) : Bool :=
  match packetKind p.words with
  | 1 => (s.launchOf (packetId (s.queue q).asid q p.seq)).any Launch.finished
  | 4 =>
    match s.resolveToken (s.queue q).asid true p.token with
    | .live _ _ op => op.state.final || op.state == .faulted || op.handle != p.token
    | .saved _ _ _ => false
    | _ => true
  | _ => p.finished

/-- What a retirement subtracts from the signal. -/
def retireCount (ws : List Word) (records : Nat) : Word :=
  BitVec.ofNat 64 (if packetKind ws = 1 && field ws 0 10 1 = 1 then records else 1)

/-- The decrement of a completion signal. -/
def State.decrement (s : State) (a : Agent) (q job : Nat) (signal n : Word) : State × Res Unit :=
  if signal == 0 then (s, .ok ()) else s.queueAtom a q job signal signalLane 2 n

/-- The number under which answers for merged manifests are kept; no queue has it. -/
def mergedQueue : Nat := 0xFFFF

/-- The number under which the answer to a merged manifest's decrement is kept: of the launch, so that manifests of two
contexts with one serial stay apart, and beside that of its dealing. -/
def mergedJob (l : Launch) : Nat := 2 ^ 64 + l.id.toNat

/-- A merged manifest whose teams have all ended retires; its refused decrement has no queue to report to (R151). -/
def State.retireOne (s : State) (l : Launch) : State :=
  let j := mergedJob l
  let a : Agent := ⟨queueCore, (l.id.extractLsb' 48 16).toNat, false, (s.queue mergedQueue).answers j, 0⟩
  let drop := fun (s : State) =>
    { s with launches := s.launches.filter fun x => x.id != l.id }.onQueue mergedQueue fun x => x.over j
  if l.stopped then drop s
  else
    match s.decrement a mergedQueue j (packetSignal l.words) (BitVec.ofNat 64 l.total) with
    | (s, .need w o) => s.askQueue mergedQueue j w o
    | (s, _) => drop s

/-- The merged manifests of a serial retire, of whichever context. -/
def State.retireMerged (s : State) (seq : BitVec 32) : State :=
  (s.launches.filter fun l => l.ring.isSome && l.id.extractLsb' 0 32 == seq
    && (l.finished || (l.stopped && l.ended == l.admitted * l.stages))).foldl (fun s l => s.retireOne l) s

/-- PACKET_RETIRE. `q` 0xFFFF names the merged manifests, by serial. -/
def execPacketRetire (q : Nat) (seq : BitVec 32) (s : State) : Out :=
  happen (.packetRetire q seq) s fun s =>
    if q = mergedQueue then s.retireMerged seq
    else
      match (s.queue q).packet seq with
      | none => s
      | some p =>
        if !p.started || !s.packetDone q p then s
        else
          let id := packetId (s.queue q).asid q seq
          let j := retireJob seq
          let records := ((s.launchOf id).map Launch.total).getD 1
          let after := fun (s : State) (bad : Bool) =>
            let s := { s with launches := s.launches.filter fun l => !(packetKind p.words == 1 && l.id == id) }
            let s := s.onQueue q fun x =>
              let x := ((x.over j).onPacket seq fun y => { y with retired := true }).passed
              if bad then x.unsignalled seq else x
            if field p.words 0 11 1 = 1 then s.send (.msix ((s.queue q).vec.extractLsb' 0 11).toNat) else s
          match s.decrement (s.queueAgent q j) q j (packetSignal p.words) (retireCount p.words records) with
          | (s, .ok _) => after s false
          | (s, .no _) => after s true
          | (s, .need w o) => s.askQueue q j w o
          | (s, .away _ _) => s

end Sys2Proof.Machine
end

