-- ==== Sys2Proof/Machine/Launches.lean ====
section
/-! DEFINITION. The dispatcher and the aggregator: dealing, admission, `launch`, merged manifests (03 R34 to R38, R48; 07
R158 to R164). -/

namespace Sys2Proof.Machine

open Sys2Proof

/-! ### Dealing (R158) -/

/-- The context of a launch (R161). -/
def Launch.asid (l : Launch) : Nat := (l.id.extractLsb' 48 16).toNat

def Launch.groups (l : Launch) : Nat := field l.words 5 0 8
def Launch.prio (l : Launch) : Nat := field l.words 5 24 8

/-- A core on which teams are placed (21 R386, R391). -/
def Core.open (k : Core) : Bool := k.svc == .inService && !k.faulted

/-- F of R158, over every core of the device (log 37). -/
def State.placesFor (s : State) (l : Launch) : Nat :=
  ((List.range Config.cores).map fun c => (s.core c).freeSlots.length / (l.groups * l.stages)).sum

/-- An earlier merged manifest of the template has not retired (R163). -/
def State.mergedWaits (s : State) (l : Launch) : Bool :=
  l.ring.isSome && s.launches.any fun x =>
    x.ring.isSome && x.tmpl == l.tmpl && x.asid == l.asid && x.id.toNat < l.id.toNat

/-- Records are left to be dealt, and may be (R149, R159, R163). -/
def State.dealable (s : State) (l : Launch) : Bool :=
  !l.stopped && l.dealt < l.total && !s.mergedWaits l
    && (l.depSeen || (s.dep (depIndex l.words)).count == 0)

/-- A manifest that the dispatcher serves before another (R158). -/
def Launch.before (x y : Launch) : Bool :=
  y.prio < x.prio || (x.prio == y.prio && x.order < y.order)

/-- c of R158 for a core that claims. -/
def State.chunkSize (s : State) (l : Launch) (c : Nat) : Nat :=
  let n := l.total - l.dealt
  if (s.regs c l.asid).svcmode.getLsbD 1 then
    let f := s.placesFor l
    if f = 0 then 0 else max 1 (n / (2 * f))
  else min n (s.ctx l.asid).chunk

def State.onLaunch (s : State) (id : Word) (f : Launch → Launch) : State :=
  { s with launches := s.launches.map fun l => if l.id == id then f l else l }

/-- DEAL_CHUNK: a core claims the next chunk of a manifest that is served now. -/
def execDealChunk (id : Word) (core : Nat) (s : State) : Out :=
  happen (.dealChunk id core) s fun s =>
    match s.launchOf id with
    | none => s
    | some l =>
      if !s.dealable l || !(s.core core).open || s.launches.any (fun x => s.dealable x && x.before l) then s
      else
        let c := s.chunkSize l core
        let s := s.onLaunch id fun l => { l with depSeen := true }
        if c = 0 then s
        else s.onLaunch id fun l =>
          { l with dealt := l.dealt + c, chunks := l.chunks ++ [⟨core, l.dealt, l.dealt + c⟩] }

/-! ### Admission (03 R36 to R38, R48) -/

/-- The state of one group at dispatch (03 Table 3-1, R51). -/
def newGroup (asid team number pool : Nat) (entry : Word) (rec_ : List Word) (l : Nat) (top : Nat → Word) (turn : Nat) :
    Group :=
  { Group.none with
    live := true, asid := asid, number := number, team := team, pool := pool,
    s := (rec_.zipIdx.map fun (w, i) => (i, w)) ++ [(8, BitVec.ofNat 64 l)],
    slot0 := { Slot.empty.ready entry allLanes turn with rcv := noRcv },
    stack := (List.range 32).map fun k => (k, top (32 * number + k)) }

/-- `%stack` at dispatch of thread `i` of a team (R51). -/
def stackTop (pb : Word) (lss tid i : Nat) : Word :=
  BitVec.ofNat 64 (pb.toNat + tid * (1024 * lss + 262144) + (i + 1) * lss)

/-- A core can place a team of a launch now (R48). -/
def State.canPlace (s : State) (c : Nat) (l : Launch) : Bool :=
  let k := s.core c
  let g := l.groups
  k.open && (s.makeResident c l.asid).isSome && g ≤ k.freeSlots.length && !k.freeTeams.isEmpty
    && k.regsUsed + g * field l.words 5 32 16 ≤ 4096 && k.spadUsed + 1024 * field l.words 5 48 16 ≤ 524288

/-- Places the team of a coordinate and a stage on a core with its record (R38, R154, R201). -/
def State.placeTeam (s : State) (c : Nat) (l : Launch) (lin stage : Nat) (rec_ : List Word) : State :=
  let s := (s.makeResident c l.asid).getD s
  let ti := (s.pick 5 (s.core c).freeTeams).getD 0
  let tid := lin * l.stages + stage
  let pb := l.words.getD 6 0
  let lss := 2 ^ field l.words 7 0 8
  let t : Team :=
    { Team.none with
      launch := l.id, asid := l.asid, tid := tid, x := lin % l.x, y := lin / l.x % l.y, z := lin / (l.x * l.y),
      stage := stage, groups := l.groups, stages := l.stages, teams := l.teams, spadBytes := 1024 * field l.words 5 48 16,
      pb := pb, lss := lss }
  let slots := s.chooseSome 3 l.groups (s.core c).freeSlots
  let s := s.setTeam c ti t
  let s := slots.zipIdx.foldl (fun s (g, n) =>
    s.setGroup c g (newGroup l.asid ti n (field l.words 5 32 16) (l.words.getD 2 0) rec_ lin (stackTop pb lss tid) s.turn)) s
  s.acquire c

/-- Places the stages of a coordinate, all or none (R36). -/
def State.placeAll (s : State) (l : Launch) (lin : Nat) (rec_ : List Word) : List (Nat × Nat) → Option State
  | [] => some s
  | (c, st) :: r => if s.canPlace c l then State.placeAll (s.placeTeam c l lin st rec_) l lin rec_ r else none

/-- Where a record lies (R147, R163). -/
def Launch.recordAt (l : Launch) (lin : Nat) : Word :=
  let n := match l.ring with
    | some (start, cap) => (start + lin) % cap
    | none => lin
  l.words.getD 3 0 + BitVec.ofNat 64 (8 * field l.words 5 16 8 * n)

/-- A fault on a record: the manifest is refused, and no further record of it is dealt (R157). A merged manifest, which has
no queue, is dropped once its teams have ended, with no message and no decrement (log 56). -/
def State.refuseLaunch (s : State) (l : Launch) : State :=
  let s := s.onLaunch l.id fun l => { l with stopped := true, chunks := [] }
  if l.ring.isSome then s
  else
    s.onQueue (l.id.extractLsb' 32 16).toNat fun x =>
      (x.fail 7 (l.id.extractLsb' 0 32)).onPacket (l.id.extractLsb' 0 32) fun p => { p with refused := true }

/-- The number under which answers for the dealing of a launch are kept, beside those for merged manifests: its id, which
no serial reaches. -/
def dealJob (l : Launch) : Nat := l.id.toNat

/-- TEAM_ADMIT: the next coordinate of a core's chunk, its stages on the cores that the dispatcher chose. -/
def execTeamAdmit (id : Word) (core : Nat) (stageCores : List Nat) (s : State) : Out :=
  happen (.teamAdmit id core stageCores) s fun s =>
    match s.launchOf id with
    | none => s
    | some l =>
      match l.chunks.find? fun k => k.core == core with
      | none => s
      | some k =>
        if stageCores.length != l.stages || !stageCores.contains core || l.stopped then s
        else
          let j := dealJob l
          let a : Agent := ⟨queueCore, l.asid, false, (s.queue mergedQueue).answers j, 0⟩
          match s.queueWords a (field l.words 5 16 8) (l.recordAt k.next) with
          | (s, .no _) => s.refuseLaunch l
          | (s, .need w o) => s.askQueue mergedQueue j w o
          | (s, .away _ _) => s
          | (s, .ok rec_) =>
            match s.placeAll l k.next rec_ stageCores.zipIdx with
            | none => s
            | some s =>
              (s.onQueue mergedQueue fun x => x.over j).onLaunch id fun l =>
                { l with
                  admitted := l.admitted + 1,
                  chunks := (l.chunks.map fun j =>
                    if j.core == core && j.next == k.next then { j with next := j.next + 1 } else j).filter fun j =>
                      j.next < j.stop }

/-- Manifests that were refused while they were dealt count as finished once their teams have ended (R157). -/
def State.settleRefused (s : State) : State :=
  s.launches.foldl (fun s l =>
    if l.stopped && l.ring.isNone && l.ended == l.admitted * l.stages then
      let s := { s with launches := s.launches.filter fun x => x.id != l.id }
      s.onQueue (l.id.extractLsb' 32 16).toNat fun x =>
        (x.onPacket (l.id.extractLsb' 0 32) fun p => { p with finished := true }).passed
    else s) s

/-! ### The aggregator (R162 to R164) -/

/-- A template within its limits. -/
def State.templateOk (s : State) (asid : Nat) (ws : List Word) : Bool :=
  let mis := fun (k n : Nat) => (ws.getD k 0).toNat % n != 0
  let cap := field ws 4 0 32
  packetKind ws == 1 && field ws 0 12 20 == 0 && field ws 0 9 1 == 0 && field ws 0 1 3 == 0 && manifestLimits ws
    && placeable ws && !mis 1 8 && !mis 2 4 && !mis 3 4096 && !mis 6 4096 && 4096 ≤ cap && cap ≤ 2 ^ 20
    && cap == 2 ^ Nat.log2 cap && field ws 4 32 16 == 1 && field ws 4 48 16 == 1
    && (!depWaits ws || s.depOk asid (BitVec.ofNat 64 (depIndex ws)))

/-- Words that the issuing group reads from `va` on: the words, or a cause, or a wait. -/
def State.groupWords (s : State) : Nat → Word → State × Res (List Word)
  | 0, _ => (s, .ok [])
  | k + 1, va =>
    match s.spotOf .g va 8 8 .read .load with
    | (s, .no c) => (s, .no c)
    | (s, .need w o) => (s, .need w o)
    | (s, .away l t) => (s, .away l t)
    | (s, .ok p) =>
      match s.loadSpot p 8 with
      | (s, .no c) => (s, .no c)
      | (s, .need w o) => (s, .need w o)
      | (s, .away l t) => (s, .away l t)
      | (s, .ok v) =>
        match State.groupWords s k (va + 8) with
        | (s, .ok vs) => (s, .ok (v.setWidth 64 :: vs))
        | r => r

/-- The open manifest of a template. -/
def State.openOf (s : State) (asid : Nat) (tmpl : Word) : Option OpenManifest :=
  s.opens.find? fun o => o.asid == asid && o.tmpl == tmpl

/-- Records of a template that have not retired, and the ring position after the last; position 0 where all have retired
(log 27). -/
def State.ringUsed (s : State) (asid : Nat) (tmpl : Word) : Nat × Nat :=
  let ls := s.launches.filter fun l => l.ring.isSome && l.asid == asid && l.tmpl == tmpl
  let used := (ls.map fun l => l.x).sum
  let next := match ls.getLast? with
    | some l => (match l.ring with | some (st, cap) => (st + l.x) % cap | none => 0)
    | none => 0
  match s.openOf asid tmpl with
  | some o => (used + o.count, (o.start + o.count) % field o.words 4 0 32)
  | none => (used, next)

/-- Closes an open manifest (R163): it enters the dispatcher as a MANIFEST consumed now. -/
def State.closeOpen (s : State) (o : OpenManifest) : State :=
  let id := packetId o.asid 0xFFFF o.serial
  let ws := o.words.set 0 (o.words.getD 0 0 ||| 0x400)
  let l := Machine.launchOf id ws o.count 1 1 (some (o.start, field o.words 4 0 32)) o.tmpl s.turn
  { s with launches := s.launches ++ [l],
           opens := s.opens.filter fun x => !(x.asid == o.asid && x.tmpl == o.tmpl) }

/-- Opens a manifest with the context's next serial (R161). -/
def State.openNew (s : State) (asid : Nat) (tmpl : Word) (ws : List Word) : State × OpenManifest :=
  let o : OpenManifest := ⟨asid, tmpl, (s.ctx asid).serial, ws, (s.ringUsed asid tmpl).2, 0, s.time⟩
  ((({ s with opens := s.opens ++ [o] } : State)).onCtx asid fun x => { x with serial := x.serial + 1 }, o)

/-- Appends one record, and closes the manifest at 4,096 (R162, R163). The state and the ticket. -/
def State.appendOne (s : State) (asid : Nat) (tmpl : Word) (ws : List Word) : State × Word :=
  let (s, o) := match s.openOf asid tmpl with
    | some o => (s, o)
    | none => s.openNew asid tmpl ws
  let o' := { o with count := o.count + 1 }
  let ticket := BitVec.ofNat 64 (o.serial.toNat * 4096 + o.count)
  let s := { s with opens := s.opens.map fun x => if x.asid == asid && x.tmpl == tmpl then o' else x }
  (if o'.count = 4096 then s.closeOpen o' else s, ticket)

/-- Writes a record at a ring position as an access of the group, performed at its home. -/
def State.putRecord (s : State) (va : Word) : List Word → State × Res Unit
  | [] => (s, .ok ())
  | w :: r =>
    match s.spotOf .g va 8 8 .write .store with
    | (s, .no c) => (s, .no c)
    | (s, .need x o) => (s, .need x o)
    | (s, .away l t) => (s, .away l t)
    | (s, .ok (.mem p)) => State.putRecord (s.homeWrite s.cur.core p.pa (leBytes 8 w.toNat)) (va + 8) r
    | (s, .ok (.pad _ _ _)) => (s, .ok ())

/-- The first of the `n` words at an address whose access is refused: its address (06 Table 6-4). -/
def State.refusedWord (s : State) (n : Nat) (va : Word) (acc : Access) (u : TagUse) : Word :=
  let at_ := fun (k : Nat) => va + BitVec.ofNat 64 (8 * k)
  let bad := fun (k : Nat) =>
    match s.spotOf .g (at_ k) 8 8 acc u with
    | (_, .no _) => true
    | (s, .ok p) => acc == .read && match (s.loadSpot p 8).2 with | .no _ => true | _ => false
    | _ => false
  at_ (((List.range n).find? bad).getD 0)

/-- The lanes' records, read one lane after the other, each with its address, or that of the word refused. -/
def State.laneRecords (s : State) (n : Nat) (ea : Nat → Word) : List Nat → State × List (Nat × Word × Res (List Word))
  | [] => (s, [])
  | l :: ls =>
    let mis := (ea l).toNat % 8 != 0
    let (s, r) := if mis then (s, .no Cause.align) else s.groupWords n (ea l)
    let at_ := match r with | .no _ => if mis then ea l else s.refusedWord n (ea l) .read .load | _ => ea l
    let (s, rs) := State.laneRecords s n ea ls
    (s, (l, at_, r) :: rs)

/-- Appends lanes in order: the tickets, and the lanes whose ring position refused the write (log 27); or what must come over
the fabric before a ring position can be written. -/
def State.appendLanes (s : State) (asid : Nat) (tmpl : Word) (ws : List Word) :
    List (Nat × List Word) → State × Res (List (Nat × Word) × List LaneTrap)
  | [] => (s, .ok ([], []))
  | (l, rec_) :: ls =>
    let va := ws.getD 3 0 + BitVec.ofNat 64 (8 * field ws 5 16 8 * (s.ringUsed asid tmpl).2)
    match s.putRecord va rec_ with
    | (s, .ok _) =>
      let (s, t) := s.appendOne asid tmpl ws
      let (s, r) := State.appendLanes s asid tmpl ws ls
      (s, r.bind fun x => .ok ((l, t) :: x.1, x.2))
    | (s, .no c) =>
      let (s, r) := State.appendLanes s asid tmpl ws ls
      let bad : LaneTrap := ⟨l, c, s.refusedWord rec_.length va .write .store⟩
      (s, r.bind fun x => .ok (x.1, bad :: x.2))
    | (s, r) => (s, r.bind fun _ => .ok ([], []))

/-- `launch` (R162). -/
def execLaunch (g : Guard) (d : Option (BitVec 8)) (tmpl : BitVec 6) (recs : BitVec 8) (s : State) : Out :=
  let i := Instr.launch g d tmpl recs
  issue i g s fun act =>
    let x := s.me
    let asid := x.asid
    let ta := x.sreg tmpl.toNat
    if ta.toNat % 128 != 0 then s.raise i act Cause.resource 0
    else
      match s.groupWords 16 ta with
      | (s, .no c) => s.raise i act c ta .read
      | (s, .need w o) => s.awaitWant w o
      | (s, .away l t) => (s.needTeam l t).reissue
      | (s, .ok ws) =>
        if !s.templateOk asid ws then s.raise i act Cause.resource 0
        else
          let n := field ws 5 16 8
          let ea := fun l => (x.vwide recs.toNat l 64).setWidth 64
          let (s, rs) := s.laneRecords n ea (lanes act)
          let waits := rs.filterMap fun r => match r.2.2 with | .need w o => some (w, o) | _ => none
          if !waits.isEmpty then
            (waits.foldl (fun s (w, o) => s.askSlot s.cur.core s.cur.gslot s.cur.slot w o) s).reissueRead
          else
            let good := rs.filterMap fun r => match r.2.2 with | .ok v => some (r.1, v) | _ => none
            let bad := rs.filterMap fun r => match r.2.2 with | .no c => some (LaneTrap.mk r.1 c r.2.1) | _ => none
            if field ws 4 0 32 < (s.ringUsed asid ta).1 + good.length then s.reissue
            else
              match (s.appendLanes asid ta ws good).2 with
              | .need w o => s.awaitWant w o
              | .no _ | .away _ _ => s
              | .ok (_, late) =>
                let far := (lanes act).any fun l => s.peerAt (ea l) || s.peerAt (ea l + BitVec.ofNat 64 (8 * (n - 1)))
                s.step1 i (bad ++ late) .read far fun s =>
                  match s.appendLanes asid ta ws good, d with
                  | (s, .ok (ts, _)), some n =>
                    s.onMe fun y => ts.foldl (fun y t => y.setVwide n.toNat t.1 64 (t.2.setWidth 128)) y
                  | (s, _), _ => s

/-- `launch.flush` (R164). -/
def execLaunchFlush (g : Guard) (tmpl : BitVec 6) (s : State) : Out :=
  issue (.launchFlush g tmpl) g s fun _ =>
    let s' := match s.openOf s.me.asid (s.me.sreg tmpl.toNat) with
      | some o => s.closeOpen o
      | none => s
    s'.advance (.launchFlush g tmpl)

/-- MANIFEST_WINDOW_EXPIRY (R163). -/
def execManifestWindowExpiry (asid : Nat) (tmpl : Word) (s : State) : Out :=
  happen (.manifestWindowExpiry asid tmpl) s fun s =>
    match s.openOf asid tmpl with
    | some o => if o.words.getD 8 0 != 0 && (o.words.getD 8 0).toNat ≤ s.time - o.first then s.closeOpen o else s
    | none => s

end Sys2Proof.Machine
end

