-- ==== Sys2Proof/Machine/Debug.lean ====
section
/-! DEFINITION. Trace, counters, single steps and live dumps (08 R171 to R180). -/

namespace Sys2Proof.Machine

open Sys2Proof

/-! ### `trace`, `mark`, `rdctr` (R178, R180) -/

/-- The id of a record: a scalar, or IMM32 zero-extended. -/
def Group.recordId (g : Group) (id : Src) (x : Ext) : Word := (g.src 0 64 ((imm32 x).setWidth 64) id).setWidth 64

/-- The values of the lanes of a mask, zero in the others. -/
def Group.lanePayload (g : Group) (v : Nat) (m : Mask) : List Byte :=
  (List.range 32).flatMap fun l => leBytes 4 (if m.getLsbD l then g.vreg v l else 0).toNat

/-- Writes one record for the issuing slot. -/
def State.record (s : State) (kind : Nat) (id : Word) (act : Mask) (payload : List Byte) : State :=
  s.traceWrite s.me.asid (s.traceRec s.cur.core s.cur.gslot kind s.mySlot.pc id act) payload

def execTrace (g : Guard) (id : Src) (v : BitVec 8) (x : Ext) (s : State) : Out :=
  issue (.trace g id v x) g s fun act =>
    (s.record 2 (s.me.recordId id x) act (s.me.lanePayload v.toNat act)).advance (.trace g id v x)

def execMark (g : Guard) (id : Src) (x : Ext) (s : State) : Out :=
  issue (.mark g id x) g s fun act => (s.record 1 (s.me.recordId id x) act []).advance (.mark g id x)

/-- The live count of counter `n` of a context on a core. Those that count cycles, misses and conflicts are free
(log 19). -/
def State.liveCount (s : State) (c a n : Nat) : BitVec 32 :=
  if n = 15 then 0
  else if [1, 2, 3, 4, 9, 10, 13].contains n then Config.timingCount c a n s.turn
  else (s.core c).counters.get 0 (16 * a + n)

/-- The count at the last tick. -/
def State.latchedCount (s : State) (c a n : Nat) : BitVec 32 := (s.core c).latched.get 0 (16 * a + n)

def execRdctr (g : Guard) (lat : Bool) (d : Dst) (n : Src) (x : Ext) (s : State) : Out :=
  issue (.rdctr g lat d n x) g s fun act =>
    let k := (s.me.recordId n x).toNat
    let c := s.cur.core
    let a := s.me.asid
    if 15 < k then s.raise (.rdctr g lat d n x) act Cause.resource 0
    else
      let v := if lat then s.latchedCount c a k else s.liveCount c a k
      (s.onMe fun y => y.perLane d 32 act fun _ => v.setWidth 128).advance (.rdctr g lat d n x)

/-! ### The counter tick (R179) -/

/-- Latches every counter of a context on a core. -/
def State.latch (s : State) (c a : Nat) : State :=
  s.onCore c fun k =>
    { k with latched := (List.range 16).foldl (fun m n => m.set (16 * a + n) (s.liveCount c a n)) k.latched }

/-- A counter record (Table 8-7). -/
def State.counterRec (s : State) (c a : Nat) : List Byte :=
  leBytes 8 s.time ++ leBytes 2 a ++ leBytes 2 c ++ zeros 4
    ++ ((List.range 16).flatMap fun n => leBytes 4 (s.latchedCount c a n).toNat) ++ zeros 48

/-- Writes the counter record of a context on a core; it is discarded where it does not fit. -/
def State.writeCounters (s : State) (c a : Nat) : State :=
  let d := (s.ctx a).dbg
  let lg := (d.ctrcfg.extractLsb' 0 5).toNat
  if !d.ctrcfg.getLsbD 8 || ringRoom d.ctrprod d.ctrcons lg = 0 then s
  else
    (s.deviceWrite (d.ctrbase.toNat + 128 * (d.ctrprod.toNat % 2 ^ lg)) (s.counterRec c a)).onCtx a fun x =>
      { x with dbg := { x.dbg with ctrprod := x.dbg.ctrprod + 1 } }

/-- The SAMPLE record of a team: slot 0 of its lowest-numbered group with lanes. What a team without lanes records is free
(log 21). -/
def State.sample (s : State) (c t : Nat) : State :=
  let x := s.team c t
  if !(s.ctx x.asid).dbg.trcfg.getLsbD 11 then s
  else
    match (s.groupsOf c t).find? fun e => s.lanesLeft c e.1 != 0 with
    | some (g, y) => s.traceWrite x.asid (s.traceRec c g 8 y.slot0.pc 0 y.slot0.mask) []
    | none =>
      s.traceWrite x.asid
        { time := s.time, launch := x.launch, pc := BitVec.ofNat 64 (unstated 30 s.turn), aux := 0, team := x.tid,
          phc := s.phaseCount x.asid x.tid, mask := 0, kind := 8, group := unstated 31 s.turn % 256, stage := x.stage,
          core := c } []

/-- Every counter of every core latches, and the records of the tick are written. -/
def State.tickNow (s : State) : State :=
  ({ s with ticked := s.time } : State).eachCore fun s c =>
    let here := (s.core c).copies.map (·.1)
    let s := here.foldl (fun s a => s.latch c a) s
    let s := here.foldl (fun s a => s.writeCounters c a) s
    ((s.core c).teams.map (·.1)).foldl (fun s t => s.sample c t) s

/-- The time base stands at a multiple of 2^k, at which the counters have not latched yet. -/
def State.tickDue (s : State) : Bool := s.time % 2 ^ s.tick == 0 && s.ticked != s.time

/-- COUNTER_TICK: at a multiple of 2^k of the time base. One that is still due when time goes on comes by itself. -/
def execCounterTick (s : State) : Out := happen .counterTick s fun s => if s.tickDue then s.tickNow else s

/-- The ticks of the counters from now on to a time before which all of them come. -/
def State.ticksUntil (s : State) (t : Nat) : State :=
  let n := 2 ^ s.tick
  let from_ := (s.time + n - 1) / n
  (List.range ((t + n - 1) / n - from_)).foldl (fun s i =>
    let s : State := { s with time := n * (from_ + i) }
    if s.tickDue then s.tickNow else s) s

/-! ### Live dumps (R174 to R176) -/

/-- Bit g: group g has a slot BLOCKED on the word at an offset. -/
def State.waitersOn (s : State) (c t off : Nat) : Mask :=
  maskOf (((s.groupsOf c t).filter fun (g, x) =>
    let on := fun (y : Slot) => y.state == .blocked && y.wait.kind == .word && y.wait.offset.toNat == off
    on x.slot0 || on x.slot1 || (s.spilledSlots c g).any fun (_, _, e) =>
      e.state == 3 && (WaitRec.ofWord e.wait).any fun w => w.kind == .word && w.offset.toNat == off).map
    fun e => e.2.number)

/-- The ARRIVALS section of a team (Table 8-3). -/
def State.arrivals (s : State) (c t : Nat) : List Byte :=
  let x := s.team c t
  (x.tags.filter fun e => e.2 == 3).flatMap fun e =>
    let off := 8 * e.1
    let w := x.word off
    leBytes 8 w.toNat ++ leBytes 4 off ++ leBytes 4 (s.waitersOn c t off).toNat
      ++ leBytes 2 (bwExp w + 65536 - bwArr w) ++ leBytes 2 (bwExp w) ++ leBytes 2 (x.heldArr.get 0 off) ++ zeros 10

/-- The attached operations of a team in a dump's record: as they stood before the dump stopped them, at the cursors that
they have come to since (R175). -/
def State.dumpedOps (s : State) (c t : Nat) : List Op :=
  let x := s.team c t
  ((s.ctx x.asid).dumpOps.filter fun o => o.launch == x.launch && o.tid == x.tid).map fun o =>
    if o.state != .running && o.state != .parked then o
    else
      match s.allOps.find? fun (_, _, now) => now.handle == o.handle with
      | some (_, _, now) => { o with cursor := now.cursor, delivered := now.delivered }
      | none => o

/-- A team's record in a dump. -/
def State.dumpRecord (s : State) (c t : Nat) : List Byte := s.teamRecord c t 2 (s.dumpedOps c t) ++ s.arrivals c t

/-- Teams that a dump of a context records: core and index. -/
def State.dumpTeams (s : State) (a : Nat) : List (Nat × Nat) :=
  s.cores.flatMap fun (c, _) => ((s.teamsOf c a).filter fun t => (s.team c t).halts.contains .dump).map fun t => (c, t)

/-- The teams of a context that stand saved. -/
def State.savedTeams (s : State) (a : Nat) : List SavedTeam := s.saved.filter fun x => x.asid == a

/-- The header of a dump of `n` records (Table 8-2). -/
def State.dumpHeader (s : State) (a n : Nat) : List Byte :=
  let outs := (s.savedTeams a).take 252
  let bs := leBytes 8 0x00030001 ++ leBytes 8 s.time ++ leBytes 2 a ++ zeros 2 ++ leBytes 4 n ++ leBytes 4 outs.length
    ++ zeros 36 ++ outs.flatMap fun x => leBytes 8 x.tid ++ leBytes 8 x.record.toNat
  padded 4096 bs

/-- Writes the records that the area can hold, each at the next multiple of 4 KiB; how many, and whether the area was too
small. -/
def State.dumpRecords (s : State) (base size : Nat) : Nat → Nat → List (Nat × Nat) → State × Nat × Bool
  | _, n, [] => (s, n, false)
  | off, n, (c, t) :: r =>
    let bs := s.dumpRecord c t
    if size < off + bs.length then (s, n, true)
    else State.dumpRecords (s.deviceWrite (base + off) bs) base size ((off + bs.length + 4095) / 4096 * 4096) (n + 1) r

/-- Nothing of a team that is being dumped still moves. -/
def State.dumpReady (s : State) (c t : Nat) : Bool :=
  !s.stillRunning c t && (s.groupsOf c t).all fun (g, _) => !s.underWay c g 0 && !s.underWay c g 1

/-- A halt of a team that a dump leaves (R174): a STOP, a debugger's hit or phase stop, a stop that R45 treats as one, and
a team that cannot leave its core. -/
def HaltReason.outlastsDump (r : HaltReason) : Bool := [.stop, .hit, .debugger, .pop, .unsaved].contains r

/-- Step 4 for a team: its operations go on; it is released unless a STOP or the debugger holds it (log 41). -/
def State.dumpRelease (s : State) (c t : Nat) : State :=
  let held := (s.team c t).halts.any HaltReason.outlastsDump
  (s.unhalt c t fun r => !held || r == .dump || r == .late).unparkOps c t

/-- Steps 3 to 5 of a dump in progress, once its teams have stopped. An area without room for the header is too small
(log 21). -/
def State.settleDump (s : State) (a : Nat) : State :=
  let d := (s.ctx a).dbg
  let ts := s.dumpTeams a
  let s := if d.dumpstat.getLsbD 8 then ts.foldl (fun s (c, t) => s.preemptOps c t true) s else s
  if !d.dumpstat.getLsbD 8 || !ts.all fun (c, t) => s.dumpReady c t then s
  else
    let size := d.dumpsize.toNat
    let (s, n, short) := if size < 4096 then (s, 0, true)
      else
        let (s, n, short) := s.dumpRecords d.dumpbase.toNat size 4096 0 ts
        (s.deviceWrite d.dumpbase.toNat (s.dumpHeader a n), n, short)
    let s := s.eachTeam a fun s c t => if (s.team c t).dumped then s.dumpRelease c t else s
    s.onCtx a fun x =>
      { x with dumpOps := [], dbg := { x.dbg with dumpstat := BitVec.ofNat 64 ((if short then 1 else 0) + 2 ^ 32 * n) } }

/-- The check of every dump in progress, after every change. -/
def State.settleDumps (s : State) : State := (s.ctxs.map (·.1)).foldl (fun s a => s.settleDump a) s

/-- A team that is leaving its core stays there for a dump: its `team.out` returns 4, as SWAPSTAT does (R176). -/
def State.stayFor (s : State) (c t : Nat) : State :=
  let x := s.team c t
  if !x.moving then s
  else
    let s := s.abandonMove c t
    if x.hostAsked then s.swapDone x.asid 4 else s

/-- DUMPREQ: steps 1 and 2; the rest follows once the teams have stopped. -/
def execDumpreq (asid : Nat) (s : State) : Out :=
  reachBar (.dumpreq asid) s fun s =>
    if (s.ctx asid).dbg.dumpstat.getLsbD 8 then s
    else
      let s := s.onCtx asid fun x => { x with dbg := { x.dbg with dumpstat := 0x100 } }
      let s := s.eachTeam asid fun s c t => (s.stayFor c t).haltTeam c t .dump 3
      let ops := s.cores.flatMap fun (c, _) => (s.teamsOf c asid).flatMap fun t => (s.recordOps c t).map fun o => o.2.2
      (s.onCtx asid fun x => { x with dumpOps := ops }).settleDump asid

/-! ### SSTEPREQ (R171) -/

/-- Writes SSTEP of a group of a saved team in its record; a group that the record does not hold is no group of it. -/
def State.setSavedStep (s : State) (x : SavedTeam) (g : Nat) (on : Bool) : State × Res Unit :=
  let a := s.svcAgent 0 x.asid
  match s.fetch a x.record 0x200 with
  | (s, .ok hd) =>
    let h : Rec := hd.toArray
    match s.fetch a x.record (h.num 0x78 8) with
    | (s, .ok bs) =>
      let r : Rec := bs.toArray
      match (r.groupOffs (r.num 0x1D 1) (r.num 0x38 8))[g]? with
      | none => (s, .ok ())
      | some off => s.store a (x.record + BitVec.ofNat 64 (off + 0x50)) (leBytes 8 (if on then 1 else 0))
    | (s, r) => (s, r.bind fun _ => .ok ())
  | (s, r) => (s, r.bind fun _ => .ok ())

/-- The requests that wait for the record of a saved team to come over the fabric are tried, the oldest first. A record that
cannot be accessed keeps its value (log 29). -/
def State.settleSteps (s : State) : State :=
  s.saved.foldl (fun s x =>
    match x.stepReqs with
    | [] => s
    | (g, on) :: r =>
      match s.setSavedStep x g on with
      | (s, .need w o) => s.askService 0 w o
      | (s, _) =>
        { s.svcDone 0 with saved := s.saved.map fun (y : SavedTeam) =>
            if y.launch == x.launch && y.tid == x.tid then { y with stepReqs := r } else y }) s

/-- SSTEPREQ: the named group of each team T of the context (log 29). -/
def execSstepreq (asid : Nat) (v : Word) (s : State) : Out :=
  reachBar (.sstepreq asid v) s fun s =>
    let tid := (v.extractLsb' 0 32).toNat
    let g := (v.extractLsb' 32 5).toNat
    let on := v.getLsbD 40
    let s := s.eachTeam asid fun s c t =>
      if (s.team c t).tid != tid then s
      else
        match (s.groupsOf c t).find? fun e => e.2.number == g with
        | some (i, _) => s.onGroup c i fun x => x.setStep on
        | none => s
    { s with saved := s.saved.map fun (x : SavedTeam) =>
        if x.asid == asid && x.tid == tid then { x with stepReqs := x.stepReqs ++ [(g, on)] } else x }.settleSteps

end Sys2Proof.Machine
end

