-- ==== Sys2Proof/Machine/Host.lean ====
section
/-! DEFINITION. What the host does through the control pages and HDM (07 R165 to R170, 10 R187, 11 R228). -/

namespace Sys2Proof.Machine

open Sys2Proof

/-! ### SWAPREQ (Table 7-10, R168) -/

/-- SWAPSTAT is busy. -/
def State.swapBusy (s : State) (a : Nat) : Bool := (s.ctx a).swapstat.getLsbD 8

/-- A swap-out of a team by the host: it begins to leave, and SWAPSTAT is busy until it has left or stays. -/
def execSwapreqOut (asid : Nat) (w : Word) (s : State) : Out :=
  reachBar (.swapreqOut asid w) s fun s =>
    if s.swapBusy asid || w.extractLsb' 40 2 != 1 then s
    else
      match s.findTeam (s.ctx asid).swapl (w.extractLsb' 0 32).toNat with
      | none => s.swapDone asid 6
      | some (c, t) =>
        let x := s.team c t
        if x.asid != asid then s.swapDone asid 6
        else if x.dumped || x.moving then s.swapDone asid 4
        else if x.unsaved then s.swapDone asid 3
        else
          let s := (s.beginMove c t).onTeam c t fun x => { x with hostAsked := true }
          let s := s.onCtx asid fun y => { y with swapstat := 0x100 }
          if s.tripped then s
          else
            match s.continueOut c t with
            | (s, none) => s
            | (s, some n) => s.swapDone asid n

/-- A swap-in that the host has asked for goes on, until SWAPSTAT can say how it ended (R168). -/
def State.goOnSwap (s : State) (a : Nat) : State :=
  match (s.ctx a).swapAsk with
  | none => s
  | some (core, l, tid) =>
    if s.tripped then s
    else
      match s.swapInSlot core a fun y => y.launch == l && y.tid == tid with
      | (s, none) => s
      | (s, some n) => (s.onCtx a fun y => { y with swapAsk := none }).swapDone a n

/-- The same for every context. -/
def State.goOnSwaps (s : State) : State := (s.ctxs.map (·.1)).foldl (fun s a => s.goOnSwap a) s

/-- A swap-in by the host on a core, or on one that the device chooses. -/
def execSwapreqIn (asid : Nat) (w : Word) (any : Nat) (s : State) : Out :=
  reachBar (.swapreqIn asid w any) s fun s =>
    let k := (w.extractLsb' 32 8).toNat
    let core := if k = 255 then any else k
    if s.swapBusy asid || w.extractLsb' 40 2 != 2 then s
    else if Config.cores ≤ core then s.swapDone asid 2
    else
      let ask := (core, (s.ctx asid).swapl, (w.extractLsb' 0 32).toNat)
      (s.onCtx asid fun y => { y with swapstat := 0x100, swapAsk := some ask }).goOnSwap asid

/-! ### RELEASE (Table 7-10) -/

/-- RELEASE 1: every halted team of the context is released, those that stand saved too. -/
def execReleaseTeams (asid : Nat) (s : State) : Out :=
  reachBar (.releaseTeams asid) s fun s =>
    let s := s.eachTeam asid fun s c t => s.releaseAll c t
    { s with saved := s.saved.map fun (x : SavedTeam) => if x.asid == asid then { x with halts := [] } else x }

/-- A team that is being moved stays; a host that waits for the move is told that there is no such team. -/
def State.stopMove (s : State) (c t : Nat) : State :=
  let x := s.team c t
  if !x.moving then s
  else
    let s := s.abandonMove c t
    if x.hostAsked then s.swapDone x.asid 6 else s

/-- RELEASE 2. A halted team that stands saved ends where it is swapped in: what is resolved about it takes effect there,
as it does for its operations (13 R269; log 28). -/
def execKillTeams (asid : Nat) (s : State) : Out :=
  reachBar (.killTeams asid) s fun s =>
    let s := s.eachTeam asid fun s c t => if (s.team c t).halted then (s.stopMove c t).killHere c t else s
    { s with saved := s.saved.map fun (x : SavedTeam) =>
        if x.asid == asid && !x.halts.isEmpty then { x with halts := [], killed := true } else x }

/-! ### Contexts (R166) -/

/-- CREATE. -/
def execCtxctlCreate (asid : Nat) (s : State) : Out :=
  reachBar (.ctxctlCreate asid) s fun s =>
    if asid = 0 || (s.ctx asid).exists_ then s
    else s.onCtx asid fun x => { x with exists_ := true, master := { CtxRegs.zero with share := 1 }, serial := 1 }

/-- What keeps a context from being destroyed. -/
def State.ctxInUse (s : State) (a : Nat) : Bool :=
  (s.queues.any fun e => e.2.state != .disabled && (e.2.cfg.extractLsb' 0 16).toNat == a)
    || (s.cores.any fun e => e.2.teams.any fun t => t.2.asid == a)
    || (s.allOps.any fun (_, _, op) => op.asid == a && !op.state.final)
    || (s.regions.any fun e => e.2.armed && e.2.asid == a)

/-- DESTROY. -/
def execCtxctlDestroy (asid : Nat) (s : State) : Out :=
  reachBar (.ctxctlDestroy asid) s fun s =>
    if !(s.ctx asid).exists_ || s.ctxInUse asid then s
    else
      (s.onCtx asid fun x => { x with exists_ := false }).eachCore fun s c =>
        s.onCore c fun k => { k with copies := k.copies.erase asid }

/-- A write through the CR window: the master copy and every resident copy. -/
def execCrwinWrite (asid off : Nat) (v : Word) (s : State) : Out :=
  reachBar (.crwinWrite asid off v) s fun s =>
    if !(s.ctx asid).exists_ || off < 0x100 || 0x1BF < off || off % 8 != 0 then s
    else
      let n := 0x100 + (off - 0x100) / 8
      (s.onCtx asid fun x => { x with master := x.master.write n v }).eachCore fun s c =>
        s.onCore c fun k => { k with copies := k.copies.mapAll fun a r => if a == asid then r.write n v else r }

/-! ### Dependence counters (R167) -/

/-- DEPVAL: the counter that DEPIDX names, if the context owns it. -/
def execDepvalWrite (asid : Nat) (v : Word) (s : State) : Out :=
  reachBar (.depvalWrite asid v) s fun s =>
    let i := (s.ctx asid).depidx
    let d := s.dep i
    if d.owner != asid then s
    else s.setDep i { d with count := v.extractLsb' 0 32, under := d.under && !v.getLsbD 32 }

/-- DEPOWN. -/
def execDepownWrite (v : Word) (s : State) : Out :=
  reachBar (.depownWrite v) s fun s =>
    let i := (v.extractLsb' 0 12).toNat
    let owner := (v.extractLsb' 48 16).toNat
    let d := s.dep i
    if d.owner != owner then s.setDep i ⟨0, owner, false⟩
    else s.setDep i { d with under := d.under && !v.getLsbD 28 }

/-! ### The carve-out (10 R187) -/

/-- CARVE: only while no context is resident on any core; a change zeroes the new window, whatever the caches of the cores
hold of it. -/
def execCarveWrite (v : Word) (s : State) : Out :=
  reachBar (.carveWrite v) s fun s =>
    let n := min 8 (v.extractLsb' 0 4).toNat
    if s.cores.any fun e => !e.2.residents.isEmpty then s
    else if n = s.carve then s
    else
      { s.dropSpan carveBase (carveBase + 2 ^ 29) with
        carve := n, mem := s.mem.keep fun pa _ => pa < carveBase || carveBase + 2 ^ 29 ≤ pa }

/-! ### HDM and CXL.cache (R170, 11 R228) -/

/-- The host may access these bytes: HBM as HDM, once the link is trained (21 R386), or its own memory. -/
def State.hostReach (s : State) (pa n : Nat) : Bool :=
  (List.range n).all fun i => isHost (pa + i) || (s.boot == .service && pa + i < hbmEnd && s.own (pa + i))

/-- A host access to HDM, or to the host's own memory: it is performed in the stacked cache's coherence order; the device
holds a host line that the host writes no more (R228). -/
def execHostHdmAccess (a : HostAccess) (s : State) : Out :=
  happen (.hostHdmAccess a) s fun s =>
    match a with
    | .read pa n => if s.hostReach pa n then s.send (.hostData (s.readMem pa n)) else s
    | .write pa bs =>
      if !s.hostReach pa bs.length then s
      else
        let s := s.writeMem pa bs
        { s with hostLines := s.hostLines.filter fun l => !(List.range bs.length).any fun i => (pa + i) / 128 == l }

/-- CXL_CACHE_SNOOP: the host's coherence agent claims a line, which the device gives up, or reads it, which the device
keeps, its bytes written back. The bytes stand in memory already: the model keeps one copy of a host line. -/
def execCxlCacheSnoop (line : Nat) (claim : Bool) (s : State) : Out :=
  happen (.cxlCacheSnoop line claim) s fun s =>
    if claim then { s with hostLines := s.hostLines.filter (· != line) } else s

end Sys2Proof.Machine
end

