-- ==== Sys2Proof/Machine/FabricEvents.lean ====
section
/-! DEFINITION. The fabric as events: answers, timeouts, the device as a home, ports and routes, congestion, the time base
(16 R326 to R340). -/

namespace Sys2Proof.Machine

open Sys2Proof

/-! ### Answers to requests (R328, R330, R333 to R335) -/

/-- A write-back is acknowledged: the bytes it carried are published; those written since stay dirty. -/
def State.ackSector (s : State) (sec tag : Nat) : State :=
  { s with peerDirty := s.peerDirty.keep fun pa b => !(pa / 32 == sec && b.inFlight == some tag) }

/-- A lane of a `red` that the home refused leaves a deferred failure (R245). -/
def Group.defer (g : Group) (lane : Nat) (addr : Word) : Group :=
  { g with defAddr := if g.defMask == 0 then addr else g.defAddr, defMask := g.defMask ||| BitVec.twoPow 32 lane }

/-- A counted access of a group is complete. -/
def State.uncount (s : State) (c g : Nat) : State :=
  s.onGroup c g fun x => { x with outstanding := x.outstanding - 1 }

/-- Adds an answer to what a blocked slot has received for the instruction that it is inside. -/
def State.slotGot (s : State) (c g n : Nat) (x : Arrived) : State :=
  s.onGroup c g fun y => y.onSlot n fun z =>
    if z.state == .blocked && z.asked ≤ x.tag then { z with got := z.got ++ [x] } else z

/-- The stacked cache holds a line that an answer brought, if it was asked for after all that has made the cache give the
line up (R218, R227), no write or atomic of this device to the line waits behind it (R214), and its device is not failed
(R336). -/
def State.keepLine (s : State) (r : Request) (a : Answer) : State :=
  let line := r.pa / 128
  match r.op, a with
  | .readLine, .data bs =>
    if s.lineFrom.get 0 line ≤ r.tag && s.peersFrom ≤ r.tag && s.reachable r.target
        && s.requests.all (fun (q : Request) => q.op == .readLine || q.pa / 128 != line) then
      { s with peerClean := s.peerClean.set line bs }
    else s
  | _, _ => s

/-- Gives an answer to who waits for it. A `red` that met an unmapped address fails as one that timed out does
(log 14). -/
def State.deliverAnswer (s : State) (r : Request) (a : Answer) : State :=
  let s := s.keepLine r a
  match r.origin with
  | .slot c g n w =>
    let s := s.slotGot c g n ⟨w, a, r.tag⟩
    match w with
    | .amo _ _ => s.uncount c g
    | _ => s
  | .red c g lane pc va =>
    let s := s.uncount c g
    match a with
    | .data _ | .ok => s
    | .notSupported => s.onGroup c g fun x => x.defer lane pc
    | .addressError | .timedOut => s.onGroup c g fun x => x.fabricError va
  | .writeback sec ws => if a == .ok then s.ackSector sec r.tag else s.failSector sec ws
  | .unit c e w =>
    match s.op? c e with
    | some op => s.setOp c e { op with got := op.got ++ [⟨w, a, r.tag⟩] }
    | none => s
  | .queue q job w =>
    let s := s.onQueue q fun x => { x with got := x.got ++ [(job, ⟨w, a, r.tag⟩)] }
    if job == lookJob && q != mergedQueue then s.lookSlot q else s
  | .service c w => s.onCore c fun k => { k with got := k.got ++ [⟨w, a, r.tag⟩] }
  | .prefetch _ _ => s
  | .gone c g counted => if counted then s.uncount c g else s

/-- What a core's service holds of a line that this device has written at its home meanwhile is asked for again. -/
def State.dropServiceLine (s : State) (r : Request) : State :=
  if r.op == .readLine then s
  else
    { s with cores := s.cores.mapAll fun _ k =>
        { k with got := k.got.filter fun x => x.want != .line (r.pa / 128) } }

/-- A request ends with an answer. -/
def State.answerRequest (s : State) (r : Request) (a : Answer) : State :=
  (({ s with requests := s.requests.filter fun (q : Request) => q.tag != r.tag }).dropServiceLine r).deliverAnswer r a

/-- A retiring port with no request in flight is RETIRED (R337); no port leaves DOWN while the domain id is not valid
(R327). -/
def State.settlePorts (s : State) : State :=
  (List.range 16).foldl (fun s n =>
    let p := s.port n
    if p.retire && p.state != .retired && (p.state != .down || s.domValid)
        && !s.requests.any fun (r : Request) => r.port == n then
      s.setPort n { p with state := .retired }
    else s) s

/-- Held requests whose target can no longer be reached fail at once (R335); the others go as their lines move (R329). -/
def State.settleHeld (s : State) : State :=
  let s := s.requests.foldl (fun s (r : Request) =>
    if r.port == heldPort && !s.reachable r.target then s.answerRequest r .timedOut else s) s
  s.releaseHeld

/-- Device d is failed: its lines are discarded, dirty bytes as a failed write-back (R336). -/
def State.failDevice (s : State) (d : Nat) : State :=
  let s := s.setRoute d { s.route d with down := true }
  let s := (s.dirtySectors fun pa _ => peerOf pa == d).foldl (fun s x => s.failSector x (s.sectorWriters x)) s
  { s with peerClean := s.peerClean.keep fun l _ => peerOf (128 * l) != d }

/-- An UP port is in PORTS of the route. -/
def State.routed (s : State) (d : Nat) : Bool := !(s.upPorts d).isEmpty

/-- The device sets DOWN where a change has left no port in PORTS UP (R336); TSYNC clears, and the clock runs freely, where
the last path to the master is lost (R340). -/
def State.checkRoutes (old s : State) : State :=
  let s := (s.routes.map (·.1)).foldl (fun s d => if old.routed d && !s.routed d then s.failDevice d else s) s
  if !s.tsmaster && old.routed s.tsfrom && !s.routed s.tsfrom then { s with tsync := false, slew := 0 } else s

/-- What follows the end of a request, or a change of a port or a route. -/
def State.settleFabric (s : State) : State :=
  (State.checkRoutes s s.settleHeld.settlePorts).settleHeld

/-- A request that has been sent. -/
def State.sentRequest (s : State) (tag : Nat) : Option Request :=
  s.requests.find? fun (r : Request) => r.tag == tag && r.port != heldPort

/-! ### Congestion (R338) -/

def State.rate (s : State) (d : Nat) : Rate := s.rates.get .reset d

def State.setRate (s : State) (d : Nat) (x : Rate) : State := { s with rates := s.rates.set d x }

/-- The ends of microseconds up to a count of them since the last: the rate rises at each but for the first after a mark. -/
def Rate.pass (x : Rate) (inc k : Nat) : Rate :=
  if k = 0 then x
  else
    { x with r := min 4096 (x.r + inc * (k - if x.marked then 1 else 0)), marked := false,
             ended := 1000 * (x.ended / 1000 + k) }

/-- A marked answer lowers the rate, at most once in a microsecond. -/
def State.mark (s : State) (d : Nat) : State :=
  let now := s.time / 1000
  let was := s.rate d
  let x := was.pass s.congInc (now - was.ended / 1000)
  if x.last == some now then s.setRate d { x with marked := true }
  else s.setRate d { x with r := max s.congRmin (x.r - x.r / 2 ^ s.congDec), last := some now, marked := true }

/-- CONGESTION_INTERVAL: the end of a microsecond; the rate rises unless a mark came in it. One that has not come when time
goes on comes by itself. -/
def execCongestionInterval (d : Nat) (s : State) : Out :=
  happen (.congestionInterval d) s fun s =>
    if s.time % 1000 != 0 then s
    else s.setRate d ((s.rate d).pass s.congInc (s.time / 1000 - (s.rate d).ended / 1000))

/-- The ends of microseconds before a time, for every target. -/
def State.ratesUntil (s : State) (t : Nat) : State :=
  { s with rates := s.rates.mapAll fun _ x => x.pass s.congInc ((t - 1) / 1000 - x.ended / 1000) }

/-! ### Responses and timeouts -/

/-- An answer that a home gives to an operation (R328, R330, R334). -/
def answeredBy (op : HomeOp) (a : Answer) : Bool :=
  match op, a with
  | _, .timedOut => false
  | _, .addressError => true
  | .readLine, .data bs => bs.length == 128
  | .atomic _ w _ _, .data bs => bs.length == widthBytes w
  | .write _ _, .ok | .reduceSector _ _, .ok => true
  | .atomic _ _ _ _, .notSupported | .reduceSector _ _, .notSupported => true
  | _, _ => false

/-- REMOTE_RESPONSE: the answer to a request, before its time is over (R333). -/
def execRemoteResponse (tag : Nat) (ans : Answer) (marked : Bool) (s : State) : Out :=
  happen (.remoteResponse tag ans marked) s fun s =>
    match s.sentRequest tag with
    | none => s
    | some r =>
      if !answeredBy r.op ans || r.sent + 2 ^ s.tmoexp ≤ s.time then s
      else
        let s := if marked then s.mark r.target else s
        (s.answerRequest r ans).settleFabric

/-- REMOTE_TIMEOUT: 2^TMOEXP ns after the first sending (R333). -/
def execRemoteTimeout (tag : Nat) (s : State) : Out :=
  happen (.remoteTimeout tag) s fun s =>
    match s.sentRequest tag with
    | none => s
    | some r => if s.time < r.sent + 2 ^ s.tmoexp then s else (s.answerRequest r .timedOut).settleFabric

/-- PEER_WRITEBACK: the dirty sectors of a peer line start home (R330). -/
def execPeerWriteback (line : Nat) (s : State) : Out :=
  happen (.peerWriteback line) s fun s =>
    (s.dirtySectors fun pa _ => pa / 128 == line).foldl (fun s x => s.writeBack x) s

/-! ### The device as a home (R328, R332, R334) -/

/-- The atomics that this device performs for peers (Table 16-2: CAPS 0x03FF). -/
def homeAtomic (op : AtomOp) (w : Width) : Bool :=
  match op with
  | .fadd => w == .b32 || w == .b64
  | .exch => w == .b32 || w == .b64 || w == .b128
  | _ => w == .b32 || w == .b64

/-- Adds elements of `n` bytes, one by one. -/
def addElems (n : Nat) (f : Nat → Nat → Nat) : Nat → List Byte → List Byte → List Byte
  | 0, _, _ => []
  | k + 1, old, new =>
    leBytes n (f (leNat (old.take n)) (leNat (new.take n))) ++ addElems n f k (old.drop n) (new.drop n)

/-- The sum of a sector for a reduction (13 R286); none for a TYPE that this device lacks. -/
def reduced (ty : Ty) (old new : List Byte) : Option (List Byte) :=
  let fl := fun (m : Fmt) (x y : Nat) => (m.add .rne x y).1
  match ty with
  | .s32 => some (addElems 4 (· + ·) 8 old new)
  | .s64 => some (addElems 8 (· + ·) 4 old new)
  | .f16 => some (addElems 2 (fl fp16) 16 old new)
  | .bf16 => some (addElems 2 (fl bf16) 16 old new)
  | .f32 => some (addElems 4 (fl fp32) 8 old new)
  | _ => none

/-- The bytes of a list written where a mask says, in this device's memory. -/
def State.maskWrite (s : State) (pa : Nat) (bs : List Byte) (m : BitVec 32) : State :=
  (lanes m).foldl (fun s i => s.performByte (pa + i) (bs.getD i 0) []) s

/-- Performs a request at this device's physical address, as an agent of the source; the answer. -/
def State.homePerform (s : State) (pa : Nat) (op : HomeOp) : State × Answer :=
  if !s.own pa then (s, .addressError)
  else
    match op with
    | .readLine => (s, .data (s.readMem (pa / 128 * 128) 128))
    | .write bs m => (s.maskWrite (pa / 32 * 32) bs m, .ok)
    | .atomic f w b cmp =>
      if !homeAtomic f w then (s, .notSupported)
      else
        let n := widthBytes w
        let old := bytesValue (s.readMem pa n)
        (s.writeMem pa (valueBytes n (atomValue f (8 * n) old b cmp)), .data (valueBytes n old))
    | .reduceSector ty bs =>
      let at_ := pa / 32 * 32
      match reduced ty (s.readMem at_ 32) bs with
      | some r => (s.writeMem at_ r, .ok)
      | none => (s, .notSupported)

/-- A request that was performed within the timeout window (R332). -/
def State.duplicate (s : State) (src tag : Nat) : Bool :=
  s.performed.any fun x => x.1 == src && x.2.1 == tag && s.time < x.2.2 + 2 ^ s.tmoexp

/-- HOME_REQUEST. The answer is marked where the ingress queue holds THRESH requests or more: its depth is free
(log 14). -/
def execHomeRequest (r : HomeReq) (s : State) : Out :=
  happen (.homeRequest r) s fun s =>
    if !s.linked || s.duplicate r.src r.tag then s
    else
      let (s, a) := s.homePerform r.pa r.op
      let live := s.performed.filter fun x => s.time < x.2.2 + 2 ^ s.tmoexp
      { s with performed := live ++ [(r.src, r.tag, s.time)] }.send
        (.reply r.src r.tag a (s.congThresh ≤ Config.choice 6 s.turn))

/-! ### Ports and routes (R327, R329, R332, R336, R337) -/

/-- Device d is failed. -/
def State.routeDown (s : State) (d : Nat) : State := (s.failDevice d).settleFabric

/-- Device d is admitted again, with no line held; its rate starts anew (R336, R338). A route without an UP port stays
DOWN. -/
def State.routeUp (s : State) (d : Nat) : State :=
  if s.routed d then (s.setRoute d { s.route d with down := false }).setRate d .reset else s

/-- Sends the requests in flight on a port again on another; the clock of R333 goes on (R332). -/
def State.resend (s : State) (n : Nat) : State :=
  s.requests.foldl (fun s (r : Request) =>
    if r.port == n && s.reachable r.target then
      let r' := { r with port := s.portFor r.pa }
      { s with requests := s.requests.map fun (q : Request) => if q.tag == r.tag then r' else q }.send (.request r')
    else s) s

/-- A port leaves UP with its requests sent again. -/
def State.dropPort (s : State) (n : Nat) (st : PortState) (retire : Bool) : State :=
  let t := (s.setPort n { s.port n with state := st, retire := retire }).resend n
  (State.checkRoutes s t).settleFabric

def execPortFailure (n : Nat) (s : State) : Out :=
  happen (.portFailure n) s fun s =>
    if (s.port n).state != .up then s else s.dropPort n .down (s.port n).retire

/-- PORT_TRAINED: a port becomes UP, with the CAPS that devices reported (R327, Table 16-2). -/
def execPortTrained (n : Nat) (caps : List (Nat × BitVec 16)) (s : State) : Out :=
  happen (.portTrained n caps) s fun s =>
    let p := s.port n
    if !s.domValid || s.boot != .service || p.retire || !(p.state == .down || p.state == .training) then s
    else
      let s := s.setPort n { p with state := .up }
      caps.foldl (fun s (d, x) => if d < 1024 then s.setRoute d { s.route d with caps := x } else s) s

/-- PORT_RETIRE: no new request leaves on the port; it is RETIRED once none is in flight (R337). -/
def State.retirePort (s : State) (n : Nat) : State :=
  if (s.port n).retire then s else (s.setPort n { s.port n with retire := true }).settleFabric

/-- PORT_RETRAIN: a port whose RETIRE was set trains again. -/
def State.retrainPort (s : State) (n : Nat) : State :=
  if (s.port n).retire then s.dropPort n (if s.domValid then .training else .down) false else s

def execPortRetire (n : Nat) (s : State) : Out := reachBar (.portRetire n) s fun s => s.retirePort n

def execPortRetrain (n : Nat) (s : State) : Out := reachBar (.portRetrain n) s fun s => s.retrainPort n

def execRouteDownSet (d : Nat) (s : State) : Out :=
  reachBar (.routeDownSet d) s fun s => if (s.route d).down then s else s.routeDown d

def execRouteDownClear (d : Nat) (s : State) : Out :=
  reachBar (.routeDownClear d) s fun s => if (s.route d).down then s.routeUp d else s

/-- Ports that are DOWN begin to train (R327, 21 R386). -/
def State.trainPorts (s : State) : State :=
  if !s.domValid || s.boot != .service then s
  else
    (List.range 16).foldl (fun s n =>
      let p := s.port n
      if p.state == .down && !p.retire then s.setPort n { p with state := .training } else s) s

/-- DOMID: ID only while no port is UP. Without a valid one the stacked cache gives up its clean peer lines. -/
def execDomidWrite (v : Word) (s : State) : Out :=
  reachBar (.domidWrite v) s fun s =>
    let up := (List.range 16).any fun n => (s.port n).state == .up
    let s := if v.getLsbD 16 then s else s.dropPeers
    { s with domValid := v.getLsbD 16, domId := if up then s.domId else (v.extractLsb' 0 10).toNat }.trainPorts.settleFabric

/-! ### The time base (R339, R340) -/

/-- A message of the master on every UP port. -/
def State.sendTime (s : State) : State :=
  (List.range 16).foldl (fun s n => if (s.port n).state == .up then s.send (.time n s.time) else s) { s with synced := s.time }

/-- The master stands at a multiple of 2^16 ns, at which it has sent no message yet. -/
def State.timeDue (s : State) : Bool := s.tsmaster && s.time % 65536 == 0 && s.synced != s.time

/-- TIME_MESSAGE_SEND: the master, every 2^16 ns. One that is still due when time goes on comes by itself. -/
def execTimeMessageSend (s : State) : Out := happen .timeMessageSend s fun s => if s.timeDue then s.sendTime else s

/-- The master's messages from now on to a time before which all of them come. -/
def State.timesUntil (s : State) (t : Nat) : State :=
  let from_ := (s.time + 65535) / 65536
  (List.range ((t + 65535) / 65536 - from_)).foldl (fun s i =>
    let s : State := { s with time := 65536 * (from_ + i) }
    if s.timeDue then s.sendTime else s) s

/-- Within 8 ns. -/
def near (x : Int) : Bool := -8 ≤ x && x ≤ 8

/-- TIME_MESSAGE_RECEIVE: the master's count `t`, the delay of the hops allowed for, from device `id`, on the lowest UP
port that leads there. A second master with the lower ID keeps the role. The first alignment may step the clock forward;
what else is left is gained or lost as time passes; TSYNC says whether that is within 8 ns (R340). -/
def execTimeMessageReceive (port id t : Nat) (s : State) : Out :=
  happen (.timeMessageReceive port id t) s fun s =>
    if (s.upPorts id).head? != some port then s
    else if s.tsmaster && s.domId ≤ id then s
    else
      let now := if s.tsfirst then s.time else max s.time t
      let off : Int := (t : Int) - now
      { s with tsmaster := false, tsfrom := id, tsfirst := true, time := now, slew := off,
               tsync := near off }

/-- The clock after `dt` ns: they count, and of what it has to gain or lose 1 count in 2^14 (R340). -/
def State.clockAfter (s : State) (dt : Nat) : State :=
  let k := min s.slew.natAbs ((s.ran + dt) / 16384)
  let left : Int := if s.slew < 0 then s.slew + k else s.slew - k
  { s with time := if s.slew < 0 then s.time + dt - k else s.time + dt + k, slew := left, ran := (s.ran + dt) % 16384,
           tsync := s.tsync || (s.slew != 0 && near left) }

end Sys2Proof.Machine
end

