-- ==== Sys2Proof/Machine/Sha3.lean ====
section
/-! DEFINITION. SHA3-256, which 21 R387 names for the digest of a firmware body: Keccak-f[1600] with a rate of 136 bytes
(log 57). -/

namespace Sys2Proof.Machine

open Sys2Proof

/-- The round constants of Keccak-f[1600]. -/
def keccakConstants : List Word :=
  [0x0000000000000001, 0x0000000000008082, 0x800000000000808A, 0x8000000080008000, 0x000000000000808B,
   0x0000000080000001, 0x8000000080008081, 0x8000000000008009, 0x000000000000008A, 0x0000000000000088,
   0x0000000080008009, 0x000000008000000A] ++
  [0x000000008000808B, 0x800000000000008B, 0x8000000000008089, 0x8000000000008003, 0x8000000000008002,
   0x8000000000000080, 0x000000000000800A, 0x800000008000000A, 0x8000000080008081, 0x8000000000008080,
   0x0000000080000001, 0x8000000080008008]

/-- The rotation of each lane; lane (x, y) stands at x + 5y. -/
def keccakRotations : List Nat :=
  [0, 1, 62, 28, 27, 36, 44, 6, 55, 20, 3, 10, 43, 25, 39, 41, 45, 15, 21, 8, 18, 2, 61, 56, 14]

/-- Theta: each lane takes the parities of two columns. -/
def keccakTheta (a : List Word) : List Word :=
  let c := (List.range 5).map fun x => (List.range 5).foldl (fun w y => w ^^^ a.getD (x + 5 * y) 0) 0
  let d := (List.range 5).map fun x => c.getD ((x + 4) % 5) 0 ^^^ (c.getD ((x + 1) % 5) 0).rotateLeft 1
  a.zipIdx.map fun (w, i) => w ^^^ d.getD (i % 5) 0

/-- Rho and pi: each lane is rotated and moved. -/
def keccakMove (a : List Word) : List Word :=
  let r := (a.zip keccakRotations).map fun (w, n) => w.rotateLeft n
  (List.range 25).map fun i => r.getD ((i % 5 + 3 * (i / 5)) % 5 + 5 * (i % 5)) 0

/-- Chi: each lane takes two others of its row. -/
def keccakChi (b : List Word) : List Word :=
  b.zipIdx.map fun (w, i) =>
    w ^^^ (~~~(b.getD ((i + 1) % 5 + 5 * (i / 5)) 0) &&& b.getD ((i + 2) % 5 + 5 * (i / 5)) 0)

/-- A round; iota adds its constant. -/
def keccakRound (a : List Word) (k : Word) : List Word :=
  let b := keccakChi (keccakMove (keccakTheta a))
  b.set 0 (b.headD 0 ^^^ k)

/-- The permutation. -/
def keccakF (a : List Word) : List Word := keccakConstants.foldl keccakRound a

/-- Bytes of a block. -/
def sha3Rate : Nat := 136

/-- A message with the padding of SHA-3, a whole number of blocks. -/
def sha3Pad (m : List Byte) : List Byte :=
  let n := sha3Rate - m.length % sha3Rate
  if n = 1 then m ++ [0x86] else m ++ [0x06] ++ List.replicate (n - 2) 0 ++ [0x80]

/-- Takes in a block. -/
def sha3Block (a : List Word) (bs : List Byte) : List Word :=
  keccakF (a.zipIdx.map fun (w, i) => w ^^^ BitVec.ofNat 64 (leNat ((bs.drop (8 * i)).take 8)))

/-- Takes in a number of blocks. -/
def sha3Absorb : Nat → List Word → List Byte → List Word
  | 0, a, _ => a
  | k + 1, a, bs => sha3Absorb k (sha3Block a (bs.take sha3Rate)) (bs.drop sha3Rate)

/-- SHA3-256. -/
def sha3 (m : List Byte) : List Byte :=
  let p := sha3Pad m
  ((sha3Absorb (p.length / sha3Rate) (List.replicate 25 0) p).take 4).flatMap fun w => leBytes 8 w.toNat

end Sys2Proof.Machine
end

