-- ==== Sys2Proof/Machine/Strings.lean ====
section
/-! DEFINITION. Strings, hashes and partitions (20 R371 to R383). -/

namespace Sys2Proof.Machine

open Sys2Proof Forms

/-! ### References and hashes -/

/-- The address and length of a reference (R371). -/
def refAddr (r : Word) : Nat := (r.extractLsb' 0 48).toNat
def refLen (r : Word) : Nat := (r.extractLsb' 48 16).toNat

/-- Table 20-3. -/
def hashK1 : Word := 0x9E3779B97F4A7C15
def hashK2 : Word := 0xA0B428DB3C65E6F1
def hashK3 : Word := 0x8E51D7C326F19B4B

/-- Mix (R377). -/
def hashMix (x : Word) : Word :=
  let x := (x ^^^ (x >>> 32)) * hashK2
  let x := (x ^^^ (x >>> 29)) * hashK3
  x ^^^ (x >>> 32)

/-- Chunk (R377). -/
def hashChunk (h w : Word) : Word :=
  let h := (h ^^^ w) * hashK2
  h ^^^ (h >>> 31)

/-- The chunks of the bytes of a string and the tail rule (R377), on fuel: the count of bytes. -/
def hashBytes : Nat → Word → List Byte → Word
  | 0, h, _ => h
  | k + 1, h, bs =>
    if bs.length < 8 then
      if bs.isEmpty then h
      else hashChunk h (BitVec.ofNat 64 (leNat bs) ||| BitVec.ofNat 64 bs.length <<< 56)
    else hashBytes k (hashChunk h (BitVec.ofNat 64 (leNat (bs.take 8)))) (bs.drop 8)

/-- StrHash (R377). -/
def strHash (seed : Word) (bs : List Byte) : Word :=
  hashMix (hashBytes (bs.length + 1) (seed ^^^ (BitVec.ofNat 64 bs.length * hashK1)) bs)

/-- IntHash (R377). -/
def intHash (seed x : Word) : Word := hashMix ((x * hashK1) ^^^ seed)

/-- The comparison of R378: -1, 0 or 1. -/
def strCompare : List Byte → List Byte → BitVec 32
  | [], [] => 0
  | [], _ :: _ => 0xFFFFFFFF
  | _ :: _, [] => 1
  | a :: as, b :: bs => if a.toNat < b.toNat then 0xFFFFFFFF else if b.toNat < a.toNat then 1 else strCompare as bs

/-- `str.find` (R381). -/
def strFind (bs : List Byte) (c : Byte) : BitVec 32 :=
  match bs.findIdx? (· == c) with
  | some i => BitVec.ofNat 32 i
  | none => 0xFFFFFFFF

/-- `str.pfx` (R382): the first bytes, the first one highest. -/
def strKey (bs : List Byte) : Word :=
  (bs.take 8).zipIdx.foldl (fun x (b, i) => x ||| b.setWidth 64 <<< (56 - 8 * i)) 0

/-! ### Reading (R373 to R375) -/

/-- A string's bytes as pieces that lie each in one 16-byte block, on fuel. -/
def strPieces : Nat → Nat → Nat → List (Nat × Nat)
  | 0, _, _ => []
  | k + 1, a, n =>
    if n = 0 then []
    else
      let m := min n (16 - a % 16)
      (a, m) :: strPieces k (a + m) (n - m)

/-- The pieces of a lane's read set, in reading order. -/
def readSet (rs : List (Nat × Nat)) : List (Nat × Nat) := rs.flatMap fun (a, n) => strPieces (n + 1) a n

/-- Goes through the pieces in order with a check of each; the first refused byte decides (R374). -/
def State.strWalk (f : State → Agent → Word → State × Res Where) (s : State) :
    List (Nat × Nat) → State × Word × Res (List Where)
  | [] => (s, 0, .ok [])
  | (a, _) :: ps =>
    let va := BitVec.ofNat 64 a
    match f s (s.agent s.cur.core s.cur.gslot s.cur.slot) va with
    | (s, .ok w) =>
      let (s, b, r) := State.strWalk f s ps
      (s, b, r.bind fun ws => .ok (w :: ws))
    | (s, r) => (s, va, r.bind fun _ => .ok [])

/-- The walk and the checks of every byte, with no change of a leaf. -/
def State.strCheck (s : State) (ps : List (Nat × Nat)) : State × Word × Res (List Where) :=
  State.strWalk (fun s a va => s.probe a va .read) s ps

/-- The same with A set in the leaves, once no check and no watch refuses the lane. -/
def State.strPlaces (s : State) (ps : List (Nat × Nat)) : State × Word × Res (List Where) :=
  State.strWalk (fun s a va => s.translate a va .read) s ps

/-- The first byte of the set that a read watch touches (R374). -/
def State.strWatch (s : State) (ps : List (Nat × Nat)) : Option Nat :=
  ps.findSome? fun (a, n) => (List.range n).findSome? fun i =>
    if s.watched s.cur.core s.me.asid s.myTeam.tid (a + i) 1 .read then some (a + i) else none

/-- Reads the pieces; the address is that of the first byte that is refused. -/
def State.strLoad (s : State) : List (Nat × Where × Nat) → State × Word × Res (List Byte)
  | [] => (s, 0, .ok [])
  | (a, w, n) :: ps =>
    match s.loadSpot (.mem w) n with
    | (s, .ok v) =>
      let (s, b, r) := State.strLoad s ps
      (s, b, r.bind fun bs => .ok (valueBytes n v ++ bs))
    | (s, r) => (s, BitVec.ofNat 64 a, r.bind fun _ => .ok [])

/-- The word that a lane of the issuing slot has read already at an address (R375). -/
def Slot.readAt (x : Slot) (l a : Nat) : Option Word :=
  x.read.findSome? fun (l', va, w) => if l' == l && va.toNat == a then some w else none

/-- A lane's bytes, those of words that it has read in earlier turns as they were then (R375). -/
def Slot.overRead (x : Slot) (l : Nat) (as : List Nat) (bs : List Byte) : List Byte :=
  (bs.zip as).map fun (b, a) =>
    match x.readAt l (a / 8 * 8) with
    | some w => w.extractLsb' (8 * (a % 8)) 8
    | none => b

/-- The addresses of a read set, in reading order. -/
def setAddrs (rs : List (Nat × Nat)) : List Nat := rs.flatMap fun (a, n) => (List.range n).map (a + ·)

/-- A lane's read set: its bytes, or its cause and address, or a wait. -/
def State.strLane (s : State) (rs : List (Nat × Nat)) : State × Word × Res (List Byte) :=
  let ps := readSet rs
  match s.strCheck ps with
  | (s, _, .ok _) =>
    match s.strWatch ps with
    | some a => (s, BitVec.ofNat 64 a, .no Cause.watchpoint)
    | none =>
      match s.strPlaces ps with
      | (s, _, .ok ws) => s.strLoad ((ps.zip ws).map fun x => (x.1.1, x.2, x.1.2))
      | (s, va, r) => (s, va, r.bind fun _ => .ok [])
  | (s, va, r) => (s, va, r.bind fun _ => .ok [])

/-- A byte of a lane's set lies in a peer window, so that its read may be refused late (R45). -/
def State.strFar (s : State) (rs : List (Nat × Nat)) : Bool :=
  match (s.strCheck (readSet rs)).2.2 with
  | .ok ws => ws.any fun w => isPeer w.pa
  | _ => false

def State.strLanes (s : State) (sets : Nat → List (Nat × Nat)) :
    List Nat → State × List (Nat × Word × Res (List Byte))
  | [] => (s, [])
  | l :: ls =>
    let (s, va, r) := s.strLane (sets l)
    let (s, rs) := State.strLanes s sets ls
    (s, (l, va, r) :: rs)

def State.strAsk (s : State) (rs : List (Nat × Word × Res (List Byte))) : State × Bool :=
  rs.foldl (fun (s, w) r =>
    match r.2.2 with
    | .need want op => (s.askSlot s.cur.core s.cur.gslot s.cur.slot want op, true)
    | _ => (s, w)) (s, false)

/-- The read set of one whole string. -/
def whole (r : Word) : List (Nat × Nat) := [(refAddr r, refLen r)]

/-- The read set of a lane (Table 20-2). -/
def strSet (i : Instr) (g : Group) (l : Nat) : List (Nat × Nat) :=
  match i with
  | .strCmp o => whole (g.src64 l o.a) ++ whole (g.src64 l o.b)
  | .strEq o =>
    if refLen (g.src64 l o.a) = refLen (g.src64 l o.b) then whole (g.src64 l o.a) ++ whole (g.src64 l o.b) else []
  | .strHash o | .strFind o => whole (g.src64 l o.a)
  | .strPfx o => [(refAddr (g.src64 l o.a), min (refLen (g.src64 l o.a)) 8)]
  | _ => []

/-- An instruction that reads strings. -/
def readsStrings : Instr → Option Guard
  | .strCmp o | .strHash o | .strFind o | .strPfx o => some o.g
  | .strEq o => some o.g
  | _ => none

/-- A lane of the issuing slot, which is inside a string instruction, reads one word of its set: where no byte of the set is
refused or watched (R374), and the word is at hand (R375). -/
def State.readWord (s : State) (i : Instr) (l : Nat) (va : Word) : State :=
  let ps := readSet (strSet i s.me l)
  let touched := (setAddrs (strSet i s.me l)).find? fun a => a / 8 * 8 == va.toNat
  match touched, (s.strCheck ps).2.2, s.strWatch ps with
  | some a, .ok _, none =>
    match s.translate (s.agent s.cur.core s.cur.gslot s.cur.slot) (BitVec.ofNat 64 a) .read with
    | (s, .ok w) =>
      match s.loadSpot (.mem { w with pa := w.pa / 8 * 8 }) 8 with
      | (s, .ok v) => s.onMySlot fun x => { x with read := x.read ++ [(l, va, v.setWidth 64)] }
      | (s, .need w op) => s.askSlot s.cur.core s.cur.gslot s.cur.slot w op
      | (s, _) => s
    | (s, .need w op) => s.askSlot s.cur.core s.cur.gslot s.cur.slot w op
    | (s, _) => s
  | _, _, _ => s

/-- A string instruction: `f` acts on the bytes of the lanes that pass. -/
def strOp (i : Instr) (gd : Guard) (f : Group → List (Nat × List Byte) → Group → Group) (s : State) : Out :=
  issue i gd s fun act =>
    let g := s.me
    let (s, rs) := s.strLanes (strSet i g) (lanes act)
    let (s, waits) := s.strAsk rs
    if waits then s.reissueRead
    else
      let bad := rs.filterMap fun r => match r.2.2 with | .no c => some ⟨r.1, c, r.2.1⟩ | _ => none
      let x := s.mySlot
      let ok := rs.filterMap fun r => match r.2.2 with
        | .ok bs => some (r.1, x.overRead r.1 (setAddrs (strSet i g r.1)) bs)
        | _ => none
      s.step1 i bad .read ((lanes act).any fun l => s.strFar (strSet i g l)) fun s => s.onMe (f g ok)

def execStrCmp (o : Alu Unit) (s : State) : Out :=
  strOp (.strCmp o) o.g
    (fun g rs x => x.putAll o.d 32 (rs.map fun (l, bs) =>
      let n := refLen (g.src64 l o.a)
      (l, (strCompare (bs.take n) (bs.drop n)).setWidth 128))) s

def execStrEq (o : BitOp Unit) (s : State) : Out :=
  strOp (.strEq o) o.g
    (fun g rs x => rs.foldl (fun x (l, bs) =>
      let n := refLen (g.src64 l o.a)
      x.putBit o.reg.toNat o.bit.toNat l (n == refLen (g.src64 l o.b) && bs.take n == bs.drop n)) x) s

def execStrHash (o : Alu Unit) (s : State) : Out :=
  strOp (.strHash o) o.g
    (fun g rs x => x.putAll o.d 64 (rs.map fun (l, bs) => (l, (strHash (g.src64 l o.b) bs).setWidth 128))) s

def execStrFind (o : Alu Unit) (s : State) : Out :=
  strOp (.strFind o) o.g
    (fun g rs x => x.putAll o.d 32 (rs.map fun (l, bs) =>
      (l, (strFind bs ((g.src l 32 0 o.b).setWidth 8)).setWidth 128))) s

def execStrPfx (o : Alu Unit) (s : State) : Out :=
  strOp (.strPfx o) o.g
    (fun _ rs x => x.putAll o.d 64 (rs.map fun (l, bs) => (l, (strKey bs).setWidth 128))) s

def execHashI64 (o : Alu Unit) (s : State) : Out :=
  alu (.hashI64 o) o.g o.d 64 (fun g l => (intHash (g.src64 l o.b) (g.src64 l o.a)).setWidth 128) s

/-- `part.idx` (R383). -/
def execPartIdx (o : Alu Unit) (s : State) : Out :=
  issue (.partIdx o) o.g s fun act =>
    let g := s.me
    let p := fun (l : Nat) => ((g.src l 32 0 o.b).setWidth 32 : BitVec 32).toNat
    let bad := maskOf ((lanes act).filter fun l => 32 < p l)
    s.step1 (.partIdx o) (everyLane bad Cause.resource 0) .none false fun s =>
      s.onMe fun x => x.perLane o.d 32 (act &&& ~~~bad) fun l =>
        if p l = 0 then 0 else ((g.src64 l o.a) >>> (64 - p l)).setWidth 128

end Sys2Proof.Machine
end

