-- ==== Sys2Proof/Machine/Management.lean ====
section
/-! DEFINITION. Bring-up, firmware, service of cores and frames, heat and power (21 R386 to R395). -/

namespace Sys2Proof.Machine

open Sys2Proof

/-! ### Firmware images (R387, Table 21-2) -/

/-- The length of a header with its signature. -/
def headerBytes : Nat := 0x40 + 3309

/-- A field of an image's header. -/
def imageField (img : List Byte) (off n : Nat) : Nat := leNat ((img.drop off).take n)

def imageVersion (img : List Byte) : Nat := imageField img 8 4
def imageFloor (img : List Byte) : Nat := imageField img 0xC 4
def imageSize (img : List Byte) : Nat := imageField img 0x10 8
def imageDigest (img : List Byte) : List Byte := (img.drop 0x18).take 32

/-- The device accepts an image of a kind (R387). That the body follows the signature is read from the table's order
(log 11). Nonzero bytes where Table 21-2 says Zero, at 0x006 and 0x038, have no effect: R387 does not list them (log 43). -/
def accepts (kind least : Nat) (img : List Byte) : Bool :=
  imageField img 0 4 == 0x51544657 && imageField img 4 2 == kind && least ≤ imageVersion img
    && headerBytes + imageSize img ≤ img.length
    && sha3 ((img.drop headerBytes).take (imageSize img)) == imageDigest img
    && Config.signatureValid ((img.drop 0x40).take 3309) (img.take 0x40)

/-- The management image that the boot ROM runs: the valid one with the higher VERSION, A where they are equal. -/
def bootImage (m : Images) : Option Bool :=
  let a := accepts 1 m.minManagement m.slotA
  let b := accepts 1 m.minManagement m.slotB
  if a && b then some (imageVersion m.slotB ≤ imageVersion m.slotA)
  else if a then some true else if b then some false else none

/-- The minimum for management images after one is accepted. -/
def Images.raise (m : Images) (img : List Byte) : Images := { m with minManagement := max m.minManagement (imageFloor img) }

/-- The minimum for supervisor images after one is accepted (Table 21-2). -/
def Images.accept (m : Images) (img : List Byte) : Images :=
  { m with supervisor := img, minSupervisor := max m.minSupervisor (imageFloor img) }

/-! ### The supervisor group (R116, R393) -/

/-- The supervisor group of a core as a loaded image starts it: where its firmware begins is not stated (log 5). -/
def supervisorGroup (turn : Nat) : Group :=
  { Group.none with
    live := true, privileged := true, pool := 256, team := Config.gslots,
    slot0 := Slot.empty.ready (BitVec.ofNat 64 (4 * Config.choice 8 turn)) allLanes turn }

/-- Loads a supervisor image into a core. -/
def State.loadSupervisor (s : State) (c : Nat) (img : List Byte) : State :=
  s.onCore c fun k =>
    { k.setGroup Config.supervisorSlot (supervisorGroup s.turn) with
      fwver := BitVec.ofNat 8 (imageVersion img), faulted := false }

/-! ### Bring-up (R386) -/

/-- LANDBASE of a core, which management firmware sets: not stated (07 R166; log 5). -/
def freeLandbase (turn c : Nat) : Word := BitVec.ofNat 64 (64 * Config.choice (200 + c) turn)

/-- POWER_ON: the steps of R386, each after the one before. -/
def execPowerOn (s : State) : Out :=
  happen .powerOn s fun s =>
    if s.boot != .off then s
    else
      match bootImage s.images with
      | none => { s with boot := .ioOnly }
      | some useA =>
        let m := s.images
        let m := { m with runningA := useA }.raise (if useA then m.slotA else m.slotB)
        let img := m.supervisor
        let ok := accepts 2 m.minSupervisor img
        let s := { s with carve := 0, boot := .service, images := if ok then m.accept img else m }
        let s := (List.range Config.cores).foldl (fun s c =>
          let s := s.onCore c fun k => { k with landbase := freeLandbase s.turn c }
          if ok then (s.loadSupervisor c img).onCore c fun k => { k with svc := .inService } else s) s
        s.trainPorts

/-- MODULE_POWER_REMOVED: what is on the device is lost; the images, the fused minimums and host memory stay (R386,
R389). -/
def execModulePowerRemoved (s : State) : Out :=
  happen .modulePowerRemoved s fun s =>
    { State.reset with
      images := s.images, mem := s.mem.keep fun pa _ => isHost pa, agenda := s.agenda, turn := s.turn, issued := s.issued,
      out := s.out }

/-- ATTESTATION_REQUEST: the digests in use, every core's FWVER and the nonce, signed (R387). -/
def execAttestationRequest (nonce : List Byte) (s : State) : Out :=
  reachBar (.attestationRequest nonce) s fun s =>
    if s.boot != .service then s
    else
      let running := if s.images.runningA then s.images.slotA else s.images.slotB
      let body := imageDigest running ++ imageDigest s.images.supervisor
        ++ ((List.range Config.cores).map fun c => (s.core c).fwver) ++ nonce
      s.send (.report (body ++ Config.attest body))

/-- MANAGEMENT_IMAGE_UPDATE: an accepted image goes to the slot that does not run (R387). -/
def execManagementImageUpdate (image : List Byte) (s : State) : Out :=
  reachBar (.managementImageUpdate image) s fun s =>
    if s.boot != .service || !accepts 1 s.images.minManagement image then s
    else
      let m := s.images.raise image
      { s with images := if m.runningA then { m with slotB := image } else { m with slotA := image } }

/-! ### CORESVC (R390 to R394) -/

/-- DRAIN: IN_SERVICE only; during a recalibration it waits for its end (R394). -/
def execCoresvcDrain (core : Nat) (s : State) : Out :=
  reachBar (.coresvcDrain core) s fun s =>
    let k := s.core core
    if k.svc != .inService then s
    else if k.recalBusy then s.setCore core { k with drainAfterRecal := true }
    else s.setCore core { k with svc := .draining }

/-- Every operation in a core's token table is final. -/
def Core.tokensFinal (k : Core) : Bool :=
  k.tokens.all fun e => match e.2.use with | .live op => op.state.final | _ => true

/-- CORE_DRAINED: no team, every operation final (R391, R392). -/
def execCoreDrained (core : Nat) (s : State) : Out :=
  happen (.coreDrained core) s fun s =>
    let k := s.core core
    if k.leaving && k.teams.isEmpty && k.tokensFinal then
      s.setCore core { k with svc := .drained, copies := k.copies.keep fun a _ => a == 0 }
    else s

/-- RESUME: DRAINED only, not since a trap of the supervisor without an accepted FWLOAD, and with no team left. -/
def execCoresvcResume (core : Nat) (s : State) : Out :=
  reachBar (.coresvcResume core) s fun s =>
    let k := s.core core
    if s.boot != .service || k.svc != .drained || k.faulted || !k.teams.isEmpty then s
    else s.setCore core { k with svc := .inService, stopped := false }

/-- The image staged at FWSTAGE. -/
def State.stagedImage (s : State) : List Byte :=
  let pa := s.fwstage.toNat
  s.deviceRead pa (headerBytes + imageSize (s.deviceRead pa 0x40))

/-- FWLOAD: DRAINED only; a refused image changes nothing (R393). -/
def execCoresvcFwload (core : Nat) (s : State) : Out :=
  reachBar (.coresvcFwload core) s fun s =>
    if s.boot != .service || (s.core core).svc != .drained || !accepts 2 s.images.minSupervisor s.stagedImage then s
    else { s with images := s.images.accept s.stagedImage }.loadSupervisor core s.stagedImage

/-- RECAL: IN_SERVICE only. The core's matrix operations park at their next quiescent points (R394). -/
def execCoresvcRecal (core : Nat) (s : State) : Out :=
  reachBar (.coresvcRecal core) s fun s =>
    if (s.core core).svc != .inService then s else s.onCore core fun k => { k with recalBusy := true }

/-- An operation that a recalibration has parked goes on, unless its team is being moved or dumped. -/
def State.endRecal (s : State) (c e : Nat) : State :=
  match s.op? c e with
  | none => s
  | some op =>
    if !op.recal || op.state != .parked then s
    else
      let t := (op.byTeam.map fun t => s.team c t).getD .none
      let s := s.setOp c e { op with recal := false }
      if t.moving || t.dumped then s
      else if op.cancel then s.cancelOp c e
      else s.setOp c e { op with recal := false, state := .running }

/-- A matrix operation of a core has not parked for a recalibration yet. -/
def State.recalRuns (s : State) (c : Nat) : Bool :=
  s.allOps.any fun (c', _, op) => c' == c && op.state == .running && s.recals c op

/-- RECAL_COMPLETE: once every matrix operation of the core has parked. -/
def execRecalComplete (core : Nat) (s : State) : Out :=
  happen (.recalComplete core) s fun s =>
    let k := s.core core
    if !k.recalBusy || s.recalRuns core then s
    else
      let s := s.setCore core { k with recalBusy := false }
      let s := (k.tokens.map (·.1)).foldl (fun s e => s.endRecal core e) s
      if k.drainAfterRecal then
        s.onCore core fun k =>
          { k with drainAfterRecal := false, svc := if k.svc == .inService then .draining else k.svc }
      else s

/-! ### Heat (R389) -/

/-- THERMAL_TRIP: no core issues any more, and management is told. -/
def execThermalTrip (s : State) : Out :=
  happen .thermalTrip s fun s => { s with tripped := true }.send (.management 2 0)

/-! ### HBM frames (R395) -/

def hbmFrames : Nat := hbmEnd / 4096

def State.retireFrame (s : State) (f : Nat) : State :=
  if hbmFrames ≤ f || s.retiredFrames.contains f then s else { s with retiredFrames := s.retiredFrames ++ [f] }

def execHbmretRetire (frame : Nat) (s : State) : Out := reachBar (.hbmretRetire frame) s fun s => s.retireFrame frame

/-- Re-admission zero-fills the frame. -/
def execHbmretReadmit (frame : Nat) (s : State) : Out :=
  reachBar (.hbmretReadmit frame) s fun s =>
    if !s.retiredFrames.contains frame then s
    else { s with retiredFrames := s.retiredFrames.filter (· != frame) }.zeroFrame (4096 * frame)

/-- The instruction at an address of a group's code, where its bytes can be had. -/
def State.peekInstr (s : State) (c g : Nat) (pc : Word) : Option Instr :=
  match s.codeAt c g pc with
  | .ok bs => (decode bs).toOption
  | _ => none

/-- The guard of an instruction that reads global memory, and the addresses that a lane of it reads. -/
def readsOf (x : Group) : Instr → Option (Guard × (Nat → List Word))
  | .ld o | .ldf o | .ldfk o => if o.sp == .g then some (o.g, fun l => [x.ea .g l o.a o.x]) else none
  | .atom o => if o.sp == .g then some (o.g, fun l => [x.ea .g l o.a o.x]) else none
  | .strCmp o => some (o.g, fun l => pieces (.strCmp o) l)
  | .strHash o => some (o.g, fun l => pieces (.strHash o) l)
  | .strFind o => some (o.g, fun l => pieces (.strFind o) l)
  | .strPfx o => some (o.g, fun l => pieces (.strPfx o) l)
  | .strEq o => some (o.g, fun l => pieces (.strEq o) l)
  | .sigret g => some (g, fun l => (framePieces (x.stk l)).map (·.1))
  | .launch g _ t r => some (g, fun l =>
      (List.range 16).map (fun k => x.sreg t.toNat + BitVec.ofNat 64 (8 * k)) ++ [(x.vwide r.toNat l 64).setWidth 64])
  | _ => none
where
  pieces (i : Instr) (l : Nat) : List Word := (readSet (strSet i x l)).map fun p => BitVec.ofNat 64 p.1

/-- The address at which a lane meets the error in the line of a physical address. -/
def State.meets (s : State) (c g n pa : Nat) (as : List Word) : Option Word :=
  as.find? fun va =>
    match (s.probe (s.agent c g n) va .read).2 with
    | .ok w => w.pa / 128 == pa / 128
    | _ => false

/-- The lanes of a slot whose read meets the error: active lanes of its instruction, if it reads global memory there. -/
def State.errorLanes (s : State) (c g n pa : Nat) (ls : Mask) : List LaneTrap :=
  let x := s.group c g
  let y := x.slot n
  if !x.live || (y.state != .ready && !(y.state == .blocked && y.wait.kind == .reissue)) then []
  else
    match (s.peekInstr c g y.pc).bind (readsOf x) with
    | some (gd, reads) => (lanes (ls &&& x.active y.mask gd)).filterMap fun l =>
        (s.meets c g n pa (reads l)).map fun a => ⟨l, Cause.permission, a⟩
    | none => []

/-- HBM_UNCORRECTABLE_ERROR: the frame is retired, management is told, and the lanes whose read met the error park with
nothing written; the slot's other lanes stay at the instruction. -/
def execHbmUncorrectableError (pa core gslot slot : Nat) (ls : Mask) (s : State) : Out :=
  happen (.hbmUncorrectableError pa core gslot slot ls) s fun s =>
    if hbmEnd ≤ pa then s
    else
      let bad := s.errorLanes core gslot slot pa ls
      let s := (s.retireFrame (pa / 4096)).send (.management 3 (pa / 4096))
      if bad.isEmpty then s
      else
        let keep := s.cur
        let s := { s with cur := ⟨core, gslot, slot⟩ }
        let x := s.mySlot
        let rest := x.mask &&& ~~~(trapMask bad)
        let parts : List Slot := if rest == 0 then [] else [{ x with mask := rest }]
        { s.finish { parts := parts, parked := bad, acc := .read, retired := false } id with cur := keep }

end Sys2Proof.Machine
end

