-- ==== Sys2Proof/Machine/Registers.lean ====
section
/-! DEFINITION. Writes of registers that have no row of their own: every RW field of the BAR pages (00 R7, 07 R144, R165,
08 R171, 16 R327, 18 R346, 21 R390). Offsets outside the tables are ignored. -/

namespace Sys2Proof.Machine

open Sys2Proof

/-! ### Queues (Table 7-1) -/

/-- QBASE and QCFG only while the queue is DISABLED (R145). -/
def Queue.write (q : Queue) (off : Nat) (v : Word) : Queue :=
  let idle := q.state == .disabled
  match off with
  | 0x000 => if idle then { q with base := v &&& ~~~0xFFF } else q
  | 0x008 => if idle then { q with cfg := v &&& 0x1FFFFF } else q
  | 0x020 => { q with vec := v &&& 0x7FF }
  | _ => q

/-! ### The control page of a context (Table 7-10) -/

/-- CHUNK: 1 to 4,096. -/
def chunkWrite (v : Word) : Nat := min 4096 (max 1 (v.extractLsb' 0 13).toNat)

def Ctx.write (x : Ctx) (off : Nat) (v : Word) : Ctx :=
  match off with
  | 0x008 => { x with swapl := v }
  | 0x028 => { x with chunk := chunkWrite v }
  | 0x040 => { x with depidx := (v.extractLsb' 0 12).toNat }
  | _ => x

/-! ### The debug page (Table 8-1) -/

/-- The debug page. A log2 field of TRCFG, CTRCFG or DRAINCFG outside the range that Table 8-1 lists is kept and used as it
is written (log 21). -/
def Debug.write (d : Debug) (off : Nat) (v : Word) : Debug :=
  match off with
  | 0x000 => { d with attach := v &&& 1 }
  | 0x008 => { d with stopt := v &&& 0x1FFFFFFFF }
  | 0x010 => { d with stopph := v &&& 0x1FFFFFFFF }
  | 0x018 => { d with phcbase := v &&& ~~~3 }
  | 0x020 => { d with phcn := v &&& 0xFFFFFFFF }
  | 0x028 => { d with trbase := v &&& ~~~0xFFF }
  | 0x030 => { d with trcfg := v &&& 0xF1F }
  | 0x040 => { d with trcons := v.extractLsb' 0 32 }
  | 0x048 => { d with dumpbase := v &&& ~~~0xFFF }
  | 0x050 => { d with dumpsize := v }
  | 0x068 => { d with ctrbase := v &&& ~~~0xFFF }
  | 0x070 => { d with ctrcfg := v &&& 0x11F }
  | 0x080 => { d with ctrcons := v.extractLsb' 0 32 }
  | 0x088 => { d with drainbase := v &&& ~~~0xFFF }
  | 0x090 => { d with draincfg := v &&& 0xFFFFFFFF011F }
  | 0x0A0 => { d with draincons := v.extractLsb' 0 32 }
  | _ => d

/-- TICK: 10 to 24 (R171). -/
def tickWrite (v : Word) : Nat := min 24 (max 10 (v.extractLsb' 0 5).toNat)

/-- A write to a debug page; offset 0 of the first page is TICK. -/
def State.debugWrite (s : State) (asid off : Nat) (v : Word) : State :=
  if asid = 0 && off = 0 then { s with tick := tickWrite v }
  else s.onCtx asid fun x => { x with dbg := x.dbg.write off v }

/-! ### The device region (Tables 16-1, 18-1, 21-3) -/

/-- FABCTL. A master's own time base is aligned (R340, by inference); a device that gives up the role is not aligned until
a message of the new master says so. -/
def State.fabctlWrite (s : State) (v : Word) : State :=
  let master := v.getLsbD 8
  { s with tsmaster := master, tsync := (s.tsync && !s.tsmaster) || master, slew := if master then 0 else s.slew,
           tmoexp := min 34 (max 16 (v.extractLsb' 0 6).toNat) }

/-- CONG. -/
def State.congWrite (s : State) (v : Word) : State :=
  { s with
    congInc := (v.extractLsb' 24 8).toNat, congDec := min 8 (max 1 (v.extractLsb' 20 4).toNat),
    congRmin := max 1 (v.extractLsb' 12 8).toNat, congThresh := (v.extractLsb' 0 12).toNat }

/-- PORTn: PLANE, and RETIRE with what its change does (R337). -/
def State.portWrite (s : State) (n : Nat) (v : Word) : State :=
  let s := s.setPort n { s.port n with plane := v.extractLsb' 4 4 }
  if v.getLsbD 8 then s.retirePort n else s.retrainPort n

/-- ROUTE[d]: PORTS, and DOWN with what its change does; the device sets DOWN where the write leaves no port in PORTS UP
(R336). -/
def State.routeWrite (s : State) (d : Nat) (v : Word) : State :=
  let t := (State.checkRoutes s (s.setRoute d { s.route d with ports := v.extractLsb' 0 16 })).settleFabric
  if v.getLsbD 16 || !t.routed d then (if (t.route d).down then t else t.routeDown d)
  else if (t.route d).down then t.routeUp d
  else t

/-- GSPTAB: only while no region is armed. -/
def State.gsptabWrite (s : State) (v : Word) : State :=
  if s.regions.any fun e => e.2.armed then s else { s with gspBase := (v &&& 0x000FFFFFFFFF0000).toNat }

def State.deviceRegWrite (s : State) (off : Nat) (v : Word) : State :=
  if off % 8 != 0 then s
  else if off = 0x108 then s.fabctlWrite v
  else if off = 0x110 then s.congWrite v
  else if 0x140 ≤ off && off < 0x1C0 then s.portWrite ((off - 0x140) / 8) v
  else if off = 0x300 then s.gsptabWrite v
  else if off = 0xA00 then { s with fwstage := v &&& ~~~0xFFF }
  else if 0x2000 ≤ off && off < 0x4000 then s.routeWrite ((off - 0x2000) / 8) v
  else s

/-- REGISTER_WRITE. -/
def execRegisterWrite (p : Page) (off : Nat) (v : Word) (s : State) : Out :=
  reachBar (.registerWrite p off v) s fun s =>
    match p with
    | .doorbell _ => s
    | .qctl q => if 1024 ≤ q then s else s.onQueue q fun x => x.write off v
    | .ctx a => if 65536 ≤ a then s else s.onCtx a fun x => x.write off v
    | .dbg a => if 65536 ≤ a then s else s.debugWrite a off v
    | .dev => s.deviceRegWrite off v

end Sys2Proof.Machine
end

