-- ==== Sys2Proof/Machine/Dispatch.lean ====
section
/-! DEFINITION. Which meaning each instruction has: one arm per constructor of `Instr`. -/

namespace Sys2Proof.Machine

open Sys2Proof

def exec (i : Instr) (s : State) : Host.Outcome State Fault Refusal :=
  match i with
  | .iadd o => Sys2Proof.Machine.execIadd o s
  | .isub o => Sys2Proof.Machine.execIsub o s
  | .imulLo o => Sys2Proof.Machine.execImulLo o s
  | .imulHi o => Sys2Proof.Machine.execImulHi o s
  | .imad o => Sys2Proof.Machine.execImad o s
  | .iabs o => Sys2Proof.Machine.execIabs o s
  | .ineg o => Sys2Proof.Machine.execIneg o s
  | .imin o => Sys2Proof.Machine.execImin o s
  | .imax o => Sys2Proof.Machine.execImax o s
  | .iand o => Sys2Proof.Machine.execIand o s
  | .ior o => Sys2Proof.Machine.execIor o s
  | .ixor o => Sys2Proof.Machine.execIxor o s
  | .inot o => Sys2Proof.Machine.execInot o s
  | .shl o => Sys2Proof.Machine.execShl o s
  | .shr o => Sys2Proof.Machine.execShr o s
  | .sra o => Sys2Proof.Machine.execSra o s
  | .rotl o => Sys2Proof.Machine.execRotl o s
  | .bfe o => Sys2Proof.Machine.execBfe o s
  | .bfi o => Sys2Proof.Machine.execBfi o s
  | .popc o => Sys2Proof.Machine.execPopc o s
  | .clz o => Sys2Proof.Machine.execClz o s
  | .ctz o => Sys2Proof.Machine.execCtz o s
  | .brev o => Sys2Proof.Machine.execBrev o s
  | .icmp o => Sys2Proof.Machine.execIcmp o s
  | .sel o => Sys2Proof.Machine.execSel o s
  | .mov o => Sys2Proof.Machine.execMov o s
  | .movi o => Sys2Proof.Machine.execMovi o s
  | .lea o => Sys2Proof.Machine.execLea o s
  | .fadd o => Sys2Proof.Machine.execFadd o s
  | .fsub o => Sys2Proof.Machine.execFsub o s
  | .fmul o => Sys2Proof.Machine.execFmul o s
  | .ffma o => Sys2Proof.Machine.execFfma o s
  | .fdiv o => Sys2Proof.Machine.execFdiv o s
  | .fsqrt o => Sys2Proof.Machine.execFsqrt o s
  | .frcp o => Sys2Proof.Machine.execFrcp o s
  | .frsqrt o => Sys2Proof.Machine.execFrsqrt o s
  | .fexp2 o => Sys2Proof.Machine.execFexp2 o s
  | .flog2 o => Sys2Proof.Machine.execFlog2 o s
  | .fmin o => Sys2Proof.Machine.execFmin o s
  | .fmax o => Sys2Proof.Machine.execFmax o s
  | .fabs o => Sys2Proof.Machine.execFabs o s
  | .fneg o => Sys2Proof.Machine.execFneg o s
  | .fcmp o => Sys2Proof.Machine.execFcmp o s
  | .fclass o => Sys2Proof.Machine.execFclass o s
  | .frnd o => Sys2Proof.Machine.execFrnd o s
  | .cvt o => Sys2Proof.Machine.execCvt o s
  | .cvtq o => Sys2Proof.Machine.execCvtq o s
  | .cvtx o => Sys2Proof.Machine.execCvtx o s
  | .hadm o => Sys2Proof.Machine.execHadm o s
  | .sclFind o => Sys2Proof.Machine.execSclFind o s
  | .bra o => Sys2Proof.Machine.execBra o s
  | .brx o => Sys2Proof.Machine.execBrx o s
  | .join g => Sys2Proof.Machine.execJoin g s
  | .call link o => Sys2Proof.Machine.execCall link o s
  | .callIndirect link t => Sys2Proof.Machine.execCallIndirect link t s
  | .ret t => Sys2Proof.Machine.execRet t s
  | .jmp o => Sys2Proof.Machine.execJmp o s
  | .jmpIndirect t => Sys2Proof.Machine.execJmpIndirect t s
  | .exit g => Sys2Proof.Machine.execExit g s
  | .yield g => Sys2Proof.Machine.execYield g s
  | .nop g => Sys2Proof.Machine.execNop g s
  | .vote o => Sys2Proof.Machine.execVote o s
  | .shfl o => Sys2Proof.Machine.execShfl o s
  | .elect g reg bit => Sys2Proof.Machine.execElect g reg bit s
  | .ld o => Sys2Proof.Machine.execLd o s
  | .st o => Sys2Proof.Machine.execSt o s
  | .ldf o => Sys2Proof.Machine.execLdf o s
  | .ldfk o => Sys2Proof.Machine.execLdfk o s
  | .ste o => Sys2Proof.Machine.execSte o s
  | .tagSet o => Sys2Proof.Machine.execTagSet o s
  | .tagSetTile o => Sys2Proof.Machine.execTagSetTile o s
  | .tagRd o => Sys2Proof.Machine.execTagRd o s
  | .atom o => Sys2Proof.Machine.execAtom o s
  | .red o => Sys2Proof.Machine.execRed o s
  | .pf o => Sys2Proof.Machine.execPf o s
  | .clnWb o => Sys2Proof.Machine.execClnWb o s
  | .clnInv o => Sys2Proof.Machine.execClnInv o s
  | .clnWbinv o => Sys2Proof.Machine.execClnWbinv o s
  | .phase g => Sys2Proof.Machine.execPhase g s
  | .phaseRel g => Sys2Proof.Machine.execPhaseRel g s
  | .phaseAcq g => Sys2Proof.Machine.execPhaseAcq g s
  | .drain g => Sys2Proof.Machine.execDrain g s
  | .barInit o => Sys2Proof.Machine.execBarInit o s
  | .barArr o => Sys2Proof.Machine.execBarArr o s
  | .barExp o => Sys2Proof.Machine.execBarExp o s
  | .barWait o => Sys2Proof.Machine.execBarWait o s
  | .barArrw o => Sys2Proof.Machine.execBarArrw o s
  | .tbar g => Sys2Proof.Machine.execTbar g s
  | .cpy o => Sys2Proof.Machine.execCpy o s
  | .cpyTile o => Sys2Proof.Machine.execCpyTile o s
  | .cpyGth o => Sys2Proof.Machine.execCpyGth o s
  | .cpySct o => Sys2Proof.Machine.execCpySct o s
  | .cpyRem o => Sys2Proof.Machine.execCpyRem o s
  | .cpyMcast o => Sys2Proof.Machine.execCpyMcast o s
  | .cpyRed o => Sys2Proof.Machine.execCpyRed o s
  | .sfeed o => Sys2Proof.Machine.execSfeed o s
  | .tokWait o => Sys2Proof.Machine.execTokWait o s
  | .tokTest o => Sys2Proof.Machine.execTokTest o s
  | .tokCancel o => Sys2Proof.Machine.execTokCancel o s
  | .tokDetach o => Sys2Proof.Machine.execTokDetach o s
  | .tokAdopt o => Sys2Proof.Machine.execTokAdopt o s
  | .tokPrio o => Sys2Proof.Machine.execTokPrio o s
  | .tokAfter o => Sys2Proof.Machine.execTokAfter o s
  | .tokResume o => Sys2Proof.Machine.execTokResume o s
  | .tokState o => Sys2Proof.Machine.execTokState o s
  | .mma o => Sys2Proof.Machine.execMma o s
  | .accZero o => Sys2Proof.Machine.execAccZero o s
  | .accRd o => Sys2Proof.Machine.execAccRd o s
  | .accWr o => Sys2Proof.Machine.execAccWr o s
  | .gspInj o => Sys2Proof.Machine.execGspInj o s
  | .gspRd o => Sys2Proof.Machine.execGspRd o s
  | .gspMass o => Sys2Proof.Machine.execGspMass o s
  | .gspStep o => Sys2Proof.Machine.execGspStep o s
  | .gspSpread o => Sys2Proof.Machine.execGspSpread o s
  | .strCmp o => Sys2Proof.Machine.execStrCmp o s
  | .strEq o => Sys2Proof.Machine.execStrEq o s
  | .strHash o => Sys2Proof.Machine.execStrHash o s
  | .strFind o => Sys2Proof.Machine.execStrFind o s
  | .strPfx o => Sys2Proof.Machine.execStrPfx o s
  | .hashI64 o => Sys2Proof.Machine.execHashI64 o s
  | .partIdx o => Sys2Proof.Machine.execPartIdx o s
  | .grow pool a x => Sys2Proof.Machine.execGrow pool a x s
  | .shrink pool a x => Sys2Proof.Machine.execShrink pool a x s
  | .launch g d tmpl recs => Sys2Proof.Machine.execLaunch g d tmpl recs s
  | .launchFlush g tmpl => Sys2Proof.Machine.execLaunchFlush g tmpl s
  | .depAdd g d ix b x => Sys2Proof.Machine.execDepAdd g d ix b x s
  | .depSub g d ix b x => Sys2Proof.Machine.execDepSub g d ix b x s
  | .rdsr g d r => Sys2Proof.Machine.execRdsr g d r s
  | .sys g a x => Sys2Proof.Machine.execSys g a x s
  | .trap g a x => Sys2Proof.Machine.execTrap g a x s
  | .sigret g => Sys2Proof.Machine.execSigret g s
  | .brk g a x => Sys2Proof.Machine.execBrk g a x s
  | .rdcr o => Sys2Proof.Machine.execRdcr o s
  | .wrcr o => Sys2Proof.Machine.execWrcr o s
  | .park o => Sys2Proof.Machine.execPark o s
  | .unpark o => Sys2Proof.Machine.execUnpark o s
  | .tlbi o => Sys2Proof.Machine.execTlbi o s
  | .ctxSave o => Sys2Proof.Machine.execCtxSave o s
  | .ctxLoad o => Sys2Proof.Machine.execCtxLoad o s
  | .teamOut o => Sys2Proof.Machine.execTeamOut o s
  | .teamIn o => Sys2Proof.Machine.execTeamIn o s
  | .halt o => Sys2Proof.Machine.execHalt o s
  | .haltRelease o => Sys2Proof.Machine.execHaltRelease o s
  | .trace g id v x => Sys2Proof.Machine.execTrace g id v x s
  | .mark g id x => Sys2Proof.Machine.execMark g id x s
  | .rdctr g lat d n x => Sys2Proof.Machine.execRdctr g lat d n x s
  | .reconvergenceCheck core gslot => Sys2Proof.Machine.execReconvergenceCheck core gslot s
  | .growGrant core pool => Sys2Proof.Machine.execGrowGrant core pool s
  | .zeroFillService core idx => Sys2Proof.Machine.execZeroFillService core idx s
  | .cowCopyService core idx => Sys2Proof.Machine.execCowCopyService core idx s
  | .hostMessagePost m => Sys2Proof.Machine.execHostMessagePost m s
  | .resolveRetry core idx => Sys2Proof.Machine.execResolveRetry core idx s
  | .resolveSkip core idx => Sys2Proof.Machine.execResolveSkip core idx s
  | .resolveSignal core idx => Sys2Proof.Machine.execResolveSignal core idx s
  | .resolveStop core idx => Sys2Proof.Machine.execResolveStop core idx s
  | .resolveKill core idx => Sys2Proof.Machine.execResolveKill core idx s
  | .tokresolveResume asid core slot gen => Sys2Proof.Machine.execTokresolveResume asid core slot gen s
  | .tokresolveCancel asid core slot gen => Sys2Proof.Machine.execTokresolveCancel asid core slot gen s
  | .rotation core teamIx => Sys2Proof.Machine.execRotation core teamIx s
  | .teamSwapInDispatch asid slip core => Sys2Proof.Machine.execTeamSwapInDispatch asid slip core s
  | .watchdogExpiry asid => Sys2Proof.Machine.execWatchdogExpiry asid s
  | .accessAck core gslot => Sys2Proof.Machine.execAccessAck core gslot s
  | .teamEnd core teamIx => Sys2Proof.Machine.execTeamEnd core teamIx s
  | .tokenStart core slot => Sys2Proof.Machine.execTokenStart core slot s
  | .engineQuiescentPoint core slot => Sys2Proof.Machine.execEngineQuiescentPoint core slot s
  | .unitDelivered core slot => Sys2Proof.Machine.execUnitDelivered core slot s
  | .tokenFaultService core slot => Sys2Proof.Machine.execTokenFaultService core slot s
  | .slicePush core slot => Sys2Proof.Machine.execSlicePush core slot s
  | .kstepCommit core slot => Sys2Proof.Machine.execKstepCommit core slot s
  | .qctlEnable q => Sys2Proof.Machine.execQctlEnable q s
  | .qctlPause q => Sys2Proof.Machine.execQctlPause q s
  | .qctlResume q => Sys2Proof.Machine.execQctlResume q s
  | .qctlDisable q => Sys2Proof.Machine.execQctlDisable q s
  | .notify q => Sys2Proof.Machine.execNotify q s
  | .manifest q seq => Sys2Proof.Machine.execManifest q seq s
  | .waitSignal q seq => Sys2Proof.Machine.execWaitSignal q seq s
  | .waitSignalReread q seq => Sys2Proof.Machine.execWaitSignalReread q seq s
  | .writeSignal q seq => Sys2Proof.Machine.execWriteSignal q seq s
  | .copy q seq core => Sys2Proof.Machine.execCopy q seq core s
  | .packetRetire q seq => Sys2Proof.Machine.execPacketRetire q seq s
  | .dealChunk launch core => Sys2Proof.Machine.execDealChunk launch core s
  | .teamAdmit launch core stageCores => Sys2Proof.Machine.execTeamAdmit launch core stageCores s
  | .manifestWindowExpiry asid tmpl => Sys2Proof.Machine.execManifestWindowExpiry asid tmpl s
  | .resolve asid w => Sys2Proof.Machine.execResolve asid w s
  | .swapreqOut asid w => Sys2Proof.Machine.execSwapreqOut asid w s
  | .swapreqIn asid w any => Sys2Proof.Machine.execSwapreqIn asid w any s
  | .releaseTeams asid => Sys2Proof.Machine.execReleaseTeams asid s
  | .killTeams asid => Sys2Proof.Machine.execKillTeams asid s
  | .ctxctlCreate asid => Sys2Proof.Machine.execCtxctlCreate asid s
  | .ctxctlDestroy asid => Sys2Proof.Machine.execCtxctlDestroy asid s
  | .crwinWrite asid off v => Sys2Proof.Machine.execCrwinWrite asid off v s
  | .depvalWrite asid v => Sys2Proof.Machine.execDepvalWrite asid v s
  | .depownWrite v => Sys2Proof.Machine.execDepownWrite v s
  | .dumpreq asid => Sys2Proof.Machine.execDumpreq asid s
  | .sstepreq asid v => Sys2Proof.Machine.execSstepreq asid v s
  | .counterTick => Sys2Proof.Machine.execCounterTick s
  | .carveWrite v => Sys2Proof.Machine.execCarveWrite v s
  | .peerWriteback line => Sys2Proof.Machine.execPeerWriteback line s
  | .remoteResponse tag ans marked => Sys2Proof.Machine.execRemoteResponse tag ans marked s
  | .homeRequest r => Sys2Proof.Machine.execHomeRequest r s
  | .remoteTimeout tag => Sys2Proof.Machine.execRemoteTimeout tag s
  | .portFailure n => Sys2Proof.Machine.execPortFailure n s
  | .portTrained n caps => Sys2Proof.Machine.execPortTrained n caps s
  | .portRetire n => Sys2Proof.Machine.execPortRetire n s
  | .portRetrain n => Sys2Proof.Machine.execPortRetrain n s
  | .routeDownSet d => Sys2Proof.Machine.execRouteDownSet d s
  | .routeDownClear d => Sys2Proof.Machine.execRouteDownClear d s
  | .domidWrite v => Sys2Proof.Machine.execDomidWrite v s
  | .congestionInterval d => Sys2Proof.Machine.execCongestionInterval d s
  | .timeMessageSend => Sys2Proof.Machine.execTimeMessageSend s
  | .timeMessageReceive port id t => Sys2Proof.Machine.execTimeMessageReceive port id t s
  | .gsparmArm r => Sys2Proof.Machine.execGsparmArm r s
  | .gsparmDisarm r => Sys2Proof.Machine.execGsparmDisarm r s
  | .gspabandon d => Sys2Proof.Machine.execGspabandon d s
  | .gossipPeriod r => Sys2Proof.Machine.execGossipPeriod r s
  | .half h => Sys2Proof.Machine.execHalf h s
  | .halfAck r p n => Sys2Proof.Machine.execHalfAck r p n s
  | .halfNack r p n seqin => Sys2Proof.Machine.execHalfNack r p n seqin s
  | .halfRecalled r p n seqin => Sys2Proof.Machine.execHalfRecalled r p n seqin s
  | .recallSend r p n => Sys2Proof.Machine.execRecallSend r p n s
  | .recall r q vs n => Sys2Proof.Machine.execRecall r q vs n s
  | .hostHdmAccess a => Sys2Proof.Machine.execHostHdmAccess a s
  | .powerOn => Sys2Proof.Machine.execPowerOn s
  | .supervisorTrap core => Sys2Proof.Machine.execSupervisorTrap core s
  | .thermalTrip => Sys2Proof.Machine.execThermalTrip s
  | .hbmUncorrectableError pa core gslot slot lanes => Sys2Proof.Machine.execHbmUncorrectableError pa core gslot slot lanes s
  | .hbmretRetire frame => Sys2Proof.Machine.execHbmretRetire frame s
  | .hbmretReadmit frame => Sys2Proof.Machine.execHbmretReadmit frame s
  | .coresvcDrain core => Sys2Proof.Machine.execCoresvcDrain core s
  | .coreDrained core => Sys2Proof.Machine.execCoreDrained core s
  | .coresvcResume core => Sys2Proof.Machine.execCoresvcResume core s
  | .coresvcFwload core => Sys2Proof.Machine.execCoresvcFwload core s
  | .coresvcRecal core => Sys2Proof.Machine.execCoresvcRecal core s
  | .recalComplete core => Sys2Proof.Machine.execRecalComplete core s
  | .registerWrite p off v => Sys2Proof.Machine.execRegisterWrite p off v s
  | .cxlCacheSnoop line claim => Sys2Proof.Machine.execCxlCacheSnoop line claim s
  | .modulePowerRemoved => Sys2Proof.Machine.execModulePowerRemoved s
  | .attestationRequest nonce => Sys2Proof.Machine.execAttestationRequest nonce s
  | .managementImageUpdate image => Sys2Proof.Machine.execManagementImageUpdate image s

end Sys2Proof.Machine
end

