-- ==== Sys2Proof/Machine/Fetch.lean ====
section
/-! DEFINITION. Instruction fetch, the debug stops that come before an instruction, and the issue of a slot (02 R15, R29,
R33; 06 Table 6-8; 08 R173). -/

namespace Sys2Proof.Machine

open Sys2Proof

/-! ### Fetch (R15, R33) -/

/-- The 32-byte block at a physical address: from the instruction cache, else read as a load of the group, which fills it
(R33). A peer that cannot be reached gives no block, whatever the caches hold (R335). -/
def State.fetchBlock (s : State) (a : Agent) (pa : Nat) : State × Res (List Byte) :=
  let blk := pa / 32
  if isPeer pa && !s.reachable (peerOf pa) then (s, .no Cause.remoteTimeout) else
  match (s.core a.core).icache.find? blk with
  | some bs => (s, .ok bs)
  | none =>
    match s.peerLine a pa with
    | .no x => (s, .no x)
    | .need w o => (s, .need w o)
    | .away l t => (s, .away l t)
    | .ok line =>
      match s.loadL1 a.core (32 * blk) 32 line with
      | (s, none) => (s, .no Cause.remoteTimeout)
      | (s, some bs) => (s.onCore a.core fun k => { k with icache := k.icache.set blk bs }, .ok bs)

/-- A fetch as far as its checks: a breakpoint of a watch register comes after the checks of the translation, and before A
is set (10 R199, 12 R234). -/
def State.fetchSpot (s : State) (a : Agent) (tid : Nat) (pc : Word) : State × Res Where :=
  match s.probe a pc .fetch with
  | (s, .ok _) =>
    if s.watched a.core a.asid tid pc.toNat 1 .fetch then (s, .no Cause.breakpoint) else s.translate a pc .fetch
  | r => r

/-- The bytes from the instruction's address to the end of its block. -/
def State.fetchAt (s : State) (a : Agent) (tid : Nat) (pc : Word) : State × Res (List Byte) :=
  match s.fetchSpot a tid pc with
  | (s, .no c) => (s, .no c)
  | (s, .need w o) => (s, .need w o)
  | (s, .away l t) => (s, .away l t)
  | (s, .ok w) =>
    match s.fetchBlock a w.pa with
    | (s, .ok bs) => (s, .ok (bs.drop (w.pa % 32)))
    | r => r

/-! ### The issue of a slot -/

/-- Parks the whole slot that issues, with one detail word. -/
def State.stopSlot (s : State) (cause : BitVec 8) (detail : Word) (acc : Access) : State :=
  s.parkWhole s.cur.core s.cur.gslot s.cur.slot (everyLane s.mySlot.mask cause detail) acc

/-- R29 for the slot in hand: fetch, a breakpoint of a watch register, the form; then the instruction. -/
def State.runSlot (s : State) : Out :=
  let pc := s.mySlot.pc
  match s.fetchAt (s.agent s.cur.core s.cur.gslot s.cur.slot) s.myTeam.tid pc with
  | (s, .no cause) => .next (s.stopSlot cause pc .fetch)
  | (s, .need w o) => .next (s.awaitWant w o)
  | (s, .away _ _) => .next s
  | (s, .ok bs) =>
    match decode bs with
    | .error _ => .next (s.stopSlot Cause.illegal 0 .none)
    | .ok i => exec i s

/-- The slot stops for a single step: one instruction was executed since the step was armed (Table 6-8, R173). -/
def State.stepDue (s : State) : Bool :=
  s.me.sstep && s.mySlot.stepped && !(s.attached s.me.asid && s.filtered s.me.asid s.myTeam.tid)

/-- A ready slot issues. What was asked for before is no part of the instruction. -/
def State.issueSlot (s : State) (c g n : Nat) : Out :=
  let s := { s with cur := ⟨c, g, n⟩ }.onMySlot fun x => { x with asked := s.nextTag }
  if s.stepDue then .next (s.stopSlot Cause.singleStep 0 .none) else s.runSlot

/-- A slot that is chosen at a string instruction begins it, with nothing read yet; any other issues (20 R375). -/
def State.beginSlot (s : State) (c g n : Nat) : Out :=
  let s' := { s with cur := ⟨c, g, n⟩ }.onMySlot fun x => { x with asked := s.nextTag }
  match (s.peekInstr c g ((s.group c g).slot n).pc).bind readsStrings with
  | some _ => if s'.stepDue then .next (s'.stopSlot Cause.singleStep 0 .none) else .next s'.reissueRead
  | none => s.issueSlot c g n

/-- A lane of a string instruction that has begun reads one word (20 R375). -/
def State.readAhead (s : State) (c g n l : Nat) (va : Word) : State :=
  let x := s.group c g
  let y := x.slot n
  match s.peekInstr c g y.pc with
  | some i =>
    if (readsStrings i).any (fun gd => (x.active y.mask gd).getLsbD l) && y.wait.place == 1
        && (y.readAt l va.toNat).isNone then
      { { s with cur := ⟨c, g, n⟩ }.readWord i l va with cur := s.cur }
    else s
  | none => s

/-- A slot inside its instruction issues it again (Table 6-14a, KIND 0). -/
def State.reissueSlot (s : State) (c g n : Nat) : Out := { s with cur := ⟨c, g, n⟩ }.runSlot

end Sys2Proof.Machine
end

