-- ==== Sys2Proof/Machine/Sched.lean ====
section
/-! DEFINITION. Whose turn it is and what a turn does: the schedulers of R52 and R53, the supervisor group, slots that
wait, caches that give up what they hold, and the device's own steps (log 1). -/

namespace Sys2Proof.Machine

open Sys2Proof

/-! ### The schedulers (03 R52, R53) -/

/-- The core issues user work. -/
def State.issues (s : State) (c : Nat) : Bool := !s.tripped && !(s.core c).stopped

/-- The team of a group is not halted and is not being swapped out. -/
def State.teamRuns (s : State) (c g : Nat) : Bool :=
  let t := s.team c (s.group c g).team
  !t.halted && !t.moving

/-- R52, but for operands and units, which the turn names as stalled. -/
def State.slotReady (s : State) (c g n : Nat) : Bool :=
  let x := s.group c g
  let y := x.slot n
  x.live && y.state == .ready && y.mask != 0 && y.since ≤ s.turn && s.teamRuns c g

/-- The ready slots of a scheduler. -/
def State.candidates (s : State) (c sched : Nat) (stalled : List Nat) : List (Nat × Nat) :=
  if !s.issues c then []
  else
    ((s.core c).groups.filter fun e => e.1 < Config.gslots && e.1 % 4 == sched).flatMap fun e =>
      [0, 1].filterMap fun n => if s.slotReady c e.1 n && !stalled.contains (2 * e.1 + n) then some (e.1, n) else none

/-- The weight of a context on a core. -/
def State.weight1 (s : State) (c a : Nat) : Nat := max 1 ((s.regs c a).share.extractLsb' 0 8).toNat

/-- R53, step 2: the largest credit, then the least recently chosen; of contexts that none has been chosen from yet, which
the rule does not order, the one whose ready slot has the lowest group slot (log 4). -/
def bestCtx (credit : Nat → Int) (chosen : Nat → Nat) : List Nat → Option Nat
  | [] => none
  | a :: r =>
    match bestCtx credit chosen r with
    | none => some a
    | some b => if credit b < credit a || (credit a == credit b && chosen a ≤ chosen b) then some a else some b

/-- R53, step 4: the slot ready the longest, then the lower group slot, then slot 0. -/
def bestSlot (since : Nat × Nat → Nat) : List (Nat × Nat) → Option (Nat × Nat)
  | [] => none
  | x :: r =>
    match bestSlot since r with
    | none => some x
    | some y => if since x < since y || (since x == since y && 2 * x.1 + x.2 ≤ 2 * y.1 + y.2) then some x else some y

/-- The slots that the turn names as stalled are not ready in it (R52): they are ready anew from the next turn on. -/
def State.stall (s : State) (c sched : Nat) (stalled : List Nat) : State :=
  let f := fun (g n : Nat) (y : Slot) =>
    if y.state == .ready && stalled.contains (2 * g + n) then { y with since := s.turn + 1 } else y
  (((s.core c).groups.filter fun e => e.1 < Config.gslots && e.1 % 4 == sched).map (·.1)).foldl (fun s g =>
    s.onGroup c g fun x => { x with slot0 := f g 0 x.slot0, slot1 := f g 1 x.slot1 }) s

/-- A scheduler chooses: the credits as R53 leaves them, and the slot. -/
def State.choose (s : State) (c sched : Nat) (stalled : List Nat) : State × Option (Nat × Nat) :=
  let cs := s.candidates c sched stalled
  let s := s.stall c sched stalled
  let asid := fun (x : Nat × Nat) => (s.group c x.1).asid
  let e := distinct (cs.map asid)
  let k := s.core c
  let credit := e.foldl (fun m a => m.set (4 * a + sched) (m.get 0 (4 * a + sched) + s.weight1 c a)) k.credit
  match bestCtx (fun a => credit.get 0 (4 * a + sched)) (fun a => k.chosen.get 0 (4 * a + sched)) e with
  | none => (s, none)
  | some a =>
    let sum := (e.map fun b => s.weight1 c b).sum
    let credit := credit.set (4 * a + sched) (credit.get 0 (4 * a + sched) - sum)
    let s := s.setCore c { k with credit := credit, chosen := k.chosen.set (4 * a + sched) s.turn }
    (s, bestSlot (fun x => ((s.group c x.1).slot x.2).since) (cs.filter fun x => asid x == a))

/-! ### Acts -/

/-- A slot that may issue its instruction again: BLOCKED with KIND 0, its team running, or its instruction under way. -/
def State.canWake (s : State) (c g n : Nat) : Bool :=
  let x := s.group c g
  let y := x.slot n
  x.live && y.state == .blocked && y.mask != 0 && y.wait.kind == .reissue
    && ((s.issues c && s.teamRuns c g) || s.underWay c g n)

/-- The supervisor group of a core may issue from a slot. -/
def State.supervisorReady (s : State) (c n : Nat) : Bool :=
  let x := s.group c Config.supervisorSlot
  x.live && !s.tripped && !(s.core c).faulted && (x.slot n).mask != 0 && (x.slot n).state == .ready
    && (x.slot n).since ≤ s.turn

/-- A core's caches drop what they hold for an address. -/
def State.forget (s : State) (c va : Nat) : State :=
  let s := s.onCore c fun k =>
    { k with tlb := k.tlb.keep fun key _ => key % 2 ^ 45 != va / 4096 % 2 ^ 45, icache := k.icache.erase (va / 32) }
  let at_ := fun (key level : Nat) => key % 2 ^ 45 == va / pageSize level % 2 ^ 45
  { s with walk := s.walk.keep fun key _ => !((List.range 4).any fun k => at_ key (k + 1)) }

/-- A device step of the opcode table, as opposed to an instruction. -/
def isDeviceStep (i : Instr) : Bool := (fieldsOf i).isNone

/-- What an act does; one that is not enabled changes nothing. -/
def State.act1 (s : State) : Act → Out
  | .cycle c sched stalled =>
    match s.choose c (sched % 4) stalled with
    | (s, some (g, n)) => s.issueSlot c g n
    | (s, none) => .next s
  | .beginCycle c sched stalled =>
    match s.choose c (sched % 4) stalled with
    | (s, some (g, n)) => s.beginSlot c g n
    | (s, none) => .next s
  | .readWord c g n l va => .next (if s.canWake c g n then s.readAhead c g n l va else s)
  | .supervisor c n =>
    if s.supervisorReady c n then s.issueSlot c Config.supervisorSlot n else .next s
  | .wake c g n => if s.canWake c g n then s.reissueSlot c g n else .next s
  | .evict c pa => .next (s.evictSector c (pa / 32))
  | .forget c va => .next (s.forget c va)
  | .dropLine l => .next (s.dropPeerLine l)
  | .event i => if isDeviceStep i then exec i s else .next s

/-! ### A turn -/

/-- The watchdog windows after time has passed: one without work on the device stands at zero (06 R133), one in a dump
stands still (08 R174). -/
def State.windows (s : State) (dt : Nat) : State :=
  (s.ctxs.map (·.1)).foldl (fun s a =>
    if !s.hasWork a then s.alive a
    else if (s.ctx a).dbg.dumpstat.getLsbD 8 then s.onCtx a fun x => { x with window := x.window + dt }
    else s) s

/-- Time passes: `dt` ns, as this device's clock counts them, with the counter ticks, the time messages and the ends of
microseconds that it passes over (08 R179, 16 R338 to R340). -/
def State.passTime (s : State) (dt : Nat) : State :=
  let t := s.clockAfter dt
  let s1 := ((s.ticksUntil t.time).ratesUntil t.time)
  let s2 := { s1 with time := s.time }.timesUntil t.time
  { s2 with time := t.time, slew := t.slew, ran := t.ran, tsync := t.tsync }.windows (t.time - s.time)

/-- The link layer's replays, which software sees in RETRIES alone: saturating at 0xFFFF (R332, Table 16-1). -/
def State.countReplays (s : State) : State :=
  (s.ports.map (·.1)).foldl (fun s n =>
    let p := s.port n
    if p.state == .up then
      s.setPort n { p with retries := BitVec.ofNat 16 (min 0xFFFF (p.retries.toNat + Config.replays s.turn n)) }
    else s) s

/-- The teams that are to stop: halted, or leaving their core. What a tagged-word instruction of theirs has taken is
divided off as soon as it can be (12 R238). -/
def State.divideStopped (s : State) : State :=
  s.eachCore fun s c => (s.core c).teams.foldl (fun s (t, x) => if x.halted || x.moving then s.divideTeam c t else s) s

/-- Resolutions that wait for the fabric are tried again. -/
def State.resolveWaiting (s : State) : State :=
  s.eachCore fun s c => (s.core c).landing.foldl (fun s (i, e) => if e.pend.isSome then s.resolvePending c i else s) s

/-- What follows every change in the same step: waits whose word has changed, R44, launches that a refusal has ended,
dumps, what waits for the fabric, and the links' replays. -/
def State.settled (s : State) : State :=
  (s.recheckWaits.recheckBarriers.settle.divideStopped.settleRefused.settleDumps.resolveWaiting.settleSteps.goOnSwaps).countReplays

/-- The turn to take, and the state without it. -/
def State.nextTurn (s : State) : State × Option Turn :=
  match s.agenda with
  | t :: r => ({ s with agenda := r }, some t)
  | [] => (s, Config.freeTurn s.turn)

/-- Takes a turn: time passes, the act acts, and what follows it is settled. -/
def State.takeTurn (s : State) (t : Turn) : Out :=
  match ({ s with turn := s.turn + 1 }.passTime t.dt).act1 t.act with
  | .next s => .next s.settled
  | r => r

/-! ### A program placed from outside (log 1) -/

/-- The bytes of an instruction whose bits are `w`, zero above `nbits`. -/
def tableBytes (nbits w : Nat) : List Byte := leBytes 16 (w % 2 ^ nbits)

/-- The instruction runs in the supervisor group alone. -/
def placedPrivileged (nbits w : Nat) : Bool := (decodeTableWord nbits w).any needsPrivilege

/-- Where a placed program lies, and the tables that map its page: one leaf of 2 MiB at address 0. -/
def placedPc : Word := 0x100000
def placedRoot : Nat := 0x200000

/-- The page tables of a placed program, and its bytes. -/
def State.placeMemory (s : State) (bs : List Byte) : State :=
  let s := s.write64 placedRoot (BitVec.ofNat 64 (placedRoot + 0x1000 + 1))
  let s := s.write64 (placedRoot + 0x1000) (BitVec.ofNat 64 (placedRoot + 0x2000 + 1))
  let s := s.write64 (placedRoot + 0x2000) (BitVec.ofNat 64 (placedRoot + 0x3000 + 1))
  (s.write64 (placedRoot + 0x3000) (0x001000000000007F#64)).writeMem placedPc.toNat bs

/-- The registers of the context of a placed program. -/
def placedRegs : CtxRegs := { CtxRegs.zero with ptroot := BitVec.ofNat 64 (placedRoot + 1), share := 1 }

/-- The group of a placed program, as a dispatch starts it (Table 3-1). -/
def placedGroup (privileged : Bool) (turn : Nat) : Group :=
  { Group.none with
    live := true, asid := if privileged then 0 else 1, privileged := privileged,
    team := if privileged then Config.gslots else 0, pool := 256, slot0 := { Slot.empty.ready placedPc allLanes 0 with since := turn } }

/-- The team of a placed program. -/
def placedTeam : Team :=
  { Team.none with launch := 1, asid := 1, groups := 1, stages := 1, teams := 1, spadBytes := 16384 }

/-- The core that runs a placed program. -/
def placedCore (k : Core) (privileged : Bool) (turn : Nat) : Core :=
  let k := { k with copies := k.copies.set 1 placedRegs, icache := [], tlb := [], clean := [], dirty := [],
                    svc := .inService, faulted := false, stopped := false }
  if privileged then k.setGroup Config.supervisorSlot (placedGroup true turn)
  else { k with groups := [(0, placedGroup false turn)], teams := [(0, placedTeam)] }

/-- Places an instruction so that the next step runs it on core 0. -/
def State.place1 (s : State) (nbits w : Nat) : State :=
  let p := placedPrivileged nbits w
  let s := s.placeMemory (tableBytes nbits w)
  let s := s.onCtx (if p then 0 else 1) fun x => { x with exists_ := !p, master := placedRegs }
  let s := s.setCore 0 (placedCore (s.core 0) p s.turn)
  { s with
    boot := .service, tripped := false, walk := [], retiredFrames := [],
    agenda := ⟨0, if p then .supervisor 0 0 else .cycle 0 0 []⟩ :: s.agenda }

end Sys2Proof.Machine
end

