-- ==== Sys2Proof/Machine/Step.lean ====
section
/-! DEFINITION. The step of the machine: one turn. -/

namespace Sys2Proof.Machine

open Sys2Proof

/-- One step: the next turn of the agenda, or, where the agenda is empty, a free one (log 1). -/
def step (s : State) : Host.Outcome State Fault Refusal :=
  match s.nextTurn with
  | (s, some t) => s.takeTurn t
  | (s, none) => .next { s with turn := s.turn + 1 }

/-- `s` with an instruction where the next step runs it, on core 0. -/
def State.withFetchWord (s : State) (nbits w : Nat) : State := s.place1 nbits w

end Sys2Proof.Machine
end

