-- ==== Sys2Proof/Machine/Views.lean ====
section
/-! DEFINITION. What the host reads in the BAR pages: every register of Tables 7-1, 7-2, 7-10, 8-1, 10-2, 16-1, 18-1 and 21-3
as a read of it returns it. A write-only register and an offset outside the tables read zero. -/

namespace Sys2Proof.Machine

open Sys2Proof

def bitWord (b : Bool) (n : Nat) : Word := if b then BitVec.twoPow 64 n else 0

def QState.code : QState → Word
  | .disabled => 0 | .run => 1 | .paused => 2 | .error => 3

/-- The doorbell page (Table 7-1). -/
def Queue.doorbellRead (q : Queue) (off : Nat) : Word :=
  match off with
  | 0x008 => q.cons.setWidth 64
  | 0x010 => q.done.setWidth 64
  | 0x018 => q.state.code
  | _ => 0

/-- The control page of a queue (Tables 7-1, 7-2). -/
def Queue.controlRead (q : Queue) (off : Nat) : Word :=
  match off with
  | 0x000 => q.base
  | 0x008 => q.cfg
  | 0x018 => (q.errCode.setWidth 64 <<< 32) ||| q.errSeq.setWidth 64
  | 0x020 => q.vec
  | _ => 0

/-- The CR window: the master copy, but FIRED is the OR of the cores' copies, and the master's own where no core holds one
(log 32); zero while the context does not exist (R166). -/
def State.windowRead (s : State) (a off : Nat) : Word :=
  let x := s.ctx a
  if !x.exists_ || off % 8 != 0 then 0
  else
    let n := 0x100 + (off - 0x100) / 8
    let copies := s.cores.filterMap fun e => e.2.copies.find? a
    let fired := if copies.isEmpty then x.master.wdog.getLsbD 8 else copies.any fun r => r.wdog.getLsbD 8
    if n = 0x104 then (x.master.read n &&& ~~~0x100) ||| bitWord fired 8 else x.master.read n

/-- DEPVAL (R167). -/
def State.depvalRead (s : State) (a : Nat) : Word :=
  let d := s.dep (s.ctx a).depidx
  if d.owner != a then 0
  else d.count.setWidth 64 ||| bitWord d.under 32 ||| (BitVec.ofNat 64 d.owner <<< 48)

/-- The control page of a context (Table 7-10). -/
def State.contextRead (s : State) (a off : Nat) : Word :=
  let x := s.ctx a
  match off with
  | 0x008 => x.swapl
  | 0x018 => x.swapstat
  | 0x028 => BitVec.ofNat 64 x.chunk
  | 0x040 => BitVec.ofNat 64 x.depidx
  | 0x048 => s.depvalRead a
  | 0x050 => bitWord x.exists_ 8
  | 0x058 => BitVec.ofNat 64 (blockBase + 256 * a)
  | _ => if 0x100 ≤ off && off ≤ 0x1BF then s.windowRead a off else 0

/-- The debug page of a context (Table 8-1). -/
def Debug.read (d : Debug) (off : Nat) : Word :=
  match off with
  | 0x000 => d.attach
  | 0x008 => d.stopt
  | 0x010 => d.stopph
  | 0x018 => d.phcbase
  | 0x020 => d.phcn
  | 0x028 => d.trbase
  | 0x030 => d.trcfg
  | 0x038 => d.trprod.setWidth 64
  | 0x040 => d.trcons.setWidth 64
  | 0x048 => d.dumpbase
  | 0x050 => d.dumpsize
  | 0x060 => d.dumpstat
  | 0x068 => d.ctrbase
  | 0x070 => d.ctrcfg
  | 0x078 => d.ctrprod.setWidth 64
  | 0x080 => d.ctrcons.setWidth 64
  | 0x088 => d.drainbase
  | 0x090 => d.draincfg
  | 0x098 => d.drainprod.setWidth 64
  | 0x0A0 => d.draincons.setWidth 64
  | _ => 0

def PortState.code : PortState → Word
  | .down => 0 | .training => 1 | .up => 2 | .retired => 3

/-- PORTn (Table 16-1). -/
def Port.word (p : Port) : Word :=
  p.state.code ||| (p.plane.setWidth 64 <<< 4) ||| bitWord p.retire 8 ||| (p.retries.setWidth 64 <<< 32)

/-- ROUTE[d] (Table 16-1). -/
def Route.word (r : Route) : Word := r.ports.setWidth 64 ||| bitWord r.down 16 ||| (r.caps.setWidth 64 <<< 32)

def SvcState.code : SvcState → Word
  | .inService => 0 | .draining => 1 | .drained => 2 | .faulted => 3

/-- CORESVC (Table 21-3). -/
def Core.serviceWord (k : Core) : Word := k.svc.code ||| bitWord k.recalBusy 11 ||| (k.fwver.setWidth 64 <<< 32)

/-- The device control region (Tables 10-2, 16-1, 18-1, 21-3). -/
def State.deviceRegRead (s : State) (off : Nat) : Word :=
  if off % 8 != 0 then 0
  else if off = 0 then BitVec.ofNat 64 s.carve
  else if off = 0x100 then BitVec.ofNat 64 s.domId ||| bitWord s.domValid 16
  else if off = 0x108 then BitVec.ofNat 64 s.tmoexp ||| bitWord s.tsmaster 8 ||| bitWord s.tsync 9
  else if off = 0x110 then
    BitVec.ofNat 64 (s.congThresh + 2 ^ 12 * s.congRmin + 2 ^ 20 * s.congDec + 2 ^ 24 * s.congInc)
  else if 0x140 ≤ off && off < 0x1C0 then (s.port ((off - 0x140) / 8)).word
  else if off = 0x300 then BitVec.ofNat 64 s.gspBase
  else if off = 0x318 then bitWord s.gspBusy 8 ||| s.gspErr.setWidth 64
  else if 0x400 ≤ off && off < 0xA00 then (s.core ((off - 0x400) / 8)).serviceWord
  else if off = 0xA00 then s.fwstage
  else if 0x2000 ≤ off && off < 0x4000 then (s.route ((off - 0x2000) / 8)).word
  else 0

/-- The register at an offset of a page, as the host reads it (R144, R165, R171, R327, R346, R390). -/
def State.readRegister (s : State) (p : Page) (off : Nat) : Word :=
  match p with
  | .doorbell q => if q < 1024 then (s.queue q).doorbellRead off else 0
  | .qctl q => if q < 1024 then (s.queue q).controlRead off else 0
  | .ctx a => if a < 65536 then s.contextRead a off else 0
  | .dbg a => if a = 0 && off = 0 then BitVec.ofNat 64 s.tick else if a < 65536 then (s.ctx a).dbg.read off else 0
  | .dev => s.deviceRegRead off

end Sys2Proof.Machine
end

