-- ==== Sys2Proof/Safety.lean ====
section
/-! DEFINITION. What counts as a safe run, and the words that the statements use: when an instruction issues, what a
destination holds, what an instruction leaves alone. -/

namespace Sys2Proof.Machine

open Sys2Proof Forms

/-- The canonical form of memory: addresses rise strictly and no byte is listed that an unlisted address reads as. -/
abbrev State.memoryWf (s : State) : Prop := Memory.wf s.mem = true

/-- `k` steps answer a next state, and every state on the way meets `P`. -/
def Safe (P : State → Prop) : Nat → State → Prop
  | 0, s => P s
  | k + 1, s => P s ∧ ∃ t, step s = .next t ∧ Safe P k t

/-! ### Issue -/

/-- Steps 2 to 4 of R29 find nothing against the instruction, and the issuing slot carries lanes. -/
def issuable (i : Instr) (s : State) : Bool :=
  s.mySlot.state != .empty && s.mySlot.mask != 0 && wellFormed i && (!needsPrivilege i || s.me.privileged)
    && !s.me.outOfRange i

/-- A lane is active: it is in the slot's mask and passes the guard (R22). -/
def State.activeLane (s : State) (gd : Guard) (l : Nat) : Bool := (s.me.active s.mySlot.mask gd).getLsbD l

/-- The other slot of the issuing group is EMPTY, so that nothing needs to be spilled (R42). -/
def State.aloneInGroup (s : State) : Bool := (s.me.slot (other s.cur.slot)).state == .empty

/-! ### Results -/

/-- The destination holds `x` in a lane, `w` register bits wide (Table 2-4, R19). -/
def Group.holds (g : Group) (d : Dst) (l w : Nat) (x : BitVec 128) : Prop :=
  match d with
  | .v n => g.vwide n.toNat l w = (x.setWidth w).setWidth 128
  | .vbl n b => g.vwide n.toNat l w = (x.setWidth w).setWidth 128 ∧ g.latch b.toNat l = x.setWidth 32
  | .bl b => g.latch b.toNat l = x.setWidth 32
  | .s n => g.sreg n.toNat = if w ≤ 32 then (x.setWidth 32).setWidth 64 else x.setWidth 64
  | .none _ => True

/-- Vector register `n` is one of the registers that the destination names. -/
def dstNames (d : Dst) (w n : Nat) : Prop := ∃ r ∈ dstRegs w d, r.1 ≤ n ∧ n < r.1 + r.2

/-- The latch and the scalar that a destination names. -/
def dstLatch : Dst → Option (BitVec 2)
  | .vbl _ b | .bl b => some b
  | _ => none

def dstScalar : Dst → Option (BitVec 6)
  | .s n => some n
  | _ => none

/-- Between two values of a group everything is the same but the slots: registers, latches, scalars, accumulators,
streams, flags, lane stacks and every control value. -/
def Group.sameRegs (g h : Group) : Prop := h = { g with slot0 := h.slot0, slot1 := h.slot1 }

/-- The frame of a register instruction inside its group: what the destination does not name, and the lanes outside
`act`, keep their values; the slots apart, nothing else of the group changes. -/
def Group.onlyDst (g h : Group) (d : Dst) (w : Nat) (act : Nat → Bool) : Prop :=
  h = { g with v := h.v, s := h.s, bl := h.bl, slot0 := h.slot0, slot1 := h.slot1 }
    ∧ (∀ n l, l < 32 → (dstNames d w n → act l = false) → h.vreg n l = g.vreg n l)
    ∧ (∀ n l, l < 32 → (dstLatch d = some n → act l = false) → h.latch n.toNat l = g.latch n.toNat l)
    ∧ (∀ n : BitVec 6, dstScalar d ≠ some n → h.sreg n.toNat = g.sreg n.toNat)

/-- Two states of the machine differ at most in the issuing group, in the counters of its core and in the watchdog
windows: all of memory, the caches, every other group, team, queue, token, register and link is the same. -/
def State.elsewhereSame (s t : State) : Prop :=
  t = { s with cores := t.cores, ctxs := t.ctxs }
    ∧ (∀ c, t.core c = { s.core c with groups := (t.core c).groups, counters := (t.core c).counters })
    ∧ (∀ c g, (c ≠ s.cur.core ∨ g ≠ s.cur.gslot) → t.group c g = s.group c g)
    ∧ (∀ a, t.ctx a = { s.ctx a with window := (t.ctx a).window })

/-- The issuing slot goes on at a PC with its lanes, READY; the group's other slot is as it was. -/
def State.wentOn (s t : State) (pc : Word) : Prop :=
  t.cur = s.cur ∧ t.mySlot.state = .ready ∧ t.mySlot.pc = pc ∧ t.mySlot.mask = s.mySlot.mask
    ∧ t.mySlot.rcv = s.mySlot.rcv ∧ t.me.slot (other s.cur.slot) = s.me.slot (other s.cur.slot)

/-- A register instruction completes: every active lane's destination holds its result, the slot goes on at the next
instruction, and nothing else changes. -/
def givesLanes (i : Instr) (gd : Guard) (d : Dst) (w : Nat) (f : Nat → BitVec 128) (s : State) : Prop :=
  ∃ t, exec i s = .next t ∧ s.wentOn t (s.nextPc i)
    ∧ (∀ l, l < 32 → s.activeLane gd l = true → t.me.holds d l w (f l))
    ∧ s.me.onlyDst t.me d w (s.activeLane gd) ∧ s.elsewhereSame t

/-- The same for an instruction whose destination is one bit of a vector register (R26). -/
def givesBit (i : Instr) (gd : Guard) (reg : BitVec 8) (bit : BitVec 5) (f : Nat → Bool) (s : State) : Prop :=
  ∃ t, exec i s = .next t ∧ s.wentOn t (s.nextPc i)
    ∧ (∀ l, l < 32 → s.activeLane gd l = true → (t.me.vreg reg.toNat l).getLsbD bit.toNat = f l)
    ∧ (∀ l k, l < 32 → k ≠ bit.toNat →
        (t.me.vreg reg.toNat l).getLsbD k = (s.me.vreg reg.toNat l).getLsbD k)
    ∧ s.me.onlyDst t.me (.v reg) 32 (s.activeLane gd) ∧ s.elsewhereSame t

/-- No active lane raises an exception that traps (R64). -/
def quietLanes (gd : Guard) (f : Nat → BitVec 128 × Exc) (s : State) : Prop :=
  ∀ l, l < 32 → s.activeLane gd l = true → (f l).2 &&& s.me.fpctl = 0

/-- The sticky flags after a floating-point instruction: each active lane's exceptions are added to its own (R64). -/
def flagsAdded (gd : Guard) (f : Nat → BitVec 128 × Exc) (s t : State) : Prop :=
  ∀ l, l < 32 → t.me.flags l = if s.activeLane gd l then s.me.flags l ||| (f l).2 else s.me.flags l

/-- A floating-point instruction completes: results, sticky flags, and nothing else (R64). -/
def givesFloat (i : Instr) (gd : Guard) (d : Dst) (w : Nat) (f : Nat → BitVec 128 × Exc) (s : State) : Prop :=
  ∃ t, exec i s = .next t ∧ s.wentOn t (s.nextPc i)
    ∧ (∀ l, l < 32 → s.activeLane gd l = true → t.me.holds d l w (f l).1)
    ∧ flagsAdded gd f s t
    ∧ s.me.onlyDst { t.me with fpflags := s.me.fpflags } d w (s.activeLane gd) ∧ s.elsewhereSame t

/-- A READY slot at a PC with a reconvergence address and lanes. -/
def slotIs (x : Slot) (pc rcv : Word) (m : Mask) : Prop := x.state = .ready ∧ x.pc = pc ∧ x.rcv = rcv ∧ x.mask = m

/-- The whole slot goes to an address and nothing else changes. -/
def goesTo (i : Instr) (pc : Word) (s : State) : Prop :=
  ∃ t, exec i s = .next t ∧ s.wentOn t pc ∧ s.me.sameRegs t.me ∧ s.elsewhereSame t

/-- The device writes a CALL or RET record for this transfer (TRCFG.FLOW, Table 8-5). -/
def State.flowTraced (s : State) : Bool := (s.ctx s.me.asid).dbg.trcfg.getLsbD 9

/-- An instruction that only advances the PC completes so. -/
def onlyAdvances (i : Instr) (s : State) : Prop :=
  ∃ t, exec i s = .next t ∧ s.wentOn t (s.nextPc i) ∧ s.me.sameRegs t.me ∧ s.elsewhereSame t

/-! ### Operands, as the rules name them -/

/-- A(l), B(l), C(l) of an arithmetic instruction: the low w bits of the source (R57). -/
def opBits {F : Type} (s : State) (o : Alu F) (l : Nat) (src : Src) : BitVec (valBits o.ty) :=
  (s.me.arg l o.ty o.x src).setWidth (valBits o.ty)

/-- The third source of form S. -/
def opThird {F : Type} (s : State) (o : Alu F) (l : Nat) : BitVec (valBits o.ty) :=
  match o.x with
  | .s c _ => opBits s o l c
  | _ => 0

/-- A result of w bits as the destination holds it (R57): extended with zeros for a `.u` type and with copies of bit
w - 1 for an `.s` type. -/
def widen (ty : Ty) (r : BitVec (valBits ty)) : BitVec 128 :=
  if isSigned ty then (r.signExtend (regBits ty)).setWidth 128 else r.setWidth 128

/-- The value of w bits under the TYPE (R57). -/
def valueOf (ty : Ty) (a : BitVec (valBits ty)) : Int := if isSigned ty then a.toInt else (a.toNat : Int)

end Sys2Proof.Machine
end

