-- ==== Sys2Proof/Certificates/Slice0/Obligations.lean ====
section
/-! DEFINITION. The statements about the machine, one named proposition each; OBLIGATIONS.json lists them. A statement
about an instruction says what its next state holds and what it leaves alone, for every state and operands that meet
hypotheses on these alone. -/

namespace Sys2Proof.Statements

open Sys2Proof Forms Machine

/-! ### Words of the integer rules -/

/-- The exact result x of R69, modulo 2^w or clamped first. -/
def addFamily (ty : Ty) (sat : Bool) (x : Int) : BitVec 128 :=
  widen ty (BitVec.ofInt (valBits ty) (if sat then
    (if isSigned ty then max (-(2 ^ (valBits ty - 1))) (min (2 ^ (valBits ty - 1) - 1) x)
     else max 0 (min (2 ^ valBits ty - 1) x)) else x))

/-- A field's position and its bits that lie in the operand (R74). -/
def fieldLen (w : Nat) (c : BitVec 32) : Nat :=
  if w ≤ (c.extractLsb' 0 8).toNat then 0 else min (c.extractLsb' 8 8).toNat (w - (c.extractLsb' 0 8).toNat)

/-- The mask of a field of R74. -/
def fieldMask (w : Nat) (c : BitVec 32) : BitVec w :=
  BitVec.ofNat w (2 ^ fieldLen w c - 1) <<< (c.extractLsb' 0 8).toNat

/-! ### Words of the floating-point rules -/

/-- A(l) and B(l) of a floating-point instruction, and the third source of form S. -/
def fpA {F : Type} (s : State) (o : Alu F) (l k : Nat) : Nat := elemOf o.ty k (s.me.arg l o.ty o.x o.a)
def fpB {F : Type} (s : State) (o : Alu F) (l k : Nat) : Nat := elemOf o.ty k (s.me.arg l o.ty o.x o.b)
def fpC {F : Type} (s : State) (o : Alu F) (l k : Nat) : Nat :=
  elemOf o.ty k (match o.x with | .s c _ => s.me.arg l o.ty o.x c | _ => 0)

/-- A floating-point instruction writes, element by element, the result and raises the exceptions of `f`. -/
def floatGives {F : Type} (i : Instr) (o : Alu F) (s : State) (f : Nat → Nat → Nat × Exc) : Prop :=
  issuable i s = true → quietLanes o.g (fun l => perElem o.ty (f l)) s →
    givesFloat i o.g o.d (regBits o.ty) (fun l => perElem o.ty (f l)) s

/-- The sign bits of a TYPE's elements. -/
def signs (ty : Ty) : BitVec 128 :=
  match ty with
  | .f16 | .bf16 => 0x80008000
  | .f64 => 0x8000000000000000
  | _ => 0x80000000

/-! ### Words of rounding (04 R55, R58 to R61, 15 R298) -/

/-- The value of a finite operand. -/
def valOf : FVal → ℚ
  | .num n m e => (if n then -1 else 1) * m * 2 ^ e
  | _ => 0

/-- Its sign. -/
def signOf : FVal → Bool
  | .num n _ _ => n
  | .inf n => n
  | .nan _ => false

/-- The operand is finite. -/
def finite (v : FVal) : Prop := ∃ n m e, v = .num n m e

/-- A format holds a magnitude as `k` of its last place 2^`q`, if its exponents had no upper end. -/
def heldAs (m : Fmt) (r : ℝ) (k : ℕ) (q : ℤ) : Prop :=
  |r| = k * (2 : ℝ) ^ q ∧ k < 2 ^ (m.f + 1) ∧ m.emin - m.f ≤ q ∧ (q = m.emin - m.f ∨ 2 ^ m.f ≤ k)

/-- The numbers of a format without an upper end, and those of them whose last bit is 0. -/
def onGrid (m : Fmt) (r : ℝ) : Prop := ∃ k q, heldAs m r k q
def onEven (m : Fmt) (r : ℝ) : Prop := ∃ k q, heldAs m r k q ∧ k % 2 = 0

/-- The integers, and the even ones. -/
def isInteger (r : ℝ) : Prop := ∃ k : ℤ, r = k
def isEven (r : ℝ) : Prop := ∃ k : ℤ, r = 2 * k

/-- `r` is `x` rounded to the numbers of a grid under a mode of Table 4-2: the nearest, and of two the even one; the
greatest magnitude not above; the least not below; the greatest not above. -/
def roundsTo (rm : Rm) (grid even : ℝ → Prop) (x r : ℝ) : Prop :=
  grid r ∧ match rm with
  | .rne => ∀ y, grid y → |x - r| < |x - y| ∨ (|x - r| = |x - y| ∧ (y = r ∨ even r))
  | .rtz => |r| ≤ |x| ∧ 0 ≤ r * x ∧ ∀ y, grid y → |y| ≤ |x| → 0 ≤ y * x → |y| ≤ |r|
  | .rup => x ≤ r ∧ ∀ y, grid y → x ≤ y → r ≤ y
  | .rdn => r ≤ x ∧ ∀ y, grid y → y ≤ x → y ≤ r

/-- The largest finite magnitude of a format. -/
def largest (m : Fmt) : ℚ := (2 ^ (m.f + 1) - 1) * (2 : ℚ) ^ (m.bias - m.f)

/-- A word and its exceptions are the exact value `x` rounded once to a format (R58, R61): an exact zero has the sign
`zeroNeg`; beyond the largest number the mode gives an infinity or that number, with overflow and inexact; else the word holds
the rounded value with the sign of `x`, inexact where it differs, and underflow with that where `x` is tiny. -/
def roundedOnce (m : Fmt) (rm : Rm) (x : ℝ) (zeroNeg : Bool) (res : Nat × Exc) : Prop :=
  (x = 0 → res = (m.zero zeroNeg, noExc))
    ∧ (x ≠ 0 → ∃ (r : ℝ) (neg : Bool), roundsTo rm (onGrid m) (onEven m) x r ∧ (neg = true ↔ x < 0)
        ∧ ((largest m : ℝ) < |r| → res.2 = overflow ||| inexact ∧ res.1 =
            if rm = .rne ∨ (rm = .rup ∧ neg = false) ∨ (rm = .rdn ∧ neg = true) then m.inf neg else m.inf neg - 1)
        ∧ (|r| ≤ (largest m : ℝ) → res.1 < 2 ^ m.bits ∧ (∃ k e, m.read res.1 = .num neg k e) ∧ (valOf (m.read res.1) : ℝ) = r
            ∧ (r = x → res.2 = noExc)
            ∧ (r ≠ x → (|x| < (2 : ℝ) ^ m.emin → res.2 = underflow ||| inexact)
                ∧ ((2 : ℝ) ^ m.emin ≤ |x| → res.2 = inexact))))

/-- The least and the greatest integer of a TYPE. -/
def rangeOf (ty : Ty) : Int × Int :=
  if isSigned ty then (-(2 ^ (valBits ty - 1)), 2 ^ (valBits ty - 1) - 1) else (0, 2 ^ valBits ty - 1)

/-- An integer as the destination of a TYPE holds it. -/
def intResult (ty : Ty) (v : Int) : BitVec 128 := widen ty (BitVec.ofInt (valBits ty) v)

/-! ### Words of the narrow formats (15 R298 to R323) -/

/-- Lanes of a block of the transform, and the divisor 2^e (R318). -/
def blockOf : Tr → Nat × ℚ
  | .none => (1, 1) | .h16 => (16, 4) | .h32 => (32, 8)

/-- The sign of term `m` of the transform in lane `l` is turned: the bits that both have set are odd in number (R318). -/
def turned (n l m : Nat) : Bool := ((List.range 5).filter fun i => (l % n &&& m).testBit i).length % 2 == 1

/-- The transform of 32 values, exactly (R318). -/
def transformed (t : Tr) (x : Nat → FVal) (l : Nat) : ℚ :=
  let n := (blockOf t).1
  ((List.range n).map fun m => (if turned n l m then -1 else 1) * valOf (x (l - l % n + m))).sum / (blockOf t).2

/-- F of a target format (R321). -/
def greatestOf : NFmt → ℚ
  | .e4m3 => 448 | .e5m2 => 57344 | .int4 => 7 | .int3 => 3 | .ue5m3 => 114688

/-- The element at a position of a slice (R298, R299). -/
def sliceVal (s : Slice) (q : Nat) : FVal :=
  let b := fun i => (s.elems.getD i 0)
  match s.fmt with
  | 0 => narrowVal .e4m3 (b q).toNat
  | 1 => narrowVal .e5m2 (b q).toNat
  | 2 => bf16.read ((b (2 * q)).toNat + 256 * (b (2 * q + 1)).toNat)
  | _ => .num ((b q).toInt < 0) (b q).toInt.natAbs 0

/-- The factors of term `x` of element (i, j) of a k-step: of A, of B, and the scale of a weight (Table 15-2, R301,
R309). -/
def factors (mode : Nat) (a b : Slice) (i j x : Nat) : List FVal :=
  let k := if mode = 0 ∨ mode = 7 then 16 else 32
  [sliceVal a (if a.col then 32 * x + i else k * i + x), sliceVal b (if b.col then k * j + x else 32 * x + j)]
    ++ (if mode < 5 then [] else [narrowVal .ue5m3 (b.scales.getD (32 * (x / 16) + j) 0).toNat])

/-! ### Words of the control rules -/

/-- Table 3-7: the special registers of the issuing group in a lane. -/
def specialIs (s : State) (r : SpecialReg) (l : Nat) : Word :=
  match r with
  | .lane => BitVec.ofNat 64 l
  | .group => BitVec.ofNat 64 s.me.number
  | .ngroups => BitVec.ofNat 64 s.myTeam.groups
  | .team => BitVec.ofNat 64 s.myTeam.tid
  | .tx => BitVec.ofNat 64 s.myTeam.x
  | .ty => BitVec.ofNat 64 s.myTeam.y
  | .tz => BitVec.ofNat 64 s.myTeam.z
  | .stage => BitVec.ofNat 64 s.myTeam.stage
  | .core => BitVec.ofNat 64 s.cur.core
  | .ctx => BitVec.ofNat 64 s.me.asid
  | .clock => BitVec.ofNat 64 s.time
  | .stack => s.me.stk l

/-- A slot is ready at a scheduler (R52): its core issues, its group is one of the scheduler's, neither its team is halted
or leaving nor its instruction stalled. -/
def readyAt (s : State) (c sched : Nat) (stalled : List Nat) (g n : Nat) : Prop :=
  let x := s.group c g
  s.tripped = false ∧ (s.core c).stopped = false ∧ g < 64 ∧ g % 4 = sched ∧ n < 2 ∧ 2 * g + n ∉ stalled
    ∧ x.live = true ∧ (x.slot n).state = .ready ∧ (x.slot n).mask ≠ 0 ∧ (x.slot n).since ≤ s.turn
    ∧ (s.team c x.team).halts = [] ∧ (s.team c x.team).moving = false

/-- The context has a ready slot at the scheduler. -/
def contends (s : State) (c sched : Nat) (stalled : List Nat) (a : Nat) : Prop :=
  ∃ g n, readyAt s c sched stalled g n ∧ (s.group c g).asid = a

/-- SHARE of a context on a core, which is never 0 (R53, Table 6-5). -/
def shareOf (s : State) (c a : Nat) : Nat := max 1 ((s.regs c a).share.extractLsb' 0 8).toNat

/-- The lanes that hold the target of the lowest-numbered lane (R92, R96). -/
def sameTarget (s : State) (t : Src) : Mask :=
  maskOf ((lanes s.mySlot.mask).filter fun l => s.me.src64 l t == s.me.src64 (lowest s.mySlot.mask) t)

/-- After an indirect transfer the lanes that hold the target stand there and the others at the instruction, in the
other slot. -/
def transferred (s t : State) (tg : Src) : Prop :=
  let rest := s.mySlot.mask &&& ~~~ sameTarget s tg
  t.cur = s.cur
    ∧ slotIs t.mySlot (s.me.src64 (lowest s.mySlot.mask) tg) s.mySlot.rcv (sameTarget s tg)
    ∧ (if rest = 0 then t.me.slot (other s.cur.slot) = s.me.slot (other s.cur.slot)
       else slotIs (t.me.slot (other s.cur.slot)) s.mySlot.pc s.mySlot.rcv rest)

/-- The hypotheses of an indirect transfer that needs no spill and no trap. -/
def canTransfer (s : State) (tg : Src) : Prop :=
  (s.me.src64 (lowest s.mySlot.mask) tg).toNat % 4 = 0
    ∧ (s.mySlot.mask &&& ~~~ sameTarget s tg = 0 ∨ s.aloneInGroup = true)

/-! ### Words of the trap rules -/

/-- What the device writes when lanes park, the landing table and, if it traces them, the ring (R111, R177), lies in
memory of this device or of the host, so that none of it fails on the fabric (R335). -/
def landsNear (s : State) : Prop :=
  let base := (s.core s.cur.core).landbase.toNat
  let d := (s.ctx s.me.asid).dbg
  (base + 320 * 2048 ≤ peerBase ∨ hostBase ≤ base)
    ∧ (d.trcfg.getLsbD 10 = false ∨ d.trbase.toNat + 64 * 2 ^ (d.trcfg.extractLsb' 0 5).toNat ≤ peerBase
        ∨ hostBase ≤ d.trbase.toNat)

/-- Lanes of the issuing slot can park: the group is a user group, a landing entry is FREE, and either no lane of the slot
stays behind or the other slot is EMPTY (R42, R110, R112, R116). -/
def canTrap (act : Mask) (s : State) : Prop :=
  s.cur.gslot ≠ Config.supervisorSlot ∧ (∃ e, e < 2048 ∧ (s.entry s.cur.core e).state = .free)
    ∧ (s.mySlot.mask &&& ~~~act = 0 ∨ s.aloneInGroup = true) ∧ landsNear s

/-- An exception taken (R43, R110 to R113, Table 6-1): the lanes `act` of the issuing slot stand PARKED at their
instruction, the slot's other lanes stand at the next one, and a landing entry that was FREE names the parked lanes with
their cause and each lane's detail. -/
def parkedAs (i : Instr) (act : Mask) (cause : BitVec 8) (detail : Nat → Word) (s t : State) : Prop :=
  let rest := s.mySlot.mask &&& ~~~act
  let n := if rest = 0 then s.cur.slot else other s.cur.slot
  t.cur = s.cur
    ∧ (if rest = 0 then t.me.slot (other s.cur.slot) = s.me.slot (other s.cur.slot)
       else slotIs t.mySlot (s.nextPc i) s.mySlot.rcv rest)
    ∧ (t.me.slot n).state = .parked ∧ (t.me.slot n).pc = s.mySlot.pc ∧ (t.me.slot n).rcv = s.mySlot.rcv
    ∧ (t.me.slot n).mask = act
    ∧ ∃ e, e < 2048 ∧ (s.entry s.cur.core e).state = .free ∧
        let x := t.entry s.cur.core e
        x.state = (if s.myTeam.halted then .held else .pending) ∧ x.cause = cause ∧ x.pc = s.mySlot.pc
          ∧ x.rcv = s.mySlot.rcv ∧ x.mask = act ∧ x.asid = s.me.asid ∧ x.gslot = s.cur.gslot ∧ x.group = s.me.number
          ∧ x.team = s.me.team ∧ x.tid = s.myTeam.tid ∧ x.launch = s.myTeam.launch ∧ x.place = placeOf n
          ∧ x.seq = (s.core s.cur.core).landseq ∧ ∀ l, l < 32 → act.getLsbD l = true → x.detail.get 0 l = detail l

/-- The same where the instruction has no other effect: no register of the group changes. -/
def trapped (i : Instr) (act : Mask) (cause : BitVec 8) (detail : Nat → Word) (s t : State) : Prop :=
  s.me.sameRegs t.me ∧ parkedAs i act cause detail s t

/-! ### Words of the divergence stack (03 R42 to R45) -/

/-- Where entry `n` of a group's divergence stack lies (R45, R51). -/
def stackPlace (s : State) (c g n : Nat) : Word :=
  let x := s.group c g
  let t := s.team c x.team
  BitVec.ofNat 64 (t.pb.toNat + t.tid * (1024 * t.lss + 262144) + 1024 * t.lss + 8192 * x.number + 32 * n)

/-- A SLOT entry for a slot, in bytes (Table 3-3). -/
def slotRecord (y : Slot) : List Byte :=
  let state : Byte := match y.state with | .wait => 1 | .parked => 2 | .blocked => 3 | _ => 0
  leBytes 8 y.pc.toNat ++ leBytes 8 y.rcv.toNat ++ leBytes 4 y.mask.toNat ++ [1, state, 0, 0]
    ++ leBytes 8 (if y.state = .blocked then y.wait.word.toNat else 0)

/-- A JOIN entry, in bytes. -/
def joinRecord (r1 r0 : Word) : List Byte :=
  leBytes 8 r1.toNat ++ leBytes 8 r0.toNat ++ leBytes 4 0 ++ [2, 0, 0, 0] ++ leBytes 8 0

/-- The other slot of the issuing group, where it is occupied, can be spilled as one entry: its instruction is not under way,
and it has not taken a part of its lanes' steps (log 22). -/
def canSpill (s : State) : Prop :=
  s.aloneInGroup = false → s.underWay s.cur.core s.cur.gslot (other s.cur.slot) = false
    ∧ (s.me.slot (other s.cur.slot)).done = 0

/-- Places of pushes: aligned, apart, in memory of this device or of the host. -/
def pushPlaces (ws : List Where) : Prop :=
  (∀ w ∈ ws, isPeer w.pa = false ∧ w.pa % 32 = 0) ∧ (ws.map (·.pa)).Nodup

/-- The other slot of the issuing group stands on the stack at `w`, and a parked entry is known there (R42). -/
def spilledTo (s t : State) (w : Where) : Prop :=
  let y := s.me.slot (other s.cur.slot)
  t.readMem w.pa 32 = slotRecord y
    ∧ (y.state = .parked → ∀ e, s.entryAt s.cur.core s.cur.gslot (placeOf (other s.cur.slot)) = some e →
        (t.entry s.cur.core e).place = .spilled s.me.depth)

/-! ### Words of the barrier and phase rules -/

/-- Update of a barrier word (R250): the phase completes when nothing is left to come. -/
def updated (w : Word) (darr : Nat) (dsec : BitVec 41) : Word :=
  if bwArr w - darr = 0 ∧ bwSec w + dsec = 0 then bwMake (!bwPh w) (bwExp w) (bwExp w) 0
  else bwMake (bwPh w) (bwExp w) (bwArr w - darr) (bwSec w + dsec)

/-- A barrier instruction issues, needs no spill, and its word lies at `off` of team `t` on core `c`. -/
def barAt (i : Instr) (o : Bar) (u : TagUse) (s : State) (c t off : Nat) : Prop :=
  issuable i s = true ∧ s.me.active s.mySlot.mask o.g ≠ 0 ∧ (o.remote = false ∨ s.aloneInGroup = true)
    ∧ (s.barSpot o (s.me.active s.mySlot.mask o.g) u).2 = .ok (.pad c t off)

/-- No arrival is held at the word and the team's phases are not counted (R172). -/
def plainWord (s : State) (c t off : Nat) : Prop :=
  (s.team c t).heldArr.get 0 off = 0 ∧ s.counts (s.team c t).asid (s.team c t).tid = false

/-- The issuing slot goes on at the next instruction; what happened elsewhere is said apart. -/
def slotWentOn (i : Instr) (s t : State) : Prop :=
  t.cur = s.cur ∧ slotIs t.mySlot (s.nextPc i) s.mySlot.rcv s.mySlot.mask

/-- Every other group of the team stands BLOCKED at the team barrier with one of its slots. -/
def othersArrived (s : State) : Prop :=
  (s.cur.gslot, s.me) ∈ s.groupsOf s.cur.core s.me.team ∧ ∀ e ∈ s.groupsOf s.cur.core s.me.team, e.1 ≠ s.cur.gslot →
    ∃ n, ((s.group s.cur.core e.1).slot n).state = .blocked ∧ ((s.group s.cur.core e.1).slot n).wait.kind = .team

/-- Once the issuing slot waits at the team barrier, every stack entry of the team that may be a SLOT entry can be read. -/
def stacksRead (i : Instr) (g : Guard) (s : State) : Prop :=
  let b := s.block ⟨.team, false, 0, 0, false⟩ i.bytes (s.me.active s.mySlot.mask g)
  ∀ e ∈ b.groupsOf s.cur.core s.me.team, b.hiddenSlots s.cur.core e.1 = []

/-- The bytes that the issuing group has written in memory of this device or of the host, at a scope wider than CORE,
are performed (R217). A byte that another group wrote may be performed with them (R215); no other byte of memory
changes. -/
def published (s t : State) : Prop :=
  (∀ pa d, (s.core s.cur.core).dirty.find? pa = some d → s.cur.gslot ∈ d.writers → d.scopeCore = false →
      isPeer pa = false → t.readByte pa = d.val)
    ∧ (∀ pa, t.readByte pa = s.readByte pa ∨ ∃ d, (s.core s.cur.core).dirty.find? pa = some d ∧ t.readByte pa = d.val)

/-! ### Words of the memory rules -/

/-- The checks of the active lanes (R234): the state after them and what each lane came to. -/
def checks {F : Type} (s : State) (o : Mem F) (bytes : Nat) (acc : Access) (u : TagUse) : State × List LaneAt :=
  s.checkLanes o.sp (fun l => s.me.ea o.sp l o.a o.x) bytes bytes acc u (lanes (s.me.active s.mySlot.mask o.g))

/-- Every lane's checks pass. -/
def allPass (ls : List LaneAt) : Prop := ∀ x ∈ ls, ∃ p, x.res = .ok p

/-- A memory instruction issues with lanes, every lane passes its checks, and no spill stands in its way. -/
def memReady {F : Type} (i : Instr) (o : Mem F) (bytes : Nat) (acc : Access) (u : TagUse) (late : Bool) (s : State) :
    Prop :=
  issuable i s = true ∧ s.me.active s.mySlot.mask o.g ≠ 0 ∧ allPass (checks s o bytes acc u).2
    ∧ (late = false ∨ s.aloneInGroup = true)

/-- Some lanes of a memory instruction are refused: every lane has passed its checks or has its cause, the lanes `bad` with
a cause can park, and no debugger stops them. -/
def someRefused {F : Type} (i : Instr) (o : Mem F) (bytes : Nat) (acc : Access) (u : TagUse) (late : Bool) (bad : Mask)
    (s : State) : Prop :=
  let ls := (checks s o bytes acc u).2
  issuable i s = true ∧ (∀ x ∈ ls, (∃ p, x.res = .ok p) ∨ ∃ k, x.res = .no k)
    ∧ bad = maskOf ((ls.filter fun x => match x.res with | .no _ => true | _ => false).map (·.lane))
    ∧ bad ≠ 0 ∧ canTrap bad s ∧ (late = false ∨ s.aloneInGroup = true) ∧ s.attached s.me.asid = false
    ∧ (s.ctx s.me.asid).dbg.trcfg.getLsbD 10 = false

/-- They park, each with its own address, under the lowest of their causes (R199, R234). -/
def parkRefused {F : Type} (i : Instr) (o : Mem F) (ls : List LaneAt) (bad : Mask) (s t : State) : Prop :=
  ∃ cause, (∃ x ∈ ls, x.res = .no cause) ∧ (∀ x ∈ ls, ∀ k, x.res = .no k → cause.toNat ≤ k.toNat)
    ∧ parkedAs i bad cause (fun l => s.me.ea o.sp l o.a o.x) s t

/-- A byte of memory that is none of the issuing core's landing table. -/
def outsideLanding (s : State) (pa : Nat) : Prop :=
  let base := (s.core s.cur.core).landbase.toNat
  pa < base ∨ base + 320 * 2048 ≤ pa

/-- The byte that the lanes' stores leave at a memory address: the highest-numbered lane's (R211). -/
def storedMem (ps : List (Nat × Word × Spot)) (val : Nat → List Byte) (pa : Nat) : Option Byte :=
  ps.reverse.findSome? fun x => match x.2.2 with
    | .mem w => if w.pa ≤ pa then (val x.1)[pa - w.pa]? else none
    | .pad _ _ _ => none

/-- The same at a scratchpad offset. -/
def storedPad (ps : List (Nat × Word × Spot)) (val : Nat → List Byte) (c t off : Nat) : Option Byte :=
  ps.reverse.findSome? fun x => match x.2.2 with
    | .mem _ => none
    | .pad c' t' b => if c' = c ∧ t' = t ∧ b ≤ off then (val x.1)[off - b]? else none

/-- No two lanes name the same scratchpad word, and no lane names memory. -/
def distinctWords (ps : List (Nat × Word × Spot)) : Prop :=
  (∀ x ∈ ps, ∃ c t off, x.2.2 = .pad c t off)
    ∧ ps.Pairwise fun x y => ∀ c t a b, x.2.2 = .pad c t a → y.2.2 = .pad c t b → a + 8 ≤ b ∨ b + 8 ≤ a

/-- A place is a multiple of `n` bytes from the start of its space, as the alignment of addresses and of frames makes
it (R193, R234). -/
def placedAt (n : Nat) (p : Spot) : Prop :=
  match p with
  | .pad _ _ off => off % n = 0
  | .mem w => w.pa % n = 0

/-- Two lanes name one place. -/
def samePlace (p q : Spot) : Bool :=
  match p, q with
  | .pad c t a, .pad c' t' b => c == c' && t == t' && a == b
  | .mem v, .mem w => v.pa == w.pa
  | _, _ => false

/-- A byte of memory as its home holds it once the L1 of the issuing core has published it (R224). -/
def homeByte (s : State) (pa : Nat) : Byte :=
  match (s.core s.cur.core).dirty.find? pa with
  | some d => d.val
  | none => s.readByte pa

/-- What stands at a place: the scratchpad's bytes, or the home's. -/
def atPlace (s : State) (p : Spot) (n : Nat) : BitVec (8 * n) :=
  match p with
  | .pad c t off => (bytesValue ((s.team c t).read off n)).setWidth _
  | .mem w => (bytesValue ((List.range n).map fun i => homeByte s (w.pa + i))).setWidth _

/-- Table 12-3: the new value, from the old one and the lane's operands. -/
def newValue (op : AtomOp) (w : Nat) (old b cmp : BitVec w) : BitVec w :=
  match op with
  | .add => old + b | .and => old &&& b | .or => old ||| b | .xor => old ^^^ b | .exch => b
  | .min => if old.toInt ≤ b.toInt then old else b
  | .max => if old.toInt ≤ b.toInt then b else old
  | .cas => if old = cmp then b else old
  | .fadd => BitVec.ofNat w ((if w = 64 then fp64 else fp32).add .rne old.toNat b.toNat).1

/-- What stands at a place once some lanes, in their order, have acted on it (R242). -/
def afterLanes (s : State) (o : Mem AtomOp) (c : State) (ps : List (Nat × Word × Spot)) (p : Spot) :
    BitVec (8 * widthBytes o.w) :=
  ps.foldl (fun v x =>
    if samePlace x.2.2 p then
      let a := s.me.atomArgs o.f x.1 (widthBits o.w) o.b
      newValue o.f _ v (a.1.setWidth _) (a.2.setWidth _)
    else v) (atPlace c p (widthBytes o.w))

/-- The places of a list of lanes have changed by what the lanes did, one after the other, and every other byte of memory
and of scratchpad is as it was. -/
def lanesActed (s t : State) (o : Mem AtomOp) (c : State) (ps : List (Nat × Word × Spot)) : Prop :=
  let n := widthBytes o.w
  (∀ x ∈ ps, atPlace t x.2.2 n = afterLanes s o c ps x.2.2)
    ∧ (∀ pa, isPeer pa = false → (∀ x ∈ ps, ∀ w, x.2.2 = .mem w → pa < w.pa ∨ w.pa + n ≤ pa) → homeByte t pa = homeByte c pa)
    ∧ (∀ k m off, (∀ x ∈ ps, ∀ a, x.2.2 = .pad k m a → off < a ∨ a + n ≤ off) →
        (t.team k m).spad.get 0 off = (c.team k m).spad.get 0 off)

/-! ### Words of the engine and token rules -/

/-- An engine instruction issues, an entry is free, its predecessor may be named and is not cancelled, and no tile of
the team carries its last hold (R278). -/
def engineReady (i : Instr) (gd : Guard) (pred : Option (BitVec 6)) (s : State) : Prop :=
  issuable i s = true ∧ s.me.active s.mySlot.mask gd ≠ 0 ∧ (s.tokenSlot s.cur.core).isSome = true
    ∧ (s.resolveToken s.me.asid s.me.privileged (s.me.opt pred) = .reclaimed
        ∨ ∃ c e q, s.resolveToken s.me.asid s.me.privileged (s.me.opt pred) = .live c e q ∧ q.state ≠ .cancelled)
    ∧ ∀ n, s.myTeam.holds.get 0 n < 255

/-- The operation is ISSUED in the entry taken, under its handle, which the destination receives; the slot goes on and
memory is as it was (R259, R260, R278). -/
def operationIssued (i : Instr) (d pred : Option (BitVec 6)) (det : Bool) (want : Op → Prop) (s : State) : Prop :=
  ∃ t e op, exec i s = .next t ∧ slotWentOn i s t ∧ t.mem = s.mem ∧ s.tokenSlot s.cur.core = some e
    ∧ (t.token s.cur.core e).use = .live op
    ∧ (t.token s.cur.core e).gen = nextGen (s.token s.cur.core e).gen
    ∧ op.handle = handleOf (nextGen (s.token s.cur.core e).gen) s.cur.core e
    ∧ (∀ n, d = some n → t.me.sreg n.toNat = op.handle)
    ∧ op.state = .issued ∧ op.cursor = 0 ∧ op.cause = 0 ∧ op.pred1 = s.me.opt pred ∧ op.detached = det
    ∧ op.asid = s.me.asid ∧ op.tid = s.myTeam.tid ∧ op.launch = s.myTeam.launch ∧ want op

/-- The operation that a copy form names (R277, R279). -/
def copyOp (s : State) (code : BitVec 8) (o : CpyOp) : Op :=
  let op := { s.newOp code (BitVec.ofNat 4 (4 * Machine.spaceCode o.ss + Machine.spaceCode o.ds)) o.fp with
    dst := spaceAddr (Machine.spaceCode o.ds) (s.me.sreg o.dst.toNat),
    src := spaceAddr (Machine.spaceCode o.ss) (s.me.sreg o.src.toNat),
    x := s.me.opt o.opx, y := s.me.opt o.opy, len := (s.me.opt o.opl).toNat % 2 ^ 32, lk := o.lk,
    link := Machine.linkOf o.lk (s.me.opt o.opk), prio := o.pri.toNat, hold := o.hold }
  let op := if op.localList then { op with x := spaceAddr 1 op.x } else op
  { op with tiles := op.copyTiles }

/-- A copy form whose operands pass R278 becomes an ISSUED operation that holds them. -/
def copyIssues (i : Instr) (code : BitVec 8) (o : CpyOp) (s : State) : Prop :=
  let op := copyOp s code o
  engineReady i o.g o.opp s → (∀ k ∈ s.copyChecks op (s.me.opt o.opl) (s.me.opt o.opk), k = none) →
    (o.det = false ∨ (op.ownSpan = false ∧ o.lk ≠ .barrier)) →
    operationIssued i o.d o.opp o.det (fun r => r.op = code ∧ r.fn = op.fn ∧ r.fp = o.fp ∧ r.dst = op.dst ∧ r.src = op.src
      ∧ r.x = op.x ∧ r.y = op.y ∧ r.len = op.len ∧ r.lk = o.lk ∧ r.link = op.link ∧ r.prio = o.pri.toNat
      ∧ r.hold = o.hold ∧ r.tiles = op.tiles) s

/-- The link of a feed, a matrix operation or a gossip step is none or a counter of the context. -/
def linkFits (o : EngOp2) (s : State) : Prop :=
  o.lk = .none ∨ (o.lk = .counter ∧ s.depOk s.me.asid (s.me.opt o.opk) = true)

/-- A token instruction issues with lanes. -/
def tokenReady (i : Instr) (o : TokOp) (s : State) : Prop :=
  issuable i s = true ∧ s.me.active s.mySlot.mask o.g ≠ 0

/-- The handle names a LIVE operation that the group may control (R261, Table 13-2). -/
def controlled (s : State) (o : TokOp) (c e : Nat) (op : Op) : Prop :=
  s.resolveToken s.me.asid s.me.privileged (s.me.sreg o.a.toNat) = .live c e op ∧ s.op? c e = some op ∧ s.owns op = true

/-- It completes: the slot goes on, and the destination, if there is one, holds `x`. -/
def tokenGives (i : Instr) (o : TokOp) (s : State) (x : Word) (also : State → Prop) : Prop :=
  ∃ t, exec i s = .next t ∧ slotWentOn i s t ∧ t.mem = s.mem ∧ (∀ n, o.d = some n → t.me.sreg n.toNat = x) ∧ also t

/-! ### Words of the gossip and string rules -/

/-- A per-lane gossip access issues with lanes and every lane's checks pass; the lanes with their regions and offsets. -/
def gspReady (i : Instr) (o : GspOp) (acc : Access) (ok : Nat → Bool) (s c : State) (ps : List (Nat × Nat × Nat)) :
    Prop :=
  let act := s.me.active s.mySlot.mask o.g
  let r := s.gspLanes (fun l => s.me.ea .g l o.a o.x) acc ok (lanes act)
  issuable i s = true ∧ act ≠ 0 ∧ (∀ x ∈ r.2, ∃ p, x.res = .ok p) ∧ c = r.1 ∧ ps = gspPassed r.2

/-- An access that only reads completes: each lane's destination holds its value and nothing is stored. -/
def readsGive (i : Instr) (gd : Guard) (d : Dst) (w : Nat) (ls : List (Nat × BitVec 128)) (s c : State) : Prop :=
  ∃ t, exec i s = .next t ∧ slotWentOn i s t ∧ t.mem = c.mem
    ∧ (∀ x ∈ ls, t.me.holds d x.1 w x.2) ∧ s.me.onlyDst t.me d w (s.activeLane gd)

/-- A string instruction issues with lanes, each lane reads its whole set, of which words that it has read in earlier turns
stand as they were then (R375), and no spill stands in its way where a set lies in a peer window; the lanes with their
bytes. -/
def strReady (i : Instr) (gd : Guard) (sets : Nat → List (Nat × Nat)) (s c : State) (bs : List (Nat × List Byte)) :
    Prop :=
  let act := s.me.active s.mySlot.mask gd
  let r := s.strLanes sets (lanes act)
  issuable i s = true ∧ act ≠ 0 ∧ c = r.1 ∧ bs.map (·.1) = lanes act
    ∧ (s.aloneInGroup = true ∨ ∀ l ∈ lanes act, c.strFar (sets l) = false)
    ∧ ∀ k l : Nat, (lanes act)[k]? = some l → ∃ (va : Word) (raw : List Byte), r.2[k]? = some (l, va, Res.ok raw)
        ∧ bs[k]? = some (l, s.mySlot.overRead l (setAddrs (sets l)) raw)

/-- String `a` comes before `b` in the order of bytes (R378). -/
def precedes (a b : List Byte) : Prop :=
  (∃ i x y, a[i]? = some x ∧ b[i]? = some y ∧ a.take i = b.take i ∧ x.toNat < y.toNat)
    ∨ (a.length < b.length ∧ b.take a.length = a)

/-- One step of R377's hash of a list of bytes, in chunks of eight with the count of a tail in its highest byte. -/
def hashTail (h : Word) (bs : List Byte) : Word :=
  if bs = [] then h else hashChunk h (BitVec.ofNat 64 (leNat bs) ||| (BitVec.ofNat 64 bs.length <<< 56))

/-- The chunks of a whole number of eight bytes. -/
def hashWords (h : Word) (n : Nat) (bs : List Byte) : Word :=
  (List.range n).foldl (fun h k => hashChunk h (BitVec.ofNat 64 (leNat ((bs.drop (8 * k)).take 8)))) h

/-- The instruction only stops: its whole slot is PARKED with a cause and detail 0 (R30). -/
def refusedWith (i : Instr) (cause : BitVec 8) (s : State) : Prop :=
  canTrap s.mySlot.mask s → ∃ t, exec i s = .next t ∧ trapped i s.mySlot.mask cause (fun _ => 0) s t

/-- What each lane of a `sigret` reads of its frame. -/
def framesRead (s c : State) (act : Mask) (fr : Nat → FrameRead) : Prop :=
  (s.readFrames (lanes act)).1 = c
    ∧ ((s.readFrames (lanes act)).2.map fun r => (r.1, r.2.2)) = (lanes act).map fun l => (l, .ok (fr l))

/-- Table 6-5: the value of a control register of the issuing group, its core or its context. -/
def controlIs (s : State) (n l : Nat) : Word :=
  let k := s.core s.cur.core
  let r := (k.copies.find? s.me.asid).getD (s.ctx s.me.asid).master
  match n with
  | 0x001 => s.me.fpctl.setWidth 64
  | 0x002 => (s.me.flags l).setWidth 64
  | 0x003 => (BitVec.ofBool s.me.sstep).setWidth 64
  | 0x004 => (BitVec.ofBool s.me.privileged).setWidth 64
  | 0x100 => r.ptroot | 0x101 => r.sigh | 0x102 => r.disp | 0x103 => r.svcmode | 0x104 => r.wdog | 0x105 => r.share
  | 0x106 => r.slip | 0x107 => r.freering | 0x108 => r.fring
  | 0x200 => k.landbase | 0x201 => k.landseq.setWidth 64
  | _ => if 0x110 ≤ n ∧ n < 0x114 then (r.wpa[n - 0x110]?).getD 0 else (r.wpc[n - 0x114]?).getD 0

/-- What a write leaves in a control register: reserved bits are not kept, and DISP keeps the bits of the causes that Table
6-4 lists as parking lanes (R117, Tables 6-5 to 6-8). -/
def controlAfter (n : Nat) (v : Word) : Word :=
  match n with
  | 0x001 => v &&& 0x1F
  | 0x003 => v &&& 1
  | 0x100 => v &&& 0x000FFFFFFFFFF001
  | 0x101 => v &&& 0xFFFFFFFFFFFFFFFC
  | 0x102 => v &&& 0x09FF7FFE
  | 0x103 => v &&& 0xF
  | 0x105 => if v.extractLsb' 0 8 = 0 then 1 else v &&& 0xFF
  | 0x106 => v &&& 0xFFFFFFFFFFFFF000
  | 0x200 => v &&& 0xFFFFFFFFFFFFFFC0
  | _ => if 0x114 ≤ n ∧ n < 0x118 then v &&& 0x7C7 else v

/-! ### Words of the supervisor's and the host's rules -/

/-- A supervisor instruction issues with lanes. -/
def supervises (i : Instr) (o : PrivOp) (s : State) : Prop :=
  issuable i s = true ∧ s.cur.gslot = Config.supervisorSlot ∧ s.me.active s.mySlot.mask o.g ≠ 0

/-- It completes: the slot goes on, and the destination, if there is one, holds `x`. -/
def privGives (i : Instr) (o : PrivOp) (s : State) (x : Word) (also : State → Prop) : Prop :=
  ∃ t, exec i s = .next t ∧ slotWentOn i s t ∧ (∀ n, o.d = some n → t.me.sreg n.toNat = x) ∧ also t

/-- The team at an index of a core has left it and stands saved (R126). -/
def hasLeft (s t : State) (c n : Nat) : Prop :=
  t.hasTeam c n = false ∧ ∃ x ∈ t.saved, x.launch = (s.team c n).launch ∧ x.tid = (s.team c n).tid
    ∧ x.asid = (s.team c n).asid ∧ x.halts = (s.team c n).halts

/-- Some team stands on the core that did not before. -/
def hasCome (s t : State) (c : Nat) : Prop := ∃ n, n < 64 ∧ s.hasTeam c n = false ∧ t.hasTeam c n = true

/-- No team that stands saved was killed there (R165). -/
def noneKilled (s : State) : Prop := ∀ x ∈ s.saved, x.killed = false

/-- A team that may begin to leave: it is here, is not leaving already, is in no dump, and its record could be written. -/
def mayLeave (s : State) (c n : Nat) : Prop :=
  n < 64 ∧ s.hasTeam c n = true ∧ (s.team c n).moving = false ∧ (s.team c n).dumped = false ∧ (s.team c n).unsaved = false

/-- The teams that a `halt` names (R143). -/
def halted (s : State) (o : PrivOp) (t : Nat) : Prop :=
  s.hasTeam s.cur.core t = true ∧
    (if o.fn.toNat < 2 then (s.me.opt o.a).toNat = t ∧ t < 64
     else ∃ x, (t, x) ∈ (s.core s.cur.core).teams ∧ x.asid = ((s.me.opt o.a).extractLsb' 0 16).toNat)

/-- A parked entry that stands in a slot, claimed and not made by a refused frame. -/
def claimed (s : State) (c i : Nat) : Prop :=
  (s.entry c i).state = .inService ∧ ((s.entry c i).place = .slot0 ∨ (s.entry c i).place = .slot1)
    ∧ (s.entry c i).frame = none ∧ (s.entry c i).pend = none

/-- The slot of a parked entry that stands in one. -/
def slotOf (s t : State) (c i : Nat) : Slot :=
  (t.group c (s.entry c i).gslot).slot (if (s.entry c i).place = .slot1 then 1 else 0)

/-- A step of the device leaves the state `f s`. -/
def steps (i : Instr) (s t : State) : Prop := wellFormed i = true ∧ exec i s = .next t

/-- Spans of memory of this device or of the host that do not meet. -/
def spansApart (l : List (Nat × Nat)) : Prop :=
  (∀ x ∈ l, x.1 + x.2 ≤ peerBase ∨ hostBase ≤ x.1) ∧ l.Pairwise fun x y => x.1 + x.2 ≤ y.1 ∨ y.1 + y.2 ≤ x.1

/-- The id of a trace record: a scalar, or IMM32 extended with zeros (R178). -/
def traceId (s : State) (id : Src) (x : Ext) : Word :=
  match id with
  | .s n => s.me.sreg n.toNat
  | _ => (imm32 x).setWidth 64

/-- The trace ring of the issuing group's context has room for `n` units, none was dropped before, and the ring lies in
memory of this device or of the host. -/
def traceRoom (s : State) (n : Nat) : Prop :=
  let d := (s.ctx s.me.asid).dbg
  let size := 2 ^ (d.trcfg.extractLsb' 0 5).toNat
  d.trcfg.getLsbD 8 = true ∧ d.dropped = 0 ∧ (d.trprod - d.trcons).toNat + n ≤ size
    ∧ spansApart [(d.trbase.toNat, 64 * size)]

/-- Unit `k` from TRPROD on. -/
def traceUnit (s : State) (k : Nat) : Nat :=
  let d := (s.ctx s.me.asid).dbg
  d.trbase.toNat + 64 * ((d.trprod.toNat + k) % 2 ^ (d.trcfg.extractLsb' 0 5).toNat)

/-- The head of a record of the issuing slot stands in the ring (Table 8-4). -/
def traced (s t : State) (kind : Nat) (aux : Word) (act : Mask) : Prop :=
  let p := traceUnit s 0
  t.read64 p = BitVec.ofNat 64 s.time ∧ t.read64 (p + 8) = s.myTeam.launch ∧ t.read64 (p + 16) = s.mySlot.pc
    ∧ t.read64 (p + 24) = aux ∧ t.read32 (p + 32) = BitVec.ofNat 32 s.myTeam.tid ∧ t.read32 (p + 40) = act
    ∧ t.readByte (p + 44) = BitVec.ofNat 8 kind ∧ t.readByte (p + 45) = BitVec.ofNat 8 s.me.number
    ∧ t.readByte (p + 47) = BitVec.ofNat 8 s.cur.core

/-- A RUNNING operation whose next unit is at its engine. -/
def atEngine (s : State) (c e : Nat) (op : Op) (checked : Bool) : Prop :=
  c < 192 ∧ e < 256 ∧ s.op? c e = some op ∧ op.state = .running ∧ op.unit = (if checked then .checked else .idle)

/-- The cursor has advanced by `n` units, of which `m` are counted, and the last unit ends the operation DONE (R268). -/
def advanced (t : State) (c e : Nat) (op : Op) (n m : Nat) : Prop :=
  ∃ q, t.op? c e = some q ∧ q.cursor = op.cursor + n ∧ q.delivered = op.delivered + m
    ∧ q.state = if op.units ≤ op.cursor + n then .done else .running

/-- The packet of a queue under a sequence number, in each of its records. -/
def packetIs (t : State) (q : Nat) (seq : BitVec 32) (p : Packet → Prop) : Prop :=
  (∃ y ∈ (t.queue q).packets, y.seq = seq) ∧ ∀ y ∈ (t.queue q).packets, y.seq = seq → p y

/-- The steps that reach the device through the BAR pages (R165, R326, R348, R386). -/
def overBar : Instr → Bool
  | .dumpreq .. | .sstepreq .. | .portRetire .. | .portRetrain .. | .routeDownSet .. | .routeDownClear .. | .domidWrite ..
  | .gsparmArm .. | .gsparmDisarm .. | .gspabandon .. | .swapreqOut .. | .swapreqIn .. | .releaseTeams .. | .killTeams ..
  | .ctxctlCreate .. | .ctxctlDestroy .. | .crwinWrite .. | .depvalWrite .. | .depownWrite .. | .carveWrite ..
  | .attestationRequest .. | .managementImageUpdate .. | .coresvcDrain .. | .coresvcResume .. | .coresvcFwload ..
  | .coresvcRecal .. | .hbmretRetire .. | .hbmretReadmit .. | .qctlEnable .. | .qctlPause .. | .qctlResume ..
  | .qctlDisable .. | .notify .. | .registerWrite .. | .resolve .. | .tokresolveResume .. | .tokresolveCancel .. => true
  | _ => false

/-- A queue whose engine looks anew: what it has asked for and received of its next slot before counts no more (R146). -/
def looksAnew (s : State) (q : Nat) : State :=
  (s.disown fun o => match o with | .queue q' j _ => q' == q && j == lookJob | _ => false).onQueue q
    fun x => x.over lookJob

/-- A team of a launch stands on a core as R38, R51, R154 and R201 say a dispatched team does. -/
def dispatched (t : State) (l : Launch) (c lin stage : Nat) (words : List Word) : Prop :=
  ∃ n, n < 64 ∧ t.hasTeam c n = true ∧
    let m := t.team c n
    m.launch = l.id ∧ m.tid = lin * l.stages + stage ∧ m.stage = stage ∧ m.x = lin % l.x ∧ m.y = lin / l.x % l.y
      ∧ m.z = lin / (l.x * l.y) ∧ m.spad = [] ∧ m.tags = [] ∧ m.spadBytes = 1024 * field l.words 5 48 16
      ∧ ∀ k, k < l.groups → ∃ g, g < 64 ∧
        let x := t.group c g
        x.live = true ∧ x.team = n ∧ x.number = k ∧ x.privileged = false ∧ x.pool = field l.words 5 32 16
          ∧ slotIs x.slot0 (l.words.getD 2 0) noRcv (BitVec.allOnes 32) ∧ x.slot1.state = .empty ∧ x.depth = 0
          ∧ (∀ r i, i < 32 → x.vreg r i = 0) ∧ (∀ j w, words[j]? = some w → x.sreg j = w)
          ∧ (∀ i, i < 32 → x.stk i = BitVec.ofNat 64
              ((l.words.getD 6 0).toNat + (lin * l.stages + stage) * (1024 * 2 ^ field l.words 7 0 8 + 262144)
                + (32 * k + i + 1) * 2 ^ field l.words 7 0 8))

/-- A half stands in a region's replica as one more: each value and the weight have grown by it. -/
def halfAdded (s t : State) (r : Region) (vals : List Word) (w : Word) : Prop :=
  (∀ j, j < 512 → t.slotVal r j = s.slotVal r j + vals.getD j 0) ∧ t.weight r = s.weight r + w

/-- The replica and the descriptor of region `i` lie in memory of this device or of the host and do not meet. -/
def regionApart (s : State) (i : Nat) : Prop :=
  spansApart [((s.region i).frame, 8192), (s.gspBase + 256 * i, 256)] ∧ (s.region i).nb.length ≤ 8

/-- Nothing of region `i` waits unanswered. -/
def noneWaits (s : State) (i : Nat) : Prop := ∀ h ∈ s.waitingHalves, h.region ≠ i

/-! ### Words of the launch rules -/

/-- The address of word `k` of the record that the `j`-th lane of a `launch` appends (R162, R163). -/
def ringVa (s : State) (a : Nat) (tmpl : Word) (ws : List Word) (j k : Nat) : Word :=
  let pos := match s.openOf a tmpl with
    | some o => (o.start + o.count + j) % field o.words 4 0 32
    | none => if j = 0 then (s.ringUsed a tmpl).2 else ((s.ringUsed a tmpl).2 + j) % field ws 4 0 32
  ws.getD 3 0 + BitVec.ofNat 64 (8 * field ws 5 16 8 * pos) + BitVec.ofNat 64 (8 * k)

/-- The issuing core holds the translation of an address, of a page of this device or of the host that has been written,
and the address may be written at `w`. -/
def ringPage (s : State) (va : Word) (w : Where) : Prop :=
  let a := s.agent s.cur.core s.cur.gslot s.cur.slot
  isPeer w.pa = false ∧ (s.spotOf .g va 8 8 .write .store).2 = .ok (.mem w)
    ∧ ∃ l, (s.core s.cur.core).tlb.find? (tlbKey a.asid va) = some l ∧ l.root = s.ptroot a ∧ l.entry &&& 0x60 = 0x60

/-! ### Words of the decoder and the step -/

/-- The OPs that Table 2-9 assigns. -/
def assignedOps : List Nat :=
  (List.range 0x1C) ++ (List.range 0x11).map (0x20 + ·) ++ (List.range 5).map (0x40 + ·)
    ++ (List.range 12).map (0x50 + ·) ++ (List.range 11).map (0x60 + ·) ++ (List.range 10).map (0x80 + ·)
    ++ (List.range 8).map (0x90 + ·) ++ (List.range 9).map (0xA0 + ·) ++ (List.range 4).map (0xB0 + ·)
    ++ (List.range 5).map (0xC0 + ·) ++ (List.range 7).map (0xC8 + ·) ++ (List.range 7).map (0xD0 + ·)
    ++ (List.range 14).map (0xE0 + ·) ++ (List.range 3).map (0xF0 + ·)

/-- Words of the encoding tables of 02, 04, 05, 06, 07, 08, 09, 12, 13, 14, 15, 18 and 20: bits, word, instruction. -/
def tableWords : List (Nat × Nat × Instr) :=
  [(96, 0x00000005B0000E0628428036, .shl ⟨.always, .u64, (), .s 10, .s 10, .imm, .i 5⟩),
   (128, 0x00000068000000680628000000000147, .brx ⟨.on true 20 0, 0x68, 0x68⟩),
   (64, 0x5000004820428091, .fdiv ⟨.always, .f32, .rne, .v 10, .v 8, .v 9, .a⟩),
   (96, 0x018000002800001004414412, .imad ⟨.always, .s32, true, .v 5, .v 1, .v 2, .s (.v 3) 0⟩),
   (64, 0x58000000007E0359, .rdsr .always (.v 248) .stack),
   (64, 0x30000000F84F054D, .callIndirect 60 (.v 62)),
   (64, 0x3000000E14000395, .wrcr ⟨.always, true, 1, .none false, .s 5⟩),
   (64, 0x0000000000000389, .sigret .always),
   (64, 0x3000006610428349, .launch .always (some 10) 4 12),
   (96, 0x0000000780000007004307CA,
     .rdctr .always true (.s 12) .imm (.i 7))] ++
  [(64, 0x30000C562D07885D, .icmp ⟨.always, .u64, .lt, 30, 4, .s 11, .s 10, .a⟩),
   (64, 0x643C100034420181, .ld ⟨.on false 30 1, .s, .b128, (), .v 8, .v 13, .v 0, .a⟩),
   (96, 0x0000000140000E0610000212, .barInit ⟨.always, false, none, .s 4, .imm, .i 1⟩),
   (128, 0x0000000800002B5980000CC654468643,
     .cpy ⟨.always, some 26, 21, 24, .g, .s, 0, false, false, 0, .barrier, none, none, none, some 22, some 25⟩),
   (64, 0x8000000668414681, .tokWait ⟨.always, 1, some 5, 26, 0⟩),
   (96, 0x00000040143C5DEE1800019E, .atom ⟨.on false 30 5, .g, .b32, .add, .none false, .s 6, .s 61, .i 0x40⟩)] ++
  [(128, 0x000000001080000080000000004642C3,
     .mma ⟨.always, some 25, 0, none, none, 0, false, false, 0, .none, 2, 0, 1, none, none, none⟩),
   (64, 0x08000C4810414105, .cvtq ⟨.always, .e4m3, .h16, .v 5, .v 4, .s 9, .a⟩),
   (64, 0x343C002008000301, .gspInj ⟨.on false 30 0, false, .none false, .v 2, .v 4, .a⟩),
   (64, 0x3000002038C50325, .strEq ⟨.always, .u64, (), 20, 3, .v 14, .v 4, .a⟩)]

/-- The fetch of the slot in hand answers bytes that decode to `i`: the state in which `i` executes. A fetch that a watch
register stops answers none. -/
def fetches (s : State) (i : Instr) (s' : State) : Prop :=
  ∃ bs, s.fetchAt (s.agent s.cur.core s.cur.gslot s.cur.slot) s.myTeam.tid s.mySlot.pc = (s', .ok bs) ∧ decode bs = .ok i

/-- A step of `s` is `i` executed in `s'`, and then what follows every change (R44, R131). -/
def stepIs (s : State) (i : Instr) (s' : State) : Prop :=
  step s = match exec i s' with
    | .next u => .next u.settled
    | r => r

/-- The fetch answers bytes that decode to nothing (R12, R29, R31). -/
def fetchesNone (s s' : State) : Prop :=
  ∃ bs x, s.fetchAt (s.agent s.cur.core s.cur.gslot s.cur.slot) s.myTeam.tid s.mySlot.pc = (s', .ok bs)
    ∧ decode bs = .error x

/-- A step of `s` parks the whole slot with ILLEGAL_INSTR; in the supervisor group it leaves the core faulted (R30, R116). -/
def stepParks (s s' : State) : Prop :=
  ∃ u, step s = .next u.settled
    ∧ (s'.mySlot.mask ≠ 0 → canTrap s'.mySlot.mask s' →
        trapped (.nop .always) s'.mySlot.mask Cause.illegal (fun _ => 0) s' u)
    ∧ (s'.cur.gslot = Config.supervisorSlot → (u.core s'.cur.core).faulted = true)

/-- The slot of core `c` is in hand. -/
def inHand (s : State) (c g n : Nat) : State := { s with cur := ⟨c, g, n⟩ }

/-- It issues: nothing that it asked for before is part of its instruction. -/
def issuing (s : State) (c g n : Nat) : State := (inHand s c g n).onMySlot fun x => { x with asked := s.nextTag }

end Sys2Proof.Statements

open Sys2Proof Forms Machine Statements

/-! ### Integer, bit, compare, select, move and address instructions (04 R69 to R81) -/

/-- R69: the add family writes the exact result, reduced modulo 2^w or clamped first, and changes nothing else.
R70: the low and the high half of the exact product. -/
def Obligations.AddAndMultiply : Prop :=
  ∀ s : State,
    (∀ o, issuable (.iadd o) s = true → givesLanes (.iadd o) o.g o.d (regBits o.ty)
      (fun l => addFamily o.ty o.f (valueOf o.ty (opBits s o l o.a) + valueOf o.ty (opBits s o l o.b))) s)
    ∧ (∀ o, issuable (.isub o) s = true → givesLanes (.isub o) o.g o.d (regBits o.ty)
      (fun l => addFamily o.ty o.f (valueOf o.ty (opBits s o l o.a) - valueOf o.ty (opBits s o l o.b))) s)
    ∧ (∀ o, issuable (.imad o) s = true → givesLanes (.imad o) o.g o.d (regBits o.ty)
      (fun l => addFamily o.ty o.f (valueOf o.ty (opBits s o l o.a) * valueOf o.ty (opBits s o l o.b)
        + valueOf o.ty (opThird s o l))) s)
    ∧ (∀ o, issuable (.iabs o) s = true → givesLanes (.iabs o) o.g o.d (regBits o.ty)
      (fun l => addFamily o.ty o.f |valueOf o.ty (opBits s o l o.a)|) s)
    ∧ (∀ o, issuable (.ineg o) s = true → givesLanes (.ineg o) o.g o.d (regBits o.ty)
      (fun l => addFamily o.ty o.f (-valueOf o.ty (opBits s o l o.a))) s)
    ∧ (∀ o, issuable (.imulLo o) s = true → givesLanes (.imulLo o) o.g o.d (regBits o.ty)
      (fun l => widen o.ty (opBits s o l o.a * opBits s o l o.b)) s)
    ∧ (∀ o, issuable (.imulHi o) s = true → givesLanes (.imulHi o) o.g o.d (regBits o.ty)
      (fun l => widen o.ty (BitVec.ofInt (valBits o.ty)
        (valueOf o.ty (opBits s o l o.a) * valueOf o.ty (opBits s o l o.b) / 2 ^ valBits o.ty))) s)

/-- R71 and R72: the lesser, the greater and the bitwise operations over w bits.
R73: a shift of w or more clears the result of `shl` and `shr` and leaves copies of the sign for `sra`; `rotl`
turns modulo w.
R74 and R75: fields, counts of bits and their reversal. That `brev` of a signed type is extended with zeros is the
model's reading (log 51). -/
def Obligations.BitOperations : Prop :=
  ∀ (s : State) (o : Alu Unit),
    (issuable (.imin o) s = true → givesLanes (.imin o) o.g o.d (regBits o.ty)
      (fun l => let a := opBits s o l o.a; let b := opBits s o l o.b
        widen o.ty (if valueOf o.ty a ≤ valueOf o.ty b then a else b)) s)
    ∧ (issuable (.imax o) s = true → givesLanes (.imax o) o.g o.d (regBits o.ty)
      (fun l => let a := opBits s o l o.a; let b := opBits s o l o.b
        widen o.ty (if valueOf o.ty a ≤ valueOf o.ty b then b else a)) s)
    ∧ (issuable (.iand o) s = true → givesLanes (.iand o) o.g o.d (regBits o.ty)
      (fun l => widen o.ty (opBits s o l o.a &&& opBits s o l o.b)) s)
    ∧ (issuable (.ior o) s = true → givesLanes (.ior o) o.g o.d (regBits o.ty)
      (fun l => widen o.ty (opBits s o l o.a ||| opBits s o l o.b)) s)
    ∧ (issuable (.ixor o) s = true → givesLanes (.ixor o) o.g o.d (regBits o.ty)
      (fun l => widen o.ty (opBits s o l o.a ^^^ opBits s o l o.b)) s)
    ∧ (issuable (.inot o) s = true → givesLanes (.inot o) o.g o.d (regBits o.ty)
      (fun l => widen o.ty (~~~ opBits s o l o.a)) s)
    ∧ (issuable (.shl o) s = true → givesLanes (.shl o) o.g o.d (regBits o.ty)
      (fun l => widen o.ty (opBits s o l o.a <<< (opBits s o l o.b).toNat)) s)
    ∧ (issuable (.shr o) s = true → givesLanes (.shr o) o.g o.d (regBits o.ty)
      (fun l => widen o.ty (opBits s o l o.a >>> (opBits s o l o.b).toNat)) s)
    ∧ (issuable (.sra o) s = true → givesLanes (.sra o) o.g o.d (regBits o.ty)
      (fun l => widen o.ty ((opBits s o l o.a).sshiftRight (opBits s o l o.b).toNat)) s)
    ∧ (issuable (.rotl o) s = true → givesLanes (.rotl o) o.g o.d (regBits o.ty)
      (fun l => widen o.ty ((opBits s o l o.a).rotateLeft (opBits s o l o.b).toNat)) s)
    ∧ (issuable (.bfe o) s = true → givesLanes (.bfe o) o.g o.d (regBits o.ty)
      (fun l => let c := s.me.control l o.x; let k := fieldLen (valBits o.ty) c
        let field := ((opBits s o l o.a) >>> (c.extractLsb' 0 8).toNat).setWidth k
        widen o.ty (if isSigned o.ty then field.signExtend (valBits o.ty) else field.setWidth (valBits o.ty))) s)
    ∧ (issuable (.bfi o) s = true → givesLanes (.bfi o) o.g o.d (regBits o.ty)
      (fun l => let c := s.me.control l o.x; let m := fieldMask (valBits o.ty) c
        widen o.ty ((opBits s o l o.a &&& ~~~ m) ||| ((opBits s o l o.b <<< (c.extractLsb' 0 8).toNat) &&& m))) s)
    ∧ (issuable (.popc o) s = true → givesLanes (.popc o) o.g o.d (regBits o.ty)
      (fun l => widen o.ty (BitVec.ofNat _
        ((List.range (valBits o.ty)).filter (fun i => (opBits s o l o.a).getLsbD i)).length)) s)
    ∧ (issuable (.clz o) s = true → givesLanes (.clz o) o.g o.d (regBits o.ty)
      (fun l => widen o.ty (BitVec.ofNat _
        ((List.range (valBits o.ty)).takeWhile (fun i => !(opBits s o l o.a).getMsbD i)).length)) s)
    ∧ (issuable (.ctz o) s = true → givesLanes (.ctz o) o.g o.d (regBits o.ty)
      (fun l => widen o.ty (BitVec.ofNat _
        ((List.range (valBits o.ty)).takeWhile (fun i => !(opBits s o l o.a).getLsbD i)).length)) s)
    ∧ (issuable (.brev o) s = true → givesLanes (.brev o) o.g o.d (regBits o.ty)
      (fun l => (opBits s o l o.a).reverse.setWidth 128) s)

/-- R76 to R79 and R81: the compare writes its one bit; `sel`, `mov`, `movi` and `lea` write the values of their
rules. -/
def Obligations.CompareSelectMove : Prop :=
  ∀ s : State,
    (∀ o, issuable (.icmp o) s = true → givesBit (.icmp o) o.g o.reg o.bit
      (fun l => let a := (s.me.arg l o.ty o.x o.a).setWidth (valBits o.ty)
                let b := (s.me.arg l o.ty o.x o.b).setWidth (valBits o.ty)
        match o.f with
        | .eq => decide (a = b) | .ne => decide (a ≠ b)
        | .lt => decide (valueOf o.ty a < valueOf o.ty b) | .le => decide (valueOf o.ty a ≤ valueOf o.ty b)
        | .gt => decide (valueOf o.ty b < valueOf o.ty a) | .ge => decide (valueOf o.ty b ≤ valueOf o.ty a)
        | _ => false) s)
    ∧ (∀ o, issuable (.sel o) s = true → givesLanes (.sel o) o.g o.d (regBits o.ty)
      (fun l => s.me.src l (regBits o.ty) (selImm o.x)
        (if (s.me.control l o.x).getLsbD (selBit o.x) then o.a else o.b)) s)
    ∧ (∀ o, issuable (.mov o) s = true → givesLanes (.mov o) o.g o.d (regBits o.ty)
      (fun l => if o.ty = .b128 then s.me.arg l o.ty o.x o.a else widen o.ty (opBits s o l o.a)) s)
    ∧ (∀ o v, o.x = .i v → issuable (.movi o) s = true →
        givesLanes (.movi o) o.g o.d (regBits o.ty) (fun _ => v.setWidth 128) s)
    ∧ (∀ o v, o.x = .w v → issuable (.movi o) s = true →
        givesLanes (.movi o) o.g o.d 64 (fun _ => v.setWidth 128) s)
    ∧ (∀ o, issuable (.lea o) s = true → givesLanes (.lea o) o.g o.d 64
      (fun l => (s.me.src64 l o.a + BitVec.ofInt 64 (valueOf o.ty ((s.me.src l (regBits o.ty) 0 o.b).setWidth _))
        * BitVec.twoPow 64 o.f.toNat + (imm32 o.x).signExtend 64).setWidth 128) s)

/-! ### Floating-point instructions and conversion (04 R58 to R66, R82 to R89) -/

/-- R64 and R82: where no enabled exception is raised, the arithmetic instructions write each element's result and add
its exceptions to the lane's sticky flags, and nothing else changes. -/
def Obligations.FloatArithmetic : Prop :=
  ∀ (s : State) (o : Alu Rm),
    floatGives (.fadd o) o s (fun l k => (fmtOf o.ty).add o.f (fpA s o l k) (fpB s o l k))
    ∧ floatGives (.fsub o) o s (fun l k => (fmtOf o.ty).sub o.f (fpA s o l k) (fpB s o l k))
    ∧ floatGives (.fmul o) o s (fun l k => (fmtOf o.ty).mul o.f (fpA s o l k) (fpB s o l k))
    ∧ floatGives (.ffma o) o s (fun l k => (fmtOf o.ty).fma o.f (fpA s o l k) (fpB s o l k) (fpC s o l k))
    ∧ floatGives (.fdiv o) o s (fun l k => (fmtOf o.ty).div o.f (fpA s o l k) (fpB s o l k))
    ∧ floatGives (.fsqrt o) o s (fun l k => (fmtOf o.ty).sqrt o.f (fpA s o l k))
    ∧ floatGives (.frcp o) o s (fun l k => (fmtOf o.ty).rcp o.f (fpA s o l k))
    ∧ floatGives (.frsqrt o) o s (fun l k => (fmtOf o.ty).rsqrt o.f (fpA s o l k))
    ∧ floatGives (.fexp2 o) o s (fun l k => (fmtOf o.ty).exp2 o.f (fpA s o l k))
    ∧ floatGives (.flog2 o) o s (fun l k => (fmtOf o.ty).log2 o.f (fpA s o l k))

/-- R83, R84, R86 to R89: minimum and maximum, sign operations, class masks, rounding to integral and conversion. -/
def Obligations.FloatOther : Prop :=
  ∀ s : State,
    (∀ o, floatGives (.fmin o) o s (fun l k => (fmtOf o.ty).minmax false (fpA s o l k) (fpB s o l k)))
    ∧ (∀ o, floatGives (.fmax o) o s (fun l k => (fmtOf o.ty).minmax true (fpA s o l k) (fpB s o l k)))
    ∧ (∀ o, floatGives (.frnd o) o s (fun l k => (fmtOf o.ty).integral o.f (fpA s o l k)))
    ∧ (∀ o, issuable (.fabs o) s = true → givesLanes (.fabs o) o.g o.d (regBits o.ty)
        (fun l => s.me.arg l o.ty o.x o.a &&& ~~~ signs o.ty) s)
    ∧ (∀ o, issuable (.fneg o) s = true → givesLanes (.fneg o) o.g o.d (regBits o.ty)
        (fun l => s.me.arg l o.ty o.x o.a ^^^ signs o.ty) s)
    ∧ (∀ o, issuable (.fclass o) s = true → givesLanes (.fclass o) o.g o.d 32
        (fun l => BitVec.twoPow 128 ((fmtOf o.ty).classBit (fpA s o l 0))
          ||| (if packed o.ty then BitVec.twoPow 128 (16 + (fmtOf o.ty).classBit (fpA s o l 1)) else 0)) s)
    ∧ (∀ o, issuable (.cvt o) s = true →
        quietLanes o.g (fun l => cvtValue o.ty o.f (cvtMode o.x) (s.me.src l (regBits o.f) 0 o.a)) s →
        givesFloat (.cvt o) o.g o.d (regBits o.ty)
          (fun l => cvtValue o.ty o.f (cvtMode o.x) (s.me.src l (regBits o.f) 0 o.a)) s)

/-- R85: `fcmp` writes one bit and adds its exceptions to the flags; with a NaN input the ordered conditions fail, `ne`
and `uno` hold, the four orderings raise invalid and the others raise it for a signalling NaN alone. -/
def Obligations.FloatCompare : Prop :=
  (∀ (s : State) (o : BitOp Cond),
    let f := fun l => (fmtOf o.ty).cmp o.f (elemOf o.ty 0 (s.me.arg l o.ty o.x o.a)) (elemOf o.ty 0 (s.me.arg l o.ty o.x o.b))
    issuable (.fcmp o) s = true → quietLanes o.g (fun l => (0, (f l).2)) s →
      ∃ t, exec (.fcmp o) s = .next t ∧ s.wentOn t (s.nextPc (.fcmp o))
        ∧ (∀ l, l < 32 → s.activeLane o.g l = true → (t.me.vreg o.reg.toNat l).getLsbD o.bit.toNat = (f l).1)
        ∧ (∀ l k, l < 32 → k ≠ o.bit.toNat →
            (t.me.vreg o.reg.toNat l).getLsbD k = (s.me.vreg o.reg.toNat l).getLsbD k)
        ∧ flagsAdded o.g (fun l => (0, (f l).2)) s t
        ∧ s.me.onlyDst { t.me with fpflags := s.me.fpflags } (.v o.reg) 32 (s.activeLane o.g) ∧ s.elsewhereSame t)
  ∧ (∀ (ty : Ty) (c : Cond) (x y : Nat), isFloat ty = true →
      ((fmtOf ty).read x).isNan = true ∨ ((fmtOf ty).read y).isNan = true →
      ((fmtOf ty).cmp c x y).1 = (c == .ne || c == .uno)
        ∧ ((fmtOf ty).cmp c x y).2 =
            if ([Cond.lt, .le, .gt, .ge].contains c) || ((fmtOf ty).read x).isSnan || ((fmtOf ty).read y).isSnan
            then invalid else noExc)

/-- R60: a NaN result is the default NaN, and a signalling NaN among the inputs raises invalid.
Table 4-7: what the invalid and the divide-by-zero cases give, in every format and mode. -/
def Obligations.FloatSpecials : Prop :=
  (∀ (ty dst : Ty) (rm : Rm) (g : Bool) (c : Cond) (lo hi : Int) (x y z : Nat), isFloat ty = true → isFloat dst = true →
    let m := fmtOf ty
    let only := fun (m : Fmt) (r : Nat × Exc) => (m.read r.1).isNan = true → r.1 = m.nan
    only m (m.add rm x y) ∧ only m (m.sub rm x y) ∧ only m (m.mul rm x y) ∧ only m (m.fma rm x y z)
    ∧ only m (m.div rm x y) ∧ only m (m.sqrt rm x) ∧ only m (m.rcp rm x) ∧ only m (m.rsqrt rm x)
    ∧ only m (m.exp2 rm x) ∧ only m (m.log2 rm x) ∧ only m (m.minmax g x y) ∧ only m (m.integral rm x)
    ∧ only (fmtOf dst) (m.convert (fmtOf dst) rm x)
    ∧ ((m.read x).isSnan = true →
        (m.sqrt rm x).2 = invalid ∧ (m.rcp rm x).2 = invalid ∧ (m.rsqrt rm x).2 = invalid
        ∧ (m.exp2 rm x).2 = invalid ∧ (m.log2 rm x).2 = invalid ∧ (m.integral rm x).2 = invalid
        ∧ (m.convert (fmtOf dst) rm x).2 = invalid ∧ (m.toInt rm lo hi x).2 = invalid)
    ∧ ((m.read x).isSnan = true ∨ (m.read y).isSnan = true →
        (m.add rm x y).2 = invalid ∧ (m.sub rm x y).2 = invalid ∧ (m.mul rm x y).2 = invalid
        ∧ (m.div rm x y).2 = invalid ∧ (m.minmax g x y).2 = invalid ∧ (m.cmp c x y).2 = invalid)
    ∧ ((m.read x).isSnan = true ∨ (m.read y).isSnan = true ∨ (m.read z).isSnan = true →
        (m.fma rm x y z).2 = invalid))
  ∧ ∀ (ty : Ty) (rm : Rm) (a b : Bool) (x n : Nat) (e : Int), isFloat ty = true →
    let m := fmtOf ty
    m.add rm (m.inf a) (m.inf b) = (if a = b then (m.inf a, noExc) else (m.nan, invalid))
    ∧ m.mul rm (m.zero a) (m.inf b) = (m.nan, invalid)
    ∧ m.fma rm (m.zero a) (m.inf b) m.nan = (m.nan, invalid)
    ∧ m.div rm (m.zero a) (m.zero b) = (m.nan, invalid) ∧ m.div rm (m.inf a) (m.inf b) = (m.nan, invalid)
    ∧ (m.read x = .num a n e → n ≠ 0 → m.div rm x (m.zero b) = (m.inf (a != b), divZero)
        ∧ m.div rm x (m.inf b) = (m.zero (a != b), noExc) ∧ m.div rm (m.inf b) x = (m.inf (b != a), noExc)
        ∧ (a = true → m.sqrt rm x = (m.nan, invalid) ∧ m.rsqrt rm x = (m.nan, invalid)
            ∧ m.log2 rm x = (m.nan, invalid)))
    ∧ m.sqrt rm (m.zero a) = (m.zero a, noExc) ∧ m.sqrt rm (m.inf true) = (m.nan, invalid)
    ∧ m.sqrt rm (m.inf false) = (m.inf false, noExc)
    ∧ m.rcp rm (m.zero a) = (m.inf a, divZero) ∧ m.rcp rm (m.inf a) = (m.zero a, noExc)
    ∧ m.rsqrt rm (m.zero a) = (m.inf a, divZero) ∧ m.rsqrt rm (m.inf false) = (m.zero false, noExc)
    ∧ m.log2 rm (m.zero a) = (m.inf true, divZero) ∧ m.log2 rm (m.inf false) = (m.inf false, noExc)
    ∧ m.exp2 rm (m.inf true) = (m.zero false, noExc) ∧ m.exp2 rm (m.inf false) = (m.inf false, noExc)

/-- R320 to R323: quantizing, expanding, the transform and the block scale. -/
def Obligations.NarrowFormats : Prop :=
  ∀ (s : State) (o : Narrow),
    (issuable (.cvtq o) s = true → givesLanes (.cvtq o) o.g o.d 32
      (fun l => BitVec.ofNat 128 (quantCode o.fmt (trVal o.tr (s.me.fp32At o.a) l) ((s.me.src l 32 0 o.b).toNat % 256))) s)
    ∧ (issuable (.cvtx o) s = true → givesLanes (.cvtx o) o.g o.d 32
      (fun l => BitVec.ofNat 128 (toFp32 (narrowVal o.fmt
        (packedElem o.fmt (s.me.src l 32 0 o.a).toNat (s.me.src32 l o.x o.b).toNat)))) s)
    ∧ (issuable (.sclFind o) s = true → givesLanes (.sclFind o) o.g o.d 32
      (fun l => BitVec.ofNat 128 (scaleCode o.fmt
        ((List.range 16).map fun k => trVal o.tr (s.me.fp32At o.a) (l - l % 16 + k)))) s)
    ∧ (issuable (.hadm o) s = true → quietLanes o.g (fun l => hadmValue o.tr (s.me.fp32At o.a) l) s →
        givesFloat (.hadm o) o.g o.d 32 (fun l => hadmValue o.tr (s.me.fp32At o.a) l) s)

/-- R58, R59, R82, R87 to R89: the results of finite operands are exact ones rounded once, in every format and mode, with
the exceptions of R61: of sums, products, quotients, roots and their reciprocals; of `fexp2` at the integers and `flog2` at the
powers of two, whose other results are read as log 10 says; of conversions; and `frnd` gives the integer of the mode with the
operand's sign. -/
def Obligations.RoundedOnce : Prop :=
  (∀ (ty : Ty) (rm : Rm) (x y z : Nat) (a b c : Bool) (na nb nc : Nat) (ea eb ec : Int), isFloat ty = true →
    let m := fmtOf ty
    let va : ℝ := valOf (m.read x)
    let vb : ℝ := valOf (m.read y)
    let vc : ℝ := valOf (m.read z)
    m.read x = .num a na ea → m.read y = .num b nb eb → m.read z = .num c nc ec →
    roundedOnce m rm (va + vb) (if a = b then a else rm == .rdn) (m.add rm x y)
    ∧ roundedOnce m rm (va - vb) (if a ≠ b then a else rm == .rdn) (m.sub rm x y)
    ∧ roundedOnce m rm (va * vb) (a != b) (m.mul rm x y)
    ∧ roundedOnce m rm (va * vb + vc) (if (a != b) = c then c else rm == .rdn) (m.fma rm x y z)
    ∧ (nb ≠ 0 → roundedOnce m rm (va / vb) (a != b) (m.div rm x y))
    ∧ (na ≠ 0 → roundedOnce m rm (1 / va) a (m.rcp rm x))
    ∧ (na ≠ 0 → a = false → roundedOnce m rm (Real.sqrt va) false (m.sqrt rm x)
        ∧ roundedOnce m rm (1 / Real.sqrt va) false (m.rsqrt rm x))
    ∧ (∀ k : ℤ, va = k → roundedOnce m rm ((2 : ℝ) ^ k) false (m.exp2 rm x))
    ∧ (∀ k : ℤ, va = (2 : ℝ) ^ k → roundedOnce m rm k false (m.log2 rm x))
    ∧ (m.integral rm x).2 = noExc
    ∧ roundsTo rm isInteger isEven va (valOf (m.read (m.integral rm x).1)) ∧ finite (m.read (m.integral rm x).1)
    ∧ signOf (m.read (m.integral rm x).1) = a)
  ∧ (∀ (dst src : Ty) (rm : Rm) (w : BitVec 128),
    let int := valueOf src (w.setWidth (valBits src))
    let v := (fmtOf src).read (elemOf src 0 w)
    let r := cvtValue dst src rm w
    let lo := (rangeOf dst).1
    let hi := (rangeOf dst).2
    (isInt src = true → isInt dst = true → r = (intResult dst (max lo (min hi int)), noExc))
    ∧ (isInt src = true → isFloat dst = true → roundedOnce (fmtOf dst) rm int false (r.1.toNat, r.2))
    ∧ (isFloat src = true → isFloat dst = true →
        (finite v → roundedOnce (fmtOf dst) rm (valOf v) (signOf v) (r.1.toNat, r.2))
        ∧ (∀ n, v = .inf n → r = (BitVec.ofNat 128 ((fmtOf dst).inf n), noExc)))
    ∧ (isFloat src = true → isInt dst = true →
        (v.isNan = true → r = (0, invalid))
        ∧ (∀ n, v = .inf n → r = (intResult dst (if n then lo else hi), invalid))
        ∧ (finite v → ∃ k : ℤ, roundsTo rm isInteger isEven (valOf v) k
            ∧ r = if k < lo then (intResult dst lo, invalid) else if hi < k then (intResult dst hi, invalid)
              else (intResult dst k, noExc))))

/-- R309, R310, R318 to R323: FP32 holds the value of every finite narrow code; the transform is exact, and `hadm` rounds it
once; `scl.find` gives the least scale that reaches the greatest value; `cvtq` rounds the exact quotient once and
saturates it; a k-step's product is the exact sum, rounded once before it is added. -/
def Obligations.NarrowRounding : Prop :=
  (∀ (f : NFmt) (x : Nat), x < 256 → finite (narrowVal f x) →
    finite (fp32.read (toFp32 (narrowVal f x))) ∧ valOf (fp32.read (toFp32 (narrowVal f x))) = valOf (narrowVal f x)
      ∧ signOf (fp32.read (toFp32 (narrowVal f x))) = signOf (narrowVal f x))
  ∧ (∀ (t : Tr) (x : Nat → FVal) (l : Nat), let n := (blockOf t).1
    (∀ m, m < n → finite (x (l - l % n + m))) →
    finite (trVal t x l) ∧ valOf (trVal t x l) = transformed t x l
      ∧ ∃ z, (z = true ↔ ∀ m, m < n → valOf (x (l - l % n + m)) = 0 ∧ (signOf (x (l - l % n + m)) != turned n l m) = true)
        ∧ roundedOnce fp32 .rne (transformed t x l : ℝ) z ((hadmValue t x l).1.toNat, (hadmValue t x l).2))
  ∧ (∀ (f : NFmt) (ys : List FVal), f ≠ .ue5m3 →
    ((∃ v ∈ ys, v.isNan = true) → scaleCode f ys = 0xFF)
    ∧ ((∀ v ∈ ys, v.isNan = false) → (∃ v ∈ ys, ∃ n, v = .inf n) → scaleCode f ys = 0xFE)
    ∧ ((∀ v ∈ ys, finite v) →
        ((∀ v ∈ ys, valOf v = 0) → scaleCode f ys = 0x78)
        ∧ ((∃ v ∈ ys, 114688 * greatestOf f < |valOf v|) → scaleCode f ys = 0xFE)
        ∧ ((∃ v ∈ ys, valOf v ≠ 0) → (∀ v ∈ ys, |valOf v| ≤ 114688 * greatestOf f) →
            scaleCode f ys < 0xFF ∧ (∀ v ∈ ys, |valOf v| ≤ valOf (narrowVal .ue5m3 (scaleCode f ys)) * greatestOf f)
            ∧ ∀ c, c < scaleCode f ys → ∃ v ∈ ys, valOf (narrowVal .ue5m3 c) * greatestOf f < |valOf v|)))
  ∧ (∀ (f : NFmt) (y : FVal) (scale : Nat), scale < 256 →
    let sv := narrowVal .ue5m3 scale
    let c := quantCode f y scale
    let q : ℚ := valOf y / valOf sv
    (y.isNan = true ∨ sv.isNan = true ∨ valOf sv = 0 → c = match f with | .e4m3 => 0x7F | .e5m2 => 0x7E | _ => 0)
    ∧ (∀ n, finite sv → valOf sv ≠ 0 → y = .inf n →
        (f = .e4m3 → c = if n then 0xFE else 0x7E) ∧ (f = .e5m2 → c = if n then 0xFC else 0x7C)
        ∧ (f = .int4 → c = if n then 8 else 7) ∧ (f = .int3 → c = if n then 4 else 3))
    ∧ (finite y → finite sv → valOf sv ≠ 0 →
        (∀ m : Fmt, (f = .e4m3 ∧ m = e4m3) ∨ (f = .e5m2 ∧ m = e5m2) →
          ∃ r : ℝ, roundsTo .rne (onGrid m) (onEven m) q r ∧ c < 256 ∧ finite (narrowVal f c)
            ∧ signOf (narrowVal f c) = signOf y
            ∧ (valOf (narrowVal f c) : ℝ) = max (-(greatestOf f : ℝ)) (min (greatestOf f : ℝ) r))
        ∧ (∀ w, (f = .int4 ∧ w = 4) ∨ (f = .int3 ∧ w = 3) →
          ∃ k : ℤ, roundsTo .rne isInteger isEven q k ∧ c < 2 ^ w
            ∧ valOf (narrowVal f c) = ((max (-(2 ^ (w - 1))) (min (2 ^ (w - 1) - 1) k) : ℤ) : ℚ))))
  ∧ (∀ (mode : Nat) (a b : Slice) (i j : Nat),
    let k := if mode = 0 ∨ mode = 7 then 16 else 32
    let terms := (List.range k).map fun x => ((factors mode a b i j x).map valOf).prod
    (∀ x, x < k → ∀ v ∈ factors mode a b i j x, finite v) →
    finite (dot mode a b i j) ∧ valOf (dot mode a b i j) = terms.sum
      ∧ ∃ z exc, roundedOnce fp32 .rne (terms.sum : ℚ) z (toFp32 (dot mode a b i j), exc)
        ∧ (z = true ↔ ∀ x, x < k → ((factors mode a b i j x).map valOf).prod = 0
            ∧ ((factors mode a b i j x).filter fun v => signOf v).length % 2 = 1))

/-! ### Control (05 R91 to R104, R108) -/

/-- R32, R92, R93, R95 and R101: jumps and branches take the whole slot to the target; `nop` and `yield` only advance
it, and after `yield` it has been ready since the next turn alone; `join` with every lane active goes to the reconvergence address, or advances where there is none. -/
def Obligations.JumpsAndNops : Prop :=
  ∀ s : State,
    (∀ o, issuable (.bra o) s = true →
      if s.me.active s.mySlot.mask o.g = 0 then onlyAdvances (.bra o) s
      else goesTo (.bra o) (s.mySlot.pc + o.d0.signExtend 64) s)
    ∧ (∀ o, issuable (.jmp o) s = true → goesTo (.jmp o) (s.mySlot.pc + o.d0.signExtend 64) s)
    ∧ (∀ g, issuable (.nop g) s = true → onlyAdvances (.nop g) s)
    ∧ (∀ g, issuable (.yield g) s = true → ∃ t, exec (.yield g) s = .next t ∧ s.wentOn t (s.nextPc (.yield g))
      ∧ t.mySlot.since = s.turn + 1 ∧ s.me.sameRegs t.me ∧ s.elsewhereSame t)
    ∧ (∀ g, issuable (.join g) s = true → s.me.active s.mySlot.mask g = s.mySlot.mask →
      goesTo (.join g) (if s.mySlot.rcv = noRcv then s.nextPc (.join g) else s.mySlot.rcv) s)

/-- R43: a `brx` that pushes nothing: the active lanes stand at the target and the others at the next instruction, both
with the new reconvergence address; one part alone keeps the slot. -/
def Obligations.BranchDivides : Prop :=
  ∀ (s : State) (o : Jump), issuable (.brx o) s = true → s.aloneInGroup = true →
    let r1 := s.mySlot.pc + o.d1.signExtend 64
    let act := s.me.active s.mySlot.mask o.g
    let rest := s.mySlot.mask &&& ~~~ act
    s.mySlot.rcv = noRcv ∨ s.mySlot.rcv = r1 →
    ∃ t, exec (.brx o) s = .next t ∧ t.cur = s.cur ∧ s.me.sameRegs t.me ∧ s.elsewhereSame t
      ∧ (if act = 0 then slotIs t.mySlot (s.nextPc (.brx o)) r1 rest
         else slotIs t.mySlot (s.mySlot.pc + o.d0.signExtend 64) r1 act)
      ∧ (if act = 0 ∨ rest = 0 then t.me.slot (other s.cur.slot) = s.me.slot (other s.cur.slot)
         else slotIs (t.me.slot (other s.cur.slot)) (s.nextPc (.brx o)) r1 rest)

/-- R92, R96 to R98: calls write the link pair, and every transfer takes the lanes that hold the target; without a trace
of the flow, nothing else changes. -/
def Obligations.CallsAndReturns : Prop :=
  ∀ s : State,
    (∀ link o, issuable (.call link o) s = true → ∃ t, exec (.call link o) s = .next t
      ∧ s.wentOn t (s.mySlot.pc + o.d0.signExtend 64)
      ∧ (∀ l, l < 32 → s.mySlot.mask.getLsbD l = true →
          t.me.vwide link.toNat l 64 = (s.nextPc (.call link o)).setWidth 128)
      ∧ (s.flowTraced = false → s.me.onlyDst t.me (.v link) 64 (fun l => s.mySlot.mask.getLsbD l) ∧ s.elsewhereSame t))
    ∧ (∀ link tg, issuable (.callIndirect link tg) s = true → canTransfer s tg →
        ∃ t, exec (.callIndirect link tg) s = .next t ∧ transferred s t tg
          ∧ (∀ l, l < 32 → (sameTarget s tg).getLsbD l = true →
              t.me.vwide link.toNat l 64 = (s.nextPc (.callIndirect link tg)).setWidth 128)
          ∧ (s.flowTraced = false →
              s.me.onlyDst t.me (.v link) 64 (fun l => (sameTarget s tg).getLsbD l) ∧ s.elsewhereSame t))
    ∧ (∀ tg, issuable (.ret tg) s = true → canTransfer s tg →
        ∃ t, exec (.ret tg) s = .next t ∧ transferred s t tg
          ∧ (s.flowTraced = false → s.me.sameRegs t.me ∧ s.elsewhereSame t))
    ∧ (∀ tg, issuable (.jmpIndirect tg) s = true → canTransfer s tg →
        ∃ t, exec (.jmpIndirect tg) s = .next t ∧ transferred s t tg ∧ s.me.sameRegs t.me ∧ s.elsewhereSame t)

/-- R51, R102 to R104 and R108: what `vote`, `shfl`, `elect` and `rdsr` write. -/
def Obligations.GroupInstructions : Prop :=
  ∀ s : State,
    (∀ o, issuable (.vote o) s = true →
      let act := s.me.active s.mySlot.mask o.g
      let one := fun l => (s.me.vreg o.a.toNat l).getLsbD o.bit.toNat
      givesLanes (.vote o) o.g (if o.scalar then .s (o.d.setWidth 6) else .v o.d) 32
        (fun _ => match o.kind with
          | .any => if (lanes act).any one then 1 else 0
          | .all => if (lanes act).all one then 1 else 0
          | .eq => if (lanes act).all one || (lanes act).all (fun l => !one l) then 1 else 0
          | .ballot => (maskOf ((lanes act).filter one)).setWidth 128) s)
    ∧ (∀ o, issuable (.shfl o) s = true →
      let act := s.me.active s.mySlot.mask o.g
      givesLanes (.shfl o) o.g o.d (regBits o.ty)
        (fun l =>
          let b := (s.me.src32 l o.x o.b).toNat
          let k : Int := match o.f with
            | .idx => b % 32 | .up => (l : Int) - b | .down => (l : Int) + b | .xor => ((l ^^^ (b % 32) : Nat) : Int)
          s.me.src (if 0 ≤ k ∧ k ≤ 31 ∧ act.getLsbD k.toNat = true then k.toNat else l) (regBits o.ty) 0 o.a) s)
    ∧ (∀ g r b, issuable (.elect g r b) s = true →
      givesBit (.elect g r b) g r b (fun l => (List.range l).all fun j => !s.activeLane g j) s)
    ∧ (∀ g d r, issuable (.rdsr g d r) s = true →
      givesLanes (.rdsr g d r) g d (specialBits r)
        (fun l => (specialIs s r (if dk d then lowest (s.me.active s.mySlot.mask g) else l)).setWidth 128) s)

/-- R42, R43 and R45: a `brx` that names another reconvergence address pushes a JOIN entry, whether or not the lanes divide,
and one that divides them while the other slot is occupied spills that slot first, as does a trap that leaves lanes behind
(said of `sys`). The entries stand at the group's stack from its depth on, at the places that the checks have found; a refused
check, or a depth of 256, parks the whole slot with the cause and the entry's address, and nothing else happens. -/
def Obligations.DivergencePushes : Prop :=
  (∀ (s u : State) (o : Jump) (d : Nat), issuable (.brx o) s = true → s.mySlot.checked = none → canSpill s →
    let r0 := s.mySlot.rcv
    let r1 := s.mySlot.pc + o.d1.signExtend 64
    let act := s.me.active s.mySlot.mask o.g
    let rest := s.mySlot.mask &&& ~~~ act
    let spills := act ≠ 0 ∧ rest ≠ 0 ∧ s.aloneInGroup = false
    let joins := r0 ≠ noRcv ∧ r1 ≠ r0
    let k := (if spills then 1 else 0) + (if joins then 1 else 0)
    let a := s.agent s.cur.core s.cur.gslot s.cur.slot
    (∀ ws, s.checkPushes a s.cur.gslot s.me.depth k = (u, d, .ok ws) → pushPlaces ws → landsNear s →
      ∃ t, exec (.brx o) s = .next t ∧ t.cur = s.cur
        ∧ t.me = { s.me with slot0 := t.me.slot0, slot1 := t.me.slot1, depth := s.me.depth + k, steps := t.me.steps,
                             joins := t.me.joins, tagWaits := t.me.tagWaits }
        ∧ (if act = 0 then slotIs t.mySlot (s.nextPc (.brx o)) r1 rest
           else slotIs t.mySlot (s.mySlot.pc + o.d0.signExtend 64) r1 act)
        ∧ (if act = 0 ∨ rest = 0 then t.me.slot (other s.cur.slot) = s.me.slot (other s.cur.slot)
           else slotIs (t.me.slot (other s.cur.slot)) (s.nextPc (.brx o)) r1 rest)
        ∧ (spills → ∃ w, ws[0]? = some w ∧ spilledTo s t w)
        ∧ (joins → ∃ w, ws[k - 1]? = some w ∧ t.readMem w.pa 32 = joinRecord r1 r0))
    ∧ (∀ cause, s.checkPushes a s.cur.gslot s.me.depth k = (u, d, .no cause) → s.attached s.me.asid = false →
      canTrap s.mySlot.mask s →
      ∃ t, exec (.brx o) s = .next t
        ∧ trapped (.brx o) s.mySlot.mask cause (fun _ => stackPlace s s.cur.core s.cur.gslot d) s t))
  ∧ (∀ (s u : State) (g : Guard) (src : Src) (x : Ext) (d : Nat) (w : Where),
    let i := Instr.sys g src x
    let act := s.me.active s.mySlot.mask g
    let base := (s.core s.cur.core).landbase.toNat
    issuable i s = true → act ≠ 0 → s.mySlot.mask &&& ~~~ act ≠ 0 → s.aloneInGroup = false → s.mySlot.checked = none →
    canSpill s → landsNear s → (s.ctx s.me.asid).dbg.trcfg.getLsbD 10 = false → s.cur.gslot ≠ Config.supervisorSlot →
    (∃ e, e < 2048 ∧ (s.entry s.cur.core e).state = .free) →
    s.checkPushes (s.agent s.cur.core s.cur.gslot s.cur.slot) s.cur.gslot s.me.depth 1 = (u, d, .ok [w]) → pushPlaces [w] →
    (w.pa + 32 ≤ base ∨ base + 320 * 2048 ≤ w.pa) →
    ∃ t, exec i s = .next t ∧ parkedAs i act Cause.syscall (fun l => (s.me.src32 l x src).setWidth 64) s t
      ∧ t.me.depth = s.me.depth + 1 ∧ spilledTo s t w)
  ∧ ∀ (s u : State) (a : Agent) (g d k : Nat),
    (256 ≤ d → s.checkPushes a g d (k + 1) = (s, d, .no Cause.resource))
    ∧ (∀ w, d < 256 → s.reach a (s.team a.core (s.group a.core g).team).tid (stackPlace s a.core g d) 32 .stack = (u, .ok w) →
        s.checkPushes a g d 1 = (u, d, .ok [w]))
    ∧ (∀ cause, d < 256 →
        s.reach a (s.team a.core (s.group a.core g).team).tid (stackPlace s a.core g d) 32 .stack = (u, .no cause) →
        s.checkPushes a g d (k + 1) = (u, d, .no cause))

/-- R44 and R45: a waiting slot completes where no other entry holds its address, with the outer address of the JOIN entry for
it that it pops, else with none; it stays while the other slot or a SLOT entry on top holds it. A SLOT entry on top comes into
an EMPTY slot as it was saved. A refused pop of it halts the team with a STOP message; a refused or reserved one of a JOIN entry
parks the waiting lanes. That an entry is known as a JOIN entry before it is read is the model's (log 55). -/
def Obligations.DivergencePops : Prop :=
  ∀ (s : State) (c g : Nat), c < 192 → g < 64 → (s.group c g).live = true →
    let x := s.group c g
    let y := x.slot0
    let o := x.slot1
    let top := stackPlace s c g (x.depth - 1)
    let idle := (o.state ≠ .empty ∧ o.state ≠ .wait ∧ ¬(o.state = .ready ∧ o.pc = o.rcv))
    let goesOn := y.state ≠ .empty ∧ y.state ≠ .wait ∧ ¬(y.state = .ready ∧ y.pc = y.rcv ∧ y.rcv ≠ noRcv)
    let kept := ∀ w e, s.peekStack c g (x.depth - 1) = .ok (w, e) → e.kind ≠ 1 ∨ e.mask ≠ 0
    (∀ u w e, y.state = .wait → o.state = .empty → 0 < x.depth → s.peekStack c g (x.depth - 1) = .ok (w, e) →
        s.readTop c g 0 = (u, .ok e) → e.legal = true → e.kind = 2 → e.pc = y.rcv → (e.rcv ≠ y.pc ∨ e.rcv = noRcv) →
      ∃ t, steps (.reconvergenceCheck c g) s t ∧ slotIs (t.group c g).slot0 y.pc e.rcv y.mask
        ∧ (x.depth = 1 → (t.group c g).depth = 0))
    ∧ (y.state = .wait → (o.state = .empty ∨ o.rcv ≠ y.rcv) → x.depth = 0 →
      ∃ t, steps (.reconvergenceCheck c g) s t ∧ slotIs (t.group c g).slot0 y.pc noRcv y.mask)
    ∧ (y.state = .wait → idle → o.rcv = y.rcv → x.depth = 0 → steps (.reconvergenceCheck c g) s s)
    ∧ (∀ u w e, y.state = .wait → idle → o.rcv ≠ y.rcv → x.depth = 1 → s.peekStack c g 0 = .ok (w, e) →
        s.readTop c g 0 = (u, .ok e) → e.kind = 1 → e.mask ≠ 0 → e.rcv = y.rcv → steps (.reconvergenceCheck c g) s s)
    ∧ (∀ u w e, goesOn → o.state = .empty → x.depth = 1 → (s.team c x.team).halts.contains .pop = false →
        y.checked = none → s.peekStack c g 0 = .ok (w, e) → s.readTop c g 1 = (u, .ok e) → e.legal = true → e.kind = 1 →
        e.mask ≠ 0 → e.state ≠ 1 → ¬(e.state = 0 ∧ e.pc = e.rcv ∧ e.rcv ≠ noRcv) →
      ∃ t, steps (.reconvergenceCheck c g) s t ∧ (t.group c g).depth = 0 ∧ (t.group c g).slot0 = y
        ∧ let z := (t.group c g).slot1
          z.state = (if e.state = 0 then .ready else if e.state = 2 then .parked else .blocked)
          ∧ z.pc = e.pc ∧ z.rcv = e.rcv ∧ z.mask = e.mask ∧ (e.state = 3 → WaitRec.ofWord e.wait = some z.wait)
          ∧ (e.state = 2 → ∀ i, s.entryAt c g (.spilled 0) = some i → (t.entry c i).place = .slot1))
    ∧ (∀ u cause, goesOn → o.state = .empty → 0 < x.depth → (s.team c x.team).halts.contains .pop = false →
        y.checked = none → y.state ≠ .blocked → kept → x.joinOnTop = false → s.hasTeam c x.team = true →
        s.readTop c g 1 = (u, .no cause) →
      ∃ t, steps (.reconvergenceCheck c g) s t ∧ (t.group c g).slot1.state = .empty
        ∧ (t.team c x.team).halted = true
        ∧ ∃ m ∈ (t.ctx x.asid).msgs, m.kind = .stop ∧ m.cause = cause ∧ m.mask = 0 ∧ m.access = 6 ∧ m.addr = top
            ∧ m.pc = top ∧ m.index = 0xFFFF ∧ m.seq = 0 ∧ m.core = c ∧ m.group = x.number)
    ∧ (∀ u cause detail, y.state = .wait → o.state = .empty → 0 < x.depth → kept → s.attached x.asid = false → y.mask ≠ 0 →
        (∃ i, i < 2048 ∧ (s.entry c i).state = .free) →
        ((x.joinOnTop = true ∧ s.readTop c g 0 = (u, .no cause) ∧ cause ≠ Cause.illegal ∧ detail = top)
          ∨ (∃ e, s.readTop c g 0 = (u, .ok e) ∧ e.kind ≠ 1 ∧ (e.kind ≠ 2 ∨ (e.pc = y.rcv ∧ e.legal = false))
              ∧ cause = Cause.illegal ∧ detail = 0)) →
      ∃ t, steps (.reconvergenceCheck c g) s t ∧ (t.group c g).slot0.state = .parked ∧ (t.group c g).slot0.pc = y.pc
        ∧ (t.group c g).slot0.mask = y.mask
        ∧ ∃ i, i < 2048 ∧ (s.entry c i).state = .free ∧ (t.entry c i).state ≠ .free ∧ (t.entry c i).cause = cause
            ∧ (t.entry c i).mask = y.mask ∧ (t.entry c i).pc = y.pc ∧ (t.entry c i).place = .slot0
            ∧ ∀ l, l < 32 → y.mask.getLsbD l = true → (t.entry c i).detail.get 0 l = detail)

/-- R52 and R53: a scheduler chooses a slot where one of its slots is ready: every context with one adds its weight to its
credit; the largest credit is chosen, of equal ones the context chosen least recently; its credit falls by the sum of the
weights; and of its slots the one that has been ready longest, then the lowest. Which slots stall is the turn's, and contexts
that none has been chosen from yet are ordered as log 4 says. -/
def Obligations.SchedulerChooses : Prop :=
  ∀ (s : State) (c sched : Nat) (stalled : List Nat), sched < 4 →
    let t := (s.choose c sched stalled).1
    let r := (s.choose c sched stalled).2
    let credit := fun (u : State) b => (u.core c).credit.get 0 (4 * b + sched)
    let chosen := fun (u : State) b => (u.core c).chosen.get 0 (4 * b + sched)
    t = { s with cores := t.cores }
    ∧ (r = none ↔ ∀ g n, ¬readyAt s c sched stalled g n)
    ∧ (r = none → ∀ b, credit t b = credit s b ∧ chosen t b = chosen s b)
    ∧ ∀ g n, r = some (g, n) → readyAt s c sched stalled g n ∧
      let a := (s.group c g).asid
      (∀ b, contends s c sched stalled b → credit s b + shareOf s c b < credit s a + shareOf s c a
          ∨ (credit s b + shareOf s c b = credit s a + shareOf s c a ∧ chosen s a ≤ chosen s b))
      ∧ (∀ g' n', readyAt s c sched stalled g' n' → (s.group c g').asid = a →
          ((s.group c g).slot n).since < ((s.group c g').slot n').since
          ∨ (((s.group c g).slot n).since = ((s.group c g').slot n').since ∧ 2 * g + n ≤ 2 * g' + n'))
      ∧ (∀ b, b ≠ a → contends s c sched stalled b → credit t b = credit s b + shareOf s c b)
      ∧ (∀ b, ¬contends s c sched stalled b → credit t b = credit s b)
      ∧ (∀ es : List Nat, es.Nodup → (∀ b, b ∈ es ↔ contends s c sched stalled b) →
          credit t a = credit s a + shareOf s c a - ((es.map fun b => shareOf s c b).sum : Nat))
      ∧ chosen t a = s.turn ∧ ∀ b, b ≠ a → chosen t b = chosen s b

/-- R41, R99 and R100: `exit` removes the active lanes; the slot's other lanes go on; where they are the last lanes of their
group, the group ends once nothing holds it back, and until then the slot stands BLOCKED at its `exit`. -/
def Obligations.LanesExit : Prop :=
  ∀ (s : State) (g : Guard), issuable (.exit g) s = true →
    let act := s.me.active s.mySlot.mask g
    let rest := s.mySlot.mask &&& ~~~ act
    let last := rest = 0 ∧ (s.onMe fun x => x.setSlot s.cur.slot .empty).allExited s.cur.core s.cur.gslot = true
    act ≠ 0 →
    (¬last → ∃ t, exec (.exit g) s = .next t ∧ t.cur = s.cur ∧ s.me.sameRegs t.me ∧ s.elsewhereSame t
        ∧ t.me.slot (other s.cur.slot) = s.me.slot (other s.cur.slot)
        ∧ (if rest = 0 then t.mySlot.state = .empty else slotIs t.mySlot (s.nextPc (.exit g)) s.mySlot.rcv rest))
    ∧ (last → (s.tryEnd s.cur.core s.cur.gslot).2 = true →
        ∃ t, exec (.exit g) s = .next t ∧ (t.group s.cur.core s.cur.gslot).live = false)
    ∧ (last → (s.tryEnd s.cur.core s.cur.gslot).2 = false →
        ∃ t, exec (.exit g) s = .next t ∧ t.mySlot.state = .blocked ∧ t.mySlot.pc = s.mySlot.pc
          ∧ t.mySlot.mask = s.mySlot.mask)

/-! ### Phases and barriers (11 R217, R218; 12 R248 to R255) -/

/-- R217, R218 and R248: with nothing outstanding and nothing to report, `phase.rel` publishes the group's bytes,
`phase.acq` gives up what the core holds clean, `phase` does both, and the lanes go on. What counts as outstanding is
read as log 35 says. -/
def Obligations.PhasesComplete : Prop :=
  ∀ s : State,
    (∀ g, issuable (.phaseRel g) s = true → s.me.active s.mySlot.mask g ≠ 0 → s.tryRelease.2 = true →
      s.tryRelease.1.me.reports (s.me.active s.mySlot.mask g) = [] →
      ∃ t, exec (.phaseRel g) s = .next t ∧ slotWentOn (.phaseRel g) s t ∧ published s t)
    ∧ (∀ g, issuable (.phaseAcq g) s = true → s.me.active s.mySlot.mask g ≠ 0 → s.readsReturned = true →
      ∃ t, exec (.phaseAcq g) s = .next t ∧ slotWentOn (.phaseAcq g) s t ∧ s.me.sameRegs t.me ∧ t.mem = s.mem
        ∧ (t.core s.cur.core).clean = [] ∧ (t.core s.cur.core).icache = [] ∧ t.peerClean = []
        ∧ (t.core s.cur.core).dirty = (s.core s.cur.core).dirty)
    ∧ (∀ g, issuable (.phase g) s = true → s.me.active s.mySlot.mask g ≠ 0 → s.tryRelease.2 = true →
      s.tryRelease.1.readsReturned = true → s.tryRelease.1.me.reports (s.me.active s.mySlot.mask g) = [] →
      ∃ t, exec (.phase g) s = .next t ∧ slotWentOn (.phase g) s t ∧ published s t
        ∧ (t.core s.cur.core).clean = [] ∧ (t.core s.cur.core).icache = [] ∧ t.peerClean = [])

/-- R250 to R253: `bar.init` sets the word and its tag, `bar.arr` and `bar.exp` update it, and the lanes go on. -/
def Obligations.BarrierWords : Prop :=
  ∀ (s : State) (o : Bar) (c t off : Nat),
    (barAt (.barInit o) o .init s c t off → 1 ≤ (s.me.barValue o).toNat → (s.me.barValue o).toNat ≤ 2047 →
      ∃ u, exec (.barInit o) s = .next u ∧ slotWentOn (.barInit o) s u
        ∧ (u.team c t).word off = bwMake false (s.me.barValue o).toNat (s.me.barValue o).toNat 0
        ∧ (u.team c t).tag off = 3)
    ∧ (barAt (.barArr o) o .word s c t off → plainWord s c t off → bwArr ((s.team c t).word off) ≠ 0 →
      ∃ u, exec (.barArr o) s = .next u ∧ slotWentOn (.barArr o) s u
        ∧ (u.team c t).word off = updated ((s.team c t).word off) 1 0
        ∧ (∀ n, o.d = some n → u.me.sreg n.toNat = if bwPh ((s.team c t).word off) then 1 else 0))
    ∧ (barAt (.barExp o) o .word s c t off → plainWord s c t off →
      ∃ u, exec (.barExp o) s = .next u ∧ slotWentOn (.barExp o) s u
        ∧ (u.team c t).word off = updated ((s.team c t).word off) 0 ((s.me.barValue o).setWidth 41))

/-- R254 and R255: a wait on a phase that has passed goes on at once; an arrival that completes its phase releases its
own slot, and one that does not waits; `tbar` and `drain` go on once every group of the team has arrived. A completion waits
until every stack entry that it may release can be read (log 9). -/
def Obligations.WaitsEnd : Prop :=
  ∀ s : State,
    (∀ o c t off, barAt (.barWait o) o .word s c t off →
      bwPh ((s.team c t).word off) ≠ (s.me.barValue o).getLsbD 0 → onlyAdvances (.barWait o) s)
    ∧ (∀ o c t off, barAt (.barArrw o) o .word s c t off → plainWord s c t off →
      c = s.cur.core → t = s.me.team → (s.cur.gslot, s.me) ∈ s.groupsOf c t → off < 2 ^ 32 →
      bwArr ((s.team c t).word off) ≠ 0 →
      ∃ u, exec (.barArrw o) s = .next u ∧ u.cur = s.cur
        ∧ (u.team c t).word off = updated ((s.team c t).word off) 1 0
        ∧ (if bwArr ((s.team c t).word off) = 1 ∧ bwSec ((s.team c t).word off) = 0
           then slotIs u.mySlot (s.nextPc (.barArrw o)) s.mySlot.rcv s.mySlot.mask
           else u.mySlot.state = .blocked ∧ u.mySlot.pc = s.mySlot.pc ∧ u.mySlot.wait.offset.toNat = off
             ∧ u.mySlot.wait.phase = bwPh ((s.team c t).word off)))
    ∧ (∀ g, issuable (.tbar g) s = true → s.me.active s.mySlot.mask g ≠ 0 → othersArrived s → stacksRead (.tbar g) g s →
      ∃ u, exec (.tbar g) s = .next u ∧ slotWentOn (.tbar g) s u)
    ∧ (∀ g, issuable (.drain g) s = true → s.me.active s.mySlot.mask g ≠ 0 → othersArrived s → stacksRead (.drain g) g s →
      s.me.unacknowledged = 0 → s.quietGroup s.cur.core s.cur.gslot = true →
      s.me.reports (s.me.active s.mySlot.mask g) = [] →
      ∃ u, exec (.drain g) s = .next u ∧ slotWentOn (.drain g) s u)

/-! ### Memory instructions (12 R231 to R247) -/

/-- R190 to R199 and R234: checking the lanes of a memory instruction leaves every register, slot, team, context, queue,
token, landing entry, cache of data and link as it was: it sets bits A and D in bytes of memory and cached translations, and gives up
peer lines whose page-table entries have changed. One check changes memory, where it changes it at all, in the bits
of R196 of the entry of the leaf that the walk finds, and a lane that is refused or waits changes none. -/
def Obligations.ChecksKeep : Prop :=
  (∀ (s : State) (sp : Space) (ea : Nat → Word) (align n : Nat) (acc : Access) (u : TagUse) (ls : List Nat),
    let t := (s.checkLanes sp ea align n acc u ls).1
    t = { s with mem := t.mem, cores := t.cores, walk := t.walk, peerClean := t.peerClean, lineFrom := t.lineFrom }
      ∧ (∀ c, t.core c = { s.core c with tlb := (t.core c).tlb })
      ∧ (∀ pa, t.readByte pa = s.readByte pa ||| (t.readByte pa &&& 0x60))
      ∧ (sp ≠ .g → t = s))
  ∧ ∀ (s : State) (va : Word) (align n : Nat) (acc : Access) (u : TagUse),
    let a := s.agent s.cur.core s.cur.gslot s.cur.slot
    let t := s.spotOf .g va align n acc u
    ((∀ p, t.2 ≠ .ok p) → t.1.mem = s.mem)
      ∧ (t.1.mem = s.mem ∨ ∃ v w, (v = (s.probe a va acc).1 ∨ v = ((s.probe a va acc).1.translateOnce a va acc false).1)
          ∧ (v.findLeaf a va).2 = .ok w ∧ isPeer w.at_ = false
          ∧ t.1.mem = (s.write64 w.at_ (s.read64 w.at_ ||| leafBits acc)).mem)

/-- R232 to R235: a load whose lanes pass and whose lines are at hand writes what each lane reads, the lanes go on, and
nothing is stored. -/
def Obligations.LoadsComplete : Prop :=
  ∀ (s : State) (o : Mem Unit),
    let n := widthBytes o.w
    let c := checks s o n .read .load
    let v := c.1.loadLanes n (passed c.2)
    memReady (.ld o) o n .read .load (lateRefusal o.sp (passed c.2)) s → (∀ y ∈ v.2, ∃ x, y.2.2 = .ok x) →
      ∃ t, exec (.ld o) s = .next t ∧ slotWentOn (.ld o) s t
        ∧ (∀ y ∈ v.2, ∀ x, y.2.2 = .ok x → t.me.holds o.d y.1 (widthBits o.w) x)
        ∧ s.me.onlyDst t.me o.d (widthBits o.w) (s.activeLane o.g) ∧ t.mem = v.1.mem

/-- R188, R209, R214 and R220: what a load reads of memory of this device or of the host: a byte that the core's L1 holds
written, else the L1's clean copy of its 32-byte sector, else memory; and the sector that a miss brings stays. That a held
clean copy is read, and that a sector stays until it is given up, is the model's choice of what R220 allows (log 6). -/
def Obligations.LoadSees : Prop :=
  ∀ (s : State) (c pa n : Nat), isPeer pa = false → pa % 32 + n ≤ 32 →
    (∀ b, (s.core c).clean.find? (pa / 32) = some b → b.length = 32) →
    let t := s.loadL1 c pa n none
    (∀ i, i < n → ∃ bs, t.2 = some bs ∧ bs[i]? = some
      (match (s.core c).dirty.find? (pa + i) with
       | some d => d.val
       | none => match (s.core c).clean.find? (pa / 32) with
         | some b => b.getD (pa % 32 + i) 0
         | none => s.readByte (pa + i)))
    ∧ t.1.mem = s.mem ∧ (t.1.core c).dirty = (s.core c).dirty
    ∧ ∀ k, (t.1.core c).clean.find? k = if k = pa / 32 then
        some (((s.core c).clean.find? k).getD (s.readMem (32 * k) 32)) else (s.core c).clean.find? k

/-- R211, R233 and R236: a store whose lanes pass: the bytes of its lanes, the highest-numbered lane's where two meet,
stand in the scratchpad or, not yet published, in the L1 of the core; every other byte is as it was, and memory too. That
the L1 alone holds them until a publication is the model's choice: R215 lets the device publish them at any time (log 6). -/
def Obligations.StoresComplete : Prop :=
  ∀ (s : State) (o : Mem Unit),
    let n := widthBytes o.w
    let c := checks s o n .write .store
    let ps := passed c.2
    let val := fun l => valueBytes n (s.me.src l (widthBits o.w) 0 o.b)
    memReady (.st o) o n .write .store (o.sp == .rs) s →
      ∃ t, exec (.st o) s = .next t ∧ slotWentOn (.st o) s t ∧ t.mem = c.1.mem
        ∧ t.me = { s.me with slot0 := t.me.slot0, slot1 := t.me.slot1, outstanding := t.me.outstanding }
        ∧ t.me.outstanding = s.me.outstanding + (if o.sp = .s then 0 else ps.length)
        ∧ (∀ pa, ((t.core s.cur.core).dirty.find? pa).map (·.val) =
            (storedMem ps val pa).orElse fun _ => ((c.1.core s.cur.core).dirty.find? pa).map (·.val))
        ∧ (∀ k tm off, (t.team k tm).spad.get 0 off = (storedPad ps val k tm off).getD ((c.1.team k tm).spad.get 0 off))

/-- R199, R208 and R234: of a load, a store or a reduction of which some lanes are refused, those lanes park at the
instruction, each with its own address in its detail word and the lowest of their causes for the entry, and the others complete.
A lane's checks come in the order of R234: ALIGN; the range, the owner and the tag of R208; the walk and Table 10-6, then
the watches. -/
def Obligations.RefusedLanes : Prop :=
  (∀ (s : State) (o : Mem Unit) (bad : Mask),
    let n := widthBytes o.w
    (let c := checks s o n .read .load
     let v := c.1.loadLanes n (passed c.2)
     someRefused (.ld o) o n .read .load (lateRefusal o.sp (passed c.2)) bad s → (∀ y ∈ v.2, ∃ x, y.2.2 = .ok x) →
      ∃ t, exec (.ld o) s = .next t ∧ parkRefused (.ld o) o c.2 bad s t
        ∧ (∀ y ∈ v.2, ∀ x, y.2.2 = .ok x → t.me.holds o.d y.1 (widthBits o.w) x)
        ∧ s.me.onlyDst t.me o.d (widthBits o.w) (fun l => s.activeLane o.g l && !bad.getLsbD l)
        ∧ ∀ pa, outsideLanding s pa → t.readByte pa = c.1.readByte pa)
    ∧ (let c := checks s o n .write .store
       let ps := passed c.2
       let val := fun l => valueBytes n (s.me.src l (widthBits o.w) 0 o.b)
       someRefused (.st o) o n .write .store (o.sp == .rs) bad s →
        ∃ t, exec (.st o) s = .next t ∧ parkRefused (.st o) o c.2 bad s t
          ∧ t.me = { s.me with slot0 := t.me.slot0, slot1 := t.me.slot1, outstanding := s.me.outstanding
              + (if o.sp = .s then 0 else ps.length) }
          ∧ (∀ pa, ((t.core s.cur.core).dirty.find? pa).map (·.val) =
              (storedMem ps val pa).orElse fun _ => ((c.1.core s.cur.core).dirty.find? pa).map (·.val))
          ∧ (∀ k tm off, (t.team k tm).spad.get 0 off = (storedPad ps val k tm off).getD ((c.1.team k tm).spad.get 0 off))
          ∧ ∀ pa, outsideLanding s pa → t.readByte pa = c.1.readByte pa))
  ∧ (∀ (s : State) (o : Mem AtomOp) (bad : Mask),
    let n := widthBytes o.w
    let c := checks s o n .rmw .store
    let ps := passed c.2
    someRefused (.red o) o n .rmw .store (o.sp == .rs) bad s → (∀ x ∈ ps, x.2.2.peer = false ∧ placedAt n x.2.2) →
    (∀ x ∈ ps, ∀ w, x.2.2 = .mem w → ∀ i, i < n → outsideLanding s (w.pa + i)) →
      ∃ t, exec (.red o) s = .next t ∧ parkRefused (.red o) o c.2 bad s t
        ∧ t.me = { s.me with slot0 := t.me.slot0, slot1 := t.me.slot1, outstanding := s.me.outstanding
            + (if o.sp = .s then 0 else ps.length) }
        ∧ (∀ x ∈ ps, atPlace t x.2.2 n = afterLanes s o c.1 ps x.2.2)
        ∧ (∀ pa, isPeer pa = false → outsideLanding s pa →
            (∀ x ∈ ps, ∀ w, x.2.2 = .mem w → pa < w.pa ∨ w.pa + n ≤ pa) → homeByte t pa = homeByte c.1 pa)
        ∧ (∀ k m off, (∀ x ∈ ps, ∀ a, x.2.2 = .pad k m a → off < a ∨ a + n ≤ off) →
            (t.team k m).spad.get 0 off = (c.1.team k m).spad.get 0 off))
  ∧ (∀ (s u : State) (sp : Space) (ea : Word) (align n : Nat) (acc : Access) (use : TagUse),
    let a := s.agent s.cur.core s.cur.gslot s.cur.slot
    let tm := s.myTeam
    let off := ea.toNat
    let check := s.spotOf sp ea align n acc use
    (ea.toNat % align ≠ 0 → check = (s, .no Cause.align))
    ∧ (ea.toNat % align = 0 → sp = .s → 0 < n → check = (s,
        if tm.spadBytes < off + n then .no Cause.scratchRange
        else if tm.holds.get 0 (off / 1024) ≠ 0 ∨ tm.holds.get 0 ((off + n - 1) / 1024) ≠ 0 then .no Cause.ownership
        else if tagAllows use (tm.tags.get 0 (off / 8)) = true ∧ tagAllows use (tm.tags.get 0 ((off + n - 1) / 8)) = true then
          .ok (.pad s.cur.core s.me.team off)
        else .no Cause.tagClass))
    ∧ (ea.toNat % align = 0 → sp = .g →
        (2 ^ 57 ≤ ea.toNat → check = (s, .no Cause.permission))
        ∧ (∀ cause, ea.toNat < 2 ^ 57 → s.findLeaf a ea = (u, .no cause) → check = (u, .no cause))
        ∧ (∀ x, ea.toNat < 2 ^ 57 → s.findLeaf a ea = (u, .ok x) →
            (eClass x.entry = 1 ∨ (eU x.entry = false ∧ a.privileged = false) ∨ (eX x.entry = false ∧ acc = .fetch)
              ∨ ((acc.writes = true ∨ acc = .stack) ∧ (eW x.entry = false ∨ eCow x.entry = true))) →
            check = (u, .no Cause.permission))
        ∧ (∀ w, s.probe a ea acc = (u, .ok w) → u.watched a.core a.asid tm.tid ea.toNat n acc = true →
            check = (u, .no Cause.watchpoint))))

/-- R237 to R239: lanes that name distinct words whose tags let them be taken take their steps, and the lanes go on:
`ldf` empties the word, `ldfk` keeps it, `ste` fills it.
R240: `tag.set` writes a word's tag, its tile form the tile's mode and, with bit 1, 128 PLAIN tags; `tag.rd` reads
the tag and the mode. -/
def Obligations.TagsAndTaggedWords : Prop :=
  (∀ (s : State) (o : Mem Unit),
      let n := widthBytes o.w
      let fit := fun (acc : Access) (tag : BitVec 2) (ps : List (Nat × Word × Spot)) (i : Instr) =>
        memReady i o n acc .tagged (o.sp == .rs) s ∧ s.mySlot.done = 0 ∧ s.mySlot.tagged = none ∧ distinctWords ps ∧ o.sp ≠ .g
          ∧ ∀ x ∈ ps, ∀ c t off, x.2.2 = .pad c t off → (s.team c t).tag off = tag
      (let ps := passed (checks s o n .rmw .tagged).2
       fit .rmw 2 ps (.ldf o) → ∃ t, exec (.ldf o) s = .next t ∧ slotWentOn (.ldf o) s t
        ∧ ∀ x ∈ ps, ∀ c tm off, x.2.2 = .pad c tm off → (t.team c tm).tag off = 1
          ∧ t.me.holds o.d x.1 (widthBits o.w) (bytesValue ((s.team c tm).read off n)))
      ∧ (let ps := passed (checks s o n .read .tagged).2
         fit .read 2 ps (.ldfk o) → ∃ t, exec (.ldfk o) s = .next t ∧ slotWentOn (.ldfk o) s t
          ∧ ∀ x ∈ ps, ∀ c tm off, x.2.2 = .pad c tm off → (t.team c tm).tag off = 2
            ∧ t.me.holds o.d x.1 (widthBits o.w) (bytesValue ((s.team c tm).read off n)))
      ∧ (let ps := passed (checks s o n .write .tagged).2
         fit .write 1 ps (.ste o) → ∃ t, exec (.ste o) s = .next t ∧ slotWentOn (.ste o) s t
          ∧ ∀ x ∈ ps, ∀ c tm off, x.2.2 = .pad c tm off → (t.team c tm).tag off = 2
            ∧ (t.team c tm).read off n = valueBytes n (s.me.src x.1 (widthBits o.w) 0 o.b)))
  ∧ (∀ (s : State) (o : Mem Unit), o.sp ≠ .g →
      let late := o.sp == .rs
      (let ps := passed (checks s o 8 .write .tags).2
       memReady (.tagSet o) o 8 .write .tags late s → distinctWords ps →
        ∃ t, exec (.tagSet o) s = .next t ∧ slotWentOn (.tagSet o) s t
          ∧ ∀ x ∈ ps, ∀ c tm off, x.2.2 = .pad c tm off →
            (t.team c tm).tag off = (s.me.src x.1 32 0 o.b).setWidth 2)
      ∧ (let ps := passed (checks s o 1 .write .tags).2
         memReady (.tagSetTile o) o 1 .write .tags late s → ∀ x c tm off, ps = [x] → x.2.2 = .pad c tm off →
          let v := s.me.src x.1 32 0 o.b
          ∃ t, exec (.tagSetTile o) s = .next t ∧ slotWentOn (.tagSetTile o) s t
            ∧ (t.team c tm).diagonal.get false (off / 1024) = v.getLsbD 0
            ∧ ∀ a, (t.team c tm).tag a = if v.getLsbD 1 ∧ a / 1024 = off / 1024 then 0 else (s.team c tm).tag a)
      ∧ (let ps := passed (checks s o 8 .read .tags).2
         memReady (.tagRd o) o 8 .read .tags late s →
          ∃ t, exec (.tagRd o) s = .next t ∧ slotWentOn (.tagRd o) s t ∧ t.mem = s.mem
            ∧ s.me.onlyDst t.me o.d 32 (s.activeLane o.g)
            ∧ ∀ x ∈ ps, ∀ c tm off, x.2.2 = .pad c tm off → t.me.holds o.d x.1 32
              ((if (s.team c tm).diagonal.get false (off / 1024) then 4 else 0)
                ||| ((s.team c tm).tag off).setWidth 128)))

/-- R224 and R241 to R244: an atomic or a reduction whose lanes pass. Lanes whose home is this device act in rising order:
each place comes to hold what Table 12-3 gives, one lane after the other, every other byte stays, `atom` gives each lane the
value just before its own, and the slot goes on. An atomic at a peer waits for its answer, which is then what the lane gets;
a reduction at a peer that can be reached is sent, and holds nothing. -/
def Obligations.AtomicsComplete : Prop :=
  ∀ (s : State) (o : Mem AtomOp),
    let n := widthBytes o.w
    let c := checks s o n .rmw .store
    let ps := passed c.2
    let near := ps.filter fun x => !x.2.2.peer
    (∀ x ∈ ps, placedAt n x.2.2) →
    (memReady (.atom o) o n .rmw .store (lateRefusal o.sp ps) s → (∀ l, s.amoSent l = none) → (∀ x ∈ ps, x.2.2.peer = false) →
      ∃ t, exec (.atom o) s = .next t ∧ slotWentOn (.atom o) s t ∧ lanesActed s t o c.1 ps
        ∧ (∀ k x, ps[k]? = some x →
            t.me.holds o.d x.1 (widthBits o.w) ((afterLanes s o c.1 (ps.take k) x.2.2).setWidth 128))
        ∧ s.me.onlyDst { t.me with outstanding := s.me.outstanding } o.d (widthBits o.w) (s.activeLane o.g)
        ∧ t.me.outstanding = s.me.outstanding + (if o.sp = .s then 0 else ps.length))
    ∧ (∀ v : Nat → List Byte, let act := s.me.active s.mySlot.mask o.g
      issuable (.atom o) s = true → act ≠ 0 → s.aloneInGroup = true →
      (∀ l ∈ lanes act, ∃ pa, s.amoSent l = some pa ∧ isPeer pa = true
        ∧ (s.agent s.cur.core s.cur.gslot s.cur.slot).answer (.amo pa l) 0 = some (.data (v l))) →
      ∃ t, exec (.atom o) s = .next t ∧ slotWentOn (.atom o) s t ∧ t.mem = s.mem
        ∧ (∀ l ∈ lanes act, t.me.holds o.d l (widthBits o.w) (bytesValue (v l)))
        ∧ s.me.onlyDst t.me o.d (widthBits o.w) (s.activeLane o.g))
    ∧ (memReady (.red o) o n .rmw .store (o.sp == .rs) s → (∀ x ∈ ps, ∀ w, x.2.2 = .mem w → isPeer w.pa = true →
          s.reachable (peerOf w.pa) = true) →
      ∃ t, exec (.red o) s = .next t ∧ slotWentOn (.red o) s t ∧ lanesActed s t o c.1 near
        ∧ t.me = { s.me with slot0 := t.me.slot0, slot1 := t.me.slot1, outstanding := s.me.outstanding
            + (if o.sp = .s then 0 else ps.length) }
        ∧ ∀ x ∈ ps, ∀ w, x.2.2 = .mem w → isPeer w.pa = true → ∃ r ∈ t.requests, r.pa = w.pa
            ∧ r.op = .atomic o.f o.w (s.me.atomArgs o.f x.1 (widthBits o.w) o.b).1 0
            ∧ r.origin = .red s.cur.core s.cur.gslot x.1 s.mySlot.pc x.2.1)

/-- R218, R227, R246 and R247: a prefetch and line maintenance go on at the next instruction; `pf` and `cln.inv` leave
memory, `cln.wb` publishes the group's bytes of the lines named, those of a peer line start home, and `cln.inv` and `cln.wbinv` give up the
clean copies of them that the core and, for a peer line, the stacked cache hold. -/
def Obligations.LineMaintenance : Prop :=
  ∀ (s : State) (ls : List Nat),
    (∀ o, s.linesOf (fun l => s.me.ea .g l o.a o.x) (s.me.active s.mySlot.mask o.g) false = (s, ls, false) →
      issuable (.pf o) s = true → ∃ t, exec (.pf o) s = .next t ∧ slotWentOn (.pf o) s t ∧ t.mem = s.mem
        ∧ s.me.sameRegs t.me ∧ (t.core s.cur.core).dirty = (s.core s.cur.core).dirty
        ∧ ∀ line ∈ ls, isPeer (128 * line) = false → isHost (128 * line) = true → line ∈ t.hostLines)
    ∧ (∀ o : Mem Unit,
      let u := ls.foldl (fun s l => s.publishLine l) s
      let mine := fun (k : Core) pa => ∃ d, k.dirty.find? pa = some d ∧ s.cur.gslot ∈ d.writers ∧ d.scopeCore = false
      let kept := fun (t : State) => s.me.sameRegs { t.me with fabPend := s.me.fabPend, fabAddr := s.me.fabAddr }
        ∧ (∀ pa d, (s.core s.cur.core).dirty.find? pa = some d → mine (s.core s.cur.core) pa → isPeer pa = false →
            pa / 128 ∈ ls → t.readByte pa = d.val)
        ∧ (∀ pa, pa / 128 ∈ ls → ¬mine (t.core s.cur.core) pa)
        ∧ (∀ pa, pa / 128 ∉ ls → t.readByte pa = s.readByte pa)
        ∧ (∀ pa b, pa / 128 ∈ ls → isPeer pa = true → t.peerDirty.find? pa = some b →
            (s.cur.core, s.cur.gslot) ∈ b.writers → b.inFlight.isSome = true)
      let given := fun (t : State) => ∀ line ∈ ls, t.peerClean.find? line = none
        ∧ ∀ b, b / 4 = line → (t.core s.cur.core).clean.find? b = none ∧ (t.core s.cur.core).icache.find? b = none
      s.me.active s.mySlot.mask o.g ≠ 0 →
      s.linesOf (fun l => s.me.ea .g l o.a o.x) (s.me.active s.mySlot.mask o.g) true = (s, ls, false) →
      (issuable (.clnWb o) s = true → ∃ t, exec (.clnWb o) s = .next t ∧ slotWentOn (.clnWb o) s t ∧ kept t)
      ∧ (issuable (.clnInv o) s = true → s.readsReturned = true →
        ∃ t, exec (.clnInv o) s = .next t ∧ slotWentOn (.clnInv o) s t ∧ s.me.sameRegs t.me ∧ t.mem = s.mem
          ∧ (t.core s.cur.core).dirty = (s.core s.cur.core).dirty ∧ given t)
      ∧ (issuable (.clnWbinv o) s = true → u.readsReturned = true →
          u.peerPending s.cur.core s.cur.gslot (fun pa => ls.contains (pa / 128)) = false →
        ∃ t, exec (.clnWbinv o) s = .next t ∧ slotWentOn (.clnWbinv o) s t ∧ kept t ∧ given t))

/-! ### Engines and tokens (13 R259 to R293, 15 R303 to R316) -/

/-- R277 to R286: every copy form whose operands pass its checks becomes an ISSUED operation with a new handle. The spans
that the checks use are read as log 30 says.
R303 to R307: a feed and a matrix operation whose operands pass become ISSUED operations. -/
def Obligations.EngineOperationsIssue : Prop :=
  (∀ (s : State) (o : CpyOp),
    copyIssues (.cpy o) 0x90 o s ∧ copyIssues (.cpyTile o) 0x91 o s ∧ copyIssues (.cpyGth o) 0x92 o s
    ∧ copyIssues (.cpySct o) 0x93 o s ∧ copyIssues (.cpyRem o) 0x94 o s ∧ copyIssues (.cpyMcast o) 0x95 o s
    ∧ copyIssues (.cpyRed o) 0x96 o s)
  ∧ ∀ (s : State) (o : EngOp2),
    let n := s.me.engCount o
    let src := localOff (s.me.opt o.a)
    let so := localOff (s.me.opt o.b)
    let fmt := o.fp.toNat % 8
    (engineReady (.sfeed o) o.g o.opp s → linkFits o s → o.det = false → 1 ≤ n.toNat → n.toNat ≤ 65535 →
      src % 32 = 0 → src + n.toNat * sliceBytes fmt (o.fp.getLsbD 3) ≤ s.myTeam.spadBytes →
      (3 ≤ fmt → so % 32 = 0) → so + n.toNat * scaleBytes fmt (o.fp.getLsbD 3) ≤ s.myTeam.spadBytes →
      operationIssued (.sfeed o) o.d o.opp false (fun r => r.op = 0x97 ∧ r.fp = o.fp ∧ r.dst.toNat = o.fn.toNat % 4
        ∧ r.src.toNat = src ∧ r.len = n.toNat ∧ r.lk = o.lk ∧ r.hold = o.hold ∧ r.prio = o.pri.toNat) s)
    ∧ (engineReady (.mma o) o.g o.opp s → linkFits o s → o.det = false → 1 ≤ n.toNat → n.toNat ≤ 65535 →
      operationIssued (.mma o) o.d o.opp false (fun r => r.op = 0xB0 ∧ r.fp = o.fp ∧ r.dst.toNat = o.fn.toNat % 4
        ∧ r.x = (s.me.active s.mySlot.mask o.g).setWidth 64 ∧ r.len = n.toNat ∧ r.lk = o.lk ∧ r.hold = o.hold) s)

/-- R316: an accumulator that no running token names: `acc.zero` clears the rows of the active lanes, `acc.rd` gives and
`acc.wr` writes the element of the lane's row in the column it names. -/
def Obligations.Accumulators : Prop :=
  ∀ (s : State) (o : AccOp), s.accBusy s.cur.core s.cur.gslot o.acc.toNat = false →
    (issuable (.accZero o) s = true → ∃ t, exec (.accZero o) s = .next t ∧ s.wentOn t (s.nextPc (.accZero o))
      ∧ s.elsewhereSame t ∧ t.me = { s.me with acc := t.me.acc, slot0 := t.me.slot0, slot1 := t.me.slot1 }
      ∧ ∀ a l c, l < 32 → c < 32 → t.me.accAt a l c =
          if a = o.acc.toNat ∧ s.activeLane o.g l = true then 0 else s.me.accAt a l c)
    ∧ (issuable (.accRd o) s = true → (∀ l, l < 32 → s.activeLane o.g l = true → s.me.accCol o l < 32) →
      givesLanes (.accRd o) o.g o.d 32 (fun l => (s.me.accAt o.acc.toNat l (s.me.accCol o l)).setWidth 128) s)
    ∧ (issuable (.accWr o) s = true → (∀ l, l < 32 → s.activeLane o.g l = true → s.me.accCol o l < 32) →
      ∃ t, exec (.accWr o) s = .next t ∧ s.wentOn t (s.nextPc (.accWr o))
        ∧ s.elsewhereSame t ∧ t.me = { s.me with acc := t.me.acc, slot0 := t.me.slot0, slot1 := t.me.slot1 }
        ∧ ∀ a l c, l < 32 → c < 32 → t.me.accAt a l c =
            if a = o.acc.toNat ∧ s.activeLane o.g l = true ∧ c = s.me.accCol o l
            then (s.me.src l 32 0 o.b).setWidth 32 else s.me.accAt a l c)

/-- R262, R288 to R290: `tok.test` and `tok.state` answer for a reclaimed and for a LIVE operation, `tok.wait` for one
that has come to an end or stopped. -/
def Obligations.TokensObserved : Prop :=
  ∀ (s : State) (o : TokOp) (r : Option (Nat × Nat × Op)), s.observes (s.me.sreg o.a.toNat) = some r →
    (tokenReady (.tokTest o) o s →
      tokenGives (.tokTest o) o s (match r with | none => reclaimedStatus | some (_, _, op) => op.status) fun _ => True)
    ∧ (tokenReady (.tokWait o) o s →
      (match r with
       | none => True
       | some (_, _, op) => op.state = .done ∨ (o.fn = 0 ∧ (op.state = .faulted ∨ op.state = .cancelled))) →
      tokenGives (.tokWait o) o s (match r with | none => reclaimedStatus | some (_, _, op) => op.status) fun _ => True)
    ∧ (tokenReady (.tokState o) o s →
      tokenGives (.tokState o) o s (match r with
        | none => if o.fn = 0 then reclaimedStatus else 0
        | some (_, _, op) =>
          if o.fn = 0 then op.status else if o.fn = 1 then BitVec.ofNat 64 op.cursor
          else if o.fn = 2 then (if op.state = .faulted then op.refused else 0) else op.info) fun _ => True)

/-- R269 to R274, R291 to R293: what the instructions that control a token do with an operation the group owns. -/
def Obligations.TokensControlled : Prop :=
  ∀ (s : State) (o : TokOp) (c e : Nat) (op : Op),
    (controlled s o c e op →
      (tokenReady (.tokCancel o) o s → tokenGives (.tokCancel o) o s op.status fun t =>
        ∃ q, t.op? c e = some q ∧
          if op.state = .issued ∨ op.state = .faulted then q.state = .cancelled
          else if op.state = .running ∨ op.state = .parked then q = { op with cancel := true } else q = op)
      ∧ (tokenReady (.tokDetach o) o s → op.detached = false → op.ownSpan = false → op.lk ≠ .barrier →
        tokenGives (.tokDetach o) o s 0 fun t => t.op? c e = some { op with detached := true, byTeam := none })
      ∧ (tokenReady (.tokPrio o) o s → tokenGives (.tokPrio o) o s 0 fun t =>
        t.op? c e = some { op with prio := ((s.me.sreg o.b.toNat).extractLsb' 0 2).toNat })
      ∧ (tokenReady (.tokAfter o) o s → op.state = .issued → op.pred2 = 0 → s.me.sreg o.b.toNat = 0 →
        tokenGives (.tokAfter o) o s 0 fun t => t.op? c e = some { op with hold := false })
      ∧ (tokenReady (.tokAfter o) o s → op.state = .issued → op.pred2 = 0 →
        s.resolveToken s.me.asid s.me.privileged (s.me.sreg o.b.toNat) = .reclaimed → s.me.sreg o.b.toNat ≠ 0 →
        s.predState op.pred1 ≠ some .cancelled →
        tokenGives (.tokAfter o) o s 0 fun t => t.op? c e = some { op with hold := false, pred2 := s.me.sreg o.b.toNat })
      ∧ (tokenReady (.tokResume o) o s → op.state = .faulted →
        ¬(op.op = 0x96 ∧ (op.cause = Cause.remoteOp ∨ op.cause = Cause.remoteTimeout)) →
        tokenGives (.tokResume o) o s ({ op with state := .issued, cause := 0 } : Op).status fun t =>
          ∃ q, t.op? c e = some q ∧ q.state = .issued ∧ q.cause = 0 ∧ q.cursor = op.cursor))
    ∧ (∀ q, tokenReady (.tokAdopt o) o s → s.orphan s.me.asid = some (c, e, q) →
      tokenGives (.tokAdopt o) o s q.handle fun t =>
        t.op? c e = some { q with adopter := some (s.myTeam.launch.toNat, s.myTeam.tid) }
          ∧ (t.ctx s.me.asid).adopter = some (s.myTeam.launch.toNat, s.myTeam.tid))
    ∧ (tokenReady (.tokAdopt o) o s → s.orphan s.me.asid = none → o.fn = 1 →
      tokenGives (.tokAdopt o) o s 0 fun _ => True)

/-! ### Gossip accesses and string instructions (18 R357 to R363, 20 R371 to R383) -/

/-- R357, R360 to R363: `gsp.inj` adds each lane's delta to its region word, `gsp.rd`, `gsp.mass` and `gsp.spread` write
what their rules give, and `gsp.step` becomes an ISSUED operation. -/
def Obligations.GossipAccesses : Prop :=
  ∀ (s c : State) (o : GspOp) (ps : List (Nat × Nat × Nat)),
    (gspReady (.gspInj o) o .write (fun off => off ≤ 0x1000) s c ps →
      (∀ x ∈ ps, (c.region x.2.1).frame % 8 = 0 ∧ x.2.2 % 8 = 0) →
      ∃ t, exec (.gspInj o) s = .next t ∧ slotWentOn (.gspInj o) s t ∧ s.me.sameRegs t.me
        ∧ (∀ pa, pa % 8 = 0 → t.read64 pa = ps.foldl (fun v x =>
            if (c.region x.2.1).frame + x.2.2 = pa then v + s.me.src64 x.1 o.b else v) (c.read64 pa)))
    ∧ (gspReady (.gspRd o) o .read (fun off => off ≤ 0xFF8) s c ps →
      readsGive (.gspRd o) o.g o.d 64 (ps.map fun (l, i, off) => (l, BitVec.ofNat 128
        (estimate (c.read64 ((c.region i).frame + off)).toInt (c.region i).frac (c.weight (c.region i))))) s c)
    ∧ (gspReady (.gspMass o) o .read (fun off => off ≤ 0xFF8) s c ps →
      readsGive (.gspMass o) o.g o.d 128
        (ps.map fun (l, i, off) => (l, c.weight (c.region i) ++ c.read64 ((c.region i).frame + off))) s c)
    ∧ (∀ i off, let act := s.me.active s.mySlot.mask o.g
      let r := c.region i
      let diff := fun n => spreadOf (c.replicaProbe r) (r.probe.getD n 0) (r.time.getD n 0)
      let figure := fun n => if o.age then ageOf c.time (r.time.getD n 0) else diff n
      issuable (.gspSpread o) s = true → act ≠ 0 → r.nb.length ≤ r.time.length → r.nb ≠ [] →
      s.gspCheck (s.me.ea .g (lowest act) o.a o.x) .read true (fun _ => true) = (c, .ok (i, off)) →
      (dk o.d = false → readsGive (.gspSpread o) o.g o.d 64
        ((lanes act).map fun l => (l, BitVec.ofNat 128 (if l < r.nb.length then figure l else 0))) s c)
      ∧ (dk o.d = true → ∃ k, k < r.nb.length
          ∧ (if ∃ n, n < r.nb.length ∧ (fp64.read (diff n)).isNan = true then
              (fp64.read (diff k)).isNan = true ∧ ∀ n, n < k → (fp64.read (diff n)).isNan = false
            else (∀ n, n < r.nb.length → diff n ≤ diff k) ∧ ∀ n, n < k → diff n < diff k)
          ∧ readsGive (.gspSpread o) o.g o.d 64 ((lanes act).map fun l => (l, BitVec.ofNat 128 (figure k))) s c))
    ∧ (∀ q i off, let n := s.me.engCount q
      engineReady (.gspStep q) q.g q.opp s → linkFits q s → 1 ≤ n.toNat → n.toNat ≤ 65535 →
      s.gspCheck (s.me.opt q.a) .read false (fun _ => true) = (c, .ok (i, off)) → c.mem = s.mem → (c.region i).mode = true →
      operationIssued (.gspStep q) q.d q.opp q.det (fun r => r.op = 0xC3 ∧ r.dst = BitVec.ofNat 64 i
        ∧ r.src = (c.region i).va ∧ r.len = n.toNat ∧ r.lk = q.lk ∧ r.hold = q.hold ∧ r.prio = q.pri.toNat) s)

/-- R373, R376, R378 to R382: what the string instructions write from the bytes that each lane reads, once every lane has
read its set. -/
def Obligations.StringsComplete : Prop :=
  ∀ (s c : State) (o : Alu Unit) (bs : List (Nat × List Byte)),
    let strA := fun l => [(refAddr (s.me.src64 l o.a), refLen (s.me.src64 l o.a))]
    let strB := fun l => [(refAddr (s.me.src64 l o.b), refLen (s.me.src64 l o.b))]
    (strReady (.strCmp o) o.g (fun l => strA l ++ strB l) s c bs →
      ∃ t, exec (.strCmp o) s = .next t ∧ slotWentOn (.strCmp o) s t ∧ t.mem = c.mem
        ∧ s.me.onlyDst t.me o.d 32 (s.activeLane o.g)
        ∧ ∀ x ∈ bs, let n := refLen (s.me.src64 x.1 o.a)
          (x.2.take n = x.2.drop n → t.me.holds o.d x.1 32 0)
          ∧ (precedes (x.2.take n) (x.2.drop n) → t.me.holds o.d x.1 32 0xFFFFFFFF)
          ∧ (precedes (x.2.drop n) (x.2.take n) → t.me.holds o.d x.1 32 1))
    ∧ (∀ q : BitOp Unit,
      strReady (.strEq q) q.g (fun l =>
        if refLen (s.me.src64 l q.a) = refLen (s.me.src64 l q.b) then
          [(refAddr (s.me.src64 l q.a), refLen (s.me.src64 l q.a)), (refAddr (s.me.src64 l q.b), refLen (s.me.src64 l q.b))]
        else []) s c bs →
      ∃ t, exec (.strEq q) s = .next t ∧ slotWentOn (.strEq q) s t ∧ t.mem = c.mem
        ∧ s.me.onlyDst t.me (.v q.reg) 32 (s.activeLane q.g)
        ∧ (∀ l k, l < 32 → k ≠ q.bit.toNat → (t.me.vreg q.reg.toNat l).getLsbD k = (s.me.vreg q.reg.toNat l).getLsbD k)
        ∧ ∀ x ∈ bs, let n := refLen (s.me.src64 x.1 q.a)
          (t.me.vreg q.reg.toNat x.1).getLsbD q.bit.toNat =
            decide (n = refLen (s.me.src64 x.1 q.b) ∧ x.2.take n = x.2.drop n))
    ∧ (strReady (.strHash o) o.g strA s c bs → readsGive (.strHash o) o.g o.d 64
        (bs.map fun x => (x.1, (hashMix (hashTail (hashWords ((s.me.src64 x.1 o.b)
          ^^^ (BitVec.ofNat 64 x.2.length * hashK1)) (x.2.length / 8) x.2)
            (x.2.drop (8 * (x.2.length / 8))))).setWidth 128)) s c)
    ∧ (strReady (.strFind o) o.g strA s c bs → readsGive (.strFind o) o.g o.d 32
        (bs.map fun x => (x.1, match x.2.findIdx? fun b => b.setWidth 128 == (s.me.src x.1 32 0 o.b) &&& 0xFF with
          | some k => BitVec.ofNat 128 k
          | none => 0xFFFFFFFF)) s c)
    ∧ (strReady (.strPfx o) o.g (fun l => [(refAddr (s.me.src64 l o.a), min (refLen (s.me.src64 l o.a)) 8)]) s c bs →
      readsGive (.strPfx o) o.g o.d 64
        (bs.map fun x => (x.1, BitVec.ofNat 128 (leNat ((x.2 ++ List.replicate (8 - x.2.length) 0).reverse)))) s c)

/-- R377 and R383: `hash.i64` and, where no lane's count exceeds 32, `part.idx`; a lane whose count does raises
RESOURCE. -/
def Obligations.HashAndPartition : Prop :=
  ∀ (s : State) (o : Alu Unit),
    (issuable (.hashI64 o) s = true → givesLanes (.hashI64 o) o.g o.d 64
      (fun l => (hashMix ((s.me.src64 l o.a * 0x9E3779B97F4A7C15) ^^^ s.me.src64 l o.b)).setWidth 128) s)
    ∧ (let p := fun l => ((s.me.src l 32 0 o.b).setWidth 32 : BitVec 32).toNat
      (∀ l, l < 32 → s.activeLane o.g l = true → p l ≤ 32) → issuable (.partIdx o) s = true →
      givesLanes (.partIdx o) o.g o.d 32
        (fun l => if p l = 0 then 0 else ((s.me.src64 l o.a) >>> (64 - p l)).setWidth 128) s)
    ∧ (let act := s.me.active s.mySlot.mask o.g
      (∀ l, l < 32 → act.getLsbD l = true → 32 < ((s.me.src l 32 0 o.b).setWidth 32 : BitVec 32).toNat) → act ≠ 0 →
      issuable (.partIdx o) s = true → canTrap act s →
      ∃ t, exec (.partIdx o) s = .next t ∧ trapped (.partIdx o) act Cause.resource (fun _ => 0) s t)

/-! ### Allotment and dependence counters (03 R48, R49, 05 R105 to R107, 07 R159, R160) -/

/-- R49, R106: a `grow` that can be granted joins the core's queue and waits; a grant of the oldest request for a pool
gives it whole, with registers, an accumulator or a stream that read zero or stand empty, and the slot goes on.
R107: what `shrink` returns, where no instruction of the group under way, in the other slot or spilled, writes a register
of it; the last 32 registers stay. -/
def Obligations.AllotmentChanges : Prop :=
  (∀ s : State,
      (∀ p a x, let n := s.me.growCount a x
        issuable (.grow p a x) s = true → s.neverGranted s.cur.core s.cur.gslot p n = false →
        s.request? s.cur.core s.cur.gslot s.cur.slot = none →
        ∃ t, exec (.grow p a x) s = .next t ∧ t.cur = s.cur ∧ t.mySlot.state = .blocked ∧ t.mySlot.pc = s.mySlot.pc
          ∧ t.mySlot.mask = s.mySlot.mask ∧ s.me.sameRegs t.me
          ∧ (⟨s.cur.gslot, s.cur.slot, p, n⟩ : GrowReq) ∈ (t.core s.cur.core).grows)
      ∧ (∀ c k q, c < 192 → k < 3 → (s.core c).grows.find? (fun q => poolIs q.pool k && s.grantable c q) = some q →
        s.neverGranted c q.gslot q.pool q.count = false → (s.core c).canGrant q.pool q.count = true →
        let y := (s.group c q.gslot).slot q.slot
        ∃ t, exec (.growGrant c k) s = .next t ∧ (t.core c).grows = (s.core c).grows.erase q
          ∧ ((t.group c q.gslot).slot q.slot).state = .ready ∧ ((t.group c q.gslot).slot q.slot).mask = y.mask
          ∧ (y.len ≠ 0 → ((t.group c q.gslot).slot q.slot).pc = y.pc + BitVec.ofNat 64 y.len)
          ∧ (match q.pool with
            | .regs => (t.group c q.gslot).pool = (s.group c q.gslot).pool + q.count
                ∧ ∀ n l, l < 32 → (t.group c q.gslot).vreg n l =
                    if (s.group c q.gslot).pool ≤ n ∧ n < (s.group c q.gslot).pool + q.count then 0
                    else (s.group c q.gslot).vreg n l
            | .acc a => (t.group c q.gslot).accHeld.getLsbD a.toNat = true
                ∧ ∀ r col, r < 32 → col < 32 → (t.group c q.gslot).accAt a.toNat r col = 0
            | .stream a => (t.group c q.gslot).strHeld.getLsbD a.toNat = true
                ∧ (t.group c q.gslot).streams.find? a.toNat = none)))
  ∧ (∀ (s : State) (a : Src) (x : Ext),
      (let n := s.me.growCount a x
       issuable (.shrink .regs a x) s = true → s.usesReturned n = false → 0 < n → n % 16 = 0 → 32 + n ≤ s.me.pool →
        ∃ t, exec (.shrink .regs a x) s = .next t ∧ slotWentOn (.shrink .regs a x) s t ∧ s.elsewhereSame t
          ∧ t.me.pool = s.me.pool - n ∧ t.me.s = s.me.s ∧ t.me.bl = s.me.bl ∧ t.me.acc = s.me.acc
          ∧ ∀ k l, l < 32 → k < s.me.pool - n → t.me.vreg k l = s.me.vreg k l)
      ∧ (∀ k, issuable (.shrink (.acc k) a x) s = true → s.accBusy s.cur.core s.cur.gslot k.toNat = false →
        ∃ t, exec (.shrink (.acc k) a x) s = .next t ∧ slotWentOn (.shrink (.acc k) a x) s t ∧ s.elsewhereSame t
          ∧ (∀ j : BitVec 2, t.me.accHeld.getLsbD j.toNat = (s.me.accHeld.getLsbD j.toNat && j != k))
          ∧ t.me.v = s.me.v ∧ t.me.s = s.me.s ∧ t.me.pool = s.me.pool)
      ∧ (∀ k, issuable (.shrink (.stream k) a x) s = true → s.streamBusy s.cur.core s.cur.gslot k.toNat = false →
        ∃ t, exec (.shrink (.stream k) a x) s = .next t ∧ slotWentOn (.shrink (.stream k) a x) s t ∧ s.elsewhereSame t
          ∧ (∀ j : BitVec 2, t.me.strHeld.getLsbD j.toNat = (s.me.strHeld.getLsbD j.toNat && j != k))
          ∧ t.me.v = s.me.v ∧ t.me.s = s.me.s ∧ t.me.pool = s.me.pool))

/-- R159 and R160: `dep.add` stops at 2^32 - 1, `dep.sub` at zero, where it sets the sticky bit; the destination
holds the new count, and no other counter changes. That `dep.sub`
leaves zero is the model's reading (log 48). -/
def Obligations.DependenceCounters : Prop :=
  ∀ (s : State) (g : Guard) (d : Option (BitVec 6)) (ix : BitVec 6) (b : Src) (x : Ext),
    let k := s.me.sreg ix.toNat
    let n := (s.me.src32 0 x b).toNat
    let done := fun (i : Instr) (new : Nat) (under : Bool) =>
      ∃ t, exec i s = .next t ∧ slotWentOn i s t ∧ t.mem = s.mem
        ∧ (t.dep k.toNat).count.toNat = new ∧ (t.dep k.toNat).under = under ∧ (t.dep k.toNat).owner = s.me.asid
        ∧ (∀ j, j ≠ k.toNat → t.dep j = s.dep j)
        ∧ (∀ m, d = some m → t.me.sreg m.toNat = BitVec.ofNat 64 new)
        ∧ (∀ m : BitVec 6, d ≠ some m → t.me.sreg m.toNat = s.me.sreg m.toNat) ∧ t.me.v = s.me.v
    s.me.active s.mySlot.mask g ≠ 0 → k.toNat < 4096 → (s.dep k.toNat).owner = s.me.asid →
    (issuable (.depAdd g d ix b x) s = true →
      done (.depAdd g d ix b x) (min ((s.dep k.toNat).count.toNat + n) (2 ^ 32 - 1)) (s.dep k.toNat).under)
    ∧ (issuable (.depSub g d ix b x) s = true →
      done (.depSub g d ix b x) ((s.dep k.toNat).count.toNat - n)
        ((s.dep k.toNat).under || decide ((s.dep k.toNat).count.toNat < n)))

/-! ### `launch` (07 R161 to R164) -/

/-- R161 to R163: the lanes of a `launch` whose template and records can be read, within the ring's room, are appended in lane
order to the template's open manifest, which is opened with the context's next serial where there is none; the manifest
closes at 4,096 records, and the rest of the lanes open the next one. Each lane's ticket is serial x 4,096 + position, and
its record stands at its place in the ring, said where the core holds the translation of the ring's pages. R164:
`launch.flush` closes the open manifest. A template and a ring position that a rule does not
speak of are read as log 27 says. -/
def Obligations.LaunchesAppend : Prop :=
  ∀ (s : State) (g : Guard) (d : Option (BitVec 8)) (tmpl : BitVec 6) (recs : BitVec 8),
    let i := Instr.launch g d tmpl recs
    let act := s.me.active s.mySlot.mask g
    let a := s.me.asid
    let ta := s.me.sreg tmpl.toNat
    (∀ (c k : State) (ws : List Word) (rec_ : Nat → List Word), issuable i s = true → act ≠ 0 → ta.toNat % 128 = 0 →
      let size := field ws 5 16 8
      let ea := fun l => (s.me.vwide recs.toNat l 64).setWidth 64
      let n := (lanes act).length
      s.groupWords 16 ta = (c, .ok ws) → c.templateOk a ws = true →
      c.laneRecords size ea (lanes act) = (k, (lanes act).map fun l => (l, ea l, .ok (rec_ l))) →
      (k.ringUsed a ta).1 + n ≤ field ws 4 0 32 →
      (∃ ts, (k.appendLanes a ta ws ((lanes act).map fun l => (l, rec_ l))).2 = .ok (ts, [])) →
      (s.aloneInGroup = true ∨ ∀ l ∈ lanes act,
        k.peerAt (ea l) = false ∧ k.peerAt (ea l + BitVec.ofNat 64 (8 * (size - 1))) = false) →
      let ser := ((k.openOf a ta).map fun o => o.serial).getD (k.ctx a).serial
      let cnt := ((k.openOf a ta).map fun o => o.count).getD 0
      cnt < 4096 → (∀ o, k.openOf a ta = some o → field o.words 4 0 32 = field ws 4 0 32) →
      ∃ t, exec i s = .next t ∧ slotWentOn i s t ∧ t.me.s = s.me.s
        ∧ (∀ m l, l < 32 → (∀ n, d = some n → m ≠ n.toNat ∧ m ≠ n.toNat + 1) → t.me.vreg m l = s.me.vreg m l)
        ∧ (cnt + n < 4096 → ∃ o, t.openOf a ta = some o ∧ o.serial = ser ∧ o.count = cnt + n ∧ t.launches = k.launches
            ∧ (t.ctx a).serial = (k.ctx a).serial + (if k.openOf a ta = none then 1 else 0))
        ∧ (4096 ≤ cnt + n → ∃ l, t.launches = k.launches ++ [l] ∧ l.id = packetId a 0xFFFF ser ∧ l.x = 4096
            ∧ l.y = 1 ∧ l.z = 1 ∧ l.tmpl = ta
            ∧ (cnt + n = 4096 → t.openOf a ta = none)
            ∧ (4096 < cnt + n → ∃ o, t.openOf a ta = some o ∧ o.serial = (k.ctx a).serial ∧ o.count = cnt + n - 4096
                ∧ (t.ctx a).serial = (k.ctx a).serial + 1))
        ∧ (∀ m j l, d = some m → (lanes act)[j]? = some l → t.me.vwide m.toNat l 64 = (BitVec.ofNat 64
            (if cnt + j < 4096 then ser.toNat * 4096 + cnt + j
             else (k.ctx a).serial.toNat * 4096 + (cnt + j - 4096))).setWidth 128)
        ∧ ∀ at_ : Nat → Nat → Where, (∀ j k', j < n → k' < size → ringPage k (ringVa k a ta ws j k') (at_ j k')) →
            ((List.range n).flatMap fun j => (List.range size).map fun k' => (at_ j k').pa).Pairwise
              (fun p q => p + 8 ≤ q ∨ q + 8 ≤ p) →
            ∀ j k' l, (lanes act)[j]? = some l → k' < size → t.read64 (at_ j k').pa = (rec_ l).getD k' 0)
    ∧ (issuable (.launchFlush g tmpl) s = true → act ≠ 0 →
      ∃ t, exec (.launchFlush g tmpl) s = .next t ∧ slotWentOn (.launchFlush g tmpl) s t ∧ s.me.sameRegs t.me
        ∧ t.openOf a ta = none ∧ t.mem = s.mem
        ∧ (s.openOf a ta = none → s.elsewhereSame t)
        ∧ (∀ o, s.openOf a ta = some o → ∃ l, t.launches = s.launches ++ [l] ∧ l.id = packetId o.asid 0xFFFF o.serial
            ∧ l.x = o.count ∧ l.y = 1 ∧ l.z = 1 ∧ l.tmpl = o.tmpl))

/-! ### Exceptions (02 R29, R30, 06 R110 to R113, R116, R135 to R138) -/

/-- R23, R29 and R30: bytes that decode to no instruction are StepRunsDecoded's; an ill-formed, a privileged or an out-of-range instruction parks its whole slot with ILLEGAL_INSTR,
PRIVILEGED or REG_RANGE, the first of these that applies, and has no other effect on the group; one whose guard leaves no
lane only advances the PC, but for `brx` (R94). -/
def Obligations.IssueRefusals : Prop :=
  ∀ (s : State) (i : Instr) (f : Fields), fieldsOf i = some f → s.mySlot.state ≠ .empty → s.mySlot.mask ≠ 0 →
    (wellFormed i = false → refusedWith i Cause.illegal s)
    ∧ (wellFormed i = true → needsPrivilege i = true → s.me.privileged = false → refusedWith i Cause.privileged s)
    ∧ (wellFormed i = true → (needsPrivilege i = false ∨ s.me.privileged = true) → s.me.outOfRange i = true →
        refusedWith i Cause.regRange s)
    ∧ (issuable i s = true → s.me.active s.mySlot.mask (guardOf f.gd) = 0 → (∀ o, i ≠ .brx o) → onlyAdvances i s)

/-- R135, R136: `sys`, `trap` and `brk` take their exception: the active lanes park with SYSCALL, SOFT_TRAP or BREAKPOINT,
each with its own number in its detail word, and the slot's other lanes go on. -/
def Obligations.TrapsTaken : Prop :=
  ∀ (s : State) (g : Guard) (a : Src) (x : Ext),
    let act := s.me.active s.mySlot.mask g
    let number := fun l => (s.me.src32 l x a).setWidth 64
    act ≠ 0 → canTrap act s →
    (issuable (.sys g a x) s = true →
      ∃ t, exec (.sys g a x) s = .next t ∧ trapped (.sys g a x) act Cause.syscall number s t)
    ∧ (issuable (.trap g a x) s = true →
      ∃ t, exec (.trap g a x) s = .next t ∧ trapped (.trap g a x) act Cause.softTrap number s t)
    ∧ (issuable (.brk g a x) s = true → s.attached s.me.asid = false →
      ∃ t, exec (.brk g a x) s = .next t ∧ trapped (.brk g a x) act Cause.breakpoint number s t)
    ∧ (issuable (.brk g a x) s = true → s.attached s.me.asid = true → s.hasTeam s.cur.core s.me.team = true →
      ∃ t e, exec (.brk g a x) s = .next t ∧ (t.team s.cur.core s.me.team).halted = true
        ∧ (s.entry s.cur.core e).state = .free ∧ (t.entry s.cur.core e).state = .held
        ∧ (t.entry s.cur.core e).cause = Cause.breakpoint ∧ (t.entry s.cur.core e).mask = act
        ∧ (t.entry s.cur.core e).pc = s.mySlot.pc
        ∧ ∃ m ∈ (t.ctx s.me.asid).msgs, m.kind = .stop ∧ m.index = e ∧ m.core = s.cur.core ∧ m.pc = s.mySlot.pc)

/-- R64, R65: an `fadd` on which some active lane raises an enabled exception parks exactly those lanes: each has its own
cause, 0x0A + its lowest enabled exception; the entry's cause is the lowest, and the detail word is 0 for a lane whose own
cause that is, and the lane's own cause for another. The other active lanes write their results and flags. -/
def Obligations.FloatTraps : Prop :=
  ∀ (s : State) (o : Alu Rm),
    let f := fun l => perElem o.ty (fun k => (fmtOf o.ty).add o.f (fpA s o l k) (fpB s o l k))
    let act := s.me.active s.mySlot.mask o.g
    let en := fun l => (f l).2 &&& s.me.fpctl
    let bad := maskOf ((lanes act).filter fun l => en l != 0)
    let own : Nat → BitVec 8 := fun l => 0x0A + BitVec.ofNat 8 (((List.range 5).find? fun k => (en l).getLsbD k).getD 0)
    issuable (.fadd o) s = true → bad ≠ 0 → canTrap bad s →
      ∃ t c, exec (.fadd o) s = .next t
        ∧ (∃ l, l < 32 ∧ bad.getLsbD l = true ∧ own l = c) ∧ (∀ l, l < 32 → bad.getLsbD l = true → c.toNat ≤ (own l).toNat)
        ∧ parkedAs (.fadd o) bad c (fun l => if own l = c then 0 else (own l).setWidth 64) s t
        ∧ (∀ l, l < 32 → (act &&& ~~~bad).getLsbD l = true → t.me.holds o.d l (regBits o.ty) (f l).1)
        ∧ (∀ l, l < 32 → t.me.flags l =
            if (act &&& ~~~bad).getLsbD l then s.me.flags l ||| (f l).2 else s.me.flags l)
        ∧ s.me.onlyDst { t.me with fpflags := s.me.fpflags } o.d (regBits o.ty) (fun l => (act &&& ~~~bad).getLsbD l)

/-- R137, Table 6-11: a `sigret` whose lanes' frames can be read and hold aligned addresses: the lanes that hold the RPC of
the lowest-numbered lane go there, with `v248` to `v255` within the allotment and `%stack` as their frames hold them.
How a frame is read is the model's reading (log 31). -/
def Obligations.SignalReturn : Prop :=
  ∀ (s c : State) (g : Guard) (fr : Nat → FrameRead),
    let act := s.me.active s.mySlot.mask g
    let pc := (fr (lowest act)).rpc
    let taken := maskOf ((lanes act).filter fun l => (fr l).rpc == pc)
    let stay := act &&& ~~~taken
    let through := s.mySlot.mask &&& ~~~act
    issuable (.sigret g) s = true → act ≠ 0 → framesRead s c act fr →
    (∀ l, l < 32 → act.getLsbD l = true → (fr l).rpc.toNat % 4 = 0) →
    ((stay = 0 ∧ through = 0 ∧ ∀ l ∈ lanes act, c.framePeer l = false)
      ∨ ((stay = 0 ∨ through = 0) ∧ s.aloneInGroup = true)) →
      ∃ t, exec (.sigret g) s = .next t ∧ t.cur = s.cur ∧ slotIs t.mySlot pc s.mySlot.rcv taken
        ∧ (if stay ||| through = 0 then t.me.slot (other s.cur.slot) = s.me.slot (other s.cur.slot)
           else slotIs (t.me.slot (other s.cur.slot)) (if stay = 0 then s.nextPc (.sigret g) else s.mySlot.pc)
             s.mySlot.rcv (stay ||| through))
        ∧ (∀ l, l < 32 → taken.getLsbD l = true → t.me.stk l = (fr l).stack
            ∧ ∀ k, k < 8 → 248 + k < s.me.pool → t.me.vreg (248 + k) l = (fr l).saved.getD k 0)
        ∧ (∀ l, l < 32 → taken.getLsbD l = false → t.me.stk l = s.me.stk l)
        ∧ (∀ n l, l < 32 → (n < 248 ∨ taken.getLsbD l = false) → t.me.vreg n l = s.me.vreg n l)
        ∧ t.me.s = s.me.s

/-- R63, R117 and R138: `rdcr` gives the control register; a scalar takes the one of the lowest-numbered active lane.
R62, R63, R117 and R138: `wrcr` leaves its value, without the reserved bits, in the register it names, of the group,
of the core or of the core's copy of the context's registers, and the slot goes on; a core that holds no copy takes one from
the context's master block, and reserved codes are not kept, which are the model's readings (log 32); each active lane
writes its own `fpflags`; WDOG holds EXP to its range and keeps FIRED unless the write clears it (Table 6-7). Every
other control register, every other core's copies and every context's master block are as they were. -/
def Obligations.ControlRegisters : Prop :=
  (∀ (s : State) (o : CrOp), issuable (.rdcr o) s = true →
      givesLanes (.rdcr o) o.g o.d (if o.wide then 64 else 32)
        (fun l => (controlIs s o.crn.toNat (if dk o.d then lowest (s.me.active s.mySlot.mask o.g) else l)).setWidth 128) s)
  ∧ (∀ (s : State) (o : CrOp),
      let act := s.me.active s.mySlot.mask o.g
      let v := fun l => (s.me.src l (if o.wide then 64 else 32) 0 o.a).setWidth 64
      let n := o.crn.toNat
      issuable (.wrcr o) s = true → act ≠ 0 →
        ∃ t, exec (.wrcr o) s = .next t ∧ slotWentOn (.wrcr o) s t
          ∧ (n ≠ 2 → n ≠ 0x104 → ∀ l, controlIs t n l = controlAfter n (v (lowest act)))
          ∧ (n = 2 → ∀ l, l < 32 → t.me.flags l = if act.getLsbD l then (v l).setWidth 5 else s.me.flags l)
          ∧ (n = 0x104 → let w := controlIs t n 0
              let e := ((v (lowest act)).extractLsb' 0 6).toNat
              w.getLsbD 8 = ((controlIs s n 0).getLsbD 8 && !(v (lowest act)).getLsbD 8)
                ∧ (w.extractLsb' 0 6).toNat = (if e = 0 then 0 else max 20 (min 34 e))
                ∧ ∀ k, 6 ≤ k → k ≠ 8 → w.getLsbD k = false)
          ∧ (∀ m l, m < 4096 → m ≠ n → crnAssigned (BitVec.ofNat 12 m) = true → controlIs t m l = controlIs s m l)
          ∧ t = { s with cores := t.cores, ctxs := t.ctxs }
          ∧ (∀ a, t.ctx a = { s.ctx a with window := (t.ctx a).window })
          ∧ (∀ c, c ≠ s.cur.core → t.core c = s.core c)
          ∧ (∀ a, a ≠ s.me.asid → (t.core s.cur.core).copies.find? a = (s.core s.cur.core).copies.find? a)
          ∧ (∀ g, g ≠ s.cur.gslot → t.group s.cur.core g = s.group s.cur.core g)
          ∧ t.me = { s.me with slot0 := t.me.slot0, slot1 := t.me.slot1, fpctl := t.me.fpctl, fpflags := t.me.fpflags,
                               sstep := t.me.sstep, steps := t.me.steps })

/-! ### Privileged instructions (06 R139 to R143) -/

/-- R139, R140, R143: `park` claims the PENDING entry that goes first, `unpark` resolves an entry and goes on, `tlbi` leaves
no named translation in any cache, `halt` halts every team it names and `halt.release` takes its reasons away but for a
STOP, a dump and a record that could not be written (logs 28 and 41). -/
def Obligations.SupervisorInstructions : Prop :=
  ∀ (s : State) (o : PrivOp),
    let c := s.cur.core
    (supervises (.park o) o s → Store.rising (s.core c).landing = true → (∃ j, (s.entry c j).state = .pending) →
      ∃ i, (s.entry c i).state = .pending
        ∧ (∀ j, (s.entry c j).state = .pending → (s.entry c j).before (s.entry c i) = false)
        ∧ privGives (.park o) o s (BitVec.ofNat 64 i) fun t =>
          (t.entry c i).state = .inService ∧ ∀ j, j ≠ i → t.entry c j = s.entry c j)
    ∧ (supervises (.park o) o s → o.fn = 1 → (∀ x ∈ (s.core c).landing, x.2.state ≠ .pending) →
      privGives (.park o) o s (BitVec.allOnes 64) fun t => s.elsewhereSame t)
    ∧ (∀ u, let i := (s.me.opt o.a).toNat
      supervises (.unpark o) o s → i < 2048 → (s.entry c i).resolvable = true → (s.entry c i).gslot ≠ Config.supervisorSlot →
      s.obeyed c i o.fn.toNat = true → s.tryResolve c i o.fn.toNat = (u, true) →
      privGives (.unpark o) o s 0 fun t => t.mem = u.mem ∧ (∀ j, t.entry c j = u.entry c j)
        ∧ ∀ g, g ≠ Config.supervisorSlot → t.group c g = u.group c g)
    ∧ (let i := (s.me.opt o.a).toNat
      supervises (.unpark o) o s → (2048 ≤ i ∨ (s.entry c i).resolvable = false ∨ s.obeyed c i o.fn.toNat = false) →
      ∃ t, exec (.unpark o) s = .next t ∧ (t.core c).faulted = true
        ∧ ((s.core c).faulted = false → (t.core c).stopped = true ∧ (t.core c).svc = .faulted))
    ∧ (let name : TlbName := if o.fn = 0 then .page ((s.me.opt o.b).extractLsb' 0 16).toNat (s.me.opt o.a)
         else if o.fn = 1 then .asid ((s.me.opt o.a).extractLsb' 0 16).toNat else .all
      supervises (.tlbi o) o s → s.usesNamed name = false →
      privGives (.tlbi o) o s 0 fun t => t.mem = s.mem ∧ s.me.sameRegs t.me
        ∧ (∀ k key l, (t.core k).tlb.find? key = some l → name.leaf key l = false)
        ∧ (∀ k key l, (s.core k).tlb.find? key = some l → name.leaf key l = false → (t.core k).tlb.find? key = some l)
        ∧ (∀ key w, t.walk.find? key = some w → name.table key = false))
    ∧ (supervises (.halt o) o s → privGives (.halt o) o s 0 fun t => ∀ n, halted s o n → (t.team c n).halted = true)
    ∧ (supervises (.haltRelease o) o s → privGives (.haltRelease o) o s 0 fun t =>
      ∀ n, halted s o n → (t.team c n).halts = (s.team c n).halts.filter fun r =>
        r == .stop || r == .dump || r == .late || r == .unsaved)

/-- R125 to R132, R141, R142, R166, R168: `ctx.save` and `ctx.load` move a context's registers between a core and a block,
and `team.out`, `team.in`, the rotation, the host's swap requests and the dispatcher's swap-in move teams, with the
status that Table 6-17 and SWAPSTAT give. How `team.in` finds its context, the status of a full slipway and
the room on a core are the model's readings (logs 24, 25 and 26), as are that `ctx.save` of a context without a copy on the
core saves its master block (log 32) and that a team whose record could not be written stays and is not asked again (log 28). -/
def Obligations.ContextsAndTeamsMove : Prop :=
  (∀ (s : State) (o : PrivOp),
    let c := s.cur.core
    let pa := (s.me.opt o.a).toNat
    let a := ((s.me.opt o.b).extractLsb' 0 16).toNat
    let n := (s.me.opt o.a).toNat
    (supervises (.ctxSave o) o s → pa % 64 = 0 → blockOf pa = none → isPeer pa = false → isPeer (pa + 255) = false →
      privGives (.ctxSave o) o s 0 fun t =>
        ∀ k, k < 32 → t.read64 (pa + 8 * k) = (s.regs c a).read (0x100 + k))
    ∧ (∀ b, supervises (.ctxSave o) o s → pa % 64 = 0 → blockOf pa = some b →
      privGives (.ctxSave o) o s 0 fun t => (t.ctx b).master = s.regs c a)
    ∧ (supervises (.ctxLoad o) o s → pa % 64 = 0 →
        (((s.core c).copies.find? a).isSome = true ∨ a = 0 ∨ (s.core c).residents.length < 16) →
      privGives (.ctxLoad o) o s 0 fun t => t.regs c a = s.readBlock pa ∧ ∀ k, k ≠ a → t.regs c k = s.regs c k)
    ∧ (supervises (.teamOut o) o s → (64 ≤ n ∨ s.hasTeam c n = false) →
      privGives (.teamOut o) o s 1 fun t => s.elsewhereSame t)
    ∧ (∀ u m, supervises (.teamOut o) o s → mayLeave s c n → s.ownMove n = false →
        (s.beginMove c n).continueOut c n = (u, some m) →
      privGives (.teamOut o) o s (if m = 5 then 3 else BitVec.ofNat 64 m) fun t =>
        if m = 0 then hasLeft s t c n
        else t.hasTeam c n = true ∧ (t.team c n).moving = false
          ∧ ((s.core c).leaving = true → (t.team c n).unsaved = true))
    ∧ (supervises (.teamOut o) o s → n < 64 → s.hasTeam c n = true → (s.team c n).moving = false →
        (s.team c n).dumped = false → (s.team c n).unsaved = true → s.ownMove n = false →
      privGives (.teamOut o) o s 3 fun t => s.elsewhereSame t)
    ∧ (∀ u r m, supervises (.teamIn o) o s → s.tryTeamIn c (s.me.opt o.a) = (u, r) →
        (r = .ok m ∨ ((∃ x, r = .no x) ∧ m = 3)) →
      privGives (.teamIn o) o s (BitVec.ofNat 64 m) fun t =>
        (m = 0 → r = .ok 0 → noneKilled s → hasCome s t c) ∧ (m ≠ 0 → ∀ n, (t.core n).teams = (s.core n).teams)))
  ∧ (∀ (s u : State) (c n m a : Nat) (w : Word),
    (wellFormed (.rotation c n) = true → mayLeave s c n → s.tripped = false →
      ((s.team c n).halted = false ∨ (s.core c).leaving = true) → ((s.core c).faulted = true ∨ s.movedHere c n = false) →
      (s.team c n).hostAsked = false → (s.beginMove c n).continueOut c n = (u, some m) →
      ∃ t, steps (.rotation c n) s t ∧
        if m = 0 then hasLeft s t c n
        else t.hasTeam c n = true ∧ (t.team c n).moving = false
          ∧ ((s.core c).leaving = true → (t.team c n).unsaved = true))
    ∧ (wellFormed (.swapreqOut a w) = true → s.boot ≠ .ioOnly → s.tripped = false → s.swapBusy a = false → w.extractLsb' 40 2 = 1 →
      s.findTeam (s.ctx a).swapl (w.extractLsb' 0 32).toNat = some (c, n) → (s.team c n).asid = a → mayLeave s c n →
      (((s.beginMove c n).onTeam c n fun x => { x with hostAsked := true }).onCtx a
        fun y => { y with swapstat := 0x100 }).continueOut c n = (u, some m) →
      ∃ t, steps (.swapreqOut a w) s t ∧ (t.ctx a).swapstat = BitVec.ofNat 64 m ∧ (m = 0 → hasLeft s t c n))
    ∧ (wellFormed (.swapreqOut a w) = true → s.boot ≠ .ioOnly → s.swapBusy a = false → w.extractLsb' 40 2 = 1 →
      s.findTeam (s.ctx a).swapl (w.extractLsb' 0 32).toNat = none →
      ∃ t, steps (.swapreqOut a w) s t ∧ (t.ctx a).swapstat = 6 ∧ t.cores = s.cores)
    ∧ (wellFormed (.swapreqOut a w) = true → s.boot ≠ .ioOnly → s.tripped = false → s.swapBusy a = false →
      w.extractLsb' 40 2 = 1 → s.findTeam (s.ctx a).swapl (w.extractLsb' 0 32).toNat = some (c, n) → (s.team c n).asid = a →
      (s.team c n).moving = false → (s.team c n).dumped = false → (s.team c n).unsaved = true →
      ∃ t, steps (.swapreqOut a w) s t ∧ (t.ctx a).swapstat = 3 ∧ t.cores = s.cores)
    ∧ (let k := if (w.extractLsb' 32 8).toNat = 255 then c else (w.extractLsb' 32 8).toNat
      let tid := (w.extractLsb' 0 32).toNat
      wellFormed (.swapreqIn a w c) = true → s.boot ≠ .ioOnly → s.tripped = false → s.swapBusy a = false →
      w.extractLsb' 40 2 = 2 → k < 192 →
      (s.onCtx a fun y => { y with swapstat := 0x100, swapAsk := some (k, (s.ctx a).swapl, tid) }).swapInSlot k a
        (fun y => y.launch == (s.ctx a).swapl && y.tid == tid) = (u, some m) →
      ∃ t, steps (.swapreqIn a w c) s t ∧ (t.ctx a).swapstat = BitVec.ofNat 64 m
        ∧ (m = 0 → noneKilled s → hasCome s t k))
    ∧ (let place := (s.regs c a).slip + BitVec.ofNat 64 (32 * n)
      wellFormed (.teamSwapInDispatch a n c) = true → n < 8192 → s.serving c = true →
      s.swapInSlot c a (fun y => y.at_ == place) = (u, some 0) → noneKilled s →
      ∃ t, steps (.teamSwapInDispatch a n c) s t ∧ hasCome s t c))

/-- R114, R121, R123, R124, R134, R269, Tables 6-3 and 6-10: what the resolutions do with a claimed entry that stands in a
slot, what a resolve word does, and what a release does. The halt reasons of saved teams and the kill
of a team that is leaving are the model's readings (log 28), as are that a SKIP whose instruction can no longer be read is not
obeyed (log 9) and that a release leaves a dump's holds (log 41). -/
def Obligations.ResolutionsAct : Prop :=
  (∀ (s : State) (c i : Nat), c < 192 → i < 2048 → claimed s c i →
    let e := s.entry c i
    let y := slotOf s s c i
    (∃ t, steps (.resolveRetry c i) s t ∧ slotIs (slotOf s t c i) e.pc y.rcv y.mask ∧ (t.entry c i).state = .free)
    ∧ (∀ k, s.skipLen c i = .ok k → k ≠ 0 → ∃ t, steps (.resolveSkip c i) s t
        ∧ slotIs (slotOf s t c i) (e.pc + BitVec.ofNat 64 k) y.rcv y.mask ∧ (t.entry c i).state = .free)
    ∧ ((s.skipLen c i = .ok 0 ∨ ∃ x, s.skipLen c i = .no x) → steps (.resolveSkip c i) s s)
    ∧ (∀ u fs, s.frameSpots c e.gslot (lanes e.mask) = (u, .ok fs) → (∀ r ∈ fs, ∃ w, r.2.2 = .ok w) →
        ∃ t, steps (.resolveSignal c i) s t ∧ (t.entry c i).state = .free
          ∧ slotIs (slotOf s t c i) (s.regs c e.asid).sigh y.rcv y.mask
          ∧ ∀ l, l < 32 → (t.group c e.gslot).stk l =
              if e.mask.getLsbD l then ((s.group c e.gslot).stk l - 64) &&& 0xFFFFFFFFFFFFFFC0 else (s.group c e.gslot).stk l)
    ∧ (s.hasTeam c e.team = true → ∃ t, steps (.resolveStop c i) s t ∧ (t.entry c i).state = .held
        ∧ (t.team c e.team).halted = true ∧ ∃ m ∈ (t.ctx e.asid).msgs, m.kind = .stop ∧ m.core = c ∧ m.index = i)
    ∧ (∃ t, steps (.resolveKill c i) s t ∧ (t.entry c i).state = .free ∧ (slotOf s t c i).state = .empty))
  ∧ (∀ (s : State) (a : Nat) (w : Word), a < 65536 →
    let c := (w.extractLsb' 0 8).toNat
    let i := (w.extractLsb' 8 11).toNat
    let k := (w.extractLsb' 19 3).toNat
    let named := c < 192 ∧ k ≤ 4 ∧ (s.entry c i).seq = w.extractLsb' 32 32 ∧ (s.entry c i).resolvable = true
      ∧ (s.entry c i).asid = a ∧ s.boot ≠ .ioOnly
    (named → ∃ t, steps (.resolve a w) s t ∧ exec (match k with
        | 0 => .resolveRetry c i | 1 => .resolveSkip c i | 2 => .resolveSignal c i | 3 => .resolveStop c i
        | _ => .resolveKill c i) s = .next t)
    ∧ (¬named → steps (.resolve a w) s s))
  ∧ (∀ (s : State) (a c n : Nat), a < 65536 → s.boot ≠ .ioOnly →
    (∃ t, steps (.releaseTeams a) s t ∧
      (s.hasTeam c n = true → (s.team c n).asid = a →
        (t.team c n).halts = (s.team c n).halts.filter fun r => r == .dump || r == .late || r == .unsaved)
      ∧ ∀ x ∈ t.saved, x.asid = a → x.halts = [])
    ∧ (∃ t, steps (.killTeams a) s t
        ∧ (∀ g, g < 64 → s.hasTeam c n = true → (s.team c n).asid = a → (s.team c n).halted = true →
            (∃ y, (g, y) ∈ s.groupsOf c n) → t.lanesLeft c g = 0)
        ∧ ∀ x ∈ s.saved, x.asid = a → x.halts ≠ [] → ∃ y ∈ t.saved, y.record = x.record ∧ y.killed = true))
  ∧ (∀ (s : State) (a c e : Nat) (g : BitVec 24) (k m : Nat) (op : Op), a < 65536 → c < 192 → e < 256 → s.boot ≠ .ioOnly →
    s.resolveToken a false (handleOf g c e) = .live k m op → s.op? k m = some op → op.state = .faulted →
    (¬(op.op = 0x96 ∧ (op.cause = Cause.remoteOp ∨ op.cause = Cause.remoteTimeout)) →
      ∃ t q, steps (.tokresolveResume a c e g) s t ∧ t.op? k m = some q ∧ q.state = .issued ∧ q.cursor = op.cursor)
    ∧ (∃ t q, steps (.tokresolveCancel a c e g) s t ∧ t.op? k m = some q ∧ q.state = .cancelled))

/-! ### Trace, counters, services and engines (06 R118 to R120, R133, 08 R172 to R180, 13 R264 to R271, 15 R304 to R313) -/

/-- R177 to R180: `trace` and `mark` write their records, `rdctr` reads a count, and the tick latches every counter of every
context resident on a core. The counters of cycles, misses and conflicts are free values (log 19). -/
def Obligations.TraceAndCounters : Prop :=
  ∀ (s : State) (g : Guard) (id : Src) (x : Ext),
    let act := s.me.active s.mySlot.mask g
    let d := (s.ctx s.me.asid).dbg
    (∀ v, let i := Instr.trace g id v x
      issuable i s = true → act ≠ 0 →
      (d.trcfg.getLsbD 8 = false → onlyAdvances i s)
      ∧ (traceRoom s 3 → ∃ t, exec i s = .next t ∧ slotWentOn i s t ∧ s.me.sameRegs t.me
          ∧ (t.ctx s.me.asid).dbg.trprod = d.trprod + 3 ∧ traced s t 2 (traceId s id x) act
          ∧ ∀ l, l < 32 → t.read32 (traceUnit s (1 + l / 16) + 4 * (l % 16)) =
              if act.getLsbD l then s.me.vreg v.toNat l else 0))
    ∧ (let i := Instr.mark g id x
      issuable i s = true → act ≠ 0 →
      (d.trcfg.getLsbD 8 = false → onlyAdvances i s)
      ∧ (traceRoom s 1 → ∃ t, exec i s = .next t ∧ slotWentOn i s t ∧ s.me.sameRegs t.me
          ∧ (t.ctx s.me.asid).dbg.trprod = d.trprod + 1 ∧ traced s t 1 (traceId s id x) act)
      ∧ (d.trcfg.getLsbD 8 = true → 2 ^ (d.trcfg.extractLsb' 0 5).toNat = (d.trprod - d.trcons).toNat →
          ∃ t, exec i s = .next t ∧ slotWentOn i s t ∧ t.mem = s.mem
            ∧ (t.ctx s.me.asid).dbg.trprod = d.trprod ∧ (t.ctx s.me.asid).dbg.dropped = d.dropped + 1))
    ∧ (∀ lat dst, let i := Instr.rdctr g lat dst id x
      let n := (traceId s id x).toNat
      let k := s.core s.cur.core
      (issuable i s = true → n ≤ 15 → givesLanes i g dst 32 (fun _ =>
        (if lat then k.latched.get 0 (16 * s.me.asid + n)
         else if n = 15 then 0
         else if n ∈ [1, 2, 3, 4, 9, 10, 13] then Config.timingCount s.cur.core s.me.asid n s.turn
         else k.counters.get 0 (16 * s.me.asid + n)).setWidth 128) s)
      ∧ (issuable i s = true → 15 < n → act ≠ 0 → canTrap act s →
        ∃ t, exec i s = .next t ∧ trapped i act Cause.resource (fun _ => 0) s t))
    ∧ (s.time % 2 ^ s.tick = 0 → s.ticked ≠ s.time → ∃ t, steps .counterTick s t ∧ ∀ c a n, ((s.core c).copies.find? a).isSome = true → n < 16 →
        (t.core c).latched.get 0 (16 * a + n) = s.liveCount c a n)
    ∧ ((s.time % 2 ^ s.tick ≠ 0 ∨ s.ticked = s.time) → steps .counterTick s s)

/-- R44, R100, R116, R118 to R120, R122, R133, R216, R269: what the device's services do. A zero-fill and a COW copy are said of
an entry with one lane, up to the RETRY that follows. That a service acts for one lane and
then retries is the model's reading (log 38). -/
def Obligations.ServicesAct : Prop :=
  (∀ (s : State) (c i l pa f : Nat) (w : Word), c < 192 → i < 2048 → l < 32 →
    let e := s.entry c i
    let va := e.detail.get 0 l
    let ring := (s.regs c e.asid).freering.toNat
    s.serving c = true → e.state = .pending → e.mask = BitVec.twoPow 32 l → s.pageAt c e.asid va = .entry pa w 0 →
    s.nextFrame c e.asid = .ok (some f) → f < 2 ^ 52 →
    (e.cause = Cause.notPresent → eP w = false → eZf w = true → (s.regs c e.asid).svcmode.getLsbD 0 = true →
      spansApart [(pa, 8), (f, 4096), (ring + 4, 4)] →
      ∃ u : State, steps (.zeroFillService c i) s (u.resolveEntry c i 0) ∧ u.read32 (ring + 4) = s.read32 (ring + 4) + 1
        ∧ (∀ a, f ≤ a → a < f + 4096 → u.readByte a = 0)
        ∧ ∀ k, k < 64 → (u.read64 pa).getLsbD k =
            if k = 0 ∨ k = 4 then true else if k = 5 ∨ k = 6 ∨ k = 54 then false
            else if 12 ≤ k ∧ k < 52 then (BitVec.ofNat 64 f).getLsbD k else w.getLsbD k)
    ∧ (let d := (s.ctx e.asid).dbg
      let slot := d.drainbase.toNat + 32 * (d.drainprod.toNat % 2 ^ (d.draincfg.extractLsb' 0 5).toNat)
      e.cause = Cause.permission → e.writing = true → s.cowPage w 0 (s.group c e.gslot).privileged = true →
      s.joinedLeaf (s.svcAgent c e.asid) pa w = false →
      (s.regs c e.asid).svcmode.getLsbD 2 = true → d.drainRoom = true →
      spansApart [(pa, 8), (f, 4096), (ring + 4, 4), (eFrame w, 4096), (slot, 32)] →
      ∃ u : State, steps (.cowCopyService c i) s ((u.resolveEntry c i 0).cowOthers e.asid va)
        ∧ u.read32 (ring + 4) = s.read32 (ring + 4) + 1
        ∧ (∀ k, k < 4096 → u.readByte (f + k) = (s.publishFrame (eFrame w)).readByte (eFrame w + k))
        ∧ u.read64 slot = BitVec.ofNat 64 (eFrame w) ∧ u.read64 (slot + 8) = (va >>> 12) <<< 12
        ∧ (u.ctx e.asid).dbg.drainprod = d.drainprod + 1
        ∧ ∀ k, k < 64 → (u.read64 pa).getLsbD k =
            if k = 7 then false else if 12 ≤ k ∧ k < 52 then (BitVec.ofNat 64 f).getLsbD k else w.getLsbD k))
  ∧ (∀ (s : State) (c i a : Nat) (k : MsgKind) (r : Machine.Ring), c < 192 → i < 2048 →
    let e := s.entry c i
    let p := (s.regs c e.asid).fring.toNat
    (s.serving c = true → e.state = .pending → s.decide c i = .post k →
      ((s.ctx e.asid).msgs ≠ [] ∨ p = 0 →
        ∃ t m, steps (.hostMessagePost (.landing c i)) s t ∧ (t.entry c i).state = .inService
          ∧ (t.ctx e.asid).msgs = (s.ctx e.asid).msgs ++ [m] ∧ m.kind = k ∧ m.seq = e.seq ∧ m.index = i ∧ m.core = c)
      ∧ ((s.ctx e.asid).msgs = [] → p ≠ 0 → s.ring (s.svcAgent c e.asid) p = .ok r → (r.prod - r.cons).toNat < r.n →
        spansApart [(p, 64 + 64 * r.n), ((s.core c).landbase.toNat + 320 * i, 320)] →
        ∃ t, steps (.hostMessagePost (.landing c i)) s t ∧ (t.entry c i).state = .inService
          ∧ t.read32 p = r.prod + 1
          ∧ (t.read64 (p + 64 + 64 * (r.prod.toNat % r.n))).getLsbD 0 = true
          ∧ (t.read64 (p + 64 + 64 * (r.prod.toNat % r.n))).extractLsb' 4 4 = BitVec.ofNat 4 k.code
          ∧ (t.read64 (p + 64 + 64 * (r.prod.toNat % r.n))).extractLsb' 8 8 = e.cause))
    ∧ (∀ m ms, a < 65536 → s.tripped = false → (s.ctx a).msgs = m :: ms → m.asid = a → s.msgRing m.core a = .ok (some r) →
      ∃ t, steps (.hostMessagePost (.waiting a)) s t ∧ (t.ctx a).msgs = ms)
    ∧ (∀ op, i < 256 → s.tripped = false → s.op? c i = some op → op.state = .faulted → op.posted = false →
      let posted := ∃ t m, steps (.tokenFaultService c i) s t ∧ t.op? c i = some { op with posted := true }
        ∧ (t.ctx op.asid).msgs = (s.ctx op.asid).msgs ++ [m] ∧ m.kind = .token ∧ m.cause = op.cause ∧ m.pc = op.handle
      let resumed := ∃ t q, steps (.tokenFaultService c i) s t ∧ t.op? c i = some q ∧ q.state = .issued
        ∧ q.cursor = op.cursor
      ((s.core c).faulted = true → posted)
      ∧ ((s.core c).faulted = false → match s.opService c op with
        | .no => (op.orphan = false ∨ (s.ctx op.asid).adopter = none) → posted
        | .done u => u.op? c i = some op → resumed
        | .present => resumed
        | .wait _ _ => True)))
  ∧ (∀ (s : State) (a c n : Nat), a < 65536 → (s.ctx a).exists_ = true → s.hasWork a = true → s.windowOver a = true →
    ∃ t, steps (.watchdogExpiry a) s t ∧ (t.ctx a).master.wdog.getLsbD 8 = true ∧ (t.ctx a).window = s.time
      ∧ (s.hasTeam c n = true → (s.team c n).asid = a → (t.team c n).halted = true)
      ∧ ∃ m ∈ (t.ctx a).msgs, m.kind = .watchdog)
  ∧ (∀ (s : State) (c g : Nat), c < 192 → g < 64 →
    (∃ t, steps (.accessAck c g) s t ∧ (t.group c g).outstanding =
      if s.inFlight c g < (s.group c g).outstanding then (s.group c g).outstanding - 1 else (s.group c g).outstanding)
    ∧ ((s.core c).faulted = false → ∃ t, steps (.supervisorTrap c) s t ∧ (t.core c).svc = .faulted
        ∧ (t.core c).stopped = true ∧ t.out = s.out ++ [.management 1 c] ∧ (t.core c).groups = (s.core c).groups)
    ∧ (let x := s.group c g
      x.live = true → x.slot0.state = .wait → x.slot1.state = .wait → x.slot0.rcv = x.slot1.rcv → x.depth = 0 →
      ∃ t, steps (.reconvergenceCheck c g) s t
        ∧ slotIs (t.group c g).slot0 x.slot0.pc noRcv (x.slot0.mask ||| x.slot1.mask)
        ∧ (t.group c g).slot1.state = .empty)
    ∧ (∀ n x, n < 64 → Store.rising (s.core c).groups = true → Store.rising s.cores = true → s.groupsOf c n = [(g, x)] →
      s.hasTeam c n = true → s.allExited c g = true → (s.tryEnd c g).2 = true →
      ∃ t, steps (.teamEnd c n) s t ∧ (t.group c g).live = false ∧ t.hasTeam c n = false))

/-- R263 to R268, R272, R280, R304, R308, R309, R394: an operation starts with its holds, or ends at once where nothing of its
walk is left; at its quiescent points it stops for a cancel, a pre-emption or a recalibration, and else its next unit is
tried; and its units are performed: a copy writes its unit, a feed's slice enters its stream, and a k-step adds its
products, rounded twice; each delivered sector, slice or k-step counts at a linked barrier word. That a unit is one turn is
the model's reading (log 20). -/
def Obligations.EnginesWork : Prop :=
  ∀ (s : State) (c e : Nat) (op : Op),
    (∀ p hs, c < 192 → e < 256 → s.op? c e = some op → op.state = .issued → op.hold = false → s.predState op.pred1 = none →
      s.predState op.pred2 = none → s.stopping c op = false → s.running c < 64 → s.startsLater c op = false →
      s.startHolds op = (.ok p, hs) →
      ∃ t, steps (.tokenStart c e) s t
        ∧ ((op.cursor < op.units ∨ op.isStep = true) → t.op? c e = some { op with
            state := .running, started := true, unit := .idle, got := [], remote := op.remote ++ hs })
        ∧ (op.units ≤ op.cursor → op.isStep = false → ∃ q, t.op? c e = some q ∧ q.state = .done))
    ∧ (atEngine s c e op false → op.quiescent = true →
      (op.cancel = true → ∃ t q, steps (.engineQuiescentPoint c e) s t ∧ t.op? c e = some q ∧ q.state = .cancelled)
      ∧ (op.cancel = false → (op.preempt = true ∨ s.recals c op = true) →
          ∃ t q, steps (.engineQuiescentPoint c e) s t ∧ t.op? c e = some q ∧ q.state = .parked ∧ q.cursor = op.cursor
            ∧ q.recal = s.recals c op))
    ∧ (atEngine s c e op false → (op.quiescent = true → op.cancel = false ∧ op.preempt = false ∧ s.recals c op = false) →
      s.serves c e op = true →
      (∀ u p, op.isCopy = true → (op.op = 0x95 → op.list ≠ []) → s.tryCopy c op = (u, .ok p) →
        ∃ t, steps (.engineQuiescentPoint c e) s t ∧ t.op? c e = some { op with unit := .checked } ∧ t.mem = u.mem)
      ∧ (∀ m, op.op = 0x90 → op.srcSpace = 1 → op.dstSpace = 1 → op.byTeam = some m →
        ∃ t, steps (.engineQuiescentPoint c e) s t ∧ t.op? c e = some { op with unit := .checked } ∧ t.mem = s.mem)
      ∧ (∀ u p ws, op.op = 0x95 → op.list = [] → s.tryList c op 0 (op.fp.toNat % 8 + 1) [] = (u, .ok p, ws) →
        ∃ t, steps (.engineQuiescentPoint c e) s t ∧ t.op? c e = some { op with list := ws, got := [] } ∧ t.mem = u.mem)
      ∧ (op.isFeed = true → s.earlier c op (fun x => x.isFeed && x.dst == op.dst) = false →
        ((s.group c op.byGslot).stream op.dst.toNat).length < 4 →
        ∃ t, steps (.engineQuiescentPoint c e) s t ∧ t.op? c e = some { op with unit := .checked } ∧ t.mem = s.mem)
      ∧ (∀ a b as bs, op.isMma = true → op.fa ≠ op.fb →
        s.earlier c op (fun x => x.isMma && (x.dst == op.dst || x.usesStream op.fa || x.usesStream op.fb)) = false →
        (s.group c op.byGslot).stream op.fa = a :: as → (s.group c op.byGslot).stream op.fb = b :: bs →
        slicesMatch op.mode a b = true →
        ∃ t, steps (.engineQuiescentPoint c e) s t ∧ t.op? c e = some { op with unit := .checked, slices := [a, b] }
          ∧ (t.group c op.byGslot).stream op.fa = as ∧ (t.group c op.byGslot).stream op.fb = bs ∧ t.mem = s.mem))
    ∧ (∀ u p, atEngine s c e op true → op.isCopy = true → (op.partition = true → op.claimed = true) →
      s.tryCopy c op = (u, .ok p) → op.lk ≠ .barrier →
      (∀ x ∈ peerSectors p.writes, (op.agent c).answer (.sector (32 * x.sec)) 0 = some .ok) →
      ∃ t, steps (.unitDelivered c e) s t ∧ advanced t c e op p.units p.counted
        ∧ t.mem = (u.performWrites c p.writes).mem
        ∧ ∀ k m, (t.team k m).spad = ((u.performWrites c p.writes).team k m).spad)
    ∧ (∀ m, atEngine s c e op true → op.op = 0x90 → op.srcSpace = 1 → op.dstSpace = 1 → op.byTeam = some m →
      op.lk ≠ .barrier →
      let a := (localOff op.src + 32 * op.cursor) % 2 ^ 32
      let d := (localOff op.dst + 32 * op.cursor) % 2 ^ 32
      ∃ t, steps (.unitDelivered c e) s t ∧ advanced t c e op 1 1 ∧ t.mem = s.mem
        ∧ (t.team c m).read d 32 = (s.team c m).read a 32
        ∧ ∀ off, (off < d ∨ d + 32 ≤ off) → (t.team c m).spad.get 0 off = (s.team c m).spad.get 0 off)
    ∧ (∀ m, atEngine s c e op true → op.isFeed = true → op.byTeam = some m →
      (op.lk = .barrier → (s.team c m).tag op.link = 3 → plainWord s c m op.link) →
      ∃ t, steps (.slicePush c e) s t ∧ advanced t c e op 1 1 ∧ (op.lk ≠ .barrier → t.mem = s.mem)
        ∧ (t.group c op.byGslot).stream op.dst.toNat =
            (s.group c op.byGslot).stream op.dst.toNat ++ [(s.team c m).slice op op.cursor]
        ∧ (op.lk = .barrier → (s.team c m).tag op.link = 3 →
            (t.team c m).word op.link = updated ((s.team c m).word op.link) 0 (0 - 1)))
    ∧ (∀ a b m, atEngine s c e op true → op.isMma = true → op.slices = [a, b] → op.byTeam = some m →
      (op.lk = .barrier → (s.team c m).tag op.link = 3 → plainWord s c m op.link) →
      ∃ t, steps (.kstepCommit c e) s t ∧ advanced t c e op 1 1 ∧ (op.lk ≠ .barrier → t.mem = s.mem)
        ∧ (op.lk = .barrier → (s.team c m).tag op.link = 3 →
            (t.team c m).word op.link = updated ((s.team c m).word op.link) 0 (0 - 1))
        ∧ ∀ n i j, i < 32 → j < 32 → (t.group c op.byGslot).accAt n i j =
            if n = op.dst.toNat ∧ op.x.getLsbD i = true then
              BitVec.ofNat 32 (fp32.add .rne ((s.group c op.byGslot).accAt n i j).toNat
                (toFp32 (dot op.mode a b i j))).1
            else (s.group c op.byGslot).accAt n i j)

/-! ### Queues, the dispatcher and the host's registers (07 R144 to R170, 08 R171 to R176, 10 R187) -/

/-- R145 to R163: the queue controls, the consumption and refusal of a packet, signals, copies, manifests and retirement, and
what the dispatcher and the aggregator do. Which of several codes a refused packet takes and the count F are the
model's readings (logs 36 and 37). -/
def Obligations.QueuesWork : Prop :=
  (∀ (s : State) (q : Nat), q < 1024 →
    let x := s.queue q
    let n := (x.cfg.extractLsb' 16 5).toNat
    (s.boot = .service → x.state = .disabled → 4 ≤ n → n ≤ 16 → (s.ctx (x.cfg.extractLsb' 0 16).toNat).exists_ = true →
      ∃ t, steps (.qctlEnable q) s t ∧ (t.queue q).state = .run ∧ (t.queue q).cons = 0 ∧ (t.queue q).done = 0)
    ∧ (s.boot ≠ .ioOnly → ∃ t, steps (.qctlPause q) s t ∧ t.queue q = if x.state = .run then { x with state := .paused } else x)
    ∧ (s.boot ≠ .ioOnly → ∃ t, steps (.qctlResume q) s t ∧ t.queue q =
        if x.state = .paused then { x with state := .run }
        else if x.state = .error then { x with state := .run, errCode := 0, errSeq := 0 } else x)
    ∧ (s.boot ≠ .ioOnly → ∃ t, steps (.qctlDisable q) s t ∧ t.queue q = if x.done = x.cons then { x with state := .disabled } else x)
    ∧ (s.boot ≠ .ioOnly → x.state ≠ .run → ∃ t, steps (.notify q) s t ∧ (t.queue q).cons = x.cons
        ∧ (t.queue q).packets = x.packets ∧ t.mem = s.mem)
    ∧ (∀ u r, s.boot ≠ .ioOnly → x.state = .run →
      (looksAnew s q).queueWords ⟨queueCore, x.asid, false, [], 0⟩ 16
        (x.base + BitVec.ofNat 64 (128 * ((x.cons + 1).toNat % 2 ^ n))) = (u, r) →
      let refusedAs := fun (k : Nat) => ∃ t, steps (.notify q) s t ∧ (t.queue q).cons = x.cons + 1
        ∧ (t.queue q).state = .error ∧ (t.queue q).errCode = BitVec.ofNat 8 k ∧ (t.queue q).errSeq = x.cons + 1
      ((∃ k, r = .no k) → refusedAs 8)
      ∧ ∀ ws, r = .ok ws →
        let valid := field ws 0 0 1 = 1 ∧ field ws 0 32 32 = (x.cons + 1).toNat
        let k := u.refusal x.asid ws
        (¬valid → ∃ t, steps (.notify q) s t ∧ (t.queue q).cons = x.cons ∧ (t.queue q).packets = x.packets)
        ∧ (valid → k = 0 → ∃ t p, steps (.notify q) s t ∧ (t.queue q).cons = x.cons + 1 ∧ (t.queue q).state = .run
            ∧ (t.queue q).packets = x.packets ++ [p] ∧ p.seq = x.cons + 1 ∧ p.words = ws ∧ p.started = false
            ∧ p.retired = false)
        ∧ (valid → k ≠ 0 → refusedAs k)))
  ∧ (∀ (s u : State) (q : Nat) (seq : BitVec 32) (p : Packet) (ws : List Word), q < 1024 →
    let va := p.words.getD 2 0
    let val := p.words.getD 3 0
    let job := startJob seq
    (s.startable q seq 2 = some p → s.queueWords (s.queueAgent q job) 1 va = (u, .ok ws) → u.queue q = s.queue q →
      ∃ t, steps (.waitSignal q seq) s t ∧ packetIs t q seq fun y =>
        y.started = true ∧ y.finished = signalHolds (field p.words 4 0 3) (ws.getD 0 0) val)
    ∧ ((s.queue q).packet seq = some p → packetKind p.words = 2 → p.started = true → p.finished = false →
      s.queueWords (s.queueAgent q job) 1 va = (u, .ok ws) → u.queue q = s.queue q →
      ∃ t, steps (.waitSignalReread q seq) s t ∧ packetIs t q seq fun y =>
        y.started = true ∧ y.finished = signalHolds (field p.words 4 0 3) (ws.getD 0 0) val)
    ∧ (∀ x, s.startable q seq 3 = some p → (s.queueAgent q job).atomGot wordLane = some x → atomAnswer x = .ok () →
      ∃ t, steps (.writeSignal q seq) s t ∧ (packetIs t q seq fun y => y.started = true ∧ y.finished = true)
        ∧ t.mem = s.mem)
    ∧ (∀ w, s.startable q seq 3 = some p → (s.queueAgent q job).atomGot wordLane = none → s.atomSent q job = none →
      s.translate (s.queueAgent q job) va .rmw = (u, .ok w) → isPeer w.pa = false →
      isPeer (w.pa + 7) = false → (u.core 192).dirty = [] → u.queue q = s.queue q →
      ∃ t, steps (.writeSignal q seq) s t ∧ (packetIs t q seq fun y => y.started = true ∧ y.finished = true)
        ∧ t.read64 w.pa = (if field p.words 4 0 2 = 0 then val
            else if field p.words 4 0 2 = 1 then u.read64 w.pa + val else u.read64 w.pa - val)
        ∧ ∀ a, a < w.pa ∨ w.pa + 8 ≤ a → t.readByte a = u.readByte a)
    ∧ (∀ c e, let h := handleOf (nextGen (s.token c e).gen) c e
      s.startable q seq 4 = some p → c < 192 → (s.core c).svc = .inService →
      (field p.words 3 12 8 = 0xFF ∨ field p.words 3 12 8 = c) →
      ((p.token = 0 ∧ s.tokenSlot c = some e)
        ∨ (p.token ≠ 0 ∧ handleCore p.token = c ∧ handleSlot p.token = e
            ∧ ((s.token c e).use = .free ∨ s.reclaimable c e = true))) →
      s.storeHandle q seq va h = (u, .ok ()) → u.queue q = s.queue q → u.token c e = s.token c e →
      ∃ t op, steps (.copy q seq c) s t ∧ t.op? c e = some op ∧ op.state = .issued ∧ op.detached = true
        ∧ op.op.toNat = field p.words 3 0 8 ∧ op.dst = p.words.getD 5 0 ∧ op.src = p.words.getD 6 0 ∧ op.handle = h
        ∧ op.asid = (s.queue q).asid ∧ packetIs t q seq fun y => y.started = true ∧ y.token = h)
    ∧ (s.startable q seq 1 = some p →
      ∃ t l, steps (.manifest q seq) s t ∧ t.launches = s.launches ++ [l] ∧ l.id = packetId (s.queue q).asid q seq
        ∧ l.words = p.words ∧ l.x = field p.words 4 0 32 ∧ l.y = field p.words 4 32 16 ∧ l.z = field p.words 4 48 16
        ∧ l.dealt = 0 ∧ l.ended = 0 ∧ packetIs t q seq fun y => y.started = true)
    ∧ (∀ r, (s.queue q).packet seq = some p → p.started = true → s.packetDone q p = true →
      s.decrement (s.queueAgent q (retireJob seq)) q (retireJob seq) (packetSignal p.words) (retireCount p.words
        (((s.launchOf (packetId (s.queue q).asid q seq)).map Launch.total).getD 1)) = (u, r) →
      (r = .ok () ∨ ∃ k, r = .no k) → u.queue q = s.queue q →
      ∃ t, steps (.packetRetire q seq) s t ∧ (∀ y ∈ (t.queue q).packets, y.seq = seq → y.retired = true)
        ∧ (seq = (s.queue q).done + 1 → ∀ y ∈ (t.queue q).packets, y.seq ≠ seq)
        ∧ (field p.words 0 11 1 = 1 → t.out = u.out ++ [.msix ((s.queue q).vec.extractLsb' 0 11).toNat])
        ∧ (r ≠ .ok () → (s.queue q).state ≠ .error →
            (t.queue q).state = .error ∧ (t.queue q).errCode = 9 ∧ (t.queue q).errSeq = seq)
        ∧ ((r = .ok () ∨ (s.queue q).state = .error) → (t.queue q).state = (s.queue q).state
            ∧ (t.queue q).errCode = (s.queue q).errCode ∧ (t.queue q).errSeq = (s.queue q).errSeq)
        ∧ t.mem = u.mem))
  ∧ (∀ (s u v : State) (id : Word) (c : Nat) (l : Launch) (k : Chunk) (cs : List Nat) (rec_ : List Word),
    s.launchOf id = some l → c < 192 →
    (s.dealable l = true → (s.core c).open = true → (∀ x ∈ s.launches, s.dealable x = true → x.before l = false) →
      s.chunkSize l c ≠ 0 →
      ∃ t m, steps (.dealChunk id c) s t ∧ t.launchOf id = some m ∧ m.dealt = l.dealt + s.chunkSize l c
        ∧ m.chunks = l.chunks ++ [⟨c, l.dealt, l.dealt + s.chunkSize l c⟩])
    ∧ (wellFormed (.teamAdmit id c cs) = true → l.chunks.find? (fun k => k.core == c) = some k → cs.length = l.stages →
      c ∈ cs → l.stopped = false → field l.words 5 16 8 ≤ 8 →
      s.queueWords ⟨queueCore, l.asid, false, (s.queue mergedQueue).answers (dealJob l), 0⟩ (field l.words 5 16 8) (l.recordAt k.next)
        = (u, .ok rec_) →
      u.placeAll l k.next rec_ cs.zipIdx = some v → v.launches = s.launches →
      ∃ t m, steps (.teamAdmit id c cs) s t ∧ t.launchOf id = some m ∧ m.admitted = l.admitted + 1
        ∧ ∀ st d, cs[st]? = some d → dispatched t l d k.next st rec_))
  ∧ (∀ (s : State) (a : Nat) (tmpl : Word) (o : OpenManifest), a < 65536 → s.openOf a tmpl = some o →
    o.words.getD 8 0 ≠ 0 → (o.words.getD 8 0).toNat ≤ s.time - o.first →
    ∃ t l, steps (.manifestWindowExpiry a tmpl) s t ∧ t.openOf a tmpl = none ∧ t.launches = s.launches ++ [l]
      ∧ l.x = o.count ∧ l.id = packetId o.asid 0xFFFF o.serial)

/-- R144, R165 to R168, R170, R171, R174, R187, R228: what the host's writes of the control pages leave, that they do nothing
where the device has its configuration space alone (R386), and what an access of its own to HDM or a snoop does. Registers and offsets that no rule gives an effect, RELEASE, SSTEPREQ and
the host's accesses are read as logs 28, 29, 45 and 48 say. -/
def Obligations.HostControls : Prop :=
  (∀ (s : State) (a : Nat) (v : Word), a < 65536 → s.boot ≠ .ioOnly →
    (a ≠ 0 → (s.ctx a).exists_ = false → ∃ t, steps (.ctxctlCreate a) s t ∧ (t.ctx a).exists_ = true
      ∧ (t.ctx a).master = { CtxRegs.zero with share := 1 } ∧ (t.ctx a).serial = 1)
    ∧ ((s.ctx a).exists_ = true → s.ctxInUse a = false → ∃ t, steps (.ctxctlDestroy a) s t
        ∧ (t.ctx a).exists_ = false ∧ ∀ c, (t.core c).copies.find? a = none)
    ∧ ((s.ctx a).exists_ = true → s.ctxInUse a = true → steps (.ctxctlDestroy a) s s)
    ∧ (∀ k, (s.ctx a).exists_ = true → k < 24 → ∃ t, steps (.crwinWrite a (0x100 + 8 * k) v) s t
        ∧ (t.ctx a).master = (s.ctx a).master.write (0x100 + k) v
        ∧ ∀ c r, (s.core c).copies.find? a = some r → (t.core c).copies.find? a = some (r.write (0x100 + k) v))
    ∧ (let i := (s.ctx a).depidx
      (s.dep i).owner = a → ∃ t, steps (.depvalWrite a v) s t ∧ (t.dep i).count = v.setWidth 32 ∧ (t.dep i).owner = a
        ∧ (t.dep i).under = ((s.dep i).under && !v.getLsbD 32) ∧ ∀ j, j ≠ i → t.dep j = s.dep j)
    ∧ (let i := (v.extractLsb' 0 12).toNat
      let o := (v.extractLsb' 48 16).toNat
      ∃ t, steps (.depownWrite v) s t ∧ (t.dep i).owner = o
        ∧ ((s.dep i).owner ≠ o → (t.dep i).count = 0 ∧ (t.dep i).under = false)
        ∧ ((s.dep i).owner = o → (t.dep i).count = (s.dep i).count
            ∧ (t.dep i).under = ((s.dep i).under && !v.getLsbD 28)))
    ∧ ((s.ctx a).dbg.dumpstat.getLsbD 8 = true → steps (.dumpreq a) s s)
    ∧ (∀ c n, (s.ctx a).dbg.dumpstat.getLsbD 8 = false → s.hasTeam c n = true → (s.team c n).asid = a →
        s.stillRunning c n = true →
        ∃ t, steps (.dumpreq a) s t ∧ (t.ctx a).dbg.dumpstat = 0x100 ∧ (t.team c n).halted = true)
    ∧ ((s.ctx a).dbg.dumpstat.getLsbD 8 = false → (∀ c, s.teamsOf c a = []) → 4096 ≤ (s.ctx a).dbg.dumpsize.toNat →
        spansApart [((s.ctx a).dbg.dumpbase.toNat, 4096)] →
        ∃ t, steps (.dumpreq a) s t ∧ (t.ctx a).dbg.dumpstat = 0 ∧ t.read64 (s.ctx a).dbg.dumpbase.toNat = 0x00030001
          ∧ t.read64 ((s.ctx a).dbg.dumpbase.toNat + 8) = BitVec.ofNat 64 s.time)
    ∧ (∀ c n g x, s.hasTeam c n = true → (s.team c n).asid = a → (s.team c n).tid = (v.extractLsb' 0 32).toNat →
        (g, x) ∈ s.groupsOf c n → x.number = (v.extractLsb' 32 5).toNat →
        ∃ t, steps (.sstepreq a v) s t ∧ (t.group c g).sstep = v.getLsbD 40)
    ∧ (let n := min 8 (v.extractLsb' 0 4).toNat
      (n = s.carve → steps (.carveWrite v) s s) ∧ ((∀ e ∈ s.cores, e.2.residents = []) → n ≠ s.carve →
      ∃ t, steps (.carveWrite v) s t ∧ t.carve = n ∧ (∀ k, k < 2 ^ 29 → t.readByte (0x8000000000 + k) = 0)
        ∧ ∀ p, (p < 0x8000000000 ∨ 0x8000000000 + 2 ^ 29 ≤ p) → t.readByte p = s.readByte p))
    ∧ ((∃ e ∈ s.cores, e.2.residents ≠ []) → steps (.carveWrite v) s s)
    ∧ ((∃ t, steps (.registerWrite (.qctl (a % 1024)) 0x20 v) s t
          ∧ t.readRegister (.qctl (a % 1024)) 0x20 = v &&& 0x7FF)
      ∧ (∃ t, steps (.registerWrite (.ctx a) 0x28 v) s t
          ∧ (t.readRegister (.ctx a) 0x28).toNat = min 4096 (max 1 (v.extractLsb' 0 13).toNat))
      ∧ (∃ t, steps (.registerWrite (.dbg 0) 0 v) s t ∧ t.tick = min 24 (max 10 (v.extractLsb' 0 5).toNat))
      ∧ (∃ t, steps (.registerWrite (.dbg a) 0x30 v) s t ∧ (a ≠ 0 → (t.readRegister (.dbg a) 0x30) = v &&& 0xF1F))
      ∧ (∃ t, steps (.registerWrite .dev 0x108 v) s t ∧ t.tmoexp = min 34 (max 16 (v.extractLsb' 0 6).toNat))))
  ∧ ∀ s : State, (∀ pa n, s.hostReach pa n = true →
        ∃ t, steps (.hostHdmAccess (.read pa n)) s t ∧ t = s.send (.hostData (s.readMem pa n)))
    ∧ (∀ pa bs, s.hostReach pa bs.length = true →
        ∃ t, steps (.hostHdmAccess (.write pa bs)) s t ∧ t.readMem pa bs.length = bs
          ∧ ∀ p, (p < pa ∨ pa + bs.length ≤ p) → t.readByte p = s.readByte p)
    ∧ (∀ i, overBar i = true → wellFormed i = true → s.boot = .ioOnly → steps i s s)
    ∧ (∀ line, ∃ t, steps (.cxlCacheSnoop line true) s t ∧ line ∉ t.hostLines ∧ t.mem = s.mem
        ∧ ∀ l, l ≠ line → (l ∈ t.hostLines ↔ l ∈ s.hostLines))
    ∧ (∀ line, steps (.cxlCacheSnoop line false) s s)

/-! ### The fabric, gossip and management as events (16 R326 to R340, 18 R347 to R355, 21 R386 to R395) -/

/-- R326 to R338: write-backs, answers and timeouts, the device as a home, ports, routes and the rate; R339 and R340: a
device that is no master goes over to the master's count at its first alignment, and after that gains or loses what it is
off, so that the time base never runs backwards (log 42). What an answer finds performed before, and a write-back that
fails, are read as log 46 says. A failure of a port that is not UP, a port that is retired while VALID is 0, and a CLEAR of
DOWN with no UP port change nothing, as log 39 reads. -/
def Obligations.FabricWorks : Prop :=
  (∀ (s : State) (line sec : Nat), s.reachable (peerOf (32 * sec)) = true → sec / 4 = line →
      (∃ pa d, s.peerDirty.find? pa = some d ∧ pa / 32 = sec ∧ d.inFlight = none) →
      ∃ t, steps (.peerWriteback line) s t ∧ (∃ r ∈ t.requests, r.origin = .writeback sec (s.sectorWriters sec)
          ∧ r.op = .write (s.sectorBytes sec) (s.sectorMask sec) ∧ r.target = peerOf (32 * sec))
        ∧ ∀ pa d, t.peerDirty.find? pa = some d → pa / 32 = sec → d.inFlight ≠ none)
  ∧ (∀ (s : State) (tag : Nat) (r : Request) (a : Answer) (m : Bool), s.sentRequest tag = some r → tag < s.nextTag →
      let late := r.sent + 2 ^ s.tmoexp ≤ s.time
      let was := (s.rate r.target).pass s.congInc (s.time / 1000 - (s.rate r.target).ended / 1000)
      (¬late → answeredBy r.op a = true → ∃ t, steps (.remoteResponse tag a m) s t ∧ (∀ q ∈ t.requests, q.tag ≠ tag)
        ∧ (m = true → was.last ≠ some (s.time / 1000) →
            (t.rate r.target).r = max s.congRmin (was.r - was.r / 2 ^ s.congDec))
        ∧ (∀ c g n w, r.origin = .slot c g n w → ((s.group c g).slot n).state = .blocked →
            ((s.group c g).slot n).asked ≤ tag → (⟨w, a, tag⟩ : Arrived) ∈ ((t.group c g).slot n).got)
        ∧ (∀ sec ws, r.origin = .writeback sec ws → a = .ok → ∀ pa b, t.peerDirty.find? pa = some b → pa / 32 = sec →
            b.inFlight ≠ some tag))
      ∧ ((late ∨ answeredBy r.op a = false) → steps (.remoteResponse tag a m) s s)
      ∧ (late → ∃ t, steps (.remoteTimeout tag) s t ∧ (∀ q ∈ t.requests, q.tag ≠ tag)
        ∧ (∀ c g n w, r.origin = .slot c g n w → ((s.group c g).slot n).state = .blocked →
            ((s.group c g).slot n).asked ≤ tag → (⟨w, .timedOut, tag⟩ : Arrived) ∈ ((t.group c g).slot n).got)
        ∧ (∀ sec ws, r.origin = .writeback sec ws → (∀ w ∈ ws, (t.group w.1 w.2).fabPend = true)
            ∧ ((s.core queueCore).dirty = [] → ∀ e ∈ t.peerDirty, e.1 / 128 ≠ sec / 4)))
      ∧ (¬late → steps (.remoteTimeout tag) s s))
  ∧ (∀ (s : State) (src tag pa : Nat), src < 1024 → pa < 2 ^ 40 →
      let answers := fun (op : HomeOp) (a : Answer) (also : State → Prop) =>
        ∃ t b, steps (.homeRequest ⟨src, tag, pa, op⟩) s t ∧ t.out = s.out ++ [.reply src tag a b]
          ∧ (s.congThresh = 0 → b = true)
          ∧ t.duplicate src tag = true ∧ t.cores = s.cores ∧ also t
      (∀ op, (s.linked = false ∨ s.duplicate src tag = true) → steps (.homeRequest ⟨src, tag, pa, op⟩) s s)
      ∧ (s.linked = true → s.duplicate src tag = false →
        (∀ op, s.own pa = false → answers op .addressError fun t => t.mem = s.mem)
        ∧ (s.own pa = true →
          answers .readLine (.data (s.readMem (pa / 128 * 128) 128)) (fun t => t.mem = s.mem)
          ∧ (∀ bs m, answers (.write bs m) .ok fun t => ∀ p, t.readByte p =
              if pa / 32 * 32 ≤ p ∧ p < pa / 32 * 32 + 32 ∧ m.getLsbD (p % 32) = true then bs.getD (p % 32) 0
              else s.readByte p)
          ∧ (∀ f w b cmp, let n := widthBytes w
            let old := bytesValue (s.readMem pa n)
            if homeAtomic f w = true then
              answers (.atomic f w b cmp) (.data (valueBytes n old)) fun t =>
                (bytesValue (t.readMem pa n)).setWidth (8 * n)
                  = newValue f (8 * n) (old.setWidth _) (b.setWidth _) (cmp.setWidth _)
            else answers (.atomic f w b cmp) .notSupported fun t => t.mem = s.mem)
          ∧ (∀ ty bs, match reduced ty (s.readMem (pa / 32 * 32) 32) bs with
            | some r => answers (.reduceSector ty bs) .ok fun t => t.readMem (pa / 32 * 32) r.length = r
            | none => answers (.reduceSector ty bs) .notSupported fun t => t.mem = s.mem))))
  ∧ (∀ (s : State) (n d : Nat) (caps : List (Nat × BitVec 16)), n < 16 → d < 1024 →
      ((s.port n).state = .up → (s.port n).retire = false →
        ∃ t, steps (.portFailure n) s t ∧ (t.port n).state = .down ∧ n ∉ t.upPorts d)
      ∧ ((s.port n).state ≠ .up → steps (.portFailure n) s s)
      ∧ (s.domValid = true → s.boot = .service → (s.port n).retire = false →
          ((s.port n).state = .down ∨ (s.port n).state = .training) →
        ∃ t, steps (.portTrained n caps) s t ∧ (t.port n).state = .up)
      ∧ (s.boot ≠ .ioOnly → ∃ t, steps (.portRetire n) s t ∧ (t.port n).retire = true
          ∧ ((s.port n).retire = false → (∀ r ∈ s.requests, r.port ≠ n) →
              (t.port n).state = if (s.port n).state = .down ∧ s.domValid = false then .down else .retired))
      ∧ (s.boot ≠ .ioOnly → (s.port n).retire = true → ∃ t, steps (.portRetrain n) s t ∧ (t.port n).retire = false
          ∧ (t.port n).state = if s.domValid then .training else .down)
      ∧ (s.boot ≠ .ioOnly → ∃ t, steps (.routeDownSet d) s t ∧ (t.route d).down = true ∧ t.reachable d = false
          ∧ ((s.route d).down = false → (s.core queueCore).dirty = [] →
              (∀ e ∈ t.peerDirty, peerOf e.1 ≠ d) ∧ ∀ e ∈ t.peerClean, peerOf (128 * e.1) ≠ d))
      ∧ (s.boot ≠ .ioOnly → (s.route d).down = true → s.upPorts d ≠ [] → ∃ t, steps (.routeDownClear d) s t
          ∧ (t.route d).down = false ∧ (t.rate d).r = 4096)
      ∧ (s.boot ≠ .ioOnly → ((s.route d).down = false ∨ s.upPorts d = []) → steps (.routeDownClear d) s s))
  ∧ (∀ (s : State) (d : Nat) (v : Word), d < 1024 →
      (s.boot ≠ .ioOnly → ∃ t, steps (.domidWrite v) s t ∧ t.domValid = v.getLsbD 16
        ∧ ((∀ n, n < 16 → (s.port n).state ≠ .up) → t.domId = (v.extractLsb' 0 10).toNat)
        ∧ ((∃ n, n < 16 ∧ (s.port n).state = .up) → t.domId = s.domId))
      ∧ (let x := s.rate d
        let k := s.time / 1000 - x.ended / 1000
        s.time % 1000 = 0 → ∃ t, steps (.congestionInterval d) s t
          ∧ (t.rate d).r = (if k = 0 then x.r else min 4096 (x.r + s.congInc * (k - if x.marked then 1 else 0)))
          ∧ (t.rate d).marked = (x.marked && Decidable.decide (k = 0)))
      ∧ (s.time % 1000 ≠ 0 → steps (.congestionInterval d) s s)
      ∧ (s.tsmaster = true → s.time % 65536 = 0 → s.synced ≠ s.time → ∃ t, steps .timeMessageSend s t ∧ t.time = s.time
        ∧ ∀ n, n < 16 → (s.port n).state = .up → .time n s.time ∈ t.out)
      ∧ ((s.tsmaster = false ∨ s.time % 65536 ≠ 0 ∨ s.synced = s.time) → steps .timeMessageSend s s)
      ∧ (∀ p m, p < 16 →
        let first := (s.upPorts d).head? = some p
        let follows := s.tsmaster = false ∨ d < s.domId
        (first → follows → ∃ t, steps (.timeMessageReceive p d m) s t ∧ t.tsmaster = false ∧ t.tsfrom = d
          ∧ t.time = (if s.tsfirst then s.time else max s.time m) ∧ t.slew = (m : Int) - t.time
          ∧ t.tsync = Decidable.decide (t.slew.natAbs ≤ 8))
        ∧ (¬(first ∧ follows) → steps (.timeMessageReceive p d m) s s)))

/-- R342, R347, R348, R350 to R355: a take halves each value and the weight and holds the half until it is answered; a half is
added once, acknowledged, refused or recalled, and a half that comes back is added again, so that nothing is lost; arming
and disarming. A region armed again and a half of one that is disarming are read as log 34 says. -/
def Obligations.GossipWorks : Prop :=
  (∀ (s : State) (i : Nat), i < 256 →
    let base := s.gspBase + 256 * i
    let ctl := s.device64 base
    let frame := s.device64 (base + 16)
    let nbs := (List.range 8).map fun n => BitVec.ofNat 16 (leNat (s.deviceRead (base + 24 + 2 * n) 2))
    let bad := s.badDescriptor ctl (s.device64 (base + 8)) frame nbs
    let clash := ∃ e ∈ s.regions, e.1 ≠ i ∧ e.2.armed = true ∧ ((e.2.va = s.device64 (base + 8)
      ∧ e.2.asid = (ctl.extractLsb' 32 16).toNat) ∨ e.2.frame = frame.toNat)
    s.boot ≠ .ioOnly →
    (bad = true → ∃ t, steps (.gsparmArm i) s t ∧ t.gspErr = 1 ∧ t.regions = s.regions ∧ t.mem = s.mem)
    ∧ (bad = false → clash → ∃ t, steps (.gsparmArm i) s t ∧ t.gspErr = 2 ∧ t.regions = s.regions ∧ t.mem = s.mem)
    ∧ (bad = false → ¬clash → ∃ t, steps (.gsparmArm i) s t ∧ t.gspErr = 0 ∧ (t.region i).armed = true
        ∧ (t.region i).mode = ctl.getLsbD 1 ∧ (t.region i).frac = (ctl.extractLsb' 8 6).toNat
        ∧ (t.region i).frame = frame.toNat ∧ (t.region i).step = 0 ∧ (t.region i).done = 0
        ∧ (t.region i).nb = (nbs.take (ctl.extractLsb' 16 4).toNat).map BitVec.toNat))
  ∧ (∀ (s : State) (i d : Nat), i < 256 → d < 1024 →
      (s.boot ≠ .ioOnly → (s.region i).armed = true → ∃ t, steps (.gsparmDisarm i) s t ∧ (t.region i).armed = false
        ∧ ((∃ h ∈ s.heldHalves, h.region = i) → (t.region i).disarming = true ∧ t.gspBusy = true)
        ∧ ((∀ h ∈ s.heldHalves, h.region ≠ i) → (t.region i).disarming = false ∧ t.gspBusy = false))
      ∧ (s.boot ≠ .ioOnly → ∃ t, steps (.gspabandon d) s t ∧ ∀ h ∈ t.heldHalves, h.peer ≠ d))
  ∧ (∀ (s : State) (i k : Nat) (n : BitVec 32) (h : HeldHalf), i < 256 → k < 8 → s.heldHalf i k n = some h →
      (∃ t, steps (.halfAck i k n) s t ∧ h ∉ t.heldHalves
        ∧ (regionApart s i → halfAdded s t (s.region i) [] 0))
      ∧ (∀ m, regionApart s i → (∃ t, steps (.halfNack i k n m) s t ∧ h ∉ t.heldHalves
            ∧ (h.vals.length ≤ 512 → halfAdded s t (s.region i) h.vals h.weight))
          ∧ (∃ t, steps (.halfRecalled i k n m) s t ∧ h ∉ t.heldHalves
            ∧ (h.vals.length ≤ 512 → halfAdded s t (s.region i) h.vals h.weight)))
      ∧ (h.sent + 2 ^ s.tmoexp ≤ s.time → s.upPorts h.peer ≠ [] → ∃ t, steps (.recallSend i k n) s t
        ∧ t.out = s.out ++ [.recall h.peer i h.step n] ∧ t.mem = s.mem)
      ∧ (s.time < h.sent + 2 ^ s.tmoexp → steps (.recallSend i k n) s s))
  ∧ (∀ (s : State) (h : HalfPkt) (k : Nat), h.src < 1024 → h.region < 256 →
      let r := s.region h.region
      (s.linked = false → steps (.half h) s s) ∧ (s.linked = true →
      (r.nb.findIdx? (· == h.src) = none → ∃ t, steps (.half h) s t ∧ t.mem = s.mem
        ∧ t.out = s.out ++ [.halfAnswer h.src h.region 1 h.seq 0])
      ∧ (r.nb.findIdx? (· == h.src) = some k → r.armed = true → (s.route h.src).down = false → h.stepped = r.mode →
          (h.seq = r.seqin.getD k 0 → r.recalled.getLsbD k = false → ∃ t, steps (.half h) s t ∧ t.mem = s.mem
            ∧ t.out = s.out ++ [.halfAnswer h.src h.region 0 h.seq 0])
          ∧ (h.seq ≠ r.seqin.getD k 0 → h.seq = r.seqin.getD k 0 + 1 → (r.mode = true → h.step.toNat < r.step.toNat) →
              regionApart s h.region → h.vals.length ≤ 512 → k < r.seqin.length →
            ∃ t, steps (.half h) s t ∧ halfAdded s t r h.vals h.weight ∧ (t.region h.region).seqin.getD k 0 = h.seq
              ∧ .halfAnswer h.src h.region 0 h.seq 0 ∈ t.out))))
  ∧ (∀ (s : State) (i q k : Nat) (st : BitVec 64) (n : BitVec 32), i < 256 → q < 1024 →
      let r := s.region i
      (s.linked = false → steps (.recall i q st n) s s) ∧ (s.linked = true →
      (r.armed = false → ∃ t, steps (.recall i q st n) s t ∧ t.mem = s.mem
        ∧ t.out = s.out ++ [.halfAnswer q i 2 n 0])
      ∧ (r.armed = true → r.nb.findIdx? (· == q) = some k → k < r.seqin.length → k < 8 →
        (n = r.seqin.getD k 0 → r.recalled.getLsbD k = false → ∃ t, steps (.recall i q st n) s t ∧ t.mem = s.mem
          ∧ t.out = s.out ++ [.halfAnswer q i 0 n 0])
        ∧ (n = r.seqin.getD k 0 + 1 → ∃ t, steps (.recall i q st n) s t ∧ (t.region i).recalled.getLsbD k = true
            ∧ (t.region i).seqin.getD k 0 = n ∧ .halfAnswer q i 2 n n ∈ t.out))))
  ∧ (∀ (s : State) (i : Nat), i < 256 →
      let r := s.region i
      let p := r.nb.getD (r.step.toNat % r.nb.length) 0
      (r.armed = true → r.mode = false → s.replicaMapped r = true → (∀ h ∈ s.heldHalves, h.region ≠ i) → r.lastTake + 1000 * r.period ≤ s.time →
          r.nb ≠ [] → (s.route p).down = false → s.upPorts p ≠ [] → regionApart s i → noneWaits s i →
        ∃ t h, steps (.gossipPeriod i) s t ∧ t.heldHalves = s.heldHalves ++ [h] ∧ h.region = i ∧ h.peer = p
          ∧ h.step = r.step ∧ (∀ j, j < 512 → h.vals.getD j 0 = (s.slotVal r j).sshiftRight 1)
          ∧ h.weight = s.weight r >>> 1 ∧ halfAdded t s r h.vals h.weight ∧ (t.region i).step = r.step + 1)
      ∧ ((r.armed = false ∨ s.replicaMapped r = false) → steps (.gossipPeriod i) s s))

/-- R386 to R395: bring-up, firmware, the service of cores and of HBM frames, heat and the loss of power. The choice of image,
the signatures and reports, and the loss of power are read as logs 11, 17, 43 and 44 say. -/
def Obligations.ManagementWorks : Prop :=
  (∀ s : State, s.boot = .off →
    (bootImage s.images = none → ∃ t, steps .powerOn s t ∧ t.boot = .ioOnly ∧ t.cores = s.cores)
    ∧ (∀ useA, bootImage s.images = some useA →
      let first := if useA then s.images.slotA else s.images.slotB
      let ok := accepts 2 s.images.minSupervisor s.images.supervisor
      ∃ t, steps .powerOn s t ∧ t.boot = .service ∧ t.images.runningA = useA
        ∧ t.images.minManagement = max s.images.minManagement (imageFloor first)
        ∧ ∀ c, c < 192 → if ok = true then (t.core c).svc = .inService
              ∧ (t.core c).fwver = BitVec.ofNat 8 (imageVersion s.images.supervisor)
              ∧ (t.group c Config.supervisorSlot).live = true ∧ (t.group c Config.supervisorSlot).privileged = true
            else (t.core c).svc = (s.core c).svc))
  ∧ (∀ s : State,
    (s.boot ≠ .off → steps .powerOn s s)
    ∧ (∃ t, steps .thermalTrip s t ∧ t.tripped = true ∧ t.out = s.out ++ [.management 2 0] ∧ t.cores = s.cores)
    ∧ (∃ t, steps .modulePowerRemoved s t ∧ t.boot = .off ∧ t.cores = [] ∧ t.queues = [] ∧ t.images = s.images
        ∧ ∀ p, t.readByte p = if isHost p then s.readByte p else 0)
    ∧ (∀ nonce, s.boot = .service → ∃ t body sig, steps (.attestationRequest nonce) s t
        ∧ t.out = s.out ++ [.report (body ++ nonce ++ sig)]
        ∧ body = imageDigest (if s.images.runningA then s.images.slotA else s.images.slotB)
            ++ imageDigest s.images.supervisor ++ (List.range 192).map fun c => (s.core c).fwver)
    ∧ (∀ img, s.boot = .service →
        (accepts 1 s.images.minManagement img = false → steps (.managementImageUpdate img) s s)
        ∧ (accepts 1 s.images.minManagement img = true → ∃ t, steps (.managementImageUpdate img) s t
            ∧ (if s.images.runningA then t.images.slotB = img ∧ t.images.slotA = s.images.slotA
               else t.images.slotA = img ∧ t.images.slotB = s.images.slotB)
            ∧ t.images.minManagement = max s.images.minManagement (imageFloor img))))
  ∧ (∀ (s : State) (c : Nat), c < 192 →
    let k := s.core c
    (s.boot ≠ .ioOnly → k.svc = .inService → ∃ t, steps (.coresvcDrain c) s t ∧
        if k.recalBusy then (t.core c).svc = .inService ∧ (t.core c).drainAfterRecal = true else (t.core c).svc = .draining)
    ∧ (k.svc ≠ .inService → steps (.coresvcDrain c) s s)
    ∧ (k.leaving = true → k.teams = [] → k.tokensFinal = true →
        ∃ t, steps (.coreDrained c) s t ∧ (t.core c).svc = .drained ∧ (t.core c).residents = []
          ∧ (t.core c).copies.find? 0 = k.copies.find? 0)
    ∧ (s.boot = .service → k.svc = .drained → k.faulted = false → k.teams = [] →
        ∃ t, steps (.coresvcResume c) s t ∧ (t.core c).svc = .inService)
    ∧ ((k.svc ≠ .drained ∨ k.faulted = true) → steps (.coresvcResume c) s s)
    ∧ (s.boot = .service → k.svc = .drained → accepts 2 s.images.minSupervisor s.stagedImage = true →
        ∃ t, steps (.coresvcFwload c) s t ∧ (t.core c).fwver = BitVec.ofNat 8 (imageVersion s.stagedImage)
          ∧ (t.core c).faulted = false ∧ (t.core c).svc = .drained
          ∧ t.images.minSupervisor = max s.images.minSupervisor (imageFloor s.stagedImage))
    ∧ (accepts 2 s.images.minSupervisor s.stagedImage = false → steps (.coresvcFwload c) s s)
    ∧ (s.boot ≠ .ioOnly → k.svc = .inService → ∃ t, steps (.coresvcRecal c) s t ∧ (t.core c).recalBusy = true)
    ∧ ((k.recalBusy = false ∨ s.recalRuns c = true) → steps (.recalComplete c) s s)
    ∧ (k.recalBusy = true → s.recalRuns c = false → ∃ t, steps (.recalComplete c) s t ∧ (t.core c).recalBusy = false
        ∧ (k.svc = .inService → (t.core c).svc = if k.drainAfterRecal then .draining else .inService)))
  ∧ (∀ (s : State) (f p c g n : Nat) (ls : Mask), f < 0x6000000 →
    (s.boot ≠ .ioOnly → ∃ t, steps (.hbmretRetire f) s t ∧ f ∈ t.retiredFrames ∧ t.own (4096 * f) = false ∧ t.mem = s.mem)
    ∧ (s.boot ≠ .ioOnly → f ∈ s.retiredFrames → ∃ t, steps (.hbmretReadmit f) s t ∧ f ∉ t.retiredFrames
        ∧ ∀ a, a / 4096 = f → t.readByte a = 0)
    ∧ (p < 0x6000000000 → c < 192 → g < 64 → n < 2 →
        ∃ t, steps (.hbmUncorrectableError p c g n ls) s t ∧ p / 4096 ∈ t.retiredFrames
          ∧ .management 3 (p / 4096) ∈ t.out ∧ (s.errorLanes c g n p ls = [] → t.cores = s.cores)
          ∧ (let bad := trapMask (s.errorLanes c g n p ls)
            let y := (s.group c g).slot n
            bad ≠ 0 → g ≠ Config.supervisorSlot → (∃ e, e < 2048 ∧ (s.entry c e).state = .free) →
            (y.mask &&& ~~~bad = 0 ∨ ((s.group c g).slot (other n)).state = .empty) →
            ∃ e, e < 2048 ∧ (s.entry c e).state = .free ∧ (t.entry c e).state ≠ .free
              ∧ (t.entry c e).cause = Cause.permission ∧ (t.entry c e).mask = bad ∧ (t.entry c e).pc = y.pc)))

/-! ### Decoding, the step, reset and the invariant -/

/-- R12, R16 to R31: every well-formed instruction, at every value of its operands, decodes from its own bytes, whatever
follows them; and bytes that decode to an instruction are the bytes of that instruction alone, and it is well formed: no
bit of an encoding is dropped and no encoding has two readings. -/
def Obligations.DecodeEncode : Prop :=
  (∀ (i : Instr) (rest : List Byte), wellFormed i = true → isDeviceStep i = false → decode (encode i ++ rest) = .ok i)
  ∧ ∀ (bs : List Byte) (i : Instr), decode bs = .ok i →
      wellFormed i = true ∧ isDeviceStep i = false ∧ encode i = bs.take i.bytes ∧ i.bytes ≤ bs.length

/-- Tables 2-10, 4-11, 5-3, 6-18, 7-9, 8-8, 9-4, 12-6, 13-8, 14-5, 15-9, 18-5 and 20-4: words written out bit by bit
decode to the instructions they stand for; LEN 00 and every OP that Table 2-9 does not assign are refused (R12, R31). -/
def Obligations.DecodeWords : Prop :=
  (∀ e ∈ tableWords, decodeTableWord e.1 e.2.1 = some e.2.2)
  ∧ (∀ (w : BitVec 64) (rest : List Byte), w.extractLsb' 0 2 = 0 → decode (leBytes 8 w.toNat ++ rest) = .error .length)
  ∧ (∀ (w : BitVec 64) (rest : List Byte), w.extractLsb' 0 2 ≠ 0 → 8 ≤ rest.length →
      (w.extractLsb' 2 8).toNat ∉ assignedOps → decode (leBytes 8 w.toNat ++ rest) = .error .unassigned)

/-- A step runs the decoded instruction: once time has passed, where the turn names a scheduler that chooses a slot, a slot of
the supervisor group, or a slot that issues its instruction again, and the bytes at the slot's PC decode to an instruction,
the step is that instruction executed, and then what follows every change of the state. Bytes that decode to nothing park the
whole slot with ILLEGAL_INSTR (R29, R30). A turn may begin an instruction that reads strings without more (R375, log 1). The bytes are those of the PC's
32-byte block in memory, from the PC on, where the caches hold nothing of it; a fetch whose translation passes its checks stops at a
watch register that covers it, or else is translated (R117, R199). -/
def Obligations.StepRunsDecoded : Prop :=
  (∀ (s s0 s' : State) (t : Turn) (i : Instr), s.nextTurn = (s0, some t) →
    let s1 := { s0 with turn := s0.turn + 1 }.passTime t.dt
    (∀ c sched stalled g n s2, s1.choose c (sched % 4) stalled = (s2, some (g, n)) →
      (issuing s2 c g n).stepDue = false →
      (t.act = .cycle c sched stalled ∨ (t.act = .beginCycle c sched stalled
          ∧ (s2.peekInstr c g ((s2.group c g).slot n).pc).bind readsStrings = none) →
        (fetches (issuing s2 c g n) i s' → stepIs s i s') ∧ (fetchesNone (issuing s2 c g n) s' → stepParks s s'))
      ∧ (t.act = .beginCycle c sched stalled → (s2.peekInstr c g ((s2.group c g).slot n).pc).bind readsStrings ≠ none →
        step s = .next (issuing s2 c g n).reissueRead.settled))
    ∧ (∀ c n, t.act = .supervisor c n → s1.supervisorReady c n = true →
      (issuing s1 c Config.supervisorSlot n).stepDue = false →
      (fetches (issuing s1 c Config.supervisorSlot n) i s' → stepIs s i s')
        ∧ (fetchesNone (issuing s1 c Config.supervisorSlot n) s' → stepParks s s'))
    ∧ (∀ c g n, t.act = .wake c g n → s1.canWake c g n = true →
      (fetches (inHand s1 c g n) i s' → stepIs s i s') ∧ (fetchesNone (inHand s1 c g n) s' → stepParks s s')))
  ∧ (∀ (s s' : State) (a : Agent) (tid : Nat) (pc : Word) (w : Where), s.fetchSpot a tid pc = (s', .ok w) →
      isPeer w.pa = false → (s'.core a.core).icache.find? (w.pa / 32) = none →
      (s'.core a.core).clean.find? (w.pa / 32) = none →
      (∀ p, p / 32 = w.pa / 32 → (s'.core a.core).dirty.find? p = none) →
      ∃ u, s.fetchAt a tid pc = (u, .ok (s'.readMem w.pa (32 - w.pa % 32))) ∧ u.mem = s'.mem)
  ∧ (∀ (s u : State) (a : Agent) (tid : Nat) (pc : Word) (w : Where), s.probe a pc .fetch = (u, .ok w) →
      s.fetchSpot a tid pc =
        if u.watched a.core a.asid tid pc.toNat 1 .fetch then (u, .no Cause.breakpoint) else u.translate a pc .fetch)

/-- The values that the spec gives for reset: no region armed, every queue DISABLED, no context, no port UP, the fabric
registers of Table 16-1, every core DRAINED (Table 21-3), TICK 20 (R171), rates at 4,096 (R338), `%clock` at 0 (R339); the
memory lists nothing (log 3). -/
def Obligations.ResetState : Prop :=
  let s := State.reset
  s.memoryWf ∧ s.mem = [] ∧ s.boot = .off ∧ s.time = 0 ∧ s.tick = 20
    ∧ s.domValid = false ∧ s.domId = 0x3FF ∧ s.tsync = false ∧ s.tsmaster = false ∧ s.tmoexp = 24
    ∧ s.congInc = 16 ∧ s.congDec = 2 ∧ s.congRmin = 16 ∧ s.congThresh = 768
    ∧ s.gspBase = 0 ∧ s.gspBusy = false ∧ s.gspErr = 0
    ∧ (∀ n, s.port n = ⟨0, false, 0, .down⟩) ∧ (∀ d, s.route d = ⟨0, false, 0⟩ ∧ (s.rate d).r = 4096)
    ∧ (∀ r, (s.region r).armed = false)
    ∧ (∀ q, (s.queue q).state = .disabled ∧ (s.queue q).base = 0 ∧ (s.queue q).cfg = 0 ∧ (s.queue q).vec = 0
        ∧ (s.queue q).cons = 0 ∧ (s.queue q).done = 0 ∧ (s.queue q).errCode = 0 ∧ (s.queue q).errSeq = 0)
    ∧ (∀ a, (s.ctx a).exists_ = false ∧ (s.ctx a).chunk = 1 ∧ (s.ctx a).swapl = 0 ∧ (s.ctx a).swapstat = 0
        ∧ (s.ctx a).depidx = 0 ∧ (s.ctx a).dbg = .reset)
    ∧ (∀ c, (s.core c).svc = .drained ∧ (s.core c).fwver = 0 ∧ (s.core c).recalBusy = false
        ∧ (s.core c).groups = [] ∧ (s.core c).teams = [])

/-- Every step keeps the canonical form of memory: addresses strictly rising, and no byte listed that an unlisted address
reads as; so equal memories are equal data. -/
def Obligations.MemoryStaysCanonical : Prop :=
  ∀ s t : State, s.memoryWf → step s = .next t → t.memoryWf
end

