-- ==== Sys2Proof/Laws/Store.lean ====
section
/-! SUPPORT. Laws of stores: read after write, and that every operation keeps keys rising and memory canonical. -/

namespace Sys2Proof.Laws

open Sys2Proof

variable {α : Type}

/-! ### Read after write -/

@[simp] theorem find_nil (j : Nat) : Store.find? ([] : Store α) j = none := rfl

@[simp] theorem find_set_same (s : Store α) (j : Nat) (v : α) : Store.find? (Store.set s j v) j = some v := by
  induction s with
  | nil => simp [Store.set, Store.find?]
  | cons e r ih =>
    obtain ⟨k, w⟩ := e
    unfold Store.set
    split
    · simp [Store.find?]
    · split
      · simp [Store.find?]
      · rename_i h
        simp [Store.find?, h, ih]

theorem find_set_ne (s : Store α) {i j : Nat} (v : α) (h : i ≠ j) :
    Store.find? (Store.set s j v) i = Store.find? s i := by
  induction s with
  | nil => simp [Store.set, Store.find?, h]
  | cons e r ih =>
    obtain ⟨k, w⟩ := e
    unfold Store.set
    split
    · simp [Store.find?, h]
    · split
      · rename_i _ hk
        subst hk
        simp [Store.find?, h]
      · simp [Store.find?, ih]

@[simp] theorem get_set_same (d : α) (s : Store α) (j : Nat) (v : α) : Store.get d (Store.set s j v) j = v := by
  simp [Store.get]

theorem get_set_ne (d : α) (s : Store α) {i j : Nat} (v : α) (h : i ≠ j) :
    Store.get d (Store.set s j v) i = Store.get d s i := by
  simp [Store.get, find_set_ne s v h]

/-- A read after a write, at every key. -/
theorem get_set (d : α) (s : Store α) (i j : Nat) (v : α) :
    Store.get d (Store.set s j v) i = if i = j then v else Store.get d s i := by
  split
  · rename_i h
    subst h
    exact get_set_same d s i v
  · rename_i h
    exact get_set_ne d s v h

theorem find_keep (s : Store α) (p : Nat → α → Bool) (q : Nat → Bool) (hp : ∀ k v, p k v = q k) (j : Nat) :
    Store.find? (Store.keep s p) j = if q j then Store.find? s j else none := by
  induction s with
  | nil => simp [Store.keep, Store.find?]
  | cons e r ih =>
    obtain ⟨k, w⟩ := e
    simp only [Store.keep, List.filter_cons, hp] at ih ⊢
    by_cases hj : j = k
    · subst hj
      by_cases hq : q j = true <;> simp_all [Store.find?]
    · by_cases hq : q k = true <;> simp_all [Store.find?]

@[simp] theorem find_erase_same (s : Store α) (j : Nat) : Store.find? (Store.erase s j) j = none := by
  have := find_keep s (fun k _ => k != j) (fun k => k != j) (fun _ _ => rfl) j
  simpa [Store.keep, Store.erase] using this

theorem find_erase_ne (s : Store α) {i j : Nat} (h : i ≠ j) : Store.find? (Store.erase s j) i = Store.find? s i := by
  have := find_keep s (fun k _ => k != j) (fun k => k != j) (fun _ _ => rfl) i
  simpa [Store.keep, Store.erase, h] using this

/-- A read after a write in canonical form, at every key. -/
theorem get_put [DecidableEq α] (d : α) (s : Store α) (i j : Nat) (v : α) :
    Store.get d (Store.put d s j v) i = if i = j then v else Store.get d s i := by
  unfold Store.put
  by_cases hv : v = d
  · by_cases h : i = j
    · subst h
      simp [hv, Store.get]
    · simp [hv, h, Store.get, find_erase_ne s h]
  · simp [hv, get_set]

/-! ### The canonical form -/

/-- The keys of a store in rising order, as a list property. -/
theorem rising_iff (s : Store α) : Store.rising s = true ↔ (s.map (·.1)).Pairwise (· < ·) := by
  induction s with
  | nil => simp [Store.rising]
  | cons e r ih =>
    obtain ⟨k, w⟩ := e
    cases r with
    | nil => simp [Store.rising]
    | cons f r =>
      obtain ⟨j, x⟩ := f
      simp only [Store.rising, Bool.and_eq_true, decide_eq_true_eq, ih, List.map_cons, List.pairwise_cons]
      constructor
      · rintro ⟨hk, h1, h2⟩
        refine ⟨?_, h1, h2⟩
        intro a ha
        rcases List.mem_cons.1 ha with rfl | ha
        · exact hk
        · exact Nat.lt_trans hk (h1 a ha)
      · rintro ⟨h0, h1, h2⟩
        exact ⟨h0 j (by simp), h1, h2⟩

theorem rising_filter (s : Store α) (p : Nat × α → Bool) (h : Store.rising s = true) :
    Store.rising (List.filter p s) = true := by
  rw [rising_iff] at h ⊢
  exact h.sublist (List.filter_sublist.map _)

theorem keys_set (s : Store α) (j : Nat) (v : α) (a : Nat) (h : a ∈ (Store.set s j v).map (·.1)) :
    a = j ∨ a ∈ s.map (·.1) := by
  induction s with
  | nil => simpa [Store.set] using h
  | cons e r ih =>
    obtain ⟨k, w⟩ := e
    unfold Store.set at h
    split at h
    · simpa using h
    · split at h
      · simp only [List.map_cons, List.mem_cons] at h ⊢
        tauto
      · simp only [List.map_cons, List.mem_cons] at h ⊢
        rcases h with h | h
        · exact .inr (.inl h)
        · rcases ih h with h | h
          · exact .inl h
          · exact .inr (.inr h)

theorem rising_set (s : Store α) (j : Nat) (v : α) (h : Store.rising s = true) :
    Store.rising (Store.set s j v) = true := by
  rw [rising_iff] at h ⊢
  induction s with
  | nil => simp [Store.set]
  | cons e r ih =>
    obtain ⟨k, w⟩ := e
    simp only [List.map_cons, List.pairwise_cons] at h
    unfold Store.set
    split
    · rename_i hj
      simp only [List.map_cons, List.pairwise_cons, List.mem_cons, forall_eq_or_imp]
      exact ⟨⟨hj, fun a ha => Nat.lt_trans hj (h.1 a ha)⟩, h.1, h.2⟩
    · split
      · rename_i hj
        subst hj
        simpa using h
      · rename_i h1 h2
        simp only [List.map_cons, List.pairwise_cons]
        refine ⟨fun a ha => ?_, ih h.2⟩
        rcases keys_set r j v a ha with rfl | ha
        · omega
        · exact h.1 a ha

theorem all_set [DecidableEq α] (d : α) (s : Store α) (j : Nat) (v : α) (hv : v ≠ d)
    (h : s.all (fun e => e.2 != d) = true) : (Store.set s j v).all (fun e => e.2 != d) = true := by
  induction s with
  | nil => simpa [Store.set] using hv
  | cons e r ih =>
    obtain ⟨k, w⟩ := e
    simp only [List.all_cons, Bool.and_eq_true] at h
    unfold Store.set
    split
    · simp [h, hv]
    · split
      · simp [h, hv]
      · simp [h, ih h.2]

/-- Keeping some entries keeps the canonical form. -/
theorem wf_keep [DecidableEq α] (d : α) (s : Store α) (p : Nat → α → Bool) (h : Store.wf d s = true) :
    Store.wf d (Store.keep s p) = true := by
  simp only [Store.wf, Bool.and_eq_true] at h ⊢
  refine ⟨rising_filter s _ h.1, ?_⟩
  simp only [Store.keep, List.all_eq_true, List.mem_filter] at h ⊢
  exact fun e he => h.2 e he.1

/-- A write keeps the canonical form. -/
theorem wf_put [DecidableEq α] (d : α) (s : Store α) (j : Nat) (v : α) (h : Store.wf d s = true) :
    Store.wf d (Store.put d s j v) = true := by
  unfold Store.put
  split
  · exact wf_keep d s (fun k _ => k != j) h
  · rename_i hv
    simp only [Store.wf, Bool.and_eq_true] at h ⊢
    exact ⟨rising_set s j v h.1, all_set d s j v hv h.2⟩

/-- An unlisted key reads as the default. -/
theorem get_of_not_mem (d : α) (s : Store α) (j : Nat) (h : j ∉ s.map (·.1)) : Store.get d s j = d := by
  induction s with
  | nil => rfl
  | cons e r ih =>
    obtain ⟨k, w⟩ := e
    simp only [List.map_cons, List.mem_cons, not_or] at h
    have := ih h.2
    simp only [Store.get, Store.find?, h.1, if_false] at this ⊢
    exact this

/-- Canonical stores that read the same at every key are the same data. -/
theorem eq_of_get [DecidableEq α] (d : α) (s t : Store α) (hs : Store.wf d s = true) (ht : Store.wf d t = true)
    (h : ∀ j, Store.get d s j = Store.get d t j) : s = t := by
  simp only [Store.wf, Bool.and_eq_true, rising_iff, List.all_eq_true, bne_iff_ne, ne_eq] at hs ht
  induction s generalizing t with
  | nil =>
    cases t with
    | nil => rfl
    | cons e r =>
      have := h e.1
      simp only [Store.get, Store.find?, if_true, Option.getD_none, Option.getD_some] at this
      exact absurd this.symm (ht.2 e (by simp))
  | cons e r ih =>
    cases t with
    | nil =>
      have := h e.1
      simp only [Store.get, Store.find?, if_true, Option.getD_none, Option.getD_some] at this
      exact absurd this (hs.2 e (by simp))
    | cons f q =>
      obtain ⟨k, v⟩ := e
      obtain ⟨j, w⟩ := f
      simp only [List.map_cons, List.pairwise_cons] at hs ht
      have first : ∀ (k j : Nat) (v w : α) (r q : Store α), k < j → (∀ a ∈ q.map (·.1), j < a) → v ≠ d →
          Store.get d ((k, v) :: r) k ≠ Store.get d ((j, w) :: q) k := by
        intro k j v w r q hkj hq hv he
        rw [get_of_not_mem d ((j, w) :: q) k (by
          simp only [List.map_cons, List.mem_cons, not_or]
          exact ⟨by omega, fun ha => by have := hq k ha; omega⟩)] at he
        simp [Store.get, Store.find?] at he
        exact hv he
      have hk : k = j := by
        rcases Nat.lt_trichotomy k j with hlt | heq | hgt
        · exact absurd (h k) (first k j v w r q hlt ht.1.1 (hs.2 (k, v) (by simp)))
        · exact heq
        · exact absurd (h j).symm (first j k w v q r hgt hs.1.1 (ht.2 (j, w) (by simp)))
      subst hk
      have hv : v = w := by simpa [Store.get, Store.find?] using h k
      subst hv
      have tails : ∀ j, Store.get d r j = Store.get d q j := by
        intro j
        by_cases hj : j = k
        · subst hj
          rw [get_of_not_mem d r j fun ha => Nat.lt_irrefl _ (hs.1.1 j ha),
            get_of_not_mem d q j fun ha => Nat.lt_irrefl _ (ht.1.1 j ha)]
        · simpa [Store.get, Store.find?, hj] using h j
      rw [ih q tails ⟨hs.1.2, fun x hx => hs.2 x (List.mem_cons_of_mem _ hx)⟩
        ⟨ht.1.2, fun x hx => ht.2 x (List.mem_cons_of_mem _ hx)⟩]

end Sys2Proof.Laws
end

