-- ==== Sys2Proof/Laws/State.lean ====
section
/-! SUPPORT. The state under its named updates: each field that an update leaves alone, and what a read gives after
a write of the same or of another part. -/

namespace Sys2Proof.Laws

open Sys2Proof Machine

/-! ### Read after write -/

theorem core_setCore (s : State) (c d : Nat) (k : Core) :
    (s.setCore c k).core d = if d = c then k else s.core d := get_set _ _ _ _ _

theorem core_onCore (s : State) (c d : Nat) (f : Core → Core) :
    (s.onCore c f).core d = if d = c then f (s.core c) else s.core d := core_setCore _ _ _ _

@[simp] theorem core_setCore_same (s : State) (c : Nat) (k : Core) : (s.setCore c k).core c = k := by
  simp [core_setCore]

@[simp] theorem core_onCore_same (s : State) (c : Nat) (f : Core → Core) : (s.onCore c f).core c = f (s.core c) := by
  simp [core_onCore]

theorem ctx_setCtx (s : State) (a b : Nat) (x : Ctx) :
    (s.setCtx a x).ctx b = if b = a then x else s.ctx b := get_set _ _ _ _ _

theorem ctx_onCtx (s : State) (a b : Nat) (f : Ctx → Ctx) :
    (s.onCtx a f).ctx b = if b = a then f (s.ctx a) else s.ctx b := ctx_setCtx _ _ _ _

theorem queue_setQueue (s : State) (a b : Nat) (x : Queue) :
    (s.setQueue a x).queue b = if b = a then x else s.queue b := get_set _ _ _ _ _

theorem queue_onQueue (s : State) (a b : Nat) (f : Queue → Queue) :
    (s.onQueue a f).queue b = if b = a then f (s.queue a) else s.queue b := queue_setQueue _ _ _ _

theorem dep_setDep (s : State) (a b : Nat) (x : DepCounter) :
    (s.setDep a x).dep b = if b = a then x else s.dep b := get_set _ _ _ _ _

theorem port_setPort (s : State) (a b : Nat) (x : Port) :
    (s.setPort a x).port b = if b = a then x else s.port b := get_set _ _ _ _ _

theorem route_setRoute (s : State) (a b : Nat) (x : Route) :
    (s.setRoute a x).route b = if b = a then x else s.route b := get_set _ _ _ _ _

theorem region_setRegion (s : State) (a b : Nat) (x : Region) :
    (s.setRegion a x).region b = if b = a then x else s.region b := get_set _ _ _ _ _

theorem group_setGroup (s : State) (c g d h : Nat) (x : Group) :
    (s.setGroup c g x).group d h = if d = c ∧ h = g then x else s.group d h := by
  by_cases hc : d = c
  · subst hc
    simp [State.group, State.setGroup, Core.setGroup, get_set]
  · simp [State.group, State.setGroup, core_onCore, hc]

theorem group_onGroup (s : State) (c g d h : Nat) (f : Group → Group) :
    (s.onGroup c g f).group d h = if d = c ∧ h = g then f (s.group c g) else s.group d h := group_setGroup _ _ _ _ _ _

@[simp] theorem group_onGroup_same (s : State) (c g : Nat) (f : Group → Group) :
    (s.onGroup c g f).group c g = f (s.group c g) := by
  simp [group_onGroup]

theorem team_setTeam (s : State) (c t d u : Nat) (x : Team) :
    (s.setTeam c t x).team d u = if d = c ∧ u = t then x else s.team d u := by
  by_cases hc : d = c
  · subst hc
    simp [State.team, State.setTeam, get_set]
  · simp [State.team, State.setTeam, core_onCore, hc]

theorem team_onTeam (s : State) (c t d u : Nat) (f : Team → Team) :
    (s.onTeam c t f).team d u = if d = c ∧ u = t then f (s.team c t) else s.team d u := team_setTeam _ _ _ _ _ _

theorem token_setToken (s : State) (c e d f : Nat) (x : TokEntry) :
    (s.setToken c e x).token d f = if d = c ∧ f = e then x else s.token d f := by
  by_cases hc : d = c
  · subst hc
    simp [State.token, State.setToken, get_set]
  · simp [State.token, State.setToken, core_onCore, hc]

/-- A change of a group leaves every part of its core but the groups. -/
theorem core_onGroup (s : State) (c g d : Nat) (f : Group → Group) :
    (s.onGroup c g f).core d = { s.core d with groups := ((s.onGroup c g f).core d).groups } := by
  by_cases hc : d = c
  · subst hc
    simp [State.onGroup, State.setGroup, Core.setGroup]
  · simp [State.onGroup, State.setGroup, core_onCore, hc]

/-! ### Slots and registers -/

theorem slot_setSlot (g : Group) (n m : Nat) (x : Slot) :
    (g.setSlot n x).slot m = if (n = 0 ↔ m = 0) then x else g.slot m := by
  unfold Group.setSlot Group.slot
  by_cases hn : n = 0 <;> by_cases hm : m = 0 <;> simp [hn, hm]

@[simp] theorem slot_onSlot_same (g : Group) (n : Nat) (f : Slot → Slot) : (g.onSlot n f).slot n = f (g.slot n) := by
  simp [Group.onSlot, slot_setSlot]

theorem slot_onSlot_other (g : Group) (n : Nat) (f : Slot → Slot) : (g.onSlot n f).slot (other n) = g.slot (other n) := by
  by_cases hn : n = 0 <;> simp [Group.onSlot, slot_setSlot, other, hn]

/-- A change of a slot leaves the rest of its group. -/
theorem onSlot_rest (g : Group) (n : Nat) (f : Slot → Slot) :
    g.onSlot n f = { g with slot0 := (g.onSlot n f).slot0, slot1 := (g.onSlot n f).slot1 } := by
  by_cases hn : n = 0 <;> simp [Group.onSlot, Group.setSlot, hn]

/-! A slot's update leaves each other field of its group. -/

@[simp] theorem setSlot_live (g : Group) (n : Nat) (x : Slot) : (g.setSlot n x).live = g.live := by
  unfold Group.setSlot; split <;> rfl
@[simp] theorem setSlot_asid (g : Group) (n : Nat) (x : Slot) : (g.setSlot n x).asid = g.asid := by
  unfold Group.setSlot; split <;> rfl
@[simp] theorem setSlot_privileged (g : Group) (n : Nat) (x : Slot) : (g.setSlot n x).privileged = g.privileged := by
  unfold Group.setSlot; split <;> rfl
@[simp] theorem setSlot_number (g : Group) (n : Nat) (x : Slot) : (g.setSlot n x).number = g.number := by
  unfold Group.setSlot; split <;> rfl
@[simp] theorem setSlot_team (g : Group) (n : Nat) (x : Slot) : (g.setSlot n x).team = g.team := by
  unfold Group.setSlot; split <;> rfl
@[simp] theorem setSlot_pool (g : Group) (n : Nat) (x : Slot) : (g.setSlot n x).pool = g.pool := by
  unfold Group.setSlot; split <;> rfl
@[simp] theorem setSlot_v (g : Group) (n : Nat) (x : Slot) : (g.setSlot n x).v = g.v := by
  unfold Group.setSlot; split <;> rfl
@[simp] theorem setSlot_s (g : Group) (n : Nat) (x : Slot) : (g.setSlot n x).s = g.s := by
  unfold Group.setSlot; split <;> rfl
@[simp] theorem setSlot_bl (g : Group) (n : Nat) (x : Slot) : (g.setSlot n x).bl = g.bl := by
  unfold Group.setSlot; split <;> rfl
@[simp] theorem setSlot_accHeld (g : Group) (n : Nat) (x : Slot) : (g.setSlot n x).accHeld = g.accHeld := by
  unfold Group.setSlot; split <;> rfl
@[simp] theorem setSlot_acc (g : Group) (n : Nat) (x : Slot) : (g.setSlot n x).acc = g.acc := by
  unfold Group.setSlot; split <;> rfl
@[simp] theorem setSlot_strHeld (g : Group) (n : Nat) (x : Slot) : (g.setSlot n x).strHeld = g.strHeld := by
  unfold Group.setSlot; split <;> rfl
@[simp] theorem setSlot_streams (g : Group) (n : Nat) (x : Slot) : (g.setSlot n x).streams = g.streams := by
  unfold Group.setSlot; split <;> rfl
@[simp] theorem setSlot_depth (g : Group) (n : Nat) (x : Slot) : (g.setSlot n x).depth = g.depth := by
  unfold Group.setSlot; split <;> rfl
@[simp] theorem setSlot_steps (g : Group) (n : Nat) (x : Slot) : (g.setSlot n x).steps = g.steps := by
  unfold Group.setSlot; split <;> rfl
@[simp] theorem setSlot_joins (g : Group) (n : Nat) (x : Slot) : (g.setSlot n x).joins = g.joins := by
  unfold Group.setSlot; split <;> rfl
@[simp] theorem setSlot_tagWaits (g : Group) (n : Nat) (x : Slot) : (g.setSlot n x).tagWaits = g.tagWaits := by
  unfold Group.setSlot; split <;> rfl
@[simp] theorem setSlot_fpctl (g : Group) (n : Nat) (x : Slot) : (g.setSlot n x).fpctl = g.fpctl := by
  unfold Group.setSlot; split <;> rfl
@[simp] theorem setSlot_fpflags (g : Group) (n : Nat) (x : Slot) : (g.setSlot n x).fpflags = g.fpflags := by
  unfold Group.setSlot; split <;> rfl
@[simp] theorem setSlot_stack (g : Group) (n : Nat) (x : Slot) : (g.setSlot n x).stack = g.stack := by
  unfold Group.setSlot; split <;> rfl
@[simp] theorem setSlot_sstep (g : Group) (n : Nat) (x : Slot) : (g.setSlot n x).sstep = g.sstep := by
  unfold Group.setSlot; split <;> rfl
@[simp] theorem setSlot_outstanding (g : Group) (n : Nat) (x : Slot) : (g.setSlot n x).outstanding = g.outstanding := by
  unfold Group.setSlot; split <;> rfl

theorem vreg_setVreg (g : Group) (n l m k : Nat) (x : Lane32) (hl : l < 32) (hk : k < 32) :
    (g.setVreg n l x).vreg m k = if m = n ∧ k = l then x else g.vreg m k := by
  have h : 32 * m + k = 32 * n + l ↔ m = n ∧ k = l := by omega
  simp [Group.vreg, Group.setVreg, get_set, h]

theorem latch_setLatch (g : Group) (n l m k : Nat) (x : Lane32) (hl : l < 32) (hk : k < 32) :
    (g.setLatch n l x).latch m k = if m = n ∧ k = l then x else g.latch m k := by
  have h : 32 * m + k = 32 * n + l ↔ m = n ∧ k = l := by omega
  simp [Group.latch, Group.setLatch, get_set, h]

theorem sreg_setSreg (g : Group) (n m : Nat) (x : Word) :
    (g.setSreg n x).sreg m = if m = n then x else g.sreg m := get_set _ _ _ _ _

/-! ### `setCore` -/

@[simp] theorem setCore_time (s : State) (c : Nat) (k : Core) :
    (s.setCore c k).time = s.time := rfl
@[simp] theorem setCore_boot (s : State) (c : Nat) (k : Core) :
    (s.setCore c k).boot = s.boot := rfl
@[simp] theorem setCore_tripped (s : State) (c : Nat) (k : Core) :
    (s.setCore c k).tripped = s.tripped := rfl
@[simp] theorem setCore_mem (s : State) (c : Nat) (k : Core) :
    (s.setCore c k).mem = s.mem := rfl
@[simp] theorem setCore_carve (s : State) (c : Nat) (k : Core) :
    (s.setCore c k).carve = s.carve := rfl
@[simp] theorem setCore_retiredFrames (s : State) (c : Nat) (k : Core) :
    (s.setCore c k).retiredFrames = s.retiredFrames := rfl
@[simp] theorem setCore_ctxs (s : State) (c : Nat) (k : Core) :
    (s.setCore c k).ctxs = s.ctxs := rfl
@[simp] theorem setCore_queues (s : State) (c : Nat) (k : Core) :
    (s.setCore c k).queues = s.queues := rfl
@[simp] theorem setCore_launches (s : State) (c : Nat) (k : Core) :
    (s.setCore c k).launches = s.launches := rfl
@[simp] theorem setCore_opens (s : State) (c : Nat) (k : Core) :
    (s.setCore c k).opens = s.opens := rfl
@[simp] theorem setCore_swapNeeds (s : State) (c : Nat) (k : Core) :
    (s.setCore c k).swapNeeds = s.swapNeeds := rfl
@[simp] theorem setCore_saved (s : State) (c : Nat) (k : Core) :
    (s.setCore c k).saved = s.saved := rfl
@[simp] theorem setCore_deps (s : State) (c : Nat) (k : Core) :
    (s.setCore c k).deps = s.deps := rfl
@[simp] theorem setCore_walk (s : State) (c : Nat) (k : Core) :
    (s.setCore c k).walk = s.walk := rfl
@[simp] theorem setCore_domValid (s : State) (c : Nat) (k : Core) :
    (s.setCore c k).domValid = s.domValid := rfl
@[simp] theorem setCore_domId (s : State) (c : Nat) (k : Core) :
    (s.setCore c k).domId = s.domId := rfl
@[simp] theorem setCore_tsync (s : State) (c : Nat) (k : Core) :
    (s.setCore c k).tsync = s.tsync := rfl
@[simp] theorem setCore_tsmaster (s : State) (c : Nat) (k : Core) :
    (s.setCore c k).tsmaster = s.tsmaster := rfl
@[simp] theorem setCore_tsfrom (s : State) (c : Nat) (k : Core) :
    (s.setCore c k).tsfrom = s.tsfrom := rfl
@[simp] theorem setCore_tsfirst (s : State) (c : Nat) (k : Core) :
    (s.setCore c k).tsfirst = s.tsfirst := rfl
@[simp] theorem setCore_slew (s : State) (c : Nat) (k : Core) :
    (s.setCore c k).slew = s.slew := rfl
@[simp] theorem setCore_ran (s : State) (c : Nat) (k : Core) :
    (s.setCore c k).ran = s.ran := rfl
@[simp] theorem setCore_ticked (s : State) (c : Nat) (k : Core) :
    (s.setCore c k).ticked = s.ticked := rfl
@[simp] theorem setCore_synced (s : State) (c : Nat) (k : Core) :
    (s.setCore c k).synced = s.synced := rfl
@[simp] theorem setCore_tmoexp (s : State) (c : Nat) (k : Core) :
    (s.setCore c k).tmoexp = s.tmoexp := rfl
@[simp] theorem setCore_congInc (s : State) (c : Nat) (k : Core) :
    (s.setCore c k).congInc = s.congInc := rfl
@[simp] theorem setCore_congDec (s : State) (c : Nat) (k : Core) :
    (s.setCore c k).congDec = s.congDec := rfl
@[simp] theorem setCore_congRmin (s : State) (c : Nat) (k : Core) :
    (s.setCore c k).congRmin = s.congRmin := rfl
@[simp] theorem setCore_congThresh (s : State) (c : Nat) (k : Core) :
    (s.setCore c k).congThresh = s.congThresh := rfl
@[simp] theorem setCore_ports (s : State) (c : Nat) (k : Core) :
    (s.setCore c k).ports = s.ports := rfl
@[simp] theorem setCore_routes (s : State) (c : Nat) (k : Core) :
    (s.setCore c k).routes = s.routes := rfl
@[simp] theorem setCore_rates (s : State) (c : Nat) (k : Core) :
    (s.setCore c k).rates = s.rates := rfl
@[simp] theorem setCore_requests (s : State) (c : Nat) (k : Core) :
    (s.setCore c k).requests = s.requests := rfl
@[simp] theorem setCore_nextTag (s : State) (c : Nat) (k : Core) :
    (s.setCore c k).nextTag = s.nextTag := rfl
@[simp] theorem setCore_performed (s : State) (c : Nat) (k : Core) :
    (s.setCore c k).performed = s.performed := rfl
@[simp] theorem setCore_peerClean (s : State) (c : Nat) (k : Core) :
    (s.setCore c k).peerClean = s.peerClean := rfl
@[simp] theorem setCore_peerDirty (s : State) (c : Nat) (k : Core) :
    (s.setCore c k).peerDirty = s.peerDirty := rfl
@[simp] theorem setCore_lineFrom (s : State) (c : Nat) (k : Core) :
    (s.setCore c k).lineFrom = s.lineFrom := rfl
@[simp] theorem setCore_peersFrom (s : State) (c : Nat) (k : Core) :
    (s.setCore c k).peersFrom = s.peersFrom := rfl
@[simp] theorem setCore_hostLines (s : State) (c : Nat) (k : Core) :
    (s.setCore c k).hostLines = s.hostLines := rfl
@[simp] theorem setCore_gspBase (s : State) (c : Nat) (k : Core) :
    (s.setCore c k).gspBase = s.gspBase := rfl
@[simp] theorem setCore_gspLast (s : State) (c : Nat) (k : Core) :
    (s.setCore c k).gspLast = s.gspLast := rfl
@[simp] theorem setCore_gspErr (s : State) (c : Nat) (k : Core) :
    (s.setCore c k).gspErr = s.gspErr := rfl
@[simp] theorem setCore_regions (s : State) (c : Nat) (k : Core) :
    (s.setCore c k).regions = s.regions := rfl
@[simp] theorem setCore_heldHalves (s : State) (c : Nat) (k : Core) :
    (s.setCore c k).heldHalves = s.heldHalves := rfl
@[simp] theorem setCore_waitingHalves (s : State) (c : Nat) (k : Core) :
    (s.setCore c k).waitingHalves = s.waitingHalves := rfl
@[simp] theorem setCore_tick (s : State) (c : Nat) (k : Core) :
    (s.setCore c k).tick = s.tick := rfl
@[simp] theorem setCore_fwstage (s : State) (c : Nat) (k : Core) :
    (s.setCore c k).fwstage = s.fwstage := rfl
@[simp] theorem setCore_images (s : State) (c : Nat) (k : Core) :
    (s.setCore c k).images = s.images := rfl
@[simp] theorem setCore_cur (s : State) (c : Nat) (k : Core) :
    (s.setCore c k).cur = s.cur := rfl
@[simp] theorem setCore_agenda (s : State) (c : Nat) (k : Core) :
    (s.setCore c k).agenda = s.agenda := rfl
@[simp] theorem setCore_turn (s : State) (c : Nat) (k : Core) :
    (s.setCore c k).turn = s.turn := rfl
@[simp] theorem setCore_issued (s : State) (c : Nat) (k : Core) :
    (s.setCore c k).issued = s.issued := rfl
@[simp] theorem setCore_out (s : State) (c : Nat) (k : Core) :
    (s.setCore c k).out = s.out := rfl

/-! ### `onCore` -/

@[simp] theorem onCore_time (s : State) (c : Nat) (f : Core → Core) :
    (s.onCore c f).time = s.time := rfl
@[simp] theorem onCore_boot (s : State) (c : Nat) (f : Core → Core) :
    (s.onCore c f).boot = s.boot := rfl
@[simp] theorem onCore_tripped (s : State) (c : Nat) (f : Core → Core) :
    (s.onCore c f).tripped = s.tripped := rfl
@[simp] theorem onCore_mem (s : State) (c : Nat) (f : Core → Core) :
    (s.onCore c f).mem = s.mem := rfl
@[simp] theorem onCore_carve (s : State) (c : Nat) (f : Core → Core) :
    (s.onCore c f).carve = s.carve := rfl
@[simp] theorem onCore_retiredFrames (s : State) (c : Nat) (f : Core → Core) :
    (s.onCore c f).retiredFrames = s.retiredFrames := rfl
@[simp] theorem onCore_ctxs (s : State) (c : Nat) (f : Core → Core) :
    (s.onCore c f).ctxs = s.ctxs := rfl
@[simp] theorem onCore_queues (s : State) (c : Nat) (f : Core → Core) :
    (s.onCore c f).queues = s.queues := rfl
@[simp] theorem onCore_launches (s : State) (c : Nat) (f : Core → Core) :
    (s.onCore c f).launches = s.launches := rfl
@[simp] theorem onCore_opens (s : State) (c : Nat) (f : Core → Core) :
    (s.onCore c f).opens = s.opens := rfl
@[simp] theorem onCore_swapNeeds (s : State) (c : Nat) (f : Core → Core) :
    (s.onCore c f).swapNeeds = s.swapNeeds := rfl
@[simp] theorem onCore_saved (s : State) (c : Nat) (f : Core → Core) :
    (s.onCore c f).saved = s.saved := rfl
@[simp] theorem onCore_deps (s : State) (c : Nat) (f : Core → Core) :
    (s.onCore c f).deps = s.deps := rfl
@[simp] theorem onCore_walk (s : State) (c : Nat) (f : Core → Core) :
    (s.onCore c f).walk = s.walk := rfl
@[simp] theorem onCore_domValid (s : State) (c : Nat) (f : Core → Core) :
    (s.onCore c f).domValid = s.domValid := rfl
@[simp] theorem onCore_domId (s : State) (c : Nat) (f : Core → Core) :
    (s.onCore c f).domId = s.domId := rfl
@[simp] theorem onCore_tsync (s : State) (c : Nat) (f : Core → Core) :
    (s.onCore c f).tsync = s.tsync := rfl
@[simp] theorem onCore_tsmaster (s : State) (c : Nat) (f : Core → Core) :
    (s.onCore c f).tsmaster = s.tsmaster := rfl
@[simp] theorem onCore_tsfrom (s : State) (c : Nat) (f : Core → Core) :
    (s.onCore c f).tsfrom = s.tsfrom := rfl
@[simp] theorem onCore_tsfirst (s : State) (c : Nat) (f : Core → Core) :
    (s.onCore c f).tsfirst = s.tsfirst := rfl
@[simp] theorem onCore_slew (s : State) (c : Nat) (f : Core → Core) :
    (s.onCore c f).slew = s.slew := rfl
@[simp] theorem onCore_ran (s : State) (c : Nat) (f : Core → Core) :
    (s.onCore c f).ran = s.ran := rfl
@[simp] theorem onCore_ticked (s : State) (c : Nat) (f : Core → Core) :
    (s.onCore c f).ticked = s.ticked := rfl
@[simp] theorem onCore_synced (s : State) (c : Nat) (f : Core → Core) :
    (s.onCore c f).synced = s.synced := rfl
@[simp] theorem onCore_tmoexp (s : State) (c : Nat) (f : Core → Core) :
    (s.onCore c f).tmoexp = s.tmoexp := rfl
@[simp] theorem onCore_congInc (s : State) (c : Nat) (f : Core → Core) :
    (s.onCore c f).congInc = s.congInc := rfl
@[simp] theorem onCore_congDec (s : State) (c : Nat) (f : Core → Core) :
    (s.onCore c f).congDec = s.congDec := rfl
@[simp] theorem onCore_congRmin (s : State) (c : Nat) (f : Core → Core) :
    (s.onCore c f).congRmin = s.congRmin := rfl
@[simp] theorem onCore_congThresh (s : State) (c : Nat) (f : Core → Core) :
    (s.onCore c f).congThresh = s.congThresh := rfl
@[simp] theorem onCore_ports (s : State) (c : Nat) (f : Core → Core) :
    (s.onCore c f).ports = s.ports := rfl
@[simp] theorem onCore_routes (s : State) (c : Nat) (f : Core → Core) :
    (s.onCore c f).routes = s.routes := rfl
@[simp] theorem onCore_rates (s : State) (c : Nat) (f : Core → Core) :
    (s.onCore c f).rates = s.rates := rfl
@[simp] theorem onCore_requests (s : State) (c : Nat) (f : Core → Core) :
    (s.onCore c f).requests = s.requests := rfl
@[simp] theorem onCore_nextTag (s : State) (c : Nat) (f : Core → Core) :
    (s.onCore c f).nextTag = s.nextTag := rfl
@[simp] theorem onCore_performed (s : State) (c : Nat) (f : Core → Core) :
    (s.onCore c f).performed = s.performed := rfl
@[simp] theorem onCore_peerClean (s : State) (c : Nat) (f : Core → Core) :
    (s.onCore c f).peerClean = s.peerClean := rfl
@[simp] theorem onCore_peerDirty (s : State) (c : Nat) (f : Core → Core) :
    (s.onCore c f).peerDirty = s.peerDirty := rfl
@[simp] theorem onCore_lineFrom (s : State) (c : Nat) (f : Core → Core) :
    (s.onCore c f).lineFrom = s.lineFrom := rfl
@[simp] theorem onCore_peersFrom (s : State) (c : Nat) (f : Core → Core) :
    (s.onCore c f).peersFrom = s.peersFrom := rfl
@[simp] theorem onCore_hostLines (s : State) (c : Nat) (f : Core → Core) :
    (s.onCore c f).hostLines = s.hostLines := rfl
@[simp] theorem onCore_gspBase (s : State) (c : Nat) (f : Core → Core) :
    (s.onCore c f).gspBase = s.gspBase := rfl
@[simp] theorem onCore_gspLast (s : State) (c : Nat) (f : Core → Core) :
    (s.onCore c f).gspLast = s.gspLast := rfl
@[simp] theorem onCore_gspErr (s : State) (c : Nat) (f : Core → Core) :
    (s.onCore c f).gspErr = s.gspErr := rfl
@[simp] theorem onCore_regions (s : State) (c : Nat) (f : Core → Core) :
    (s.onCore c f).regions = s.regions := rfl
@[simp] theorem onCore_heldHalves (s : State) (c : Nat) (f : Core → Core) :
    (s.onCore c f).heldHalves = s.heldHalves := rfl
@[simp] theorem onCore_waitingHalves (s : State) (c : Nat) (f : Core → Core) :
    (s.onCore c f).waitingHalves = s.waitingHalves := rfl
@[simp] theorem onCore_tick (s : State) (c : Nat) (f : Core → Core) :
    (s.onCore c f).tick = s.tick := rfl
@[simp] theorem onCore_fwstage (s : State) (c : Nat) (f : Core → Core) :
    (s.onCore c f).fwstage = s.fwstage := rfl
@[simp] theorem onCore_images (s : State) (c : Nat) (f : Core → Core) :
    (s.onCore c f).images = s.images := rfl
@[simp] theorem onCore_cur (s : State) (c : Nat) (f : Core → Core) :
    (s.onCore c f).cur = s.cur := rfl
@[simp] theorem onCore_agenda (s : State) (c : Nat) (f : Core → Core) :
    (s.onCore c f).agenda = s.agenda := rfl
@[simp] theorem onCore_turn (s : State) (c : Nat) (f : Core → Core) :
    (s.onCore c f).turn = s.turn := rfl
@[simp] theorem onCore_issued (s : State) (c : Nat) (f : Core → Core) :
    (s.onCore c f).issued = s.issued := rfl
@[simp] theorem onCore_out (s : State) (c : Nat) (f : Core → Core) :
    (s.onCore c f).out = s.out := rfl

/-! ### `setGroup` -/

@[simp] theorem setGroup_time (s : State) (c g : Nat) (x : Group) :
    (s.setGroup c g x).time = s.time := rfl
@[simp] theorem setGroup_boot (s : State) (c g : Nat) (x : Group) :
    (s.setGroup c g x).boot = s.boot := rfl
@[simp] theorem setGroup_tripped (s : State) (c g : Nat) (x : Group) :
    (s.setGroup c g x).tripped = s.tripped := rfl
@[simp] theorem setGroup_mem (s : State) (c g : Nat) (x : Group) :
    (s.setGroup c g x).mem = s.mem := rfl
@[simp] theorem setGroup_carve (s : State) (c g : Nat) (x : Group) :
    (s.setGroup c g x).carve = s.carve := rfl
@[simp] theorem setGroup_retiredFrames (s : State) (c g : Nat) (x : Group) :
    (s.setGroup c g x).retiredFrames = s.retiredFrames := rfl
@[simp] theorem setGroup_ctxs (s : State) (c g : Nat) (x : Group) :
    (s.setGroup c g x).ctxs = s.ctxs := rfl
@[simp] theorem setGroup_queues (s : State) (c g : Nat) (x : Group) :
    (s.setGroup c g x).queues = s.queues := rfl
@[simp] theorem setGroup_launches (s : State) (c g : Nat) (x : Group) :
    (s.setGroup c g x).launches = s.launches := rfl
@[simp] theorem setGroup_opens (s : State) (c g : Nat) (x : Group) :
    (s.setGroup c g x).opens = s.opens := rfl
@[simp] theorem setGroup_swapNeeds (s : State) (c g : Nat) (x : Group) :
    (s.setGroup c g x).swapNeeds = s.swapNeeds := rfl
@[simp] theorem setGroup_saved (s : State) (c g : Nat) (x : Group) :
    (s.setGroup c g x).saved = s.saved := rfl
@[simp] theorem setGroup_deps (s : State) (c g : Nat) (x : Group) :
    (s.setGroup c g x).deps = s.deps := rfl
@[simp] theorem setGroup_walk (s : State) (c g : Nat) (x : Group) :
    (s.setGroup c g x).walk = s.walk := rfl
@[simp] theorem setGroup_domValid (s : State) (c g : Nat) (x : Group) :
    (s.setGroup c g x).domValid = s.domValid := rfl
@[simp] theorem setGroup_domId (s : State) (c g : Nat) (x : Group) :
    (s.setGroup c g x).domId = s.domId := rfl
@[simp] theorem setGroup_tsync (s : State) (c g : Nat) (x : Group) :
    (s.setGroup c g x).tsync = s.tsync := rfl
@[simp] theorem setGroup_tsmaster (s : State) (c g : Nat) (x : Group) :
    (s.setGroup c g x).tsmaster = s.tsmaster := rfl
@[simp] theorem setGroup_tsfrom (s : State) (c g : Nat) (x : Group) :
    (s.setGroup c g x).tsfrom = s.tsfrom := rfl
@[simp] theorem setGroup_tsfirst (s : State) (c g : Nat) (x : Group) :
    (s.setGroup c g x).tsfirst = s.tsfirst := rfl
@[simp] theorem setGroup_slew (s : State) (c g : Nat) (x : Group) :
    (s.setGroup c g x).slew = s.slew := rfl
@[simp] theorem setGroup_ran (s : State) (c g : Nat) (x : Group) :
    (s.setGroup c g x).ran = s.ran := rfl
@[simp] theorem setGroup_ticked (s : State) (c g : Nat) (x : Group) :
    (s.setGroup c g x).ticked = s.ticked := rfl
@[simp] theorem setGroup_synced (s : State) (c g : Nat) (x : Group) :
    (s.setGroup c g x).synced = s.synced := rfl
@[simp] theorem setGroup_tmoexp (s : State) (c g : Nat) (x : Group) :
    (s.setGroup c g x).tmoexp = s.tmoexp := rfl
@[simp] theorem setGroup_congInc (s : State) (c g : Nat) (x : Group) :
    (s.setGroup c g x).congInc = s.congInc := rfl
@[simp] theorem setGroup_congDec (s : State) (c g : Nat) (x : Group) :
    (s.setGroup c g x).congDec = s.congDec := rfl
@[simp] theorem setGroup_congRmin (s : State) (c g : Nat) (x : Group) :
    (s.setGroup c g x).congRmin = s.congRmin := rfl
@[simp] theorem setGroup_congThresh (s : State) (c g : Nat) (x : Group) :
    (s.setGroup c g x).congThresh = s.congThresh := rfl
@[simp] theorem setGroup_ports (s : State) (c g : Nat) (x : Group) :
    (s.setGroup c g x).ports = s.ports := rfl
@[simp] theorem setGroup_routes (s : State) (c g : Nat) (x : Group) :
    (s.setGroup c g x).routes = s.routes := rfl
@[simp] theorem setGroup_rates (s : State) (c g : Nat) (x : Group) :
    (s.setGroup c g x).rates = s.rates := rfl
@[simp] theorem setGroup_requests (s : State) (c g : Nat) (x : Group) :
    (s.setGroup c g x).requests = s.requests := rfl
@[simp] theorem setGroup_nextTag (s : State) (c g : Nat) (x : Group) :
    (s.setGroup c g x).nextTag = s.nextTag := rfl
@[simp] theorem setGroup_performed (s : State) (c g : Nat) (x : Group) :
    (s.setGroup c g x).performed = s.performed := rfl
@[simp] theorem setGroup_peerClean (s : State) (c g : Nat) (x : Group) :
    (s.setGroup c g x).peerClean = s.peerClean := rfl
@[simp] theorem setGroup_peerDirty (s : State) (c g : Nat) (x : Group) :
    (s.setGroup c g x).peerDirty = s.peerDirty := rfl
@[simp] theorem setGroup_lineFrom (s : State) (c g : Nat) (x : Group) :
    (s.setGroup c g x).lineFrom = s.lineFrom := rfl
@[simp] theorem setGroup_peersFrom (s : State) (c g : Nat) (x : Group) :
    (s.setGroup c g x).peersFrom = s.peersFrom := rfl
@[simp] theorem setGroup_hostLines (s : State) (c g : Nat) (x : Group) :
    (s.setGroup c g x).hostLines = s.hostLines := rfl
@[simp] theorem setGroup_gspBase (s : State) (c g : Nat) (x : Group) :
    (s.setGroup c g x).gspBase = s.gspBase := rfl
@[simp] theorem setGroup_gspLast (s : State) (c g : Nat) (x : Group) :
    (s.setGroup c g x).gspLast = s.gspLast := rfl
@[simp] theorem setGroup_gspErr (s : State) (c g : Nat) (x : Group) :
    (s.setGroup c g x).gspErr = s.gspErr := rfl
@[simp] theorem setGroup_regions (s : State) (c g : Nat) (x : Group) :
    (s.setGroup c g x).regions = s.regions := rfl
@[simp] theorem setGroup_heldHalves (s : State) (c g : Nat) (x : Group) :
    (s.setGroup c g x).heldHalves = s.heldHalves := rfl
@[simp] theorem setGroup_waitingHalves (s : State) (c g : Nat) (x : Group) :
    (s.setGroup c g x).waitingHalves = s.waitingHalves := rfl
@[simp] theorem setGroup_tick (s : State) (c g : Nat) (x : Group) :
    (s.setGroup c g x).tick = s.tick := rfl
@[simp] theorem setGroup_fwstage (s : State) (c g : Nat) (x : Group) :
    (s.setGroup c g x).fwstage = s.fwstage := rfl
@[simp] theorem setGroup_images (s : State) (c g : Nat) (x : Group) :
    (s.setGroup c g x).images = s.images := rfl
@[simp] theorem setGroup_cur (s : State) (c g : Nat) (x : Group) :
    (s.setGroup c g x).cur = s.cur := rfl
@[simp] theorem setGroup_agenda (s : State) (c g : Nat) (x : Group) :
    (s.setGroup c g x).agenda = s.agenda := rfl
@[simp] theorem setGroup_turn (s : State) (c g : Nat) (x : Group) :
    (s.setGroup c g x).turn = s.turn := rfl
@[simp] theorem setGroup_issued (s : State) (c g : Nat) (x : Group) :
    (s.setGroup c g x).issued = s.issued := rfl
@[simp] theorem setGroup_out (s : State) (c g : Nat) (x : Group) :
    (s.setGroup c g x).out = s.out := rfl

/-! ### `onGroup` -/

@[simp] theorem onGroup_time (s : State) (c g : Nat) (f : Group → Group) :
    (s.onGroup c g f).time = s.time := rfl
@[simp] theorem onGroup_boot (s : State) (c g : Nat) (f : Group → Group) :
    (s.onGroup c g f).boot = s.boot := rfl
@[simp] theorem onGroup_tripped (s : State) (c g : Nat) (f : Group → Group) :
    (s.onGroup c g f).tripped = s.tripped := rfl
@[simp] theorem onGroup_mem (s : State) (c g : Nat) (f : Group → Group) :
    (s.onGroup c g f).mem = s.mem := rfl
@[simp] theorem onGroup_carve (s : State) (c g : Nat) (f : Group → Group) :
    (s.onGroup c g f).carve = s.carve := rfl
@[simp] theorem onGroup_retiredFrames (s : State) (c g : Nat) (f : Group → Group) :
    (s.onGroup c g f).retiredFrames = s.retiredFrames := rfl
@[simp] theorem onGroup_ctxs (s : State) (c g : Nat) (f : Group → Group) :
    (s.onGroup c g f).ctxs = s.ctxs := rfl
@[simp] theorem onGroup_queues (s : State) (c g : Nat) (f : Group → Group) :
    (s.onGroup c g f).queues = s.queues := rfl
@[simp] theorem onGroup_launches (s : State) (c g : Nat) (f : Group → Group) :
    (s.onGroup c g f).launches = s.launches := rfl
@[simp] theorem onGroup_opens (s : State) (c g : Nat) (f : Group → Group) :
    (s.onGroup c g f).opens = s.opens := rfl
@[simp] theorem onGroup_swapNeeds (s : State) (c g : Nat) (f : Group → Group) :
    (s.onGroup c g f).swapNeeds = s.swapNeeds := rfl
@[simp] theorem onGroup_saved (s : State) (c g : Nat) (f : Group → Group) :
    (s.onGroup c g f).saved = s.saved := rfl
@[simp] theorem onGroup_deps (s : State) (c g : Nat) (f : Group → Group) :
    (s.onGroup c g f).deps = s.deps := rfl
@[simp] theorem onGroup_walk (s : State) (c g : Nat) (f : Group → Group) :
    (s.onGroup c g f).walk = s.walk := rfl
@[simp] theorem onGroup_domValid (s : State) (c g : Nat) (f : Group → Group) :
    (s.onGroup c g f).domValid = s.domValid := rfl
@[simp] theorem onGroup_domId (s : State) (c g : Nat) (f : Group → Group) :
    (s.onGroup c g f).domId = s.domId := rfl
@[simp] theorem onGroup_tsync (s : State) (c g : Nat) (f : Group → Group) :
    (s.onGroup c g f).tsync = s.tsync := rfl
@[simp] theorem onGroup_tsmaster (s : State) (c g : Nat) (f : Group → Group) :
    (s.onGroup c g f).tsmaster = s.tsmaster := rfl
@[simp] theorem onGroup_tsfrom (s : State) (c g : Nat) (f : Group → Group) :
    (s.onGroup c g f).tsfrom = s.tsfrom := rfl
@[simp] theorem onGroup_tsfirst (s : State) (c g : Nat) (f : Group → Group) :
    (s.onGroup c g f).tsfirst = s.tsfirst := rfl
@[simp] theorem onGroup_slew (s : State) (c g : Nat) (f : Group → Group) :
    (s.onGroup c g f).slew = s.slew := rfl
@[simp] theorem onGroup_ran (s : State) (c g : Nat) (f : Group → Group) :
    (s.onGroup c g f).ran = s.ran := rfl
@[simp] theorem onGroup_ticked (s : State) (c g : Nat) (f : Group → Group) :
    (s.onGroup c g f).ticked = s.ticked := rfl
@[simp] theorem onGroup_synced (s : State) (c g : Nat) (f : Group → Group) :
    (s.onGroup c g f).synced = s.synced := rfl
@[simp] theorem onGroup_tmoexp (s : State) (c g : Nat) (f : Group → Group) :
    (s.onGroup c g f).tmoexp = s.tmoexp := rfl
@[simp] theorem onGroup_congInc (s : State) (c g : Nat) (f : Group → Group) :
    (s.onGroup c g f).congInc = s.congInc := rfl
@[simp] theorem onGroup_congDec (s : State) (c g : Nat) (f : Group → Group) :
    (s.onGroup c g f).congDec = s.congDec := rfl
@[simp] theorem onGroup_congRmin (s : State) (c g : Nat) (f : Group → Group) :
    (s.onGroup c g f).congRmin = s.congRmin := rfl
@[simp] theorem onGroup_congThresh (s : State) (c g : Nat) (f : Group → Group) :
    (s.onGroup c g f).congThresh = s.congThresh := rfl
@[simp] theorem onGroup_ports (s : State) (c g : Nat) (f : Group → Group) :
    (s.onGroup c g f).ports = s.ports := rfl
@[simp] theorem onGroup_routes (s : State) (c g : Nat) (f : Group → Group) :
    (s.onGroup c g f).routes = s.routes := rfl
@[simp] theorem onGroup_rates (s : State) (c g : Nat) (f : Group → Group) :
    (s.onGroup c g f).rates = s.rates := rfl
@[simp] theorem onGroup_requests (s : State) (c g : Nat) (f : Group → Group) :
    (s.onGroup c g f).requests = s.requests := rfl
@[simp] theorem onGroup_nextTag (s : State) (c g : Nat) (f : Group → Group) :
    (s.onGroup c g f).nextTag = s.nextTag := rfl
@[simp] theorem onGroup_performed (s : State) (c g : Nat) (f : Group → Group) :
    (s.onGroup c g f).performed = s.performed := rfl
@[simp] theorem onGroup_peerClean (s : State) (c g : Nat) (f : Group → Group) :
    (s.onGroup c g f).peerClean = s.peerClean := rfl
@[simp] theorem onGroup_peerDirty (s : State) (c g : Nat) (f : Group → Group) :
    (s.onGroup c g f).peerDirty = s.peerDirty := rfl
@[simp] theorem onGroup_lineFrom (s : State) (c g : Nat) (f : Group → Group) :
    (s.onGroup c g f).lineFrom = s.lineFrom := rfl
@[simp] theorem onGroup_peersFrom (s : State) (c g : Nat) (f : Group → Group) :
    (s.onGroup c g f).peersFrom = s.peersFrom := rfl
@[simp] theorem onGroup_hostLines (s : State) (c g : Nat) (f : Group → Group) :
    (s.onGroup c g f).hostLines = s.hostLines := rfl
@[simp] theorem onGroup_gspBase (s : State) (c g : Nat) (f : Group → Group) :
    (s.onGroup c g f).gspBase = s.gspBase := rfl
@[simp] theorem onGroup_gspLast (s : State) (c g : Nat) (f : Group → Group) :
    (s.onGroup c g f).gspLast = s.gspLast := rfl
@[simp] theorem onGroup_gspErr (s : State) (c g : Nat) (f : Group → Group) :
    (s.onGroup c g f).gspErr = s.gspErr := rfl
@[simp] theorem onGroup_regions (s : State) (c g : Nat) (f : Group → Group) :
    (s.onGroup c g f).regions = s.regions := rfl
@[simp] theorem onGroup_heldHalves (s : State) (c g : Nat) (f : Group → Group) :
    (s.onGroup c g f).heldHalves = s.heldHalves := rfl
@[simp] theorem onGroup_waitingHalves (s : State) (c g : Nat) (f : Group → Group) :
    (s.onGroup c g f).waitingHalves = s.waitingHalves := rfl
@[simp] theorem onGroup_tick (s : State) (c g : Nat) (f : Group → Group) :
    (s.onGroup c g f).tick = s.tick := rfl
@[simp] theorem onGroup_fwstage (s : State) (c g : Nat) (f : Group → Group) :
    (s.onGroup c g f).fwstage = s.fwstage := rfl
@[simp] theorem onGroup_images (s : State) (c g : Nat) (f : Group → Group) :
    (s.onGroup c g f).images = s.images := rfl
@[simp] theorem onGroup_cur (s : State) (c g : Nat) (f : Group → Group) :
    (s.onGroup c g f).cur = s.cur := rfl
@[simp] theorem onGroup_agenda (s : State) (c g : Nat) (f : Group → Group) :
    (s.onGroup c g f).agenda = s.agenda := rfl
@[simp] theorem onGroup_turn (s : State) (c g : Nat) (f : Group → Group) :
    (s.onGroup c g f).turn = s.turn := rfl
@[simp] theorem onGroup_issued (s : State) (c g : Nat) (f : Group → Group) :
    (s.onGroup c g f).issued = s.issued := rfl
@[simp] theorem onGroup_out (s : State) (c g : Nat) (f : Group → Group) :
    (s.onGroup c g f).out = s.out := rfl

/-! ### `setTeam` -/

@[simp] theorem setTeam_time (s : State) (c t : Nat) (x : Team) :
    (s.setTeam c t x).time = s.time := rfl
@[simp] theorem setTeam_boot (s : State) (c t : Nat) (x : Team) :
    (s.setTeam c t x).boot = s.boot := rfl
@[simp] theorem setTeam_tripped (s : State) (c t : Nat) (x : Team) :
    (s.setTeam c t x).tripped = s.tripped := rfl
@[simp] theorem setTeam_mem (s : State) (c t : Nat) (x : Team) :
    (s.setTeam c t x).mem = s.mem := rfl
@[simp] theorem setTeam_carve (s : State) (c t : Nat) (x : Team) :
    (s.setTeam c t x).carve = s.carve := rfl
@[simp] theorem setTeam_retiredFrames (s : State) (c t : Nat) (x : Team) :
    (s.setTeam c t x).retiredFrames = s.retiredFrames := rfl
@[simp] theorem setTeam_ctxs (s : State) (c t : Nat) (x : Team) :
    (s.setTeam c t x).ctxs = s.ctxs := rfl
@[simp] theorem setTeam_queues (s : State) (c t : Nat) (x : Team) :
    (s.setTeam c t x).queues = s.queues := rfl
@[simp] theorem setTeam_launches (s : State) (c t : Nat) (x : Team) :
    (s.setTeam c t x).launches = s.launches := rfl
@[simp] theorem setTeam_opens (s : State) (c t : Nat) (x : Team) :
    (s.setTeam c t x).opens = s.opens := rfl
@[simp] theorem setTeam_swapNeeds (s : State) (c t : Nat) (x : Team) :
    (s.setTeam c t x).swapNeeds = s.swapNeeds := rfl
@[simp] theorem setTeam_saved (s : State) (c t : Nat) (x : Team) :
    (s.setTeam c t x).saved = s.saved := rfl
@[simp] theorem setTeam_deps (s : State) (c t : Nat) (x : Team) :
    (s.setTeam c t x).deps = s.deps := rfl
@[simp] theorem setTeam_walk (s : State) (c t : Nat) (x : Team) :
    (s.setTeam c t x).walk = s.walk := rfl
@[simp] theorem setTeam_domValid (s : State) (c t : Nat) (x : Team) :
    (s.setTeam c t x).domValid = s.domValid := rfl
@[simp] theorem setTeam_domId (s : State) (c t : Nat) (x : Team) :
    (s.setTeam c t x).domId = s.domId := rfl
@[simp] theorem setTeam_tsync (s : State) (c t : Nat) (x : Team) :
    (s.setTeam c t x).tsync = s.tsync := rfl
@[simp] theorem setTeam_tsmaster (s : State) (c t : Nat) (x : Team) :
    (s.setTeam c t x).tsmaster = s.tsmaster := rfl
@[simp] theorem setTeam_tsfrom (s : State) (c t : Nat) (x : Team) :
    (s.setTeam c t x).tsfrom = s.tsfrom := rfl
@[simp] theorem setTeam_tsfirst (s : State) (c t : Nat) (x : Team) :
    (s.setTeam c t x).tsfirst = s.tsfirst := rfl
@[simp] theorem setTeam_slew (s : State) (c t : Nat) (x : Team) :
    (s.setTeam c t x).slew = s.slew := rfl
@[simp] theorem setTeam_ran (s : State) (c t : Nat) (x : Team) :
    (s.setTeam c t x).ran = s.ran := rfl
@[simp] theorem setTeam_ticked (s : State) (c t : Nat) (x : Team) :
    (s.setTeam c t x).ticked = s.ticked := rfl
@[simp] theorem setTeam_synced (s : State) (c t : Nat) (x : Team) :
    (s.setTeam c t x).synced = s.synced := rfl
@[simp] theorem setTeam_tmoexp (s : State) (c t : Nat) (x : Team) :
    (s.setTeam c t x).tmoexp = s.tmoexp := rfl
@[simp] theorem setTeam_congInc (s : State) (c t : Nat) (x : Team) :
    (s.setTeam c t x).congInc = s.congInc := rfl
@[simp] theorem setTeam_congDec (s : State) (c t : Nat) (x : Team) :
    (s.setTeam c t x).congDec = s.congDec := rfl
@[simp] theorem setTeam_congRmin (s : State) (c t : Nat) (x : Team) :
    (s.setTeam c t x).congRmin = s.congRmin := rfl
@[simp] theorem setTeam_congThresh (s : State) (c t : Nat) (x : Team) :
    (s.setTeam c t x).congThresh = s.congThresh := rfl
@[simp] theorem setTeam_ports (s : State) (c t : Nat) (x : Team) :
    (s.setTeam c t x).ports = s.ports := rfl
@[simp] theorem setTeam_routes (s : State) (c t : Nat) (x : Team) :
    (s.setTeam c t x).routes = s.routes := rfl
@[simp] theorem setTeam_rates (s : State) (c t : Nat) (x : Team) :
    (s.setTeam c t x).rates = s.rates := rfl
@[simp] theorem setTeam_requests (s : State) (c t : Nat) (x : Team) :
    (s.setTeam c t x).requests = s.requests := rfl
@[simp] theorem setTeam_nextTag (s : State) (c t : Nat) (x : Team) :
    (s.setTeam c t x).nextTag = s.nextTag := rfl
@[simp] theorem setTeam_performed (s : State) (c t : Nat) (x : Team) :
    (s.setTeam c t x).performed = s.performed := rfl
@[simp] theorem setTeam_peerClean (s : State) (c t : Nat) (x : Team) :
    (s.setTeam c t x).peerClean = s.peerClean := rfl
@[simp] theorem setTeam_peerDirty (s : State) (c t : Nat) (x : Team) :
    (s.setTeam c t x).peerDirty = s.peerDirty := rfl
@[simp] theorem setTeam_lineFrom (s : State) (c t : Nat) (x : Team) :
    (s.setTeam c t x).lineFrom = s.lineFrom := rfl
@[simp] theorem setTeam_peersFrom (s : State) (c t : Nat) (x : Team) :
    (s.setTeam c t x).peersFrom = s.peersFrom := rfl
@[simp] theorem setTeam_hostLines (s : State) (c t : Nat) (x : Team) :
    (s.setTeam c t x).hostLines = s.hostLines := rfl
@[simp] theorem setTeam_gspBase (s : State) (c t : Nat) (x : Team) :
    (s.setTeam c t x).gspBase = s.gspBase := rfl
@[simp] theorem setTeam_gspLast (s : State) (c t : Nat) (x : Team) :
    (s.setTeam c t x).gspLast = s.gspLast := rfl
@[simp] theorem setTeam_gspErr (s : State) (c t : Nat) (x : Team) :
    (s.setTeam c t x).gspErr = s.gspErr := rfl
@[simp] theorem setTeam_regions (s : State) (c t : Nat) (x : Team) :
    (s.setTeam c t x).regions = s.regions := rfl
@[simp] theorem setTeam_heldHalves (s : State) (c t : Nat) (x : Team) :
    (s.setTeam c t x).heldHalves = s.heldHalves := rfl
@[simp] theorem setTeam_waitingHalves (s : State) (c t : Nat) (x : Team) :
    (s.setTeam c t x).waitingHalves = s.waitingHalves := rfl
@[simp] theorem setTeam_tick (s : State) (c t : Nat) (x : Team) :
    (s.setTeam c t x).tick = s.tick := rfl
@[simp] theorem setTeam_fwstage (s : State) (c t : Nat) (x : Team) :
    (s.setTeam c t x).fwstage = s.fwstage := rfl
@[simp] theorem setTeam_images (s : State) (c t : Nat) (x : Team) :
    (s.setTeam c t x).images = s.images := rfl
@[simp] theorem setTeam_cur (s : State) (c t : Nat) (x : Team) :
    (s.setTeam c t x).cur = s.cur := rfl
@[simp] theorem setTeam_agenda (s : State) (c t : Nat) (x : Team) :
    (s.setTeam c t x).agenda = s.agenda := rfl
@[simp] theorem setTeam_turn (s : State) (c t : Nat) (x : Team) :
    (s.setTeam c t x).turn = s.turn := rfl
@[simp] theorem setTeam_issued (s : State) (c t : Nat) (x : Team) :
    (s.setTeam c t x).issued = s.issued := rfl
@[simp] theorem setTeam_out (s : State) (c t : Nat) (x : Team) :
    (s.setTeam c t x).out = s.out := rfl

/-! ### `onTeam` -/

@[simp] theorem onTeam_time (s : State) (c t : Nat) (f : Team → Team) :
    (s.onTeam c t f).time = s.time := rfl
@[simp] theorem onTeam_boot (s : State) (c t : Nat) (f : Team → Team) :
    (s.onTeam c t f).boot = s.boot := rfl
@[simp] theorem onTeam_tripped (s : State) (c t : Nat) (f : Team → Team) :
    (s.onTeam c t f).tripped = s.tripped := rfl
@[simp] theorem onTeam_mem (s : State) (c t : Nat) (f : Team → Team) :
    (s.onTeam c t f).mem = s.mem := rfl
@[simp] theorem onTeam_carve (s : State) (c t : Nat) (f : Team → Team) :
    (s.onTeam c t f).carve = s.carve := rfl
@[simp] theorem onTeam_retiredFrames (s : State) (c t : Nat) (f : Team → Team) :
    (s.onTeam c t f).retiredFrames = s.retiredFrames := rfl
@[simp] theorem onTeam_ctxs (s : State) (c t : Nat) (f : Team → Team) :
    (s.onTeam c t f).ctxs = s.ctxs := rfl
@[simp] theorem onTeam_queues (s : State) (c t : Nat) (f : Team → Team) :
    (s.onTeam c t f).queues = s.queues := rfl
@[simp] theorem onTeam_launches (s : State) (c t : Nat) (f : Team → Team) :
    (s.onTeam c t f).launches = s.launches := rfl
@[simp] theorem onTeam_opens (s : State) (c t : Nat) (f : Team → Team) :
    (s.onTeam c t f).opens = s.opens := rfl
@[simp] theorem onTeam_swapNeeds (s : State) (c t : Nat) (f : Team → Team) :
    (s.onTeam c t f).swapNeeds = s.swapNeeds := rfl
@[simp] theorem onTeam_saved (s : State) (c t : Nat) (f : Team → Team) :
    (s.onTeam c t f).saved = s.saved := rfl
@[simp] theorem onTeam_deps (s : State) (c t : Nat) (f : Team → Team) :
    (s.onTeam c t f).deps = s.deps := rfl
@[simp] theorem onTeam_walk (s : State) (c t : Nat) (f : Team → Team) :
    (s.onTeam c t f).walk = s.walk := rfl
@[simp] theorem onTeam_domValid (s : State) (c t : Nat) (f : Team → Team) :
    (s.onTeam c t f).domValid = s.domValid := rfl
@[simp] theorem onTeam_domId (s : State) (c t : Nat) (f : Team → Team) :
    (s.onTeam c t f).domId = s.domId := rfl
@[simp] theorem onTeam_tsync (s : State) (c t : Nat) (f : Team → Team) :
    (s.onTeam c t f).tsync = s.tsync := rfl
@[simp] theorem onTeam_tsmaster (s : State) (c t : Nat) (f : Team → Team) :
    (s.onTeam c t f).tsmaster = s.tsmaster := rfl
@[simp] theorem onTeam_tsfrom (s : State) (c t : Nat) (f : Team → Team) :
    (s.onTeam c t f).tsfrom = s.tsfrom := rfl
@[simp] theorem onTeam_tsfirst (s : State) (c t : Nat) (f : Team → Team) :
    (s.onTeam c t f).tsfirst = s.tsfirst := rfl
@[simp] theorem onTeam_slew (s : State) (c t : Nat) (f : Team → Team) :
    (s.onTeam c t f).slew = s.slew := rfl
@[simp] theorem onTeam_ran (s : State) (c t : Nat) (f : Team → Team) :
    (s.onTeam c t f).ran = s.ran := rfl
@[simp] theorem onTeam_ticked (s : State) (c t : Nat) (f : Team → Team) :
    (s.onTeam c t f).ticked = s.ticked := rfl
@[simp] theorem onTeam_synced (s : State) (c t : Nat) (f : Team → Team) :
    (s.onTeam c t f).synced = s.synced := rfl
@[simp] theorem onTeam_tmoexp (s : State) (c t : Nat) (f : Team → Team) :
    (s.onTeam c t f).tmoexp = s.tmoexp := rfl
@[simp] theorem onTeam_congInc (s : State) (c t : Nat) (f : Team → Team) :
    (s.onTeam c t f).congInc = s.congInc := rfl
@[simp] theorem onTeam_congDec (s : State) (c t : Nat) (f : Team → Team) :
    (s.onTeam c t f).congDec = s.congDec := rfl
@[simp] theorem onTeam_congRmin (s : State) (c t : Nat) (f : Team → Team) :
    (s.onTeam c t f).congRmin = s.congRmin := rfl
@[simp] theorem onTeam_congThresh (s : State) (c t : Nat) (f : Team → Team) :
    (s.onTeam c t f).congThresh = s.congThresh := rfl
@[simp] theorem onTeam_ports (s : State) (c t : Nat) (f : Team → Team) :
    (s.onTeam c t f).ports = s.ports := rfl
@[simp] theorem onTeam_routes (s : State) (c t : Nat) (f : Team → Team) :
    (s.onTeam c t f).routes = s.routes := rfl
@[simp] theorem onTeam_rates (s : State) (c t : Nat) (f : Team → Team) :
    (s.onTeam c t f).rates = s.rates := rfl
@[simp] theorem onTeam_requests (s : State) (c t : Nat) (f : Team → Team) :
    (s.onTeam c t f).requests = s.requests := rfl
@[simp] theorem onTeam_nextTag (s : State) (c t : Nat) (f : Team → Team) :
    (s.onTeam c t f).nextTag = s.nextTag := rfl
@[simp] theorem onTeam_performed (s : State) (c t : Nat) (f : Team → Team) :
    (s.onTeam c t f).performed = s.performed := rfl
@[simp] theorem onTeam_peerClean (s : State) (c t : Nat) (f : Team → Team) :
    (s.onTeam c t f).peerClean = s.peerClean := rfl
@[simp] theorem onTeam_peerDirty (s : State) (c t : Nat) (f : Team → Team) :
    (s.onTeam c t f).peerDirty = s.peerDirty := rfl
@[simp] theorem onTeam_lineFrom (s : State) (c t : Nat) (f : Team → Team) :
    (s.onTeam c t f).lineFrom = s.lineFrom := rfl
@[simp] theorem onTeam_peersFrom (s : State) (c t : Nat) (f : Team → Team) :
    (s.onTeam c t f).peersFrom = s.peersFrom := rfl
@[simp] theorem onTeam_hostLines (s : State) (c t : Nat) (f : Team → Team) :
    (s.onTeam c t f).hostLines = s.hostLines := rfl
@[simp] theorem onTeam_gspBase (s : State) (c t : Nat) (f : Team → Team) :
    (s.onTeam c t f).gspBase = s.gspBase := rfl
@[simp] theorem onTeam_gspLast (s : State) (c t : Nat) (f : Team → Team) :
    (s.onTeam c t f).gspLast = s.gspLast := rfl
@[simp] theorem onTeam_gspErr (s : State) (c t : Nat) (f : Team → Team) :
    (s.onTeam c t f).gspErr = s.gspErr := rfl
@[simp] theorem onTeam_regions (s : State) (c t : Nat) (f : Team → Team) :
    (s.onTeam c t f).regions = s.regions := rfl
@[simp] theorem onTeam_heldHalves (s : State) (c t : Nat) (f : Team → Team) :
    (s.onTeam c t f).heldHalves = s.heldHalves := rfl
@[simp] theorem onTeam_waitingHalves (s : State) (c t : Nat) (f : Team → Team) :
    (s.onTeam c t f).waitingHalves = s.waitingHalves := rfl
@[simp] theorem onTeam_tick (s : State) (c t : Nat) (f : Team → Team) :
    (s.onTeam c t f).tick = s.tick := rfl
@[simp] theorem onTeam_fwstage (s : State) (c t : Nat) (f : Team → Team) :
    (s.onTeam c t f).fwstage = s.fwstage := rfl
@[simp] theorem onTeam_images (s : State) (c t : Nat) (f : Team → Team) :
    (s.onTeam c t f).images = s.images := rfl
@[simp] theorem onTeam_cur (s : State) (c t : Nat) (f : Team → Team) :
    (s.onTeam c t f).cur = s.cur := rfl
@[simp] theorem onTeam_agenda (s : State) (c t : Nat) (f : Team → Team) :
    (s.onTeam c t f).agenda = s.agenda := rfl
@[simp] theorem onTeam_turn (s : State) (c t : Nat) (f : Team → Team) :
    (s.onTeam c t f).turn = s.turn := rfl
@[simp] theorem onTeam_issued (s : State) (c t : Nat) (f : Team → Team) :
    (s.onTeam c t f).issued = s.issued := rfl
@[simp] theorem onTeam_out (s : State) (c t : Nat) (f : Team → Team) :
    (s.onTeam c t f).out = s.out := rfl

/-! ### `setToken` -/

@[simp] theorem setToken_time (s : State) (c e : Nat) (x : TokEntry) :
    (s.setToken c e x).time = s.time := rfl
@[simp] theorem setToken_boot (s : State) (c e : Nat) (x : TokEntry) :
    (s.setToken c e x).boot = s.boot := rfl
@[simp] theorem setToken_tripped (s : State) (c e : Nat) (x : TokEntry) :
    (s.setToken c e x).tripped = s.tripped := rfl
@[simp] theorem setToken_mem (s : State) (c e : Nat) (x : TokEntry) :
    (s.setToken c e x).mem = s.mem := rfl
@[simp] theorem setToken_carve (s : State) (c e : Nat) (x : TokEntry) :
    (s.setToken c e x).carve = s.carve := rfl
@[simp] theorem setToken_retiredFrames (s : State) (c e : Nat) (x : TokEntry) :
    (s.setToken c e x).retiredFrames = s.retiredFrames := rfl
@[simp] theorem setToken_ctxs (s : State) (c e : Nat) (x : TokEntry) :
    (s.setToken c e x).ctxs = s.ctxs := rfl
@[simp] theorem setToken_queues (s : State) (c e : Nat) (x : TokEntry) :
    (s.setToken c e x).queues = s.queues := rfl
@[simp] theorem setToken_launches (s : State) (c e : Nat) (x : TokEntry) :
    (s.setToken c e x).launches = s.launches := rfl
@[simp] theorem setToken_opens (s : State) (c e : Nat) (x : TokEntry) :
    (s.setToken c e x).opens = s.opens := rfl
@[simp] theorem setToken_swapNeeds (s : State) (c e : Nat) (x : TokEntry) :
    (s.setToken c e x).swapNeeds = s.swapNeeds := rfl
@[simp] theorem setToken_saved (s : State) (c e : Nat) (x : TokEntry) :
    (s.setToken c e x).saved = s.saved := rfl
@[simp] theorem setToken_deps (s : State) (c e : Nat) (x : TokEntry) :
    (s.setToken c e x).deps = s.deps := rfl
@[simp] theorem setToken_walk (s : State) (c e : Nat) (x : TokEntry) :
    (s.setToken c e x).walk = s.walk := rfl
@[simp] theorem setToken_domValid (s : State) (c e : Nat) (x : TokEntry) :
    (s.setToken c e x).domValid = s.domValid := rfl
@[simp] theorem setToken_domId (s : State) (c e : Nat) (x : TokEntry) :
    (s.setToken c e x).domId = s.domId := rfl
@[simp] theorem setToken_tsync (s : State) (c e : Nat) (x : TokEntry) :
    (s.setToken c e x).tsync = s.tsync := rfl
@[simp] theorem setToken_tsmaster (s : State) (c e : Nat) (x : TokEntry) :
    (s.setToken c e x).tsmaster = s.tsmaster := rfl
@[simp] theorem setToken_tsfrom (s : State) (c e : Nat) (x : TokEntry) :
    (s.setToken c e x).tsfrom = s.tsfrom := rfl
@[simp] theorem setToken_tsfirst (s : State) (c e : Nat) (x : TokEntry) :
    (s.setToken c e x).tsfirst = s.tsfirst := rfl
@[simp] theorem setToken_slew (s : State) (c e : Nat) (x : TokEntry) :
    (s.setToken c e x).slew = s.slew := rfl
@[simp] theorem setToken_ran (s : State) (c e : Nat) (x : TokEntry) :
    (s.setToken c e x).ran = s.ran := rfl
@[simp] theorem setToken_ticked (s : State) (c e : Nat) (x : TokEntry) :
    (s.setToken c e x).ticked = s.ticked := rfl
@[simp] theorem setToken_synced (s : State) (c e : Nat) (x : TokEntry) :
    (s.setToken c e x).synced = s.synced := rfl
@[simp] theorem setToken_tmoexp (s : State) (c e : Nat) (x : TokEntry) :
    (s.setToken c e x).tmoexp = s.tmoexp := rfl
@[simp] theorem setToken_congInc (s : State) (c e : Nat) (x : TokEntry) :
    (s.setToken c e x).congInc = s.congInc := rfl
@[simp] theorem setToken_congDec (s : State) (c e : Nat) (x : TokEntry) :
    (s.setToken c e x).congDec = s.congDec := rfl
@[simp] theorem setToken_congRmin (s : State) (c e : Nat) (x : TokEntry) :
    (s.setToken c e x).congRmin = s.congRmin := rfl
@[simp] theorem setToken_congThresh (s : State) (c e : Nat) (x : TokEntry) :
    (s.setToken c e x).congThresh = s.congThresh := rfl
@[simp] theorem setToken_ports (s : State) (c e : Nat) (x : TokEntry) :
    (s.setToken c e x).ports = s.ports := rfl
@[simp] theorem setToken_routes (s : State) (c e : Nat) (x : TokEntry) :
    (s.setToken c e x).routes = s.routes := rfl
@[simp] theorem setToken_rates (s : State) (c e : Nat) (x : TokEntry) :
    (s.setToken c e x).rates = s.rates := rfl
@[simp] theorem setToken_requests (s : State) (c e : Nat) (x : TokEntry) :
    (s.setToken c e x).requests = s.requests := rfl
@[simp] theorem setToken_nextTag (s : State) (c e : Nat) (x : TokEntry) :
    (s.setToken c e x).nextTag = s.nextTag := rfl
@[simp] theorem setToken_performed (s : State) (c e : Nat) (x : TokEntry) :
    (s.setToken c e x).performed = s.performed := rfl
@[simp] theorem setToken_peerClean (s : State) (c e : Nat) (x : TokEntry) :
    (s.setToken c e x).peerClean = s.peerClean := rfl
@[simp] theorem setToken_peerDirty (s : State) (c e : Nat) (x : TokEntry) :
    (s.setToken c e x).peerDirty = s.peerDirty := rfl
@[simp] theorem setToken_lineFrom (s : State) (c e : Nat) (x : TokEntry) :
    (s.setToken c e x).lineFrom = s.lineFrom := rfl
@[simp] theorem setToken_peersFrom (s : State) (c e : Nat) (x : TokEntry) :
    (s.setToken c e x).peersFrom = s.peersFrom := rfl
@[simp] theorem setToken_hostLines (s : State) (c e : Nat) (x : TokEntry) :
    (s.setToken c e x).hostLines = s.hostLines := rfl
@[simp] theorem setToken_gspBase (s : State) (c e : Nat) (x : TokEntry) :
    (s.setToken c e x).gspBase = s.gspBase := rfl
@[simp] theorem setToken_gspLast (s : State) (c e : Nat) (x : TokEntry) :
    (s.setToken c e x).gspLast = s.gspLast := rfl
@[simp] theorem setToken_gspErr (s : State) (c e : Nat) (x : TokEntry) :
    (s.setToken c e x).gspErr = s.gspErr := rfl
@[simp] theorem setToken_regions (s : State) (c e : Nat) (x : TokEntry) :
    (s.setToken c e x).regions = s.regions := rfl
@[simp] theorem setToken_heldHalves (s : State) (c e : Nat) (x : TokEntry) :
    (s.setToken c e x).heldHalves = s.heldHalves := rfl
@[simp] theorem setToken_waitingHalves (s : State) (c e : Nat) (x : TokEntry) :
    (s.setToken c e x).waitingHalves = s.waitingHalves := rfl
@[simp] theorem setToken_tick (s : State) (c e : Nat) (x : TokEntry) :
    (s.setToken c e x).tick = s.tick := rfl
@[simp] theorem setToken_fwstage (s : State) (c e : Nat) (x : TokEntry) :
    (s.setToken c e x).fwstage = s.fwstage := rfl
@[simp] theorem setToken_images (s : State) (c e : Nat) (x : TokEntry) :
    (s.setToken c e x).images = s.images := rfl
@[simp] theorem setToken_cur (s : State) (c e : Nat) (x : TokEntry) :
    (s.setToken c e x).cur = s.cur := rfl
@[simp] theorem setToken_agenda (s : State) (c e : Nat) (x : TokEntry) :
    (s.setToken c e x).agenda = s.agenda := rfl
@[simp] theorem setToken_turn (s : State) (c e : Nat) (x : TokEntry) :
    (s.setToken c e x).turn = s.turn := rfl
@[simp] theorem setToken_issued (s : State) (c e : Nat) (x : TokEntry) :
    (s.setToken c e x).issued = s.issued := rfl
@[simp] theorem setToken_out (s : State) (c e : Nat) (x : TokEntry) :
    (s.setToken c e x).out = s.out := rfl

/-! ### `setCtx` -/

@[simp] theorem setCtx_time (s : State) (a : Nat) (x : Ctx) :
    (s.setCtx a x).time = s.time := rfl
@[simp] theorem setCtx_boot (s : State) (a : Nat) (x : Ctx) :
    (s.setCtx a x).boot = s.boot := rfl
@[simp] theorem setCtx_tripped (s : State) (a : Nat) (x : Ctx) :
    (s.setCtx a x).tripped = s.tripped := rfl
@[simp] theorem setCtx_mem (s : State) (a : Nat) (x : Ctx) :
    (s.setCtx a x).mem = s.mem := rfl
@[simp] theorem setCtx_carve (s : State) (a : Nat) (x : Ctx) :
    (s.setCtx a x).carve = s.carve := rfl
@[simp] theorem setCtx_retiredFrames (s : State) (a : Nat) (x : Ctx) :
    (s.setCtx a x).retiredFrames = s.retiredFrames := rfl
@[simp] theorem setCtx_cores (s : State) (a : Nat) (x : Ctx) :
    (s.setCtx a x).cores = s.cores := rfl
@[simp] theorem setCtx_queues (s : State) (a : Nat) (x : Ctx) :
    (s.setCtx a x).queues = s.queues := rfl
@[simp] theorem setCtx_launches (s : State) (a : Nat) (x : Ctx) :
    (s.setCtx a x).launches = s.launches := rfl
@[simp] theorem setCtx_opens (s : State) (a : Nat) (x : Ctx) :
    (s.setCtx a x).opens = s.opens := rfl
@[simp] theorem setCtx_swapNeeds (s : State) (a : Nat) (x : Ctx) :
    (s.setCtx a x).swapNeeds = s.swapNeeds := rfl
@[simp] theorem setCtx_saved (s : State) (a : Nat) (x : Ctx) :
    (s.setCtx a x).saved = s.saved := rfl
@[simp] theorem setCtx_deps (s : State) (a : Nat) (x : Ctx) :
    (s.setCtx a x).deps = s.deps := rfl
@[simp] theorem setCtx_walk (s : State) (a : Nat) (x : Ctx) :
    (s.setCtx a x).walk = s.walk := rfl
@[simp] theorem setCtx_domValid (s : State) (a : Nat) (x : Ctx) :
    (s.setCtx a x).domValid = s.domValid := rfl
@[simp] theorem setCtx_domId (s : State) (a : Nat) (x : Ctx) :
    (s.setCtx a x).domId = s.domId := rfl
@[simp] theorem setCtx_tsync (s : State) (a : Nat) (x : Ctx) :
    (s.setCtx a x).tsync = s.tsync := rfl
@[simp] theorem setCtx_tsmaster (s : State) (a : Nat) (x : Ctx) :
    (s.setCtx a x).tsmaster = s.tsmaster := rfl
@[simp] theorem setCtx_tsfrom (s : State) (a : Nat) (x : Ctx) :
    (s.setCtx a x).tsfrom = s.tsfrom := rfl
@[simp] theorem setCtx_tsfirst (s : State) (a : Nat) (x : Ctx) :
    (s.setCtx a x).tsfirst = s.tsfirst := rfl
@[simp] theorem setCtx_slew (s : State) (a : Nat) (x : Ctx) :
    (s.setCtx a x).slew = s.slew := rfl
@[simp] theorem setCtx_ran (s : State) (a : Nat) (x : Ctx) :
    (s.setCtx a x).ran = s.ran := rfl
@[simp] theorem setCtx_ticked (s : State) (a : Nat) (x : Ctx) :
    (s.setCtx a x).ticked = s.ticked := rfl
@[simp] theorem setCtx_synced (s : State) (a : Nat) (x : Ctx) :
    (s.setCtx a x).synced = s.synced := rfl
@[simp] theorem setCtx_tmoexp (s : State) (a : Nat) (x : Ctx) :
    (s.setCtx a x).tmoexp = s.tmoexp := rfl
@[simp] theorem setCtx_congInc (s : State) (a : Nat) (x : Ctx) :
    (s.setCtx a x).congInc = s.congInc := rfl
@[simp] theorem setCtx_congDec (s : State) (a : Nat) (x : Ctx) :
    (s.setCtx a x).congDec = s.congDec := rfl
@[simp] theorem setCtx_congRmin (s : State) (a : Nat) (x : Ctx) :
    (s.setCtx a x).congRmin = s.congRmin := rfl
@[simp] theorem setCtx_congThresh (s : State) (a : Nat) (x : Ctx) :
    (s.setCtx a x).congThresh = s.congThresh := rfl
@[simp] theorem setCtx_ports (s : State) (a : Nat) (x : Ctx) :
    (s.setCtx a x).ports = s.ports := rfl
@[simp] theorem setCtx_routes (s : State) (a : Nat) (x : Ctx) :
    (s.setCtx a x).routes = s.routes := rfl
@[simp] theorem setCtx_rates (s : State) (a : Nat) (x : Ctx) :
    (s.setCtx a x).rates = s.rates := rfl
@[simp] theorem setCtx_requests (s : State) (a : Nat) (x : Ctx) :
    (s.setCtx a x).requests = s.requests := rfl
@[simp] theorem setCtx_nextTag (s : State) (a : Nat) (x : Ctx) :
    (s.setCtx a x).nextTag = s.nextTag := rfl
@[simp] theorem setCtx_performed (s : State) (a : Nat) (x : Ctx) :
    (s.setCtx a x).performed = s.performed := rfl
@[simp] theorem setCtx_peerClean (s : State) (a : Nat) (x : Ctx) :
    (s.setCtx a x).peerClean = s.peerClean := rfl
@[simp] theorem setCtx_peerDirty (s : State) (a : Nat) (x : Ctx) :
    (s.setCtx a x).peerDirty = s.peerDirty := rfl
@[simp] theorem setCtx_lineFrom (s : State) (a : Nat) (x : Ctx) :
    (s.setCtx a x).lineFrom = s.lineFrom := rfl
@[simp] theorem setCtx_peersFrom (s : State) (a : Nat) (x : Ctx) :
    (s.setCtx a x).peersFrom = s.peersFrom := rfl
@[simp] theorem setCtx_hostLines (s : State) (a : Nat) (x : Ctx) :
    (s.setCtx a x).hostLines = s.hostLines := rfl
@[simp] theorem setCtx_gspBase (s : State) (a : Nat) (x : Ctx) :
    (s.setCtx a x).gspBase = s.gspBase := rfl
@[simp] theorem setCtx_gspLast (s : State) (a : Nat) (x : Ctx) :
    (s.setCtx a x).gspLast = s.gspLast := rfl
@[simp] theorem setCtx_gspErr (s : State) (a : Nat) (x : Ctx) :
    (s.setCtx a x).gspErr = s.gspErr := rfl
@[simp] theorem setCtx_regions (s : State) (a : Nat) (x : Ctx) :
    (s.setCtx a x).regions = s.regions := rfl
@[simp] theorem setCtx_heldHalves (s : State) (a : Nat) (x : Ctx) :
    (s.setCtx a x).heldHalves = s.heldHalves := rfl
@[simp] theorem setCtx_waitingHalves (s : State) (a : Nat) (x : Ctx) :
    (s.setCtx a x).waitingHalves = s.waitingHalves := rfl
@[simp] theorem setCtx_tick (s : State) (a : Nat) (x : Ctx) :
    (s.setCtx a x).tick = s.tick := rfl
@[simp] theorem setCtx_fwstage (s : State) (a : Nat) (x : Ctx) :
    (s.setCtx a x).fwstage = s.fwstage := rfl
@[simp] theorem setCtx_images (s : State) (a : Nat) (x : Ctx) :
    (s.setCtx a x).images = s.images := rfl
@[simp] theorem setCtx_cur (s : State) (a : Nat) (x : Ctx) :
    (s.setCtx a x).cur = s.cur := rfl
@[simp] theorem setCtx_agenda (s : State) (a : Nat) (x : Ctx) :
    (s.setCtx a x).agenda = s.agenda := rfl
@[simp] theorem setCtx_turn (s : State) (a : Nat) (x : Ctx) :
    (s.setCtx a x).turn = s.turn := rfl
@[simp] theorem setCtx_issued (s : State) (a : Nat) (x : Ctx) :
    (s.setCtx a x).issued = s.issued := rfl
@[simp] theorem setCtx_out (s : State) (a : Nat) (x : Ctx) :
    (s.setCtx a x).out = s.out := rfl

/-! ### `onCtx` -/

@[simp] theorem onCtx_time (s : State) (a : Nat) (f : Ctx → Ctx) :
    (s.onCtx a f).time = s.time := rfl
@[simp] theorem onCtx_boot (s : State) (a : Nat) (f : Ctx → Ctx) :
    (s.onCtx a f).boot = s.boot := rfl
@[simp] theorem onCtx_tripped (s : State) (a : Nat) (f : Ctx → Ctx) :
    (s.onCtx a f).tripped = s.tripped := rfl
@[simp] theorem onCtx_mem (s : State) (a : Nat) (f : Ctx → Ctx) :
    (s.onCtx a f).mem = s.mem := rfl
@[simp] theorem onCtx_carve (s : State) (a : Nat) (f : Ctx → Ctx) :
    (s.onCtx a f).carve = s.carve := rfl
@[simp] theorem onCtx_retiredFrames (s : State) (a : Nat) (f : Ctx → Ctx) :
    (s.onCtx a f).retiredFrames = s.retiredFrames := rfl
@[simp] theorem onCtx_cores (s : State) (a : Nat) (f : Ctx → Ctx) :
    (s.onCtx a f).cores = s.cores := rfl
@[simp] theorem onCtx_queues (s : State) (a : Nat) (f : Ctx → Ctx) :
    (s.onCtx a f).queues = s.queues := rfl
@[simp] theorem onCtx_launches (s : State) (a : Nat) (f : Ctx → Ctx) :
    (s.onCtx a f).launches = s.launches := rfl
@[simp] theorem onCtx_opens (s : State) (a : Nat) (f : Ctx → Ctx) :
    (s.onCtx a f).opens = s.opens := rfl
@[simp] theorem onCtx_swapNeeds (s : State) (a : Nat) (f : Ctx → Ctx) :
    (s.onCtx a f).swapNeeds = s.swapNeeds := rfl
@[simp] theorem onCtx_saved (s : State) (a : Nat) (f : Ctx → Ctx) :
    (s.onCtx a f).saved = s.saved := rfl
@[simp] theorem onCtx_deps (s : State) (a : Nat) (f : Ctx → Ctx) :
    (s.onCtx a f).deps = s.deps := rfl
@[simp] theorem onCtx_walk (s : State) (a : Nat) (f : Ctx → Ctx) :
    (s.onCtx a f).walk = s.walk := rfl
@[simp] theorem onCtx_domValid (s : State) (a : Nat) (f : Ctx → Ctx) :
    (s.onCtx a f).domValid = s.domValid := rfl
@[simp] theorem onCtx_domId (s : State) (a : Nat) (f : Ctx → Ctx) :
    (s.onCtx a f).domId = s.domId := rfl
@[simp] theorem onCtx_tsync (s : State) (a : Nat) (f : Ctx → Ctx) :
    (s.onCtx a f).tsync = s.tsync := rfl
@[simp] theorem onCtx_tsmaster (s : State) (a : Nat) (f : Ctx → Ctx) :
    (s.onCtx a f).tsmaster = s.tsmaster := rfl
@[simp] theorem onCtx_tsfrom (s : State) (a : Nat) (f : Ctx → Ctx) :
    (s.onCtx a f).tsfrom = s.tsfrom := rfl
@[simp] theorem onCtx_tsfirst (s : State) (a : Nat) (f : Ctx → Ctx) :
    (s.onCtx a f).tsfirst = s.tsfirst := rfl
@[simp] theorem onCtx_slew (s : State) (a : Nat) (f : Ctx → Ctx) :
    (s.onCtx a f).slew = s.slew := rfl
@[simp] theorem onCtx_ran (s : State) (a : Nat) (f : Ctx → Ctx) :
    (s.onCtx a f).ran = s.ran := rfl
@[simp] theorem onCtx_ticked (s : State) (a : Nat) (f : Ctx → Ctx) :
    (s.onCtx a f).ticked = s.ticked := rfl
@[simp] theorem onCtx_synced (s : State) (a : Nat) (f : Ctx → Ctx) :
    (s.onCtx a f).synced = s.synced := rfl
@[simp] theorem onCtx_tmoexp (s : State) (a : Nat) (f : Ctx → Ctx) :
    (s.onCtx a f).tmoexp = s.tmoexp := rfl
@[simp] theorem onCtx_congInc (s : State) (a : Nat) (f : Ctx → Ctx) :
    (s.onCtx a f).congInc = s.congInc := rfl
@[simp] theorem onCtx_congDec (s : State) (a : Nat) (f : Ctx → Ctx) :
    (s.onCtx a f).congDec = s.congDec := rfl
@[simp] theorem onCtx_congRmin (s : State) (a : Nat) (f : Ctx → Ctx) :
    (s.onCtx a f).congRmin = s.congRmin := rfl
@[simp] theorem onCtx_congThresh (s : State) (a : Nat) (f : Ctx → Ctx) :
    (s.onCtx a f).congThresh = s.congThresh := rfl
@[simp] theorem onCtx_ports (s : State) (a : Nat) (f : Ctx → Ctx) :
    (s.onCtx a f).ports = s.ports := rfl
@[simp] theorem onCtx_routes (s : State) (a : Nat) (f : Ctx → Ctx) :
    (s.onCtx a f).routes = s.routes := rfl
@[simp] theorem onCtx_rates (s : State) (a : Nat) (f : Ctx → Ctx) :
    (s.onCtx a f).rates = s.rates := rfl
@[simp] theorem onCtx_requests (s : State) (a : Nat) (f : Ctx → Ctx) :
    (s.onCtx a f).requests = s.requests := rfl
@[simp] theorem onCtx_nextTag (s : State) (a : Nat) (f : Ctx → Ctx) :
    (s.onCtx a f).nextTag = s.nextTag := rfl
@[simp] theorem onCtx_performed (s : State) (a : Nat) (f : Ctx → Ctx) :
    (s.onCtx a f).performed = s.performed := rfl
@[simp] theorem onCtx_peerClean (s : State) (a : Nat) (f : Ctx → Ctx) :
    (s.onCtx a f).peerClean = s.peerClean := rfl
@[simp] theorem onCtx_peerDirty (s : State) (a : Nat) (f : Ctx → Ctx) :
    (s.onCtx a f).peerDirty = s.peerDirty := rfl
@[simp] theorem onCtx_lineFrom (s : State) (a : Nat) (f : Ctx → Ctx) :
    (s.onCtx a f).lineFrom = s.lineFrom := rfl
@[simp] theorem onCtx_peersFrom (s : State) (a : Nat) (f : Ctx → Ctx) :
    (s.onCtx a f).peersFrom = s.peersFrom := rfl
@[simp] theorem onCtx_hostLines (s : State) (a : Nat) (f : Ctx → Ctx) :
    (s.onCtx a f).hostLines = s.hostLines := rfl
@[simp] theorem onCtx_gspBase (s : State) (a : Nat) (f : Ctx → Ctx) :
    (s.onCtx a f).gspBase = s.gspBase := rfl
@[simp] theorem onCtx_gspLast (s : State) (a : Nat) (f : Ctx → Ctx) :
    (s.onCtx a f).gspLast = s.gspLast := rfl
@[simp] theorem onCtx_gspErr (s : State) (a : Nat) (f : Ctx → Ctx) :
    (s.onCtx a f).gspErr = s.gspErr := rfl
@[simp] theorem onCtx_regions (s : State) (a : Nat) (f : Ctx → Ctx) :
    (s.onCtx a f).regions = s.regions := rfl
@[simp] theorem onCtx_heldHalves (s : State) (a : Nat) (f : Ctx → Ctx) :
    (s.onCtx a f).heldHalves = s.heldHalves := rfl
@[simp] theorem onCtx_waitingHalves (s : State) (a : Nat) (f : Ctx → Ctx) :
    (s.onCtx a f).waitingHalves = s.waitingHalves := rfl
@[simp] theorem onCtx_tick (s : State) (a : Nat) (f : Ctx → Ctx) :
    (s.onCtx a f).tick = s.tick := rfl
@[simp] theorem onCtx_fwstage (s : State) (a : Nat) (f : Ctx → Ctx) :
    (s.onCtx a f).fwstage = s.fwstage := rfl
@[simp] theorem onCtx_images (s : State) (a : Nat) (f : Ctx → Ctx) :
    (s.onCtx a f).images = s.images := rfl
@[simp] theorem onCtx_cur (s : State) (a : Nat) (f : Ctx → Ctx) :
    (s.onCtx a f).cur = s.cur := rfl
@[simp] theorem onCtx_agenda (s : State) (a : Nat) (f : Ctx → Ctx) :
    (s.onCtx a f).agenda = s.agenda := rfl
@[simp] theorem onCtx_turn (s : State) (a : Nat) (f : Ctx → Ctx) :
    (s.onCtx a f).turn = s.turn := rfl
@[simp] theorem onCtx_issued (s : State) (a : Nat) (f : Ctx → Ctx) :
    (s.onCtx a f).issued = s.issued := rfl
@[simp] theorem onCtx_out (s : State) (a : Nat) (f : Ctx → Ctx) :
    (s.onCtx a f).out = s.out := rfl

/-! ### `setQueue` -/

@[simp] theorem setQueue_time (s : State) (q : Nat) (x : Queue) :
    (s.setQueue q x).time = s.time := rfl
@[simp] theorem setQueue_boot (s : State) (q : Nat) (x : Queue) :
    (s.setQueue q x).boot = s.boot := rfl
@[simp] theorem setQueue_tripped (s : State) (q : Nat) (x : Queue) :
    (s.setQueue q x).tripped = s.tripped := rfl
@[simp] theorem setQueue_mem (s : State) (q : Nat) (x : Queue) :
    (s.setQueue q x).mem = s.mem := rfl
@[simp] theorem setQueue_carve (s : State) (q : Nat) (x : Queue) :
    (s.setQueue q x).carve = s.carve := rfl
@[simp] theorem setQueue_retiredFrames (s : State) (q : Nat) (x : Queue) :
    (s.setQueue q x).retiredFrames = s.retiredFrames := rfl
@[simp] theorem setQueue_cores (s : State) (q : Nat) (x : Queue) :
    (s.setQueue q x).cores = s.cores := rfl
@[simp] theorem setQueue_ctxs (s : State) (q : Nat) (x : Queue) :
    (s.setQueue q x).ctxs = s.ctxs := rfl
@[simp] theorem setQueue_launches (s : State) (q : Nat) (x : Queue) :
    (s.setQueue q x).launches = s.launches := rfl
@[simp] theorem setQueue_opens (s : State) (q : Nat) (x : Queue) :
    (s.setQueue q x).opens = s.opens := rfl
@[simp] theorem setQueue_swapNeeds (s : State) (q : Nat) (x : Queue) :
    (s.setQueue q x).swapNeeds = s.swapNeeds := rfl
@[simp] theorem setQueue_saved (s : State) (q : Nat) (x : Queue) :
    (s.setQueue q x).saved = s.saved := rfl
@[simp] theorem setQueue_deps (s : State) (q : Nat) (x : Queue) :
    (s.setQueue q x).deps = s.deps := rfl
@[simp] theorem setQueue_walk (s : State) (q : Nat) (x : Queue) :
    (s.setQueue q x).walk = s.walk := rfl
@[simp] theorem setQueue_domValid (s : State) (q : Nat) (x : Queue) :
    (s.setQueue q x).domValid = s.domValid := rfl
@[simp] theorem setQueue_domId (s : State) (q : Nat) (x : Queue) :
    (s.setQueue q x).domId = s.domId := rfl
@[simp] theorem setQueue_tsync (s : State) (q : Nat) (x : Queue) :
    (s.setQueue q x).tsync = s.tsync := rfl
@[simp] theorem setQueue_tsmaster (s : State) (q : Nat) (x : Queue) :
    (s.setQueue q x).tsmaster = s.tsmaster := rfl
@[simp] theorem setQueue_tsfrom (s : State) (q : Nat) (x : Queue) :
    (s.setQueue q x).tsfrom = s.tsfrom := rfl
@[simp] theorem setQueue_tsfirst (s : State) (q : Nat) (x : Queue) :
    (s.setQueue q x).tsfirst = s.tsfirst := rfl
@[simp] theorem setQueue_slew (s : State) (q : Nat) (x : Queue) :
    (s.setQueue q x).slew = s.slew := rfl
@[simp] theorem setQueue_ran (s : State) (q : Nat) (x : Queue) :
    (s.setQueue q x).ran = s.ran := rfl
@[simp] theorem setQueue_ticked (s : State) (q : Nat) (x : Queue) :
    (s.setQueue q x).ticked = s.ticked := rfl
@[simp] theorem setQueue_synced (s : State) (q : Nat) (x : Queue) :
    (s.setQueue q x).synced = s.synced := rfl
@[simp] theorem setQueue_tmoexp (s : State) (q : Nat) (x : Queue) :
    (s.setQueue q x).tmoexp = s.tmoexp := rfl
@[simp] theorem setQueue_congInc (s : State) (q : Nat) (x : Queue) :
    (s.setQueue q x).congInc = s.congInc := rfl
@[simp] theorem setQueue_congDec (s : State) (q : Nat) (x : Queue) :
    (s.setQueue q x).congDec = s.congDec := rfl
@[simp] theorem setQueue_congRmin (s : State) (q : Nat) (x : Queue) :
    (s.setQueue q x).congRmin = s.congRmin := rfl
@[simp] theorem setQueue_congThresh (s : State) (q : Nat) (x : Queue) :
    (s.setQueue q x).congThresh = s.congThresh := rfl
@[simp] theorem setQueue_ports (s : State) (q : Nat) (x : Queue) :
    (s.setQueue q x).ports = s.ports := rfl
@[simp] theorem setQueue_routes (s : State) (q : Nat) (x : Queue) :
    (s.setQueue q x).routes = s.routes := rfl
@[simp] theorem setQueue_rates (s : State) (q : Nat) (x : Queue) :
    (s.setQueue q x).rates = s.rates := rfl
@[simp] theorem setQueue_requests (s : State) (q : Nat) (x : Queue) :
    (s.setQueue q x).requests = s.requests := rfl
@[simp] theorem setQueue_nextTag (s : State) (q : Nat) (x : Queue) :
    (s.setQueue q x).nextTag = s.nextTag := rfl
@[simp] theorem setQueue_performed (s : State) (q : Nat) (x : Queue) :
    (s.setQueue q x).performed = s.performed := rfl
@[simp] theorem setQueue_peerClean (s : State) (q : Nat) (x : Queue) :
    (s.setQueue q x).peerClean = s.peerClean := rfl
@[simp] theorem setQueue_peerDirty (s : State) (q : Nat) (x : Queue) :
    (s.setQueue q x).peerDirty = s.peerDirty := rfl
@[simp] theorem setQueue_lineFrom (s : State) (q : Nat) (x : Queue) :
    (s.setQueue q x).lineFrom = s.lineFrom := rfl
@[simp] theorem setQueue_peersFrom (s : State) (q : Nat) (x : Queue) :
    (s.setQueue q x).peersFrom = s.peersFrom := rfl
@[simp] theorem setQueue_hostLines (s : State) (q : Nat) (x : Queue) :
    (s.setQueue q x).hostLines = s.hostLines := rfl
@[simp] theorem setQueue_gspBase (s : State) (q : Nat) (x : Queue) :
    (s.setQueue q x).gspBase = s.gspBase := rfl
@[simp] theorem setQueue_gspLast (s : State) (q : Nat) (x : Queue) :
    (s.setQueue q x).gspLast = s.gspLast := rfl
@[simp] theorem setQueue_gspErr (s : State) (q : Nat) (x : Queue) :
    (s.setQueue q x).gspErr = s.gspErr := rfl
@[simp] theorem setQueue_regions (s : State) (q : Nat) (x : Queue) :
    (s.setQueue q x).regions = s.regions := rfl
@[simp] theorem setQueue_heldHalves (s : State) (q : Nat) (x : Queue) :
    (s.setQueue q x).heldHalves = s.heldHalves := rfl
@[simp] theorem setQueue_waitingHalves (s : State) (q : Nat) (x : Queue) :
    (s.setQueue q x).waitingHalves = s.waitingHalves := rfl
@[simp] theorem setQueue_tick (s : State) (q : Nat) (x : Queue) :
    (s.setQueue q x).tick = s.tick := rfl
@[simp] theorem setQueue_fwstage (s : State) (q : Nat) (x : Queue) :
    (s.setQueue q x).fwstage = s.fwstage := rfl
@[simp] theorem setQueue_images (s : State) (q : Nat) (x : Queue) :
    (s.setQueue q x).images = s.images := rfl
@[simp] theorem setQueue_cur (s : State) (q : Nat) (x : Queue) :
    (s.setQueue q x).cur = s.cur := rfl
@[simp] theorem setQueue_agenda (s : State) (q : Nat) (x : Queue) :
    (s.setQueue q x).agenda = s.agenda := rfl
@[simp] theorem setQueue_turn (s : State) (q : Nat) (x : Queue) :
    (s.setQueue q x).turn = s.turn := rfl
@[simp] theorem setQueue_issued (s : State) (q : Nat) (x : Queue) :
    (s.setQueue q x).issued = s.issued := rfl
@[simp] theorem setQueue_out (s : State) (q : Nat) (x : Queue) :
    (s.setQueue q x).out = s.out := rfl

/-! ### `onQueue` -/

@[simp] theorem onQueue_time (s : State) (q : Nat) (f : Queue → Queue) :
    (s.onQueue q f).time = s.time := rfl
@[simp] theorem onQueue_boot (s : State) (q : Nat) (f : Queue → Queue) :
    (s.onQueue q f).boot = s.boot := rfl
@[simp] theorem onQueue_tripped (s : State) (q : Nat) (f : Queue → Queue) :
    (s.onQueue q f).tripped = s.tripped := rfl
@[simp] theorem onQueue_mem (s : State) (q : Nat) (f : Queue → Queue) :
    (s.onQueue q f).mem = s.mem := rfl
@[simp] theorem onQueue_carve (s : State) (q : Nat) (f : Queue → Queue) :
    (s.onQueue q f).carve = s.carve := rfl
@[simp] theorem onQueue_retiredFrames (s : State) (q : Nat) (f : Queue → Queue) :
    (s.onQueue q f).retiredFrames = s.retiredFrames := rfl
@[simp] theorem onQueue_cores (s : State) (q : Nat) (f : Queue → Queue) :
    (s.onQueue q f).cores = s.cores := rfl
@[simp] theorem onQueue_ctxs (s : State) (q : Nat) (f : Queue → Queue) :
    (s.onQueue q f).ctxs = s.ctxs := rfl
@[simp] theorem onQueue_launches (s : State) (q : Nat) (f : Queue → Queue) :
    (s.onQueue q f).launches = s.launches := rfl
@[simp] theorem onQueue_opens (s : State) (q : Nat) (f : Queue → Queue) :
    (s.onQueue q f).opens = s.opens := rfl
@[simp] theorem onQueue_swapNeeds (s : State) (q : Nat) (f : Queue → Queue) :
    (s.onQueue q f).swapNeeds = s.swapNeeds := rfl
@[simp] theorem onQueue_saved (s : State) (q : Nat) (f : Queue → Queue) :
    (s.onQueue q f).saved = s.saved := rfl
@[simp] theorem onQueue_deps (s : State) (q : Nat) (f : Queue → Queue) :
    (s.onQueue q f).deps = s.deps := rfl
@[simp] theorem onQueue_walk (s : State) (q : Nat) (f : Queue → Queue) :
    (s.onQueue q f).walk = s.walk := rfl
@[simp] theorem onQueue_domValid (s : State) (q : Nat) (f : Queue → Queue) :
    (s.onQueue q f).domValid = s.domValid := rfl
@[simp] theorem onQueue_domId (s : State) (q : Nat) (f : Queue → Queue) :
    (s.onQueue q f).domId = s.domId := rfl
@[simp] theorem onQueue_tsync (s : State) (q : Nat) (f : Queue → Queue) :
    (s.onQueue q f).tsync = s.tsync := rfl
@[simp] theorem onQueue_tsmaster (s : State) (q : Nat) (f : Queue → Queue) :
    (s.onQueue q f).tsmaster = s.tsmaster := rfl
@[simp] theorem onQueue_tsfrom (s : State) (q : Nat) (f : Queue → Queue) :
    (s.onQueue q f).tsfrom = s.tsfrom := rfl
@[simp] theorem onQueue_tsfirst (s : State) (q : Nat) (f : Queue → Queue) :
    (s.onQueue q f).tsfirst = s.tsfirst := rfl
@[simp] theorem onQueue_slew (s : State) (q : Nat) (f : Queue → Queue) :
    (s.onQueue q f).slew = s.slew := rfl
@[simp] theorem onQueue_ran (s : State) (q : Nat) (f : Queue → Queue) :
    (s.onQueue q f).ran = s.ran := rfl
@[simp] theorem onQueue_ticked (s : State) (q : Nat) (f : Queue → Queue) :
    (s.onQueue q f).ticked = s.ticked := rfl
@[simp] theorem onQueue_synced (s : State) (q : Nat) (f : Queue → Queue) :
    (s.onQueue q f).synced = s.synced := rfl
@[simp] theorem onQueue_tmoexp (s : State) (q : Nat) (f : Queue → Queue) :
    (s.onQueue q f).tmoexp = s.tmoexp := rfl
@[simp] theorem onQueue_congInc (s : State) (q : Nat) (f : Queue → Queue) :
    (s.onQueue q f).congInc = s.congInc := rfl
@[simp] theorem onQueue_congDec (s : State) (q : Nat) (f : Queue → Queue) :
    (s.onQueue q f).congDec = s.congDec := rfl
@[simp] theorem onQueue_congRmin (s : State) (q : Nat) (f : Queue → Queue) :
    (s.onQueue q f).congRmin = s.congRmin := rfl
@[simp] theorem onQueue_congThresh (s : State) (q : Nat) (f : Queue → Queue) :
    (s.onQueue q f).congThresh = s.congThresh := rfl
@[simp] theorem onQueue_ports (s : State) (q : Nat) (f : Queue → Queue) :
    (s.onQueue q f).ports = s.ports := rfl
@[simp] theorem onQueue_routes (s : State) (q : Nat) (f : Queue → Queue) :
    (s.onQueue q f).routes = s.routes := rfl
@[simp] theorem onQueue_rates (s : State) (q : Nat) (f : Queue → Queue) :
    (s.onQueue q f).rates = s.rates := rfl
@[simp] theorem onQueue_requests (s : State) (q : Nat) (f : Queue → Queue) :
    (s.onQueue q f).requests = s.requests := rfl
@[simp] theorem onQueue_nextTag (s : State) (q : Nat) (f : Queue → Queue) :
    (s.onQueue q f).nextTag = s.nextTag := rfl
@[simp] theorem onQueue_performed (s : State) (q : Nat) (f : Queue → Queue) :
    (s.onQueue q f).performed = s.performed := rfl
@[simp] theorem onQueue_peerClean (s : State) (q : Nat) (f : Queue → Queue) :
    (s.onQueue q f).peerClean = s.peerClean := rfl
@[simp] theorem onQueue_peerDirty (s : State) (q : Nat) (f : Queue → Queue) :
    (s.onQueue q f).peerDirty = s.peerDirty := rfl
@[simp] theorem onQueue_lineFrom (s : State) (q : Nat) (f : Queue → Queue) :
    (s.onQueue q f).lineFrom = s.lineFrom := rfl
@[simp] theorem onQueue_peersFrom (s : State) (q : Nat) (f : Queue → Queue) :
    (s.onQueue q f).peersFrom = s.peersFrom := rfl
@[simp] theorem onQueue_hostLines (s : State) (q : Nat) (f : Queue → Queue) :
    (s.onQueue q f).hostLines = s.hostLines := rfl
@[simp] theorem onQueue_gspBase (s : State) (q : Nat) (f : Queue → Queue) :
    (s.onQueue q f).gspBase = s.gspBase := rfl
@[simp] theorem onQueue_gspLast (s : State) (q : Nat) (f : Queue → Queue) :
    (s.onQueue q f).gspLast = s.gspLast := rfl
@[simp] theorem onQueue_gspErr (s : State) (q : Nat) (f : Queue → Queue) :
    (s.onQueue q f).gspErr = s.gspErr := rfl
@[simp] theorem onQueue_regions (s : State) (q : Nat) (f : Queue → Queue) :
    (s.onQueue q f).regions = s.regions := rfl
@[simp] theorem onQueue_heldHalves (s : State) (q : Nat) (f : Queue → Queue) :
    (s.onQueue q f).heldHalves = s.heldHalves := rfl
@[simp] theorem onQueue_waitingHalves (s : State) (q : Nat) (f : Queue → Queue) :
    (s.onQueue q f).waitingHalves = s.waitingHalves := rfl
@[simp] theorem onQueue_tick (s : State) (q : Nat) (f : Queue → Queue) :
    (s.onQueue q f).tick = s.tick := rfl
@[simp] theorem onQueue_fwstage (s : State) (q : Nat) (f : Queue → Queue) :
    (s.onQueue q f).fwstage = s.fwstage := rfl
@[simp] theorem onQueue_images (s : State) (q : Nat) (f : Queue → Queue) :
    (s.onQueue q f).images = s.images := rfl
@[simp] theorem onQueue_cur (s : State) (q : Nat) (f : Queue → Queue) :
    (s.onQueue q f).cur = s.cur := rfl
@[simp] theorem onQueue_agenda (s : State) (q : Nat) (f : Queue → Queue) :
    (s.onQueue q f).agenda = s.agenda := rfl
@[simp] theorem onQueue_turn (s : State) (q : Nat) (f : Queue → Queue) :
    (s.onQueue q f).turn = s.turn := rfl
@[simp] theorem onQueue_issued (s : State) (q : Nat) (f : Queue → Queue) :
    (s.onQueue q f).issued = s.issued := rfl
@[simp] theorem onQueue_out (s : State) (q : Nat) (f : Queue → Queue) :
    (s.onQueue q f).out = s.out := rfl

/-! ### `setDep` -/

@[simp] theorem setDep_time (s : State) (i : Nat) (x : DepCounter) :
    (s.setDep i x).time = s.time := rfl
@[simp] theorem setDep_boot (s : State) (i : Nat) (x : DepCounter) :
    (s.setDep i x).boot = s.boot := rfl
@[simp] theorem setDep_tripped (s : State) (i : Nat) (x : DepCounter) :
    (s.setDep i x).tripped = s.tripped := rfl
@[simp] theorem setDep_mem (s : State) (i : Nat) (x : DepCounter) :
    (s.setDep i x).mem = s.mem := rfl
@[simp] theorem setDep_carve (s : State) (i : Nat) (x : DepCounter) :
    (s.setDep i x).carve = s.carve := rfl
@[simp] theorem setDep_retiredFrames (s : State) (i : Nat) (x : DepCounter) :
    (s.setDep i x).retiredFrames = s.retiredFrames := rfl
@[simp] theorem setDep_cores (s : State) (i : Nat) (x : DepCounter) :
    (s.setDep i x).cores = s.cores := rfl
@[simp] theorem setDep_ctxs (s : State) (i : Nat) (x : DepCounter) :
    (s.setDep i x).ctxs = s.ctxs := rfl
@[simp] theorem setDep_queues (s : State) (i : Nat) (x : DepCounter) :
    (s.setDep i x).queues = s.queues := rfl
@[simp] theorem setDep_launches (s : State) (i : Nat) (x : DepCounter) :
    (s.setDep i x).launches = s.launches := rfl
@[simp] theorem setDep_opens (s : State) (i : Nat) (x : DepCounter) :
    (s.setDep i x).opens = s.opens := rfl
@[simp] theorem setDep_swapNeeds (s : State) (i : Nat) (x : DepCounter) :
    (s.setDep i x).swapNeeds = s.swapNeeds := rfl
@[simp] theorem setDep_saved (s : State) (i : Nat) (x : DepCounter) :
    (s.setDep i x).saved = s.saved := rfl
@[simp] theorem setDep_walk (s : State) (i : Nat) (x : DepCounter) :
    (s.setDep i x).walk = s.walk := rfl
@[simp] theorem setDep_domValid (s : State) (i : Nat) (x : DepCounter) :
    (s.setDep i x).domValid = s.domValid := rfl
@[simp] theorem setDep_domId (s : State) (i : Nat) (x : DepCounter) :
    (s.setDep i x).domId = s.domId := rfl
@[simp] theorem setDep_tsync (s : State) (i : Nat) (x : DepCounter) :
    (s.setDep i x).tsync = s.tsync := rfl
@[simp] theorem setDep_tsmaster (s : State) (i : Nat) (x : DepCounter) :
    (s.setDep i x).tsmaster = s.tsmaster := rfl
@[simp] theorem setDep_tsfrom (s : State) (i : Nat) (x : DepCounter) :
    (s.setDep i x).tsfrom = s.tsfrom := rfl
@[simp] theorem setDep_tsfirst (s : State) (i : Nat) (x : DepCounter) :
    (s.setDep i x).tsfirst = s.tsfirst := rfl
@[simp] theorem setDep_slew (s : State) (i : Nat) (x : DepCounter) :
    (s.setDep i x).slew = s.slew := rfl
@[simp] theorem setDep_ran (s : State) (i : Nat) (x : DepCounter) :
    (s.setDep i x).ran = s.ran := rfl
@[simp] theorem setDep_ticked (s : State) (i : Nat) (x : DepCounter) :
    (s.setDep i x).ticked = s.ticked := rfl
@[simp] theorem setDep_synced (s : State) (i : Nat) (x : DepCounter) :
    (s.setDep i x).synced = s.synced := rfl
@[simp] theorem setDep_tmoexp (s : State) (i : Nat) (x : DepCounter) :
    (s.setDep i x).tmoexp = s.tmoexp := rfl
@[simp] theorem setDep_congInc (s : State) (i : Nat) (x : DepCounter) :
    (s.setDep i x).congInc = s.congInc := rfl
@[simp] theorem setDep_congDec (s : State) (i : Nat) (x : DepCounter) :
    (s.setDep i x).congDec = s.congDec := rfl
@[simp] theorem setDep_congRmin (s : State) (i : Nat) (x : DepCounter) :
    (s.setDep i x).congRmin = s.congRmin := rfl
@[simp] theorem setDep_congThresh (s : State) (i : Nat) (x : DepCounter) :
    (s.setDep i x).congThresh = s.congThresh := rfl
@[simp] theorem setDep_ports (s : State) (i : Nat) (x : DepCounter) :
    (s.setDep i x).ports = s.ports := rfl
@[simp] theorem setDep_routes (s : State) (i : Nat) (x : DepCounter) :
    (s.setDep i x).routes = s.routes := rfl
@[simp] theorem setDep_rates (s : State) (i : Nat) (x : DepCounter) :
    (s.setDep i x).rates = s.rates := rfl
@[simp] theorem setDep_requests (s : State) (i : Nat) (x : DepCounter) :
    (s.setDep i x).requests = s.requests := rfl
@[simp] theorem setDep_nextTag (s : State) (i : Nat) (x : DepCounter) :
    (s.setDep i x).nextTag = s.nextTag := rfl
@[simp] theorem setDep_performed (s : State) (i : Nat) (x : DepCounter) :
    (s.setDep i x).performed = s.performed := rfl
@[simp] theorem setDep_peerClean (s : State) (i : Nat) (x : DepCounter) :
    (s.setDep i x).peerClean = s.peerClean := rfl
@[simp] theorem setDep_peerDirty (s : State) (i : Nat) (x : DepCounter) :
    (s.setDep i x).peerDirty = s.peerDirty := rfl
@[simp] theorem setDep_lineFrom (s : State) (i : Nat) (x : DepCounter) :
    (s.setDep i x).lineFrom = s.lineFrom := rfl
@[simp] theorem setDep_peersFrom (s : State) (i : Nat) (x : DepCounter) :
    (s.setDep i x).peersFrom = s.peersFrom := rfl
@[simp] theorem setDep_hostLines (s : State) (i : Nat) (x : DepCounter) :
    (s.setDep i x).hostLines = s.hostLines := rfl
@[simp] theorem setDep_gspBase (s : State) (i : Nat) (x : DepCounter) :
    (s.setDep i x).gspBase = s.gspBase := rfl
@[simp] theorem setDep_gspLast (s : State) (i : Nat) (x : DepCounter) :
    (s.setDep i x).gspLast = s.gspLast := rfl
@[simp] theorem setDep_gspErr (s : State) (i : Nat) (x : DepCounter) :
    (s.setDep i x).gspErr = s.gspErr := rfl
@[simp] theorem setDep_regions (s : State) (i : Nat) (x : DepCounter) :
    (s.setDep i x).regions = s.regions := rfl
@[simp] theorem setDep_heldHalves (s : State) (i : Nat) (x : DepCounter) :
    (s.setDep i x).heldHalves = s.heldHalves := rfl
@[simp] theorem setDep_waitingHalves (s : State) (i : Nat) (x : DepCounter) :
    (s.setDep i x).waitingHalves = s.waitingHalves := rfl
@[simp] theorem setDep_tick (s : State) (i : Nat) (x : DepCounter) :
    (s.setDep i x).tick = s.tick := rfl
@[simp] theorem setDep_fwstage (s : State) (i : Nat) (x : DepCounter) :
    (s.setDep i x).fwstage = s.fwstage := rfl
@[simp] theorem setDep_images (s : State) (i : Nat) (x : DepCounter) :
    (s.setDep i x).images = s.images := rfl
@[simp] theorem setDep_cur (s : State) (i : Nat) (x : DepCounter) :
    (s.setDep i x).cur = s.cur := rfl
@[simp] theorem setDep_agenda (s : State) (i : Nat) (x : DepCounter) :
    (s.setDep i x).agenda = s.agenda := rfl
@[simp] theorem setDep_turn (s : State) (i : Nat) (x : DepCounter) :
    (s.setDep i x).turn = s.turn := rfl
@[simp] theorem setDep_issued (s : State) (i : Nat) (x : DepCounter) :
    (s.setDep i x).issued = s.issued := rfl
@[simp] theorem setDep_out (s : State) (i : Nat) (x : DepCounter) :
    (s.setDep i x).out = s.out := rfl

/-! ### `setPort` -/

@[simp] theorem setPort_time (s : State) (n : Nat) (x : Port) :
    (s.setPort n x).time = s.time := rfl
@[simp] theorem setPort_boot (s : State) (n : Nat) (x : Port) :
    (s.setPort n x).boot = s.boot := rfl
@[simp] theorem setPort_tripped (s : State) (n : Nat) (x : Port) :
    (s.setPort n x).tripped = s.tripped := rfl
@[simp] theorem setPort_mem (s : State) (n : Nat) (x : Port) :
    (s.setPort n x).mem = s.mem := rfl
@[simp] theorem setPort_carve (s : State) (n : Nat) (x : Port) :
    (s.setPort n x).carve = s.carve := rfl
@[simp] theorem setPort_retiredFrames (s : State) (n : Nat) (x : Port) :
    (s.setPort n x).retiredFrames = s.retiredFrames := rfl
@[simp] theorem setPort_cores (s : State) (n : Nat) (x : Port) :
    (s.setPort n x).cores = s.cores := rfl
@[simp] theorem setPort_ctxs (s : State) (n : Nat) (x : Port) :
    (s.setPort n x).ctxs = s.ctxs := rfl
@[simp] theorem setPort_queues (s : State) (n : Nat) (x : Port) :
    (s.setPort n x).queues = s.queues := rfl
@[simp] theorem setPort_launches (s : State) (n : Nat) (x : Port) :
    (s.setPort n x).launches = s.launches := rfl
@[simp] theorem setPort_opens (s : State) (n : Nat) (x : Port) :
    (s.setPort n x).opens = s.opens := rfl
@[simp] theorem setPort_swapNeeds (s : State) (n : Nat) (x : Port) :
    (s.setPort n x).swapNeeds = s.swapNeeds := rfl
@[simp] theorem setPort_saved (s : State) (n : Nat) (x : Port) :
    (s.setPort n x).saved = s.saved := rfl
@[simp] theorem setPort_deps (s : State) (n : Nat) (x : Port) :
    (s.setPort n x).deps = s.deps := rfl
@[simp] theorem setPort_walk (s : State) (n : Nat) (x : Port) :
    (s.setPort n x).walk = s.walk := rfl
@[simp] theorem setPort_domValid (s : State) (n : Nat) (x : Port) :
    (s.setPort n x).domValid = s.domValid := rfl
@[simp] theorem setPort_domId (s : State) (n : Nat) (x : Port) :
    (s.setPort n x).domId = s.domId := rfl
@[simp] theorem setPort_tsync (s : State) (n : Nat) (x : Port) :
    (s.setPort n x).tsync = s.tsync := rfl
@[simp] theorem setPort_tsmaster (s : State) (n : Nat) (x : Port) :
    (s.setPort n x).tsmaster = s.tsmaster := rfl
@[simp] theorem setPort_tsfrom (s : State) (n : Nat) (x : Port) :
    (s.setPort n x).tsfrom = s.tsfrom := rfl
@[simp] theorem setPort_tsfirst (s : State) (n : Nat) (x : Port) :
    (s.setPort n x).tsfirst = s.tsfirst := rfl
@[simp] theorem setPort_slew (s : State) (n : Nat) (x : Port) :
    (s.setPort n x).slew = s.slew := rfl
@[simp] theorem setPort_ran (s : State) (n : Nat) (x : Port) :
    (s.setPort n x).ran = s.ran := rfl
@[simp] theorem setPort_ticked (s : State) (n : Nat) (x : Port) :
    (s.setPort n x).ticked = s.ticked := rfl
@[simp] theorem setPort_synced (s : State) (n : Nat) (x : Port) :
    (s.setPort n x).synced = s.synced := rfl
@[simp] theorem setPort_tmoexp (s : State) (n : Nat) (x : Port) :
    (s.setPort n x).tmoexp = s.tmoexp := rfl
@[simp] theorem setPort_congInc (s : State) (n : Nat) (x : Port) :
    (s.setPort n x).congInc = s.congInc := rfl
@[simp] theorem setPort_congDec (s : State) (n : Nat) (x : Port) :
    (s.setPort n x).congDec = s.congDec := rfl
@[simp] theorem setPort_congRmin (s : State) (n : Nat) (x : Port) :
    (s.setPort n x).congRmin = s.congRmin := rfl
@[simp] theorem setPort_congThresh (s : State) (n : Nat) (x : Port) :
    (s.setPort n x).congThresh = s.congThresh := rfl
@[simp] theorem setPort_routes (s : State) (n : Nat) (x : Port) :
    (s.setPort n x).routes = s.routes := rfl
@[simp] theorem setPort_rates (s : State) (n : Nat) (x : Port) :
    (s.setPort n x).rates = s.rates := rfl
@[simp] theorem setPort_requests (s : State) (n : Nat) (x : Port) :
    (s.setPort n x).requests = s.requests := rfl
@[simp] theorem setPort_nextTag (s : State) (n : Nat) (x : Port) :
    (s.setPort n x).nextTag = s.nextTag := rfl
@[simp] theorem setPort_performed (s : State) (n : Nat) (x : Port) :
    (s.setPort n x).performed = s.performed := rfl
@[simp] theorem setPort_peerClean (s : State) (n : Nat) (x : Port) :
    (s.setPort n x).peerClean = s.peerClean := rfl
@[simp] theorem setPort_peerDirty (s : State) (n : Nat) (x : Port) :
    (s.setPort n x).peerDirty = s.peerDirty := rfl
@[simp] theorem setPort_lineFrom (s : State) (n : Nat) (x : Port) :
    (s.setPort n x).lineFrom = s.lineFrom := rfl
@[simp] theorem setPort_peersFrom (s : State) (n : Nat) (x : Port) :
    (s.setPort n x).peersFrom = s.peersFrom := rfl
@[simp] theorem setPort_hostLines (s : State) (n : Nat) (x : Port) :
    (s.setPort n x).hostLines = s.hostLines := rfl
@[simp] theorem setPort_gspBase (s : State) (n : Nat) (x : Port) :
    (s.setPort n x).gspBase = s.gspBase := rfl
@[simp] theorem setPort_gspLast (s : State) (n : Nat) (x : Port) :
    (s.setPort n x).gspLast = s.gspLast := rfl
@[simp] theorem setPort_gspErr (s : State) (n : Nat) (x : Port) :
    (s.setPort n x).gspErr = s.gspErr := rfl
@[simp] theorem setPort_regions (s : State) (n : Nat) (x : Port) :
    (s.setPort n x).regions = s.regions := rfl
@[simp] theorem setPort_heldHalves (s : State) (n : Nat) (x : Port) :
    (s.setPort n x).heldHalves = s.heldHalves := rfl
@[simp] theorem setPort_waitingHalves (s : State) (n : Nat) (x : Port) :
    (s.setPort n x).waitingHalves = s.waitingHalves := rfl
@[simp] theorem setPort_tick (s : State) (n : Nat) (x : Port) :
    (s.setPort n x).tick = s.tick := rfl
@[simp] theorem setPort_fwstage (s : State) (n : Nat) (x : Port) :
    (s.setPort n x).fwstage = s.fwstage := rfl
@[simp] theorem setPort_images (s : State) (n : Nat) (x : Port) :
    (s.setPort n x).images = s.images := rfl
@[simp] theorem setPort_cur (s : State) (n : Nat) (x : Port) :
    (s.setPort n x).cur = s.cur := rfl
@[simp] theorem setPort_agenda (s : State) (n : Nat) (x : Port) :
    (s.setPort n x).agenda = s.agenda := rfl
@[simp] theorem setPort_turn (s : State) (n : Nat) (x : Port) :
    (s.setPort n x).turn = s.turn := rfl
@[simp] theorem setPort_issued (s : State) (n : Nat) (x : Port) :
    (s.setPort n x).issued = s.issued := rfl
@[simp] theorem setPort_out (s : State) (n : Nat) (x : Port) :
    (s.setPort n x).out = s.out := rfl

/-! ### `setRoute` -/

@[simp] theorem setRoute_time (s : State) (d : Nat) (x : Route) :
    (s.setRoute d x).time = s.time := rfl
@[simp] theorem setRoute_boot (s : State) (d : Nat) (x : Route) :
    (s.setRoute d x).boot = s.boot := rfl
@[simp] theorem setRoute_tripped (s : State) (d : Nat) (x : Route) :
    (s.setRoute d x).tripped = s.tripped := rfl
@[simp] theorem setRoute_mem (s : State) (d : Nat) (x : Route) :
    (s.setRoute d x).mem = s.mem := rfl
@[simp] theorem setRoute_carve (s : State) (d : Nat) (x : Route) :
    (s.setRoute d x).carve = s.carve := rfl
@[simp] theorem setRoute_retiredFrames (s : State) (d : Nat) (x : Route) :
    (s.setRoute d x).retiredFrames = s.retiredFrames := rfl
@[simp] theorem setRoute_cores (s : State) (d : Nat) (x : Route) :
    (s.setRoute d x).cores = s.cores := rfl
@[simp] theorem setRoute_ctxs (s : State) (d : Nat) (x : Route) :
    (s.setRoute d x).ctxs = s.ctxs := rfl
@[simp] theorem setRoute_queues (s : State) (d : Nat) (x : Route) :
    (s.setRoute d x).queues = s.queues := rfl
@[simp] theorem setRoute_launches (s : State) (d : Nat) (x : Route) :
    (s.setRoute d x).launches = s.launches := rfl
@[simp] theorem setRoute_opens (s : State) (d : Nat) (x : Route) :
    (s.setRoute d x).opens = s.opens := rfl
@[simp] theorem setRoute_swapNeeds (s : State) (d : Nat) (x : Route) :
    (s.setRoute d x).swapNeeds = s.swapNeeds := rfl
@[simp] theorem setRoute_saved (s : State) (d : Nat) (x : Route) :
    (s.setRoute d x).saved = s.saved := rfl
@[simp] theorem setRoute_deps (s : State) (d : Nat) (x : Route) :
    (s.setRoute d x).deps = s.deps := rfl
@[simp] theorem setRoute_walk (s : State) (d : Nat) (x : Route) :
    (s.setRoute d x).walk = s.walk := rfl
@[simp] theorem setRoute_domValid (s : State) (d : Nat) (x : Route) :
    (s.setRoute d x).domValid = s.domValid := rfl
@[simp] theorem setRoute_domId (s : State) (d : Nat) (x : Route) :
    (s.setRoute d x).domId = s.domId := rfl
@[simp] theorem setRoute_tsync (s : State) (d : Nat) (x : Route) :
    (s.setRoute d x).tsync = s.tsync := rfl
@[simp] theorem setRoute_tsmaster (s : State) (d : Nat) (x : Route) :
    (s.setRoute d x).tsmaster = s.tsmaster := rfl
@[simp] theorem setRoute_tsfrom (s : State) (d : Nat) (x : Route) :
    (s.setRoute d x).tsfrom = s.tsfrom := rfl
@[simp] theorem setRoute_tsfirst (s : State) (d : Nat) (x : Route) :
    (s.setRoute d x).tsfirst = s.tsfirst := rfl
@[simp] theorem setRoute_slew (s : State) (d : Nat) (x : Route) :
    (s.setRoute d x).slew = s.slew := rfl
@[simp] theorem setRoute_ran (s : State) (d : Nat) (x : Route) :
    (s.setRoute d x).ran = s.ran := rfl
@[simp] theorem setRoute_ticked (s : State) (d : Nat) (x : Route) :
    (s.setRoute d x).ticked = s.ticked := rfl
@[simp] theorem setRoute_synced (s : State) (d : Nat) (x : Route) :
    (s.setRoute d x).synced = s.synced := rfl
@[simp] theorem setRoute_tmoexp (s : State) (d : Nat) (x : Route) :
    (s.setRoute d x).tmoexp = s.tmoexp := rfl
@[simp] theorem setRoute_congInc (s : State) (d : Nat) (x : Route) :
    (s.setRoute d x).congInc = s.congInc := rfl
@[simp] theorem setRoute_congDec (s : State) (d : Nat) (x : Route) :
    (s.setRoute d x).congDec = s.congDec := rfl
@[simp] theorem setRoute_congRmin (s : State) (d : Nat) (x : Route) :
    (s.setRoute d x).congRmin = s.congRmin := rfl
@[simp] theorem setRoute_congThresh (s : State) (d : Nat) (x : Route) :
    (s.setRoute d x).congThresh = s.congThresh := rfl
@[simp] theorem setRoute_ports (s : State) (d : Nat) (x : Route) :
    (s.setRoute d x).ports = s.ports := rfl
@[simp] theorem setRoute_rates (s : State) (d : Nat) (x : Route) :
    (s.setRoute d x).rates = s.rates := rfl
@[simp] theorem setRoute_requests (s : State) (d : Nat) (x : Route) :
    (s.setRoute d x).requests = s.requests := rfl
@[simp] theorem setRoute_nextTag (s : State) (d : Nat) (x : Route) :
    (s.setRoute d x).nextTag = s.nextTag := rfl
@[simp] theorem setRoute_performed (s : State) (d : Nat) (x : Route) :
    (s.setRoute d x).performed = s.performed := rfl
@[simp] theorem setRoute_peerClean (s : State) (d : Nat) (x : Route) :
    (s.setRoute d x).peerClean = s.peerClean := rfl
@[simp] theorem setRoute_peerDirty (s : State) (d : Nat) (x : Route) :
    (s.setRoute d x).peerDirty = s.peerDirty := rfl
@[simp] theorem setRoute_lineFrom (s : State) (d : Nat) (x : Route) :
    (s.setRoute d x).lineFrom = s.lineFrom := rfl
@[simp] theorem setRoute_peersFrom (s : State) (d : Nat) (x : Route) :
    (s.setRoute d x).peersFrom = s.peersFrom := rfl
@[simp] theorem setRoute_hostLines (s : State) (d : Nat) (x : Route) :
    (s.setRoute d x).hostLines = s.hostLines := rfl
@[simp] theorem setRoute_gspBase (s : State) (d : Nat) (x : Route) :
    (s.setRoute d x).gspBase = s.gspBase := rfl
@[simp] theorem setRoute_gspLast (s : State) (d : Nat) (x : Route) :
    (s.setRoute d x).gspLast = s.gspLast := rfl
@[simp] theorem setRoute_gspErr (s : State) (d : Nat) (x : Route) :
    (s.setRoute d x).gspErr = s.gspErr := rfl
@[simp] theorem setRoute_regions (s : State) (d : Nat) (x : Route) :
    (s.setRoute d x).regions = s.regions := rfl
@[simp] theorem setRoute_heldHalves (s : State) (d : Nat) (x : Route) :
    (s.setRoute d x).heldHalves = s.heldHalves := rfl
@[simp] theorem setRoute_waitingHalves (s : State) (d : Nat) (x : Route) :
    (s.setRoute d x).waitingHalves = s.waitingHalves := rfl
@[simp] theorem setRoute_tick (s : State) (d : Nat) (x : Route) :
    (s.setRoute d x).tick = s.tick := rfl
@[simp] theorem setRoute_fwstage (s : State) (d : Nat) (x : Route) :
    (s.setRoute d x).fwstage = s.fwstage := rfl
@[simp] theorem setRoute_images (s : State) (d : Nat) (x : Route) :
    (s.setRoute d x).images = s.images := rfl
@[simp] theorem setRoute_cur (s : State) (d : Nat) (x : Route) :
    (s.setRoute d x).cur = s.cur := rfl
@[simp] theorem setRoute_agenda (s : State) (d : Nat) (x : Route) :
    (s.setRoute d x).agenda = s.agenda := rfl
@[simp] theorem setRoute_turn (s : State) (d : Nat) (x : Route) :
    (s.setRoute d x).turn = s.turn := rfl
@[simp] theorem setRoute_issued (s : State) (d : Nat) (x : Route) :
    (s.setRoute d x).issued = s.issued := rfl
@[simp] theorem setRoute_out (s : State) (d : Nat) (x : Route) :
    (s.setRoute d x).out = s.out := rfl

/-! ### `setRegion` -/

@[simp] theorem setRegion_time (s : State) (r : Nat) (x : Region) :
    (s.setRegion r x).time = s.time := rfl
@[simp] theorem setRegion_boot (s : State) (r : Nat) (x : Region) :
    (s.setRegion r x).boot = s.boot := rfl
@[simp] theorem setRegion_tripped (s : State) (r : Nat) (x : Region) :
    (s.setRegion r x).tripped = s.tripped := rfl
@[simp] theorem setRegion_mem (s : State) (r : Nat) (x : Region) :
    (s.setRegion r x).mem = s.mem := rfl
@[simp] theorem setRegion_carve (s : State) (r : Nat) (x : Region) :
    (s.setRegion r x).carve = s.carve := rfl
@[simp] theorem setRegion_retiredFrames (s : State) (r : Nat) (x : Region) :
    (s.setRegion r x).retiredFrames = s.retiredFrames := rfl
@[simp] theorem setRegion_cores (s : State) (r : Nat) (x : Region) :
    (s.setRegion r x).cores = s.cores := rfl
@[simp] theorem setRegion_ctxs (s : State) (r : Nat) (x : Region) :
    (s.setRegion r x).ctxs = s.ctxs := rfl
@[simp] theorem setRegion_queues (s : State) (r : Nat) (x : Region) :
    (s.setRegion r x).queues = s.queues := rfl
@[simp] theorem setRegion_launches (s : State) (r : Nat) (x : Region) :
    (s.setRegion r x).launches = s.launches := rfl
@[simp] theorem setRegion_opens (s : State) (r : Nat) (x : Region) :
    (s.setRegion r x).opens = s.opens := rfl
@[simp] theorem setRegion_swapNeeds (s : State) (r : Nat) (x : Region) :
    (s.setRegion r x).swapNeeds = s.swapNeeds := rfl
@[simp] theorem setRegion_saved (s : State) (r : Nat) (x : Region) :
    (s.setRegion r x).saved = s.saved := rfl
@[simp] theorem setRegion_deps (s : State) (r : Nat) (x : Region) :
    (s.setRegion r x).deps = s.deps := rfl
@[simp] theorem setRegion_walk (s : State) (r : Nat) (x : Region) :
    (s.setRegion r x).walk = s.walk := rfl
@[simp] theorem setRegion_domValid (s : State) (r : Nat) (x : Region) :
    (s.setRegion r x).domValid = s.domValid := rfl
@[simp] theorem setRegion_domId (s : State) (r : Nat) (x : Region) :
    (s.setRegion r x).domId = s.domId := rfl
@[simp] theorem setRegion_tsync (s : State) (r : Nat) (x : Region) :
    (s.setRegion r x).tsync = s.tsync := rfl
@[simp] theorem setRegion_tsmaster (s : State) (r : Nat) (x : Region) :
    (s.setRegion r x).tsmaster = s.tsmaster := rfl
@[simp] theorem setRegion_tsfrom (s : State) (r : Nat) (x : Region) :
    (s.setRegion r x).tsfrom = s.tsfrom := rfl
@[simp] theorem setRegion_tsfirst (s : State) (r : Nat) (x : Region) :
    (s.setRegion r x).tsfirst = s.tsfirst := rfl
@[simp] theorem setRegion_slew (s : State) (r : Nat) (x : Region) :
    (s.setRegion r x).slew = s.slew := rfl
@[simp] theorem setRegion_ran (s : State) (r : Nat) (x : Region) :
    (s.setRegion r x).ran = s.ran := rfl
@[simp] theorem setRegion_ticked (s : State) (r : Nat) (x : Region) :
    (s.setRegion r x).ticked = s.ticked := rfl
@[simp] theorem setRegion_synced (s : State) (r : Nat) (x : Region) :
    (s.setRegion r x).synced = s.synced := rfl
@[simp] theorem setRegion_tmoexp (s : State) (r : Nat) (x : Region) :
    (s.setRegion r x).tmoexp = s.tmoexp := rfl
@[simp] theorem setRegion_congInc (s : State) (r : Nat) (x : Region) :
    (s.setRegion r x).congInc = s.congInc := rfl
@[simp] theorem setRegion_congDec (s : State) (r : Nat) (x : Region) :
    (s.setRegion r x).congDec = s.congDec := rfl
@[simp] theorem setRegion_congRmin (s : State) (r : Nat) (x : Region) :
    (s.setRegion r x).congRmin = s.congRmin := rfl
@[simp] theorem setRegion_congThresh (s : State) (r : Nat) (x : Region) :
    (s.setRegion r x).congThresh = s.congThresh := rfl
@[simp] theorem setRegion_ports (s : State) (r : Nat) (x : Region) :
    (s.setRegion r x).ports = s.ports := rfl
@[simp] theorem setRegion_routes (s : State) (r : Nat) (x : Region) :
    (s.setRegion r x).routes = s.routes := rfl
@[simp] theorem setRegion_rates (s : State) (r : Nat) (x : Region) :
    (s.setRegion r x).rates = s.rates := rfl
@[simp] theorem setRegion_requests (s : State) (r : Nat) (x : Region) :
    (s.setRegion r x).requests = s.requests := rfl
@[simp] theorem setRegion_nextTag (s : State) (r : Nat) (x : Region) :
    (s.setRegion r x).nextTag = s.nextTag := rfl
@[simp] theorem setRegion_performed (s : State) (r : Nat) (x : Region) :
    (s.setRegion r x).performed = s.performed := rfl
@[simp] theorem setRegion_peerClean (s : State) (r : Nat) (x : Region) :
    (s.setRegion r x).peerClean = s.peerClean := rfl
@[simp] theorem setRegion_peerDirty (s : State) (r : Nat) (x : Region) :
    (s.setRegion r x).peerDirty = s.peerDirty := rfl
@[simp] theorem setRegion_lineFrom (s : State) (r : Nat) (x : Region) :
    (s.setRegion r x).lineFrom = s.lineFrom := rfl
@[simp] theorem setRegion_peersFrom (s : State) (r : Nat) (x : Region) :
    (s.setRegion r x).peersFrom = s.peersFrom := rfl
@[simp] theorem setRegion_hostLines (s : State) (r : Nat) (x : Region) :
    (s.setRegion r x).hostLines = s.hostLines := rfl
@[simp] theorem setRegion_gspBase (s : State) (r : Nat) (x : Region) :
    (s.setRegion r x).gspBase = s.gspBase := rfl
@[simp] theorem setRegion_gspLast (s : State) (r : Nat) (x : Region) :
    (s.setRegion r x).gspLast = s.gspLast := rfl
@[simp] theorem setRegion_gspErr (s : State) (r : Nat) (x : Region) :
    (s.setRegion r x).gspErr = s.gspErr := rfl
@[simp] theorem setRegion_heldHalves (s : State) (r : Nat) (x : Region) :
    (s.setRegion r x).heldHalves = s.heldHalves := rfl
@[simp] theorem setRegion_waitingHalves (s : State) (r : Nat) (x : Region) :
    (s.setRegion r x).waitingHalves = s.waitingHalves := rfl
@[simp] theorem setRegion_tick (s : State) (r : Nat) (x : Region) :
    (s.setRegion r x).tick = s.tick := rfl
@[simp] theorem setRegion_fwstage (s : State) (r : Nat) (x : Region) :
    (s.setRegion r x).fwstage = s.fwstage := rfl
@[simp] theorem setRegion_images (s : State) (r : Nat) (x : Region) :
    (s.setRegion r x).images = s.images := rfl
@[simp] theorem setRegion_cur (s : State) (r : Nat) (x : Region) :
    (s.setRegion r x).cur = s.cur := rfl
@[simp] theorem setRegion_agenda (s : State) (r : Nat) (x : Region) :
    (s.setRegion r x).agenda = s.agenda := rfl
@[simp] theorem setRegion_turn (s : State) (r : Nat) (x : Region) :
    (s.setRegion r x).turn = s.turn := rfl
@[simp] theorem setRegion_issued (s : State) (r : Nat) (x : Region) :
    (s.setRegion r x).issued = s.issued := rfl
@[simp] theorem setRegion_out (s : State) (r : Nat) (x : Region) :
    (s.setRegion r x).out = s.out := rfl

/-! ### `send` -/

@[simp] theorem send_time (s : State) (x : Sent) :
    (s.send x).time = s.time := rfl
@[simp] theorem send_boot (s : State) (x : Sent) :
    (s.send x).boot = s.boot := rfl
@[simp] theorem send_tripped (s : State) (x : Sent) :
    (s.send x).tripped = s.tripped := rfl
@[simp] theorem send_mem (s : State) (x : Sent) :
    (s.send x).mem = s.mem := rfl
@[simp] theorem send_carve (s : State) (x : Sent) :
    (s.send x).carve = s.carve := rfl
@[simp] theorem send_retiredFrames (s : State) (x : Sent) :
    (s.send x).retiredFrames = s.retiredFrames := rfl
@[simp] theorem send_cores (s : State) (x : Sent) :
    (s.send x).cores = s.cores := rfl
@[simp] theorem send_ctxs (s : State) (x : Sent) :
    (s.send x).ctxs = s.ctxs := rfl
@[simp] theorem send_queues (s : State) (x : Sent) :
    (s.send x).queues = s.queues := rfl
@[simp] theorem send_launches (s : State) (x : Sent) :
    (s.send x).launches = s.launches := rfl
@[simp] theorem send_opens (s : State) (x : Sent) :
    (s.send x).opens = s.opens := rfl
@[simp] theorem send_swapNeeds (s : State) (x : Sent) :
    (s.send x).swapNeeds = s.swapNeeds := rfl
@[simp] theorem send_saved (s : State) (x : Sent) :
    (s.send x).saved = s.saved := rfl
@[simp] theorem send_deps (s : State) (x : Sent) :
    (s.send x).deps = s.deps := rfl
@[simp] theorem send_walk (s : State) (x : Sent) :
    (s.send x).walk = s.walk := rfl
@[simp] theorem send_domValid (s : State) (x : Sent) :
    (s.send x).domValid = s.domValid := rfl
@[simp] theorem send_domId (s : State) (x : Sent) :
    (s.send x).domId = s.domId := rfl
@[simp] theorem send_tsync (s : State) (x : Sent) :
    (s.send x).tsync = s.tsync := rfl
@[simp] theorem send_tsmaster (s : State) (x : Sent) :
    (s.send x).tsmaster = s.tsmaster := rfl
@[simp] theorem send_tsfrom (s : State) (x : Sent) :
    (s.send x).tsfrom = s.tsfrom := rfl
@[simp] theorem send_tsfirst (s : State) (x : Sent) :
    (s.send x).tsfirst = s.tsfirst := rfl
@[simp] theorem send_slew (s : State) (x : Sent) :
    (s.send x).slew = s.slew := rfl
@[simp] theorem send_ran (s : State) (x : Sent) :
    (s.send x).ran = s.ran := rfl
@[simp] theorem send_ticked (s : State) (x : Sent) :
    (s.send x).ticked = s.ticked := rfl
@[simp] theorem send_synced (s : State) (x : Sent) :
    (s.send x).synced = s.synced := rfl
@[simp] theorem send_tmoexp (s : State) (x : Sent) :
    (s.send x).tmoexp = s.tmoexp := rfl
@[simp] theorem send_congInc (s : State) (x : Sent) :
    (s.send x).congInc = s.congInc := rfl
@[simp] theorem send_congDec (s : State) (x : Sent) :
    (s.send x).congDec = s.congDec := rfl
@[simp] theorem send_congRmin (s : State) (x : Sent) :
    (s.send x).congRmin = s.congRmin := rfl
@[simp] theorem send_congThresh (s : State) (x : Sent) :
    (s.send x).congThresh = s.congThresh := rfl
@[simp] theorem send_ports (s : State) (x : Sent) :
    (s.send x).ports = s.ports := rfl
@[simp] theorem send_routes (s : State) (x : Sent) :
    (s.send x).routes = s.routes := rfl
@[simp] theorem send_rates (s : State) (x : Sent) :
    (s.send x).rates = s.rates := rfl
@[simp] theorem send_requests (s : State) (x : Sent) :
    (s.send x).requests = s.requests := rfl
@[simp] theorem send_nextTag (s : State) (x : Sent) :
    (s.send x).nextTag = s.nextTag := rfl
@[simp] theorem send_performed (s : State) (x : Sent) :
    (s.send x).performed = s.performed := rfl
@[simp] theorem send_peerClean (s : State) (x : Sent) :
    (s.send x).peerClean = s.peerClean := rfl
@[simp] theorem send_peerDirty (s : State) (x : Sent) :
    (s.send x).peerDirty = s.peerDirty := rfl
@[simp] theorem send_lineFrom (s : State) (x : Sent) :
    (s.send x).lineFrom = s.lineFrom := rfl
@[simp] theorem send_peersFrom (s : State) (x : Sent) :
    (s.send x).peersFrom = s.peersFrom := rfl
@[simp] theorem send_hostLines (s : State) (x : Sent) :
    (s.send x).hostLines = s.hostLines := rfl
@[simp] theorem send_gspBase (s : State) (x : Sent) :
    (s.send x).gspBase = s.gspBase := rfl
@[simp] theorem send_gspLast (s : State) (x : Sent) :
    (s.send x).gspLast = s.gspLast := rfl
@[simp] theorem send_gspErr (s : State) (x : Sent) :
    (s.send x).gspErr = s.gspErr := rfl
@[simp] theorem send_regions (s : State) (x : Sent) :
    (s.send x).regions = s.regions := rfl
@[simp] theorem send_heldHalves (s : State) (x : Sent) :
    (s.send x).heldHalves = s.heldHalves := rfl
@[simp] theorem send_waitingHalves (s : State) (x : Sent) :
    (s.send x).waitingHalves = s.waitingHalves := rfl
@[simp] theorem send_tick (s : State) (x : Sent) :
    (s.send x).tick = s.tick := rfl
@[simp] theorem send_fwstage (s : State) (x : Sent) :
    (s.send x).fwstage = s.fwstage := rfl
@[simp] theorem send_images (s : State) (x : Sent) :
    (s.send x).images = s.images := rfl
@[simp] theorem send_cur (s : State) (x : Sent) :
    (s.send x).cur = s.cur := rfl
@[simp] theorem send_agenda (s : State) (x : Sent) :
    (s.send x).agenda = s.agenda := rfl
@[simp] theorem send_turn (s : State) (x : Sent) :
    (s.send x).turn = s.turn := rfl
@[simp] theorem send_issued (s : State) (x : Sent) :
    (s.send x).issued = s.issued := rfl

end Sys2Proof.Laws
end

