-- ==== Sys2Proof/Laws/Memory.lean ====
section
/-! SUPPORT. Laws of memory: reads after writes, little-endian words, and that every memory operation keeps the
canonical form. -/

namespace Sys2Proof.Laws

open Sys2Proof Machine

/-! ### Bytes and words -/

@[simp] theorem length_leBytes (n v : Nat) : (leBytes n v).length = n := by
  induction n generalizing v with
  | zero => rfl
  | succ n ih => simp [leBytes, ih]

theorem leNat_leBytes (n v : Nat) : leNat (leBytes n v) = v % 256 ^ n := by
  induction n generalizing v with
  | zero => simp [leBytes, leNat, Nat.mod_one]
  | succ n ih =>
    have h : (BitVec.ofNat 8 v).toNat = v % 256 := by simp
    rw [leBytes, leNat, ih, h, Nat.pow_succ', Nat.mod_mul]

theorem leBytes_leNat (l : List Byte) : leBytes l.length (leNat l) = l := by
  induction l with
  | nil => rfl
  | cons b r ih =>
    have hb : b.toNat < 256 := b.isLt
    have h1 : (b.toNat + 256 * leNat r) / 256 = leNat r := by omega
    have h2 : BitVec.ofNat 8 (b.toNat + 256 * leNat r) = b := by
      apply BitVec.eq_of_toNat_eq
      simp only [BitVec.toNat_ofNat]
      omega
    simp only [List.length_cons, leBytes, leNat, h1, h2, ih]

/-! ### Reads after writes -/

theorem readByte_writeByte (s : State) (p q : Nat) (b : Byte) :
    (s.writeByte p b).readByte q = if q = p then b else s.readByte q := get_put _ _ _ _ _

/-- A write of bytes, read at every address. -/
theorem readByte_writeMem (s : State) (p q : Nat) (bs : List Byte) :
    (s.writeMem p bs).readByte q = if p ≤ q ∧ q < p + bs.length then bs.getD (q - p) 0 else s.readByte q := by
  induction bs generalizing s p with
  | nil =>
    simp [State.writeMem]
  | cons b bs ih =>
    simp only [State.writeMem, ih, readByte_writeByte, List.length_cons]
    by_cases h : q = p
    · subst h
      simp
    · by_cases h2 : p ≤ q ∧ q < p + (bs.length + 1)
      · have h3 : p + 1 ≤ q ∧ q < p + 1 + bs.length := by omega
        obtain ⟨k, rfl⟩ : ∃ k, q = p + 1 + k := ⟨q - (p + 1), by omega⟩
        have e1 : p + 1 + k - (p + 1) = k := by omega
        have e2 : p + 1 + k - p = k + 1 := by omega
        simp only [h3, and_self, if_true, h2, e1, e2, List.getD_cons_succ]
      · have h3 : ¬(p + 1 ≤ q ∧ q < p + 1 + bs.length) := by omega
        simp only [h3, if_false, h, h2]

theorem readMem_eq (s : State) (p n : Nat) : s.readMem p n = (List.range n).map fun i => s.readByte (p + i) := by
  induction n generalizing p with
  | zero => rfl
  | succ n ih =>
    simp only [State.readMem, ih, List.range_succ_eq_map, List.map_cons, List.map_map, Nat.add_zero]
    congr 1
    apply List.map_congr_left
    intro i _
    simp only [Function.comp]
    congr 1
    omega

@[simp] theorem length_readMem (s : State) (p n : Nat) : (s.readMem p n).length = n := by simp [readMem_eq]

/-- The bytes written are read back. -/
theorem readMem_writeMem_same (s : State) (p : Nat) (bs : List Byte) : (s.writeMem p bs).readMem p bs.length = bs := by
  rw [readMem_eq]
  apply List.ext_getElem
  · simp
  · intro i h1 h2
    have hi : i < bs.length := h2
    simp [readByte_writeMem, hi]

/-- Bytes outside what is written are as they were. -/
theorem readMem_writeMem_apart (s : State) (p q n : Nat) (bs : List Byte) (h : q + n ≤ p ∨ p + bs.length ≤ q) :
    (s.writeMem p bs).readMem q n = s.readMem q n := by
  rw [readMem_eq, readMem_eq]
  apply List.map_congr_left
  intro i hi
  have hi := List.mem_range.1 hi
  have : ¬(p ≤ q + i ∧ q + i < p + bs.length) := by omega
  rw [readByte_writeMem, if_neg this]

theorem read64_write64 (s : State) (p : Nat) (w : Word) : (s.write64 p w).read64 p = w := by
  have h := readMem_writeMem_same s p (leBytes 8 w.toNat)
  rw [length_leBytes] at h
  apply BitVec.eq_of_toNat_eq
  have hw := w.isLt
  simp only [State.read64, State.write64, h, leNat_leBytes, BitVec.toNat_ofNat]
  omega

/-! ### The canonical form of memory -/

theorem reset_memoryWf : State.reset.memoryWf := rfl

/-- The canonical form depends on memory alone. -/
theorem wf_congr {s t : State} (e : t.mem = s.mem) (h : s.memoryWf) : t.memoryWf := by
  rw [State.memoryWf, e]
  exact h

theorem wf_writeByte (s : State) (p : Nat) (b : Byte) (h : s.memoryWf) : (s.writeByte p b).memoryWf := wf_put _ _ _ _ h

theorem wf_writeMem (s : State) (p : Nat) (bs : List Byte) (h : s.memoryWf) : (s.writeMem p bs).memoryWf := by
  induction bs generalizing s p with
  | nil => exact h
  | cons b bs ih => exact ih _ _ (wf_writeByte _ _ _ h)

theorem wf_write64 (s : State) (p : Nat) (w : Word) (h : s.memoryWf) : (s.write64 p w).memoryWf := wf_writeMem _ _ _ h

theorem wf_write32 (s : State) (p : Nat) (w : BitVec 32) (h : s.memoryWf) : (s.write32 p w).memoryWf :=
  wf_writeMem _ _ _ h

/-- A fold of an operation that keeps the canonical form keeps it. -/
theorem wf_foldl {α : Type} (f : State → α → State) (hf : ∀ s a, s.memoryWf → (f s a).memoryWf) (l : List α) (s : State)
    (h : s.memoryWf) : (l.foldl f s).memoryWf := by
  induction l generalizing s with
  | nil => exact h
  | cons a l ih => exact ih _ (hf _ _ h)

/-- A failed sector changes no memory of this device or of the host. -/
theorem mem_failSector (s : State) (sec : Nat) (ws : List (Nat × Nat)) : (s.failSector sec ws).mem = s.mem := by
  have k : ∀ (l : List (Nat × Nat)) (f : Group → Group) (u : State),
      (l.foldl (fun s w => s.onGroup w.1 w.2 f) u).mem = u.mem := by
    intro l f
    induction l with
    | nil => intro u; rfl
    | cons w l ih => intro u; exact (ih _).trans rfl
  exact (k _ _ _).trans rfl

theorem wf_performByte (s : State) (p : Nat) (b : Byte) (ws : List (Nat × Nat)) (h : s.memoryWf) :
    (s.performByte p b ws).memoryWf := by
  have hw := wf_writeByte s p b h
  unfold State.performByte
  split
  · exact wf_congr (mem_failSector _ _ _) h
  · split
    · exact wf_congr rfl h
    · dsimp only
      split
      · exact wf_congr rfl hw
      · exact hw

theorem wf_deviceWrite (s : State) (p : Nat) (bs : List Byte) (h : s.memoryWf) : (s.deviceWrite p bs).memoryWf := by
  induction bs generalizing s p with
  | nil => exact h
  | cons b bs ih => exact ih _ _ (wf_performByte _ _ _ _ h)

theorem wf_publishByte (s : State) (c p : Nat) (h : s.memoryWf) : (s.publishByte c p).memoryWf := by
  unfold State.publishByte
  dsimp only
  split
  · exact h
  · exact wf_performByte _ _ _ _ (wf_congr (setCore_mem _ _ _) h)

theorem wf_publishSector (s : State) (c sec : Nat) (h : s.memoryWf) : (s.publishSector c sec).memoryWf :=
  wf_foldl _ (fun _ _ h => wf_publishByte _ _ _ h) _ _ h

theorem wf_publish (s : State) (c g : Nat) (p : Nat → Bool) (h : s.memoryWf) : (s.publish c g p).memoryWf :=
  wf_foldl _ (fun _ _ h => wf_publishSector _ _ _ h) _ _ h

theorem wf_publishAll (s : State) (c : Nat) (h : s.memoryWf) : (s.publishAll c).memoryWf :=
  wf_foldl _ (fun _ _ h => wf_publishSector _ _ _ h) _ _ h

theorem wf_evictSector (s : State) (c sec : Nat) (h : s.memoryWf) : (s.evictSector c sec).memoryWf :=
  wf_congr (s := s.publishSector c sec) (onCore_mem _ _ _) (wf_publishSector s c sec h)

theorem wf_homeRead (s : State) (c p n : Nat) (l : Option (List Byte)) (h : s.memoryWf) :
    (s.homeRead c p n l).1.memoryWf := by
  have k : (s.homeRead c p n l).1 = s.publishSector c (p / 32) := by
    simp only [State.homeRead]
  rw [k]
  exact wf_publishSector _ _ _ h

theorem wf_performBytes (s : State) (p : Nat) (bs : List Byte) (h : s.memoryWf) : (s.performBytes p bs).memoryWf := by
  induction bs generalizing s p with
  | nil => exact h
  | cons b bs ih => exact ih _ _ (wf_performByte _ _ _ _ h)

theorem wf_homeWrite (s : State) (c p : Nat) (bs : List Byte) (h : s.memoryWf) : (s.homeWrite c p bs).memoryWf :=
  wf_performBytes _ _ _ (wf_foldl _ (fun _ _ h => wf_publishSector _ _ _ h) _ _ h)

theorem mem_loadL1 (s : State) (c p n : Nat) (l : Option (List Byte)) : (s.loadL1 c p n l).1.mem = s.mem := by
  unfold State.loadL1
  dsimp only
  split
  · rfl
  · split
    · rfl
    · dsimp only
      split <;> split <;> rfl

theorem mem_walkFrom (s : State) (a : Agent) (root va : Word) (fuel level table : Nat) :
    (s.walkFrom a root va fuel level table).1.mem = s.mem := by
  induction fuel generalizing s level table with
  | zero => rfl
  | succ fuel ih =>
    unfold State.walkFrom
    dsimp only
    split
    · rfl
    · rfl
    · rfl
    · split
      · rfl
      · split
        · rfl
        · split
          · rfl
          · exact (ih _ _ _).trans rfl

theorem mem_findLeaf (s : State) (a : Agent) (va : Word) : (s.findLeaf a va).1.mem = s.mem := by
  unfold State.findLeaf
  dsimp only
  split
  · rfl
  · split
    · rfl
    · split
      · split
        · rfl
        · exact mem_walkFrom _ _ _ _ _ _ _
      · exact mem_walkFrom _ _ _ _ _ _ _

/-- The checks of an address change no memory. -/
theorem mem_probe (s : State) (a : Agent) (va : Word) (acc : Access) (g : Bool) : (s.probe a va acc g).1.mem = s.mem := by
  unfold State.probe
  split
  · rfl
  · have hu := mem_findLeaf s a va
    generalize s.findLeaf a va = r at hu ⊢
    obtain ⟨u, r⟩ := r
    cases r with
    | no c => exact hu
    | need w o => exact hu
    | away l t => exact hu
    | ok t =>
      dsimp only at hu ⊢
      split
      · exact hu
      · split <;> exact hu

theorem wf_keepLeaf (s : State) (a : Agent) (va : Word) (t : Trans) (h : s.memoryWf) : (s.keepLeaf a va t).memoryWf :=
  wf_congr (onCore_mem _ _ _) h

theorem wf_loseLeaf (s : State) (a : Agent) (va : Word) (h : s.memoryWf) : (s.loseLeaf a va).memoryWf :=
  wf_congr (onCore_mem _ _ _) h

theorem wf_markLeaf (s : State) (a : Agent) (va : Word) (acc : Access) (w : Where) (h : s.memoryWf) :
    (s.markLeaf a va acc w).1.memoryWf := by
  unfold State.markLeaf
  dsimp only
  split
  · exact wf_keepLeaf _ _ _ _ h
  · split
    · split
      · split
        · exact wf_keepLeaf _ _ _ _ h
        · exact wf_loseLeaf _ _ _ (wf_congr rfl h)
      · exact h
      · exact h
      · exact h
      · exact h
    · split
      · exact wf_keepLeaf _ _ _ _ (wf_write64 _ _ _ h)
      · exact wf_loseLeaf _ _ _ h

theorem wf_translateOnce (s : State) (a : Agent) (va : Word) (acc : Access) (g : Bool) (h : s.memoryWf) :
    (s.translateOnce a va acc g).1.memoryWf := by
  unfold State.translateOnce
  have hu := wf_congr (mem_probe s a va acc g) h
  generalize s.probe a va acc g = r at hu ⊢
  obtain ⟨u, r⟩ := r
  cases r with
  | ok w => exact wf_markLeaf _ _ _ _ _ hu
  | no c => exact hu
  | need w o => exact hu
  | away l t => exact hu

/-- Translating an address writes at most A and D bits of a leaf: the canonical form stays. -/
theorem wf_translate (s : State) (a : Agent) (va : Word) (acc : Access) (g : Bool) (h : s.memoryWf) :
    (s.translate a va acc g).1.memoryWf := by
  unfold State.translate
  have h1 := wf_translateOnce s a va acc g h
  generalize s.translateOnce a va acc g = r at h1 ⊢
  obtain ⟨u, r⟩ := r
  cases r with
  | some r => exact h1
  | none =>
    have h2 := wf_translateOnce u a va acc g h1
    dsimp only
    generalize u.translateOnce a va acc g = q at h2 ⊢
    obtain ⟨v, q⟩ := q
    cases q <;> exact h2

theorem wf_zeroFrame (s : State) (f : Nat) (h : s.memoryWf) : (s.zeroFrame f).memoryWf := by
  unfold State.zeroFrame
  split
  · exact wf_deviceWrite _ _ _ h
  · exact wf_keep blank s.mem (fun pa _ => pa < f || f + 4096 ≤ pa) h

theorem wf_maskWrite (s : State) (p : Nat) (bs : List Byte) (m : BitVec 32) (h : s.memoryWf) :
    (s.maskWrite p bs m).memoryWf := wf_foldl _ (fun _ _ h => wf_performByte _ _ _ _ h) _ _ h

theorem wf_homePerform (s : State) (p : Nat) (op : HomeOp) (h : s.memoryWf) : (s.homePerform p op).1.memoryWf := by
  unfold State.homePerform
  split
  · exact h
  · cases op with
    | readLine => exact h
    | write bs m => exact wf_maskWrite _ _ _ _ h
    | atomic f w b c =>
      dsimp only
      split
      · exact h
      · exact wf_writeMem _ _ _ h
    | reduceSector ty bs =>
      dsimp only
      split
      · exact wf_writeMem _ _ _ h
      · exact h

/-- Equal reads of canonical memories are equal memories. -/
theorem mem_eq_of_readByte (s t : State) (hs : s.memoryWf) (ht : t.memoryWf) (h : ∀ p, s.readByte p = t.readByte p) :
    s.mem = t.mem := eq_of_get _ _ _ hs ht h

end Sys2Proof.Laws
end

