-- ==== Sys2Proof/Laws/Decode.lean ====
section
/-! SUPPORT. Laws of the encoding: fields and words, field codes and what they stand for, and what decoding an encoded
instruction comes to. -/

namespace Sys2Proof.Laws

open Sys2Proof

/-! ### Fields and words -/

/-- The fields of a word are the fields it was made of. -/
theorem of_base (f : Fields) : Fields.of f.base f.x = f := by
  obtain ⟨len, op, fn, dd, sa, sb, gd, xf, x⟩ := f
  simp only [Fields.of, Fields.base, Fields.mk.injEq, and_true]
  refine ⟨?_, ?_, ?_, ?_, ?_, ?_, ?_, ?_⟩ <;>
    (apply BitVec.eq_of_getLsbD_eq
     intro i hi
     simp only [BitVec.getLsbD_extractLsb', BitVec.getLsbD_append, hi, decide_true, Bool.true_and]
     repeat (first | rw [if_pos (by omega)] | rw [if_neg (by omega)])
     congr 1
     omega)

/-- A word is made of its fields. -/
theorem base_of (w x : BitVec 64) : (Fields.of w x).base = w := by
  apply BitVec.eq_of_getLsbD_eq
  intro i hi
  simp only [Fields.of, Fields.base, BitVec.getLsbD_append, BitVec.getLsbD_extractLsb']
  repeat' split
  all_goals
    rw [show ∀ b : Bool, (decide _ && b) = b from fun b => by rw [decide_eq_true (by omega), Bool.true_and]]
    congr 1
    omega

/-! ### Field codes -/

@[simp] theorem srcOf_code (s : Src) : srcOf (srcCode s) = s := by
  cases s with
  | v n => revert n; decide +kernel
  | bl n => revert n; decide
  | s n => revert n; decide +kernel
  | imm => rfl

@[simp] theorem optScalarOf_code (o : Option (BitVec 6)) : optScalarOf (optScalarCode o) = o := by
  cases o with
  | none => rfl
  | some n => revert n; decide +kernel

@[simp] theorem guardOf_code (g : Guard) : guardOf (guardCode g) = g := by
  cases g with
  | always => rfl
  | on n r b =>
    have h0 : (1#1 ++ BitVec.ofBool n ++ r ++ b : BitVec 15).getLsbD 14 = true := by
      simp only [BitVec.getLsbD_append]
      rfl
    have h1 : (1#1 ++ BitVec.ofBool n ++ r ++ b : BitVec 15).getLsbD 13 = n := by
      simp only [BitVec.getLsbD_append]
      cases n <;> rfl
    have h2 : (1#1 ++ BitVec.ofBool n ++ r ++ b : BitVec 15).extractLsb' 5 8 = r := by
      apply BitVec.eq_of_getLsbD_eq
      intro i hi
      simp only [BitVec.getLsbD_extractLsb', BitVec.getLsbD_append, hi, decide_true, Bool.true_and]
      rw [if_neg (by omega), if_pos (by omega)]
      congr 1
      omega
    have h3 : (1#1 ++ BitVec.ofBool n ++ r ++ b : BitVec 15).extractLsb' 0 5 = b := by
      apply BitVec.eq_of_getLsbD_eq
      intro i hi
      simp only [BitVec.getLsbD_extractLsb', BitVec.getLsbD_append, hi, decide_true, Bool.true_and]
      rw [if_pos (by omega)]
      congr 1
      omega
    simp only [guardOf, guardCode, h0, h1, h2, h3, if_true]

@[simp] theorem tyOf_code (t : Ty) : tyOf (tyCode t) = t := by cases t <;> rfl
@[simp] theorem condOf_code (c : Cond) : condOf (condCode c) = c := by cases c <;> rfl
@[simp] theorem rmOf_code (r : Rm) : rmOf (rmCode r) = r := by cases r <;> rfl
@[simp] theorem boolOf_code (b : Bool) : boolOf (boolCode b) = b := by cases b <;> rfl
@[simp] theorem nfmtOf_code (f : NFmt) : nfmtOf (nfmtCode f) = f := by cases f <;> rfl
@[simp] theorem trOf_code (t : Tr) : trOf (trCode t) = t := by cases t <;> rfl
@[simp] theorem spaceOf_code (c : Space) : spaceOf (spaceCode c) = c := by cases c <;> rfl
@[simp] theorem widthOf_code (w : Width) : widthOf (widthCode w) = w := by cases w <;> rfl
@[simp] theorem atomOf_code (a : AtomOp) : atomOf (atomCode a) = a := by cases a <;> rfl
@[simp] theorem cspaceOf_code (c : CSpace) : cspaceOf (cspaceCode c) = c := by cases c <;> rfl
@[simp] theorem linkOf_code (k : LinkKind) : linkOf (linkCode k) = k := by cases k <;> rfl
@[simp] theorem voteOf_code (k : VoteKind) : voteOf (voteCode k) = k := by cases k <;> rfl
@[simp] theorem shflOf_code (m : ShflMode) : shflOf (shflCode m) = m := by cases m <;> rfl
@[simp] theorem specialOf_code (r : SpecialReg) : specialOf (specialCode r) = r := by cases r <;> rfl

@[simp] theorem poolOf_code (p : Pool) : poolOf (poolCode p) = p := by
  cases p with
  | regs => rfl
  | acc n => revert n; decide
  | stream n => revert n; decide

@[simp] theorem presentOf_code (o : Option (BitVec 6)) : presentOf (presentCode o) = o := by
  cases o with
  | none => rfl
  | some n => revert n; decide

@[simp] theorem optDstOf_code (o : Option (BitVec 6)) : optDstOf (optDstCode o) = o := by
  cases o with
  | none => rfl
  | some n => revert n; decide

@[simp] theorem dstOf_code (d : Dst) : dstOf (Forms.dk d) (dstCode d) = d := by
  cases d with
  | v n => revert n; decide +kernel
  | vbl n l => revert n l; decide +kernel
  | bl l => revert l; decide
  | s n => revert n; decide
  | none b => cases b <;> rfl

theorem extLen_ne_zero (x : Ext) : extLen x ≠ 0 := by cases x <;> simp [extLen]

/-- An extension is read back, where the OP is marked S exactly if the extension is of form S. -/
theorem extOf_code (sc : Bool) (x : Ext) (hs : ∀ c v, x = .s c v → sc = true) (hi : ∀ v, x = .i v → sc = false) :
    extOf sc (extLen x) (extCode x) = x := by
  cases x with
  | a => rfl
  | w v => rfl
  | i v =>
    have := hi v rfl
    subst this
    simp only [extOf, extLen, extCode]
    show Ext.i _ = Ext.i v
    congr 1
    apply BitVec.eq_of_getLsbD_eq
    intro i hi
    simp only [BitVec.getLsbD_extractLsb', BitVec.getLsbD_append, hi, decide_true, Bool.true_and, Nat.zero_add, if_true]
  | s c v =>
    have := hs c v rfl
    subst this
    simp only [extOf, extLen, extCode]
    show Ext.s (srcOf _) _ = Ext.s c v
    have h1 : (0#32 ++ srcCode c ++ v : BitVec 64).extractLsb' 23 9 = srcCode c := by
      apply BitVec.eq_of_getLsbD_eq
      intro i hi
      have h : ¬(23 + i < 23) := by omega
      have h' : 23 + i - 23 = i := by omega
      simp only [BitVec.getLsbD_extractLsb', BitVec.getLsbD_append, hi, decide_true, Bool.true_and, h, if_false, h', if_true]
    have h2 : (0#32 ++ srcCode c ++ v : BitVec 64).extractLsb' 0 23 = v := by
      apply BitVec.eq_of_getLsbD_eq
      intro i hi
      simp only [BitVec.getLsbD_extractLsb', BitVec.getLsbD_append, hi, decide_true, Bool.true_and, Nat.zero_add, if_true]
    rw [h1, h2, srcOf_code]

/-! ### Decoding an encoded instruction -/

theorem lenBytes_cases (l : BitVec 2) (h : l ≠ 0) : lenBytes l = 8 ∨ lenBytes l = 12 ∨ lenBytes l = 16 := by
  revert l; decide

/-- Decoding the bytes of fields whose extension fits their length reads these fields. -/
theorem decode_bytes (f : Fields) (rest : List Byte) (hl : f.len ≠ 0) (hx : 2 ^ 64 * f.x.toNat < 256 ^ lenBytes f.len) :
    decode (leBytes (lenBytes f.len) (f.base.toNat + 2 ^ 64 * f.x.toNat) ++ rest) = decodeFields f := by
  have hb := f.base.isLt
  have hn : 8 ≤ lenBytes f.len := by rcases lenBytes_cases f.len hl with h | h | h <;> omega
  have hlen : ∀ k v, (leBytes k v).take 8 = leBytes (min k 8) v := by
    intro k
    have : ∀ m k v, (leBytes k v).take m = leBytes (min k m) v := by
      intro m
      induction m with
      | zero => intro k v; simp [leBytes]
      | succ m ih =>
        intro k v
        cases k with
        | zero => simp [leBytes]
        | succ k => simp only [leBytes, List.take_succ_cons, ih, Nat.add_min_add_right]
    exact this 8 k
  have hdrop : ∀ m k v, (leBytes k v).drop m = leBytes (k - m) (v / 256 ^ m) := by
    intro m
    induction m with
    | zero => intro k v; simp
    | succ m ih =>
      intro k v
      cases k with
      | zero => simp [leBytes]
      | succ k =>
        simp only [leBytes, List.drop_succ_cons, ih, Nat.add_sub_add_right, Nat.div_div_eq_div_mul, Nat.pow_succ']
  have hw : BitVec.ofNat 64 (leNat ((leBytes (lenBytes f.len) (f.base.toNat + 2 ^ 64 * f.x.toNat) ++ rest).take 8))
      = f.base := by
    rw [List.take_append_of_le_length (by rw [length_leBytes]; omega), hlen, Nat.min_eq_right hn, leNat_leBytes]
    apply BitVec.eq_of_toNat_eq
    rw [BitVec.toNat_ofNat]
    norm_num
    omega
  have hlb : f.base.extractLsb' 0 2 = f.len := congrArg Fields.len (of_base f)
  have he : BitVec.ofNat 64 (leNat (((leBytes (lenBytes f.len) (f.base.toNat + 2 ^ 64 * f.x.toNat) ++ rest).take
      (lenBytes f.len)).drop 8)) = f.x := by
    rw [List.take_append_of_le_length (by rw [length_leBytes]), List.take_of_length_le (by rw [length_leBytes]),
      hdrop, leNat_leBytes]
    have h1 : (f.base.toNat + 2 ^ 64 * f.x.toNat) / 256 ^ 8 = f.x.toNat := by
      norm_num
      omega
    have h2 : f.x.toNat < 256 ^ (lenBytes f.len - 8) := by
      have : 256 ^ lenBytes f.len = 2 ^ 64 * 256 ^ (lenBytes f.len - 8) := by
        rw [show (2 : Nat) ^ 64 = 256 ^ 8 by norm_num, ← Nat.pow_add, Nat.add_sub_cancel' hn]
      rw [this] at hx
      exact Nat.lt_of_mul_lt_mul_left hx
    rw [h1, Nat.mod_eq_of_lt h2]
    simp
  unfold decode
  simp only [hw, hlb, he]
  rw [if_neg]
  · rw [show Fields.of f.base f.x = f from of_base f]
  · simp only [List.length_append, length_leBytes, not_or]
    omega

/-- An instruction whose fields read back as itself decodes from its bytes. -/
theorem decode_encode_of (i : Instr) (f : Fields) (rest : List Byte) (hf : fieldsOf i = some f) (hw : wellFormed i = true)
    (hl : f.len ≠ 0) (hx : 2 ^ 64 * f.x.toNat < 256 ^ lenBytes f.len) (hr : readFields f = some i) :
    decode (encode i ++ rest) = .ok i := by
  have h : encode i = leBytes (lenBytes f.len) (f.base.toNat + 2 ^ 64 * f.x.toNat) := by simp [encode, hf]
  rw [h, decode_bytes f rest hl hx]
  have hl' : ¬f.len = 0#2 := hl
  simp [decodeFields, hl', hr, hw, hf]

end Sys2Proof.Laws
end

