-- ==== Sys2Proof/Laws/Ops.lean ====
section
/-! SUPPORT. Laws of the shared operations: what counting, retiring, advancing, issuing and writing results do, and what
they leave alone. -/

namespace Sys2Proof.Laws

open Sys2Proof Machine

/-! ### What an instruction leaves alone outside its group -/

theorem elsewhereSame_refl (s : State) : s.elsewhereSame s :=
  ⟨rfl, fun _ => rfl, fun _ _ _ => rfl, fun _ => rfl⟩

theorem elsewhereSame_cur {s t : State} (h : s.elsewhereSame t) : t.cur = s.cur := by rw [h.1]

theorem elsewhereSame_trans {s t u : State} (h : s.elsewhereSame t) (k : t.elsewhereSame u) : s.elsewhereSame u := by
  have hc := elsewhereSame_cur h
  obtain ⟨h1, h2, h3, h4⟩ := h
  obtain ⟨k1, k2, k3, k4⟩ := k
  refine ⟨?_, fun c => ?_, fun c g hg => ?_, fun a => ?_⟩
  · rw [k1, h1]
  · rw [k2 c, h2 c]
  · rw [k3 c g (by rwa [hc]), h3 c g hg]
  · rw [k4 a, h4 a]

theorem elsewhereSame_count (s : State) (c a n k : Nat) : s.elsewhereSame (s.count c a n k) := by
  have hc : ∀ d, (s.count c a n k).core d = { s.core d with counters := ((s.count c a n k).core d).counters } := by
    intro d
    by_cases h : d = c
    · subst h
      simp [State.count]
    · simp [State.count, core_onCore, h]
  refine ⟨rfl, fun d => ?_, fun d g _ => ?_, fun _ => rfl⟩
  · rw [hc d]
  · simp only [State.group]
    rw [hc d]

theorem elsewhereSame_alive (s : State) (a : Nat) : s.elsewhereSame (s.alive a) := by
  refine ⟨rfl, fun _ => rfl, fun _ _ _ => rfl, fun b => ?_⟩
  by_cases h : b = a
  · subst h
    simp [State.alive, ctx_onCtx]
  · simp [State.alive, ctx_onCtx, h]

theorem elsewhereSame_onMe (s : State) (f : Group → Group) : s.elsewhereSame (s.onMe f) := by
  refine ⟨rfl, fun d => ?_, fun d g h => ?_, fun _ => rfl⟩
  · rw [State.onMe, core_onGroup]
  · simp only [State.onMe, group_onGroup]
    rw [if_neg (by tauto)]

/-! ### The issuing group -/

theorem me_onMe (s : State) (f : Group → Group) : (s.onMe f).me = f s.me := by
  show (s.onGroup s.cur.core s.cur.gslot f).group s.cur.core s.cur.gslot = f s.me
  rw [group_onGroup_same]
  rfl

theorem me_count (s : State) (c a n k : Nat) : (s.count c a n k).me = s.me := by
  show (s.count c a n k).group s.cur.core s.cur.gslot = s.me
  by_cases h : s.cur.core = c
  · subst h
    simp [State.count, State.group, State.me]
  · simp [State.count, State.group, State.me, core_onCore, h]

theorem me_alive (s : State) (a : Nat) : (s.alive a).me = s.me := rfl

/-! ### The end of an instruction -/

/-- Retiring changes counters and a watchdog window. -/
theorem retire_spec (s : State) : s.retire.me = s.me ∧ s.elsewhereSame s.retire := by
  unfold State.retire
  dsimp only
  split
  · exact ⟨me_count _ _ _ _ _, elsewhereSame_count _ _ _ _ _⟩
  · exact ⟨me_count _ _ _ _ _, elsewhereSame_trans (elsewhereSame_count _ _ _ _ _) (elsewhereSame_alive _ _)⟩

theorem go_spec (x : Slot) (pc : Word) (m : Mask) (turn : Nat) :
    (x.go pc m turn).state = .ready ∧ (x.go pc m turn).pc = pc ∧ (x.go pc m turn).mask = m ∧ (x.go pc m turn).rcv = x.rcv :=
  ⟨rfl, rfl, rfl, rfl⟩

/-- A slot that goes to an address: nothing of the machine but counters, a window and the slot changes. -/
theorem retire_go_spec (s : State) (pc : Word) :
    let t := s.retire.onMySlot fun x => x.go pc x.mask s.turn
    s.wentOn t pc ∧ s.me.sameRegs t.me ∧ s.elsewhereSame t := by
  obtain ⟨hm, he⟩ := retire_spec s
  have hc : s.retire.cur = s.cur := elsewhereSame_cur he
  have ht : (s.retire.onMySlot fun x => x.go pc x.mask s.turn).me
      = s.me.onSlot s.cur.slot fun x => x.go pc x.mask s.turn := by
    rw [State.onMySlot, me_onMe, hm, hc]
  have hcur : (s.retire.onMySlot fun x => x.go pc x.mask s.turn).cur = s.cur := hc
  refine ⟨⟨hcur, ?_, ?_, ?_, ?_, ?_⟩, ?_, elsewhereSame_trans he (elsewhereSame_onMe _ _)⟩
  · rw [State.mySlot, ht, hcur, slot_onSlot_same]; rfl
  · rw [State.mySlot, ht, hcur, slot_onSlot_same]; rfl
  · rw [State.mySlot, ht, hcur, slot_onSlot_same]; rfl
  · rw [State.mySlot, ht, hcur, slot_onSlot_same]; rfl
  · rw [ht, slot_onSlot_other]
  · rw [ht, Group.sameRegs]
    exact onSlot_rest _ _ _

/-- The lanes go on to the next instruction and nothing else changes. -/
theorem advance_spec (s : State) (i : Instr) :
    s.wentOn (s.advance i) (s.nextPc i) ∧ s.me.sameRegs (s.advance i).me ∧ s.elsewhereSame (s.advance i) := by
  have h : s.advance i = s.retire.onMySlot fun x => x.go (s.nextPc i) x.mask s.turn := by
    have h1 : s.retire.nextPc i = s.nextPc i := by
      obtain ⟨hm, he⟩ := retire_spec s
      rw [State.nextPc, State.nextPc, State.mySlot, State.mySlot, hm, elsewhereSame_cur he]
    have h2 : s.retire.turn = s.turn := by rw [(retire_spec s).2.1]
    rfl
  rw [h]
  exact retire_go_spec s _

/-! ### Issue -/

/-- An instruction that nothing stands against acts on its active lanes, or only advances where there are none (R23). -/
theorem issue_eq (i : Instr) (gd : Guard) (s : State) (body : Mask → State) (always : Bool) (h : issuable i s = true) :
    issue i gd s body always = .next (if (s.me.active s.mySlot.mask gd == 0 && !always) = true then s.advance i
      else body (s.me.active s.mySlot.mask gd)) := by
  simp only [issuable, Bool.and_eq_true, Bool.or_eq_true, bne_iff_ne, ne_eq, Bool.not_eq_true'] at h
  obtain ⟨⟨⟨⟨h1, h2⟩, h3⟩, h4⟩, h5⟩ := h
  have a1 : ¬(s.mySlot.state == .empty || s.mySlot.mask == 0) = true := by
    rw [Bool.or_eq_true, beq_iff_eq, beq_iff_eq]
    exact not_or.2 ⟨h1, h2⟩
  have a2 : (needsPrivilege i && !s.me.privileged) = false := by
    rcases h4 with h4 | h4 <;> simp [h4]
  unfold issue
  dsimp only
  rw [if_neg a1, if_neg (by simp [h3]), if_neg (by simp [a2]), if_neg (by simp [h5])]
  split <;> rfl

/-- An instruction that a step of the device or a host access stands for: it acts where its operands name what exists. -/
theorem happen_eq (i : Instr) (s : State) (f : State → State) (h : wellFormed i = true) : happen i s f = .next (f s) := by
  simp [happen, h]

/-- An access through the BAR pages acts where the device has more than its configuration space, and does nothing where it
has not (R386). -/
theorem reachBar_eq (i : Instr) (s : State) (f : State → State) (h : wellFormed i = true) (hb : s.boot ≠ .ioOnly) :
    reachBar i s f = .next (f s) := by
  simp [reachBar, happen, h, hb]

theorem reachBar_ioOnly (i : Instr) (s : State) (f : State → State) (hb : s.boot = .ioOnly) : reachBar i s f = .next s := by
  simp [reachBar, happen, hb]

/-- A fault of `exec` names a slot without lanes; nothing else faults at issue. -/
theorem issue_next (i : Instr) (gd : Guard) (s : State) (body : Mask → State) (always : Bool)
    (h1 : s.mySlot.state ≠ .empty) (h2 : s.mySlot.mask ≠ 0) : ∃ t, issue i gd s body always = .next t := by
  unfold issue
  dsimp only
  have a1 : ¬(s.mySlot.state == .empty || s.mySlot.mask == 0) = true := by
    rw [Bool.or_eq_true, beq_iff_eq, beq_iff_eq]
    exact not_or.2 ⟨h1, h2⟩
  rw [if_neg a1]
  repeat' split
  all_goals exact ⟨_, rfl⟩

/-! ### Results -/

/-- A register read after a wide write of a lane (Table 2-4, R19). -/
theorem vreg_setVwide (g : Group) (n l w m k : Nat) (x : BitVec 128) (hw : w ≠ 64 → w ≠ 128 → w = 32) (hl : l < 32)
    (hk : k < 32) : (g.setVwide n l w x).vreg m k =
      if k = l ∧ n ≤ m ∧ m < n + w / 32 then x.extractLsb' (32 * (m - n)) 32 else g.vreg m k := by
  unfold Group.setVwide
  dsimp only
  by_cases h64 : w = 64
  · subst h64
    simp only [if_true, vreg_setVreg _ _ _ _ _ _ hl hk]
    by_cases hkl : k = l
    · subst hkl
      by_cases e0 : m = n
      · subst e0; simp
      · by_cases e1 : m = n + 1
        · subst e1; simp
        · have : ¬(n ≤ m ∧ m < n + 64 / 32) := by omega
          simp only [e0, e1, false_and, if_false, true_and, this]
    · simp [hkl]
  · by_cases h128 : w = 128
    · subst h128
      simp only [show ¬(128 = 64) by omega, if_false, if_true, vreg_setVreg _ _ _ _ _ _ hl hk]
      by_cases hkl : k = l
      · subst hkl
        by_cases e0 : m = n
        · subst e0; simp
        · by_cases e1 : m = n + 1
          · subst e1; simp
          · by_cases e2 : m = n + 2
            · subst e2; simp
            · by_cases e3 : m = n + 3
              · subst e3; simp
              · have : ¬(n ≤ m ∧ m < n + 128 / 32) := by omega
                simp only [e0, e1, e2, e3, false_and, if_false, true_and, this]
      · simp [hkl]
    · have := hw h64 h128
      subst this
      simp only [show ¬(32 = 64) by omega, show ¬(32 = 128) by omega, if_false, vreg_setVreg _ _ _ _ _ _ hl hk]
      by_cases hkl : k = l
      · subst hkl
        by_cases e0 : m = n
        · subst e0; simp
        · have : ¬(n ≤ m ∧ m < n + 32 / 32) := by omega
          simp only [e0, false_and, if_false, true_and, this]
      · simp [hkl]

/-- A vector write leaves everything of a group but its vector registers. -/
theorem setVwide_rest (g : Group) (n l w : Nat) (x : BitVec 128) :
    g.setVwide n l w x = { g with v := (g.setVwide n l w x).v } := by
  unfold Group.setVwide
  dsimp only
  split
  · rfl
  · split <;> rfl

/-! ### Choices of the device -/

/-- A choice among candidates is one of them, and there is one where there are candidates. -/
theorem pick_mem {α : Type} {s : State} {k : Nat} {l : List α} {x : α} (h : s.pick k l = some x) : x ∈ l := by
  unfold State.pick at h
  exact List.mem_of_getElem? h

theorem pick_isSome {α : Type} (s : State) (k : Nat) {l : List α} (h : l ≠ []) : (s.pick k l).isSome = true := by
  unfold State.pick
  have := List.length_pos_iff.mpr h
  simp [Nat.mod_lt _ this]

/-- An issue finds an entry where one is FREE (R260). -/
theorem tokenSlot_isSome {s : State} {c e : Nat} (he : e < 256) (h : (s.token c e).use = .free) :
    (s.tokenSlot c).isSome = true := by
  have hm : e ∈ (List.range 256).filter fun e => (s.token c e).use == .free :=
    List.mem_filter.mpr ⟨List.mem_range.mpr he, by simp [h]⟩
  have hp := pick_isSome s 2 (List.ne_nil_of_mem hm)
  unfold State.tokenSlot
  obtain ⟨x, hx⟩ := Option.isSome_iff_exists.mp hp
  rw [hx]; rfl

end Sys2Proof.Laws
end

