-- ==== Sys2Proof/Tests/Slice0.lean ====
section
/-! SUPPORT. The tests: every encodable constructor decodes from a word written out from the encoding tables; the words that
the chapters refuse are refused; an ill-formed instruction fails each check of WellFormed; some worked examples of the
chapters; and for every statement a state and operands that meet its hypotheses together. -/

namespace Sys2Proof.Tests

open Sys2Proof Forms Machine Statements

set_option Elab.async false

/-! ### Decoding: words written out from the encoding tables -/

def words0 : List (Nat × Nat × Instr) :=
  [(64, 0x2E123C2C0941C401, .iadd ⟨.on true 9 3, .s32, true, .vbl 7 1, .bl 2, .s 5, .a⟩),
   (128, 0x000000123456789AB0000E060C410007, .isub ⟨.always, .u64, false, .s 4, .s 3, .imm, .w 0x123456789A⟩),
   (64, 0x0800001808404009, .imulLo ⟨.always, .s8, (), .v 1, .v 2, .v 3, .a⟩),
   (96, 0xAAAAAAAB20000E000040800E, .imulHi ⟨.always, .u32, (), .v 2, .v 0, .imm, .i 0xAAAAAAAB⟩),
   (96, 0xC48000001000080006000012, .imad ⟨.always, .u16, false, .bl 3, .v 1, .bl 0, .s (.s 9) 0⟩),
   (64, 0x3800000020418415, .iabs ⟨.always, .s64, true, .v 6, .v 8, .v 0, .a⟩),
   (64, 0x1800000020418019, .ineg ⟨.always, .s16, false, .v 6, .v 8, .v 0, .a⟩),
   (64, 0x000000482041801D, .imin ⟨.always, .u8, (), .v 6, .v 8, .v 9, .a⟩),
   (96, 0x0000000728000E0020418022, .imax ⟨.always, .s32, (), .v 6, .v 8, .imm, .i 7⟩),
   (96, 0x00000003B0000E062C450026, .iand ⟨.always, .u64, (), .s 20, .s 11, .imm, .i 3⟩),
   (64, 0x2000081BF87FC029, .ior ⟨.always, .u32, (), .v 255, .v 254, .bl 3, .a⟩),
   (64, 0x200000080400002D, .ixor ⟨.always, .u32, (), .none false, .v 1, .v 1, .a⟩),
   (64, 0xA0000006F84FC031, .inot ⟨.always, .u32, (), .s 63, .s 62, .v 0, .a⟩),
   (96, 0x00000005B0000E0628428036, .shl ⟨.always, .u64, (), .s 10, .s 10, .imm, .i 5⟩),
   (64, 0x2000003014410039, .shr ⟨.always, .u32, (), .v 4, .v 5, .v 6, .a⟩),
   (64, 0x280000301441003D, .sra ⟨.always, .s32, (), .v 4, .v 5, .v 6, .a⟩),
   (64, 0x2000003014410041, .rotl ⟨.always, .u32, (), .v 4, .v 5, .v 6, .a⟩),
   (96, 0xE00008082800000014410046, .bfe ⟨.always, .s32, (), .v 4, .v 5, .v 0, .s .imm 0x808⟩),
   (96, 0x03800000200000301441004A, .bfi ⟨.always, .u32, (), .v 4, .v 5, .v 6, .s (.v 7) 0⟩),
   (64, 0x300000001841004D, .popc ⟨.always, .u64, (), .v 4, .v 6, .v 0, .a⟩)]

theorem test_words0 : (words0.all fun e => decide (decodeTableWord e.1 e.2.1 = some e.2.2)) = true := by decide +kernel

def words1 : List (Nat × Nat × Instr) :=
  [(64, 0x2000000018410051, .clz ⟨.always, .u32, (), .v 4, .v 6, .v 0, .a⟩),
   (64, 0x1000000018410055, .ctz ⟨.always, .u16, (), .v 4, .v 6, .v 0, .a⟩),
   (64, 0x0000000018410059, .brev ⟨.always, .u8, (), .v 4, .v 6, .v 0, .a⟩),
   (64, 0xA8000C1018C5145D, .icmp ⟨.always, .s32, .ge, 20, 19, .v 6, .s 2, .a⟩),
   (96, 0x0A000003200000100441C062, .sel ⟨.always, .u32, (), .v 7, .v 1, .v 2, .s (.v 20) 3⟩),
   (64, 0x6000000030420065, .mov ⟨.always, .b128, (), .v 8, .v 12, .v 0, .a⟩),
   (128, 0x000000000010008830000000007E806B, .movi ⟨.always, .u64, (), .v 250, .v 0, .v 0, .w 0x100088⟩),
   (64, 0x200000060040886D, .lea ⟨.always, .u32, 2, .v 2, .s 0, .v 0, .a⟩),
   (64, 0x5000003020428081, .fadd ⟨.always, .f32, .rne, .v 10, .v 8, .v 6, .a⟩),
   (64, 0x5800003020428485, .fsub ⟨.always, .f64, .rtz, .v 10, .v 8, .v 6, .a⟩),
   (64, 0x4800003020428889, .fmul ⟨.always, .bf16, .rup, .v 10, .v 8, .v 6, .a⟩),
   (64, 0x4000003020428C91, .fdiv ⟨.always, .f16, .rdn, .v 10, .v 8, .v 6, .a⟩),
   (96, 0x02800000500000302042848E, .ffma ⟨.always, .f32, .rtz, .v 10, .v 8, .v 6, .s (.v 5) 0⟩),
   (64, 0x5000000020428095, .fsqrt ⟨.always, .f32, .rne, .v 10, .v 8, .v 0, .a⟩),
   (64, 0x5800000020428499, .frcp ⟨.always, .f64, .rtz, .v 10, .v 8, .v 0, .a⟩),
   (64, 0x480000002042889D, .frsqrt ⟨.always, .bf16, .rup, .v 10, .v 8, .v 0, .a⟩),
   (64, 0x4000000020428CA1, .fexp2 ⟨.always, .f16, .rdn, .v 10, .v 8, .v 0, .a⟩),
   (64, 0x50000000204280A5, .flog2 ⟨.always, .f32, .rne, .v 10, .v 8, .v 0, .a⟩),
   (64, 0x58000000204288C1, .frnd ⟨.always, .f64, .rup, .v 10, .v 8, .v 0, .a⟩),
   (128, 0x3FF000000000000058000E00204280AB, .fmin ⟨.always, .f64, (), .v 10, .v 8, .imm, .w 0x3FF0000000000000⟩)]

theorem test_words1 : (words1.all fun e => decide (decodeTableWord e.1 e.2.1 = some e.2.2)) = true := by decide +kernel

def words2 : List (Nat × Nat × Instr) :=
  [(96, 0x00003C0040000E00204280AE, .fmax ⟨.always, .f16, (), .v 10, .v 8, .imm, .i 0x3C00⟩),
   (64, 0xD0000006084040B1, .fabs ⟨.always, .f32, (), .s 1, .s 2, .v 0, .a⟩),
   (64, 0x50000004084040B5, .fneg ⟨.always, .f32, (), .v 1, .bl 2, .v 0, .a⟩),
   (64, 0xD800003013C0DCB9, .fcmp ⟨.always, .f64, .uno, 3, 31, .v 4, .v 6, .a⟩),
   (64, 0x580000001040C0BD, .fclass ⟨.always, .f64, (), .v 3, .v 4, .v 0, .a⟩),
   (96, 0x000000012800000008412902, .cvt ⟨.always, .s32, .f32, .v 4, .v 2, .v 0, .s (.v 0) 1⟩),
   (64, 0x08000C4810414105, .cvtq ⟨.always, .e4m3, .h16, .v 5, .v 4, .s 9, .a⟩),
   (64, 0x0000001E08800D09, .cvtx ⟨.always, .int3, .none, .bl 0, .s 2, .v 3, .a⟩),
   (64, 0x100000001041810D, .hadm ⟨.always, .e4m3, .h32, .v 6, .v 4, .v 0, .a⟩),
   (64, 0x1000000010420911, .sclFind ⟨.always, .int4, .h32, .v 8, .v 4, .v 0, .a⟩),
   (128, 0x00000000FFFFFFB80412100000000143, .bra ⟨.on false 9 1, 0xFFFFFFB8, 0⟩),
   (128, 0x00000010FFFFFFB80428000000000147, .brx ⟨.on false 20 0, 0xFFFFFFB8, 0x10⟩),
   (64, 0x0000000000000149, .join .always),
   (128, 0x000000000000004030000000004F014F, .call 60 ⟨.always, 0x40, 0⟩),
   (64, 0x30000000F84F054D, .callIndirect 60 (.v 62)),
   (64, 0x3000000624000151, .ret (.s 9)),
   (128, 0x00000000000000800000000000000157, .jmp ⟨.always, 0x80, 0⟩),
   (64, 0x3000000010000555, .jmpIndirect (.v 4)),
   (64, 0x05FFF00000000159, .exit (.on false 255 31)),
   (64, 0x000000000000015D, .yield .always)]

theorem test_words2 : (words2.all fun e => decide (decodeTableWord e.1 e.2.1 = some e.2.2)) = true := by decide +kernel

def words3 : List (Nat × Nat × Instr) :=
  [(64, 0x0000000000000161, .nop .always),
   (64, 0x0000000050431D65, .vote ⟨.always, .ballot, true, 12, 20, 0⟩),
   (96, 0x0000001020000E000D000D6A, .shfl ⟨.always, .u32, .xor, .bl 1, .v 3, .imm, .i 16⟩),
   (64, 0xF80000000042416D, .elect .always 9 31),
   (96, 0x000000401000000008420182, .ld ⟨.always, .g, .b32, (), .v 8, .v 2, .v 0, .i 0x40⟩),
   (64, 0x4000080818000185, .st ⟨.always, .s, .b8, (), .none false, .v 6, .bl 1, .a⟩),
   (64, 0x5800000014420189, .ldf ⟨.always, .s, .b64, (), .v 8, .v 5, .v 0, .a⟩),
   (64, 0x900000001042018D, .ldfk ⟨.always, .rs, .b32, (), .v 8, .v 4, .v 0, .a⟩),
   (64, 0x9800003610000191, .ste ⟨.always, .rs, .b64, (), .none false, .s 4, .v 6, .a⟩),
   (64, 0x58000C3010000195, .tagSet ⟨.always, .s, .b64, (), .none false, .v 4, .s 6, .a⟩),
   (64, 0x60000C3010000195, .tagSetTile ⟨.always, .s, .b128, (), .none false, .v 4, .s 6, .a⟩),
   (64, 0x5800000010424199, .tagRd ⟨.always, .s, .b64, (), .v 9, .v 4, .v 0, .a⟩),
   (64, 0x1800002008451D9D, .atom ⟨.always, .g, .b64, .cas, .v 20, .v 2, .v 4, .a⟩),
   (64, 0x90000020080021A1, .red ⟨.always, .rs, .b32, .fadd, .none false, .v 2, .v 4, .a⟩),
   (64, 0x00000000080005A5, .pf ⟨.always, .g, .b8, true, .none false, .v 2, .v 0, .a⟩),
   (64, 0x00000000080001A9, .clnWb ⟨.always, .g, .b8, (), .none false, .v 2, .v 0, .a⟩),
   (64, 0x00000000080005A9, .clnInv ⟨.always, .g, .b8, (), .none false, .v 2, .v 0, .a⟩),
   (64, 0x00000000080009A9, .clnWbinv ⟨.always, .g, .b8, (), .none false, .v 2, .v 0, .a⟩),
   (64, 0x0000000000000201, .phase .always),
   (64, 0x0000000000000205, .phaseRel .always)]

theorem test_words3 : (words3.all fun e => decide (decodeTableWord e.1 e.2.1 = some e.2.2)) = true := by decide +kernel

def words4 : List (Nat × Nat × Instr) :=
  [(64, 0x0000000000000209, .phaseAcq .always),
   (64, 0x000000000000020D, .drain .always),
   (64, 0x0000000000000225, .tbar .always),
   (96, 0x0000000140000E0610000212, .barInit ⟨.always, false, none, .s 4, .imm, .i 1⟩),
   (64, 0x800000061041C215, .barArr ⟨.always, true, some 7, .s 4, .v 0, .a⟩),
   (64, 0x40000CDE74000219, .barExp ⟨.always, false, none, .s 29, .s 27, .a⟩),
   (64, 0x40000CD81000021D, .barWait ⟨.always, false, none, .v 4, .s 27, .a⟩),
   (64, 0x4000000658000221, .barArrw ⟨.always, false, none, .s 22, .v 0, .a⟩),
   (128, 0x0000000800002B5980000CC654468643, .cpy ⟨.always, some 26, 21, 24, .g, .s, 0, false, false, 0, .barrier, none, none, none, some 22, some 25⟩),
   (128, 0x000003043840005980000CC654469247, .cpyTile ⟨.always, some 26, 21, 24, .s, .g, 1, true, false, 0, .none, some 3, some 2, none, none, some 25⟩),
   (128, 0x000028843840005980000CC65446864B, .cpyGth ⟨.always, some 26, 21, 24, .g, .s, 0x14, false, true, 0, .none, some 3, some 2, none, none, some 25⟩),
   (128, 0x00000A643840005980000CC65446924F, .cpySct ⟨.always, some 26, 21, 24, .s, .g, 5, false, false, 3, .none, some 3, some 2, none, none, some 25⟩),
   (128, 0x000000100000245980000CC654469253, .cpyRem ⟨.always, some 26, 21, 24, .s, .g, 0, false, false, 0, .counter, none, none, none, some 8, some 25⟩),
   (128, 0x000008000840005980000CC654469257, .cpyMcast ⟨.always, some 26, 21, 24, .s, .g, 4, false, false, 0, .none, none, some 2, none, none, some 25⟩),
   (128, 0x000014000012405980000CC65446925B, .cpyRed ⟨.always, some 26, 21, 24, .s, .g, 0xA, false, false, 0, .none, none, none, some 9, none, some 25⟩),
   (128, 0x0000040010000000800000064446165F, .sfeed ⟨.always, some 24, 5, some 17, none, 2, false, false, 0, .none, 2, 0, 0, none, none, none⟩),
   (64, 0x8000000668414681, .tokWait ⟨.always, 1, some 5, 26, 0⟩),
   (64, 0x8000000668414285, .tokTest ⟨.always, 0, some 5, 26, 0⟩),
   (64, 0x0000000668000289, .tokCancel ⟨.always, 0, none, 26, 0⟩),
   (64, 0x000000066800028D, .tokDetach ⟨.always, 0, none, 26, 0⟩)]

theorem test_words4 : (words4.all fun e => decide (decodeTableWord e.1 e.2.1 = some e.2.2)) = true := by decide +kernel

def words5 : List (Nat × Nat × Instr) :=
  [(64, 0x8000000000414691, .tokAdopt ⟨.always, 1, some 5, 0, 0⟩),
   (64, 0x00000C1E68000295, .tokPrio ⟨.always, 0, none, 26, 3⟩),
   (64, 0x00000CD66C000299, .tokAfter ⟨.always, 0, none, 27, 26⟩),
   (64, 0x800000066841429D, .tokResume ⟨.always, 0, some 5, 26, 0⟩),
   (64, 0x8000000668414EA1, .tokState ⟨.always, 3, some 5, 26, 0⟩),
   (128, 0x000000001080000080000000004642C3, .mma ⟨.always, some 25, 0, none, none, 0, false, false, 0, .none, 2, 0, 1, none, none, none⟩),
   (64, 0x0000000000000EC5, .accZero ⟨.always, 3, .none false, .v 0, .v 0⟩),
   (64, 0x00000006684802C9, .accRd ⟨.always, 0, .v 32, .s 26, .v 0⟩),
   (64, 0x000008100C0006CD, .accWr ⟨.always, 1, .none false, .v 3, .bl 2⟩),
   (64, 0x343C002008000301, .gspInj ⟨.on false 30 0, false, .none false, .v 2, .v 4, .a⟩),
   (64, 0x3000000008418305, .gspRd ⟨.always, false, .v 6, .v 2, .v 0, .a⟩),
   (64, 0x6000000600420309, .gspMass ⟨.always, false, .v 8, .s 0, .v 0, .a⟩),
   (128, 0x0000000010000000800000060045030F, .gspStep ⟨.always, some 20, 0, some 0, none, 0, false, false, 0, .none, 2, 0, 0, none, none, none⟩),
   (64, 0x8000000600458711, .gspSpread ⟨.always, true, .s 22, .s 0, .v 0, .a⟩),
   (64, 0x280000301040C321, .strCmp ⟨.always, .s32, (), .v 3, .v 4, .v 6, .a⟩),
   (64, 0x3000002038C50325, .strEq ⟨.always, .u64, (), 20, 3, .v 14, .v 4, .a⟩),
   (64, 0x34280C1810420329, .strHash ⟨.on false 20 0, .u64, (), .v 8, .v 4, .s 3, .a⟩),
   (64, 0x200008081042032D, .strFind ⟨.always, .u32, (), .v 8, .v 4, .bl 1, .a⟩),
   (64, 0x3000000010428331, .strPfx ⟨.always, .u64, (), .v 10, .v 4, .v 0, .a⟩),
   (64, 0xB0000C1E08404335, .hashI64 ⟨.always, .u64, (), .s 1, .s 2, .s 3, .a⟩)]

theorem test_words5 : (words5.all fun e => decide (decodeTableWord e.1 e.2.1 = some e.2.2)) = true := by decide +kernel

def words6 : List (Nat × Nat × Instr) :=
  [(64, 0x20000C2020428339, .partIdx ⟨.always, .u32, (), .v 10, .v 8, .s 4, .a⟩),
   (96, 0x000000200000000700000342, .grow .regs .imm (.i 0x20)),
   (64, 0x0000000000002F45, .shrink (.stream 3) (.v 0) .a),
   (64, 0x3000006610428349, .launch .always (some 10) 4 12),
   (64, 0x000000061000034D, .launchFlush .always 4),
   (64, 0x80000C1604450351, .depAdd .always (some 20) 1 (.s 2) .a),
   (96, 0x0000000100000E0604000356, .depSub .always none 1 .imm (.i 1)),
   (64, 0x8800000000428359, .rdsr .always (.s 10) .group),
   (96, 0x000000090000000700000382, .sys .always .imm (.i 9)),
   (64, 0x000000001C000385, .trap .always (.v 7) .a),
   (64, 0x0000000000000389, .sigret .always),
   (64, 0x000000061C00038D, .brk .always (.s 7) .a),
   (64, 0x2000001000404391, .rdcr ⟨.always, false, 2, .v 1, .v 0⟩),
   (64, 0x3000000E14000795, .wrcr ⟨.always, true, 0x101, .none false, .s 5⟩),
   (64, 0xB00000000040C399, .park ⟨.always, 0, some 3, none, none⟩),
   (64, 0x000000060C000B9D, .unpark ⟨.always, 2, none, some 3, none⟩),
   (64, 0x00000C260C0003A1, .tlbi ⟨.always, 0, none, some 3, some 4⟩),
   (64, 0x00000C260C0003A5, .ctxSave ⟨.always, 0, none, some 3, some 4⟩),
   (64, 0x00000C260C0003A9, .ctxLoad ⟨.always, 0, none, some 3, some 4⟩),
   (64, 0xB00000060C4143AD, .teamOut ⟨.always, 0, some 5, some 3, none⟩)]

theorem test_words6 : (words6.all fun e => decide (decodeTableWord e.1 e.2.1 = some e.2.2)) = true := by decide +kernel

def words7 : List (Nat × Nat × Instr) :=
  [(64, 0xB00000060C4143B1, .teamIn ⟨.always, 0, some 5, some 3, none⟩),
   (64, 0x000000060C000BB5, .halt ⟨.always, 2, none, some 3, none⟩),
   (64, 0x000000060C000FB5, .haltRelease ⟨.always, 3, none, some 3, none⟩),
   (96, 0x000000070000001F000003C2, .trace .always .imm 3 (.i 7)),
   (64, 0x00000006140003C5, .mark .always (.s 5) .a),
   (96, 0x0000000780000007004307CA, .rdctr .always true (.s 12) .imm (.i 7))]

theorem test_words7 : (words7.all fun e => decide (decodeTableWord e.1 e.2.1 = some e.2.2)) = true := by decide +kernel

/-! ### Refused words and ill-formed instructions -/

/-- Words that the chapters name as ill formed, in the order of the chapters. -/
def refused1 : List (Nat × Nat) :=
  [(64, 0x5800004820428091), (64, 0x20000C180005185D), (96, 0xA000023200000100441C062),
   (96, 0x12800000008411502), (64, 0x200000000440886D), (64, 0x2800001004414411), (64, 0x6000000000428359),
   (128, 0x10000000100000000000000143), (64, 0x34020000F0000151), (64, 0x30000000F84F454D),
   (64, 0xD000000008420181), (64, 0x1800000008424181), (64, 0x10000E0008420181), (64, 0x8000000658000221),
   (64, 0x2000002008451D9D), (64, 0x10000020080019A1), (64, 0x1000002008001DA1),
   (128, 0x1800002B5980000CC654468643), (128, 0x2B5980000CC654468643), (128, 0x808202B5980000CC654468643),
   (128, 0x8043840005980000CC65446A64B), (64, 0x8000000068414681), (128, 0x1000000080000000004642C3),
   (128, 0x81080218080000000004642C3)]

theorem test_refused1 : (refused1.all fun e => decide (decode (leBytes 16 e.2) = .error .form)) = true := by decide +kernel

def refused2 : List (Nat × Nat) :=
  [(128, 0x40000000000800000063445C25F), (128, 0x4001000000080000C263445C25F), (64, 0x50000006684802C9),
   (64, 0x1041810D), (64, 0x8000C4810415105), (64, 0x343C00000841C305), (64, 0x6000000600428309),
   (128, 0x810000000800000060045030F), (64, 0x8000000600458B11), (64, 0x343C0E0008000301),
   (96, 0x34280C181042032A), (64, 0x34280C1814420329), (64, 0xA4280C202042C339), (64, 0x2000002038C50325),
   (64, 0x3000000810428331), (64, 0x280000340040C321), (64, 0x300007FE14000395), (64, 0x3000006E10428349),
   (64, 0xC1604450355), (64, 0x1000034D), (96, 0x78000000700430BCA), (96, 0x700000807000003C2),
   (64, 0xE140003C5), (64, 0x404161), (64, 0x561)]

theorem test_refused2 : (refused2.all fun e => decide (decode (leBytes 16 e.2) = .error .form)) = true := by decide +kernel

/-- A plain arithmetic instruction of the tests. -/
def alu1 {F : Type} (f : F) (ty : Ty) (d : Dst) (a b : Src) (x : Ext) : Alu F := ⟨.always, ty, f, d, a, b, x⟩

/-- Ill-formed arithmetic: a type, form, base, destination or immediate that the entry does not list. -/
def illArith : List Instr :=
  [.iadd (alu1 false .f32 (.v 1) (.v 2) (.v 3) .a), .isub (alu1 false .u64 (.v 1) (.v 2) (.v 4) .a),
   .imulLo (alu1 () .u32 (.v 1) .imm .imm (.i 1)), .imulHi (alu1 () .u32 (.v 1) (.v 2) (.v 3) (.i 1)),
   .imad (alu1 false .u32 (.v 1) (.v 2) (.v 3) .a), .iabs (alu1 false .u32 (.v 1) (.v 2) (.v 0) .a),
   .ineg (alu1 false .s32 (.v 1) (.v 2) (.v 1) .a), .imin (alu1 () .b128 (.v 4) (.v 8) (.v 12) .a),
   .imax (alu1 () .u32 (.v 1) (.v 2) .imm (.w 1)), .iand (alu1 () .u64 (.bl 1) (.v 2) (.v 4) .a),
   .ior (alu1 () .u32 (.s 1) (.v 2) (.s 4) .a), .ixor (alu1 () .u64 (.v 2) (.bl 2) (.v 4) .a),
   .inot (alu1 () .u32 (.v 1) (.v 2) (.v 0) (.i 0)), .shl (alu1 () .f32 (.v 1) (.v 2) (.v 3) .a),
   .shr (alu1 () .u64 (.v 1) (.v 2) (.v 4) .a), .sra (alu1 () .u32 (.v 1) .imm (.v 3) .a),
   .rotl (alu1 () .u64 (.vbl 2 1) (.v 2) (.v 4) .a), .bfe (alu1 () .u32 (.v 1) (.v 2) (.v 3) (.s (.v 4) 0)),
   .bfi (alu1 () .u32 (.v 1) (.v 2) (.v 3) (.s (.v 4) 1)), .popc (alu1 () .f32 (.v 1) (.v 2) (.v 0) .a),
   .clz (alu1 () .u64 (.v 1) (.v 2) (.v 0) .a), .ctz (alu1 () .u32 (.v 1) .imm (.v 0) .a),
   .brev (alu1 () .u32 (.s 1) (.v 2) (.v 0) .a), .icmp ⟨.always, .u32, .ord, 1, 1, .v 1, .v 2, .a⟩,
   .sel (alu1 () .u32 (.v 1) (.v 2) (.v 3) (.s .imm 3)), .mov (alu1 () .b128 (.bl 1) (.v 4) (.v 0) .a),
   .movi (alu1 () .u32 (.v 1) (.v 0) (.v 0) (.w 1)), .lea (alu1 2 .u32 (.v 3) (.v 2) (.v 4) .a)]

/-- Ill-formed floating-point and narrow instructions. -/
def illFloat : List Instr :=
  [.fadd (alu1 .rne .u32 (.v 1) (.v 2) (.v 3) .a), .fsub (alu1 .rne .f64 (.v 2) (.v 3) (.v 4) .a),
   .fmul (alu1 .rne .bf16 (.v 2) (.v 3) .imm (.w 1)), .ffma (alu1 .rne .f32 (.v 2) (.v 3) (.v 4) .a),
   .fdiv (alu1 .rne .b128 (.v 4) (.v 8) (.v 12) .a), .fsqrt (alu1 .rne .f32 (.v 2) .imm (.v 0) (.i 1)),
   .frcp (alu1 .rne .f32 (.v 2) (.v 3) (.v 1) .a), .frsqrt (alu1 .rne .s32 (.v 2) (.v 3) (.v 0) .a),
   .fexp2 (alu1 .rne .f64 (.v 2) (.v 4) (.v 0) .a), .flog2 (alu1 .rne .f64 (.v 2) (.v 4) (.v 0) .a),
   .fmin (alu1 () .u32 (.v 2) (.v 4) (.v 0) .a), .fmax (alu1 () .f64 (.s 2) (.v 4) (.v 0) .a),
   .fabs (alu1 () .f64 (.v 3) (.v 4) (.v 0) .a), .fneg (alu1 () .f32 (.v 3) (.v 4) .imm (.i 0)),
   .fcmp ⟨.always, .f16, .eq, 1, 1, .v 1, .v 2, .a⟩, .fclass (alu1 () .u32 (.v 3) (.v 4) (.v 0) .a),
   .frnd (alu1 .rne .f32 (.v 3) (.v 4) (.v 0) (.i 0)), .cvt (alu1 .s32 .s32 (.v 3) (.v 4) (.v 0) .a),
   .cvtq ⟨.always, .ue5m3, .none, .v 1, .v 2, .v 3, .a⟩, .cvtx ⟨.always, .e4m3, .h16, .v 1, .v 2, .v 3, .a⟩,
   .hadm ⟨.always, .e4m3, .none, .v 1, .v 2, .v 0, .a⟩, .sclFind ⟨.always, .e4m3, .none, .v 1, .s 2, .v 0, .a⟩]

/-- Ill-formed control and memory instructions. -/
def illControl : List Instr :=
  [.bra ⟨.always, 4, 4⟩, .brx ⟨.always, 2, 4⟩, .call 61 ⟨.always, 4, 0⟩, .callIndirect 60 (.v 61), .ret (.bl 1),
   .jmp ⟨.on false 1 1, 4, 0⟩, .jmpIndirect .imm, .vote ⟨.always, .any, true, 64, 1, 1⟩,
   .shfl (alu1 .idx .u32 (.v 1) (.s 2) (.v 3) .a), .ld ⟨.always, .g, .b32, (), .s 1, .v 2, .v 0, .a⟩,
   .st ⟨.always, .g, .b32, (), .none false, .v 3, .v 1, .a⟩, .ldf ⟨.always, .g, .b32, (), .v 1, .v 2, .v 0, .a⟩,
   .ldfk ⟨.always, .s, .b8, (), .v 1, .v 2, .v 0, .a⟩, .ste ⟨.always, .s, .b32, (), .none false, .v 2, .imm, .i 1⟩,
   .tagSet ⟨.always, .s, .b32, (), .none false, .v 2, .v 3, .a⟩,
   .tagSetTile ⟨.always, .s, .b64, (), .none false, .v 2, .v 3, .a⟩, .tagRd ⟨.always, .g, .b64, (), .v 1, .v 2, .v 0, .a⟩,
   .atom ⟨.always, .g, .b8, .add, .v 1, .v 2, .v 3, .a⟩, .red ⟨.always, .g, .b32, .exch, .none false, .v 2, .v 3, .a⟩,
   .pf ⟨.always, .s, .b8, false, .none false, .v 2, .v 0, .a⟩, .clnWb ⟨.always, .g, .b32, (), .none false, .v 2, .v 0, .a⟩,
   .clnInv ⟨.always, .g, .b8, (), .v 1, .v 2, .v 0, .a⟩, .clnWbinv ⟨.always, .g, .b8, (), .none false, .v 3, .v 0, .a⟩,
   .barInit ⟨.always, false, some 1, .s 1, .s 2, .a⟩, .barArr ⟨.always, false, none, .s 1, .s 2, .a⟩,
   .barExp ⟨.always, true, none, .v 3, .s 2, .a⟩, .barWait ⟨.always, true, none, .s 1, .s 2, .a⟩,
   .barArrw ⟨.always, true, none, .s 1, .v 0, .a⟩]

/-- Ill-formed engine, token, accumulator, gossip and string instructions. -/
def illEngine : List Instr :=
  let c := fun (fp : BitVec 13) (ss ds : CSpace) (lk : LinkKind) (y x l : Option (BitVec 6)) =>
    (⟨.always, some 1, 2, 3, ss, ds, fp, false, false, 0, lk, y, x, none, none, l⟩ : CpyOp)
  let e := fun (fn : BitVec 4) (a b : Option (BitVec 6)) (fp : BitVec 13) (n : BitVec 8) (fa fb : BitVec 2) =>
    (⟨.always, some 1, fn, a, b, fp, false, false, 0, .none, n, fa, fb, none, none, none⟩ : EngOp2)
  [.cpy (c 0 .g .s .barrier none none (some 4)), .cpyTile (c 2 .g .s .none (some 1) (some 2) (some 4)),
   .cpyGth (c 2 .g .s .none (some 1) (some 2) (some 4)), .cpySct (c 0x24 .g .s .none (some 1) (some 2) (some 4)),
   .cpyRem (c 0 .r .g .none none none (some 4)), .cpyMcast (c 8 .g .g .none none (some 2) (some 4)),
   .cpyRed (c 0 .g .g .none none none (some 4)), .sfeed (e 0 none none 2 2 0 0), .mma (e 0 none none 0 2 1 1),
   .gspStep (e 0 (some 1) none 0 0 0 0), .tokWait ⟨.always, 2, none, 1, 0⟩, .tokTest ⟨.always, 0, none, 1, 0⟩,
   .tokCancel ⟨.always, 0, none, 1, 1⟩, .tokDetach ⟨.always, 0, some 1, 1, 0⟩, .tokAdopt ⟨.always, 0, none, 0, 0⟩,
   .tokPrio ⟨.always, 1, none, 0, 0⟩, .tokAfter ⟨.always, 0, some 1, 0, 0⟩, .tokResume ⟨.always, 1, none, 0, 0⟩,
   .tokState ⟨.always, 4, some 1, 0, 0⟩, .accZero ⟨.always, 0, .v 1, .v 0, .v 0⟩, .accRd ⟨.always, 0, .s 1, .v 0, .v 0⟩,
   .accWr ⟨.always, 0, .none false, .bl 1, .v 0⟩, .gspInj ⟨.always, true, .none false, .v 2, .v 4, .a⟩,
   .gspRd ⟨.always, false, .v 7, .v 2, .v 0, .a⟩, .gspMass ⟨.always, false, .v 10, .v 2, .v 0, .a⟩,
   .gspSpread ⟨.always, false, .v 2, .v 3, .v 0, .a⟩, .strCmp (alu1 () .u32 (.v 1) (.v 2) (.v 4) .a),
   .strEq ⟨.always, .u32, (), 1, 1, .v 2, .v 4, .a⟩, .strHash (alu1 () .u64 (.v 1) (.v 2) (.v 4) .a),
   .strFind (alu1 () .u32 (.v 1) (.v 2) .imm (.i 1)), .strPfx (alu1 () .u64 (.v 2) (.v 2) (.v 4) .a),
   .hashI64 (alu1 () .u64 (.s 2) (.v 2) (.s 4) .a), .partIdx (alu1 () .u32 (.s 2) (.v 2) (.s 4) .a)]

/-- Ill-formed resource, launch, trap and privileged instructions, and device steps that name what does not exist. -/
def illSystem : List Instr :=
  [.grow .regs (.v 1) .a, .shrink (.acc 1) (.s 1) .a, .launch .always (some 11) 4 12, .depAdd .always none 1 (.v 2) .a,
   .depSub .always none 1 .imm .a, .rdsr .always (.none false) .lane, .rdsr .always (.v 3) .clock, .sys .always (.bl 1) .a,
   .trap .always .imm .a, .brk .always (.v 1) (.i 1), .rdcr ⟨.always, true, 0xFF, .s 1, .v 0⟩,
   .wrcr ⟨.always, true, 0x201, .none false, .s 1⟩, .park ⟨.always, 2, some 1, none, none⟩,
   .unpark ⟨.always, 5, none, some 1, none⟩, .tlbi ⟨.always, 0, none, some 1, none⟩,
   .ctxSave ⟨.always, 0, none, some 1, none⟩, .ctxLoad ⟨.always, 1, none, some 1, some 2⟩,
   .teamOut ⟨.always, 0, none, some 1, none⟩, .teamIn ⟨.always, 0, some 1, some 1, some 2⟩,
   .halt ⟨.always, 1, none, some 1, none⟩, .haltRelease ⟨.always, 0, none, some 1, none⟩, .trace .always (.v 1) 2 .a,
   .mark .always .imm .a, .rdctr .always false (.none false) (.s 1) .a] ++
  [.reconvergenceCheck 192 0, .growGrant 0 3, .zeroFillService 0 2048, .hostMessagePost (.waiting 65536),
   .tokresolveResume 0 0 256 0, .rotation 0 64, .teamSwapInDispatch 65536 0 0, .watchdogExpiry 65536, .tokenStart 0 256,
   .qctlEnable 1024, .manifest 1024 0, .packetRetire 1024 0, .copy 0 0 192, .dealChunk 0 192, .teamAdmit 0 0 [192],
   .manifestWindowExpiry 65536 0, .resolve 65536 0, .swapreqIn 0 0 192, .homeRequest ⟨1024, 0, 0, .readLine⟩,
   .portFailure 16, .routeDownSet 1024, .timeMessageReceive 16 0 0, .gsparmArm 256, .half ⟨1024, 0, 0, 0, false, 0, [], 0⟩,
   .halfAck 0 8 0, .recall 256 0 0 0, .coresvcDrain 192, .hbmUncorrectableError 0 0 64 0 0]

theorem test_ill_formed : (illArith ++ illFloat ++ illControl ++ illEngine ++ illSystem).all (fun i => !wellFormed i) = true := by
  decide +kernel

/-! ### States for the witnesses -/

/-- A `nop` at 0x100000 and four levels of page tables from 0x200000, whose leaf maps 2 MiB at 0. -/
def tables : Store Byte :=
  [(0x100000, 0x61), (0x100001, 1), (0x200000, 1), (0x200001, 0x10), (0x200002, 0x20), (0x201000, 1), (0x201001, 0x20),
   (0x201002, 0x20), (0x202000, 1), (0x202001, 0x30), (0x202002, 0x20), (0x203000, 0x7F), (0x203006, 0x10)]

theorem test_tables : (State.reset.withFetchWord 64 0x161).mem = tables := by decide +kernel

/-- Group 0 of core 0 in user mode, its 32 lanes READY at 0x100000. -/
def user : State := { State.reset.withFetchWord 64 0x161 with mem := tables }

/-- The same group holding all its accumulators and streams, with some scalars. -/
def rich (f : Group → Group) : State := user.onMe fun g => f { g with accHeld := 15, strHeld := 15 }

/-- The supervisor group of core 0, with scalars. -/
def boss (f : Group → Group) : State :=
  let s := { State.reset.withFetchWord 64 0xB00000000040C399 with mem := tables, cur := ⟨0, Config.supervisorSlot, 0⟩ }
  s.onMe f

/-- Group 1 beside group 0 in its team, or another state of the other slot. -/
def both (x : Slot) : State := user.onMe fun g => { g with slot1 := x }

def aluU : Alu Unit := ⟨.always, .u32, (), .v 4, .v 5, .v 6, .a⟩
def aluB (x : Ext) : Alu Bool := ⟨.always, .s32, true, .v 4, .v 5, .v 6, x⟩
def aluF (x : Ext) : Alu Rm := ⟨.always, .f32, .rne, .v 4, .v 5, .v 6, x⟩
def narrow : Narrow := ⟨.always, .e4m3, .h16, .v 5, .v 4, .s 9, .a⟩

/-- Every instruction of a list issues in a state. -/
def issues (s : State) (l : List Instr) : Bool := l.all fun i => issuable i s

/-! ### Witnesses of the hypotheses -/

theorem test_meets_AddAndMultiply :
    issues user [.imulLo aluU, .imulHi aluU, .iadd (aluB .a), .isub (aluB .a), .imad (aluB (.s (.v 7) 0)), .iabs ⟨.always, .s32, true, .v 4, .v 5, .v 0, .a⟩,
      .ineg ⟨.always, .s32, true, .v 4, .v 5, .v 0, .a⟩] = true := by decide +kernel

theorem test_meets_BitOperations :
    issues user [.imin aluU, .imax aluU, .iand aluU, .ior aluU, .ixor aluU, .inot { aluU with b := .v 0 }, .shl aluU,
      .shr aluU, .sra aluU, .rotl aluU, .bfe { aluU with b := .v 0, x := .s .imm 0x808 }, .bfi { aluU with x := .s (.v 7) 0 },
      .popc { aluU with b := .v 0 }, .clz { aluU with b := .v 0 }, .ctz { aluU with b := .v 0 },
      .brev { aluU with b := .v 0 }] = true := by decide +kernel

theorem test_meets_CompareSelectMove :
    issues user [.icmp ⟨.always, .s32, .ge, 20, 19, .v 6, .s 2, .a⟩, .sel { aluU with x := .s (.v 20) 3 },
      .mov ⟨.always, .b128, (), .v 8, .v 12, .v 0, .a⟩, .movi ⟨.always, .u32, (), .v 8, .v 0, .v 0, .i 7⟩,
      .movi ⟨.always, .u64, (), .v 250, .v 0, .v 0, .w 0x100088⟩, .lea ⟨.always, .u32, 2, .v 2, .s 0, .v 0, .a⟩] = true := by
  decide +kernel

theorem test_meets_FloatArithmetic :
    let o := aluF .a
    (issues user [.fadd o, .fsub o, .fmul o, .ffma (aluF (.s (.v 7) 0)), .fdiv o, .fsqrt { o with b := .v 0 },
      .frcp { o with b := .v 0 }, .frsqrt { o with b := .v 0 }, .fexp2 { o with b := .v 0 }, .flog2 { o with b := .v 0 }] = true)
    ∧ quietLanes o.g (fun l => perElem o.ty (fun k => (fmtOf o.ty).div o.f (fpA user o l k) (fpB user o l k))) user := by
  constructor
  · decide +kernel
  · unfold quietLanes; decide +kernel

theorem test_meets_FloatOther :
    let c : Alu Ty := ⟨.always, .f32, .s32, .v 4, .v 5, .v 0, .a⟩
    (issues user [.fmin { aluU with ty := .f32 }, .fmax { aluU with ty := .f32 }, .frnd { aluF .a with b := .v 0 },
      .fabs { aluU with ty := .f32, b := .v 0 }, .fneg { aluU with ty := .f32, b := .v 0 },
      .fclass { aluU with ty := .f32, b := .v 0 }, .cvt c] = true)
    ∧ quietLanes c.g (fun l => cvtValue c.ty c.f (cvtMode c.x) (user.me.src l (regBits c.f) 0 c.a)) user := by
  constructor
  · decide +kernel
  · unfold quietLanes; decide +kernel

theorem test_meets_FloatCompare :
    let o : BitOp Cond := ⟨.always, .f32, .lt, 20, 19, .v 6, .v 7, .a⟩
    issuable (.fcmp o) user = true
    ∧ quietLanes o.g (fun l => (0, ((fmtOf o.ty).cmp o.f (elemOf o.ty 0 (user.me.arg l o.ty o.x o.a))
        (elemOf o.ty 0 (user.me.arg l o.ty o.x o.b))).2)) user
    ∧ isFloat .f32 = true ∧ ((fmtOf .f32).read 0x7FC00000).isNan = true := by
  refine ⟨by decide +kernel, ?_, by decide +kernel, by decide +kernel⟩
  unfold quietLanes; decide +kernel

theorem test_meets_NarrowFormats :
    issues user [.cvtq narrow, .cvtx ⟨.always, .e4m3, .none, .v 5, .v 4, .s 9, .a⟩, .hadm ⟨.always, .e4m3, .h16, .v 5, .v 4, .v 0, .a⟩,
      .sclFind ⟨.always, .e4m3, .h16, .v 5, .v 4, .v 0, .a⟩] = true
    ∧ quietLanes .always (fun l => hadmValue .h16 (user.me.fp32At (.v 4)) l) user := by
  constructor
  · decide +kernel
  · unfold quietLanes; decide +kernel

theorem test_meets_FloatSpecials_nan :
    isFloat .f16 = true ∧ isFloat .f64 = true ∧ ((fmtOf .f32).read 0x7F800001).isSnan = true
      ∧ ((fmtOf .f32).read ((fmtOf .f32).add .rne 0x7F800000 0xFF800000).1).isNan = true := by decide +kernel

theorem test_meets_FloatSpecials :
    isFloat .f32 = true ∧ (fmtOf .f32).read 0x80000001 = .num true 1 (-149) ∧ (fmtOf .f32).read 0xC0000000 ≠ .num true 0 0 := by
  decide +kernel

/-- Two of FP32 is a finite positive operand, an integer and a power of two; FP32 has NaNs and infinities to convert. -/
theorem test_meets_RoundedOnce :
    isFloat .f32 = true ∧ (fmtOf .f32).read 0x40000000 = .num false 0x800000 (-22) ∧ (0x800000 : Nat) ≠ 0
    ∧ ((valOf ((fmtOf .f32).read 0x40000000) : ℚ) : ℝ) = (2 : ℤ) ∧ ((valOf ((fmtOf .f32).read 0x40000000) : ℚ) : ℝ) = (2 : ℝ) ^ (1 : ℤ)
    ∧ isInt .s8 = true ∧ isInt .u64 = true ∧ finite ((fmtOf .f32).read (elemOf .f32 0 0x40000000))
    ∧ ((fmtOf .f32).read (elemOf .f32 0 0x7FC00000)).isNan = true ∧ (fmtOf .f32).read (elemOf .f32 0 0xFF800000) = .inf true := by
  have h : (fmtOf .f32).read 0x40000000 = .num false 0x800000 (-22) := by decide +kernel
  have v : valOf ((fmtOf .f32).read 0x40000000) = 2 := by rw [h]; norm_num [valOf]
  refine ⟨rfl, h, by decide, by rw [v]; norm_num, by rw [v]; norm_num, rfl, rfl, ⟨false, 0x800000, -22, ?_⟩, ?_, ?_⟩ <;> decide +kernel

/-- Finite, infinite and NaN operands of the narrow formats: 1 is 0x38 in E4M3 and 0x78 in UE5M3. -/
theorem test_meets_NarrowRounding :
    let one := narrowVal .ue5m3 0x78
    let s : Slice := ⟨0, false, false, [], []⟩
    finite (narrowVal .e4m3 0x38) ∧ finite one ∧ valOf one ≠ 0 ∧ (narrowVal .ue5m3 0xFF).isNan = true
    ∧ valOf (narrowVal .ue5m3 0) = 0 ∧ NFmt.e4m3 ≠ .ue5m3
    ∧ (∀ m, m < (blockOf .h16).1 → finite ((fun _ => one) (3 - 3 % 16 + m)))
    ∧ (∃ v ∈ [FVal.nan false], v.isNan = true) ∧ (∃ v ∈ [FVal.inf true], ∃ n, v = .inf n) ∧ (∀ v ∈ [FVal.inf true], v.isNan = false)
    ∧ (∃ v ∈ [FVal.num true 1 27], 114688 * greatestOf .e4m3 < |valOf v|)
    ∧ (∃ v ∈ [one], valOf v ≠ 0) ∧ (∀ v ∈ [one], |valOf v| ≤ 114688 * greatestOf .e4m3)
    ∧ ∀ x, x < 16 → ∀ v ∈ factors 0 s s 0 0 x, finite v := by
  have h1 : narrowVal .ue5m3 0x78 = .num false 8 (-3) := by decide +kernel
  have v1 : valOf (narrowVal .ue5m3 0x78) = 1 := by rw [h1]; norm_num [valOf]
  have f1 : finite (narrowVal .ue5m3 0x78) := ⟨_, _, _, h1⟩
  have z : narrowVal .e4m3 (0 : Byte).toNat = .num false 0 (-9) := by decide +kernel
  have z5 : valOf (narrowVal .ue5m3 0) = 0 := by
    rw [(by decide +kernel : narrowVal .ue5m3 0 = .num false 0 (-17))]; norm_num [valOf]
  refine ⟨⟨false, 8, -3, by decide +kernel⟩, f1, by rw [v1]; norm_num, by decide +kernel, z5, by decide, fun _ _ => f1,
    ⟨_, List.mem_singleton.mpr rfl, rfl⟩, ⟨_, List.mem_singleton.mpr rfl, _, rfl⟩, fun v hv => by rw [List.mem_singleton.mp hv]; rfl,
    ⟨_, List.mem_singleton.mpr rfl, by norm_num [valOf, greatestOf]⟩, ⟨_, List.mem_singleton.mpr rfl, by rw [v1]; norm_num⟩,
    fun v hv => by rw [List.mem_singleton.mp hv, v1]; norm_num [greatestOf], fun x _ v hv => ?_⟩
  simp only [factors, sliceVal, List.getD_nil, z] at hv
  simp only [Nat.reduceLT, ite_true, List.append_nil, List.mem_cons, List.not_mem_nil, or_false, or_self] at hv
  exact ⟨_, _, _, hv⟩

theorem test_meets_JumpsAndNops :
    issues user [.bra ⟨.always, 0x40, 0⟩, .bra ⟨.on false 20 0, 0x40, 0⟩, .jmp ⟨.always, 0x40, 0⟩, .nop .always, .yield .always,
      .join .always] = true
    ∧ user.me.active user.mySlot.mask (.on false 20 0) = 0 ∧ user.me.active user.mySlot.mask .always = user.mySlot.mask := by
  decide +kernel

/-- A guard bit set in lanes 0 to 15. -/
def half16 : State := user.onMe fun g => { g with v := ((List.range 16).map fun l => (32 * 20 + l, 1)) }

theorem test_meets_BranchDivides :
    issuable (.brx ⟨.on false 20 0, 0x68, 0x68⟩) half16 = true ∧ half16.aloneInGroup = true ∧ half16.mySlot.rcv = noRcv
      ∧ half16.me.active half16.mySlot.mask (.on false 20 0) = 0x0000FFFF := by decide +kernel

/-- Lanes 0 to 15 hold one target in v62 and v63, the others another. -/
def twoTargets : State := user.onMe fun g => { g with v := ((List.range 16).map fun l => (32 * 62 + l, 0x200)) }

theorem test_meets_CallsAndReturns :
    issues twoTargets [.call 60 ⟨.always, 0x40, 0⟩, .callIndirect 60 (.v 62), .ret (.v 62), .jmpIndirect (.v 62)] = true
      ∧ canTransfer twoTargets (.v 62) ∧ canTransfer twoTargets (.s 5) ∧ twoTargets.flowTraced = false := by
  unfold canTransfer; decide +kernel

theorem test_meets_GroupInstructions :
    issues user [.vote ⟨.always, .ballot, false, 4, 5, 31⟩, .vote ⟨.always, .any, true, 4, 5, 0⟩,
      .shfl ⟨.always, .u32, .idx, .v 4, .v 5, .v 6, .a⟩, .elect .always 20 31, .rdsr .always (.v 248) .stack,
      .rdsr .always (.s 4) .lane] = true := by decide +kernel

theorem test_meets_LanesExit :
    let rest := fun (s : State) (g : Guard) => s.mySlot.mask &&& ~~~s.me.active s.mySlot.mask g
    let gone := fun (s : State) => (s.onMe fun x => x.setSlot s.cur.slot .empty).allExited s.cur.core s.cur.gslot
    let spilled := user.onMe fun g => { g with depth := 1 }
    let loading := user.onMe fun g => { g with outstanding := 1 }
    (issuable (.exit (.on false 20 0)) half16 = true ∧ half16.me.active half16.mySlot.mask (.on false 20 0) ≠ 0
      ∧ rest half16 (.on false 20 0) ≠ 0)
    ∧ (issuable (.exit .always) spilled = true ∧ rest spilled .always = 0 ∧ gone spilled = false)
    ∧ (issuable (.exit .always) user = true ∧ rest user .always = 0 ∧ gone user = true
      ∧ (user.tryEnd user.cur.core user.cur.gslot).2 = true)
    ∧ (issuable (.exit .always) loading = true ∧ rest loading .always = 0 ∧ gone loading = true
      ∧ (loading.tryEnd loading.cur.core loading.cur.gslot).2 = false) := by decide +kernel

theorem test_meets_PhasesComplete :
    issues user [.phaseRel .always, .phaseAcq .always, .phase .always] = true ∧ user.me.active user.mySlot.mask .always ≠ 0
      ∧ user.tryRelease.2 = true ∧ user.tryRelease.1.readsReturned = true ∧ user.readsReturned = true
      ∧ user.tryRelease.1.me.reports (user.me.active user.mySlot.mask .always) = [] := by decide +kernel

/-- A barrier word of one arrival at offset 64, its tag BARRIER; s4 names it. -/
def withBarrier : State :=
  (user.onTeam 0 0 fun t => (t.setWord 64 (bwMake false 1 1 0)).setTag 64 3).onMe fun g => g.setSreg 4 64

def barOp : Bar := ⟨.always, false, none, .s 4, .v 0, .a⟩

theorem test_meets_BarrierWords :
    let i : Bar := ⟨.always, false, none, .s 4, .imm, .i 2047⟩
    (barAt (.barInit i) i .init withBarrier 0 0 64 ∧ (withBarrier.me.barValue i).toNat = 2047)
    ∧ (barAt (.barArr barOp) barOp .word withBarrier 0 0 64 ∧ plainWord withBarrier 0 0 64
        ∧ bwArr ((withBarrier.team 0 0).word 64) ≠ 0)
    ∧ (barAt (.barExp i) i .word withBarrier 0 0 64) := by
  intro i
  unfold barAt plainWord
  exact (by decide +kernel)

/-- Group 1 of the team waits at the team barrier. -/
def teamWaits : State :=
  (user.onTeam 0 0 fun t => { t with groups := 2 }).setGroup 0 1
    { user.me with number := 1, slot0 := { user.mySlot with state := .blocked, wait := { WaitRec.zero with kind := .team } } }

theorem test_meets_WaitsEnd :
    let w : Bar := ⟨.always, false, none, .s 4, .imm, .i 1⟩
    (barAt (.barWait w) w .word withBarrier 0 0 64 ∧ bwPh ((withBarrier.team 0 0).word 64) ≠ (withBarrier.me.barValue w).getLsbD 0)
    ∧ (barAt (.barArrw barOp) barOp .word withBarrier 0 0 64 ∧ plainWord withBarrier 0 0 64
        ∧ withBarrier.me.team = 0 ∧ (withBarrier.cur.gslot, withBarrier.me) ∈ withBarrier.groupsOf 0 0 ∧ bwArr ((withBarrier.team 0 0).word 64) = 1)
    ∧ (issues teamWaits [.tbar .always, .drain .always] = true ∧ othersArrived teamWaits ∧ stacksRead (.tbar .always) .always teamWaits
        ∧ stacksRead (.drain .always) .always teamWaits ∧ teamWaits.me.unacknowledged = 0
        ∧ teamWaits.quietGroup teamWaits.cur.core teamWaits.cur.gslot = true
        ∧ teamWaits.me.reports (teamWaits.me.active teamWaits.mySlot.mask .always) = []) := by
  refine ⟨?_, ?_, by decide +kernel, ⟨by decide +kernel, fun e he hn => ⟨0, ?_⟩⟩, ?_, ?_, by decide +kernel, by decide +kernel, by decide +kernel⟩
  · unfold barAt; decide +kernel
  · unfold barAt plainWord; decide +kernel
  · exact (by decide +kernel : ∀ e ∈ teamWaits.groupsOf 0 teamWaits.me.team, e.1 ≠ 0 →
      ((teamWaits.group 0 e.1).slot 0).state = .blocked ∧ ((teamWaits.group 0 e.1).slot 0).wait.kind = .team) e he hn
  · unfold stacksRead; decide +kernel
  · unfold stacksRead; decide +kernel

/-- A lane's checks passed. -/
def fine {α : Type} : Res α → Bool
  | .ok _ => true
  | _ => false

theorem fine_ok {α : Type} {r : Res α} (h : fine r = true) : ∃ x, r = .ok x := by
  cases r with
  | ok a => exact ⟨a, rfl⟩
  | no c => exact absurd h (by simp [fine])
  | need w op => exact absurd h (by simp [fine])
  | away l t => exact absurd h (by simp [fine])

theorem allPass_of {ls : List LaneAt} (h : (ls.all fun x => fine x.res) = true) : allPass ls :=
  fun x hx => fine_ok (List.all_eq_true.mp h x hx)

theorem ready_of {F : Type} {i : Instr} {o : Mem F} {n : Nat} {acc : Access} {u : TagUse} {late : Bool} {s : State}
    (h : (issuable i s && s.me.active s.mySlot.mask o.g != 0 && (checks s o n acc u).2.all (fun x => fine x.res)
      && (!late || s.aloneInGroup)) = true) : memReady i o n acc u late s := by
  simp only [Bool.and_eq_true, bne_iff_ne, Bool.or_eq_true, Bool.not_eq_true'] at h
  exact ⟨h.1.1.1, h.1.1.2, allPass_of h.1.2, h.2⟩

/-- A guard that leaves lane 0 alone, s6 a mapped address, v6 one scratchpad word per lane. -/
def memState : State := user.onMe fun g =>
  { g with s := [(6, 0x100100)], v := [(32 * 6 + 31, 16376), (32 * 20, 1)] }

/-- Lane 0 alone; the scalar s6 names the address. -/
def oneLane : Guard := .on false 20 0

/-- A global access of every lane at the page's start, and a scratchpad access of one lane. -/
def memG (d : Dst) (b : Src) : Mem Unit := ⟨.always, .g, .b128, (), d, .s 6, b, .i 0xFFFFFF00⟩
def memS (w : Width) (d : Dst) (b : Src) : Mem Unit := ⟨oneLane, .s, w, (), d, .v 6, b, .a⟩
def ldG : Mem Unit := memG (.v 8) (.v 0)
def ldS : Mem Unit := memS .b64 (.v 8) (.v 0)
def stG : Mem Unit := memG (.none false) (.v 8)
def stS : Mem Unit := memS .b64 (.none false) (.v 8)

theorem test_meets_LoadsComplete :
    (memReady (.ld ldG) ldG 16 .read .load (lateRefusal .g (passed (checks memState ldG 16 .read .load).2)) memState
      ∧ ∀ y ∈ ((checks memState ldG 16 .read .load).1.loadLanes 16 (passed (checks memState ldG 16 .read .load).2)).2,
        ∃ x, y.2.2 = .ok x)
    ∧ (memReady (.ld ldS) ldS 8 .read .load (lateRefusal .s (passed (checks memState ldS 8 .read .load).2)) memState
      ∧ ∀ y ∈ ((checks memState ldS 8 .read .load).1.loadLanes 8 (passed (checks memState ldS 8 .read .load).2)).2,
        ∃ x, y.2.2 = .ok x) := by
  refine ⟨⟨ready_of (by decide +kernel), fun y hy => fine_ok ?_⟩, ready_of (by decide +kernel), fun y hy => fine_ok ?_⟩
  · exact List.all_eq_true.mp (by decide +kernel : (((checks memState ldG 16 .read .load).1.loadLanes 16
      (passed (checks memState ldG 16 .read .load).2)).2.all fun y => fine y.2.2) = true) y hy
  · exact List.all_eq_true.mp (by decide +kernel : (((checks memState ldS 8 .read .load).1.loadLanes 8
      (passed (checks memState ldS 8 .read .load).2)).2.all fun y => fine y.2.2) = true) y hy

theorem test_meets_LoadSees :
    let held := user.onCore 0 fun k => { k with clean := [(0x8000, List.replicate 32 7)] }
    isPeer 0x10001F = false ∧ 0x10001F % 32 + 1 ≤ 32 ∧ (user.core 0).clean.find? (0x10001F / 32) = none
      ∧ (held.core 0).clean.find? (0x10001F / 32) = some (List.replicate 32 7) := by decide +kernel

theorem test_meets_StoresComplete :
    memReady (.st stG) stG 16 .write .store (stG.sp == .rs) memState
    ∧ memReady (.st stS) stS 8 .write .store (stS.sp == .rs) memState :=
  ⟨ready_of (by decide +kernel), ready_of (by decide +kernel)⟩

/-- The word at offset 0 with a tag. -/
def tagged (k : BitVec 2) : State := memState.onTeam 0 0 fun t => t.setTag 0 k

/-- The one lane names a scratchpad word with a tag. -/
theorem wordIs {s : State} {o : Mem Unit} {n : Nat} {acc : Access} {u : TagUse} {l : Nat} {a : Word} {k : BitVec 2}
    (h : passed (checks s o n acc u).2 = [(l, a, .pad 0 0 0)]) (ht : (s.team 0 0).tag 0 = k) :
    distinctWords (passed (checks s o n acc u).2)
      ∧ ∀ x ∈ passed (checks s o n acc u).2, ∀ c t off, x.2.2 = .pad c t off → (s.team c t).tag off = k := by
  rw [h]
  refine ⟨⟨fun x hx => ⟨0, 0, 0, ?_⟩, List.pairwise_singleton _ _⟩, fun x hx c t off he => ?_⟩
  · rw [List.mem_singleton.mp hx]
  · rw [List.mem_singleton.mp hx] at he
    injection he with h1 h2 h3
    rw [← h1, ← h2, ← h3, ht]

theorem test_meets_TagsAndTaggedWords :
    (let ps := passed (checks (tagged 2) ldS 8 .rmw .tagged).2
     memReady (.ldf ldS) ldS 8 .rmw .tagged false (tagged 2) ∧ (tagged 2).mySlot.done = 0 ∧ (tagged 2).mySlot.tagged = none
      ∧ ldS.sp ≠ .g ∧ distinctWords ps
      ∧ ∀ x ∈ ps, ∀ c t off, x.2.2 = .pad c t off → ((tagged 2).team c t).tag off = 2)
    ∧ (let ps := passed (checks (tagged 2) ldS 8 .read .tagged).2
       memReady (.ldfk ldS) ldS 8 .read .tagged false (tagged 2) ∧ distinctWords ps
      ∧ ∀ x ∈ ps, ∀ c t off, x.2.2 = .pad c t off → ((tagged 2).team c t).tag off = 2)
    ∧ (let ps := passed (checks (tagged 1) stS 8 .write .tagged).2
       memReady (.ste stS) stS 8 .write .tagged false (tagged 1) ∧ (tagged 1).mySlot.done = 0 ∧ (tagged 1).mySlot.tagged = none
      ∧ distinctWords ps
      ∧ ∀ x ∈ ps, ∀ c t off, x.2.2 = .pad c t off → ((tagged 1).team c t).tag off = 1)
    ∧ (let o := memS .b128 (.none false) (.v 8)
       memReady (.tagSet stS) stS 8 .write .tags false (tagged 0) ∧ distinctWords (passed (checks (tagged 0) stS 8 .write .tags).2)
        ∧ memReady (.tagSetTile o) o 1 .write .tags false (tagged 0)
        ∧ (passed (checks (tagged 0) o 1 .write .tags).2).map (·.2.2) = [.pad 0 0 0])
    ∧ memReady (.tagRd ldS) ldS 8 .read .tags false (tagged 0) := by
  have a := wordIs (s := tagged 2) (o := ldS) (n := 8) (acc := .rmw) (u := .tagged) (l := 0) (a := 0) (k := 2) (by decide +kernel) (by decide +kernel)
  have b := wordIs (s := tagged 2) (o := ldS) (n := 8) (acc := .read) (u := .tagged) (l := 0) (a := 0) (k := 2) (by decide +kernel) (by decide +kernel)
  have c := wordIs (s := tagged 1) (o := stS) (n := 8) (acc := .write) (u := .tagged) (l := 0) (a := 0) (k := 1) (by decide +kernel) (by decide +kernel)
  have d := wordIs (s := tagged 0) (o := stS) (n := 8) (acc := .write) (u := .tags) (l := 0) (a := 0) (k := 0)
    (by decide +kernel) (by decide +kernel)
  refine ⟨⟨ready_of ?_, ?_, ?_, ?_, a⟩, ⟨ready_of ?_, b⟩, ⟨ready_of ?_, ?_, ?_, c⟩, ⟨ready_of ?_, d.1, ready_of ?_, ?_⟩, ready_of ?_⟩ <;>
    decide +kernel

def atomG (d : Dst) : Mem AtomOp := ⟨oneLane, .g, .b32, .add, d, .s 6, .v 8, .a⟩
def atomS : Mem AtomOp := ⟨oneLane, .s, .b64, .exch, .v 10, .v 6, .v 8, .a⟩

/-- Peer 5 is reachable by port 0, which is UP; the page at 0x200000 lies in its memory, and s6 names it. -/
def peerState : State :=
  { (user.onMe fun g => { g with s := [(6, 0x200000)], v := [(32 * 20, 1)] }) with
    domValid := true, domId := 1, ports := [(0, ⟨0, false, 0, .up⟩)], routes := [(5, ⟨0, false, 1⟩)],
    mem := tables ++ [(0x203008, 0x7F), (0x20300D, 5), (0x20300E, 0x14)] }

/-- The same, the answer of an atomic of lane 0 at hand. -/
def answeredState : State :=
  peerState.onMySlot fun x => { x with got := [⟨.amo (peerBase + 5 * 2 ^ 40) 0, .data [1, 2, 3, 4], 0⟩] }

/-- Every lane's place is aligned, as the atomics need it. -/
def allPlaced (n : Nat) (ps : List (Nat × Word × Spot)) : Bool :=
  ps.all fun x => match x.2.2 with
    | .pad _ _ off => off % n == 0
    | .mem w => w.pa % n == 0

theorem placed_of {n : Nat} {ps : List (Nat × Word × Spot)} (h : allPlaced n ps = true) : ∀ x ∈ ps, placedAt n x.2.2 := by
  intro x hx
  have := List.all_eq_true.mp h x hx
  unfold placedAt
  cases hp : x.2.2 <;> rw [hp] at this <;> simpa using this

theorem unsent_of {s : State} (h : (s.mySlot.got.isEmpty && s.requests.isEmpty) = true) : ∀ l, s.amoSent l = none := by
  intro l
  simp only [Bool.and_eq_true, List.isEmpty_iff] at h
  unfold State.amoSent
  rw [h.1, h.2]
  rfl

theorem test_meets_AtomicsComplete_home :
    let ps := fun (s : State) (o : Mem AtomOp) (n : Nat) => passed (checks s o n .rmw .store).2
    (memReady (.atom (atomG (.v 9))) (atomG (.v 9)) 4 .rmw .store (lateRefusal .g (ps memState (atomG (.v 9)) 4)) memState
      ∧ memReady (.red (atomG (.none false))) (atomG (.none false)) 4 .rmw .store false memState
      ∧ memReady (.atom atomS) atomS 8 .rmw .store (lateRefusal .s (ps memState atomS 8)) memState)
    ∧ (∀ x ∈ ps memState (atomG (.v 9)) 4, placedAt 4 x.2.2) ∧ (∀ x ∈ ps memState (atomG (.none false)) 4, placedAt 4 x.2.2)
    ∧ (∀ x ∈ ps memState atomS 8, placedAt 8 x.2.2)
    ∧ (∀ x ∈ ps memState (atomG (.v 9)) 4, x.2.2.peer = false) ∧ (∀ x ∈ ps memState atomS 8, x.2.2.peer = false)
    ∧ ∀ l, memState.amoSent l = none := by
  refine ⟨⟨ready_of ?_, ready_of ?_, ready_of ?_⟩, placed_of ?_, placed_of ?_, placed_of ?_, ?_, ?_, unsent_of ?_⟩ <;>
    decide +kernel

theorem test_meets_AtomicsComplete_peer :
    let o := atomG (.none false)
    let ps := passed (checks peerState o 4 .rmw .store).2
    (issuable (.atom (atomG (.v 9))) answeredState = true ∧ answeredState.aloneInGroup = true
      ∧ lanes (answeredState.me.active answeredState.mySlot.mask oneLane) = [0]
      ∧ answeredState.amoSent 0 = some (peerBase + 5 * 2 ^ 40) ∧ isPeer (peerBase + 5 * 2 ^ 40) = true
      ∧ (answeredState.agent 0 0 0).answer (.amo (peerBase + 5 * 2 ^ 40) 0) 0 = some (.data [1, 2, 3, 4]))
    ∧ (memReady (.red o) o 4 .rmw .store false peerState ∧ (∀ x ∈ ps, placedAt 4 x.2.2)
      ∧ (ps.all fun x => match x.2.2 with | .mem w => w.pa == peerBase + 5 * 2 ^ 40 | _ => false) = true
      ∧ peerState.reachable (peerOf (peerBase + 5 * 2 ^ 40)) = true) := by
  refine ⟨by decide +kernel, ready_of ?_, placed_of ?_, ?_, ?_⟩ <;> decide +kernel

theorem test_meets_LineMaintenance :
    let o : Mem Unit := ⟨oneLane, .g, .b8, (), .none false, .s 6, .v 0, .a⟩
    let meets := fun (s : State) (line : Nat) =>
      let act := s.me.active s.mySlot.mask o.g
      let ea := fun l => s.me.ea .g l o.a o.x
      let u := [line].foldl (fun s l => s.publishLine l) s
      issues s [.pf ⟨oneLane, .g, .b8, true, .none false, .s 6, .v 0, .a⟩, .clnWb o, .clnInv o, .clnWbinv o] = true ∧ act ≠ 0
        ∧ s.linesOf ea act false = (s, [line], false) ∧ s.linesOf ea act true = (s, [line], false) ∧ s.readsReturned = true
        ∧ u.readsReturned = true ∧ u.peerPending s.cur.core s.cur.gslot (fun pa => [line].contains (pa / 128)) = false
    meets memState (0x100100 / 128) ∧ meets peerState ((peerBase + 5 * 2 ^ 40) / 128) := by decide +kernel

/-- Scalars for the copy forms, the accumulators and the streams held, dependence counter 5 with the context. -/
def engState : State :=
  { (rich fun g => { g with
      s := [(2, 0x100200), (3, 0x0000000100000001), (4, 0x0000002000000020), (21, 0x200), (24, 0x100400), (25, 32), (26, 0)] }) with
    deps := [(5, ⟨7, 1, false⟩)] }

theorem engine_of {i : Instr} {gd : Guard} {pred : Option (BitVec 6)} {s : State}
    (h : (issuable i s && s.me.active s.mySlot.mask gd != 0 && decide ((s.token s.cur.core 255).use = .free)
      && decide (s.resolveToken s.me.asid s.me.privileged (s.me.opt pred) = .reclaimed) && s.myTeam.holds.isEmpty) = true) :
    engineReady i gd pred s := by
  simp only [Bool.and_eq_true, bne_iff_ne, decide_eq_true_eq, List.isEmpty_iff] at h
  refine ⟨h.1.1.1.1, h.1.1.1.2, Laws.tokenSlot_isSome (by omega) h.1.1.2, .inl h.1.2, fun n => ?_⟩
  rw [h.2]
  show (0 : Nat) < 255
  omega

/-- The operands of a copy form meet its checks. -/
def copyFits (s : State) (i : Instr) (code : BitVec 8) (o : CpyOp) : Bool :=
  issuable i s && s.me.active s.mySlot.mask o.g != 0 && decide ((s.token s.cur.core 255).use = .free)
    && decide (s.resolveToken s.me.asid s.me.privileged (s.me.opt o.opp) = .reclaimed) && s.myTeam.holds.isEmpty
    && (s.copyChecks (copyOp s code o) (s.me.opt o.opl) (s.me.opt o.opk)).all (·.isNone)
    && (!o.det || (!(copyOp s code o).ownSpan && o.lk != .barrier))

def cpyO (ss ds : CSpace) (fp : BitVec 13) (x y p : Option (BitVec 6)) : CpyOp :=
  ⟨.always, some 26, if ds = .g then 24 else 21, if ss = .g then 24 else 21, ss, ds, fp, false, false, 0, .none, y, x, p, none, some 25⟩

theorem test_meets_EngineOperationsIssue_copies :
    copyFits engState (.cpy (cpyO .g .s 0 none none none)) 0x90 (cpyO .g .s 0 none none none) = true
    ∧ copyFits engState (.cpyTile (cpyO .s .g 1 (some 4) (some 3) none)) 0x91 (cpyO .s .g 1 (some 4) (some 3) none) = true
    ∧ copyFits engState (.cpyGth (cpyO .g .s 0x14 (some 25) (some 3) none)) 0x92 (cpyO .g .s 0x14 (some 25) (some 3) none) = true
    ∧ copyFits engState (.cpySct (cpyO .s .g 5 (some 2) (some 3) none)) 0x93 (cpyO .s .g 5 (some 2) (some 3) none) = true
    ∧ copyFits engState (.cpyRem (cpyO .s .g 0 none none none)) 0x94 (cpyO .s .g 0 none none none) = true
    ∧ copyFits engState (.cpyMcast (cpyO .s .g 4 (some 2) none none)) 0x95 (cpyO .s .g 4 (some 2) none none) = true
    ∧ copyFits engState (.cpyRed (cpyO .s .g 0xA none none none)) 0x96 (cpyO .s .g 0xA none none none) = true
    ∧ engineReady (.cpy (cpyO .g .s 0 none none none)) .always none engState :=
  ⟨by decide +kernel, by decide +kernel, by decide +kernel, by decide +kernel, by decide +kernel, by decide +kernel,
    by decide +kernel, engine_of (by decide +kernel)⟩

def feedO : EngOp2 := ⟨.always, some 24, 5, some 26, none, 2, false, false, 0, .none, 2, 0, 0, none, none, none⟩
def mmaO : EngOp2 := ⟨.always, some 25, 0, none, none, 0, false, false, 0, .none, 2, 0, 1, none, none, none⟩

theorem test_meets_EngineOperationsIssue_matrix :
    (engineReady (.sfeed feedO) feedO.g feedO.opp engState ∧ linkFits feedO engState ∧ (engState.me.engCount feedO).toNat = 2
      ∧ localOff (engState.me.opt feedO.a) = 0 ∧ 2 * sliceBytes 2 false ≤ engState.myTeam.spadBytes
      ∧ 2 * scaleBytes 2 false ≤ engState.myTeam.spadBytes)
    ∧ (engineReady (.mma mmaO) mmaO.g mmaO.opp engState ∧ linkFits mmaO engState ∧ (engState.me.engCount mmaO).toNat = 2) :=
  ⟨⟨engine_of (by decide +kernel), .inl rfl, by decide +kernel, by decide +kernel, by decide +kernel, by decide +kernel⟩,
    engine_of (by decide +kernel), .inl rfl, by decide +kernel⟩

theorem test_meets_Accumulators :
    let rd : AccOp := ⟨.always, 0, .v 32, .s 3, .v 0⟩
    let wr : AccOp := ⟨.always, 3, .none false, .v 3, .bl 2⟩
    engState.accBusy engState.cur.core engState.cur.gslot 3 = false
    ∧ issues engState [.accZero ⟨.always, 3, .none false, .v 0, .v 0⟩, .accRd rd, .accWr wr] = true
    ∧ (∀ l, l < 32 → engState.activeLane rd.g l = true → engState.me.accCol rd l < 32)
    ∧ (∀ l, l < 32 → engState.activeLane wr.g l = true → engState.me.accCol wr l < 32) := by decide +kernel

/-- A copy of one unit that the group of `engState` issued, in entry 3 of its core, in a given state. -/
def opIn (k : TokState) : Op :=
  { (copyOp engState 0x90 (cpyO .g .s 0 none none none)) with
    state := k, handle := handleOf 1 0 3, cause := if k = .faulted then Cause.notPresent else 0, hold := k = .issued }

/-- `engState` with that operation live, its handle in s26, and zero in s27. -/
def tokState (k : TokState) : State :=
  (engState.setToken 0 3 ⟨1, .live (opIn k), false, 0⟩).onMe fun g => g.setSreg 26 (handleOf 1 0 3)

def tokO (fn : BitVec 4) (d : Option (BitVec 6)) : TokOp := ⟨.always, fn, d, 26, 0⟩

theorem test_meets_TokensObserved :
    (tokState .done).observes ((tokState .done).me.sreg 26) = some (some (0, 3, opIn .done))
    ∧ engState.observes (engState.me.sreg 26) = some none
    ∧ tokenReady (.tokTest (tokO 0 (some 5))) (tokO 0 (some 5)) (tokState .running)
    ∧ tokenReady (.tokWait (tokO 0 (some 5))) (tokO 0 (some 5)) (tokState .done)
    ∧ tokenReady (.tokState (tokO 3 (some 5))) (tokO 3 (some 5)) (tokState .faulted) := by
  unfold tokenReady; decide +kernel

theorem test_meets_TokensControlled :
    (controlled (tokState .running) (tokO 0 none) 0 3 (opIn .running)
      ∧ tokenReady (.tokCancel (tokO 0 none)) (tokO 0 none) (tokState .running)
      ∧ tokenReady (.tokDetach (tokO 0 none)) (tokO 0 none) (tokState .running) ∧ (opIn .running).detached = false
      ∧ tokenReady (.tokPrio { tokO 0 none with b := 3 }) { tokO 0 none with b := 3 } (tokState .running))
    ∧ (controlled (tokState .issued) { tokO 0 none with b := 27 } 0 3 (opIn .issued)
      ∧ tokenReady (.tokAfter { tokO 0 none with b := 27 }) { tokO 0 none with b := 27 } (tokState .issued)
      ∧ (opIn .issued).pred2 = 0 ∧ (tokState .issued).me.sreg 27 = 0)
    ∧ (controlled (tokState .faulted) (tokO 0 (some 5)) 0 3 (opIn .faulted)
      ∧ tokenReady (.tokResume (tokO 0 (some 5))) (tokO 0 (some 5)) (tokState .faulted)
      ∧ (opIn .faulted).op ≠ 0x96)
    ∧ (let o : TokOp := ⟨.always, 1, some 5, 0, 0⟩
       tokenReady (.tokAdopt o) o (tokState .running) ∧ (tokState .running).orphan (tokState .running).me.asid = none) := by
  unfold tokenReady controlled; decide +kernel

theorem test_meets_TokensAdopted :
    let s := { (tokState .running).onCtx 1 fun x => { x with orphans := [(0, 3)] } with turn := 1 }
    let t := s.setToken 0 3 ⟨1, .live { opIn .running with orphan := true }, false, 0⟩
    let o : TokOp := ⟨.always, 1, some 5, 0, 0⟩
    tokenReady (.tokAdopt o) o t ∧ t.orphan t.me.asid = some (0, 3, { opIn .running with orphan := true }) := by
  unfold tokenReady; decide +kernel

/-- A class-1 page at 0x200000 with an armed region at its start, whose replica lies at 0x400000; s0 names its first
word, v2 and v4 the same in lane 0. -/
def gspState (stepped : Bool) : State :=
  { (rich fun g => { g with
      s := [(0, 0x200000)], v := [(32 * 2, 0x200000), (32 * 20, 1)] }) with
    mem := tables ++
      [(0x203008, 1), (0x203009, 0x40), (0x20300A, 0x20), (0x204000, 0x7F), (0x204001, 2), (0x204002, 0x40), (0x204006, 0x10)],
    regions := [(7, { Region.reset with
      armed := true, mode := stepped, nb := [5], asid := 1, period := 1, va := 0x200000, frame := 0x400000, seqout := [0],
      seqin := [0], probe := [0], time := [0] })] }

def gspRdO (d : Dst) (a : Src) : GspOp := ⟨oneLane, false, d, a, .v 0, .a⟩

theorem gspReady_of {i : Instr} {o : GspOp} {acc : Access} {ok : Nat → Bool} {s : State}
    (h : (issuable i s && s.me.active s.mySlot.mask o.g != 0
      && (s.gspLanes (fun l => s.me.ea .g l o.a o.x) acc ok (lanes (s.me.active s.mySlot.mask o.g))).2.all
        fun x => fine x.res) = true) :
    ∃ c ps, gspReady i o acc ok s c ps := by
  simp only [Bool.and_eq_true, bne_iff_ne, List.all_eq_true] at h
  exact ⟨_, _, h.1.1, h.1.2, fun x hx => fine_ok (h.2 x hx), rfl, rfl⟩

theorem test_meets_GossipAccesses :
    (∃ c ps, gspReady (.gspInj { gspRdO (.none false) (.v 2) with b := .v 8 }) { gspRdO (.none false) (.v 2) with b := .v 8 }
        .write (fun off => off ≤ 0x1000) (gspState false) c ps)
    ∧ (∃ c ps, gspReady (.gspRd (gspRdO (.v 6) (.v 2))) (gspRdO (.v 6) (.v 2)) .read (fun off => off ≤ 0xFF8)
        (gspState false) c ps)
    ∧ (∃ c ps, gspReady (.gspMass (gspRdO (.v 8) (.s 0))) (gspRdO (.v 8) (.s 0)) .read (fun off => off ≤ 0xFF8)
        (gspState false) c ps)
    ∧ (let s := gspState false
       let fits := fun (o : GspOp) =>
         let r := s.gspCheck (s.me.ea .g (lowest (s.me.active s.mySlot.mask o.g)) o.a o.x) .read true fun _ => true
         issuable (.gspSpread o) s = true ∧ s.me.active s.mySlot.mask o.g ≠ 0 ∧ r.2 = .ok (7, 0)
          ∧ (r.1.region 7).nb.length ≤ (r.1.region 7).time.length ∧ (r.1.region 7).nb ≠ []
       fits (gspRdO (.v 22) (.s 0)) ∧ fits { gspRdO (.s 20) (.s 0) with age := true })
    ∧ (let q : EngOp2 := ⟨.always, some 20, 0, some 0, none, 0, false, false, 0, .none, 2, 0, 0, none, none, none⟩
       let s := gspState true
       engineReady (.gspStep q) q.g q.opp s ∧ linkFits q s ∧ (s.me.engCount q).toNat = 2
        ∧ (s.gspCheck (s.me.opt q.a) .read false fun _ => true).2 = .ok (7, 0)
        ∧ (s.gspCheck (s.me.opt q.a) .read false fun _ => true).1.mem = s.mem
        ∧ ((s.gspCheck (s.me.opt q.a) .read false fun _ => true).1.region 7).mode = true) :=
  ⟨gspReady_of (by decide +kernel), gspReady_of (by decide +kernel), gspReady_of (by decide +kernel), by decide +kernel,
    engine_of (by decide +kernel), .inl rfl, by decide +kernel, by decide +kernel, by decide +kernel, by decide +kernel⟩

/-- v4 of lane 0 names the two bytes at 0x100000. -/
def strState : State := user.onMe fun g =>
  { g with v := [(32 * 4, 0x100000), (32 * 5, 0x20000), (32 * 6, 0x100001), (32 * 7, 0x10000), (32 * 20, 1)] }

theorem strReady_of {i : Instr} {gd : Guard} {sets : Nat → List (Nat × Nat)} {s : State} {b : List Byte}
    (h : (issuable i s && (decide (lanes (s.me.active s.mySlot.mask gd) = [0]) && s.aloneInGroup)
      && decide ((s.strLanes sets [0]).2.map (·.2.2) = [.ok b])) = true) :
    ∃ c bs, strReady i gd sets s c bs := by
  simp only [Bool.and_eq_true, decide_eq_true_eq] at h
  refine ⟨(s.strLanes sets (lanes (s.me.active s.mySlot.mask gd))).1,
    [(0, s.mySlot.overRead 0 (setAddrs (sets 0)) b)], h.1.1, fun hz => ?_, rfl, h.1.2.1.symm, .inl h.1.2.2, fun k l hk => ?_⟩
  · rw [hz] at h; exact absurd h.1.2.1 (by decide)
  · rw [h.1.2.1] at hk ⊢
    match k, hk with
    | 0, hk =>
      obtain rfl : 0 = l := by simpa using hk
      match hr : (s.strLanes sets [0]).2, h.2 with
      | [(_, _, _)], h2 =>
        simp only [List.map_cons, List.map_nil, List.cons.injEq, and_true] at h2
        subst h2
        have hl : (s.strLanes sets [0]).2.map (·.1) = [0] := rfl
        rw [hr] at hl
        simp only [List.map_cons, List.map_nil, List.cons.injEq, and_true] at hl
        subst hl
        exact ⟨_, b, rfl, rfl⟩
    | k + 1, hk => simp at hk

theorem test_meets_StringsComplete :
    let o : Alu Unit := ⟨oneLane, .s32, (), .v 3, .v 4, .v 6, .a⟩
    let s := strState
    let sA := fun l => [(refAddr (s.me.src64 l o.a), refLen (s.me.src64 l o.a))]
    let sB := fun l => [(refAddr (s.me.src64 l o.b), refLen (s.me.src64 l o.b))]
    (∃ c bs, strReady (.strCmp o) o.g (fun l => sA l ++ sB l) s c bs)
    ∧ (∃ c bs, strReady (.strHash { o with ty := .u64, d := .v 8, b := .s 3 }) o.g sA s c bs)
    ∧ (∃ c bs, strReady (.strFind { o with ty := .u32, b := .v 9 }) o.g sA s c bs)
    ∧ (∃ c bs, strReady (.strPfx { o with ty := .u64, d := .v 8, b := .v 0 }) o.g
        (fun l => [(refAddr (s.me.src64 l o.a), min (refLen (s.me.src64 l o.a)) 8)]) s c bs)
    ∧ (let q : BitOp Unit := ⟨oneLane, .u64, (), 21, 3, .v 4, .v 4, .a⟩
       ∃ c bs, strReady (.strEq q) q.g (fun l =>
        if refLen (s.me.src64 l q.a) = refLen (s.me.src64 l q.b) then
          [(refAddr (s.me.src64 l q.a), refLen (s.me.src64 l q.a)), (refAddr (s.me.src64 l q.b), refLen (s.me.src64 l q.b))]
        else []) s c bs) :=
  ⟨strReady_of (b := [0x61, 1, 1]) (by decide +kernel), strReady_of (b := [0x61, 1]) (by decide +kernel),
    strReady_of (b := [0x61, 1]) (by decide +kernel), strReady_of (b := [0x61, 1]) (by decide +kernel),
    strReady_of (b := [0x61, 1, 0x61, 1]) (by decide +kernel)⟩

theorem canTrap_of {act : Mask} {s : State}
    (h : (s.cur.gslot != Config.supervisorSlot && decide ((s.entry s.cur.core 2047).state = .free)
      && (s.mySlot.mask &&& ~~~act == 0 || s.aloneInGroup) && decide ((s.core s.cur.core).landbase.toNat + 655360 ≤ peerBase)
      && !(s.ctx s.me.asid).dbg.trcfg.getLsbD 10) = true) : canTrap act s := by
  simp only [Bool.and_eq_true, bne_iff_ne, decide_eq_true_eq, Bool.or_eq_true, beq_iff_eq, Bool.not_eq_true'] at h
  exact ⟨h.1.1.1.1, ⟨2047, by omega, h.1.1.1.2⟩, h.1.1.2, .inl (by have := h.1.2; omega), .inl h.2⟩

theorem test_meets_HashAndPartition :
    let o : Alu Unit := ⟨.always, .u32, (), .v 10, .v 8, .s 4, .a⟩
    let s := fun (n : Word) => user.onMe fun g => g.setSreg 4 n
    issuable (.hashI64 ⟨.always, .u64, (), .s 1, .s 2, .s 3, .a⟩) user = true
    ∧ issuable (.partIdx o) (s 32) = true ∧ (((s 32).me.src 0 32 0 o.b).setWidth 32 : BitVec 32).toNat = 32
    ∧ issuable (.partIdx o) (s 33) = true ∧ (((s 33).me.src 31 32 0 o.b).setWidth 32 : BitVec 32).toNat = 33
    ∧ (s 33).me.active (s 33).mySlot.mask o.g ≠ 0 ∧ canTrap ((s 33).me.active (s 33).mySlot.mask o.g) (s 33) :=
  ⟨by decide +kernel, by decide +kernel, by decide +kernel, by decide +kernel, by decide +kernel, by decide +kernel,
    canTrap_of (by decide +kernel)⟩

/-- The group with an allotment of 240 registers, holding accumulator 1 and stream 3. -/
def poolState : State := user.onMe fun g => { g with pool := 240, accHeld := 2, strHeld := 8 }

/-- The same, BLOCKED at a `grow` of 16 registers of 12 bytes. -/
def growing : State :=
  (poolState.onCore 0 fun k => { k with grows := [⟨0, 0, .regs, 16⟩] }).onMySlot fun x => { x with state := .blocked, len := 12 }

theorem test_meets_AllotmentChanges :
    (issuable (.grow .regs .imm (.i 16)) poolState = true
      ∧ poolState.neverGranted poolState.cur.core poolState.cur.gslot .regs (poolState.me.growCount .imm (.i 16)) = false
      ∧ poolState.request? poolState.cur.core poolState.cur.gslot poolState.cur.slot = none
      ∧ issuable (.grow (.acc 0) (.v 0) .a) poolState = true
      ∧ poolState.neverGranted poolState.cur.core poolState.cur.gslot (.acc 0) (poolState.me.growCount (.v 0) .a) = false)
    ∧ ((growing.core 0).grows.find? (fun q => poolIs q.pool 0 && growing.grantable 0 q) = some ⟨0, 0, .regs, 16⟩
      ∧ growing.neverGranted 0 0 .regs 16 = false ∧ (growing.core 0).canGrant .regs 16 = true)
    ∧ (issuable (.shrink .regs .imm (.i 208)) poolState = true ∧ poolState.me.growCount .imm (.i 208) = 208
      ∧ poolState.usesReturned 208 = false ∧ 32 + 208 ≤ poolState.me.pool)
    ∧ (issuable (.shrink (.acc 1) (.v 0) .a) poolState = true
      ∧ poolState.accBusy poolState.cur.core poolState.cur.gslot 1 = false)
    ∧ (issuable (.shrink (.stream 3) (.v 0) .a) poolState = true
      ∧ poolState.streamBusy poolState.cur.core poolState.cur.gslot 3 = false) := by decide +kernel

theorem test_meets_DependenceCounters :
    let s := { (user.onMe fun g => g.setSreg 1 4095) with deps := [(4095, ⟨1, 1, false⟩)] }
    issues s [.depAdd .always (some 20) 1 .imm (.i 0xFFFFFFFF), .depSub .always (some 20) 1 .imm (.i 2)] = true
      ∧ s.me.active s.mySlot.mask .always ≠ 0 ∧ (s.me.sreg 1).toNat < 4096 ∧ (s.dep (s.me.sreg 1).toNat).owner = s.me.asid
      ∧ (s.dep 4095).count.toNat < (s.me.src32 0 (.i 2) .imm).toNat := by decide +kernel

/-- A template at 0x100200 of one group of 32 registers, records of one word and a ring of 8,192 places at 0x101000, whose
page the core's cache holds; v12 of lanes 0 and 1 names their records; `n` lanes are active under v20. -/
def launchState (n : Nat) : State :=
  let s := { (user.onMe fun g => { g with
      s := [(4, 0x100200)], v := [(32 * 12, 0x100400), (32 * 12 + 1, 0x100400)] ++ (List.range n).map fun l => (32 * 20 + l, 1) }) with
    mem := tables.take 2 ++ [(0x100200, 0x10), (0x100219, 0x10), (0x10021A, 0x10), (0x100221, 0x20), (0x100224, 1), (0x100226, 1),
      (0x100228, 1), (0x100229, 1), (0x10022A, 1), (0x10022C, 0x20), (0x100238, 0x0C)] ++ tables.drop 2 }
  (s.spotOf .g 0x101000 8 8 .write .store).1

/-- The eight words of that template. -/
def launchWords : List Word :=
  [0x10, 0, 0, 0x101000, 0x0001000100002000, 0x0000002000010101, 0, 0x0C] ++ List.replicate 8 0

/-- The hypotheses of a `launch` that `s` issues, but for the translations of the ring. -/
def launchFits (s : State) : Bool :=
  let ls := lanes (s.me.active s.mySlot.mask oneLane)
  let r := s.groupWords 16 (s.me.sreg 4)
  let ea := fun l => (s.me.vwide 12 l 64).setWidth 64
  let q := r.1.laneRecords 1 ea ls
  issuable (.launch oneLane (some 10) 4 12) s && (s.me.sreg 4).toNat % 128 == 0 && decide (r.2 = .ok launchWords)
    && r.1.templateOk s.me.asid launchWords && decide (q.2 = ls.map fun l => (l, ea l, .ok [0]))
    && decide ((q.1.ringUsed s.me.asid (s.me.sreg 4)).1 + ls.length ≤ field launchWords 4 0 32)
    && (match (q.1.appendLanes s.me.asid (s.me.sreg 4) launchWords (ls.map fun l => (l, [0]))).2 with
      | .ok (_, []) => true
      | _ => false)
    && s.aloneInGroup

/-- The manifest open at that template, with a number of records. -/
def openAt (k : Nat) : OpenManifest := ⟨1, 0x100200, 1, launchWords, 0, k, 0⟩

theorem ringPage_of {s : State} {va : Word} {w : Where}
    (h : (!isPeer w.pa && decide ((s.spotOf .g va 8 8 .write .store).2 = .ok (.mem w))
      && match (s.core s.cur.core).tlb.find? (tlbKey (s.agent s.cur.core s.cur.gslot s.cur.slot).asid va) with
        | some l => l.root == s.ptroot (s.agent s.cur.core s.cur.gslot s.cur.slot) && l.entry &&& 0x60 == 0x60
        | none => false) = true) : ringPage s va w := by
  simp only [Bool.and_eq_true, Bool.not_eq_true', decide_eq_true_eq] at h
  refine ⟨h.1.1, h.1.2, ?_⟩
  have hl := h.2
  split at hl
  · rename_i l hf
    simp only [Bool.and_eq_true, beq_iff_eq] at hl
    exact ⟨l, hf, hl.1, hl.2⟩
  · exact absurd hl (by decide)

/-- No manifest open, one in the middle of its records, one that the next record closes, and one that two lanes overrun. -/
theorem test_meets_LaunchesAppend :
    let from_ := fun (n k : Nat) => { launchState n with opens := [openAt k] }
    launchFits (launchState 1) = true ∧ (launchState 1).openOf 1 0x100200 = none
    ∧ (launchFits (from_ 1 7) = true ∧ (from_ 1 7).openOf 1 0x100200 = some (openAt 7))
    ∧ (launchFits (from_ 1 4095) = true ∧ (from_ 1 4095).openOf 1 0x100200 = some (openAt 4095))
    ∧ (launchFits (from_ 2 4095) = true ∧ (from_ 2 4095).openOf 1 0x100200 = some (openAt 4095))
    ∧ (issuable (.launchFlush .always 4) (from_ 1 7) = true ∧ issuable (.launchFlush .always 4) (launchState 1) = true) := by
  decide +kernel

/-- The records of two lanes that stand in the ring apart, in the state that the checks of `launch` leave. -/
theorem test_meets_LaunchesAppend_ring :
    let s := launchState 2
    let k := ((s.groupWords 16 (s.me.sreg 4)).1.laneRecords 1 (fun l => (s.me.vwide 12 l 64).setWidth 64) [0, 1]).1
    ringVa k 1 0x100200 launchWords 0 0 = 0x101000 ∧ ringVa k 1 0x100200 launchWords 1 0 = 0x101008
    ∧ (∃ w, w.pa = 0x101000 ∧ ringPage k 0x101000 w) ∧ (∃ w, w.pa = 0x101008 ∧ ringPage k 0x101008 w) := by
  refine ⟨by decide +kernel, by decide +kernel, ⟨⟨0x101000, false, ⟨0x001000000000007F, 0x203000, 1, 0⟩⟩, rfl, ringPage_of ?_⟩,
    ⟨⟨0x101008, false, ⟨0x001000000000007F, 0x203000, 1, 0⟩⟩, rfl, ringPage_of ?_⟩⟩ <;> decide +kernel

theorem test_meets_IssueRefusals :
    user.mySlot.state ≠ .empty ∧ user.mySlot.mask ≠ 0
    ∧ ((fieldsOf (.st { ldS with d := .v 8 })).isSome = true ∧ wellFormed (.st { ldS with d := .v 8 }) = false)
    ∧ (let i := Instr.tlbi ⟨.always, 2, none, none, none⟩
       (fieldsOf i).isSome = true ∧ wellFormed i = true ∧ needsPrivilege i = true ∧ user.me.privileged = false)
    ∧ (let i := Instr.iand { aluU with d := .v 240 }
       (fieldsOf i).isSome = true ∧ wellFormed i = true ∧ needsPrivilege i = false ∧ poolState.me.outOfRange i = true)
    ∧ (let i := Instr.iand { aluU with g := .on false 20 31 }
       (fieldsOf i).isSome = true ∧ issuable i user = true ∧ user.me.active user.mySlot.mask (.on false 20 31) = 0)
    ∧ canTrap user.mySlot.mask user :=
  ⟨by decide +kernel, by decide +kernel, by decide +kernel, by decide +kernel, by decide +kernel, by decide +kernel,
    canTrap_of (by decide +kernel)⟩

theorem test_meets_TrapsTaken :
    half16.me.active half16.mySlot.mask (.on false 20 0) ≠ 0 ∧ canTrap (half16.me.active half16.mySlot.mask (.on false 20 0)) half16
    ∧ issues half16 [.sys (.on false 20 0) .imm (.i 9), .trap (.on false 20 0) .imm (.i 9), .brk (.on false 20 0) .imm (.i 9)] = true
    ∧ half16.attached half16.me.asid = false
    ∧ (let s := half16.onCtx 1 fun x => { x with dbg := { x.dbg with attach := 1 } }
       s.attached s.me.asid = true ∧ s.hasTeam s.cur.core s.me.team = true) :=
  ⟨by decide +kernel, canTrap_of (by decide +kernel), by decide +kernel, by decide +kernel, by decide +kernel⟩

/-- Invalid traps, and lanes 0 to 15 add two infinities of different signs. -/
def floatState : State := user.onMe fun g =>
  { g with fpctl := 31, v := ((List.range 16).map fun l => (32 * 5 + l, 0x7F800000)) ++ (List.range 16).map fun l => (32 * 6 + l, 0xFF800000) }

theorem test_meets_FloatTraps :
    let o := aluF .a
    let s := floatState
    let f := fun l => perElem o.ty (fun k => (fmtOf o.ty).add o.f (fpA s o l k) (fpB s o l k))
    let bad := maskOf ((lanes (s.me.active s.mySlot.mask o.g)).filter fun l => ((f l).2 &&& s.me.fpctl) != 0)
    issuable (.fadd o) s = true ∧ bad = 0x0000FFFF ∧ canTrap bad s :=
  ⟨by decide +kernel, by decide +kernel, canTrap_of (by decide +kernel)⟩

/-- Lane 0's stack names a frame of zeros at 0x100400. -/
def sigState : State := user.onMe fun g => { g with v := [(32 * 20, 1)], stack := [(0, 0x100400)] }

theorem test_meets_SignalReturn :
    let s := sigState
    let act := s.me.active s.mySlot.mask oneLane
    let fr : Nat → FrameRead := fun _ => ⟨0, 0, List.replicate 8 0⟩
    let whole := sigState.onMySlot fun x => { x with mask := 1 }
    let all := whole.me.active whole.mySlot.mask .always
    (issuable (.sigret oneLane) s = true ∧ act = 1
      ∧ framesRead s (s.readFrames (lanes act)).1 act fr ∧ (fr 0).rpc.toNat % 4 = 0 ∧ s.aloneInGroup = true)
    ∧ (issuable (.sigret .always) whole = true
      ∧ framesRead whole (whole.readFrames (lanes all)).1 all fr
      ∧ ∀ l ∈ lanes all, (whole.readFrames (lanes all)).1.framePeer l = false) := by
  refine ⟨⟨by decide +kernel, by decide +kernel, ⟨rfl, ?_⟩, by decide +kernel, by decide +kernel⟩, by decide +kernel, ?_,
    by decide +kernel⟩
  · exact (by decide +kernel : (sigState.readFrames (lanes (sigState.me.active sigState.mySlot.mask oneLane))).2.map
    (fun r => (r.1, r.2.2)) = [(0, Res.ok ⟨0, 0, List.replicate 8 0⟩)])
  · exact ⟨rfl, (by decide +kernel : ((sigState.onMySlot fun x => { x with mask := 1 }).readFrames (lanes 1)).2.map
    (fun r => (r.1, r.2.2)) = [(0, Res.ok ⟨0, 0, List.replicate 8 0⟩)])⟩

theorem test_meets_ControlRegisters :
    let rd := fun (n : BitVec 12) (w : Bool) => Instr.rdcr ⟨.always, w, n, if w then .v 4 else .v 1, .v 0⟩
    let wr := fun (n : BitVec 12) (w : Bool) => Instr.wrcr ⟨.always, w, n, .none false, if w then .s 5 else .v 5⟩
    issues user [rd 0x001 false, rd 0x002 false, rd 0x003 false, rd 0x004 false, wr 0x001 false, wr 0x002 false] = true
    ∧ issues (boss fun g => g) [rd 0x100 true, rd 0x117 true, rd 0x200 true, wr 0x003 false, wr 0x100 true, wr 0x102 true,
        wr 0x104 true, wr 0x117 true] = true
    ∧ ((boss fun g => g).core 0).copies.find? 0 = none
    ∧ (let s := boss fun g => { g with asid := 1 }
       ((s.core s.cur.core).copies.find? s.me.asid).isSome = true ∧ issuable (wr 0x104 true) s = true) := by decide +kernel

/-- The supervisor group with a PENDING entry 2 and a claimed one, 5, of group 0, whose lanes stand PARKED in slot 0. -/
def landed : State :=
  let s := boss fun g => { g with s := [(3, 5), (4, 0x100000)] }
  let e : Landing := { Landing.free with
    pc := 0x100000, mask := BitVec.allOnes 32, cause := Cause.syscall, state := .pending, asid := 1, rcv := noRcv }
  let s := (s.setEntry 0 2 { e with seq := 1 }).setEntry 0 5 { e with state := .inService }
  (s.setGroup 0 0 { user.me with slot0 := { user.mySlot with state := .parked } }).onCore 0 fun k =>
    { k with teams := [(0, placedTeam)] }

def privO (fn : BitVec 4) : PrivOp := ⟨.always, fn, none, none, none⟩

theorem test_meets_SupervisorInstructions :
    (supervises (.park { privO 0 with d := some 9 }) { privO 0 with d := some 9 } landed ∧ Store.rising (landed.core 0).landing = true
      ∧ (landed.entry 0 2).state = .pending)
    ∧ (supervises (.park { privO 1 with d := some 9 }) { privO 1 with d := some 9 } (boss fun g => g)
      ∧ ∀ x ∈ ((boss fun g => g).core 0).landing, x.2.state ≠ .pending)
    ∧ (let o : PrivOp := { privO 0 with a := some 3 }
       supervises (.unpark o) o landed ∧ (landed.me.opt o.a).toNat = 5 ∧ (landed.entry 0 5).resolvable = true
        ∧ (landed.entry 0 5).gslot ≠ Config.supervisorSlot ∧ landed.obeyed 0 5 0 = true ∧ (landed.tryResolve 0 5 0).2 = true)
    ∧ (let o : PrivOp := { privO 0 with a := some 4 }
       supervises (.unpark o) o landed ∧ 2048 ≤ (landed.me.opt o.a).toNat)
    ∧ (let o : PrivOp := { privO 0 with a := some 3, b := some 4 }
       supervises (.tlbi o) o landed ∧ landed.usesNamed (.page 0 5) = false)
    ∧ (let o : PrivOp := { privO 0 with a := some 3 }
       supervises (.halt o) o landed ∧ supervises (.haltRelease { o with fn := 1 }) { o with fn := 1 } landed)
    ∧ (landed.hasTeam 0 0 = true ∧ (landed.me.opt (some 9)).toNat = 0) := by
  unfold supervises; decide +kernel

/-- The context's registers on core 0. -/
def withRegs (s : State) (f : CtxRegs → CtxRegs) : State :=
  s.onCore 0 fun k => { k with copies := k.copies.set 1 (f (k.copies.get .zero 1)) }

/-- A team stands beside the supervisor group; s3 is 0x100400, s4 the context's number, and the slipway is not mapped. -/
def moveState (slip : Word) : State :=
  let s := withRegs landed fun r => { r with slip := slip }
  (s.onMe fun g => { g with s := [(3, 0x100400), (4, 1), (6, BitVec.ofNat 64 (blockBase + 256)), (7, 0x112000)] }).onCtx 1
    fun x => { x with exists_ := true, swapl := 1 }

/-- Bytes of memory from an address on. -/
def at_ (pa : Nat) (l : List (Nat × Byte)) : Store Byte := l.map fun e => (pa + e.1, e.2)

/-- Slot 0 of the slipway at 0x110000, in a state, names the record at 0x112000 of team 0 of launch 1: one group of 32 registers. -/
def backState (st : Byte) : State :=
  let s := withRegs (boss fun g => { g with s := [(7, 0x112000)] }) fun r => { r with slip := 0x110000 }
  { (s.onCtx 1 fun x => { x with exists_ := true, swapl := 1 }) with
    mem := tables.take 2 ++ at_ 0x110000 [(1, 0x20), (2, 0x11), (8, 1), (0x14, st)]
      ++ at_ 0x112000 [(0, 1), (2, 1), (8, 1), (0x1D, 1), (0x39, 2), (0x79, 0x1A), (0x242, 0x20)] ++ tables.drop 2 }

theorem test_meets_ContextsAndTeamsMove :
    let s := moveState 0x40000000
    let o : PrivOp := { privO 0 with a := some 3, b := some 4 }
    (supervises (.ctxSave o) o s ∧ (s.me.opt o.a).toNat % 64 = 0 ∧ blockOf (s.me.opt o.a).toNat = none
      ∧ isPeer (s.me.opt o.a).toNat = false ∧ isPeer ((s.me.opt o.a).toNat + 255) = false)
    ∧ (supervises (.ctxSave { o with a := some 6 }) { o with a := some 6 } s ∧ blockOf (s.me.opt (some 6)).toNat = some 1)
    ∧ (supervises (.ctxLoad o) o s ∧ (s.core 0).copies.length < 16)
    ∧ (let q : PrivOp := { privO 0 with d := some 9, a := some 9 }
       supervises (.teamOut q) q s ∧ mayLeave s 0 (s.me.opt q.a).toNat ∧ s.ownMove 0 = false
        ∧ ((s.beginMove 0 0).continueOut 0 0).2 = some 3
        ∧ supervises (.teamOut { q with a := some 3 }) { q with a := some 3 } s ∧ 64 ≤ (s.me.opt (some 3)).toNat)
    ∧ (let q : PrivOp := { privO 0 with d := some 9, a := some 7 }
       supervises (.teamIn q) q (backState 2) ∧ ((backState 2).tryTeamIn 0 ((backState 2).me.opt q.a)).2 = .ok 0
        ∧ noneKilled (backState 2) ∧ supervises (.teamIn q) q s ∧ (s.tryTeamIn 0 (s.me.opt q.a)).2 = .ok 1
        ∧ (let far := { peerState with cur := s.cur, cores := s.cores }.onMe fun g => { g with s := [(7, 0x8000000)] }
           supervises (.teamIn q) q far ∧ fine (far.tryTeamIn 0 (far.me.opt q.a)).2 = true))
    ∧ (let draining := s.onCore 0 fun k => { k with svc := .draining }
       wellFormed (.rotation 0 0) = true ∧ s.tripped = false ∧ s.movedHere 0 0 = false ∧ (s.team 0 0).halts = []
        ∧ (s.team 0 0).hostAsked = false ∧ (s.core 0).leaving = false
        ∧ mayLeave draining 0 0 ∧ (draining.core 0).leaving = true
        ∧ ((draining.beginMove 0 0).continueOut 0 0).2 = some 3)
    ∧ (let q : PrivOp := { privO 0 with d := some 9, a := some 9 }
       let kept := s.onTeam 0 0 fun x => { x with halts := [.unsaved] }
       supervises (.teamOut q) q kept ∧ kept.hasTeam 0 0 = true ∧ (kept.team 0 0).moving = false ∧ (kept.team 0 0).dumped = false
        ∧ (kept.team 0 0).unsaved = true ∧ kept.ownMove 0 = false ∧ kept.swapBusy 1 = false ∧ (kept.team 0 0).asid = 1
        ∧ kept.findTeam (kept.ctx 1).swapl 0 = some (0, 0))
    ∧ (let w : Word := 0x10000000000
       wellFormed (.swapreqOut 1 w) = true ∧ s.boot ≠ .ioOnly ∧ s.tripped = false ∧ s.swapBusy 1 = false ∧ w.extractLsb' 40 2 = 1
        ∧ s.findTeam (s.ctx 1).swapl (w.extractLsb' 0 32).toNat = some (0, 0) ∧ (s.team 0 0).asid = 1
        ∧ ((((s.beginMove 0 0).onTeam 0 0 fun x => { x with hostAsked := true }).onCtx 1
            fun y => { y with swapstat := 0x100 }).continueOut 0 0).2 = some 3
        ∧ s.findTeam (s.ctx 1).swapl ((w ||| 9 : Word).extractLsb' 0 32).toNat = none)
    ∧ (let w : Word := 0x20000000000
       let b := backState 1
       wellFormed (.swapreqIn 1 w 0) = true ∧ b.boot ≠ .ioOnly ∧ b.tripped = false ∧ b.swapBusy 1 = false
        ∧ w.extractLsb' 40 2 = 2 ∧ noneKilled b
        ∧ ((b.onCtx 1 fun y => { y with swapstat := 0x100, swapAsk := some (0, (b.ctx 1).swapl, 0) }).swapInSlot 0 1
            fun y => y.launch == (b.ctx 1).swapl && y.tid == (w.extractLsb' 0 32).toNat).2 = some 0)
    ∧ (wellFormed (.teamSwapInDispatch 1 0 0) = true ∧ (backState 1).serving 0 = true
      ∧ ((backState 1).swapInSlot 0 1 (fun y => y.at_ == ((backState 1).regs 0 1).slip)).2 = some 0) := by
  unfold supervises mayLeave noneKilled
  refine ⟨?_, ?_, ?_, ?_, ?_, ?_, ?_, ?_, ?_, ?_⟩ <;> decide +kernel

theorem test_meets_ResolutionsAct_entry :
    claimed landed 0 5 ∧ landed.skipLen 0 5 = .ok 8 ∧ landed.hasTeam 0 (landed.entry 0 5).team = true
    ∧ (let s := landed.onEntry 0 5 fun e => { e with access := Access.fetch.code }
       claimed s 0 5 ∧ s.skipLen 0 5 = .ok 0)
    ∧ (let s := landed.onEntry 0 5 fun e => { e with pc := 0x8000000 }
       claimed s 0 5 ∧ (match s.skipLen 0 5 with | .no _ => true | _ => false) = true)
    ∧ (let s := (landed.onGroup 0 0 fun g => { g with stack := (List.range 32).map fun l => (l, 0x108000) })
       claimed s 0 5 ∧ (match (s.frameSpots 0 0 (lanes (s.entry 0 5).mask)).2 with
        | .ok fs => fs.all fun r => fine r.2.2
        | _ => false) = true) := by
  unfold claimed; decide +kernel

theorem test_meets_ResolutionsAct_host :
    (let w : Word := 0x0000000100000200 ||| 0x0000000000000300
     (w.extractLsb' 0 8).toNat = 0 ∧ (w.extractLsb' 8 11).toNat = 3 ∧ (w.extractLsb' 19 3).toNat = 0
      ∧ (let s := landed.onEntry 0 3 fun _ => { landed.entry 0 5 with seq := 1 }
         (s.entry 0 3).seq = w.extractLsb' 32 32 ∧ (s.entry 0 3).resolvable = true ∧ (s.entry 0 3).asid = 1
          ∧ s.boot ≠ .ioOnly))
    ∧ (let s := landed.onTeam 0 0 fun t => { t with halts := [.halt] }
       s.hasTeam 0 0 = true ∧ (s.team 0 0).asid = 1 ∧ (s.team 0 0).halted = true ∧ (s.groupsOf 0 0).map (·.1) = [0])
    ∧ (let s := tokState .faulted
       s.resolveToken 1 false (handleOf 1 0 3) = .live 0 3 (opIn .faulted) ∧ s.op? 0 3 = some (opIn .faulted)
        ∧ (opIn .faulted).op ≠ 0x96 ∧ s.boot ≠ .ioOnly) := by
  decide +kernel

/-- The context traces into a ring of 16 units at 0x110000. -/
def traceState : State := user.onCtx 1 fun x => { x with dbg := { x.dbg with trbase := 0x110000, trcfg := 0x104 } }

theorem apart_span (a n : Nat) (h : a + n ≤ peerBase) : spansApart [(a, n)] :=
  ⟨fun x hx => by rw [List.mem_singleton.mp hx]; exact .inl h, List.pairwise_singleton _ _⟩

theorem test_meets_TraceAndCounters :
    issues user [.trace .always .imm 3 (.i 7), .mark .always (.s 5) .a, .rdctr .always true (.s 12) .imm (.i 15),
      .rdctr .always false (.v 4) .imm (.i 0)] = true
    ∧ user.me.active user.mySlot.mask .always ≠ 0 ∧ (user.ctx user.me.asid).dbg.trcfg.getLsbD 8 = false
    ∧ (issues traceState [.trace .always .imm 3 (.i 7), .mark .always (.s 5) .a] = true ∧ traceRoom traceState 3
      ∧ traceRoom traceState 1)
    ∧ (let s := traceState.onCtx 1 fun x => { x with dbg := { x.dbg with trprod := 16 } }
       2 ^ ((s.ctx 1).dbg.trcfg.extractLsb' 0 5).toNat = ((s.ctx 1).dbg.trprod - (s.ctx 1).dbg.trcons).toNat)
    ∧ (issuable (.rdctr .always true (.s 12) .imm (.i 16)) user = true
      ∧ canTrap (user.me.active user.mySlot.mask .always) user)
    ∧ (let s : State := { user with time := 2 ^ 20, ticked := 0 }
       s.time % 2 ^ s.tick = 0 ∧ s.ticked ≠ s.time ∧ ((s.core 0).copies.find? 1).isSome = true
        ∧ ({ s with time := 1 } : State).time % 2 ^ s.tick ≠ 0) :=
  ⟨by decide +kernel, by decide +kernel, by decide +kernel,
    ⟨by decide +kernel, ⟨by decide +kernel, by decide +kernel, by decide +kernel, apart_span _ _ (by decide +kernel)⟩,
      by decide +kernel, by decide +kernel, by decide +kernel, apart_span _ _ (by decide +kernel)⟩,
    by decide +kernel, ⟨by decide +kernel, canTrap_of (by decide +kernel)⟩, by decide +kernel⟩

/-- Entry 2 of core 0 reports lane 0 of the user group at 0x200000, whose page-table entry is at 0x204000; the ring at 0x110000
gives the frame 0x300000. `e` is the page-table entry by bytes. -/
def serviceState (cause : BitVec 8) (access : Access) (svc : Word) (e : List (Nat × Byte)) : State :=
  let s := withRegs user fun r => { r with svcmode := svc, freering := 0x110000 }
  let s := s.setEntry 0 2 { Landing.free with
    pc := 0x100000, mask := 1, cause := cause, state := .pending, asid := 1, rcv := noRcv, access := access.code,
    detail := [(0, 0x200000)] }
  { (s.onCtx 1 fun x => { x with dbg := { x.dbg with drainbase := 0x120000, draincfg := 0x100 } }) with
    mem := tables.take 2 ++ at_ 0x110000 [(0, 1), (8, 1), (0x42, 0x30)] ++ tables.drop 2
      ++ at_ 0x203008 [(0, 1), (1, 0x40), (2, 0x20)] ++ at_ 0x204000 e }

theorem spans_of {l : List (Nat × Nat)}
    (h : (l.all fun x => decide (x.1 + x.2 ≤ peerBase)) = true)
    (hp : l.Pairwise fun x y => x.1 + x.2 ≤ y.1 ∨ y.1 + y.2 ≤ x.1) : spansApart l :=
  ⟨fun x hx => .inl (by simpa using List.all_eq_true.mp h x hx), hp⟩

theorem test_meets_ServicesAct_pages :
    (let s := serviceState Cause.notPresent .read 1 [(6, 0x40)]
     s.serving 0 = true ∧ (s.entry 0 2).state = .pending ∧ (s.entry 0 2).mask = BitVec.twoPow 32 0
      ∧ s.pageAt 0 1 0x200000 = .entry 0x204000 0x0040000000000000 0 ∧ s.nextFrame 0 1 = .ok (some 0x300000) ∧ (s.regs 0 1).svcmode.getLsbD 0 = true ∧ (s.regs 0 1).freering.toNat = 0x110000)
    ∧ spansApart [(0x204000, 8), (0x300000, 4096), (0x110004, 4)]
    ∧ (let s := serviceState Cause.permission .write 4 [(0, 0x9B), (2, 0x31)]
       s.serving 0 = true ∧ s.pageAt 0 1 0x200000 = .entry 0x204000 0x31009B 0 ∧ s.nextFrame 0 1 = .ok (some 0x300000)
        ∧ (s.entry 0 2).writing = true ∧ s.cowPage 0x31009B 0 (s.group 0 (s.entry 0 2).gslot).privileged = true
        ∧ s.joinedLeaf (s.svcAgent 0 1) 0x204000 0x31009B = false ∧ (s.regs 0 1).svcmode.getLsbD 2 = true ∧ (s.ctx 1).dbg.drainRoom = true)
    ∧ spansApart [(0x204000, 8), (0x300000, 4096), (0x110004, 4), (0x310000, 4096), (0x120000, 32)] :=
  ⟨by decide +kernel, spans_of (by decide) (by decide), by decide +kernel, spans_of (by decide) (by decide)⟩

/-- `landed` with a fault ring of 16 messages at 0x110000. -/
def ringed : State :=
  { (withRegs landed fun r => { r with fring := 0x110000 }) with
    mem := tables.take 2 ++ at_ 0x110000 [(8, 16)] ++ tables.drop 2 }

theorem test_meets_ServicesAct_messages :
    (landed.serving 0 = true ∧ (landed.entry 0 2).state = .pending ∧ landed.decide 0 2 = .post .syscall
      ∧ (landed.regs 0 1).fring.toNat = 0)
    ∧ (ringed.decide 0 2 = .post .syscall ∧ (ringed.ctx 1).msgs = [] ∧ (ringed.regs 0 1).fring.toNat = 0x110000
      ∧ ringed.ring (ringed.svcAgent 0 1) 0x110000 = .ok ⟨0, 0, 16⟩ ∧ (ringed.core 0).landbase.toNat + 320 * 2 = 640)
    ∧ spansApart [(0x110000, 64 + 64 * 16), (640, 320)]
    ∧ (let m := tokenMsg (opIn .faulted)
       let s := ringed.onCtx 1 fun x => { x with msgs := [m] }
       (s.ctx 1).msgs = [m] ∧ m.asid = 1 ∧ s.tripped = false ∧ s.msgRing m.core 1 = .ok (some ⟨0, 0, 16⟩)) :=
  ⟨by decide +kernel, by decide +kernel, spans_of (by decide) (by decide), by decide +kernel⟩

theorem test_meets_ServicesAct_tokens :
    (let op := { opIn .faulted with refused := 0x200000 }
     let on := fun (s : State) => s.setToken 0 3 ⟨1, .live op, false, 0⟩
     let s := on (serviceState Cause.notPresent .read 1 [(0, 0x7F)])
     let t := on (serviceState Cause.notPresent .read 1 [(6, 0x40)])
     s.op? 0 3 = some op ∧ op.posted = false ∧ s.tripped = false ∧ (s.core 0).faulted = false
      ∧ s.opService 0 op = .present
      ∧ (match t.opService 0 op with | .done u => decide (u.op? 0 3 = some op) | _ => false) = true
      ∧ ((s.onCore 0 fun k => { k with faulted := true }).core 0).faulted = true)
    ∧ (let s := (tokState .faulted).setOp 0 3 { opIn .faulted with cause := Cause.align }
       s.opService 0 { opIn .faulted with cause := Cause.align } = .no ∧ (opIn .faulted).orphan = false) := by
  decide +kernel

theorem test_meets_ServicesAct_groups :
    (let s := { (withRegs user fun r => { r with wdog := 16 }) with time := 65536 }
     (s.ctx 1).exists_ = true ∧ s.hasWork 1 = true ∧ s.windowOver 1 = true)
    ∧ ((user.core 0).faulted = false
      ∧ (let s := user.onMe fun g => { g with outstanding := 1 }
         s.inFlight 0 0 < (s.group 0 0).outstanding))
    ∧ (let w : Slot := { user.mySlot with state := .wait, mask := 0xFFFF }
       let s := user.onMe fun g => { g with slot0 := w, slot1 := { w with mask := 0xFFFF0000 } }
       (s.group 0 0).live = true ∧ (s.group 0 0).slot0.rcv = (s.group 0 0).slot1.rcv ∧ (s.group 0 0).depth = 0)
    ∧ (let s := user.onMe fun g => { g with slot0 := .empty }
       Store.rising (s.core 0).groups = true ∧ Store.rising s.cores = true ∧ s.groupsOf 0 0 = [(0, s.me)]
        ∧ s.hasTeam 0 0 = true ∧ s.allExited 0 0 = true ∧ (s.tryEnd 0 0).2 = true) := by decide +kernel

/-- An operation that runs, its next unit idle or checked. -/
def engineState (op : Op) (u : UnitState) (f : Group → Group) : State :=
  (engState.setToken 0 3 ⟨1, .live { op with state := .running, started := true, unit := u }, false, 0⟩).onMe f

def feedOp : Op := { opIn .running with op := 0x97, dst := 1, src := 0, len := 2, fp := 2, tiles := [], started := true, byTeam := some 0 }
def mmaOp : Op := { opIn .running with
  op := 0xB0, dst := 0, src := 4, x := 0xFFFFFFFF, len := 2, fp := 0, tiles := [], started := true, byTeam := some 0 }

/-- A slice of the formats that mode 0 takes. -/
def slice0 (col : Bool) : Slice := ⟨(if col then ((modeFmts 0).2.1).getD 0 else (modeFmts 0).1), (modeFmts 0).2.2, col, [], []⟩

def fed (g : Group) : Group := { g with streams := [(0, [slice0 false]), (1, [slice0 true])] }

/-- The next unit of a copy can be performed, and its tries leave the operation. -/
def copies (s : State) (op : Op) (far : Bool) : Bool :=
  match s.tryCopy 0 op with
  | (u, .ok p) => decide (u.op? 0 3 = some op) && ((peerSectors p.writes).isEmpty != far)
      && (peerSectors p.writes).all fun x => (op.agent 0).answer (.sector (32 * x.sec)) 0 == some .ok
  | _ => false

def running (op : Op) (u : UnitState) : Op := { op with state := .running, started := true, unit := u }

/-- A copy of the first words of the scratchpad to 64, and one whose destinations a list of three at 0x100200 gives. -/
def padOp : Op := { opIn .running with
  fn := 5, src := spaceAddr 1 0, dst := spaceAddr 1 64, len := 32, byTeam := some 0, tiles := [] }
def castOp : Op := { opIn .running with op := 0x95, fp := 2, x := 0x100200, tiles := [] }

theorem test_meets_EnginesWork_starts :
    (let op := { opIn .issued with hold := false }
     let at_ := fun (op : Op) => engState.setToken 0 3 ⟨1, .live op, false, 0⟩
     let s := at_ op
     let done := { op with cursor := op.units }
     s.op? 0 3 = some op ∧ op.state = .issued ∧ op.hold = false ∧ s.predState op.pred1 = none ∧ s.predState op.pred2 = none
      ∧ s.stopping 0 op = false ∧ s.running 0 < 64 ∧ s.startsLater 0 op = false
      ∧ (match (s.startHolds op).1 with | .ok _ => true | _ => false) = true ∧ op.cursor < op.units
      ∧ (at_ done).startsLater 0 done = false ∧ done.units ≤ done.cursor ∧ done.isStep = false
      ∧ (match ((at_ done).startHolds done).1 with | .ok _ => true | _ => false) = true)
    ∧ (let op := running (opIn .running) .idle
       let s := engineState op .idle id
       atEngine s 0 3 op false ∧ op.quiescent = true ∧ op.cancel = false ∧ op.preempt = false ∧ s.recals 0 op = false
        ∧ ({ op with cancel := true } : Op).quiescent = true ∧ ({ op with preempt := true } : Op).quiescent = true)
    ∧ (let s := (engineState feedOp .idle id).onCore 0 fun k => { k with recalBusy := true }
       let op := running feedOp .idle
       atEngine s 0 3 op false ∧ op.quiescent = true ∧ op.cancel = false ∧ s.recals 0 op = true) := by
  unfold atEngine; decide +kernel

theorem test_meets_EnginesWork_copies :
    (let op := opIn .running
     let s := engineState op .idle id
     let t := engineState op .checked id
     atEngine s 0 3 (running op .idle) false ∧ s.serves 0 3 (running op .idle) = true ∧ op.isCopy = true
      ∧ copies s (running op .idle) false = true ∧ atEngine t 0 3 (running op .checked) true
      ∧ copies t (running op .checked) false = true ∧ op.partition = false ∧ op.lk ≠ .barrier)
    ∧ (let s := engineState padOp .idle id
       atEngine s 0 3 (running padOp .idle) false ∧ s.serves 0 3 (running padOp .idle) = true ∧ padOp.op = 0x90
        ∧ padOp.srcSpace = 1 ∧ padOp.dstSpace = 1 ∧ padOp.byTeam = some 0 ∧ padOp.lk ≠ .barrier
        ∧ atEngine (engineState padOp .checked id) 0 3 (running padOp .checked) true)
    ∧ (let s := engineState castOp .idle id
       let op := running castOp .idle
       atEngine s 0 3 op false ∧ s.serves 0 3 op = true ∧ op.op = 0x95 ∧ op.list = [] ∧ op.fp.toNat % 8 + 1 = 3
        ∧ (match (s.tryList 0 op 0 3 []).2.1 with | .ok _ => true | _ => false) = true)
    ∧ (let op := { running (opIn .running) .checked with
         fn := 0, dst := 0x200000, src := 0x100200,
         got := [⟨.sector (peerBase + 5 * 2 ^ 40), .ok, 0⟩] }
       let s := { engState with mem := peerState.mem, domValid := true, ports := peerState.ports, routes := peerState.routes }.setToken
         0 3 ⟨1, .live op, false, 0⟩
       atEngine s 0 3 op true ∧ copies s op true = true) := by
  unfold atEngine; decide +kernel

theorem test_meets_EnginesWork_matrix :
    (let s := engineState feedOp .idle id
     let op := running feedOp .idle
     atEngine s 0 3 op false ∧ s.serves 0 3 op = true ∧ feedOp.isFeed = true
      ∧ s.earlier 0 op (fun x => x.isFeed && x.dst == op.dst) = false ∧ ((s.group 0 op.byGslot).stream 1).length < 4
      ∧ atEngine (engineState feedOp .checked id) 0 3 (running feedOp .checked) true ∧ feedOp.lk ≠ .barrier
      ∧ feedOp.byTeam = some 0)
    ∧ (let s := (engineState { feedOp with lk := .barrier, link := 64 } .checked id).onTeam 0 0 fun t =>
         (t.setWord 64 (bwMake false 1 1 2)).setTag 64 3
       (s.team 0 0).tag 64 = 3 ∧ plainWord s 0 0 64)
    ∧ (let s := engineState mmaOp .idle fed
       let op := running mmaOp .idle
       atEngine s 0 3 op false ∧ s.serves 0 3 op = true ∧ op.isMma = true ∧ op.fa ≠ op.fb
        ∧ s.earlier 0 op (fun x => x.isMma && (x.dst == op.dst || x.usesStream op.fa || x.usesStream op.fb)) = false
        ∧ (s.group 0 op.byGslot).stream op.fa = [slice0 false] ∧ (s.group 0 op.byGslot).stream op.fb = [slice0 true]
        ∧ slicesMatch op.mode (slice0 false) (slice0 true) = true ∧ op.byTeam = some 0
        ∧ atEngine (engineState { mmaOp with slices := [slice0 false, slice0 true] } .checked id) 0 3
            { running mmaOp .checked with slices := [slice0 false, slice0 true] } true) := by
  unfold atEngine plainWord; decide +kernel

/-- Queue 0 of context 1, RUN with 16 slots at 0x110000; slot 1 holds a packet by bytes. -/
def queueState (bs : List (Nat × Byte)) : State :=
  { user with
    queues := [(0, { Queue.reset with base := 0x110000, cfg := 0x40001, state := .run })],
    mem := tables.take 2 ++ at_ 0x110080 bs ++ tables.drop 2 }

/-- A packet of the queue, consumed under SEQ 1. -/
def packet1 (ws : List Word) : Packet := ⟨1, ws ++ List.replicate (16 - ws.length) 0, false, false, false, false, 0, 0⟩

def withPacket (p : Packet) : State := (queueState []).onQueue 0 fun x => { x with packets := [p], cons := 1 }

/-- Nothing went wrong, and the value is as told. -/
def readsTo {α : Type} [DecidableEq α] (r : State × Res α) (q : Nat) (s : State) (x : α) : Bool :=
  decide (r.2 = .ok x) && decide (r.1.queue q = s.queue q)

/-- What the queue's engine reads of its next slot. -/
def looked (s : State) : State × Res (List Word) := (looksAnew s 0).queueWords ⟨queueCore, 1, false, [], 0⟩ 16 0x110080

theorem test_meets_QueuesWork_controls :
    (let s := (queueState []).onQueue 0 fun x => { x with state := .disabled }
     s.boot = .service ∧ (s.queue 0).state = .disabled ∧ ((s.queue 0).cfg.extractLsb' 16 5).toNat = 4
      ∧ ((s.queue 0).cfg.extractLsb' 0 16).toNat = 1 ∧ (s.ctx 1).exists_ = true)
    ∧ ((queueState []).boot ≠ .ioOnly ∧ ((queueState []).queue 0).state = .run
      ∧ ((queueState []).queue 0).base + BitVec.ofNat 64 (128 * ((((queueState []).queue 0).cons + 1).toNat % 16)) = 0x110080
      ∧ ((queueState []).queue 0).asid = 1)
    ∧ (let r := looked (queueState [(0, 0x21), (4, 1)])
       r.2 = .ok (packet1 [0x100000021]).words ∧ r.1.refusal 1 (packet1 [0x100000021]).words = 0)
    ∧ (let r := looked (queueState [(0, 0xF1), (4, 1)])
       r.2 = .ok (packet1 [0x1000000F1]).words ∧ r.1.refusal 1 (packet1 [0x1000000F1]).words = 1)
    ∧ (looked (queueState [])).2 = .ok (List.replicate 16 0)
    ∧ (match (looked { queueState [] with mem := [] }).2 with | .no _ => true | _ => false) = true := by decide +kernel

theorem test_meets_QueuesWork_packets :
    (let p := packet1 [0x100000021, 0, 0x100400, 7, 0]
     let s := withPacket p
     s.startable 0 1 2 = some p ∧ readsTo (s.queueWords (s.queueAgent 0 (startJob 1)) 1 0x100400) 0 s [0] = true
      ∧ ((withPacket { p with started := true }).queue 0).packet 1 = some { p with started := true } ∧ packetKind p.words = 2)
    ∧ (let p := packet1 [0x100000031, 0, 0x100400, 7, 1]
       let s := withPacket p
       let r := s.translate (s.queueAgent 0 (startJob 1)) 0x100400 .rmw
       let t := s.onQueue 0 fun x => { x with got := [(startJob 1, ⟨.amo peerBase wordLane, .ok, 0⟩)] }
       s.startable 0 1 3 = some p ∧ (s.queueAgent 0 (startJob 1)).atomGot wordLane = none ∧ s.atomSent 0 (startJob 1) = none
        ∧ (match r.2 with | .ok w => decide (w.pa = 0x100400) | _ => false) = true
        ∧ (r.1.core 192).dirty = [] ∧ r.1.queue 0 = s.queue 0
        ∧ t.startable 0 1 3 = some p ∧ (t.queueAgent 0 (startJob 1)).atomGot wordLane = some .ok)
    ∧ (let p := packet1 [0x100000011, 0, 0, 0, 0x0001000100000002, 0x0000002000010101, 0, 0x0C]
       (withPacket p).startable 0 1 1 = some p)
    ∧ (let p := { packet1 [0x100000821, 0, 0x100400, 0, 0] with started := true, finished := true }
       let s := withPacket p
       let t := s.onQueue 0 fun x => { x with state := .error, errCode := 1 }
       (s.queue 0).packet 1 = some p ∧ s.packetDone 0 p = true ∧ t.packetDone 0 p = true
        ∧ (s.decrement (s.queueAgent 0 (retireJob 1)) 0 (retireJob 1) (packetSignal p.words) (retireCount p.words 1)).2 = .ok ())
    ∧ (let p := { packet1 [0x100000821, 0x8000000, 0, 0, 0] with started := true, finished := true }
       let s := withPacket p
       s.packetDone 0 p = true ∧ packetSignal p.words ≠ 0
        ∧ (match (s.decrement (s.queueAgent 0 (retireJob 1)) 0 (retireJob 1) (packetSignal p.words) (retireCount p.words 1)).2
           with | .no _ => true | _ => false) = true) := by decide +kernel

/-- A COPY of 32 bytes within global memory, its handle not wanted; every token entry of core 0 is FREE. The same with the
handle of entry 7 in hand. -/
theorem test_meets_QueuesWork_copy :
    (let p := packet1 [0x100000041, 0, 0, 0xFF090]
     let s := withPacket p
     s.startable 0 1 4 = some p ∧ (s.core 0).svc = .inService ∧ field p.words 3 12 8 = 0xFF ∧ p.token = 0
      ∧ (s.tokenSlot 0).isSome = true ∧ ∀ h, s.storeHandle 0 1 0 h = (s, .ok ()))
    ∧ (let p := { packet1 [0x100000041, 0, 0, 0xFF090] with token := handleOf 1 0 7 }
       let s := withPacket p
       s.startable 0 1 4 = some p ∧ p.token ≠ 0 ∧ handleCore p.token = 0 ∧ handleSlot p.token = 7
        ∧ (s.token 0 7).use = .free) :=
  ⟨⟨by decide +kernel, by decide +kernel, by decide +kernel, by decide +kernel,
    Laws.tokenSlot_isSome (e := 255) (by omega) (by decide +kernel), fun _ => rfl⟩, by decide +kernel⟩

/-- A grid of two teams of one group of 32 registers, with a record of one word each at 0x100400. -/
def grid : Launch :=
  Machine.launchOf 0x0001000000000001 [0x11, 0, 0, 0x100400, 0x0001000100000002, 0x0000002000010101, 0, 0x0C] 2 1 1 none 0 0

/-- Placing a team leaves the grids of the dispatcher. -/
theorem placeTeam_launches (s : State) (c : Nat) (l : Launch) (lin st : Nat) (rec_ : List Word) :
    (s.placeTeam c l lin st rec_).launches = s.launches := by
  have hf : ∀ (xs : List (Nat × Nat)) (f : State → Nat × Nat → State), (∀ s x, (f s x).launches = s.launches) →
      ∀ s, (xs.foldl f s).launches = s.launches := by
    intro xs f h
    induction xs with
    | nil => exact fun _ => rfl
    | cons x xs ih => exact fun s => (ih (f s x)).trans (h s x)
  have hm : ((s.makeResident c l.asid).getD s).launches = s.launches := by
    unfold State.makeResident
    dsimp only
    split
    · rfl
    · split
      · rfl
      · split <;> rfl
  unfold State.placeTeam
  change State.launches (List.foldl _ _ _) = _
  refine (hf _ _ ?_ _).trans hm
  exact fun _ _ => rfl

theorem test_meets_QueuesWork_dispatch :
    (let s := { user with launches := [grid] }
     s.launchOf grid.id = some grid ∧ s.dealable grid = true ∧ (s.core 0).open = true ∧ s.chunkSize grid 0 ≠ 0
        ∧ ∀ x ∈ s.launches, s.dealable x = true → x.before grid = false)
    ∧ (let l := { grid with dealt := 2, chunks := [⟨0, 0, 2⟩] }
       let s := { user with launches := [l] }
       let r := s.queueWords ⟨queueCore, l.asid, false, (s.queue mergedQueue).answers (dealJob l), 0⟩ 1 (l.recordAt 0)
       wellFormed (.teamAdmit l.id 0 [0]) = true ∧ l.chunks.find? (fun k => k.core == 0) = some ⟨0, 0, 2⟩ ∧ l.stages = 1
        ∧ l.stopped = false ∧ field l.words 5 16 8 = 1 ∧ r.2 = .ok [0]
        ∧ ∃ v, r.1.placeAll l 0 [0] [(0, 0)] = some v ∧ v.launches = s.launches)
    ∧ (let o : OpenManifest := ⟨1, 0x100200, 1, [0, 0, 0, 0, 0, 0, 0, 0, 5], 0, 1, 0⟩
       let s := { user with opens := [o], time := 5 }
       s.openOf 1 0x100200 = some o ∧ o.words.getD 8 0 = 5 ∧ (o.words.getD 8 0).toNat ≤ s.time - o.first) := by
  refine ⟨by decide +kernel, ⟨by decide +kernel, by decide +kernel, by decide +kernel, by decide +kernel, by decide +kernel,
    by decide +kernel, _, if_pos (by decide +kernel), (placeTeam_launches _ _ _ _ _ _).trans (by decide +kernel)⟩, by decide +kernel⟩

theorem test_meets_HostControls :
    ((user.ctx 2).exists_ = false ∧ (user.ctx 1).exists_ = true ∧ user.ctxInUse 1 = true ∧ user.boot ≠ .ioOnly)
    ∧ (let s := user.onCtx 2 fun x => { x with exists_ := true }
       s.ctxInUse 2 = false ∧ (s.ctx 2).exists_ = true ∧ (s.ctx 2).dbg.dumpstat.getLsbD 8 = false)
    ∧ (let s := { user with deps := [(4095, ⟨1, 1, true⟩)] }.onCtx 1 fun x => { x with depidx := 4095 }
       (s.dep (s.ctx 1).depidx).owner = 1)
    ∧ ((user.onCtx 1 fun x => { x with dbg := { x.dbg with dumpstat := 0x100 } }).ctx 1).dbg.dumpstat.getLsbD 8 = true
    ∧ ((tokState .running).hasTeam 0 0 = true ∧ ((tokState .running).team 0 0).asid = 1
      ∧ (tokState .running).stillRunning 0 0 = true ∧ ((tokState .running).ctx 1).dbg.dumpstat.getLsbD 8 = false)
    ∧ (let s := user.onCtx 2 fun x => { x with dbg := { x.dbg with dumpbase := 0x110000, dumpsize := 4096 } }
       4096 ≤ (s.ctx 2).dbg.dumpsize.toNat ∧ (s.ctx 2).dbg.dumpbase.toNat = 0x110000 ∧ (s.cores.map (·.1)) = [0] ∧ s.teamsOf 0 2 = [])
    ∧ spansApart [(0x110000, 4096)]
    ∧ (user.groupsOf 0 0 = [(0, user.me)] ∧ user.me.number = 0 ∧ (user.team 0 0).tid = 0)
    ∧ (let s : State := { user with cores := [] }
       (∀ e ∈ s.cores, e.2.residents = []) ∧ min 8 ((8 : Word).extractLsb' 0 4).toNat ≠ s.carve ∧ s.boot ≠ .ioOnly
        ∧ user.cores.all (fun e => !e.2.residents.isEmpty) = true)
    ∧ (({ user with boot := .ioOnly } : State).boot = .ioOnly ∧ overBar (.notify 3) = true ∧ wellFormed (.notify 3) = true)
    ∧ (user.hostReach 0x110000 32 = true ∧ user.hostReach (hbmEnd - 1) 1 = true ∧ user.hostReach hostBase 1 = true) :=
  ⟨by decide +kernel, by decide +kernel, by decide +kernel, by decide +kernel, by decide +kernel, by decide +kernel,
    spans_of (by decide) (by decide), by decide +kernel, by decide +kernel, by decide +kernel, by decide +kernel⟩

/-- Peer 5 is reachable by port 0, which is UP; one byte of its memory was written here. A read of a line of it and an older
write-back of a sector are under way. -/
def fabricState : State :=
  { user with
    domValid := true, domId := 1, ports := [(0, ⟨0, false, 0, .up⟩)], routes := [(5, ⟨0, false, 1⟩)],
    peerDirty := [(peerBase + 5 * 2 ^ 40, ⟨7, [(0, 0)], none⟩), (peerBase + 5 * 2 ^ 40 + 64, ⟨8, [], some 4⟩)],
    performed := [(5, 7, 0)], nextTag := 5,
    requests := [⟨3, 5, 0, 0, .slot 0 0 0 (.line 1), .readLine, peerBase + 5 * 2 ^ 40⟩,
      ⟨4, 5, 0, 0, .writeback ((peerBase + 5 * 2 ^ 40 + 64) / 32) [(0, 0)], .write (List.replicate 32 8) 1,
        peerBase + 5 * 2 ^ 40 + 64⟩] }

theorem test_meets_FabricWorks_requests :
    (let sec := (peerBase + 5 * 2 ^ 40) / 32
     fabricState.reachable (peerOf (32 * sec)) = true ∧ sec / 4 = (peerBase + 5 * 2 ^ 40) / 128
      ∧ fabricState.peerDirty.find? (peerBase + 5 * 2 ^ 40) = some ⟨7, [(0, 0)], none⟩)
    ∧ (let s := fabricState.onMySlot fun x => { x with state := .blocked }
       let late : State := { s with time := 2 ^ 24 }
       (s.sentRequest 3).map (·.op) = some .readLine ∧ 3 < s.nextTag ∧ ((s.group 0 0).slot 0).state = .blocked
        ∧ ((s.group 0 0).slot 0).asked ≤ 3
        ∧ s.time < 0 + 2 ^ s.tmoexp ∧ answeredBy .readLine (.data (List.replicate 128 0)) = true
        ∧ answeredBy .readLine .ok = false ∧ 0 + 2 ^ late.tmoexp ≤ late.time
        ∧ (s.sentRequest 4).map (·.target) = some 5 ∧ answeredBy (.write (List.replicate 32 8) 1) .ok = true
        ∧ (s.core queueCore).dirty = [])
    ∧ (fabricState.linked = true ∧ user.linked = false ∧ fabricState.duplicate 5 7 = true ∧ fabricState.duplicate 5 8 = false ∧ fabricState.own 0 = true
      ∧ fabricState.own (2 ^ 40 - 1) = false ∧ homeAtomic .fadd .b64 = true ∧ homeAtomic .add .b128 = false
      ∧ (reduced .s32 (fabricState.readMem 0 32) (List.replicate 32 1)).isSome = true) := by decide +kernel

theorem test_meets_FabricWorks_links :
    ((fabricState.port 0).state = .up ∧ (fabricState.port 0).retire = false ∧ (fabricState.port 1).state = .down
      ∧ (fabricState.port 1).retire = false ∧ fabricState.domValid = true ∧ fabricState.boot = .service)
    ∧ ((fabricState.port 2).retire = false ∧ (∀ r ∈ fabricState.requests, r.port ≠ 2)
      ∧ ((fabricState.setPort 2 ⟨0, true, 0, .retired⟩).port 2).retire = true)
    ∧ ((fabricState.route 5).down = false ∧ (fabricState.core queueCore).dirty = []
      ∧ ((fabricState.setRoute 5 ⟨0, true, 1⟩).route 5).down = true
      ∧ (fabricState.setRoute 5 ⟨0, true, 1⟩).upPorts 5 = [0])
    ∧ (fabricState.time % 1000 = 0 ∧ ({ fabricState with time := 1001 } : State).time % 1000 ≠ 0)
    ∧ (let s : State := { fabricState with tsmaster := true, time := 65536 }
       s.time % 65536 = 0 ∧ s.synced ≠ s.time ∧ fabricState.tsmaster = false)
    ∧ ((fabricState.upPorts 5).head? = some 0 ∧ fabricState.tsmaster = false
      ∧ (fabricState.upPorts 6).head? ≠ some 0) := by decide +kernel

/-- Region 7 armed with peer 5 as its neighbour, its replica at 0x400000 and its descriptor at 0x130700, which describes it;
region 8 is described at 0x130800 with the same frame. -/
def shuttleState (stepped : Bool) (held : List HeldHalf) : State :=
  let d : List (Nat × Byte) := [(0, 1), (2, 1), (4, 1), (6, 1), (10, 0x20), (18, 0x40), (24, 5)]
  { fabricState with
    time := 1000, gspBase := 0x130000, regions := (gspState stepped).regions, heldHalves := held,
    mem := tables.take 2 ++ at_ 0x130700 d ++ at_ 0x130800 d ++ at_ 0x130900 (d.map fun e => if e.1 = 18 then (18, 0x50) else if e.1 = 10 then (10, 0x30) else e)
      ++ tables.drop 2 }

theorem regionApart7 (b : Bool) (hs : List HeldHalf) : regionApart (shuttleState b hs) 7 := by
  refine ⟨?_, ?_⟩
  · have h1 : ((shuttleState b hs).region 7).frame = 0x400000 := rfl
    have h2 : (shuttleState b hs).gspBase = 0x130000 := rfl
    rw [h1, h2]
    exact spans_of (by decide) (by decide)
  · show [5].length ≤ 8
    decide

theorem test_meets_GossipWorks_arm :
    let s := shuttleState false []
    let nbs := fun (i : Nat) => (List.range 8).map fun n => BitVec.ofNat 16 (leNat (s.deviceRead (0x130000 + 256 * i + 24 + 2 * n) 2))
    let bad := fun (i : Nat) => s.badDescriptor (s.device64 (0x130000 + 256 * i)) (s.device64 (0x130000 + 256 * i + 8))
      (s.device64 (0x130000 + 256 * i + 16)) (nbs i)
    bad 0 = true ∧ bad 8 = false ∧ bad 9 = false ∧ (s.region 8).disarming = false
      ∧ (s.region 7).frame = (s.device64 (0x130800 + 16)).toNat ∧ (s.region 7).armed = true
      ∧ (s.region 7).frame ≠ (s.device64 (0x130900 + 16)).toNat ∧ (s.region 7).va ≠ s.device64 (0x130900 + 8)
      ∧ s.regions.map (·.1) = [7] := by decide +kernel

def heldH : HeldHalf := ⟨7, 5, 0, 0, 1, [3], 4, 0, none⟩

theorem test_meets_GossipWorks_halves :
    ((shuttleState false [heldH]).heldHalf 7 0 1 = some heldH ∧ heldH.vals.length ≤ 512
      ∧ (shuttleState false [heldH]).upPorts heldH.peer ≠ [] ∧ (shuttleState false [heldH]).time < 0 + 2 ^ 24
      ∧ 0 + 2 ^ (shuttleState false [heldH]).tmoexp ≤ ({ shuttleState false [heldH] with time := 2 ^ 24 } : State).time)
    ∧ regionApart (shuttleState false [heldH]) 7
    ∧ (let s := shuttleState false []
       let r := s.region 7
       s.linked = true ∧ user.linked = false ∧ s.replicaMapped r = true
        ∧ ({ s with retiredFrames := [0x400] } : State).replicaMapped r = false ∧ r.nb.findIdx? (· == 5) = some 0 ∧ r.nb.findIdx? (· == 6) = none ∧ r.armed = true ∧ (s.route 5).down = false
        ∧ r.mode = false ∧ r.seqin.getD 0 0 = 0 ∧ r.recalled.getLsbD 0 = false ∧ 0 < r.seqin.length ∧ (s.region 9).armed = false
        ∧ (∀ h ∈ s.heldHalves, h.region ≠ 7) ∧ r.lastTake + 1000 * r.period ≤ s.time
        ∧ r.nb.getD (r.step.toNat % r.nb.length) 0 = 5 ∧ s.upPorts 5 ≠ [] ∧ ∀ h ∈ s.waitingHalves, h.region ≠ 7) :=
  ⟨by decide +kernel, regionApart7 _ _, by decide +kernel⟩

/-- What an image with a valid signature does is not witnessed: whether a signature is valid is a free value (log 11). -/
theorem test_meets_ManagementWorks :
    (State.reset.boot = .off ∧ bootImage State.reset.images = none) ∧ user.boot = .service
    ∧ accepts 1 user.images.minManagement [] = false ∧ accepts 2 user.images.minSupervisor user.stagedImage = false
    ∧ ((user.core 0).svc = .inService ∧ (user.core 1).svc = .drained ∧ (user.core 1).faulted = false ∧ (user.core 1).teams = []
      ∧ user.boot ≠ .ioOnly)
    ∧ (let s := user.onCore 0 fun k => { k with teams := [], groups := [], svc := .draining }
       (s.core 0).leaving = true ∧ (s.core 0).teams = [] ∧ (s.core 0).tokensFinal = true)
    ∧ (let s := user.onCore 0 fun k => { k with recalBusy := true, svc := .inService }
       let t := (engineState feedOp .idle id).onCore 0 fun k => { k with recalBusy := true }
       (s.core 0).recalBusy = true ∧ s.recalRuns 0 = false ∧ t.recalRuns 0 = true)
    ∧ (0x5FFFFFF ∈ ({ user with retiredFrames := [0x5FFFFFF] } : State).retiredFrames ∧ user.errorLanes 0 5 0 1 1 = [])
    ∧ (let i := Instr.ld { ldG with g := oneLane, d := .v 8, w := .b32, x := .a }
       let s : State := { memState with mem := ((encode i).zipIdx.map fun e => (0x100000 + e.2, e.1)) ++ tables.drop 2 }
       trapMask (s.errorLanes 0 0 0 0x100100 1) = 1 ∧ s.cur.gslot ≠ Config.supervisorSlot
        ∧ (s.entry 0 0).state = .free ∧ ((s.group 0 0).slot (other 0)).state = .empty) := by
  decide +kernel

/-! ### The divergence stack, refused lanes and the schedulers -/

/-- The stack of group 0 of core 0 lies at 0x180000; both slots stand as told, and the top of `d` entries is `bs`. -/
def stacked (y o : Slot) (d : Nat) (bs : List Byte) : State :=
  let s := (half16.onTeam 0 0 fun t => { t with lss := 0, pb := 0x180000 }).onMe fun g => { g with slot0 := y, slot1 := o, depth := d }
  { s with mem := tables.take 2 ++ (bs.zipIdx.map fun e => (0x180000 + 32 * (d - 1) + e.2, e.1)).filter (·.2 != 0) ++ tables.drop 2 }

/-- A slot of the tests: 16 lanes at a place, with a reconvergence address. -/
def slotAt (k : SlotState) (pc rcv : Word) (m : Mask) : Slot := { user.mySlot with state := k, pc := pc, rcv := rcv, mask := m }

theorem pushes_of {r : State × Nat × Res (List Where)} (h : (match r.2.2 with
    | .ok ws => decide ((∀ w ∈ ws, isPeer w.pa = false ∧ w.pa % 32 = 0) ∧ (ws.map (·.pa)).Nodup)
    | _ => false) = true) : ∃ u d ws, r = (u, d, .ok ws) ∧ pushPlaces ws := by
  obtain ⟨u, d, x⟩ := r
  cases x with
  | ok ws => exact ⟨u, d, ws, rfl, by unfold pushPlaces; exact of_decide_eq_true h⟩
  | _ => cases h

/-- Lanes 0 to 27 stand at 0x100000 and reconverge at 0x100200, lanes 28 to 31 stand at 0x100100. -/
def divided (d : Nat) : State :=
  stacked (slotAt .ready 0x100000 0x100200 0x0FFFFFFF) (slotAt .ready 0x100100 0x100200 0xF0000000) d []

/-- A division that pushes both entries, one that pushes none, a full stack and a stack that is not mapped; and a trap of 16 lanes. -/
theorem test_meets_DivergencePushes :
    let o : Jump := ⟨.on false 20 0, 0x68, 0x68⟩
    let a := fun (s : State) => s.agent s.cur.core s.cur.gslot s.cur.slot
    let i := Instr.sys (.on false 20 0) .imm (.i 9)
    let unmapped : State := { divided 0 with mem := tables.take 2 }
    let base := ((divided 0).core 0).landbase.toNat
    (issues (divided 0) [.brx o, i] = true ∧ (divided 0).mySlot.checked = none ∧ canSpill (divided 0) ∧ landsNear (divided 0)
      ∧ (divided 0).aloneInGroup = false ∧ (divided 0).mySlot.rcv ≠ noRcv
      ∧ (divided 0).me.active (divided 0).mySlot.mask (.on false 20 0) = 0xFFFF)
    ∧ (∃ u d ws, (divided 0).checkPushes (a (divided 0)) 0 0 2 = (u, d, .ok ws) ∧ pushPlaces ws)
    ∧ (∃ u d ws, (divided 0).checkPushes (a (divided 0)) 0 0 0 = (u, d, .ok ws) ∧ pushPlaces ws)
    ∧ (∃ u d, (divided 256).checkPushes (a (divided 256)) 0 256 2 = (u, d, .no Cause.resource))
    ∧ (∃ u d cause, unmapped.checkPushes (a unmapped) 0 0 2 = (u, d, .no cause))
    ∧ canTrap (divided 256).mySlot.mask (divided 256) ∧ (divided 256).attached 1 = false
    ∧ (∃ u d w, (divided 0).checkPushes (a (divided 0)) 0 0 1 = (u, d, .ok [w]) ∧ pushPlaces [w] ∧ base + 320 * 2048 ≤ w.pa)
    ∧ ((divided 0).ctx 1).dbg.trcfg.getLsbD 10 = false ∧ ((divided 0).entry 0 0).state = .free := by
  refine ⟨?_, pushes_of (by decide +kernel), pushes_of (by decide +kernel), ⟨_, _, Prod.ext rfl (Prod.ext rfl ?_)⟩,
    ⟨_, _, Cause.notPresent, Prod.ext rfl (Prod.ext rfl ?_)⟩, canTrap_of ?_, ?_, ⟨_, _,
      ⟨0x180000, false, ⟨0x001000000000007F, 0x203000, 1, 0⟩⟩, Prod.ext rfl (Prod.ext rfl ?_), ?_⟩, ?_, ?_⟩
  · unfold canSpill landsNear; decide +kernel
  all_goals first | (unfold pushPlaces; decide +kernel) | decide +kernel

/-- Group 0's slot 0 waits at 0x100200; the rest as told. -/
def waits (o : Slot) (d : Nat) (bs : List Byte) : State := stacked (slotAt .wait 0x100200 0x100200 0x0FFFFFFF) o d bs

/-- The top of the stack can be read, as the entry told. -/
def topIs (s : State) (n : Nat) (e : StackEntry) : Bool :=
  decide ((s.readTop 0 0 n).2 = .ok e)
    && (match s.peekStack 0 0 (s.me.depth - 1) with | .ok (_, x) => decide (x = e) | _ => false)

/-- The top cannot be read. -/
def topRefused (s : State) (n : Nat) (cause : BitVec 8) : Bool :=
  decide ((s.readTop 0 0 n).2 = .no cause) && (match s.peekStack 0 0 (s.me.depth - 1) with | .ok _ => false | _ => true)

/-- Each kind of top for each clause: JOIN entries, SLOT entries, none, and refused and reserved ones. -/
theorem test_meets_DivergencePops :
    let go := slotAt .ready 0x100000 noRcv 0x0FFFFFFF
    let o := slotAt .ready 0x100100 0x100200 0xF0000000
    let away := slotAt .ready 0x100100 0x100300 0xF0000000
    let join : StackEntry := ⟨0, false, 0, 2, 0, noRcv, 0x100200⟩
    let slot : StackEntry := ⟨0, false, 0, 1, 0xF0000000, 0x100200, 0x100100⟩
    let odd : StackEntry := ⟨0, false, 0, 3, 0, noRcv, 0x100200⟩
    let lost := fun (y : Slot) (js : List Nat) =>
      { (stacked y .empty 1 []).onMe (fun g => { g with joins := js }) with mem := tables.take 2 }
    (waits .empty 1 []).me.live = true
    ∧ topIs (waits .empty 1 join.bytes) 0 join = true ∧ join.legal = true
    ∧ (waits .empty 1 join.bytes).me.slot0.state = .wait ∧ (waits .empty 1 join.bytes).me.slot1.state = .empty
    ∧ (waits .empty 0 []).me.depth = 0 ∧ (waits o 0 []).me.slot1.rcv = (waits o 0 []).me.slot0.rcv
    ∧ ¬(o.state = .ready ∧ o.pc = o.rcv) ∧ ¬(away.state = .ready ∧ away.pc = away.rcv)
    ∧ topIs (waits away 1 slot.bytes) 0 slot = true ∧ slot.legal = true
    ∧ topIs (stacked go .empty 1 slot.bytes) 1 slot = true ∧ (stacked go .empty 1 slot.bytes).myTeam.halts.contains .pop = false
    ∧ go.checked = none ∧ ¬(go.state = .ready ∧ go.pc = go.rcv ∧ go.rcv ≠ noRcv)
    ∧ topRefused (lost go []) 1 Cause.notPresent = true ∧ (lost go []).me.joinOnTop = false ∧ (lost go []).hasTeam 0 0 = true
    ∧ topRefused (lost (slotAt .wait 0x100200 0x100200 1) [0]) 0 Cause.notPresent = true
    ∧ (lost (slotAt .wait 0x100200 0x100200 1) [0]).me.joinOnTop = true
    ∧ topIs (waits .empty 1 odd.bytes) 0 odd = true ∧ (waits .empty 1 odd.bytes).attached 1 = false
    ∧ ((waits .empty 1 odd.bytes).entry 0 0).state = .free := by decide +kernel

/-- Lane 31 names a misaligned scratchpad word and lane 30 one past the end; s6 names the page's start. -/
def refusing : State := user.onMe fun g => { g with s := [(6, 0x100100), (7, 0x400000)], v := [(32 * 6 + 31, 1), (32 * 6 + 30, 0x4000)] }

def ldAll : Mem Unit := ⟨.always, .s, .b64, (), .v 8, .v 6, .v 0, .a⟩
def stAll : Mem Unit := ⟨.always, .s, .b64, (), .none false, .v 6, .v 8, .a⟩
def redAll : Mem AtomOp := ⟨.always, .s, .b64, .add, .none false, .v 6, .v 8, .a⟩

/-- Each lane's checks passed or gave a cause, and lanes 30 and 31 are refused. -/
def refusesTwo {F : Type} (i : Instr) (o : Mem F) (acc : Access) (u : TagUse) : Bool :=
  issuable i refusing && ((checks refusing o 8 acc u).2.all fun x => match x.res with | .ok _ => true | .no _ => true | _ => false)
    && decide (maskOf (((checks refusing o 8 acc u).2.filter fun x => match x.res with | .no _ => true | _ => false).map (·.lane))
      = 0xC0000000)

theorem refused_of {F : Type} {i : Instr} {o : Mem F} {acc : Access} {u : TagUse} (h : refusesTwo i o acc u = true) (late : Bool) :
    someRefused i o 8 acc u late 0xC0000000 refusing := by
  simp only [refusesTwo, Bool.and_eq_true, decide_eq_true_eq, List.all_eq_true] at h
  refine ⟨h.1.1, fun x hx => ?_, h.2.symm, by decide, canTrap_of (by decide +kernel), .inr (by decide +kernel), by decide +kernel,
    by decide +kernel⟩
  have := h.1.2 x hx
  cases hr : x.res <;> rw [hr] at this <;> simp at this ⊢

/-- A watch register of context 1 covers 0x100100 for writes. -/
def watching : State := withRegs user fun r => { r with wpa := r.wpa.set 0 0x100100, wpc := r.wpc.set 0 2 }

theorem test_meets_RefusedLanes :
    (someRefused (.ld ldAll) ldAll 8 .read .load (lateRefusal .s (passed (checks refusing ldAll 8 .read .load).2)) 0xC0000000 refusing
      ∧ ∀ y ∈ ((checks refusing ldAll 8 .read .load).1.loadLanes 8 (passed (checks refusing ldAll 8 .read .load).2)).2,
          ∃ x, y.2.2 = .ok x)
    ∧ someRefused (.st stAll) stAll 8 .write .store (stAll.sp == .rs) 0xC0000000 refusing
    ∧ (someRefused (.red redAll) redAll 8 .rmw .store (redAll.sp == .rs) 0xC0000000 refusing
      ∧ (∀ x ∈ passed (checks refusing redAll 8 .rmw .store).2, x.2.2.peer = false)
      ∧ (∀ x ∈ passed (checks refusing redAll 8 .rmw .store).2, placedAt 8 x.2.2)
      ∧ ∀ x ∈ passed (checks refusing redAll 8 .rmw .store).2, ∀ w, x.2.2 = .mem w → ∀ i, i < 8 → outsideLanding refusing (w.pa + i))
    ∧ ((1 : Word).toNat % 8 ≠ 0 ∧ (0x4000 : Word).toNat % 8 = 0 ∧ (0 : Word).toNat % 8 = 0 ∧ 2 ^ 57 ≤ (0x200000000000000 : Word).toNat)
    ∧ (user.findLeaf (user.agent 0 0 0) 0x400000).2 = .no Cause.notPresent
    ∧ (match (peerState.findLeaf (peerState.agent 0 0 0) 0x100000).2, (gspState false).findLeaf (user.agent 0 0 0) 0x200000 with
        | .ok x, (_, .ok y) => eX x.entry && eClass y.entry == 1
        | _, _ => false) = true
    ∧ (let r := watching.probe (watching.agent 0 0 0) 0x100100 .write
       fine r.2 = true ∧ r.1.watched 0 1 0 0x100100 8 .write = true) := by
  refine ⟨⟨refused_of (by decide +kernel) _, fun y hy => fine_ok ?_⟩, refused_of (by decide +kernel) _,
    ⟨refused_of (by decide +kernel) _, by decide +kernel, placed_of (by decide +kernel), fun x hx w hw => ?_⟩, by decide, ?_, ?_, ?_⟩
  · exact List.all_eq_true.mp (by decide +kernel : (((checks refusing ldAll 8 .read .load).1.loadLanes 8
      (passed (checks refusing ldAll 8 .read .load).2)).2.all fun y => fine y.2.2) = true) y hy
  · have := List.all_eq_true.mp (by decide +kernel : ((passed (checks refusing redAll 8 .rmw .store).2).all fun x =>
      match x.2.2 with | .pad _ _ _ => true | _ => false) = true) x hx
    rw [hw] at this
    exact absurd this (by simp)
  all_goals decide +kernel

theorem test_meets_SchedulerChooses :
    readyAt user 0 0 [] 0 0 ∧ contends user 0 0 [] 1 ∧ (user.choose 0 0 []).2 = some (0, 0) ∧ (user.choose 0 0 [0]).2 = none := by
  have h : readyAt user 0 0 [] 0 0 := by unfold readyAt; decide +kernel
  exact ⟨h, ⟨0, 0, h, by decide +kernel⟩, by decide +kernel, by decide +kernel⟩

theorem test_meets_ChecksKeep :
    Space.s ≠ .g ∧ (user.spotOf .g 0x400000 8 8 .read .load).2 = .no Cause.notPresent ∧ Store.rising user.mem = true := by decide +kernel

/-! ### Decoding, the step and the invariant -/

theorem test_meets_DecodeEncode :
    wellFormed (.nop .always) = true ∧ isDeviceStep (.nop .always) = false ∧ decode (leBytes 8 0x161 ++ [1]) = .ok (.nop .always) := by
  decide +kernel

theorem test_meets_DecodeWords : (0x160 : BitVec 64).extractLsb' 0 2 = 0 ∧ ((0x71 : BitVec 64).extractLsb' 2 8).toNat ∉ assignedOps
    ∧ (0x71 : BitVec 64).extractLsb' 0 2 ≠ 0 := by decide +kernel

theorem fetches_of {s : State} {i : Instr}
    (h : (match (s.fetchAt (s.agent s.cur.core s.cur.gslot s.cur.slot) s.myTeam.tid s.mySlot.pc).2 with
      | .ok bs => decide (decode bs = .ok i)
      | _ => false) = true) : ∃ s', fetches s i s' := by
  split at h
  · rename_i bs he
    exact ⟨_, bs, Prod.ext rfl he, of_decide_eq_true h⟩
  · exact absurd h (by decide)

/-- The slot that waits again for its instruction. -/
def waking : State :=
  { user.onMySlot (fun x => { x with state := .blocked, wait := { x.wait with kind := .reissue } }) with
    agenda := [⟨5, .wake 0 0 0⟩] }

/-- The state in which a turn acts. -/
def turned (s : State) : State :=
  match s.nextTurn with
  | (u, some t) => { u with turn := u.turn + 1 }.passTime t.dt
  | (u, none) => u

theorem test_meets_StepRunsDecoded :
    (let s1 := turned user
     user.nextTurn.2 = some ⟨0, .cycle 0 0 []⟩ ∧ (s1.choose 0 0 []).2 = some (0, 0)
      ∧ (inHand (s1.choose 0 0 []).1 0 0 0).stepDue = false
      ∧ ∃ s', fetches (inHand (s1.choose 0 0 []).1 0 0 0) (.nop .always) s')
    ∧ (let s := boss fun g => g
       let s1 := turned s
       s.nextTurn.2 = some ⟨0, .supervisor 0 0⟩ ∧ s1.supervisorReady 0 0 = true
        ∧ (inHand s1 0 Config.supervisorSlot 0).stepDue = false
        ∧ ∃ s', fetches (inHand s1 0 Config.supervisorSlot 0) (.nop .always) s')
    ∧ (let s1 := turned waking
       waking.nextTurn.2 = some ⟨5, .wake 0 0 0⟩ ∧ s1.canWake 0 0 0 = true ∧ ∃ s', fetches (inHand s1 0 0 0) (.nop .always) s')
    ∧ (let r := user.fetchSpot (user.agent 0 0 0) 0 0x100000
       (match r.2 with | .ok w => decide (w.pa = 0x100000) | _ => false) = true ∧ isPeer 0x100000 = false
        ∧ (r.1.core 0).icache = [] ∧ (r.1.core 0).clean = [] ∧ (r.1.core 0).dirty = [])
    ∧ fine (user.probe (user.agent 0 0 0) 0x100000 .fetch).2 = true :=
  ⟨⟨by decide +kernel, by decide +kernel, by decide +kernel, fetches_of (by decide +kernel)⟩,
    ⟨by decide +kernel, by decide +kernel, by decide +kernel, fetches_of (by decide +kernel)⟩,
    ⟨by decide +kernel, by decide +kernel, fetches_of (by decide +kernel)⟩, by decide +kernel, by decide +kernel⟩

theorem fetchesNone_of {s : State}
    (h : (match (s.fetchAt (s.agent s.cur.core s.cur.gslot s.cur.slot) s.myTeam.tid s.mySlot.pc).2 with
      | .ok bs => (match decode bs with | .error _ => true | _ => false)
      | _ => false) = true) : ∃ s', fetchesNone s s' := by
  split at h
  · rename_i bs he
    split at h
    · rename_i x hx
      exact ⟨_, bs, x, Prod.ext rfl he, hx⟩
    · exact absurd h (by decide)
  · exact absurd h (by decide)

/-- Bytes of LEN 00 at the PC, and a `str.eq`. -/
def undecodable (s : State) : State := { s with mem := (0x100000, 0x60) :: s.mem.tail }
def stringAhead : State :=
  { user with
    agenda := [⟨0, .beginCycle 0 0 []⟩]
    mem := ((leBytes 8 0x3000002038C50325).zipIdx.map fun e => (0x100000 + e.2, e.1)) ++ tables.drop 2 }

theorem test_meets_StepRunsDecoded_other :
    (let s := { user with agenda := [⟨0, .beginCycle 0 0 []⟩] }
     let s1 := turned s
     s.nextTurn.2 = some ⟨0, .beginCycle 0 0 []⟩ ∧ (s1.choose 0 0 []).2 = some (0, 0)
      ∧ (issuing (s1.choose 0 0 []).1 0 0 0).stepDue = false
      ∧ ((s1.choose 0 0 []).1.peekInstr 0 0 0x100000).bind readsStrings = none
      ∧ ∃ s', fetches (issuing (s1.choose 0 0 []).1 0 0 0) (.nop .always) s')
    ∧ (let s1 := turned stringAhead
       stringAhead.nextTurn.2 = some ⟨0, .beginCycle 0 0 []⟩ ∧ (s1.choose 0 0 []).2 = some (0, 0)
        ∧ ((s1.choose 0 0 []).1.peekInstr 0 0 0x100000).bind readsStrings ≠ none)
    ∧ (let s1 := turned (undecodable user)
       (undecodable user).nextTurn.2 = some ⟨0, .cycle 0 0 []⟩ ∧ (s1.choose 0 0 []).2 = some (0, 0)
        ∧ (issuing (s1.choose 0 0 []).1 0 0 0).stepDue = false
        ∧ ∃ s', fetchesNone (issuing (s1.choose 0 0 []).1 0 0 0) s')
    ∧ (let s := undecodable (boss fun g => g)
       s.nextTurn.2 = some ⟨0, .supervisor 0 0⟩ ∧ (turned s).supervisorReady 0 0 = true
        ∧ ∃ s', fetchesNone (issuing (turned s) 0 Config.supervisorSlot 0) s')
    ∧ (let s := undecodable waking
       s.nextTurn.2 = some ⟨5, .wake 0 0 0⟩ ∧ (turned s).canWake 0 0 0 = true ∧ ∃ s', fetchesNone (inHand (turned s) 0 0 0) s')
    ∧ user.mySlot.mask ≠ 0 ∧ canTrap user.mySlot.mask user :=
  ⟨⟨by decide +kernel, by decide +kernel, by decide +kernel, by decide +kernel, fetches_of (by decide +kernel)⟩,
    by decide +kernel, ⟨by decide +kernel, by decide +kernel, by decide +kernel, fetchesNone_of (by decide +kernel)⟩,
    ⟨by decide +kernel, by decide +kernel, fetchesNone_of (by decide +kernel)⟩,
    ⟨by decide +kernel, by decide +kernel, fetchesNone_of (by decide +kernel)⟩, by decide +kernel, canTrap_of (by decide +kernel)⟩

/-- A placed `nop` is the first instruction of the next step, and leaves the slot at the next word. -/
theorem test_step : (match step user with | .next t => (t.group 0 0).slot0.pc == 0x100008 | _ => false) = true := by decide +kernel

theorem test_meets_MemoryStaysCanonical : State.reset.memoryWf ∧ user.memoryWf ∧ (shuttleState false []).memoryWf := by decide +kernel

/-! ### Worked examples of the chapters -/

/-- R377: the hash of no bytes under seed 0 is 0. -/
theorem test_hash_empty : hashMix (hashTail (hashWords 0 0 []) []) = 0 := by decide +kernel

/-- R387: the digest of no bytes, as FIPS 202 gives it for SHA3-256 (log 57). -/
theorem test_sha3_empty : sha3 [] =
    [0xA7, 0xFF, 0xC6, 0xF8, 0xBF, 0x1E, 0xD7, 0x66, 0x51, 0xC1, 0x47, 0x56, 0xA0, 0x61, 0xD6, 0x62,
     0xF5, 0x80, 0xFF, 0x4D, 0xE4, 0x3B, 0x49, 0xFA, 0x82, 0xD8, 0x0A, 0x4B, 0x80, 0xF8, 0x43, 0x4A] := by decide +kernel

/-- R338: three marked answers in three microseconds take the rate from 4,096 to 1,728. -/
theorem test_rate :
    (([1000, 2000, 3000].foldl (fun (s : State) t => { s with time := t }.mark 5) State.reset).rate 5).r = 1728 := by
  decide +kernel

end Sys2Proof.Tests
end

section
/-! SUPPORT. The state at reset: its tables are empty, so each indexed part reads as the value that the model gives an unlisted
one, at every index. -/

namespace Sys2Proof.Proofs

open Sys2Proof Machine Laws

/-- An empty store reads as the default at every key. -/
@[simp] theorem get_nil {α : Type} (d : α) (j : Nat) : Store.get d ([] : Store α) j = d := by
  rw [Store.get, find_nil, Option.getD_none]

/-! ### The indexed parts of the machine at reset -/

@[simp] theorem core_reset (c : Nat) : State.reset.core c = .reset := get_nil _ c

@[simp] theorem ctx_reset (a : Nat) : State.reset.ctx a = .reset := get_nil _ a

@[simp] theorem queue_reset (q : Nat) : State.reset.queue q = .reset := get_nil _ q

@[simp] theorem port_reset (n : Nat) : State.reset.port n = .reset := get_nil _ n

@[simp] theorem route_reset (d : Nat) : State.reset.route d = .reset := get_nil _ d

@[simp] theorem rate_reset (d : Nat) : State.reset.rate d = .reset := get_nil _ d

@[simp] theorem region_reset (r : Nat) : State.reset.region r = .reset := get_nil _ r

/-- No region is disarming, for none has been asked for: the gossip engine is idle. -/
@[simp] theorem gspBusy_reset : State.reset.gspBusy = false := rfl

/-! ### The values that the spec gives -/

/-- Settles O59: the registers by the definition of the reset state, the indexed parts by what an empty table reads as. -/
theorem resetState : Obligations.ResetState := by
  unfold Obligations.ResetState
  refine ⟨reset_memoryWf, rfl, rfl, rfl, rfl, rfl, rfl, rfl, rfl, rfl, rfl, rfl, rfl, rfl, rfl, gspBusy_reset, rfl,
    port_reset, fun d => ⟨route_reset d, ?rate⟩, fun r => ?region, fun q => ?queue, fun a => ?ctx, fun c => ?core⟩
  case rate => simp [Rate.reset]
  case region => simp [Region.reset]
  case queue => simp [Queue.reset]
  case ctx => simp [Ctx.reset]
  case core => simp [Core.reset]

end Sys2Proof.Proofs
end

section
/-! SUPPORT. The encoding read back: of every class of instructions, the fields that its instructions have are read as these
instructions, so that decoding and encoding agree both ways. -/

namespace Sys2Proof.Proofs

open Sys2Proof Machine Laws Forms

/-! ### Extensions -/

/-- An extension is read back by an OP that takes its form: an OP marked S has no form I, and another has no form S. -/
theorem extOf_extCode {sc : Bool} {x : Ext} (h : formOf x ≠ if sc then .i else .s) :
    extOf sc (extLen x) (extCode x) = x := by
  refine extOf_code sc x (fun c v hx => ?_) (fun v hx => ?_) <;> subst hx <;> cases sc
  · exact absurd rfl h
  · rfl
  · rfl
  · exact absurd rfl h

/-- A well-formed arithmetic instruction has no form that its entry does not list. -/
theorem formOf_ne_of_aluOk {F : Type} {m : AluForm} {o : Alu F} {fm : Form} (h : aluOk m o = true)
    (hm : m.forms.contains fm = false) : formOf o.x ≠ fm := by
  simp only [aluOk, Bool.and_eq_true] at h
  rintro rfl
  simp_all

theorem formOf_ne_s_of_compare {F : Type} {tys : Ty → Bool} {o : BitOp F} (h : compare tys o = true) :
    formOf o.x ≠ .s := by
  simp only [Forms.compare, Bool.and_eq_true] at h
  intro e
  simp_all

theorem formOf_ne_of_beq {x : Ext} {f g : Form} (h : (formOf x == f) = true) (hn : f ≠ g) : formOf x ≠ g := by
  rw [beq_iff_eq] at h
  rwa [h]

theorem formOf_ne_s_of_dispForm {x : Ext} (h : dispForm x = true) : formOf x ≠ .s := by
  cases x <;> simp_all [dispForm, formOf]

theorem formOf_ne_s_of_scalarOrImm {a : Src} {x : Ext} (h : scalarOrImm a x = true) : formOf x ≠ .s := by
  cases x <;> simp_all [scalarOrImm, formOf]

theorem formOf_ne_s_of_pool {p : Pool} {a : Src} {x : Ext} (h : wellFormed (.grow p a x) = true) : formOf x ≠ .s := by
  cases p with
  | regs => exact formOf_ne_s_of_scalarOrImm h
  | acc n | stream n => exact formOf_ne_of_beq (Bool.and_elim_right h) (by decide)

theorem formOf_ne_s_of_trapSource {a : Src} {x : Ext} (h : trapSource a x = true) : formOf x ≠ .s := by
  cases x <;> simp_all [trapSource, formOf]

theorem formOf_ne_i_of_sel {o : Alu Unit} (h : sel o = true) : formOf o.x ≠ .i := by
  intro e
  cases hx : o.x <;> simp_all [sel, formOf]

theorem formOf_ne_s_of_movi {o : Alu Unit} (h : movi o = true) : formOf o.x ≠ .s := by
  intro e
  cases hx : o.x <;> simp_all [movi, formOf]

theorem formOf_ne_s_of_lea {o : Alu (BitVec 4)} (h : lea o = true) : formOf o.x ≠ .s := by
  simp only [lea, Bool.and_eq_true] at h
  intro e
  simp_all

theorem formOf_ne_i_of_cvt {o : Alu Ty} (h : cvt o = true) : formOf o.x ≠ .i := by
  intro e
  cases hx : o.x <;> simp_all [cvt, formOf]

/-! ### Destinations that DK = 0 reads back (R18) -/

theorem dk_of_loadDst {w : Nat} {d : Dst} (h : loadDst w d = true) : dk d = false := by
  cases d <;> simp_all [loadDst, dk]

theorem dk_of_regDst {w : Nat} {d : Dst} (h : regDst w d = true) : dk d = false := by
  cases d <;> simp_all [regDst, dk]

theorem dk_of_noDst {d : Dst} (h : noDst d = true) : dk d = false := by
  cases d <;> simp_all [noDst, dk]

theorem dk_of_vecOrLatch {d : Dst} (h : vecOrLatch d = true) : dk d = false := by
  cases d <;> simp_all [vecOrLatch, dk]

theorem dk_of_vecLatchNone {d : Dst} (h : vecLatchNone d = true) : dk d = false := by
  cases d <;> simp_all [vecLatchNone, vecOrLatch, dk]

/-- A destination that is none of the scalar forms is read back under DK = 0. -/
theorem dstOf_false_code {d : Dst} (h : dk d = false) : dstOf false (dstCode d) = d := by
  rw [← h]
  exact dstOf_code d

/-! ### Parts of a field -/

theorem extract_zero_append {v w : Nat} (a : BitVec v) (b : BitVec w) : (a ++ b).extractLsb' 0 w = b :=
  BitVec.extractLsb'_append_eq_right

theorem extract_append {v w : Nat} (a : BitVec v) (b : BitVec w) : (a ++ b).extractLsb' w v = a :=
  BitVec.extractLsb'_append_eq_left

theorem toNat_zero_append {w : Nat} (v : Nat) (b : BitVec w) : (0#v ++ b).toNat = b.toNat := by
  rw [BitVec.toNat_append, BitVec.toNat_ofNat, Nat.zero_mod, Nat.zero_shiftLeft, Nat.zero_or]

/-- DK or the top bit of a bit number is bit 4 of XF (R18, R26). -/
theorem xf_top (b : Bool) (t : BitVec 4) : (BitVec.ofBool b ++ t : BitVec 5).getLsbD 4 = b := by
  revert b t; decide

theorem boolOf_one : boolOf 1 = true := by decide

theorem not_boolOf_zero : ¬boolOf 0 = true := by decide

@[simp] theorem extract_srcCode_s (n : BitVec 6) : (srcCode (.s n)).extractLsb' 0 6 = n := by
  revert n; decide

@[simp] theorem extract_srcCode_v (n : BitVec 8) : (srcCode (.v n)).extractLsb' 0 8 = n := extract_zero_append _ _

@[simp] theorem extract_dstCode_v (n : BitVec 8) : (dstCode (.v n)).extractLsb' 0 8 = n := extract_zero_append _ _

/-! ### What reading back a class of instructions needs -/

/-- Fields hold an instruction: their LEN and extension are those of an extension of Table 2-8, and they are read as the
instruction. -/
def Holds (f : Fields) (i : Instr) : Prop :=
  (∃ x, f.len = extLen x ∧ f.x = extCode x) ∧ readFields f = some i

/-- An extension fits the length that its LEN names. -/
theorem extCode_fits (x : Ext) : 2 ^ 64 * (extCode x).toNat < 256 ^ lenBytes (extLen x) := by
  cases x with
  | a => decide
  | i v =>
    have h := toNat_zero_append 32 v
    have := v.isLt
    show 2 ^ 64 * (0#32 ++ v).toNat < 256 ^ 12
    omega
  | s c v =>
    have h : (0#32 ++ srcCode c ++ v : BitVec 64).toNat = (srcCode c ++ v).toNat := by
      rw [BitVec.toNat_append, toNat_zero_append, ← BitVec.toNat_append]
    have := (srcCode c ++ v).isLt
    show 2 ^ 64 * (0#32 ++ srcCode c ++ v : BitVec 64).toNat < 256 ^ 12
    omega
  | w v =>
    have := v.isLt
    show 2 ^ 64 * v.toNat < 256 ^ 16
    omega

/-- Fields that hold a well-formed instruction are its encoding's, so it decodes from its bytes. -/
theorem decode_encode_of_holds {i : Instr} {f : Fields} (hf : fieldsOf i = some f) (hw : wellFormed i = true)
    (h : Holds f i) (rest : List Byte) : decode (encode i ++ rest) = .ok i := by
  obtain ⟨⟨x, hl, hx⟩, hr⟩ := h
  refine decode_encode_of i f rest hf hw ?_ ?_ hr
  · rw [hl]; exact extLen_ne_zero x
  · rw [hl, hx]; exact extCode_fits x

/-! ### Each class read back -/

section Classes

variable {F : Type} {op : BitVec 8} {fn : BitVec 4}

/-- The arithmetic instructions (R24), of an OP marked S where `sc` says so. -/
theorem holds_alu {sc : Bool} {f : F} {o : Alu F} {c : Alu F → Instr}
    (hr : readFields (aluFields op fn o) = some (c (aluOf sc f (aluFields op fn o)))) (hf : f = o.f)
    (hx : formOf o.x ≠ if sc then .i else .s) : Holds (aluFields op fn o) (c o) := by
  refine ⟨⟨o.x, rfl, rfl⟩, hr.trans (congrArg (some ∘ c) ?_)⟩
  subst hf
  simp only [aluOf, aluFields, xf_top, extract_zero_append, guardOf_code, tyOf_code, dstOf_code, srcOf_code,
    extOf_extCode hx]

/-- The instructions with one bit for a destination (R26). -/
theorem holds_bit {f : F} {o : BitOp F} {c : BitOp F → Instr}
    (hr : readFields (bitFields op fn o) = some (c (bitOf f (bitFields op fn o)))) (hf : f = o.f)
    (hx : formOf o.x ≠ .s) : Holds (bitFields op fn o) (c o) := by
  refine ⟨⟨o.x, rfl, rfl⟩, hr.trans (congrArg (some ∘ c) ?_)⟩
  have hb : o.bit.extractLsb' 4 1 ++ o.bit.extractLsb' 0 4 = o.bit :=
    (BitVec.extractLsb'_append_extractLsb'_eq_extractLsb' rfl).trans BitVec.extractLsb'_eq_self
  subst hf
  simp only [bitOf, bitFields, extract_zero_append, extract_append, guardOf_code, tyOf_code, srcOf_code, hb,
    extOf_extCode (sc := false) hx]

/-- The conversions of narrow elements (R320 to R323). -/
theorem holds_narrow {o : Narrow} {c : Narrow → Instr}
    (hr : readFields (narrowFields op o) = some (c (narrowOf (narrowFields op o)))) (hd : dk o.d = false)
    (hx : formOf o.x ≠ .s) : Holds (narrowFields op o) (c o) := by
  refine ⟨⟨o.x, rfl, rfl⟩, hr.trans (congrArg (some ∘ c) ?_)⟩
  simp only [narrowOf, narrowFields, guardOf_code, nfmtOf_code, trOf_code, dstOf_false_code hd, srcOf_code,
    extOf_extCode (sc := false) hx]

/-- The direct transfers (Table 5-1): the extension holds DISP1 and DISP0. -/
theorem jumpOf_eq {f : Fields} {o : Jump} (hg : f.gd = guardCode o.g) (hx : f.x = o.d1 ++ o.d0) : jumpOf f = o := by
  simp only [jumpOf, hg, hx, guardOf_code, extract_zero_append, extract_append]

theorem holds_jump {o : Jump} {c : Jump → Instr} (hr : readFields (jumpFields op o) = some (c (jumpOf (jumpFields op o)))) :
    Holds (jumpFields op o) (c o) :=
  ⟨⟨.w _, rfl, rfl⟩, hr.trans (congrArg (some ∘ c) (jumpOf_eq rfl rfl))⟩

/-- Bits [2:0] of a memory instruction's XF are its width (Table 2-7). -/
theorem extract_memFields_xf (o : Mem F) : (memFields op fn o).xf.extractLsb' 0 3 = widthCode o.w :=
  extract_zero_append _ _

/-- The memory instructions (R231). -/
theorem holds_mem {f : F} {o : Mem F} {c : Mem F → Instr}
    (hr : readFields (memFields op fn o) = some (c (memOf f (memFields op fn o)))) (hf : f = o.f) (hd : dk o.d = false)
    (hx : dispForm o.x = true) : Holds (memFields op fn o) (c o) := by
  refine ⟨⟨o.x, rfl, rfl⟩, hr.trans (congrArg (some ∘ c) ?_)⟩
  subst hf
  simp only [memOf, memFields, extract_zero_append, extract_append, guardOf_code, spaceOf_code, widthOf_code,
    dstOf_false_code hd, srcOf_code, extOf_extCode (sc := false) (formOf_ne_s_of_dispForm hx)]

/-- The barrier-word instructions (Table 12-5). -/
theorem holds_bar {o : Bar} {c : Bar → Instr} (hr : readFields (barFields op o) = some (c (barOf (barFields op o))))
    (hx : formOf o.x ≠ .s) : Holds (barFields op o) (c o) := by
  refine ⟨⟨o.x, rfl, rfl⟩, hr.trans (congrArg (some ∘ c) ?_)⟩
  have hb : (if o.remote then 0x10 else 0x08 : BitVec 5).getLsbD 4 = o.remote := by cases o.remote <;> rfl
  simp only [barOf, barFields, hb, guardOf_code, optDstOf_code, srcOf_code, extOf_extCode (sc := false) hx]

/-- The copy forms (Table 13-5). -/
theorem holds_cpy {o : CpyOp} {c : CpyOp → Instr} (hr : readFields (cpyFields op o) = some (c (cpyOf (cpyFields op o)))) :
    Holds (cpyFields op o) (c o) := by
  refine ⟨⟨.w _, rfl, rfl⟩, hr.trans (congrArg (some ∘ c) ?_)⟩
  simp (disch := omega) only [cpyOf, cpyFields, guardOf_code, optDstOf_code, extract_srcCode_s, cspaceOf_code, linkOf_code,
    presentOf_code, BitVec.getLsbD_append, BitVec.getLsbD_ofBool, BitVec.extractLsb'_append_eq_of_add_le,
    BitVec.extractLsb'_append_eq_of_le, BitVec.extractLsb'_eq_self, Nat.reduceSub, Nat.reduceLT, reduceIte, decide_true,
    Bool.true_and]

/-- The operations of the stream feed, the matrix engine and the shuttle (Table 15-3). -/
theorem holds_eng {o : EngOp2} {c : EngOp2 → Instr} (hr : readFields (engFields op o) = some (c (engOf (engFields op o)))) :
    Holds (engFields op o) (c o) := by
  refine ⟨⟨.w _, rfl, rfl⟩, hr.trans (congrArg (some ∘ c) ?_)⟩
  simp (disch := omega) only [engOf, engFields, guardOf_code, optDstOf_code, optScalarOf_code, linkOf_code,
    presentOf_code, BitVec.getLsbD_append, BitVec.getLsbD_ofBool, BitVec.extractLsb'_append_eq_of_add_le,
    BitVec.extractLsb'_append_eq_of_le, BitVec.extractLsb'_eq_self, Nat.reduceSub, Nat.reduceLT, reduceIte, decide_true,
    Bool.true_and]

/-- The token instructions (Table 13-7): a field that the OP does not use is 0. -/
theorem holds_tok {ua ub : Bool} {o : TokOp} {c : TokOp → Instr}
    (hr : readFields (tokFields op ua ub o) = some (c (tokOf (tokFields op ua ub o)))) (ha : ua = true ∨ o.a = 0)
    (hb : ub = true ∨ o.b = 0) : Holds (tokFields op ua ub o) (c o) := by
  refine ⟨⟨.a, rfl, rfl⟩, hr.trans (congrArg (some ∘ c) ?_)⟩
  have field : ∀ {u : Bool} {n : BitVec 6}, u = true ∨ n = 0 →
      (if u then srcCode (.s n) else 0 : BitVec 9).extractLsb' 0 6 = n := by
    rintro u n (rfl | rfl)
    · exact extract_srcCode_s n
    · cases u <;> rfl
  simp only [tokOf, tokFields, bare, guardOf_code, optDstOf_code, field ha, field hb]

/-- The accumulator instructions (R316). -/
theorem holds_acc {o : AccOp} {c : AccOp → Instr} (hr : readFields (accFields op o) = some (c (accOf (accFields op o))))
    (hd : dk o.d = false) : Holds (accFields op o) (c o) := by
  refine ⟨⟨.a, rfl, rfl⟩, hr.trans (congrArg (some ∘ c) ?_)⟩
  simp only [accOf, accFields, bare, extract_zero_append, guardOf_code, dstOf_false_code hd, srcOf_code]

/-- The gossip accesses (Table 18-4), of a row whose XF has DK = 0. -/
theorem holds_gsp {xf : BitVec 5} {o : GspOp} {c : GspOp → Instr}
    (hr : readFields (gspFields op xf o) = some (c (gspOf (gspFields op xf o)))) (hxf : xf.getLsbD 4 = false)
    (hx : dispForm o.x = true) : Holds (gspFields op xf o) (c o) := by
  refine ⟨⟨o.x, rfl, rfl⟩, hr.trans (congrArg (some ∘ c) ?_)⟩
  have hk : (if dk o.d then 0x10 else xf : BitVec 5).getLsbD 4 = dk o.d := by
    cases h : dk o.d with
    | false => exact hxf
    | true => exact if_pos rfl ▸ rfl
  simp only [gspOf, gspFields, hk, guardOf_code, boolOf_code, dstOf_code, srcOf_code,
    extOf_extCode (sc := false) (formOf_ne_s_of_dispForm hx)]

/-- `rdcr` and `wrcr`, whose number lies in FN and SB (Table 6-16). -/
theorem holds_cr {o : CrOp} {c : CrOp → Instr} (hr : readFields (crFields op o) = some (c (crOf (crFields op o)))) :
    Holds (crFields op o) (c o) := by
  refine ⟨⟨.a, rfl, rfl⟩, hr.trans (congrArg (some ∘ c) ?_)⟩
  have hn : o.crn.extractLsb' 8 4 ++ o.crn.extractLsb' 0 8 = o.crn :=
    (BitVec.extractLsb'_append_extractLsb'_eq_extractLsb' rfl).trans BitVec.extractLsb'_eq_self
  have hw : (BitVec.ofBool (dk o.d) ++ (if o.wide then 6#4 else 4#4) : BitVec 5).getLsbD 1 = o.wide := by
    cases dk o.d <;> cases o.wide <;> rfl
  simp only [crOf, crFields, bare, xf_top, hw, hn, extract_zero_append, guardOf_code, dstOf_code, srcOf_code]

/-- The privileged instructions of 0xE6 to 0xED. -/
theorem holds_priv {o : PrivOp} {c : PrivOp → Instr}
    (hr : readFields (privFields op o) = some (c (privOf (privFields op o)))) : Holds (privFields op o) (c o) := by
  refine ⟨⟨.a, rfl, rfl⟩, hr.trans (congrArg (some ∘ c) ?_)⟩
  simp only [privOf, privFields, bare, guardOf_code, optDstOf_code, optScalarOf_code]

/-- An instruction of a guard alone. -/
theorem holds_bare {g : Guard} {c : Guard → Instr} (hr : readFields (bare op g) = some (c (guardOf (guardCode g)))) :
    Holds (bare op g) (c g) :=
  ⟨⟨.a, rfl, rfl⟩, hr.trans (congrArg (some ∘ c) (guardOf_code g))⟩

/-- `sys`, `trap`, `brk` and `mark`: a guard, a source and an extension. -/
theorem holds_trap {g : Guard} {a : Src} {x : Ext} {c : Guard → Src → Ext → Instr}
    (hr : readFields (trapFields op g a x)
      = some (c (guardOf (guardCode g)) (srcOf (srcCode a)) (extOf false (extLen x) (extCode x))))
    (hx : formOf x ≠ .s) : Holds (trapFields op g a x) (c g a x) := by
  refine ⟨⟨x, rfl, rfl⟩, ?_⟩
  rw [hr, guardOf_code, srcOf_code, extOf_extCode (sc := false) hx]

/-- `grow` and `shrink` (R105). -/
theorem holds_grow {p : Pool} {a : Src} {x : Ext} {c : Pool → Src → Ext → Instr}
    (hr : readFields (growFields op p a x)
      = some (c (poolOf (poolCode p)) (srcOf (srcCode a)) (extOf false (extLen x) (extCode x))))
    (hx : formOf x ≠ .s) : Holds (growFields op p a x) (c p a x) := by
  refine ⟨⟨x, rfl, rfl⟩, ?_⟩
  rw [hr, poolOf_code, srcOf_code, extOf_extCode (sc := false) hx]

/-- `dep.add` and `dep.sub` (R160). -/
theorem holds_dep {g : Guard} {d : Option (BitVec 6)} {ix : BitVec 6} {b : Src} {x : Ext}
    {c : Guard → Option (BitVec 6) → BitVec 6 → Src → Ext → Instr}
    (hr : readFields (depFields op g d ix b x) = some (c (guardOf (guardCode g)) (optDstOf (optDstCode d))
      ((srcCode (.s ix)).extractLsb' 0 6) (srcOf (srcCode b)) (extOf false (extLen x) (extCode x))))
    (hx : formOf x ≠ .s) : Holds (depFields op g d ix b x) (c g d ix b x) := by
  refine ⟨⟨x, rfl, rfl⟩, ?_⟩
  rw [hr, guardOf_code, optDstOf_code, extract_srcCode_s, srcOf_code, extOf_extCode (sc := false) hx]

/-! ### Instructions of a class of their own -/

/-- `vote`: its kind and S lie in FN, the bit number in XF (R102). -/
theorem holds_vote (o : VoteOp) :
    Holds { bare 0x59 o.g with
      fn := 0#1 ++ BitVec.ofBool o.scalar ++ voteCode o.kind, dd := dstCode (.v o.d), sa := srcCode (.v o.a),
      xf := o.bit } (.vote o) := by
  refine ⟨⟨.a, rfl, rfl⟩, ?_⟩
  have hs : (0#1 ++ BitVec.ofBool o.scalar ++ voteCode o.kind : BitVec 4).getLsbD 2 = o.scalar := by
    cases o.scalar <;> cases o.kind <;> rfl
  show some (Instr.vote ⟨guardOf (guardCode o.g), voteOf (BitVec.extractLsb' 0 2 _), BitVec.getLsbD _ 2,
    (dstCode (.v o.d)).extractLsb' 0 8, (srcCode (.v o.a)).extractLsb' 0 8, o.bit⟩) = _
  simp only [hs, guardOf_code, extract_zero_append, voteOf_code, extract_dstCode_v, extract_srcCode_v]

/-- `launch`: WB says whether the pair of the numbers is written (R162). -/
theorem holds_launch (g : Guard) (d : Option (BitVec 8)) (t : BitVec 6) (r : BitVec 8) :
    Holds { bare 0xD2 g with
      dd := (match d with | some n => dstCode (.v n) | none => 0), sa := srcCode (.s t), sb := srcCode (.v r),
      xf := 0x06 } (.launch g d t r) := by
  refine ⟨⟨.a, rfl, rfl⟩, ?_⟩
  show some (Instr.launch (guardOf (guardCode g)) _ ((srcCode (.s t)).extractLsb' 0 6)
    ((srcCode (.v r)).extractLsb' 0 8)) = _
  rw [guardOf_code, extract_srcCode_s, extract_srcCode_v]
  cases d with
  | none => exact congrArg (fun d => some (Instr.launch g d t r)) (if_neg (show ¬(0#12).getLsbD 8 = true by decide))
  | some n =>
    have hw : (dstCode (.v n)).getLsbD 8 = true := by revert n; decide
    exact congrArg (fun d => some (Instr.launch g d t r)) ((if_pos hw).trans (congrArg some (extract_dstCode_v n)))

/-- `rdsr`: the number of the register lies in XF (R108). -/
theorem holds_rdsr (g : Guard) (d : Dst) (r : SpecialReg) :
    Holds { bare 0xD6 g with dd := dstCode d, xf := BitVec.ofBool (dk d) ++ specialCode r } (.rdsr g d r) := by
  refine ⟨⟨.a, rfl, rfl⟩, ?_⟩
  show some (Instr.rdsr (guardOf (guardCode g)) (dstOf (BitVec.getLsbD _ 4) (dstCode d))
    (specialOf (BitVec.extractLsb' 0 4 _))) = _
  rw [xf_top, extract_zero_append, guardOf_code, dstOf_code, specialOf_code]

/-- `trace`: SB names a vector register (R178). -/
theorem holds_trace (g : Guard) (a : Src) (v : BitVec 8) {x : Ext} (hx : formOf x ≠ .s) :
    Holds { trapFields 0xF0 g a x with sb := srcCode (.v v) } (.trace g a v x) := by
  refine ⟨⟨x, rfl, rfl⟩, ?_⟩
  show some (Instr.trace (guardOf (guardCode g)) (srcOf (srcCode a)) ((srcCode (.v v)).extractLsb' 0 8)
    (extOf false (extLen x) (extCode x))) = _
  rw [guardOf_code, srcOf_code, extract_srcCode_v, extOf_extCode (sc := false) hx]

/-- `rdctr`: FN says whether the counter is latched (R180). -/
theorem holds_rdctr (g : Guard) (lat : Bool) (d : Dst) (n : Src) {x : Ext} (hx : formOf x ≠ .s) :
    Holds { trapFields 0xF2 g n x with fn := boolCode lat, dd := dstCode d, xf := if dk d then 0x10 else 0 }
      (.rdctr g lat d n x) := by
  refine ⟨⟨x, rfl, rfl⟩, ?_⟩
  have hk : (if dk d then 0x10 else 0 : BitVec 5).getLsbD 4 = dk d := by cases dk d <;> rfl
  show some (Instr.rdctr (guardOf (guardCode g)) (boolOf (boolCode lat)) (dstOf (BitVec.getLsbD _ 4) (dstCode d))
    (srcOf (srcCode n)) (extOf false (extLen x) (extCode x))) = _
  rw [hk, guardOf_code, boolOf_code, dstOf_code, srcOf_code, extOf_extCode (sc := false) hx]

end Classes

/-! ### Every instruction read back -/

/-- A well-formed instruction is what its own fields hold (R16 to R28): class by class. -/
theorem holds_fieldsOf {i : Instr} {f : Fields} (hw : wellFormed i = true) (hf : fieldsOf i = some f) : Holds f i := by
  cases i with
  | iadd o | isub o | iabs o | ineg o =>
    cases hf; exact holds_alu (sc := false) rfl (boolOf_code _) (formOf_ne_of_aluOk hw rfl)
  | imad o => cases hf; exact holds_alu (sc := true) rfl (boolOf_code _) (formOf_ne_of_aluOk hw rfl)
  | imulLo o | imulHi o | imin o | imax o | iand o | ior o | ixor o | inot o | shl o | shr o | sra o | rotl o | popc o | clz o
  | ctz o | brev o | fmin o | fmax o | fabs o | fneg o | fclass o =>
    cases hf; exact holds_alu (sc := false) rfl rfl (formOf_ne_of_aluOk hw rfl)
  | bfe o | bfi o => cases hf; exact holds_alu (sc := true) rfl rfl (formOf_ne_of_aluOk hw rfl)
  | mov o => cases hf; exact holds_alu (sc := false) rfl rfl (formOf_ne_of_aluOk (Bool.and_elim_right hw) rfl)
  | sel o => cases hf; exact holds_alu (sc := true) rfl rfl (formOf_ne_i_of_sel hw)
  | movi o => cases hf; exact holds_alu (sc := false) rfl rfl (formOf_ne_s_of_movi hw)
  | lea o => cases hf; exact holds_alu (sc := false) rfl rfl (formOf_ne_s_of_lea hw)
  | cvt o => cases hf; exact holds_alu (sc := true) rfl (tyOf_code _) (formOf_ne_i_of_cvt hw)
  | fadd o | fsub o | fmul o | fdiv o | fsqrt o | frcp o | frsqrt o | fexp2 o | flog2 o | frnd o =>
    cases hf; exact holds_alu (sc := false) rfl (rmOf_code _) (formOf_ne_of_aluOk hw rfl)
  | ffma o => cases hf; exact holds_alu (sc := true) rfl (rmOf_code _) (formOf_ne_of_aluOk hw rfl)
  | strCmp o | strHash o | strFind o | strPfx o =>
    cases hf; exact holds_alu (sc := false) rfl rfl (formOf_ne_of_beq (Bool.and_elim_right hw) (by decide))
  | hashI64 o | partIdx o =>
    cases hf; exact holds_alu (sc := false) rfl rfl
      (formOf_ne_of_beq (Bool.and_elim_right (Bool.and_elim_left hw)) (by decide))
  | shfl o =>
    cases hf; refine holds_alu (sc := false) rfl (shflOf_code _) ?_
    have h := Bool.and_elim_right (Bool.and_elim_left (Bool.and_elim_left hw))
    intro e
    cases hx : o.x <;> simp_all [formOf]
  | icmp o =>
    cases hf; exact holds_bit rfl (condOf_code _)
      (formOf_ne_s_of_compare (tys := isInt) (Bool.and_elim_left (Bool.and_elim_left hw)))
  | fcmp o =>
    cases hf; exact holds_bit rfl (condOf_code _) (formOf_ne_s_of_compare (tys := fun t => t == .f32 || t == .f64) hw)
  | strEq o => cases hf; exact holds_bit rfl rfl (formOf_ne_of_beq (Bool.and_elim_right hw) (by decide))
  | cvtx o =>
    cases hf
    simp only [wellFormed, Bool.and_eq_true] at hw
    obtain ⟨⟨⟨-, hd⟩, -⟩, hx⟩ := hw
    refine holds_narrow rfl (dk_of_vecLatchNone hd) fun e => ?_
    cases h : o.x <;> simp_all [formOf]
  | cvtq o | hadm o | sclFind o =>
    cases hf
    simp only [wellFormed, Bool.and_eq_true] at hw
    obtain ⟨⟨⟨⟨-, hd⟩, -⟩, -⟩, hx⟩ := hw
    exact holds_narrow rfl (dk_of_vecLatchNone hd) (formOf_ne_of_beq hx (by decide))
  | bra o | brx o => cases hf; exact holds_jump rfl
  | jmp o => cases hf; exact holds_jump (if_neg not_boolOf_zero)
  | jmpIndirect t =>
    cases hf; exact ⟨⟨.a, rfl, rfl⟩, (if_pos boolOf_one).trans (congrArg (some ∘ Instr.jmpIndirect) (srcOf_code t))⟩
  | call l o =>
    cases hf; exact ⟨⟨.w _, rfl, rfl⟩, (if_neg not_boolOf_zero).trans
      (congrArg₂ (fun n j => some (Instr.call n j)) (extract_dstCode_v l) (jumpOf_eq rfl rfl))⟩
  | callIndirect l t =>
    cases hf; exact ⟨⟨.a, rfl, rfl⟩, (if_pos boolOf_one).trans
      (congrArg₂ (fun n t => some (Instr.callIndirect n t)) (extract_dstCode_v l) (srcOf_code t))⟩
  | ret t => cases hf; exact ⟨⟨.a, rfl, rfl⟩, congrArg (some ∘ Instr.ret) (srcOf_code t)⟩
  | join g | exit g | yield g | nop g | phase g | phaseRel g | phaseAcq g | drain g | tbar g | sigret g =>
    cases hf; exact holds_bare rfl
  | vote o => cases hf; exact holds_vote o
  | elect g r b =>
    cases hf; exact ⟨⟨.a, rfl, rfl⟩,
      congrArg₂ (fun g r => some (Instr.elect g r b)) (guardOf_code g) (extract_dstCode_v r)⟩
  | ld o | tagRd o =>
    cases hf
    exact holds_mem rfl rfl (dk_of_loadDst (Bool.and_elim_right (Bool.and_elim_left hw))) (Bool.and_elim_right hw)
  | ldf o | ldfk o =>
    cases hf
    exact holds_mem rfl rfl (dk_of_regDst (Bool.and_elim_right (Bool.and_elim_left hw))) (Bool.and_elim_right hw)
  | st o | ste o | clnWb o | clnInv o | clnWbinv o =>
    cases hf
    exact holds_mem rfl rfl (dk_of_noDst (Bool.and_elim_right (Bool.and_elim_left hw))) (Bool.and_elim_right hw)
  | pf o =>
    cases hf
    exact holds_mem rfl (boolOf_code _) (dk_of_noDst (Bool.and_elim_right (Bool.and_elim_left hw))) (Bool.and_elim_right hw)
  | red o =>
    cases hf
    exact holds_mem rfl (atomOf_code _) (dk_of_noDst (Bool.and_elim_right (Bool.and_elim_left hw))) (Bool.and_elim_right hw)
  | atom o =>
    cases hf
    have hd := Bool.or_eq_true_iff.mp (Bool.and_elim_right (Bool.and_elim_left hw))
    exact holds_mem rfl (atomOf_code _) (hd.elim dk_of_noDst dk_of_regDst) (Bool.and_elim_right hw)
  | tagSet o =>
    cases hf
    simp only [wellFormed, Bool.and_eq_true, beq_iff_eq] at hw
    obtain ⟨⟨⟨⟨⟨-, hb⟩, -⟩, -⟩, hd⟩, hx⟩ := hw
    exact holds_mem (if_neg (by rw [extract_memFields_xf, hb]; decide)) rfl (dk_of_noDst hd) hx
  | tagSetTile o =>
    cases hf
    simp only [wellFormed, Bool.and_eq_true, beq_iff_eq] at hw
    obtain ⟨⟨⟨⟨⟨-, hb⟩, -⟩, -⟩, hd⟩, hx⟩ := hw
    exact holds_mem (if_pos (by rw [extract_memFields_xf, hb]; decide)) rfl (dk_of_noDst hd) hx
  | barInit o | barExp o | barWait o =>
    cases hf
    simp only [wellFormed, Bool.and_eq_true] at hw
    obtain ⟨⟨-, hx⟩, -⟩ := hw
    exact holds_bar rfl (formOf_ne_s_of_scalarOrImm hx)
  | barArr o => cases hf; exact holds_bar rfl (formOf_ne_of_beq (Bool.and_elim_right hw) (by decide))
  | barArrw o =>
    cases hf; exact holds_bar rfl (formOf_ne_of_beq (Bool.and_elim_right (Bool.and_elim_left hw)) (by decide))
  | cpy o | cpyTile o | cpyGth o | cpySct o | cpyRem o | cpyMcast o | cpyRed o => cases hf; exact holds_cpy rfl
  | sfeed o | mma o | gspStep o => cases hf; exact holds_eng rfl
  | tokWait o | tokTest o | tokCancel o | tokDetach o | tokResume o | tokState o =>
    cases hf; exact holds_tok rfl (.inl rfl) (.inr (beq_iff_eq.mp (Bool.and_elim_right hw)))
  | tokAdopt o =>
    cases hf
    simp only [wellFormed, Bool.and_eq_true, beq_iff_eq] at hw
    obtain ⟨⟨-, ha⟩, hb⟩ := hw
    exact holds_tok rfl (.inr ha) (.inr hb)
  | tokPrio o | tokAfter o => cases hf; exact holds_tok rfl (.inl rfl) (.inl rfl)
  | accZero o | accWr o => cases hf; exact holds_acc rfl (dk_of_noDst (Bool.and_elim_left (Bool.and_elim_left hw)))
  | accRd o => cases hf; exact holds_acc rfl (dk_of_vecOrLatch (Bool.and_elim_left (Bool.and_elim_left hw)))
  | gspInj o | gspRd o | gspMass o | gspSpread o => cases hf; exact holds_gsp rfl (by decide) (Bool.and_elim_right hw)
  | grow p a x | shrink p a x => cases hf; exact holds_grow rfl (formOf_ne_s_of_pool hw)
  | launch g d t r => cases hf; exact holds_launch g d t r
  | launchFlush g t =>
    cases hf; exact ⟨⟨.a, rfl, rfl⟩,
      congrArg₂ (fun g t => some (Instr.launchFlush g t)) (guardOf_code g) (extract_srcCode_s t)⟩
  | depAdd g d ix b x | depSub g d ix b x => cases hf; exact holds_dep rfl (formOf_ne_s_of_scalarOrImm hw)
  | rdsr g d r => cases hf; exact holds_rdsr g d r
  | sys g a x | trap g a x | brk g a x => cases hf; exact holds_trap rfl (formOf_ne_s_of_trapSource hw)
  | mark g a x => cases hf; exact holds_trap rfl (formOf_ne_s_of_scalarOrImm hw)
  | trace g a v x => cases hf; exact holds_trace g a v (formOf_ne_s_of_scalarOrImm hw)
  | rdctr g lat d n x => cases hf; exact holds_rdctr g lat d n (formOf_ne_s_of_scalarOrImm (Bool.and_elim_left hw))
  | rdcr o | wrcr o => cases hf; exact holds_cr rfl
  | park o | unpark o | tlbi o | ctxSave o | ctxLoad o | teamOut o | teamIn o => cases hf; exact holds_priv rfl
  | halt o =>
    cases hf
    simp only [wellFormed, Bool.and_eq_true, Bool.or_eq_true, beq_iff_eq] at hw
    obtain ⟨⟨⟨hf, -⟩, -⟩, -⟩ := hw
    exact holds_priv (if_neg (by show ¬boolOf o.fn = true; rcases hf with h | h <;> rw [h] <;> decide))
  | haltRelease o =>
    cases hf
    simp only [wellFormed, Bool.and_eq_true, Bool.or_eq_true, beq_iff_eq] at hw
    obtain ⟨⟨⟨hf, -⟩, -⟩, -⟩ := hw
    exact holds_priv (if_pos (by show boolOf o.fn = true; rcases hf with h | h <;> rw [h] <;> decide))
  | _ => cases hf

/-! ### Bytes read and written again -/

/-- The bytes of a word and of what follows it, put together again. -/
theorem leNat_append (a b : List Byte) : leNat (a ++ b) = leNat a + 256 ^ a.length * leNat b := by
  induction a with
  | nil => simp [leNat]
  | cons x a ih =>
    rw [List.cons_append, leNat, leNat, ih, List.length_cons, Nat.pow_succ]
    ring

theorem leNat_lt (l : List Byte) : leNat l < 256 ^ l.length := by
  rw [← leBytes_leNat l, leNat_leBytes, length_leBytes]
  exact Nat.mod_lt _ (by positivity)

/-- The value of a list no longer than a word needs no more bits. -/
theorem toNat_ofNat_leNat {l : List Byte} (h : l.length ≤ 8) : (BitVec.ofNat 64 (leNat l)).toNat = leNat l := by
  have hp : 256 ^ l.length ≤ 256 ^ 8 := Nat.pow_le_pow_right (by decide) h
  rw [BitVec.toNat_ofNat]
  exact Nat.mod_eq_of_lt (lt_of_lt_of_le (leNat_lt l) hp)

/-- What decoding accepts is well formed and has exactly these fields. -/
theorem of_decodeFields {f : Fields} {i : Instr} (h : decodeFields f = .ok i) :
    wellFormed i = true ∧ fieldsOf i = some f := by
  unfold decodeFields at h
  split at h
  · cases h
  · split at h
    · cases h
    · split at h
      · rename_i hi
        cases h
        simpa using hi
      · cases h

/-- What decoding reads: fields whose bytes are those that their LEN names, of which there are enough. -/
theorem of_decode {bs : List Byte} {i : Instr} (h : decode bs = .ok i) :
    ∃ f, decodeFields f = .ok i ∧ lenBytes f.len ≤ bs.length
      ∧ f.base.toNat + 2 ^ 64 * f.x.toNat = leNat (bs.take (lenBytes f.len)) := by
  unfold decode at h
  dsimp only at h
  split at h
  · cases h
  · rename_i hn
    rw [not_or, not_lt] at hn
    obtain ⟨h0, hlen⟩ := hn
    refine ⟨_, h, hlen, ?_⟩
    rw [base_of]
    set w := BitVec.ofNat 64 (leNat (bs.take 8))
    set n := lenBytes (w.extractLsb' 0 2)
    show w.toNat + 2 ^ 64 * (BitVec.ofNat 64 (leNat ((bs.take n).drop 8))).toNat = leNat (bs.take n)
    have hl : w.extractLsb' 0 2 ≠ 0 := fun e => h0 (by show lenBytes _ = 0; rw [e]; rfl)
    have hn : 8 ≤ n ∧ n ≤ 16 := by rcases lenBytes_cases _ hl with h | h | h <;> omega
    have h8 : (bs.take n).take 8 = bs.take 8 := by rw [List.take_take, Nat.min_eq_left hn.1]
    have hs := leNat_append ((bs.take n).take 8) ((bs.take n).drop 8)
    rw [List.take_append_drop, h8, List.length_take, Nat.min_eq_left (hn.1.trans hlen)] at hs
    rw [hs, toNat_ofNat_leNat (by rw [List.length_take]; omega),
      toNat_ofNat_leNat (by rw [List.length_drop, List.length_take]; omega), show (2 : ℕ) ^ 64 = 256 ^ 8 by norm_num]

/-- Bytes that decode to an instruction are its own, and it is well formed. -/
theorem encode_of_decode {bs : List Byte} {i : Instr} (h : decode bs = .ok i) :
    wellFormed i = true ∧ isDeviceStep i = false ∧ encode i = bs.take i.bytes ∧ i.bytes ≤ bs.length := by
  obtain ⟨f, hd, hlen, hv⟩ := of_decode h
  obtain ⟨hw, hf⟩ := of_decodeFields hd
  have hb : i.bytes = lenBytes f.len := by rw [Instr.bytes, hf]
  refine ⟨hw, by rw [isDeviceStep, hf]; rfl, ?_, hb ▸ hlen⟩
  have hl := leBytes_leNat (bs.take (lenBytes f.len))
  rw [List.length_take, Nat.min_eq_left hlen] at hl
  rw [hb, ← hl, ← hv, encode, hf]

/-- Settles O56: a well-formed instruction is what its own fields hold, class by class; and the bytes read are those of the
fields that decoding accepts. -/
theorem decodeEncode : Obligations.DecodeEncode := by
  unfold Obligations.DecodeEncode
  refine ⟨fun i rest hw hd => ?_, fun bs i h => encode_of_decode h⟩
  obtain ⟨f, hf⟩ := Option.ne_none_iff_exists'.mp (fun e => by simp [isDeviceStep, e] at hd : fieldsOf i ≠ none)
  exact decode_encode_of_holds hf hw (holds_fieldsOf hw hf) rest

end Sys2Proof.Proofs
end

section
/-! SUPPORT. Words of the encoding tables: the word that decoding reads first, and the OPs that no instruction has. -/

namespace Sys2Proof.Proofs

open Sys2Proof Machine Laws Forms Statements

/-- The first word of bytes that begin with a word is that word. -/
theorem ofNat_leNat_take_leBytes (w : BitVec 64) (rest : List Byte) :
    BitVec.ofNat 64 (leNat ((leBytes 8 w.toNat ++ rest).take 8)) = w := by
  rw [List.take_left' (length_leBytes 8 _), leNat_leBytes]
  apply BitVec.eq_of_toNat_eq
  rw [BitVec.toNat_ofNat]
  have := w.isLt
  omega

/-- LEN 00 is refused whatever follows (R12). -/
theorem decode_len_zero {w : BitVec 64} (rest : List Byte) (h : w.extractLsb' 0 2 = 0) :
    decode (leBytes 8 w.toNat ++ rest) = .error .length := by
  unfold decode
  simp only [ofNat_leNat_take_leBytes]
  rw [if_pos (.inl (by rw [h]; rfl))]

/-- No instruction has an OP that Table 2-9 does not assign. -/
theorem readFields_eq_none {f : Fields} (h : f.op.toNat ∉ assignedOps) : readFields f = none := by
  unfold readFields
  dsimp only
  split
  on_goal -1 => rfl
  all_goals
    rename_i e
    exact absurd (by rw [e]; decide) h

theorem decodeFields_unassigned {f : Fields} (hl : f.len ≠ 0) (h : f.op.toNat ∉ assignedOps) :
    decodeFields f = .error .unassigned := by
  have hl : ¬(f.len == 0) = true := by rwa [beq_iff_eq]
  unfold decodeFields
  rw [if_neg hl, readFields_eq_none h]

/-- An unassigned OP is refused where the bytes reach as far as its LEN (R31). -/
theorem decode_unassigned {w : BitVec 64} {rest : List Byte} (hl : w.extractLsb' 0 2 ≠ 0) (hr : 8 ≤ rest.length)
    (h : (w.extractLsb' 2 8).toNat ∉ assignedOps) : decode (leBytes 8 w.toNat ++ rest) = .error .unassigned := by
  unfold decode
  simp only [ofNat_leNat_take_leBytes]
  rw [if_neg, decodeFields_unassigned hl h]
  rw [List.length_append, length_leBytes]
  rcases lenBytes_cases _ hl with e | e | e <;> omega

/-- Settles O57: the words by evaluation, each decoded once; what is refused by its LEN and its OP. -/
theorem decodeWords : Obligations.DecodeWords := by
  unfold Obligations.DecodeWords
  exact ⟨by decide +kernel, fun w rest h => decode_len_zero rest h, fun w rest hl hr h => decode_unassigned hl hr h⟩

end Sys2Proof.Proofs
end

section
/-! SUPPORT. Results of lanes: what a group holds after a per-lane write of registers, latches, scalars or one bit, and what an
instruction that only writes such results comes to. -/

namespace Sys2Proof.Proofs

open Sys2Proof Machine Laws Forms

/-! ### Lanes -/

@[simp] theorem mem_lanes {m : Mask} {l : Nat} : l ∈ lanes m ↔ l < 32 ∧ m.getLsbD l = true := by
  simp [lanes]

@[simp] theorem lanes_zero : lanes 0 = [] := by decide

/-- A part that the lane `k` writes, and no other lane of a list writes otherwise, after all of them have written. -/
theorem foldl_lanes_eq {α β : Type} {f : α → Nat → α} {r : α → β} {k : Nat} {x : β} {ls : List Nat}
    (hk : ∀ a, r (f a k) = x) (hne : ∀ a l, l ∈ ls → l ≠ k → r a = x → r (f a l) = x) (h : k ∈ ls) (a : α) :
    r (ls.foldl f a) = x := by
  have keep : ∀ a l, l ∈ ls → r a = x → r (f a l) = x := fun a l hl ha =>
    if e : l = k then by rw [e]; exact hk a else hne a l hl e ha
  suffices ∀ a, r a = x ∨ k ∈ ls → r (ls.foldl f a) = x from this a (.inr h)
  clear hne h
  induction ls with
  | nil => rintro a (h | h); exacts [h, absurd h List.not_mem_nil]
  | cons l ls ih =>
    refine fun a h => ih (fun a m hm => keep a m (List.mem_cons_of_mem _ hm)) (f a l) ?_
    rcases h with h | h
    · exact .inl (keep a l List.mem_cons_self h)
    · exact (List.mem_cons.mp h).imp (fun e => by rw [← e]; exact hk a) id

/-- A part of the group that no lane of a list writes. -/
theorem foldl_lanes_frame {α β : Type} {f : α → Nat → α} {r : α → β} {ls : List Nat}
    (h : ∀ a l, l ∈ ls → r (f a l) = r a) (a : α) : r (ls.foldl f a) = r a := by
  induction ls generalizing a with
  | nil => rfl
  | cons l ls ih =>
    rw [List.foldl_cons, ih fun a m hm => h a m (List.mem_cons_of_mem _ hm)]
    exact h a l (List.mem_cons_self ..)

/-! ### Widths and named registers -/

/-- The widths of register results (R19). -/
def IsWidth (w : Nat) : Prop := w ≠ 64 → w ≠ 128 → w = 32

theorem isWidth_regBits (ty : Ty) : IsWidth (regBits ty) := by cases ty <;> simp [IsWidth, regBits]

theorem isWidth_32 : IsWidth 32 := fun _ _ => rfl

theorem isWidth_64 : IsWidth 64 := fun h => absurd rfl h

/-- The first vector register that a destination names. -/
def vecOf : Dst → Option Nat
  | .v n | .vbl n _ => some n.toNat
  | _ => none

theorem dstNames_iff {d : Dst} {w m : Nat} : dstNames d w m ↔ ∃ n, vecOf d = some n ∧ n ≤ m ∧ m < n + w / 32 := by
  cases d <;> simp [dstNames, dstRegs, vecOf]

/-! ### One lane's write (Table 2-4, R19) -/

section Put

variable {g : Group} {d : Dst} {l k w m n : Nat} {x : BitVec 128}

theorem vreg_put_named (hw : IsWidth w) (hl : l < 32) (hd : vecOf d = some n) (h0 : n ≤ m) (h1 : m < n + w / 32) :
    (g.put d l w x).vreg m l = x.extractLsb' (32 * (m - n)) 32 := by
  cases d with
  | v b | vbl b _ =>
    cases hd
    exact (vreg_setVwide g _ l w m l x hw hl hl).trans (if_pos ⟨rfl, h0, h1⟩)
  | bl _ | s _ | none _ => cases hd

theorem vreg_put_frame (hw : IsWidth w) (hl : l < 32) (hk : k < 32) (h : dstNames d w m → k ≠ l) :
    (g.put d l w x).vreg m k = g.vreg m k := by
  rw [dstNames_iff] at h
  cases d with
  | v b | vbl b _ =>
    refine (vreg_setVwide g _ l w m k x hw hl hk).trans (if_neg ?_)
    rintro ⟨e, h0, h1⟩
    exact h ⟨_, rfl, h0, h1⟩ e
  | bl _ | s _ | none _ => rfl

theorem latch_setVwide (r : Nat) : (g.setVwide r l w x).latch m k = g.latch m k := by
  rw [setVwide_rest]; rfl

theorem latch_put_named {b : BitVec 2} (hl : l < 32) (hd : dstLatch d = some b) :
    (g.put d l w x).latch b.toNat l = x.setWidth 32 := by
  cases d with
  | vbl _ _ | bl _ =>
    cases hd
    exact (latch_setLatch _ _ l _ l _ hl hl).trans (if_pos ⟨rfl, rfl⟩)
  | v _ | s _ | none _ => cases hd

theorem latch_put_frame {b : BitVec 2} (hl : l < 32) (hk : k < 32) (h : dstLatch d = some b → k ≠ l) :
    (g.put d l w x).latch b.toNat k = g.latch b.toNat k := by
  have ne : ∀ c : BitVec 2, dstLatch d = some c → ¬(b.toNat = c.toNat ∧ k = l) := by
    rintro c hc ⟨e, ek⟩
    exact h (hc.trans (congrArg some (BitVec.eq_of_toNat_eq e.symm))) ek
  cases d with
  | v r => exact latch_setVwide _
  | vbl r c => exact ((latch_setLatch _ _ l _ k _ hl hk).trans (if_neg (ne c rfl))).trans (latch_setVwide _)
  | bl c => exact (latch_setLatch _ _ l _ k _ hl hk).trans (if_neg (ne c rfl))
  | s _ | none _ => rfl

theorem sreg_setVwide (r : Nat) : (g.setVwide r l w x).sreg m = g.sreg m := by
  rw [setVwide_rest]; rfl

theorem sreg_put_named {b : BitVec 6} :
    (g.put (.s b) l w x).sreg b.toNat = if w ≤ 32 then (x.setWidth 32).setWidth 64 else x.setWidth 64 :=
  (sreg_setSreg _ _ _ _).trans (if_pos rfl)

theorem sreg_put_frame {b : BitVec 6} (h : dstScalar d ≠ some b) : (g.put d l w x).sreg b.toNat = g.sreg b.toNat := by
  cases d with
  | v r | vbl r _ => exact sreg_setVwide _
  | s c =>
    refine (sreg_setSreg _ _ _ _).trans (if_neg fun e => h ?_)
    exact congrArg some (BitVec.eq_of_toNat_eq e.symm)
  | bl _ | none _ => rfl

/-- A lane's write leaves everything of a group but its registers and latches. -/
theorem put_rest (g : Group) (d : Dst) (l w : Nat) (x : BitVec 128) :
    g.put d l w x = { g with v := (g.put d l w x).v, s := (g.put d l w x).s, bl := (g.put d l w x).bl } := by
  cases d with
  | v r => exact (setVwide_rest g _ l w x).trans (by rw [Group.put, setVwide_rest])
  | vbl r b =>
    show (g.setVwide r.toNat l w x).setLatch _ _ _ = _
    rw [Group.put, setVwide_rest]; rfl
  | bl _ | s _ | none _ => rfl

end Put

/-! ### The writes of all active lanes -/

section PerLane

variable {g : Group} {d : Dst} {l w : Nat} {act : Mask} {f : Nat → BitVec 128}

theorem perLane_eq_foldl : g.perLane d w act f = (lanes act).foldl (fun g l => g.put d l w (f l)) g := by
  rw [Group.perLane, Group.putAll, List.foldl_map]

@[simp] theorem perLane_zero : g.perLane d w 0 f = g := by rw [perLane_eq_foldl, lanes_zero]; rfl

/-- The lanes' writes leave everything of a group but its registers and latches. -/
theorem perLane_rest (g : Group) (d : Dst) (w : Nat) (act : Mask) (f : Nat → BitVec 128) :
    ∃ v s bl, g.perLane d w act f = { g with v := v, s := s, bl := bl } := by
  have h := foldl_lanes_frame (r := fun h : Group => { h with v := g.v, s := g.s, bl := g.bl }) (ls := lanes act)
    (f := fun g l => g.put d l w (f l)) (fun h l _ => by rw [put_rest]) g
  rw [← perLane_eq_foldl] at h
  let p := g.perLane d w act f
  exact ⟨p.v, p.s, p.bl, congrArg (fun h : Group => { h with v := p.v, s := p.s, bl := p.bl }) h⟩

theorem lt_of_mem_lanes {l : Nat} (h : l ∈ lanes act) : l < 32 := (mem_lanes.mp h).1

/-- An active lane's registers hold their parts of its result. -/
theorem vreg_perLane_named {n m : Nat} (hw : IsWidth w) (hl : l < 32) (ha : act.getLsbD l = true) (hd : vecOf d = some n)
    (h0 : n ≤ m) (h1 : m < n + w / 32) : (g.perLane d w act f).vreg m l = (f l).extractLsb' (32 * (m - n)) 32 := by
  rw [perLane_eq_foldl]
  refine foldl_lanes_eq (r := fun g => g.vreg m l) (k := l) (fun a => ?_) (fun a k hk e h => ?_) (mem_lanes.mpr ⟨hl, ha⟩) g
  · exact vreg_put_named hw hl hd h0 h1
  · exact (vreg_put_frame hw (lt_of_mem_lanes hk) hl fun _ => e.symm).trans h

theorem latch_perLane_named {b : BitVec 2} (hl : l < 32) (ha : act.getLsbD l = true) (hd : dstLatch d = some b) :
    (g.perLane d w act f).latch b.toNat l = (f l).setWidth 32 := by
  rw [perLane_eq_foldl]
  refine foldl_lanes_eq (r := fun g => g.latch b.toNat l) (k := l) (fun a => ?_) (fun a k hk e h => ?_)
    (mem_lanes.mpr ⟨hl, ha⟩) g
  · exact latch_put_named hl hd
  · exact (latch_put_frame (lt_of_mem_lanes hk) hl fun _ => e.symm).trans h

/-- A scalar holds the result where all lanes have the same (R21). -/
theorem sreg_perLane_named {b : BitVec 6} (hl : l < 32) (ha : act.getLsbD l = true) (hf : ∀ k, f k = f l) :
    (g.perLane (.s b) w act f).sreg b.toNat = if w ≤ 32 then ((f l).setWidth 32).setWidth 64 else (f l).setWidth 64 := by
  rw [perLane_eq_foldl]
  refine foldl_lanes_eq (r := fun g => g.sreg b.toNat) (k := l) (fun a => ?_) (fun a k _ _ _ => ?_)
    (mem_lanes.mpr ⟨hl, ha⟩) g
  · exact sreg_put_named
  · rw [← hf k]
    exact sreg_put_named

/-- Registers as wide as the result hold it. -/
theorem vwide_of_parts {n : Nat} {x : BitVec 128} (hw : IsWidth w)
    (h : ∀ m, n ≤ m → m < n + w / 32 → g.vreg m l = x.extractLsb' (32 * (m - n)) 32) :
    g.vwide n l w = (x.setWidth w).setWidth 128 := by
  have low : ∀ {v : Nat}, v ≤ 128 → x.extractLsb' (32 * (n - n)) v = x.setWidth v := fun hv => by
    rw [Nat.sub_self, Nat.mul_zero, BitVec.setWidth_eq_extractLsb' hv]
  unfold Group.vwide
  by_cases h64 : w = 64
  · subst h64
    rw [if_pos rfl, h n le_rfl (by omega), h (n + 1) (by omega) (by omega),
      BitVec.extractLsb'_append_extractLsb'_eq_extractLsb' (by omega), low (by decide)]
  · by_cases h128 : w = 128
    · subst h128
      rw [if_neg (by decide), if_pos rfl, h n le_rfl (by omega), h (n + 1) (by omega) (by omega),
        h (n + 2) (by omega) (by omega), h (n + 3) (by omega) (by omega),
        BitVec.extractLsb'_append_extractLsb'_eq_extractLsb' (by omega),
        BitVec.extractLsb'_append_extractLsb'_eq_extractLsb' (by omega),
        BitVec.extractLsb'_append_extractLsb'_eq_extractLsb' (by omega), low (by decide), BitVec.setWidth_eq, BitVec.setWidth_eq]
    · obtain rfl := hw h64 h128
      rw [if_neg h64, if_neg h128, h n le_rfl (by omega), low (by decide)]

/-- Every active lane's destination holds its result: a scalar, where all lanes have the same. -/
theorem holds_perLane (hw : IsWidth w) (hu : ∀ n, d = .s n → ∀ k, f k = f l) (hl : l < 32) (ha : act.getLsbD l = true) :
    (g.perLane d w act f).holds d l w (f l) := by
  have hv : ∀ n, vecOf d = some n → (g.perLane d w act f).vwide n l w = ((f l).setWidth w).setWidth 128 := fun n hd =>
    vwide_of_parts hw fun m h0 h1 => vreg_perLane_named hw hl ha hd h0 h1
  cases d with
  | v n => exact hv _ rfl
  | vbl n b => exact ⟨hv _ rfl, latch_perLane_named hl ha rfl⟩
  | bl b => exact latch_perLane_named hl ha rfl
  | s n => exact sreg_perLane_named hl ha (hu n rfl)
  | none _ => trivial

/-- What the destination does not name, and the lanes that are not active, keep their values. -/
theorem onlyDst_perLane (hw : IsWidth w) : g.onlyDst (g.perLane d w act f) d w fun l => act.getLsbD l := by
  have out : ∀ {k}, act.getLsbD k = false → ∀ {l}, l ∈ lanes act → k ≠ l := by
    rintro k hk l hl rfl
    rw [(mem_lanes.mp hl).2] at hk
    cases hk
  refine ⟨?_, fun n l hl h => ?_, fun b l hl h => ?_, fun b h => ?_⟩
  · obtain ⟨v, s, bl, e⟩ := perLane_rest g d w act f
    rw [e]
  all_goals rw [perLane_eq_foldl]
  · exact foldl_lanes_frame (r := fun g => g.vreg n l)
      (fun _ k hk => vreg_put_frame hw (lt_of_mem_lanes hk) hl fun hn => out (h hn) hk) g
  · exact foldl_lanes_frame (r := fun g => g.latch b.toNat l)
      (fun _ k hk => latch_put_frame (lt_of_mem_lanes hk) hl fun hn => out (h hn) hk) g
  · exact foldl_lanes_frame (r := fun g => g.sreg b.toNat) (fun _ _ _ => sreg_put_frame h) g

end PerLane

/-! ### One bit per lane (R26) -/

section PerLaneBit

variable {g : Group} {r b l k n : Nat} {act : Mask} {f : Nat → Bool}

/-- A write of one bit: the register of one lane is written, and of it one bit changes. -/
theorem vreg_putBit (x : Bool) (hl : l < 32) (hk : k < 32) : (g.putBit r b l x).vreg n k =
    if n = r ∧ k = l then (if x then g.vreg r l ||| BitVec.twoPow 32 b else g.vreg r l &&& ~~~BitVec.twoPow 32 b)
    else g.vreg n k :=
  vreg_setVreg _ _ _ _ _ _ hl hk

theorem bit_putBit_same (x : Bool) (hl : l < 32) (hb : b < 32) : ((g.putBit r b l x).vreg r l).getLsbD b = x := by
  rw [vreg_putBit x hl hl, if_pos ⟨rfl, rfl⟩]
  cases x <;> simp [hb]

theorem bit_putBit_frame (x : Bool) (hl : l < 32) (hk : k < 32) {j : Nat} (h : n = r → k = l → j ≠ b) :
    ((g.putBit r b l x).vreg n k).getLsbD j = (g.vreg n k).getLsbD j := by
  rw [vreg_putBit x hl hk]
  split
  · rename_i e
    obtain ⟨rfl, rfl⟩ := e
    have hj := h rfl rfl
    cases x with
    | true => simp [BitVec.getLsbD_twoPow, Ne.symm hj]
    | false => simpa [BitVec.getLsbD_twoPow, Ne.symm hj] using BitVec.lt_of_getLsbD
  · rfl

theorem perLaneBit_eq_foldl : g.perLaneBit r b act f = (lanes act).foldl (fun g l => g.putBit r b l (f l)) g := by
  rw [Group.perLaneBit, List.foldl_map]

@[simp] theorem perLaneBit_zero : g.perLaneBit r b 0 f = g := by rw [perLaneBit_eq_foldl, lanes_zero]; rfl

/-- Every active lane's bit is its result. -/
theorem bit_perLaneBit (hb : b < 32) (hl : l < 32) (ha : act.getLsbD l = true) :
    ((g.perLaneBit r b act f).vreg r l).getLsbD b = f l := by
  rw [perLaneBit_eq_foldl]
  refine foldl_lanes_eq (r := fun g : Group => (g.vreg r l).getLsbD b) (k := l) (fun a => ?_) (fun a k hk e h => ?_)
    (mem_lanes.mpr ⟨hl, ha⟩) g
  · exact bit_putBit_same _ hl hb
  · exact (bit_putBit_frame _ (lt_of_mem_lanes hk) hl fun _ h => absurd h.symm e).trans h

/-- The other bits of the register keep their values. -/
theorem bit_perLaneBit_frame (hl : l < 32) {j : Nat} (hj : j ≠ b) :
    ((g.perLaneBit r b act f).vreg r l).getLsbD j = (g.vreg r l).getLsbD j := by
  rw [perLaneBit_eq_foldl]
  exact foldl_lanes_frame (r := fun g : Group => (g.vreg r l).getLsbD j)
    (fun _ k hk => bit_putBit_frame _ (lt_of_mem_lanes hk) hl fun _ _ => hj) g

/-- The bits written leave everything of a group but its vector registers. -/
theorem perLaneBit_rest (g : Group) (r b : Nat) (act : Mask) (f : Nat → Bool) :
    ∃ v, g.perLaneBit r b act f = { g with v := v } := by
  have h := foldl_lanes_frame (r := fun h : Group => { h with v := g.v }) (ls := lanes act)
    (f := fun g l => g.putBit r b l (f l)) (fun h l _ => rfl) g
  rw [← perLaneBit_eq_foldl] at h
  exact ⟨(g.perLaneBit r b act f).v, congrArg (fun h : Group => { h with v := (g.perLaneBit r b act f).v }) h⟩

/-- What is not the register of an active lane keeps its value. -/
theorem onlyDst_perLaneBit {r : BitVec 8} :
    g.onlyDst (g.perLaneBit r.toNat b act f) (.v r) 32 fun l => act.getLsbD l := by
  obtain ⟨v, e⟩ := perLaneBit_rest g r.toNat b act f
  refine ⟨by rw [e], fun n l hl h => ?_, fun _ _ _ _ => by rw [e]; rfl, fun _ _ => by rw [e]; rfl⟩
  rw [perLaneBit_eq_foldl]
  refine foldl_lanes_frame (r := fun g : Group => g.vreg n l) (fun _ k hk => ?_) g
  refine (vreg_putBit _ (lt_of_mem_lanes hk) hl).trans (if_neg ?_)
  rintro ⟨rfl, rfl⟩
  have ha : act.getLsbD l = false := h (dstNames_iff.mpr ⟨_, rfl, le_rfl, by omega⟩)
  rw [(mem_lanes.mp hk).2] at ha
  cases ha

end PerLaneBit

/-! ### Instructions that write registers and go on -/

section Frames

variable {g g' h : Group} {d : Dst} {l w n : Nat} {act : Nat → Bool}

theorem vreg_of_sameRegs (e : g.sameRegs h) : h.vreg n l = g.vreg n l := by rw [e]; rfl

theorem holds_of_sameRegs {x : BitVec 128} (e : g.sameRegs h) (hx : g.holds d l w x) : h.holds d l w x := by
  rw [e]
  cases d <;> exact hx

theorem onlyDst_of_sameRegs (e : g'.sameRegs h) (hg : g.onlyDst g' d w act) : g.onlyDst h d w act := by
  obtain ⟨h1, h2, h3, h4⟩ := hg
  refine ⟨?_, fun n l hl ha => ?_, fun n l hl ha => ?_, fun n hn => ?_⟩ <;> rw [e]
  · conv_lhs => rw [h1]
  · exact h2 n l hl ha
  · exact h3 n l hl ha
  · exact h4 n hn

end Frames

/-- An instruction that changes its group and goes on: what the change leaves of the slots stands, and the rest follows. -/
theorem advance_onMe (s : State) (i : Instr) (f : Group → Group) (h0 : (f s.me).slot0 = s.me.slot0)
    (h1 : (f s.me).slot1 = s.me.slot1) :
    let t := (s.onMe f).advance i
    s.wentOn t (s.nextPc i) ∧ (f s.me).sameRegs t.me ∧ s.elsewhereSame t := by
  obtain ⟨⟨hc, hs, hp, hm, hr, ho⟩, hf, he⟩ := advance_spec (s.onMe f) i
  have hslot : ∀ n, (f s.me).slot n = s.me.slot n := fun n => by simp only [Group.slot, h0, h1]
  have hmy : (s.onMe f).mySlot = s.mySlot := by rw [State.mySlot, me_onMe]; exact hslot _
  rw [State.nextPc, hmy] at hp
  rw [hmy] at hm hr
  rw [me_onMe] at hf ho
  exact ⟨⟨hc, hs, hp, hm, hr, ho.trans (hslot _)⟩, hf, elsewhereSame_trans (elsewhereSame_onMe s f) he⟩

/-- An instruction that nothing stands against, and that then writes its group and goes on. -/
theorem issue_writes {i : Instr} {gd : Guard} {s : State} {body : Mask → State} (f : Group → Group)
    (h : issuable i s = true) (hb : s.me.active s.mySlot.mask gd ≠ 0 → body (s.me.active s.mySlot.mask gd) = (s.onMe f).advance i)
    (h0 : (f s.me).slot0 = s.me.slot0) (h1 : (f s.me).slot1 = s.me.slot1)
    (hz : s.me.active s.mySlot.mask gd = 0 → f s.me = s.me) :
    ∃ t, issue i gd s body = .next t ∧ s.wentOn t (s.nextPc i) ∧ (f s.me).sameRegs t.me ∧ s.elsewhereSame t := by
  refine ⟨_, issue_eq i gd s body false h, ?_⟩
  by_cases ha : s.me.active s.mySlot.mask gd = 0
  · rw [if_pos (by simp [ha]), hz ha]
    exact advance_spec s i
  · rw [if_neg (by simpa using ha), hb ha]
    exact advance_onMe s i f h0 h1

/-- A per-lane instruction completes: a scalar destination needs one result for all lanes. -/
theorem alu_gives {i : Instr} {gd : Guard} {d : Dst} {w : Nat} {f : Group → Nat → BitVec 128} {s : State}
    (he : exec i s = alu i gd d w f s) (h : issuable i s = true) (hw : IsWidth w)
    (hu : ∀ n, d = .s n → ∀ k l, f s.me k = f s.me l) : givesLanes i gd d w (f s.me) s := by
  obtain ⟨v, sc, bl, e⟩ := perLane_rest s.me d w (s.me.active s.mySlot.mask gd) (f s.me)
  obtain ⟨t, ht, hwent, hregs, helse⟩ := issue_writes (gd := gd)
    (body := fun act => (s.onMe fun g => g.perLane d w act (f s.me)).advance i)
    (fun g => g.perLane d w (s.me.active s.mySlot.mask gd) (f s.me)) h (fun _ => rfl) (by rw [e]) (by rw [e])
    (fun ha => by rw [ha, perLane_zero])
  refine ⟨t, he.trans ht, hwent, fun l hl ha => ?_, onlyDst_of_sameRegs hregs (onlyDst_perLane hw), helse⟩
  exact holds_of_sameRegs hregs (holds_perLane hw (fun n hn k => hu n hn k l) hl ha)

/-- The same for an instruction with one bit for its destination. -/
theorem aluBit_gives {i : Instr} {gd : Guard} {r : BitVec 8} {b : BitVec 5} {f : Group → Nat → Bool} {s : State}
    (he : exec i s = aluBit i gd r.toNat b.toNat f s) (h : issuable i s = true) : givesBit i gd r b (f s.me) s := by
  obtain ⟨v, e⟩ := perLaneBit_rest s.me r.toNat b.toNat (s.me.active s.mySlot.mask gd) (f s.me)
  obtain ⟨t, ht, hwent, hregs, helse⟩ := issue_writes (gd := gd)
    (body := fun act => (s.onMe fun g => g.perLaneBit r.toNat b.toNat act (f s.me)).advance i)
    (fun g => g.perLaneBit r.toNat b.toNat (s.me.active s.mySlot.mask gd) (f s.me)) h (fun _ => rfl) (by rw [e]) (by rw [e])
    (fun ha => by rw [ha, perLaneBit_zero])
  refine ⟨t, he.trans ht, hwent, fun l hl ha => ?_, fun l k hl hk => ?_, onlyDst_of_sameRegs hregs onlyDst_perLaneBit, helse⟩
  · rw [vreg_of_sameRegs hregs]
    exact bit_perLaneBit b.isLt hl ha
  · rw [vreg_of_sameRegs hregs]
    exact bit_perLaneBit_frame hl hk

end Sys2Proof.Proofs
end

section
/-! SUPPORT. Compare, select, move and address instructions: the values that the model computes are those of R76 to R81. -/

namespace Sys2Proof.Proofs

open Sys2Proof Machine Laws Forms

/-! ### Sources of an instruction with DK = 1 (R21) -/

/-- A scalar or the immediate is the same in every lane. -/
theorem src_uniform {x : Src} (h : uniform x = true) (g : Group) (k l w : Nat) (imm : Word) :
    g.src k w imm x = g.src l w imm x := by
  cases x with
  | s _ | imm => rfl
  | v _ | bl _ => cases h

/-- Where the destination is a scalar, every source of the check is uniform. -/
theorem uniform_of_scalar {d : Dst} {n : BitVec 6} {xs : List Src} (h : (!dk d || xs.all uniform) = true) (hd : d = .s n)
    {x : Src} (hx : x ∈ xs) : uniform x = true := by
  subst hd
  exact List.all_eq_true.mp h x hx

/-- A well-formed arithmetic instruction with a scalar destination has uniform sources. -/
theorem aluOk_uniform {F : Type} {m : AluForm} {o : Alu F} {n : BitVec 6} (h : aluOk m o = true) (hd : o.d = .s n) :
    (∀ x ∈ m.a.sources o.a, uniform x = true) ∧ (∀ x ∈ m.b.sources o.b, uniform x = true) := by
  simp only [aluOk, Bool.and_eq_true] at h
  obtain ⟨-, h⟩ := h
  exact ⟨fun x hx => uniform_of_scalar h hd (by simp [hx]), fun x hx => uniform_of_scalar h hd (by simp [hx])⟩

theorem wellFormed_of_issuable {i : Instr} {s : State} (h : issuable i s = true) : wellFormed i = true := by
  simp only [issuable, Bool.and_eq_true] at h
  obtain ⟨⟨⟨-, hw⟩, -⟩, -⟩ := h
  exact hw

/-! ### Values (R57) -/

theorem valueOf_inj {ty : Ty} {a b : BitVec (valBits ty)} : valueOf ty a = valueOf ty b ↔ a = b := by
  unfold valueOf
  split
  · exact BitVec.toInt_inj
  · rw [Nat.cast_inj, BitVec.toNat_inj]

/-- The operand of w bits, read and formed again. -/
theorem ofInt_valueOf (ty : Ty) (a : BitVec (valBits ty)) : BitVec.ofInt (valBits ty) (valueOf ty a) = a := by
  unfold valueOf
  split
  · exact BitVec.ofInt_toInt
  · rw [BitVec.ofInt_natCast, BitVec.ofNat_toNat, BitVec.setWidth_eq]

/-- Two operands have one value where they are one (R76). -/
theorem beq_valueOf {ty : Ty} (a b : BitVec (valBits ty)) : (valueOf ty a == valueOf ty b) = decide (a = b) := by
  rw [beq_eq_decide, decide_eq_decide.mpr valueOf_inj]

/-- `mov` extends the operand as R57 says. -/
theorem ofInt_intOf (ty : Ty) (x : BitVec 128) : ofInt ty (intOf ty x) = widen ty (x.setWidth (valBits ty)) := by
  show (if isSigned ty then _ else _) = _
  rw [show intOf ty x = valueOf ty (x.setWidth (valBits ty)) from rfl, ofInt_valueOf]
  rfl

theorem ofInt_mul_two_pow (x : Int) (k : Nat) :
    BitVec.ofInt 64 (x * 2 ^ k) = BitVec.ofInt 64 x * BitVec.twoPow 64 k := by
  rw [BitVec.ofInt_mul]
  congr 1
  apply BitVec.eq_of_toNat_eq
  rw [show (2 : Int) ^ k = ((2 ^ k : Nat) : Int) by push_cast; rfl, BitVec.ofInt_natCast, BitVec.toNat_ofNat,
    BitVec.toNat_twoPow]

/-! ### The instructions -/

variable {s : State}

/-- `icmp` (R76). -/
theorem icmp_gives {o : BitOp Cond} (h : issuable (.icmp o) s = true) : givesBit (.icmp o) o.g o.reg o.bit
    (fun l => condInt o.f (intOf o.ty (s.me.arg l o.ty o.x o.a)) (intOf o.ty (s.me.arg l o.ty o.x o.b))) s :=
  aluBit_gives (f := fun g l => condInt o.f (intOf o.ty (g.arg l o.ty o.x o.a)) (intOf o.ty (g.arg l o.ty o.x o.b))) rfl h

/-- `sel` (R77): with a scalar destination its three sources are uniform. -/
theorem sel_gives {o : Alu Unit} (h : issuable (.sel o) s = true) : givesLanes (.sel o) o.g o.d (regBits o.ty)
    (fun l => if (s.me.control l o.x).getLsbD (selBit o.x) then s.me.src l (regBits o.ty) (selImm o.x) o.a
      else s.me.src l (regBits o.ty) (selImm o.x) o.b) s := by
  refine alu_gives (f := fun g l => if (g.control l o.x).getLsbD (selBit o.x) then g.src l (regBits o.ty) (selImm o.x) o.a
    else g.src l (regBits o.ty) (selImm o.x) o.b) rfl h (isWidth_regBits _) fun n hd k l => ?_
  have hw : sel o = true := wellFormed_of_issuable h
  cases hx : o.x with
  | s c v =>
    rw [Forms.sel, hx] at hw
    have hu := fun x => uniform_of_scalar (x := x) (Bool.and_elim_right hw) hd
    have hc : s.me.control k (.s c v) = s.me.control l (.s c v) := by
      show (s.me.src k 32 _ c).setWidth 32 = (s.me.src l 32 _ c).setWidth 32
      rw [src_uniform (hu c (by simp)) s.me k l]
    rw [hc, src_uniform (hu o.a (by simp)) s.me k l, src_uniform (hu o.b (by simp)) s.me k l]
  | a | i _ | w _ =>
    rw [Forms.sel, hx] at hw
    cases hw

/-- `mov` (R78). -/
theorem mov_gives {o : Alu Unit} (h : issuable (.mov o) s = true) : givesLanes (.mov o) o.g o.d (regBits o.ty)
    (fun l => movValue o.ty (s.me.arg l o.ty o.x o.a)) s := by
  refine alu_gives (f := fun g l => movValue o.ty (g.arg l o.ty o.x o.a)) rfl h (isWidth_regBits _) fun n hd k l => ?_
  have hu := (aluOk_uniform (Bool.and_elim_right (wellFormed_of_issuable h)) hd).1 o.a (List.mem_singleton_self _)
  exact congrArg (movValue o.ty) (src_uniform hu _ k l _ _)

/-- `movi` (R79): the same value in every lane. -/
theorem movi_gives {o : Alu Unit} (h : issuable (.movi o) s = true) :
    givesLanes (.movi o) o.g o.d (moviBits o.ty o.x) (fun _ => moviValue o.x) s := by
  refine alu_gives (f := fun _ _ => moviValue o.x) rfl h ?_ fun _ _ _ _ => rfl
  cases o.x with
  | w _ => exact isWidth_64
  | a | i _ | s _ _ => exact isWidth_regBits _

/-- `lea` (R81). -/
theorem lea_gives {o : Alu (BitVec 4)} (h : issuable (.lea o) s = true) : givesLanes (.lea o) o.g o.d 64
    (fun l => (leaValue o.ty (s.me.src64 l o.a) (s.me.src l (regBits o.ty) 0 o.b) o.f.toNat (imm32 o.x)).setWidth 128) s := by
  refine alu_gives (f := fun g l => (leaValue o.ty (g.src64 l o.a) (g.src l (regBits o.ty) 0 o.b) o.f.toNat
    (imm32 o.x)).setWidth 128) rfl h isWidth_64 fun n hd k l => ?_
  have hu := fun x => uniform_of_scalar (x := x) (Bool.and_elim_right (wellFormed_of_issuable h)) hd
  rw [Group.src64, Group.src64, src_uniform (hu o.a (by simp)) s.me k l, src_uniform (hu o.b (by simp)) s.me k l]

/-- Settles O3: each instruction completes with the value that the model computes, which is that of its rule. -/
theorem compareSelectMove : Obligations.CompareSelectMove := by
  unfold Obligations.CompareSelectMove
  refine fun s => ⟨fun o h => ?icmp, fun o h => ?sel, fun o h => ?mov, fun o v hx h => ?movi, fun o v hx h => ?moviWide,
    fun o h => ?lea⟩
  case icmp =>
    convert icmp_gives h using 2 with l
    generalize o.f = c
    cases c with
    | eq => exact (beq_valueOf _ _).symm
    | ne => exact (decide_not.trans (congrArg not (beq_valueOf _ _).symm))
    | lt | le | gt | ge | ord | uno => rfl
  case sel =>
    convert sel_gives h using 2
    split <;> rfl
  case mov =>
    convert mov_gives h using 2 with l
    simp only [movValue, beq_iff_eq, ofInt_intOf, opBits]
  case movi =>
    have := movi_gives h
    rw [hx] at this
    exact this
  case moviWide =>
    have := movi_gives h
    rw [hx] at this
    exact this
  case lea =>
    convert lea_gives h using 3
    rw [leaValue, ofInt_mul_two_pow]
    rfl

end Sys2Proof.Proofs
end

section
/-! SUPPORT. Floating-point instructions of which no lane traps: results and sticky flags are written, and the slot goes on. -/

namespace Sys2Proof.Proofs

open Sys2Proof Machine Laws Forms

/-! ### The end of an instruction without parked lanes -/

theorem myPushes_zero (s : State) : ∃ d, s.myPushes 0 = (s, d, .ok []) := by
  unfold State.myPushes
  dsimp only
  split
  · split
    · exact ⟨_, rfl⟩
    · exact ⟨_, rfl⟩
  · exact ⟨_, rfl⟩

/-- A slot that stays whole, with no lane parked, pushes nothing: the effect comes, and the slot goes on. -/
theorem finish_whole (s : State) (p : Slot) (acc : Access) (eff : State → State) :
    s.finish { parts := [p], acc := acc } eff = (eff s).retire.onMe fun z => z.setSlot s.cur.slot p := by
  obtain ⟨d, h⟩ := myPushes_zero s
  have hp : ∀ y, pushesFor y 0 = 0 := fun _ => rfl
  simp [State.finish, State.place, hp, h]

theorem onMe_congr {s : State} {f g : Group → Group} (h : f s.me = g s.me) : s.onMe f = s.onMe g := by
  show s.setGroup _ _ (f s.me) = s.setGroup _ _ (g s.me)
  rw [h]

/-- Where no lane parks, an instruction has its effect and goes on to the next one. -/
theorem step1_of_no_trap {s : State} {i : Instr} {acc : Access} {f : Group → Group} (hm : s.mySlot.mask ≠ 0)
    (h0 : (f s.me).slot0 = s.me.slot0) (h1 : (f s.me).slot1 = s.me.slot1) :
    s.step1 i [] acc false (fun s => s.onMe f) = (s.onMe f).advance i := by
  have hrest : s.mySlot.mask &&& ~~~trapMask [] = s.mySlot.mask := by
    show s.mySlot.mask &&& ~~~0#32 = _
    rw [BitVec.not_zero, BitVec.and_allOnes]
  have hmy : (s.onMe f).mySlot = s.mySlot := by
    rw [State.mySlot, me_onMe]
    show (f s.me).slot s.cur.slot = s.me.slot s.cur.slot
    simp only [Group.slot, h0, h1]
  obtain ⟨hme, he⟩ := retire_spec (s.onMe f)
  have hcur := elsewhereSame_cur he
  have hx : (s.onMe f).retire.me.slot (s.onMe f).retire.cur.slot = s.mySlot := by rw [hme, hcur]; exact hmy
  have hpc : (s.onMe f).nextPc i = s.nextPc i := by rw [State.nextPc, hmy, State.nextPc]
  simp only [State.step1, hrest, beq_iff_eq, hm, if_false, finish_whole]
  rw [State.advance, State.onMySlot]
  refine onMe_congr ?_
  rw [Group.onSlot, hx, hcur, hpc]
  rfl

/-! ### Sticky flags (R64) -/

/-- A part that a lane changes once, by its own value. -/
theorem foldl_lanes_once {α β : Type} {f : α → Nat → α} {r : α → β} {k : Nat} {u : β → β} {ls : List Nat} (hd : ls.Nodup)
    (hk : ∀ a, r (f a k) = u (r a)) (hne : ∀ a l, l ≠ k → r (f a l) = r a) (a : α) :
    r (ls.foldl f a) = if k ∈ ls then u (r a) else r a := by
  induction ls generalizing a with
  | nil => rfl
  | cons l ls ih =>
    obtain ⟨hl, hd⟩ := List.nodup_cons.mp hd
    rw [List.foldl_cons, ih hd]
    by_cases e : l = k
    · subst e
      rw [if_neg hl, if_pos List.mem_cons_self, hk]
    · rw [hne a l e]
      simp only [List.mem_cons, Ne.symm e, false_or]

theorem nodup_lanes (m : Mask) : (lanes m).Nodup := List.nodup_range.filter _

theorem flags_setFlags (g : Group) (l k : Nat) (x : BitVec 5) :
    (g.setFlags l x).flags k = if k = l then x else g.flags k := get_set _ _ _ _ _

/-- One lane's result and flags. -/
def fpLane (write : Group → Nat → BitVec 128 → Group) (f : Nat → BitVec 128 × Exc) (g : Group) (l : Nat) : Group :=
  (write g l (f l).1).setFlags l (g.flags l ||| (f l).2)

section FpWrite

variable {g : Group} {fpctl : Exc} {act : Mask} {f : Nat → BitVec 128 × Exc} {write : Group → Nat → BitVec 128 → Group}

/-- The results of the lanes, as `fpOp` collects them. -/
def fpResults (act : Mask) (f : Nat → BitVec 128 × Exc) : List LaneResult :=
  (lanes act).map fun l => LaneResult.mk l (f l).1 (f l).2

theorem fpTraps_quiet (hq : ∀ l, l < 32 → act.getLsbD l = true → (f l).2 &&& fpctl = 0) :
    fpTraps fpctl (fpResults act f) = [] := by
  have h : (fpResults act f).filter (fun r => r.exc &&& fpctl != 0) = [] := by
    rw [List.filter_eq_nil_iff]
    simp only [fpResults, List.mem_map, mem_lanes]
    rintro r ⟨l, ⟨hl, ha⟩, rfl⟩
    simp [hq l hl ha]
  simp only [fpTraps, h, List.map_nil]

theorem fpWrite_quiet (hq : ∀ l, l < 32 → act.getLsbD l = true → (f l).2 &&& fpctl = 0) :
    g.fpWrite fpctl (fpResults act f) write = (lanes act).foldl (fpLane write f) g := by
  have h : (fpResults act f).filter (fun r => r.exc &&& fpctl == 0) = fpResults act f := by
    rw [List.filter_eq_self]
    simp only [fpResults, List.mem_map, mem_lanes]
    rintro r ⟨l, ⟨hl, ha⟩, rfl⟩
    simp [hq l hl ha]
  rw [Group.fpWrite, h, fpResults, List.foldl_map]
  rfl

/-- The flags apart, the lanes write as they would without flags. -/
theorem fpLanes_regs (hw : ∀ (g : Group) l x fl, write { g with fpflags := fl } l x = { write g l x with fpflags := fl })
    (fl : Store (BitVec 5)) : { (lanes act).foldl (fpLane write f) g with fpflags := fl }
      = (lanes act).foldl (fun g l => write g l (f l).1) { g with fpflags := fl } :=
  (List.foldl_hom (fun g : Group => { g with fpflags := fl }) fun a l => hw a l (f l).1 fl).symm

/-- Each lane's exceptions are added to its own flags. -/
theorem flags_fpLanes (hw : ∀ (g : Group) l x k, (write g l x).flags k = g.flags k) {k : Nat} (hk : k < 32) :
    ((lanes act).foldl (fpLane write f) g).flags k = if act.getLsbD k then g.flags k ||| (f k).2 else g.flags k := by
  have h := foldl_lanes_once (f := fpLane write f) (r := fun g => g.flags k) (k := k) (u := fun x => x ||| (f k).2)
    (nodup_lanes act) (fun a => (flags_setFlags _ _ _ _).trans (if_pos rfl))
    (fun a l e => (flags_setFlags _ _ _ _).trans ((if_neg (Ne.symm e)).trans (hw _ _ _ _))) g
  rw [h]
  simp only [mem_lanes, hk, true_and]

end FpWrite

/-- An instruction of which no lane traps writes its lanes' results and flags and goes on. -/
theorem fpOp_writes {i : Instr} {gd : Guard} {write : Group → Nat → BitVec 128 → Group}
    {f : Group → Nat → BitVec 128 × Exc} {s : State} (h : issuable i s = true) (hq : quietLanes gd (f s.me) s)
    (hw : ∀ g l x, (write g l x).slot0 = g.slot0 ∧ (write g l x).slot1 = g.slot1) :
    ∃ t, fpOp i gd write f s = .next t ∧ s.wentOn t (s.nextPc i)
      ∧ ((lanes (s.me.active s.mySlot.mask gd)).foldl (fpLane write (f s.me)) s.me).sameRegs t.me
      ∧ s.elsewhereSame t := by
  have hm : s.mySlot.mask ≠ 0 := by
    simp only [issuable, Bool.and_eq_true, bne_iff_ne] at h
    exact h.1.1.1.2
  have h0 := foldl_lanes_frame (r := Group.slot0) (f := fpLane write (f s.me))
    (ls := lanes (s.me.active s.mySlot.mask gd)) (fun g l _ => (hw g l _).1) s.me
  have h1 := foldl_lanes_frame (r := Group.slot1) (f := fpLane write (f s.me))
    (ls := lanes (s.me.active s.mySlot.mask gd)) (fun g l _ => (hw g l _).2) s.me
  refine issue_writes (fun g => (lanes (s.me.active s.mySlot.mask gd)).foldl (fpLane write (f s.me)) g) h (fun _ => ?_) h0 h1
    fun ha => by rw [ha, lanes_zero]; rfl
  have hb : ∀ g : Group, g.fpWrite s.me.fpctl (fpResults (s.me.active s.mySlot.mask gd) (f s.me)) write
      = (lanes (s.me.active s.mySlot.mask gd)).foldl (fpLane write (f s.me)) g := fun g => fpWrite_quiet hq
  show s.step1 i (fpTraps s.me.fpctl (fpResults _ (f s.me))) .none false
    (fun s' => s'.onMe fun x => x.fpWrite s.me.fpctl (fpResults _ (f s.me)) write) = _
  simp only [fpTraps_quiet hq, hb]
  exact step1_of_no_trap hm h0 h1

/-! ### `fcmp` (R85) -/

/-- With a NaN operand the ordered conditions fail, and the orderings raise invalid. -/
theorem cmp_of_nan {m : Fmt} {c : Cond} {x y : Nat} (h : (m.read x).isNan = true ∨ (m.read y).isNan = true) :
    (m.cmp c x y).1 = (c == .ne || c == .uno) ∧ (m.cmp c x y).2 =
      if ([Cond.lt, .le, .gt, .ge].contains c) || (m.read x).isSnan || (m.read y).isSnan then invalid else noExc := by
  have hv : cmpVal (m.read x) (m.read y) = none := by
    generalize m.read x = a at h
    generalize m.read y = b at h
    cases a <;> cases b <;> simp_all [cmpVal, FVal.isNan]
  have hn : ((m.read x).isNan || (m.read y).isNan) = true := by simpa using h
  cases c <;> simp [Fmt.cmp, hv, hn, snanExc]

/-- What `fcmp` finds in a lane. -/
def fcmpAt (o : BitOp Cond) (g : Group) (l : Nat) : Bool × Exc :=
  (fmtOf o.ty).cmp o.f (elemOf o.ty 0 (g.arg l o.ty o.x o.a)) (elemOf o.ty 0 (g.arg l o.ty o.x o.b))

/-- The bit that a lane of `fcmp` writes, as `fpOp` passes it on. -/
def writeBit (o : BitOp Cond) (g : Group) (l : Nat) (x : BitVec 128) : Group :=
  g.putBit o.reg.toNat o.bit.toNat l (x.getLsbD 0)

def fcmpLane (o : BitOp Cond) (g : Group) (l : Nat) : BitVec 128 × Exc :=
  (if (fcmpAt o g l).1 then 1 else 0, (fcmpAt o g l).2)

theorem exec_fcmp (o : BitOp Cond) (s : State) : exec (.fcmp o) s = fpOp (.fcmp o) o.g (writeBit o) (fcmpLane o) s := rfl

theorem writeBit_fcmpLane (o : BitOp Cond) (g h : Group) (l : Nat) :
    writeBit o h l (fcmpLane o g l).1 = h.putBit o.reg.toNat o.bit.toNat l (fcmpAt o g l).1 := by
  have h1 : ∀ b : Bool, (if b then 1 else 0 : BitVec 128).getLsbD 0 = b := by decide
  exact congrArg (h.putBit o.reg.toNat o.bit.toNat l) (h1 _)

/-- The flags apart, the lanes of `fcmp` write one bit each. -/
theorem fcmp_regs (o : BitOp Cond) (g : Group) (act : Mask) :
    { (lanes act).foldl (fpLane (writeBit o) (fcmpLane o g)) g with fpflags := g.fpflags }
      = g.perLaneBit o.reg.toNat o.bit.toNat act fun l => (fcmpAt o g l).1 := by
  rw [fpLanes_regs (fun _ _ _ _ => rfl), perLaneBit_eq_foldl]
  simp only [writeBit_fcmpLane]

theorem flags_of_sameRegs {g h : Group} {l : Nat} (e : g.sameRegs h) : h.flags l = g.flags l := by rw [e]; rfl

theorem sameRegs_fpflags {g h : Group} (fl : Store (BitVec 5)) (e : g.sameRegs h) :
    Group.sameRegs { g with fpflags := fl } { h with fpflags := fl } := by
  rw [e]; rfl

/-- Settles O6: the one bit and the flags by the lanes' writes, NaN operands by the order of values. -/
theorem floatCompare : Obligations.FloatCompare := by
  unfold Obligations.FloatCompare
  refine ⟨fun s o h hq => ?_, fun ty c x y _ hn => cmp_of_nan hn⟩
  obtain ⟨t, ht, hwent, hregs, helse⟩ := fpOp_writes (write := writeBit o) (f := fcmpLane o) h hq fun _ _ _ => ⟨rfl, rfl⟩
  have hbits := sameRegs_fpflags s.me.fpflags hregs
  rw [fcmp_regs] at hbits
  refine ⟨t, ht, hwent, fun l hl ha => ?_, fun l k hl hk => ?_, fun l hl => ?_, onlyDst_of_sameRegs hbits onlyDst_perLaneBit,
    helse⟩
  · have hv := vreg_of_sameRegs (n := o.reg.toNat) (l := l) hbits
    exact (congrArg (BitVec.getLsbD · o.bit.toNat) hv).trans (bit_perLaneBit o.bit.isLt hl ha)
  · have hv := vreg_of_sameRegs (n := o.reg.toNat) (l := l) hbits
    exact (congrArg (BitVec.getLsbD · k) hv).trans (bit_perLaneBit_frame hl hk)
  · exact (flags_of_sameRegs hregs).trans (flags_fpLanes (write := writeBit o) (fun _ _ _ _ => rfl) hl)

end Sys2Proof.Proofs
end

section
/-! SUPPORT. A whole slot that parks (R30, R110 to R113): what the device writes by physical address leaves the cores alone where
it does not cross the fabric, and a landing entry that was FREE names the slot's lanes. -/

namespace Sys2Proof.Proofs

open Sys2Proof Machine Laws Forms Statements

/-! ### Writes by physical address that stay off the fabric -/

/-- Between two states only memory, what the host's caches may hold and the contexts differ. -/
def OnlyMemory (s t : State) : Prop := ∃ m hl cs, t = { s with mem := m, hostLines := hl, ctxs := cs }

theorem onlyMemory_refl (s : State) : OnlyMemory s s := ⟨_, _, _, rfl⟩

theorem onlyMemory_trans {s t u : State} (h : OnlyMemory s t) (k : OnlyMemory t u) : OnlyMemory s u := by
  obtain ⟨m, hl, cs, rfl⟩ := h
  obtain ⟨m', hl', cs', rfl⟩ := k
  exact ⟨m', hl', cs', rfl⟩

theorem onlyMemory_onCtx (s : State) (a : Nat) (f : Ctx → Ctx) : OnlyMemory s (s.onCtx a f) := ⟨_, _, _, rfl⟩

theorem onlyMemory_core {s t : State} (h : OnlyMemory s t) (c : Nat) : t.core c = s.core c := by
  obtain ⟨m, hl, cs, rfl⟩ := h; rfl

theorem onlyMemory_cur {s t : State} (h : OnlyMemory s t) : t.cur = s.cur := by
  obtain ⟨m, hl, cs, rfl⟩ := h; rfl

/-- A span of physical addresses lies in memory of this device or of the host. -/
def Near (pa n : Nat) : Prop := pa + n ≤ peerBase ∨ hostBase ≤ pa

theorem isPeer_of_near {pa n i : Nat} (h : Near pa n) (hi : i < n) : isPeer (pa + i) = false := by
  simp only [isPeer, Bool.and_eq_false_iff, decide_eq_false_iff_not, Near] at *
  omega

/-- A device write off the fabric changes memory, and notes a host line that it writes; no context changes. -/
theorem deviceWrite_near {bs : List Byte} {s : State} {pa : Nat} (h : Near pa bs.length) :
    ∃ m hl, s.deviceWrite pa bs = { s with mem := m, hostLines := hl } := by
  induction bs generalizing s pa with
  | nil => exact ⟨_, _, rfl⟩
  | cons b bs ih =>
    have hp : isPeer pa = false := isPeer_of_near (i := 0) h (Nat.succ_pos _)
    have hb : ∃ m hl, s.performByte pa b [] = { s with mem := m, hostLines := hl } := by
      simp only [State.performByte, hp, Bool.false_and, Bool.false_eq_true, if_false]
      split <;> exact ⟨_, _, rfl⟩
    obtain ⟨m, hl, e⟩ := hb
    obtain ⟨m', hl', e'⟩ := ih (s := s.performByte pa b []) (pa := pa + 1) (by
      rw [List.length_cons] at h
      unfold Near at *
      omega)
    refine ⟨m', hl', ?_⟩
    rw [State.deviceWrite, e', e]

theorem onlyMemory_deviceWrite {s : State} {pa : Nat} {bs : List Byte} (h : Near pa bs.length) :
    OnlyMemory s (s.deviceWrite pa bs) := by
  obtain ⟨m, hl, e⟩ := deviceWrite_near (s := s) h
  exact ⟨m, hl, _, e⟩

/-- The trace ring of a context lies off the fabric. -/
def TraceNear (s : State) (a : Nat) : Prop :=
  let d := (s.ctx a).dbg
  Near d.trbase.toNat (64 * 2 ^ (d.trcfg.extractLsb' 0 5).toNat)

theorem onlyMemory_traceUnits {s : State} {a : Nat} (bs : List Byte) (h : TraceNear s a) :
    OnlyMemory s (s.traceUnits a bs) := by
  unfold State.traceUnits
  dsimp only
  refine onlyMemory_trans ?_ (onlyMemory_onCtx _ _ _)
  generalize List.range (bs.length / 64) = ls
  suffices ∀ t, OnlyMemory s t → OnlyMemory s (ls.foldl (fun t i => t.deviceWrite ((s.ctx a).dbg.trbase.toNat
      + 64 * (((s.ctx a).dbg.trprod.toNat + i) % 2 ^ ((s.ctx a).dbg.trcfg.extractLsb' 0 5).toNat))
      ((bs.drop (64 * i)).take 64)) t) from this s (onlyMemory_refl s)
  induction ls with
  | nil => exact fun t ht => ht
  | cons i ls ih =>
    refine fun t ht => ih _ (onlyMemory_trans ht (onlyMemory_deviceWrite ?_))
    have hm := Nat.mod_lt ((s.ctx a).dbg.trprod.toNat + i) (Nat.two_pow_pos ((s.ctx a).dbg.trcfg.extractLsb' 0 5).toNat)
    have hl : ((bs.drop (64 * i)).take 64).length ≤ 64 := List.length_take_le _ _
    unfold TraceNear Near at h
    unfold Near
    dsimp only at h
    omega

theorem onlyMemory_traceWrite {s : State} {a : Nat} (r : TraceRec) (bs : List Byte) (h : TraceNear s a) :
    OnlyMemory s (s.traceWrite a r bs) := by
  unfold State.traceWrite
  dsimp only
  split
  · exact onlyMemory_refl s
  · generalize (if (s.ctx a).dbg.dropped = 0 then r.bytes ++ bs else _) = out
    split
    · exact onlyMemory_onCtx _ _ _
    · exact onlyMemory_trans (onlyMemory_traceUnits _ h) (onlyMemory_onCtx _ _ _)

/-- Words written one after another take eight bytes each. -/
theorem length_flatMap_words (ls : List Nat) (f : Nat → Nat) : (ls.flatMap fun l => leBytes 8 (f l)).length = 8 * ls.length := by
  induction ls with
  | nil => rfl
  | cons l ls ih =>
    rw [List.flatMap_cons, List.length_append, ih, length_leBytes, List.length_cons]
    omega

theorem length_landing_bytes (e : Landing) : e.bytes.length = 320 := by
  have hd : ((List.range 32).flatMap fun l => leBytes 8 (e.detail.get 0 l).toNat).length = 256 := by
    rw [length_flatMap_words _ fun l => (e.detail.get 0 l).toNat, List.length_range]
  unfold Landing.bytes
  rw [List.length_append, hd]
  simp only [List.length_append, length_leBytes, List.length_replicate, List.length_cons, List.length_nil]

/-! ### The landing entry (R110 to R113, Table 6-1) -/

/-- What the device writes when lanes of a group of core `c` park lies off the fabric. -/
def LandsNear (s : State) (c a : Nat) : Prop :=
  Near (s.core c).landbase.toNat (320 * 2048) ∧ ((s.ctx a).dbg.trcfg.getLsbD 10 = true → TraceNear s a)

theorem landsNear_cur {s : State} (h : landsNear s) : LandsNear s s.cur.core s.me.asid := by
  obtain ⟨hb, ht⟩ := h
  refine ⟨hb, fun h10 => ?_⟩
  rcases ht with ht | ht
  · rw [h10] at ht; cases ht
  · exact ht

/-- The landing entry for a parked entry `y` at a place of a group. -/
def landed (s : State) (c g : Nat) (p : Place) (y : StackEntry) (ts : List LaneTrap) (acc : Access) : Landing :=
  let x := s.group c g
  let t := s.team c x.team
  { pc := y.pc, rcv := y.rcv, mask := y.mask, cause := lowestCause ts, state := if t.halted then .held else .pending,
    access := acc.code, asid := x.asid, gslot := g, group := x.number, team := x.team, place := p,
    seq := (s.core c).landseq, tid := t.tid, launch := t.launch,
    detail := ts.foldl (fun d z => d.set z.lane z.detail) [], frame := none, cow := s.cowRefused c g acc ts, ahead := 0,
    pend := none }

/-- A write of an entry reaches the core's table, and memory. -/
theorem setEntry_near {s : State} {c i : Nat} (e : Landing) (hi : i < 2048)
    (h : Near (s.core c).landbase.toNat (320 * 2048)) :
    OnlyMemory (s.onCore c fun k => { k with landing := k.landing.set i e }) (s.setEntry c i e)
      ∧ (s.setEntry c i e).ctxs = s.ctxs := by
  have hb : ((s.onCore c fun k => { k with landing := k.landing.set i e }).core c).landbase = (s.core c).landbase := by
    rw [core_onCore_same]
  obtain ⟨m, hl, w⟩ := deviceWrite_near (s := s.onCore c fun k => { k with landing := k.landing.set i e })
    (pa := ((s.onCore c fun k => { k with landing := k.landing.set i e }).core c).landbase.toNat + 320 * i) (bs := e.bytes) (by
      rw [length_landing_bytes, hb]
      unfold Near at *
      omega)
  constructor
  · exact ⟨m, hl, _, w⟩
  · rw [State.setEntry, w]; rfl

/-- A landing entry is written and counted. -/
def writeLanding (s : State) (c i a : Nat) (e : Landing) : State :=
  ((s.onCore c fun k => { k with landseq := k.landseq + 1 }).setEntry c i e).count c a 8 1

theorem writeLanding_near {s : State} {c i : Nat} (a : Nat) (e : Landing) (hi : i < 2048)
    (h : Near (s.core c).landbase.toNat (320 * 2048)) :
    (writeLanding s c i a e).cur = s.cur ∧ ((writeLanding s c i a e).core c).groups = (s.core c).groups
      ∧ (writeLanding s c i a e).entry c i = e ∧ (writeLanding s c i a e).ctxs = s.ctxs := by
  have hs1 : (s.onCore c fun k => { k with landseq := k.landseq + 1 }).core c
      = { s.core c with landseq := (s.core c).landseq + 1 } := core_onCore_same _ _ _
  obtain ⟨hm, hc⟩ := setEntry_near e hi (by rwa [hs1])
  have hk : (writeLanding s c i a e).core c = { s.core c with
      landseq := (s.core c).landseq + 1, landing := (s.core c).landing.set i e,
      counters := ((writeLanding s c i a e).core c).counters } := by
    simp only [writeLanding, State.count, core_onCore_same, onlyMemory_core hm]
  refine ⟨?_, ?_, ?_, ?_⟩
  · rw [writeLanding, State.count, onCore_cur, onlyMemory_cur hm, onCore_cur, onCore_cur]
  · rw [hk]
  · rw [State.entry, hk]
    exact get_set_same _ _ _ _
  · rw [writeLanding, State.count, onCore_ctxs, hc, onCore_ctxs]

/-- An entry that no debugger stops at is written and counted, and its PARK record traced where that is asked for. -/
theorem landAt_eq {s : State} {c g i : Nat} {p : Place} {y : StackEntry} {ts : List LaneTrap} {acc : Access}
    (hi : s.pick 0 ((List.range 2048).filter fun i => (s.entry c i).state == .free) = some i)
    (hd : debugCause (lowestCause ts) = false) :
    s.landAt c g p y ts acc =
      let t := writeLanding s c i (s.group c g).asid (landed s c g p y ts acc)
      if (t.ctx (s.group c g).asid).dbg.trcfg.getLsbD 10 then
        t.traceWrite (s.group c g).asid (t.traceRec c g 5 y.pc
          ((lowestCause ts).setWidth 64 ||| ((s.core c).landseq.setWidth 64 <<< 32)) y.mask) []
      else t := by
  unfold State.landAt
  dsimp only
  rw [hi]
  dsimp only
  rw [hd, Bool.false_and, if_neg Bool.false_ne_true]
  unfold writeLanding landed
  with_reducible rfl

/-- Where an entry is FREE, one that was FREE becomes the landing entry; the groups and the issuer stay. -/
theorem landAt_near {s : State} {c g : Nat} {p : Place} {y : StackEntry} {ts : List LaneTrap} {acc : Access}
    (hf : ∃ e, e < 2048 ∧ (s.entry c e).state = .free) (hd : debugCause (lowestCause ts) = false)
    (hn : LandsNear s c (s.group c g).asid) :
    ∃ i, i < 2048 ∧ (s.entry c i).state = .free ∧ (s.landAt c g p y ts acc).cur = s.cur
      ∧ ((s.landAt c g p y ts acc).core c).groups = (s.core c).groups
      ∧ (s.landAt c g p y ts acc).entry c i = landed s c g p y ts acc := by
  obtain ⟨e, he, hfree⟩ := hf
  have hm : e ∈ (List.range 2048).filter fun i => (s.entry c i).state == .free :=
    List.mem_filter.mpr ⟨List.mem_range.mpr he, by simp [hfree]⟩
  obtain ⟨i, hi⟩ := Option.isSome_iff_exists.mp (pick_isSome s 0 (List.ne_nil_of_mem hm))
  obtain ⟨hr, hs⟩ := List.mem_filter.mp (pick_mem hi)
  have hi2 : i < 2048 := List.mem_range.mp hr
  obtain ⟨hb, ht⟩ := hn
  obtain ⟨h1, h2, h3, h4⟩ := writeLanding_near (s.group c g).asid (landed s c g p y ts acc) hi2 hb
  have hland : OnlyMemory (writeLanding s c i (s.group c g).asid (landed s c g p y ts acc)) (s.landAt c g p y ts acc) := by
    rw [landAt_eq hi hd]
    dsimp only
    have hctx : ∀ t : State, t.ctxs = s.ctxs → t.ctx (s.group c g).asid = s.ctx (s.group c g).asid :=
      fun t e => by rw [State.ctx, State.ctx, e]
    rw [hctx _ h4]
    split
    · rename_i h10
      refine onlyMemory_traceWrite _ _ ?_
      rw [TraceNear, hctx _ h4]
      exact ht h10
    · exact onlyMemory_refl _
  refine ⟨i, hi2, by simpa using hs, (onlyMemory_cur hland).trans h1, ?_, ?_⟩
  · rw [onlyMemory_core hland, h2]
  · rw [State.entry, onlyMemory_core hland]
    exact h3

/-! ### The whole slot -/

theorem lowestCause_everyLane {m : Mask} (hm : m ≠ 0) (cause : BitVec 8) (d : Word) :
    lowestCause (everyLane m cause d) = cause := by
  have fold : ∀ ls : List Nat, (ls.map fun l => (⟨l, cause, d⟩ : LaneTrap)).foldl
      (fun c x => if x.cause.toNat < c.toNat then x.cause else c) cause = cause := by
    intro ls
    induction ls with
    | nil => rfl
    | cons l ls ih => rwa [List.map_cons, List.foldl_cons, if_neg (lt_irrefl _)]
  unfold everyLane
  cases h : lanes m with
  | nil =>
    refine absurd (BitVec.eq_of_getLsbD_eq fun l hl => ?_) hm
    by_contra hb
    have : l ∈ lanes m := mem_lanes.mpr ⟨hl, by simpa using hb⟩
    rw [h] at this
    exact List.not_mem_nil this
  | cons l ls => exact fold ls

theorem detail_everyLane {m : Mask} {l : Nat} (hl : l < 32) (ha : m.getLsbD l = true) (cause : BitVec 8) (d : Word)
    (v : Store Word) : ((everyLane m cause d).foldl (fun d z => d.set z.lane z.detail) v).get 0 l = d := by
  rw [everyLane, List.foldl_map]
  exact foldl_lanes_eq (r := fun v : Store Word => v.get 0 l) (fun v => get_set_same _ _ _ _)
    (fun v k _ hk h => (get_set_ne _ _ _ hk.symm).trans h) (mem_lanes.mpr ⟨hl, ha⟩) v

/-- The slot in hand stands PARKED at its instruction, and asks for no pool. -/
def parking (s : State) : State :=
  (s.withdraw s.cur.core s.cur.gslot s.cur.slot).onGroup s.cur.core s.cur.gslot fun x => x.onSlot s.cur.slot fun y => y.park y.mask

theorem core_parking (s : State) : (parking s).core s.cur.core = { s.core s.cur.core with
    groups := ((parking s).core s.cur.core).groups, grows := ((parking s).core s.cur.core).grows } := by
  have h : (parking s).core s.cur.core = _ := core_onGroup _ _ _ _ _
  rw [h, State.withdraw, core_onCore_same]

theorem group_parking (s : State) :
    (parking s).group s.cur.core s.cur.gslot = s.me.onSlot s.cur.slot fun y => y.park y.mask := by
  have h : (parking s).group s.cur.core s.cur.gslot = _ := group_onGroup_same _ _ _ _
  rw [h, State.withdraw, State.group, core_onCore_same]
  rfl

/-- A user group's whole slot parks, with one cause and one detail word for every lane. -/
theorem trapped_parkWhole {i : Instr} {s : State} {cause : BitVec 8} {d : Word} {acc : Access} (hm : s.mySlot.mask ≠ 0)
    (hc : canTrap s.mySlot.mask s) (hd : debugCause cause = false) :
    trapped i s.mySlot.mask cause (fun _ => d) s
      (s.parkWhole s.cur.core s.cur.gslot s.cur.slot (everyLane s.mySlot.mask cause d) acc) := by
  obtain ⟨hu, hf, -, hn⟩ := hc
  have hg := group_parking s
  have hk := core_parking s
  have he : ∀ j, (parking s).entry s.cur.core j = s.entry s.cur.core j := fun j => by rw [State.entry, hk, State.entry]
  have hp : s.parkWhole s.cur.core s.cur.gslot s.cur.slot (everyLane s.mySlot.mask cause d) acc
      = (parking s).landAt s.cur.core s.cur.gslot (placeOf s.cur.slot) (s.mySlot.park s.mySlot.mask).entry
          (everyLane s.mySlot.mask cause d) acc := by
    rw [State.parkWhole, if_neg hu]
    show (parking s).landAt _ _ _ (((parking s).group _ _).slot _).entry _ _ = _
    rw [hg, slot_onSlot_same, State.mySlot]
  have hr : (parking s).group s.cur.core s.cur.gslot = { s.me with
      slot0 := ((parking s).group s.cur.core s.cur.gslot).slot0, slot1 := ((parking s).group s.cur.core s.cur.gslot).slot1 } := by
    rw [hg]; exact onSlot_rest _ _ _
  have hx : (parking s).ctx s.me.asid = s.ctx s.me.asid := rfl
  obtain ⟨i, hi, hfree, hcur, hgroups, hentry⟩ := landAt_near (s := parking s) (c := s.cur.core) (g := s.cur.gslot)
    (p := placeOf s.cur.slot) (y := (s.mySlot.park s.mySlot.mask).entry) (ts := everyLane s.mySlot.mask cause d) (acc := acc)
    (by simpa only [he] using hf) (by rwa [lowestCause_everyLane hm]) (by
      rw [hr, LandsNear, TraceNear, hk, hx]
      exact landsNear_cur hn)
  rw [← hp] at hcur hgroups hentry
  generalize s.parkWhole s.cur.core s.cur.gslot s.cur.slot (everyLane s.mySlot.mask cause d) acc = t at *
  have hme : t.me = s.me.onSlot s.cur.slot fun y => y.park y.mask := by
    rw [← hg, State.me, hcur, State.group, State.group]
    exact congrArg (fun x => Store.get Group.none x s.cur.gslot) hgroups
  have hmy : t.me.slot s.cur.slot = s.mySlot.park s.mySlot.mask := by rw [hme, slot_onSlot_same, State.mySlot]
  have hrest : s.mySlot.mask &&& ~~~s.mySlot.mask = 0 := BitVec.and_not_self _
  refine ⟨?_, hcur, ?_⟩
  · rw [hme]; exact onSlot_rest _ _ _
  · rw [if_pos hrest, if_pos hrest, hmy]
    refine ⟨?_, rfl, rfl, rfl, rfl, i, hi, (congrArg Landing.state (he i)).symm.trans hfree, ?_⟩
    · rw [hme, slot_onSlot_other]
    · have hteam : (parking s).team s.cur.core s.me.team = s.myTeam := by rw [State.team, hk]; rfl
      rw [hentry, landed, hr, hk, lowestCause_everyLane hm]
      dsimp only
      rw [hteam]
      exact ⟨rfl, rfl, rfl, rfl, rfl, rfl, rfl, rfl, rfl, rfl, rfl, rfl, rfl,
        fun l hl ha => detail_everyLane hl ha _ _ _⟩

end Sys2Proof.Proofs
end

section
/-! SUPPORT. What stands against an instruction before it acts (R23, R29, R30): every instruction that has an encoding issues
through the same four questions. -/

namespace Sys2Proof.Proofs

open Sys2Proof Machine Laws Forms Statements

/-! ### Every instruction that has an encoding is issued -/

/-- An instruction executes by being issued under a guard; `brx` alone also acts where its guard leaves no lane (R94). -/
def IssuesAs (i : Instr) (gd : Guard) (s : State) : Prop :=
  ∃ body always, exec i s = issue i gd s body always ∧ (always = true → ∃ o, i = .brx o)

section IssuesAs

variable {F : Type} {i : Instr} {gd : Guard} {s : State}

theorem issuesAs_of_exec {body : Mask → State} (h : exec i s = issue i gd s body) : IssuesAs i (guardOf (guardCode gd)) s :=
  ⟨body, false, by rw [guardOf_code, h], fun h => nomatch h⟩

/-! One lemma for each operation that several instructions share. -/

theorem issuesAs_of_alu {d : Dst} {w : Nat} {f : Group → Nat → BitVec 128}
    (h : exec i s = alu i gd d w f s) : IssuesAs i (guardOf (guardCode gd)) s :=
  issuesAs_of_exec h

theorem issuesAs_of_aluBit {r b : Nat} {f : Group → Nat → Bool}
    (h : exec i s = aluBit i gd r b f s) : IssuesAs i (guardOf (guardCode gd)) s :=
  issuesAs_of_exec h

theorem issuesAs_of_intOp {o : Alu F} {f : Int → Int → Int → BitVec 128}
    (h : exec i s = intOp i o f s) : IssuesAs i (guardOf (guardCode o.g)) s :=
  issuesAs_of_alu h

theorem issuesAs_of_bitsOp {o : Alu F} {f : Nat → Nat → Nat}
    (h : exec i s = bitsOp i o f s) : IssuesAs i (guardOf (guardCode o.g)) s :=
  issuesAs_of_alu h

theorem issuesAs_of_fpOp {w : Group → Nat → BitVec 128 → Group} {f : Group → Nat → BitVec 128 × Exc}
    (h : exec i s = fpOp i gd w f s) : IssuesAs i (guardOf (guardCode gd)) s :=
  issuesAs_of_exec h

theorem issuesAs_of_fpAlu {o : Alu F} {f : Nat → Nat → Nat → Nat × Exc}
    (h : exec i s = fpAlu i o f s) : IssuesAs i (guardOf (guardCode o.g)) s :=
  issuesAs_of_fpOp h

theorem issuesAs_of_taggedWord {o : Mem Unit} {k : TagStep}
    (h : exec i s = taggedWord i o k s) : IssuesAs i (guardOf (guardCode o.g)) s :=
  issuesAs_of_exec h

theorem issuesAs_of_barOp {o : Bar} {u : TagUse} {f : State → Mask → Nat → Nat → Nat → State}
    (h : exec i s = barOp i o u f s) : IssuesAs i (guardOf (guardCode o.g)) s :=
  issuesAs_of_exec h

theorem issuesAs_of_copyIssue {c : BitVec 8} {o : CpyOp}
    (h : exec i s = copyIssue i c o s) : IssuesAs i (guardOf (guardCode o.g)) s :=
  issuesAs_of_exec h

theorem issuesAs_of_accOp {o : AccOp} {col : Group → Nat → Nat} {f : Group → List Nat → Group}
    (h : exec i s = accOp i o s col f) : IssuesAs i (guardOf (guardCode o.g)) s :=
  issuesAs_of_exec h

theorem issuesAs_of_gspOp {o : GspOp} {acc : Access} {ok : Nat → Bool} {f : Group → State → List (Nat × Nat × Nat) → State}
    (h : exec i s = gspOp i o acc ok f s) : IssuesAs i (guardOf (guardCode o.g)) s :=
  issuesAs_of_exec h

theorem issuesAs_of_strOp {f : Group → List (Nat × List Byte) → Group → Group}
    (h : exec i s = strOp i gd f s) : IssuesAs i (guardOf (guardCode gd)) s :=
  issuesAs_of_exec h

theorem issuesAs_of_depOp {d : Option (BitVec 6)} {ix : BitVec 6} {f : Group → DepCounter → DepCounter}
    (h : exec i s = depOp i gd d ix f s) : IssuesAs i (guardOf (guardCode gd)) s :=
  issuesAs_of_exec h

theorem issuesAs_of_trapOp {c : BitVec 8} {a : Src} {x : Ext}
    (h : exec i s = trapOp i gd c a x s) : IssuesAs i (guardOf (guardCode gd)) s :=
  issuesAs_of_exec h

end IssuesAs

/-- Every instruction that has an encoding is issued under the guard of its encoding. -/
theorem issuesAs_of_fields {i : Instr} {f : Fields} (hf : fieldsOf i = some f) (s : State) :
    IssuesAs i (guardOf f.gd) s := by
  cases i with
  | iadd o | isub o | imulLo o | imulHi o | imad o | iabs o | ineg o | imin o | imax o =>
    cases hf
    exact issuesAs_of_intOp (by unfold exec; rfl)
  | iand o | ior o | ixor o | inot o | shl o | shr o | rotl o | popc o | clz o | ctz o =>
    cases hf
    exact issuesAs_of_bitsOp (by unfold exec; rfl)
  | sra o | bfe o | bfi o | brev o | sel o | mov o | movi o | lea o | fabs o | fneg o | fclass o | cvtq o | cvtx o
  | sclFind o | hashI64 o =>
    cases hf
    exact issuesAs_of_alu (by unfold exec; rfl)
  | icmp o =>
    cases hf
    exact issuesAs_of_aluBit (by unfold exec; rfl)
  | fadd o | fsub o | fmul o | ffma o | fdiv o | fsqrt o | frcp o | frsqrt o | fexp2 o | flog2 o | fmin o | fmax o
  | frnd o =>
    cases hf
    exact issuesAs_of_fpAlu (by unfold exec; rfl)
  | fcmp o | cvt o | hadm o =>
    cases hf
    exact issuesAs_of_fpOp (by unfold exec; rfl)
  | ldf o | ldfk o | ste o =>
    cases hf
    exact issuesAs_of_taggedWord (by unfold exec; rfl)
  | barInit o | barArr o | barExp o | barWait o | barArrw o =>
    cases hf
    exact issuesAs_of_barOp (by unfold exec; rfl)
  | cpy o | cpyTile o | cpyGth o | cpySct o | cpyRem o | cpyMcast o | cpyRed o =>
    cases hf
    exact issuesAs_of_copyIssue (by unfold exec; rfl)
  | accZero o | accRd o | accWr o =>
    cases hf
    exact issuesAs_of_accOp (by unfold exec; rfl)
  | gspInj o | gspRd o | gspMass o =>
    cases hf
    exact issuesAs_of_gspOp (by unfold exec; rfl)
  | strCmp o | strEq o | strHash o | strFind o | strPfx o =>
    cases hf
    exact issuesAs_of_strOp (by unfold exec; rfl)
  | depAdd g d ix b x | depSub g d ix b x =>
    cases hf
    exact issuesAs_of_depOp (by unfold exec; rfl)
  | sys g a x | trap g a x | brk g a x =>
    cases hf
    exact issuesAs_of_trapOp (by unfold exec; rfl)
  | bra o | join g | call l o | callIndirect l t | ret t | jmp o | jmpIndirect t | exit g | yield g | nop g | vote o
  | shfl o | elect g r b | ld o | st o | tagSet o | tagSetTile o | tagRd o | atom o | red o | pf o | clnWb o | clnInv o
  | clnWbinv o | phase g | phaseRel g | phaseAcq g | drain g | tbar g | sfeed o | tokWait o | tokTest o | tokCancel o
  | tokDetach o | tokAdopt o | tokPrio o | tokAfter o | tokResume o | tokState o | mma o | gspStep o | gspSpread o
  | partIdx o | grow p a x | shrink p a x | launchFlush g t | rdsr g d r | sigret g | rdcr o | wrcr o | park o | unpark o
  | tlbi o | ctxSave o | ctxLoad o | teamOut o | teamIn o | halt o | haltRelease o | trace g a v x | mark g a x
  | rdctr g lat d n x =>
    cases hf
    exact issuesAs_of_exec (by unfold exec; rfl)
  | launch g d t r =>
    cases hf
    exact issuesAs_of_exec (by unfold exec; dsimp only [execLaunch])
  | brx o =>
    cases hf
    exact ⟨_, true, congrArg (fun g => issue (.brx o) g s _ true) (guardOf_code o.g).symm, fun _ => ⟨o, rfl⟩⟩
  | _ => cases hf

/-! ### What stands against it -/

section Refused

variable {i : Instr} {gd : Guard} {s : State} {body : Mask → State} {always : Bool}

/-- The slot that issues holds lanes. -/
theorem holdsLanes_iff : (s.mySlot.state == .empty || s.mySlot.mask == 0) = false ↔ s.mySlot.state ≠ .empty ∧ s.mySlot.mask ≠ 0 := by
  rw [Bool.or_eq_false_iff, beq_eq_false_iff_ne, beq_eq_false_iff_ne]

/-- The cause with which an occupied slot is refused its instruction, the first that applies (R29, R30). -/
def refusal (i : Instr) (s : State) : Option (BitVec 8) :=
  if !wellFormed i then some Cause.illegal
  else if needsPrivilege i && !s.me.privileged then some Cause.privileged
  else if s.me.outOfRange i then some Cause.regRange else none

theorem issue_of_refusal {cause : BitVec 8} (hs : s.mySlot.state ≠ .empty) (hm : s.mySlot.mask ≠ 0)
    (h : refusal i s = some cause) : issue i gd s body always = .next (s.parkMe cause) := by
  rw [issue, holdsLanes_iff.mpr ⟨hs, hm⟩, if_neg Bool.false_ne_true]
  unfold refusal at h
  split at h
  · rename_i hw
    cases h
    rw [if_pos hw]
  · rename_i hw
    rw [if_neg hw]
    split at h
    · rename_i hp
      cases h
      rw [if_pos hp]
    · rename_i hp
      rw [if_neg hp]
      split at h
      · rename_i hr
        cases h
        rw [if_pos hr]
      · cases h

/-- What parks the whole slot refuses the instruction. -/
theorem refusedWith_of_parkMe {cause : BitVec 8} (hm : s.mySlot.mask ≠ 0) (he : exec i s = .next (s.parkMe cause))
    (hd : debugCause cause = false) : refusedWith i cause s :=
  fun hc => ⟨_, he, trapped_parkWhole hm hc hd⟩

end Refused

/-- Settles O40: every instruction that has an encoding is issued through the same questions, asked in the rule's order, and
what each of them parks is the whole slot. -/
theorem issueRefusals : Obligations.IssueRefusals := by
  intro s i f hf hs hm
  obtain ⟨body, always, he, hb⟩ := issuesAs_of_fields hf s
  refine ⟨fun hw => ?_, fun hw hp hg => ?_, fun hw hp hr => ?_, fun hi ha hne => ?_⟩
  · exact refusedWith_of_parkMe hm (he.trans (issue_of_refusal hs hm (by simp [refusal, hw]))) (by decide)
  · exact refusedWith_of_parkMe hm (he.trans (issue_of_refusal hs hm (by simp [refusal, hw, hp, hg]))) (by decide)
  · have hq : (needsPrivilege i && !s.me.privileged) = false := by rcases hp with h | h <;> simp [h]
    exact refusedWith_of_parkMe hm (he.trans (issue_of_refusal hs hm (by simp [refusal, hw, hq, hr]))) (by decide)
  · have hal : always = false := by
      cases always with
      | false => rfl
      | true =>
        obtain ⟨o, ho⟩ := hb rfl
        exact absurd ho (hne o)
    refine ⟨_, he.trans (issue_eq i _ s body always hi), ?_⟩
    rw [if_pos (by simp [ha, hal])]
    exact advance_spec s i

end Sys2Proof.Proofs
end

section
/-! SUPPORT. The step of the machine (R12, R29, R52, R116): the slot that a turn names fetches the bytes at its PC and runs what
they decode to. -/

namespace Sys2Proof.Proofs

open Sys2Proof Machine Laws Forms Statements

/-! ### What the slot in hand runs -/

theorem runSlot_of_fetches {s s' : State} {i : Instr} (h : fetches s i s') : s.runSlot = exec i s' := by
  obtain ⟨bs, hf, hd⟩ := h
  simp only [State.runSlot, hf, hd]

theorem runSlot_of_fetchesNone {s s' : State} (h : fetchesNone s s') :
    s.runSlot = .next (s'.stopSlot Cause.illegal 0 .none) := by
  obtain ⟨bs, x, hf, hd⟩ := h
  simp only [State.runSlot, hf, hd]

theorem issueSlot_of_not_due {s : State} {c g n : Nat} (h : (issuing s c g n).stepDue = false) :
    s.issueSlot c g n = (issuing s c g n).runSlot :=
  if_neg (by rw [Bool.not_eq_true]; exact h)

theorem beginSlot_of_strings {s : State} {c g n : Nat} (h : (issuing s c g n).stepDue = false)
    (hr : (s.peekInstr c g ((s.group c g).slot n).pc).bind readsStrings ≠ none) :
    s.beginSlot c g n = .next (issuing s c g n).reissueRead := by
  obtain ⟨x, hx⟩ := Option.ne_none_iff_exists'.mp hr
  simp only [State.beginSlot, hx]
  exact if_neg (by rw [Bool.not_eq_true]; exact h)

theorem beginSlot_of_no_strings {s : State} {c g n : Nat}
    (hr : (s.peekInstr c g ((s.group c g).slot n).pc).bind readsStrings = none) :
    s.beginSlot c g n = s.issueSlot c g n := by
  simp only [State.beginSlot, hr]

/-! ### The turn -/

/-- A turn acts once its time has passed. -/
def acted (s0 : State) (t : Turn) : Out := ({ s0 with turn := s0.turn + 1 }.passTime t.dt).act1 t.act

theorem step_of_next {s s0 u : State} {t : Turn} (h : s.nextTurn = (s0, some t)) (ha : acted s0 t = .next u) :
    step s = .next u.settled := by
  unfold acted at ha
  simp only [step, h, State.takeTurn, ha]

theorem stepIs_of_acted {s s0 s' : State} {t : Turn} {i : Instr} (h : s.nextTurn = (s0, some t))
    (ha : acted s0 t = exec i s') : stepIs s i s' := by
  unfold stepIs
  cases hx : exec i s' with
  | next u => exact step_of_next h (ha.trans hx)
  | fault f =>
    rw [hx, acted] at ha
    simp only [step, h, State.takeTurn, ha]
  | refused r =>
    rw [hx, acted] at ha
    simp only [step, h, State.takeTurn, ha]

/-- A trap of the supervisor group leaves its core faulted (R116). -/
theorem faulted_parkWhole {s : State} (hg : s.cur.gslot = Config.supervisorSlot) (ts : List LaneTrap) (acc : Access) :
    ((s.parkWhole s.cur.core s.cur.gslot s.cur.slot ts acc).core s.cur.core).faulted = true := by
  rw [State.parkWhole, if_pos hg, State.supervisorFault]
  split
  · assumption
  · rw [State.core, send_cores, ← State.core, core_onCore_same]

/-- A turn whose act runs the slot in hand steps as the bytes at its PC say. -/
theorem step_of_runSlot {s s0 r s' : State} {t : Turn} {i : Instr} (h : s.nextTurn = (s0, some t))
    (ha : acted s0 t = r.runSlot) :
    (fetches r i s' → stepIs s i s') ∧ (fetchesNone r s' → stepParks s s') := by
  constructor
  · exact fun hf => stepIs_of_acted h (ha.trans (runSlot_of_fetches hf))
  · intro hf
    exact ⟨_, step_of_next h (ha.trans (runSlot_of_fetchesNone hf)), fun hm hc => trapped_parkWhole hm hc (by decide),
      fun hg => faulted_parkWhole hg _ _⟩

/-! ### The acts that issue -/

theorem act1_cycle {s s2 : State} {c sched g n : Nat} {stalled : List Nat}
    (hch : s.choose c (sched % 4) stalled = (s2, some (g, n))) (h : (issuing s2 c g n).stepDue = false) :
    s.act1 (.cycle c sched stalled) = (issuing s2 c g n).runSlot := by
  simp only [State.act1, hch, issueSlot_of_not_due h]

theorem act1_beginCycle {s s2 : State} {c sched g n : Nat} {stalled : List Nat}
    (hch : s.choose c (sched % 4) stalled = (s2, some (g, n))) :
    s.act1 (.beginCycle c sched stalled) = s2.beginSlot c g n := by
  simp only [State.act1, hch]

theorem act1_supervisor {s : State} {c n : Nat} (hr : s.supervisorReady c n = true)
    (h : (issuing s c Config.supervisorSlot n).stepDue = false) :
    s.act1 (.supervisor c n) = (issuing s c Config.supervisorSlot n).runSlot := by
  simp only [State.act1, hr, if_true, issueSlot_of_not_due h]

theorem act1_wake {s : State} {c g n : Nat} (hw : s.canWake c g n = true) :
    s.act1 (.wake c g n) = (inHand s c g n).runSlot := by
  simp only [State.act1, hw, if_true, State.reissueSlot, inHand]

/-! ### The bytes fetched -/

theorem readMem_drop (s : State) (p n k : Nat) : (s.readMem p n).drop k = s.readMem (p + k) (n - k) := by
  refine List.ext_getElem (by simp) fun j _ _ => ?_
  simp [readMem_eq, Nat.add_assoc]

theorem overDirty_of_none {k : Core} {p : Nat} {bs : List Byte} (h : ∀ j, j < bs.length → k.dirty.find? (p + j) = none) :
    k.overDirty p bs = bs := by
  refine List.ext_getElem (by simp [Core.overDirty]) fun j hj _ => ?_
  have hl : j < bs.length := by simpa [Core.overDirty] using hj
  simp [Core.overDirty, h j hl]

/-- A block off the fabric that the L1 does not hold comes from memory. -/
theorem loadL1_memory {s : State} {c b : Nat} (hp : isPeer (32 * b) = false) (hc : (s.core c).clean.find? b = none)
    (hd : ∀ p, p / 32 = b → (s.core c).dirty.find? p = none) (line : Option (List Byte)) :
    (s.loadL1 c (32 * b) 32 line).2 = some (s.readMem (32 * b) 32) := by
  have hb : 32 * b / 32 = b := Nat.mul_div_cancel_left b (by decide)
  have hm : 32 * b % 32 = 0 := Nat.mul_mod_right 32 b
  have hx : (s.core c).overDirty (32 * b) (s.readMem (32 * b) 32) = s.readMem (32 * b) 32 := by
    refine overDirty_of_none fun j hj => hd _ ?_
    rw [length_readMem] at hj
    omega
  have ht : (s.readMem (32 * b) 32).take 32 = s.readMem (32 * b) 32 := List.take_of_length_le (by simp)
  simp [State.loadL1, State.below, hb, hm, hc, hp, ht, hx]

/-- A block lies on one side of the fabric's window. -/
theorem isPeer_block (pa : Nat) : isPeer (32 * (pa / 32)) = isPeer pa := by
  have hl : peerBase ≤ 32 * (pa / 32) ↔ peerBase ≤ pa := by unfold peerBase; omega
  have hh : 32 * (pa / 32) < hostBase ↔ pa < hostBase := by unfold hostBase; omega
  simp only [isPeer, hl, hh]

/-- A fetch of a block that no cache holds reads memory and changes none of it. -/
theorem fetchBlock_memory {s : State} {a : Agent} {pa : Nat} (hp : isPeer pa = false)
    (hi : (s.core a.core).icache.find? (pa / 32) = none) (hc : (s.core a.core).clean.find? (pa / 32) = none)
    (hd : ∀ p, p / 32 = pa / 32 → (s.core a.core).dirty.find? p = none) :
    ∃ u, s.fetchBlock a pa = (u, .ok (s.readMem (32 * (pa / 32)) 32)) ∧ u.mem = s.mem := by
  have hl := loadL1_memory ((isPeer_block pa).trans hp) hc hd none
  have hm := mem_loadL1 s a.core (32 * (pa / 32)) 32 none
  rcases hx : s.loadL1 a.core (32 * (pa / 32)) 32 none with ⟨u, r⟩
  rw [hx] at hl hm
  subst hl
  refine ⟨u.onCore a.core fun k => { k with icache := k.icache.set (pa / 32) (s.readMem (32 * (pa / 32)) 32) }, ?_, hm⟩
  simp [State.fetchBlock, State.peerLine, hp, hi, hx]

/-- Settles O58: the turn's act runs the slot in hand, which executes what its bytes decode to or parks; the bytes are
memory's where no cache holds their block. -/
theorem stepRunsDecoded : Obligations.StepRunsDecoded := by
  refine ⟨fun s s0 s' t i ht => ?_, fun s s' a tid pc w hs hp hi hc hd => ?_, fun s u a tid pc w hw => ?_⟩
  · refine ⟨fun c sched stalled g n s2 hch hdue => ⟨?_, fun ha hr => ?_⟩, fun c n ha hr hdue => ?_, fun c g n ha hw => ?_⟩
    · rintro (ha | ⟨ha, hr⟩)
      · exact step_of_runSlot ht (by rw [acted, ha, act1_cycle hch hdue])
      · exact step_of_runSlot ht (by
          rw [acted, ha, act1_beginCycle hch, beginSlot_of_no_strings hr, issueSlot_of_not_due hdue])
    · exact step_of_next ht (by rw [acted, ha, act1_beginCycle hch, beginSlot_of_strings hdue hr])
    · exact step_of_runSlot ht (by rw [acted, ha, act1_supervisor hr hdue])
    · exact step_of_runSlot ht (by rw [acted, ha, act1_wake hw])
  · obtain ⟨u, hu, hmem⟩ := fetchBlock_memory hp hi hc hd
    refine ⟨u, ?_, hmem⟩
    simp only [State.fetchAt, hs, hu, readMem_drop, Nat.div_add_mod]
  · simp only [State.fetchSpot, hw]

end Sys2Proof.Proofs
end

section
/-! SUPPORT. The end of an instruction that pushes nothing (R42, R43): what its slots hold, and that the rest of the machine
stays. -/

namespace Sys2Proof.Proofs

open Sys2Proof Machine Laws Forms Statements

/-! ### The slots of a group -/

section Slots

variable {g h k : Group} {n : Nat} {x : Slot}

@[simp] theorem slot_setSlot_same : (g.setSlot n x).slot n = x := by
  rw [slot_setSlot, if_pos Iff.rfl]

@[simp] theorem slot_setSlot_other : (g.setSlot n x).slot (other n) = g.slot (other n) := by
  by_cases hn : n = 0 <;> simp [slot_setSlot, other, hn]

@[simp] theorem slot_setOther : (g.setSlot (other n) x).slot n = g.slot n := by
  by_cases hn : n = 0 <;> simp [slot_setSlot, other, hn]

theorem sameRegs_trans (a : g.sameRegs h) (b : h.sameRegs k) : g.sameRegs k := by
  unfold Group.sameRegs at *
  rw [b, a]

theorem sameRegs_setSlot (g : Group) (n : Nat) (x : Slot) : g.sameRegs (g.setSlot n x) := by
  unfold Group.sameRegs Group.setSlot
  split <;> rfl

end Slots

theorem and_not_zero (m : Mask) : m &&& ~~~0 = m := by
  show m &&& ~~~0#32 = m
  rw [BitVec.not_zero, BitVec.and_allOnes]

theorem issuable_mask {i : Instr} {s : State} (h : issuable i s = true) : s.mySlot.mask ≠ 0 := by
  simp only [issuable, Bool.and_eq_true, bne_iff_ne] at h
  exact h.1.1.1.2

/-! ### A change of the issuing group once an instruction retires -/

section Retire

variable (s : State) (f : Group → Group)

theorem cur_retire : s.retire.cur = s.cur := elsewhereSame_cur (retire_spec s).2

theorem me_retire_onMe : (s.retire.onMe f).me = f s.me := by rw [me_onMe, (retire_spec s).1]

theorem elsewhereSame_retire_onMe : s.elsewhereSame (s.retire.onMe f) :=
  elsewhereSame_trans (retire_spec s).2 (elsewhereSame_onMe _ _)

theorem onGroup_retire_onMe (k : Group → Group) :
    (s.retire.onMe f).onGroup s.cur.core s.cur.gslot k = (s.retire.onMe f).onMe k := by
  rw [← cur_retire s]; rfl

theorem group_retire_onMe : (s.retire.onMe f).group s.cur.core s.cur.gslot = f s.me := by
  have h := me_retire_onMe s f
  rwa [State.me, show (s.retire.onMe f).cur = s.cur from cur_retire s] at h

end Retire

/-! ### Parts that take their slots -/

section Finish

variable (s : State)

/-- An instruction that leaves no lane of its slot frees the slot. -/
theorem finish_none : s.finish { parts := [] } id = s.retire.onMe fun z => z.setSlot s.cur.slot .empty := by
  obtain ⟨d, h⟩ := myPushes_zero s
  simp [State.finish, pushesFor, h]

/-- With the other slot EMPTY, the second part of a divided slot takes it. -/
theorem finish_two (p q : Slot) (h : s.aloneInGroup = true) : s.finish { parts := [p, q] } id =
    (s.retire.onMe fun z => z.setSlot s.cur.slot p).onMe fun z => z.setSlot (other s.cur.slot) q := by
  obtain ⟨d, hd⟩ := myPushes_zero s
  have ho : (s.me.slot (other s.cur.slot)).state = .empty := by simpa [State.aloneInGroup] using h
  simp [State.finish, State.place, pushesFor, ho, hd, group_retire_onMe, onGroup_retire_onMe]

variable {ts : List LaneTrap} (ht : ts ≠ []) (hu : s.cur.gslot ≠ Config.supervisorSlot)
include ht hu

/-- The lanes of a whole slot park in it. -/
theorem finish_parked : s.finish { parts := [], parked := ts } id =
    (s.onMe fun z => z.setSlot s.cur.slot (s.mySlot.park (trapMask ts))).land s.cur.core s.cur.gslot s.cur.slot ts .none := by
  obtain ⟨d, hd⟩ := myPushes_zero s
  simp [State.finish, State.place, pushesFor, ht, hu, hd]

/-- With the other slot EMPTY, the lanes that park take it. -/
theorem finish_parked_rest (p : Slot) (h : s.aloneInGroup = true) : s.finish { parts := [p], parked := ts } id =
    ((s.retire.onMe fun z => z.setSlot s.cur.slot p).onMe fun z =>
      z.setSlot (other s.cur.slot) (s.mySlot.park (trapMask ts))).land s.cur.core s.cur.gslot (other s.cur.slot) ts .none := by
  obtain ⟨d, hd⟩ := myPushes_zero s
  have ho : (s.me.slot (other s.cur.slot)).state = .empty := by simpa [State.aloneInGroup] using h
  simp [State.finish, State.place, pushesFor, ho, hd, ht, hu, group_retire_onMe, onGroup_retire_onMe]

end Finish

/-- What an instruction leaves that pushes nothing and parks no lane: only its group's slots have changed, and they are `p`
and `q`. -/
def Divided (s t : State) (p q : Slot) : Prop :=
  t.cur = s.cur ∧ s.me.sameRegs t.me ∧ s.elsewhereSame t ∧ t.mySlot = p ∧ t.me.slot (other s.cur.slot) = q

theorem divided_of {s t : State} {g : Group} (he : s.elsewhereSame t) (hg : t.me = g) (hr : s.me.sameRegs g) :
    Divided s t (g.slot s.cur.slot) (g.slot (other s.cur.slot)) := by
  have hc := elsewhereSame_cur he
  subst hg
  exact ⟨hc, hr, he, by rw [State.mySlot, hc], rfl⟩

theorem divided_none (s : State) :
    Divided s (s.finish { parts := [] } id) .empty (s.me.slot (other s.cur.slot)) := by
  rw [finish_none]
  simpa using divided_of (elsewhereSame_retire_onMe s fun z => z.setSlot s.cur.slot .empty) (me_retire_onMe s _)
    (sameRegs_setSlot _ _ _)

theorem divided_one (s : State) (p : Slot) :
    Divided s (s.finish { parts := [p] } id) p (s.me.slot (other s.cur.slot)) := by
  rw [finish_whole]
  simpa using divided_of (elsewhereSame_retire_onMe s fun z => z.setSlot s.cur.slot p) (me_retire_onMe s _)
    (sameRegs_setSlot _ _ _)

theorem divided_two (s : State) (p q : Slot) (h : s.aloneInGroup = true) :
    Divided s (s.finish { parts := [p, q] } id) p q := by
  have hme : ((s.retire.onMe fun z => z.setSlot s.cur.slot p).onMe fun z => z.setSlot (other s.cur.slot) q).me
      = (s.me.setSlot s.cur.slot p).setSlot (other s.cur.slot) q := by rw [me_onMe, me_retire_onMe]
  rw [finish_two s p q h]
  simpa using divided_of (elsewhereSame_trans (elsewhereSame_retire_onMe s _) (elsewhereSame_onMe _ _)) hme
    (sameRegs_trans (sameRegs_setSlot _ _ _) (sameRegs_setSlot _ _ _))

/-! ### `brx` (R43) -/

/-- A part of the slot that a `brx` divides. -/
def branched (s : State) (o : Jump) (pc : Word) (m : Mask) : Slot :=
  Slot.go { s.mySlot with rcv := relative s.mySlot.pc o.d1 } pc m s.turn

theorem slotIs_branched (s : State) (o : Jump) (pc : Word) (m : Mask) :
    slotIs (branched s o pc m) pc (s.mySlot.pc + o.d1.signExtend 64) m := ⟨rfl, rfl, rfl, rfl⟩

/-- A `brx` whose new reconvergence address needs no JOIN entry: each side of the division that has lanes is a part. -/
theorem exec_brx {s : State} {o : Jump} (h : issuable (.brx o) s = true)
    (hr : s.mySlot.rcv = noRcv ∨ s.mySlot.rcv = relative s.mySlot.pc o.d1) :
    let act := s.me.active s.mySlot.mask o.g
    let rest := s.mySlot.mask &&& ~~~act
    exec (.brx o) s = .next (s.finish { parts :=
      (if act = 0 then [] else [branched s o (relative s.mySlot.pc o.d0) act])
        ++ if rest = 0 then [] else [branched s o (s.nextPc (.brx o)) rest] } id) := by
  intro act rest
  have hj : (s.mySlot.rcv != noRcv && relative s.mySlot.pc o.d1 != s.mySlot.rcv) = false := by
    rcases hr with h | h <;> simp [h]
  have he : exec (.brx o) s = .next (branchDivide (.brx o) o s act) :=
    (issue_eq (.brx o) o.g s (branchDivide (.brx o) o s) true h).trans (by rw [Bool.not_true, Bool.and_false]; rfl)
  rw [he]
  simp [branchDivide, hj, branched, rest]

/-- Settles O12: the division is one part, which keeps the slot, or two, of which the second takes the EMPTY one. -/
theorem branchDivides : Obligations.BranchDivides := by
  intro s o hi halone r1 act rest hr
  have he := exec_brx hi hr
  by_cases ha : act = 0
  · have hne : rest ≠ 0 := by
      rw [show rest = s.mySlot.mask by simp only [rest, ha, and_not_zero]]
      exact issuable_mask hi
    obtain ⟨hcur, hregs, helse, hmy, ho⟩ := divided_one s (branched s o (s.nextPc (.brx o)) rest)
    refine ⟨_, he.trans (by rw [if_pos ha, if_neg hne, List.nil_append]), hcur, hregs, helse, ?_, ?_⟩
    · rw [if_pos ha, hmy]; exact slotIs_branched _ _ _ _
    · rw [if_pos (.inl ha)]; exact ho
  · by_cases hz : rest = 0
    · obtain ⟨hcur, hregs, helse, hmy, ho⟩ := divided_one s (branched s o (relative s.mySlot.pc o.d0) act)
      refine ⟨_, he.trans (by rw [if_neg ha, if_pos hz, List.append_nil]), hcur, hregs, helse, ?_, ?_⟩
      · rw [if_neg ha, hmy]; exact slotIs_branched _ _ _ _
      · rw [if_pos (.inr hz)]; exact ho
    · obtain ⟨hcur, hregs, helse, hmy, ho⟩ := divided_two s (branched s o (relative s.mySlot.pc o.d0) act)
        (branched s o (s.nextPc (.brx o)) rest) halone
      refine ⟨_, he.trans (by rw [if_neg ha, if_neg hz]; rfl), hcur, hregs, helse, ?_, ?_⟩
      · rw [if_neg ha, hmy]; exact slotIs_branched _ _ _ _
      · rw [if_neg (not_or.mpr ⟨ha, hz⟩), ho]; exact slotIs_branched _ _ _ _

end Sys2Proof.Proofs
end

section
/-! SUPPORT. The schedulers (R52, R53): the ready slots, the best of a list, and the credits that a choice leaves. -/

namespace Sys2Proof.Proofs

open Sys2Proof Machine Laws Forms Statements

/-! ### Lists -/

theorem mem_of_find {α : Type} {s : Store α} {j : Nat} {v : α} (h : s.find? j = some v) : (j, v) ∈ s := by
  induction s with
  | nil => cases h
  | cons e r ih =>
    obtain ⟨k, w⟩ := e
    rw [Store.find?] at h
    split at h
    · rename_i hk
      cases h
      rw [hk]
      exact List.mem_cons_self
    · exact List.mem_cons_of_mem _ (ih h)

/-- `distinct` keeps the members, each once. -/
theorem distinct_spec (l : List Nat) : (distinct l).Nodup ∧ ∀ a, a ∈ distinct l ↔ a ∈ l := by
  suffices ∀ (l acc : List Nat), acc.Nodup →
      let r := l.foldl (fun a x => if a.contains x then a else a ++ [x]) acc
      r.Nodup ∧ ∀ a, a ∈ r ↔ a ∈ acc ∨ a ∈ l by
    obtain ⟨hn, hm⟩ := this l [] List.nodup_nil
    exact ⟨hn, fun a => (hm a).trans (by simp)⟩
  intro l
  induction l with
  | nil => exact fun acc h => ⟨h, fun a => by simp⟩
  | cons x l ih =>
    intro acc h
    rw [List.foldl_cons]
    by_cases hx : x ∈ acc
    · rw [if_pos (List.contains_iff_mem.mpr hx)]
      obtain ⟨hn, hm⟩ := ih acc h
      refine ⟨hn, fun a => (hm a).trans ⟨fun h => h.imp_right (List.mem_cons_of_mem _), ?_⟩⟩
      rintro (h | h)
      · exact .inl h
      · exact (List.mem_cons.mp h).imp_left fun e => by rw [e]; exact hx
    · rw [if_neg (by simpa using hx)]
      have hd : (acc ++ [x]).Nodup := by
        refine List.nodup_append.mpr ⟨h, List.nodup_singleton x, fun a ha b hb => ?_⟩
        rw [List.mem_singleton.mp hb]
        rintro rfl
        exact hx ha
      obtain ⟨hn, hm⟩ := ih (acc ++ [x]) hd
      exact ⟨hn, fun a => (hm a).trans (by simp [or_assoc])⟩

/-! ### The best of a list (R53, steps 2 and 4) -/

/-- The first of the least members of a list, as an order given by a test has them. -/
def best {α : Type} (le : α → α → Bool) : List α → Option α
  | [] => none
  | a :: r =>
    match best le r with
    | none => some a
    | some b => if le a b then some a else some b

section Best

variable {α : Type} {le : α → α → Bool}

theorem best_eq_none {l : List α} : best le l = none ↔ l = [] := by
  cases l with
  | nil => simp [best]
  | cons a r =>
    simp only [best, reduceCtorEq, iff_false]
    split
    · simp
    · split <;> simp

/-- With a transitive and total test, the best of a list is a member of it, and none is better. -/
theorem best_spec (htrans : ∀ a b c, le a b = true → le b c = true → le a c = true)
    (htotal : ∀ a b, le a b = true ∨ le b a = true) {l : List α} {a : α} (h : best le l = some a) :
    a ∈ l ∧ ∀ b ∈ l, le a b = true := by
  have hrefl : ∀ a, le a a = true := fun a => (htotal a a).elim id id
  induction l generalizing a with
  | nil => cases h
  | cons x r ih =>
    rw [best] at h
    cases hb : best le r with
    | none =>
      rw [hb] at h
      cases h
      rw [best_eq_none.mp hb]
      exact ⟨List.mem_cons_self, fun b hb => by rw [List.mem_singleton.mp hb]; exact hrefl _⟩
    | some y =>
      obtain ⟨hy, hall⟩ := ih hb
      rw [hb] at h
      dsimp only at h
      split at h <;> rename_i hle <;> cases h
      · exact ⟨List.mem_cons_self, List.forall_mem_cons.mpr ⟨hrefl _, fun b hb => htrans _ _ _ hle (hall b hb)⟩⟩
      · exact ⟨List.mem_cons_of_mem _ hy, List.forall_mem_cons.mpr ⟨(htotal _ _).resolve_left hle, hall⟩⟩

end Best

/-- Context `a` goes before context `b`, or ties with it (R53, step 2). -/
def ctxBefore (credit : Nat → Int) (chosen : Nat → Nat) (a b : Nat) : Bool :=
  credit b < credit a || (credit a == credit b && chosen a ≤ chosen b)

/-- Slot `x` goes before slot `y`, or ties with it (R53, step 4). -/
def slotBefore (since : Nat × Nat → Nat) (x y : Nat × Nat) : Bool :=
  since x < since y || (since x == since y && 2 * x.1 + x.2 ≤ 2 * y.1 + y.2)

theorem bestCtx_eq (credit : Nat → Int) (chosen : Nat → Nat) (l : List Nat) :
    bestCtx credit chosen l = best (ctxBefore credit chosen) l := by
  induction l with
  | nil => rfl
  | cons a r ih => rw [bestCtx, best, ih]; cases best (ctxBefore credit chosen) r <;> rfl

theorem bestSlot_eq (since : Nat × Nat → Nat) (l : List (Nat × Nat)) : bestSlot since l = best (slotBefore since) l := by
  induction l with
  | nil => rfl
  | cons a r ih => rw [bestSlot, best, ih]; cases best (slotBefore since) r <;> rfl

theorem ctxBefore_iff {credit : Nat → Int} {chosen : Nat → Nat} {a b : Nat} : ctxBefore credit chosen a b = true ↔
    credit b < credit a ∨ (credit b = credit a ∧ chosen a ≤ chosen b) := by
  simp [ctxBefore, eq_comm (a := credit a)]

theorem slotBefore_iff {since : Nat × Nat → Nat} {x y : Nat × Nat} : slotBefore since x y = true ↔
    since x < since y ∨ (since x = since y ∧ 2 * x.1 + x.2 ≤ 2 * y.1 + y.2) := by
  simp [slotBefore]

theorem bestCtx_spec {credit : Nat → Int} {chosen : Nat → Nat} {l : List Nat} {a : Nat}
    (h : bestCtx credit chosen l = some a) :
    a ∈ l ∧ ∀ b ∈ l, credit b < credit a ∨ (credit b = credit a ∧ chosen a ≤ chosen b) := by
  rw [bestCtx_eq] at h
  obtain ⟨hm, hb⟩ := best_spec (fun a b c => by simp only [ctxBefore_iff]; omega)
    (fun a b => by simp only [ctxBefore_iff]; omega) h
  exact ⟨hm, fun b h => ctxBefore_iff.mp (hb b h)⟩

theorem bestSlot_spec {since : Nat × Nat → Nat} {l : List (Nat × Nat)} {x : Nat × Nat} (h : bestSlot since l = some x) :
    x ∈ l ∧ ∀ y ∈ l, since x < since y ∨ (since x = since y ∧ 2 * x.1 + x.2 ≤ 2 * y.1 + y.2) := by
  rw [bestSlot_eq] at h
  obtain ⟨hm, hb⟩ := best_spec (fun a b c => by simp only [slotBefore_iff]; omega)
    (fun a b => by simp only [slotBefore_iff]; omega) h
  exact ⟨hm, fun y h => slotBefore_iff.mp (hb y h)⟩

/-! ### The ready slots (R52) -/

/-- A group that is live is listed. -/
theorem listed_of_live {s : State} {c g : Nat} (h : (s.group c g).live = true) : (g, s.group c g) ∈ (s.core c).groups := by
  unfold State.group Store.get at *
  cases hf : (s.core c).groups.find? g with
  | none =>
    rw [hf] at h
    cases h
  | some x => exact mem_of_find hf

theorem mem_candidates {s : State} {c sched g n : Nat} {stalled : List Nat} :
    (g, n) ∈ s.candidates c sched stalled ↔ readyAt s c sched stalled g n := by
  have h2 : n < 2 ↔ n ∈ [0, 1] := by simp; omega
  have hh : ∀ t : Team, t.halted = false ↔ t.halts = [] := fun t => by simp [Team.halted]
  unfold State.candidates readyAt
  dsimp only
  by_cases hi : s.issues c = true
  · have hi' := hi
    simp only [State.issues, Bool.and_eq_true, Bool.not_eq_true'] at hi'
    rw [hi, if_neg (by simp)]
    simp only [List.mem_flatMap, List.mem_filter, List.mem_filterMap, Option.ite_none_right_eq_some, Bool.and_eq_true,
      decide_eq_true_eq, beq_iff_eq, Bool.not_eq_true', Option.some.injEq, Prod.mk.injEq, State.slotReady, State.teamRuns,
      bne_iff_ne, ne_eq, hh, h2, List.contains_eq_mem, decide_eq_false_iff_not, hi', true_and]
    constructor
    · rintro ⟨⟨g', x⟩, ⟨-, hg, hs⟩, n', hn, ⟨⟨⟨⟨⟨hl, hst⟩, hm⟩, hsince⟩, hh, hmv⟩, hnot⟩, rfl, rfl⟩
      exact ⟨hg, hs, hn, hnot, hl, hst, hm, hsince, hh, hmv⟩
    · rintro ⟨hg, hs, hn, hnot, hl, hst, hm, hsince, hh, hmv⟩
      exact ⟨_, ⟨listed_of_live hl, hg, hs⟩, n, hn, ⟨⟨⟨⟨⟨hl, hst⟩, hm⟩, hsince⟩, hh, hmv⟩, hnot⟩, rfl, rfl⟩
  · have hi' := hi
    simp only [State.issues, Bool.and_eq_true, Bool.not_eq_true'] at hi'
    rw [if_pos (by simpa using hi)]
    simp only [List.not_mem_nil, false_iff]
    rintro ⟨ht, hs, -⟩
    exact hi' ⟨ht, hs⟩

/-! ### The slots that stall -/

/-- Between two states only the moments from which a core's slots have been ready differ, and they only of slots that a turn
names. -/
def Stalled (s t : State) (c : Nat) (stalled : List Nat) : Prop :=
  t = { s with cores := t.cores } ∧ (∀ d, t.core d = { s.core d with groups := (t.core d).groups })
    ∧ ∀ g, (t.group c g).asid = (s.group c g).asid
      ∧ ∀ n, n < 2 → 2 * g + n ∉ stalled → (t.group c g).slot n = (s.group c g).slot n

theorem stalled_stall (s : State) (c sched : Nat) (stalled : List Nat) : Stalled s (s.stall c sched stalled) c stalled := by
  unfold State.stall
  dsimp only
  generalize (((s.core c).groups.filter _).map _) = gs
  suffices ∀ t, Stalled s t c stalled → Stalled s (gs.foldl _ t) c stalled from
    this s ⟨rfl, fun _ => rfl, fun _ => ⟨rfl, fun _ _ _ => rfl⟩⟩
  induction gs with
  | nil => exact fun t h => h
  | cons g gs ih =>
    rintro t ⟨h1, h2, h3⟩
    refine ih _ ⟨?_, fun d => ?_, fun k => ?_⟩
    · rw [h1]; rfl
    · rw [core_onGroup, h2 d]
    · obtain ⟨ha, hs⟩ := h3 k
      rw [group_onGroup]
      split
      · rename_i hk
        obtain ⟨-, rfl⟩ := hk
        refine ⟨ha, fun n hn hnot => ?_⟩
        have hc : stalled.contains (2 * k + n) = false := by simpa using hnot
        rw [← hs n hn hnot]
        obtain rfl | rfl : n = 0 ∨ n = 1 := by omega
        · simp only [Group.slot, if_true, hc, Bool.and_false, Bool.false_eq_true, if_false]
        · simp only [Group.slot, one_ne_zero, if_false, hc, Bool.and_false, Bool.false_eq_true]
      · exact ⟨ha, hs⟩

theorem regs_of_stalled {s t : State} {c : Nat} {stalled : List Nat} (h : Stalled s t c stalled) (d a : Nat) :
    t.regs d a = s.regs d a := by
  obtain ⟨h1, h2, -⟩ := h
  rw [State.regs, State.regs, h2 d, State.ctx, State.ctx, h1]

/-! ### Credits -/

/-- The credits once every context of a list has had its weight added. -/
theorem credit_added {sched : Nat} (w : Nat → Int) {es : List Nat} (hd : es.Nodup) (m : Store Int) (b : Nat) :
    (es.foldl (fun m a => m.set (4 * a + sched) (m.get 0 (4 * a + sched) + w a)) m).get 0 (4 * b + sched)
      = m.get 0 (4 * b + sched) + if b ∈ es then w b else 0 := by
  rw [foldl_lanes_once (f := fun m a => m.set (4 * a + sched) (m.get 0 (4 * a + sched) + w a))
    (r := fun m : Store Int => m.get 0 (4 * b + sched)) (k := b) (u := fun x => x + w b) hd
    (fun m => get_set_same _ _ _ _) (fun m a ha => get_set_ne _ _ _ (by omega)) m]
  split <;> simp

/-- The contexts that have ready slots at a scheduler. -/
def contenders (s : State) (c sched : Nat) (stalled : List Nat) : List Nat :=
  distinct ((s.candidates c sched stalled).map fun x => (s.group c x.1).asid)

/-- The credits of a core once the contenders have their weights. -/
def raised (s : State) (c sched : Nat) (es : List Nat) : Store Int :=
  es.foldl (fun m a => m.set (4 * a + sched) (m.get 0 (4 * a + sched) + s.weight1 c a)) (s.core c).credit

/-- The contenders have their weights, and the one chosen has paid for all of them. -/
def paid (s : State) (c sched a : Nat) (es : List Nat) : State :=
  s.setCore c { s.core c with
    credit := (raised s c sched es).set (4 * a + sched)
      ((raised s c sched es).get 0 (4 * a + sched) - (es.map fun b => s.weight1 c b).sum)
    chosen := (s.core c).chosen.set (4 * a + sched) s.turn }

/-- The context that is chosen, of those listed. -/
def favourite (s : State) (c sched : Nat) (es : List Nat) : Option Nat :=
  bestCtx (fun a => (raised s c sched es).get 0 (4 * a + sched)) (fun a => (s.core c).chosen.get 0 (4 * a + sched)) es

theorem group_paid (s : State) (c sched a : Nat) (es : List Nat) (g : Nat) : (paid s c sched a es).group c g = s.group c g := by
  rw [State.group, paid, core_setCore_same]
  rfl

theorem asid_stall (s : State) (c sched : Nat) (stalled : List Nat) (g : Nat) :
    ((s.stall c sched stalled).group c g).asid = (s.group c g).asid := ((stalled_stall s c sched stalled).2.2 g).1

theorem choose_eq (s : State) (c sched : Nat) (stalled : List Nat) : s.choose c sched stalled =
    match favourite (s.stall c sched stalled) c sched (contenders s c sched stalled) with
    | none => (s.stall c sched stalled, none)
    | some a => (paid (s.stall c sched stalled) c sched a (contenders s c sched stalled),
        bestSlot (fun x => (((s.stall c sched stalled).group c x.1).slot x.2).since)
          ((s.candidates c sched stalled).filter fun x => (s.group c x.1).asid == a)) := by
  have h : s.choose c sched stalled =
      let u := s.stall c sched stalled
      let es := distinct ((s.candidates c sched stalled).map fun x => (u.group c x.1).asid)
      match favourite u c sched es with
      | none => (u, none)
      | some a => (paid u c sched a es, bestSlot (fun x => (((paid u c sched a es).group c x.1).slot x.2).since)
          ((s.candidates c sched stalled).filter fun x => (u.group c x.1).asid == a)) := rfl
  simp only [h, group_paid, asid_stall]
  rfl

theorem mem_contenders {s : State} {c sched : Nat} {stalled : List Nat} {b : Nat} :
    b ∈ contenders s c sched stalled ↔ contends s c sched stalled b := by
  rw [contenders, (distinct_spec _).2, List.mem_map]
  constructor
  · rintro ⟨⟨g, n⟩, hx, rfl⟩
    exact ⟨g, n, mem_candidates.mp hx, rfl⟩
  · rintro ⟨g, n, hr, rfl⟩
    exact ⟨(g, n), mem_candidates.mpr hr, rfl⟩

/-- The credit of a context that contends, with its weight, and that of another, as it was. -/
theorem raised_get {s u : State} {c sched : Nat} {stalled : List Nat} (h : Stalled s u c stalled) {es : List Nat} (hd : es.Nodup)
    (b : Nat) : (raised u c sched es).get 0 (4 * b + sched)
      = (s.core c).credit.get 0 (4 * b + sched) + if b ∈ es then (shareOf s c b : Int) else 0 := by
  have hw : u.weight1 c b = shareOf s c b := by rw [State.weight1, shareOf, regs_of_stalled h]
  rw [raised, credit_added _ hd, hw, h.2.1 c]

/-- A scheduler chooses nothing where nothing contends, and then only the stalls are new. -/
theorem choose_none {s : State} {c sched : Nat} {stalled : List Nat} (h : (s.choose c sched stalled).2 = none) :
    (s.choose c sched stalled).1 = s.stall c sched stalled ∧ contenders s c sched stalled = [] := by
  rw [choose_eq] at h ⊢
  cases hf : favourite (s.stall c sched stalled) c sched (contenders s c sched stalled) with
  | none =>
    rw [favourite, bestCtx_eq] at hf
    exact ⟨rfl, best_eq_none.mp hf⟩
  | some a =>
    rw [hf] at h
    dsimp only at h
    rw [bestSlot_eq, best_eq_none] at h
    obtain ⟨g, n, hr, ha⟩ := mem_contenders.mp (bestCtx_spec hf).1
    have hm : (g, n) ∈ (s.candidates c sched stalled).filter fun x => (s.group c x.1).asid == a :=
      List.mem_filter.mpr ⟨mem_candidates.mpr hr, beq_iff_eq.mpr ha⟩
    rw [h] at hm
    cases hm

/-- What it chooses: the favourite of the contenders, and of its ready slots the best. -/
theorem choose_some {s : State} {c sched : Nat} {stalled : List Nat} {x : Nat × Nat} (h : (s.choose c sched stalled).2 = some x) :
    let u := s.stall c sched stalled
    let a := (s.group c x.1).asid
    favourite u c sched (contenders s c sched stalled) = some a
      ∧ (s.choose c sched stalled).1 = paid u c sched a (contenders s c sched stalled)
      ∧ x ∈ s.candidates c sched stalled
      ∧ bestSlot (fun x => ((u.group c x.1).slot x.2).since)
          ((s.candidates c sched stalled).filter fun x => (s.group c x.1).asid == a) = some x := by
  rw [choose_eq] at h ⊢
  cases hf : favourite (s.stall c sched stalled) c sched (contenders s c sched stalled) with
  | none =>
    rw [hf] at h
    cases h
  | some a =>
    rw [hf] at h
    obtain ⟨hx, ha⟩ := List.mem_filter.mp (bestSlot_spec h).1
    obtain rfl := beq_iff_eq.mp ha
    exact ⟨hf, rfl, hx, h⟩

/-- The moment since which a slot that does not stall has been ready. -/
theorem since_stall {s : State} {c sched : Nat} {stalled : List Nat} {g n : Nat} (h : readyAt s c sched stalled g n) :
    (((s.stall c sched stalled).group c g).slot n).since = ((s.group c g).slot n).since := by
  obtain ⟨-, -, -, -, hn, hnot, -⟩ := h
  rw [((stalled_stall s c sched stalled).2.2 g).2 n hn hnot]

theorem sum_of_same_members {es fs : List Nat} (he : es.Nodup) (hf : fs.Nodup) (h : ∀ b, b ∈ es ↔ b ∈ fs) (w : Nat → Nat) :
    (es.map w).sum = (fs.map w).sum := ((List.perm_ext_iff_of_nodup he hf).mpr h |>.map w).sum_eq

/-- Settles O17: the choice is the best of the contenders, and the best of its ready slots. -/
theorem schedulerChooses : Obligations.SchedulerChooses := by
  unfold Obligations.SchedulerChooses
  intro s c sched stalled _ t r credit chosen
  have hst := stalled_stall s c sched stalled
  have hd : (contenders s c sched stalled).Nodup := (distinct_spec _).1
  have hraised := fun b => raised_get (sched := sched) hst hd b
  have hchosen : ((s.stall c sched stalled).core c).chosen = (s.core c).chosen := by rw [hst.2.1 c]
  have hw : ∀ b, (s.stall c sched stalled).weight1 c b = shareOf s c b := fun b => by
    rw [State.weight1, shareOf, regs_of_stalled hst]
  cases hr : r with
  | none =>
    obtain ⟨ht, he⟩ := choose_none hr
    have hno : ∀ g n, ¬readyAt s c sched stalled g n := fun g n h => by
      have := mem_contenders.mpr ⟨g, n, h, rfl⟩
      rw [he] at this
      cases this
    have ht : t = s.stall c sched stalled := ht
    refine ⟨by rw [ht]; exact hst.1, iff_of_true rfl hno, fun _ b => ?_, fun g n h => by cases h⟩
    simp only [credit, chosen, ht]
    rw [hst.2.1 c]
    exact ⟨rfl, rfl⟩
  | some x =>
    obtain ⟨g, n⟩ := x
    obtain ⟨hf, ht, hx, hb⟩ := choose_some hr
    have hready := mem_candidates.mp hx
    have hcontends : contends s c sched stalled (s.group c g).asid := ⟨g, n, hready, rfl⟩
    have ht : t = paid (s.stall c sched stalled) c sched (s.group c g).asid (contenders s c sched stalled) := ht
    have hcore := congrArg (fun v => v.core c) ht
    rw [paid, core_setCore_same] at hcore
    refine ⟨?_, iff_of_false (by simp) (fun h => h g n hready), (fun h => by cases h), fun g' n' h => ?_⟩
    · have hu : ∀ k : Store Core, { s.stall c sched stalled with cores := k } = { s with cores := k } := fun k => by
        rw [hst.1]
      exact ht.trans (hu _) |>.trans (by rw [ht]; rfl)
    · cases h
      refine ⟨hready, fun b hc => ?_, fun g' n' hr' ha => ?_, fun b hne hc => ?_, fun b hc => ?_, fun es hes hm => ?_, ?_, ?_⟩
      · have := (bestCtx_spec hf).2 b (mem_contenders.mpr hc)
        simpa only [hraised, hchosen, if_pos (mem_contenders.mpr hc), if_pos (mem_contenders.mpr hcontends)] using this
      · have := (bestSlot_spec hb).2 (g', n') (List.mem_filter.mpr ⟨mem_candidates.mpr hr', beq_iff_eq.mpr ha⟩)
        simpa only [since_stall hready, since_stall hr'] using this
      · simp only [credit, hcore]
        rw [get_set_ne _ _ _ (by omega), hraised, if_pos (mem_contenders.mpr hc)]
      · have hne : b ≠ (s.group c g).asid := fun e => hc (e ▸ hcontends)
        simp only [credit, hcore]
        rw [get_set_ne _ _ _ (by omega), hraised, if_neg (mt mem_contenders.mp hc), add_zero]
      · simp only [credit, hcore]
        rw [get_set_same, hraised, if_pos (mem_contenders.mpr hcontends),
          sum_of_same_members hes hd fun b => (hm b).trans mem_contenders.symm]
        simp only [hw]
      · simp only [chosen, hcore]
        rw [get_set_same, hst.1]
      · intro b hne
        simp only [chosen, hcore]
        rw [get_set_ne _ _ _ (by omega), hchosen]

end Sys2Proof.Proofs
end

section
/-! SUPPORT. What the services of the device do (O49), and the state in which a message's ring runs past the end of the
addresses. -/

namespace Sys2Proof.Proofs

open Sys2Proof Machine Laws Forms Statements

/-- The state that a step goes on in, where it does. -/
def nextState : Out → Option State
  | .next t => some t
  | _ => none

theorem of_steps {α : Type} [DecidableEq α] {i : Instr} {s t : State} {f : State → α} {v : α} (h : steps i s t)
    (hv : (nextState (exec i s)).map f = some v) : f t = v := by
  rw [h.2] at hv
  exact Option.some.inj hv

/-- A context whose fault ring's header ends at the last address: its second word is the word at address 0. -/
def wrapCtx : Ctx := { Ctx.reset with master := { CtxRegs.zero with fring := 0xFFFFFFFFFFFFFFFC } }

/-- A syscall is pending at entry 0 of core 0, whose landing entries stand at address 0, and the ring, whose size is the word at
address 4, has one place, which is free. -/
def wrapped : State :=
  { State.reset with
    mem := [(4, 1)]
    cores := [(0, { Core.reset with landing := [(0, { Landing.free with state := .pending, cause := Cause.syscall })] })]
    ctxs := [(0, wrapCtx)] }

/-- Refutes O49: the ring at 2^64 - 4 has its size at address 4 (the addresses wrap round), inside the landing entry that
the service writes before it looks at the ring; so the entry's write makes the ring one of no places, and nothing is posted. -/
theorem not_servicesAct : ¬Obligations.ServicesAct := by
  unfold Obligations.ServicesAct
  rintro ⟨-, hmsg, -⟩
  obtain ⟨-, hpost⟩ := (hmsg wrapped 0 0 0 .syscall ⟨0, 0, 1⟩ (by decide) (by decide)).1 (by decide +kernel)
    (by decide +kernel) (by decide +kernel)
  obtain ⟨t, ht, -, hprod, -⟩ := hpost (by decide +kernel) (by decide +kernel) (by decide +kernel) (by decide +kernel)
    (by unfold spansApart; decide +kernel)
  have hstill : t.read32 0xFFFFFFFFFFFFFFFC = 0 := of_steps (f := fun t => t.read32 0xFFFFFFFFFFFFFFFC) ht (by decide +kernel)
  exact absurd (hstill.symm.trans hprod) (by decide)

end Sys2Proof.Proofs
end

section
/-! SUPPORT. A division that spills a slot whose landing entry lies beyond the table (O15). -/

namespace Sys2Proof.Proofs

open Sys2Proof Machine Laws Forms Statements

/-- The two slots of the counterexample: no reconvergence address, lanes that no other slot has. -/
def strandSlot (k : SlotState) (pc : Word) (m : Mask) : Slot := { Slot.empty with state := k, pc := pc, mask := m }

/-- A landing entry's number that puts its 320 bytes, from address 0 on, into a peer's memory. -/
def farEntry : Nat := 3518437208884

/-- A group whose slot 0 stands at a `brx` that only lane 0 takes, and whose slot 1 stands parked, with a landing entry far
beyond the 2048 of its core. The stack's page is in the translation cache, so that nothing but the entry is written. -/
def strandGroup : Group :=
  { Group.none with live := true, pool := 1, v := [(0, 1)], slot0 := strandSlot .ready 0 3, slot1 := strandSlot .parked 8 4 }

def strandCore : Core :=
  { Core.reset with
    groups := [(0, strandGroup)]
    teams := [(0, Team.none)]
    landing := [(farEntry, { Landing.free with state := .pending, place := .slot1 })]
    dirty := [(320 * farEntry, ⟨1, [0], false⟩)]
    tlb := [(0x400, ⟨1, 0, 0x7F, 0, 0x180000⟩)] }

def strand : State :=
  { State.reset with
    cores := [(0, strandCore)]
    ctxs := [(0, { Ctx.reset with exists_ := true, master := { CtxRegs.zero with ptroot := 1 } })]
    cur := ⟨0, 0, 0⟩ }

def strandJump : Jump := ⟨.on false 0 0, 0x68, 0x68⟩

def strandPlace : Where := ⟨0x180000, true, ⟨0x7F, 0, 0, 0x180000⟩⟩

theorem pushPlaces_strand : pushPlaces [strandPlace] := by
  unfold pushPlaces
  decide +kernel

theorem landsNear_strand : landsNear strand := by
  unfold landsNear
  decide +kernel

theorem canSpill_strand : canSpill strand := fun _ => by decide +kernel

/-- Refutes O15: where the entry of the spilled slot lies in a peer that does not answer, telling it its new place leaves the
group a fabric error to report, which the statement's frame excludes. -/
theorem not_divergencePushes : ¬Obligations.DivergencePushes := by
  unfold Obligations.DivergencePushes
  rintro ⟨hbrx, -⟩
  let u := (strand.checkPushes (strand.agent 0 0 0) 0 0 1).1
  obtain ⟨hpushed, -⟩ := hbrx strand u strandJump 0 (by decide +kernel) (by decide +kernel) canSpill_strand
  obtain ⟨t, ht, -, hme, -⟩ := hpushed [strandPlace] (Prod.ext (by decide +kernel) (by decide +kernel)) pushPlaces_strand
    landsNear_strand
  have hlost : t.me.fabPend = true :=
    of_steps (i := .brx strandJump) (f := fun t => t.me.fabPend) ⟨by decide +kernel, ht⟩ (by decide +kernel)
  have hkept : t.me.fabPend = strand.me.fabPend := by rw [hme]
  exact absurd (hkept.symm.trans hlost) (by decide +kernel)

end Sys2Proof.Proofs
end

section
/-! SUPPORT. A waiting slot whose refused pop makes the entry that it could not read (O16). -/

namespace Sys2Proof.Proofs

open Sys2Proof Machine Laws Forms Statements

/-- A slot waits at its reconvergence address, which is its own place. -/
def clashSlot : Slot := { Slot.empty with state := .wait, pc := 64, rcv := 64, mask := 1 }

def clashGroup : Group := { Group.none with live := true, pool := 1, slot0 := clashSlot, depth := 1 }

/-- Its stack, of one entry, begins at 0x40000; the words TID and LAUNCH of a landing entry of the team read as the mask, the
kind and the state of a parked SLOT entry. -/
def clashTeam : Team := { Team.none with lss := 0, tid := 1, launch := 0x201 }

def clashHeld : Landing := { Landing.free with state := .held, gslot := 1 }

def clashStray : Landing := { Landing.free with state := .pending, place := .spilled 0 }

/-- Entry 0 is FREE, and listed a second time; the others are HELD. -/
def clashLanding : Store Landing :=
  (0, Landing.free) :: (0, clashStray) :: (List.range 2047).map fun j => (j + 1, clashHeld)

/-- The landing entries begin 20 bytes before the frame of the stack. -/
def clashCore : Core :=
  { Core.reset with
    groups := [(0, clashGroup)]
    teams := [(0, clashTeam)]
    landing := clashLanding
    landbase := 0x17FFEC
    tlb := [(0x40, ⟨1, 0, 0x7F, 0, 0x180000⟩)] }

def clash : State :=
  { State.reset with
    cores := [(0, clashCore)]
    ctxs := [(0, { Ctx.reset with exists_ := true, master := { CtxRegs.zero with ptroot := 1 } })]
    cur := ⟨0, 0, 0⟩ }

/-! ### The looks -/

theorem settleGroup_look {s t : State} {c g : Nat} (k : Nat) (h : s.look c g = some t) :
    s.settleGroup c g (k + 1) = t.settleGroup c g k := by
  rw [State.settleGroup, h]

/-- A top entry that is of neither kind refuses the waiting slot its pop. -/
theorem tryComplete_refused {s u : State} {c g n : Nat} {e : StackEntry} (hw : ((s.group c g).slot n).state = .wait)
    (ho : ((s.group c g).slot (other n)).state = .empty) (hd : (s.group c g).depth ≠ 0) (hr : s.readTop c g n = (u, .ok e))
    (h1 : e.kind ≠ 1#8) (h2 : e.kind ≠ 2#8) : s.tryComplete c g n = some (u.popRefused c g n Cause.illegal) := by
  unfold State.tryComplete
  dsimp only
  simp [hw, ho, hd, hr, h1, h2]

theorem look_of_tryComplete {s t : State} {c g : Nat} (h0 : (s.enterWait c g 0).isNone = true)
    (h1 : (s.enterWait c g 1).isNone = true) (hm : (s.merge c g).isNone = true) (hd : (s.discard c g).isNone = true)
    (h : s.tryComplete c g 0 = some t) : s.look c g = some t := by
  rw [Option.isNone_iff_eq_none] at h0 h1 hm hd
  rw [State.look, h0, h1, hm, hd, h]
  rfl

theorem parkWhole_user {s : State} {c g n : Nat} (hg : g ≠ Config.supervisorSlot) (ts : List LaneTrap) (acc : Access) :
    s.parkWhole c g n ts acc
      = ((s.withdraw c g n).onGroup c g fun x => x.onSlot n fun y => y.park y.mask).land c g n ts acc := if_neg hg

/-! ### The entry that is FREE -/

/-- What is read where a key is listed, and only ever with one value. -/
theorem get_of_all {α : Type} {s : Store α} {d v : α} {j : Nat} (h : ∀ e ∈ s, e.2 = v) (hj : j ∈ s.map (·.1)) :
    s.get d j = v := by
  induction s with
  | nil => cases hj
  | cons e r ih =>
    obtain ⟨k, w⟩ := e
    by_cases hk : k = j
    · have : w = v := h (k, w) List.mem_cons_self
      simp [Store.get, Store.find?, hk, this]
    · have hr : j ∈ r.map (·.1) := (List.mem_cons.mp hj).resolve_left (Ne.symm hk)
      rw [← ih (fun e he => h e (List.mem_cons_of_mem _ he)) hr]
      simp [Store.get, Store.find?, Ne.symm hk]

theorem get_clashLanding {j : Nat} (hj : j < 2048) (h0 : j ≠ 0) : clashLanding.get Landing.free j = clashHeld := by
  have hrest : clashLanding.get Landing.free j
      = Store.get Landing.free ((List.range 2047).map fun j => (j + 1, clashHeld)) j := by
    simp [clashLanding, Store.get, Store.find?, h0]
  rw [hrest]
  refine get_of_all (fun e he => ?_) ?_
  · obtain ⟨i, -, rfl⟩ := List.mem_map.mp he
    rfl
  · exact List.mem_map.mpr ⟨_, List.mem_map.mpr ⟨j - 1, List.mem_range.mpr (by omega), rfl⟩, by dsimp only; omega⟩

/-- Whatever the device likes best, entry 0 is what it takes. -/
theorem pick_of_clashLanding {s : State} (h : (s.core 0).landing = clashLanding) :
    s.pick 0 ((List.range 2048).filter fun i => (s.entry 0 i).state == .free) = some 0 := by
  have hm : 0 ∈ (List.range 2048).filter fun i => (s.entry 0 i).state == .free := by
    refine List.mem_filter.mpr ⟨by simp, ?_⟩
    rw [State.entry, h]
    rfl
  obtain ⟨i, hi⟩ := Option.isSome_iff_exists.mp (pick_isSome s 0 (List.ne_nil_of_mem hm))
  obtain ⟨hr, hs⟩ := List.mem_filter.mp (pick_mem hi)
  rw [hi]
  by_contra h0
  rw [State.entry, h, get_clashLanding (List.mem_range.mp hr) (fun e => h0 (by rw [e]))] at hs
  cases hs

/-! ### The run -/

/-- What the top of the stack reads as: no entry. -/
def clashTop : StackEntry := ⟨0, false, 0, 0, 0, 0, 0⟩

def clashRead : State := (clash.readTop 0 0 0).1

/-- Slot 0 stands parked, and its entry is still to be written. -/
def clashParked : State :=
  (clashRead.withdraw 0 0 0).onGroup 0 0 fun x => x.onSlot 0 fun y => y.park y.mask

def clashLanes : List LaneTrap := everyLane 1 Cause.illegal 0

/-- Its entry is written, at entry 0. -/
def clashLanded : State :=
  writeLanding clashParked 0 0 0 (landed clashParked 0 0 .slot0 (clashSlot.park 1).entry clashLanes .stack)

theorem clash_readTop : clash.readTop 0 0 0 = (clashRead, .ok clashTop) := Prod.ext rfl (by decide +kernel)

theorem popRefused_clash : clashRead.popRefused 0 0 0 Cause.illegal = clashLanded := by
  have hg : ((clashRead.group 0 0).slot 0).mask = 1 := by decide +kernel
  have hy : ((clashParked.group 0 0).slot 0).entry = (clashSlot.park 1).entry := by decide +kernel
  have ha : (clashParked.group 0 0).asid = 0 := by decide +kernel
  have ht : (clashLanded.ctx 0).dbg.trcfg.getLsbD 10 = false := by decide +kernel
  calc clashRead.popRefused 0 0 0 Cause.illegal
      = clashRead.parkWhole 0 0 0 (everyLane ((clashRead.group 0 0).slot 0).mask Cause.illegal 0) .stack := rfl
    _ = clashParked.landAt 0 0 .slot0 ((clashParked.group 0 0).slot 0).entry clashLanes .stack := by
      rw [parkWhole_user (by decide), hg]; rfl
    _ = clashLanded := by
      rw [hy, landAt_eq (pick_of_clashLanding (by decide +kernel)) (by decide +kernel), ha]
      exact if_neg (by rw [← clashLanded, ht]; decide)

theorem look_clash : clash.look 0 0 = some clashLanded := by
  refine look_of_tryComplete (by decide +kernel) (by decide +kernel) (by decide +kernel) (by decide +kernel) ?_
  rw [tryComplete_refused (by decide +kernel) (by decide +kernel) (by decide +kernel) clash_readTop (by decide) (by decide),
    popRefused_clash]

theorem exec_reconvergenceCheck {s : State} {c g : Nat} (hc : c < 192) (hg : g < 64) (hl : (s.group c g).live = true) :
    exec (.reconvergenceCheck c g) s = .next (s.settleGroup c g settleFuel) := by
  rw [show exec (.reconvergenceCheck c g) s = execReconvergenceCheck c g s from rfl, execReconvergenceCheck,
    happen_eq _ _ _ (by simp [wellFormed, hc, hg]), if_pos hl]

theorem exec_clash : exec (.reconvergenceCheck 0 0) clash = .next (clashLanded.settleGroup 0 0 1099) := by
  rw [exec_reconvergenceCheck (by decide) (by decide) (by decide +kernel), settleFuel, settleGroup_look 1099 look_clash]

theorem place_clash : ((clashLanded.settleGroup 0 0 1099).entry 0 0).place = .slot1 := by
  decide +kernel

theorem not_free_clash {i : Nat} (hi : i < 2048) (hf : (clash.entry 0 i).state = .free) : i = 0 := by
  by_contra h0
  have he : clash.entry 0 i = clashHeld := get_clashLanding hi h0
  rw [he] at hf
  cases hf

theorem clash_peekStack : clash.peekStack 0 0 0 = .ok (⟨0x180000, true, ⟨0x7F, 0, 0, 0x180000⟩⟩, clashTop) := by decide +kernel

theorem clash_kept (w : Where) (e : StackEntry) (h : clash.peekStack 0 0 0 = .ok (w, e)) : e.kind ≠ 1 ∨ e.mask ≠ 0 := by
  rw [clash_peekStack] at h
  cases h
  decide

/-- Refutes O16: a refused pop makes a landing entry, whose bytes may be those of the stack's top; the team's words there then
read as a parked SLOT entry, which comes into the EMPTY slot in the same check, and the entry that is told so, where one is listed
twice, is the new one: its place is slot 1. -/
theorem not_divergencePops : ¬Obligations.DivergencePops := by
  unfold Obligations.DivergencePops
  intro h
  obtain ⟨-, -, -, -, -, -, hrefused⟩ := h clash 0 0 (by decide) (by decide) (by decide +kernel)
  obtain ⟨t, ⟨-, ht⟩, -, -, -, i, hi, hf, -, -, -, -, hplace, -⟩ := hrefused clashRead Cause.illegal 0 (by decide +kernel)
    (by decide +kernel) (by decide +kernel) clash_kept (by decide +kernel) (by decide +kernel) ⟨0, by decide, by decide +kernel⟩
    (.inr ⟨clashTop, clash_readTop, by decide, .inl (by decide), rfl, rfl⟩)
  rw [not_free_clash hi hf, ← Option.some.inj (congrArg nextState (exec_clash.symm.trans ht)), place_clash] at hplace
  cases hplace

end Sys2Proof.Proofs
end

section
/-! SUPPORT. A group's allotment of registers, accumulators and streams (R49, R106, R107). -/

namespace Sys2Proof.Proofs

open Sys2Proof Machine Laws Forms Statements

theorem active_always (x : Group) (m : Mask) : x.active m .always = m := rfl

theorem slotWentOn_of_wentOn {i : Instr} {s t : State} (h : s.wentOn t (s.nextPc i)) : slotWentOn i s t := by
  obtain ⟨hc, hs, hp, hm, hr, -⟩ := h
  exact ⟨hc, hs, hp, hr, hm⟩

/-! ### grow -/

theorem grow_waits {s : State} {p : Pool} {a : Src} {x : Ext} (hi : issuable (.grow p a x) s = true)
    (hn : s.neverGranted s.cur.core s.cur.gslot p (s.me.growCount a x) = false)
    (hq : s.request? s.cur.core s.cur.gslot s.cur.slot = none) :
    exec (.grow p a x) s = .next ((s.onCore s.cur.core fun k =>
      { k with grows := k.grows ++ [⟨s.cur.gslot, s.cur.slot, p, s.me.growCount a x⟩] }).block .zero (Instr.grow p a x).bytes
        s.mySlot.mask) := by
  show execGrow p a x s = _
  rw [execGrow, issue_eq _ _ _ _ _ hi, active_always, if_neg (by simpa using issuable_mask hi)]
  dsimp only
  rw [hq, hn]
  rfl

theorem core_block (s : State) (w : WaitRec) (len : Nat) (act : Mask) :
    (s.block w len act).core s.cur.core = { s.core s.cur.core with groups := ((s.block w len act).core s.cur.core).groups } :=
  core_onGroup _ _ _ _ _

theorem me_block (s : State) (w : WaitRec) (len : Nat) (act : Mask) : (s.block w len act).me =
    s.me.onSlot s.cur.slot fun x => { x.quiet s.nextTag with state := .blocked, wait := w, len := len, act := act } :=
  group_onGroup_same _ _ _ _

theorem me_onCore {s : State} {f : Core → Core} (h : (f (s.core s.cur.core)).groups = (s.core s.cur.core).groups) :
    (s.onCore s.cur.core f).me = s.me := by
  show (s.onCore s.cur.core f).group s.cur.core s.cur.gslot = _
  rw [State.group, core_onCore_same, h]
  rfl

/-- A slot that waits inside its instruction, once something of its core has changed. -/
theorem waits_block {s : State} {f : Core → Core} {w : WaitRec} {len : Nat} {q : GrowReq}
    (hq : q ∈ (f (s.core s.cur.core)).grows) (hg : (f (s.core s.cur.core)).groups = (s.core s.cur.core).groups) :
    let t := (s.onCore s.cur.core f).block w len s.mySlot.mask
    t.cur = s.cur ∧ t.mySlot.state = .blocked ∧ t.mySlot.pc = s.mySlot.pc ∧ t.mySlot.mask = s.mySlot.mask
      ∧ s.me.sameRegs t.me ∧ q ∈ (t.core s.cur.core).grows := by
  have hm := me_block (s.onCore s.cur.core f) w len s.mySlot.mask
  have hc := core_block (s.onCore s.cur.core f) w len s.mySlot.mask
  rw [me_onCore hg] at hm
  intro t
  have hy : t.mySlot = { s.mySlot.quiet s.nextTag with state := .blocked, wait := w, len := len, act := s.mySlot.mask } := by
    show t.me.slot s.cur.slot = _
    rw [hm]
    exact slot_onSlot_same _ _ _
  refine ⟨rfl, by rw [hy], by rw [hy]; rfl, by rw [hy]; rfl, ?_, ?_⟩
  · rw [hm]
    exact onSlot_rest _ _ _
  · rw [show t.core s.cur.core = _ from hc, show (s.onCore s.cur.core f).cur.core = s.cur.core from rfl, core_onCore_same]
    exact hq

/-! ### The grant -/

/-- The slot of a request, which goes on once it is granted. -/
def grantedSlot (s : State) (c : Nat) (q : GrowReq) : Slot :=
  let y := (s.group c q.gslot).slot q.slot
  y.go (y.pc + BitVec.ofNat 64 (s.waitLen c q.gslot y)) y.mask s.turn

/-- The state that a grant leaves. -/
def grantedTo (s : State) (c : Nat) (q : GrowReq) : State :=
  let u := (s.onCore c fun k => { k with grows := k.grows.erase q }).onGroup c q.gslot fun g =>
    (g.granted q.pool q.count).setSlot q.slot (grantedSlot s c q)
  (u.count c (u.group c q.gslot).asid 0 1).alive (u.group c q.gslot).asid

theorem exec_growGrant {s : State} {c k : Nat} {q : GrowReq} (hc : c < 192) (hk : k < 3)
    (hq : (s.core c).grows.find? (fun q => poolIs q.pool k && s.grantable c q) = some q)
    (hn : s.neverGranted c q.gslot q.pool q.count = false) (hg : (s.core c).canGrant q.pool q.count = true) :
    exec (.growGrant c k) s = .next (grantedTo s c q) := by
  show execGrowGrant c k s = _
  rw [execGrowGrant, happen_eq _ _ _ (by simp [wellFormed, hc, hk]), hq]
  dsimp only
  rw [hn, hg]
  rfl

theorem core_onCtx (s : State) (c a : Nat) (f : Ctx → Ctx) : (s.onCtx a f).core c = s.core c := rfl

theorem core_grantedTo (s : State) (c : Nat) (q : GrowReq) :
    ((grantedTo s c q).core c).grows = (s.core c).grows.erase q := by
  rw [grantedTo, State.alive, core_onCtx, State.count, core_onCore_same, core_onGroup, core_onCore_same]

theorem group_grantedTo (s : State) (c : Nat) (q : GrowReq) : (grantedTo s c q).group c q.gslot
    = ((s.group c q.gslot).granted q.pool q.count).setSlot q.slot (grantedSlot s c q) := by
  have hc : ∀ (u : State) (a : Nat), ((u.count c a 0 1).alive a).group c q.gslot = u.group c q.gslot := fun u a => by
    rw [State.group, State.alive, core_onCtx, State.count, core_onCore_same]
    rfl
  have hd : (s.onCore c fun k => { k with grows := k.grows.erase q }).group c q.gslot = s.group c q.gslot := by
    rw [State.group, core_onCore_same]
    rfl
  rw [grantedTo, hc, group_onGroup_same, hd]

theorem getLsbD_or_twoPow_same (h : BitVec 4) (k : BitVec 2) : (h ||| BitVec.twoPow 4 k.toNat).getLsbD k.toNat = true := by
  simp [k.isLt]

/-- What stands in the pool that a grant gives. -/
def pooled (g h : Group) (p : Pool) (n : Nat) : Prop :=
  match p with
  | .regs => h.pool = g.pool + n
      ∧ ∀ k l, l < 32 → h.vreg k l = if g.pool ≤ k ∧ k < g.pool + n then 0 else g.vreg k l
  | .acc a => h.accHeld.getLsbD a.toNat = true ∧ ∀ r col, r < 32 → col < 32 → h.accAt a.toNat r col = 0
  | .stream a => h.strHeld.getLsbD a.toNat = true ∧ h.streams.find? a.toNat = none

theorem vreg_granted (g : Group) (n k l : Nat) (hl : l < 32) :
    (g.granted .regs n).vreg k l = if g.pool ≤ k ∧ k < g.pool + n then 0 else g.vreg k l := by
  have hw : (32 * g.pool ≤ 32 * k + l ∧ 32 * k + l < 32 * (g.pool + n)) ↔ g.pool ≤ k ∧ k < g.pool + n := by omega
  simp only [Group.vreg, Group.granted, Store.get]
  rw [find_keep _ _ (fun k => !(32 * g.pool ≤ k && k < 32 * (g.pool + n))) (fun _ _ => rfl)]
  by_cases h : g.pool ≤ k ∧ k < g.pool + n
  · simp [h, hw.mpr h]
  · rw [if_pos (by simp; omega), if_neg h]

theorem accAt_granted (g : Group) (a : BitVec 2) (n r col : Nat) (hr : r < 32) (hc : col < 32) :
    (g.granted (.acc a) n).accAt a.toNat r col = 0 := by
  simp only [Group.accAt, Group.granted, Store.get]
  rw [find_keep _ _ (fun i => i / 1024 != a.toNat) (fun _ _ => rfl), if_neg]
  · rfl
  · simp; omega

theorem pooled_granted (g : Group) (p : Pool) (n : Nat) : pooled g (g.granted p n) p n := by
  cases p with
  | regs => exact ⟨rfl, fun k l hl => vreg_granted g n k l hl⟩
  | acc a =>
    refine ⟨?_, fun r col hr hc => accAt_granted g a n r col hr hc⟩
    exact getLsbD_or_twoPow_same _ _
  | stream a =>
    refine ⟨?_, find_erase_same _ _⟩
    exact getLsbD_or_twoPow_same _ _

theorem pooled_setSlot {g h : Group} {p : Pool} {n m : Nat} {y : Slot} (hp : pooled g h p n) : pooled g (h.setSlot m y) p n := by
  have e := sameRegs_setSlot h m y
  unfold Group.sameRegs at e
  rw [e]
  cases p <;> exact hp

/-! ### shrink -/

/-- A `shrink` that may return what it names does so, and the slot goes on. -/
theorem exec_shrink {s : State} {p : Pool} {a : Src} {x : Ext} (hi : issuable (.shrink p a x) s = true)
    (hr : p = .regs → s.me.growCount a x ≠ 0 ∧ s.me.growCount a x % 16 = 0 ∧ 32 + s.me.growCount a x ≤ s.me.pool
      ∧ s.usesReturned (s.me.growCount a x) = false)
    (ha : ∀ k, p = .acc k → s.accBusy s.cur.core s.cur.gslot k.toNat = false)
    (hs : ∀ k, p = .stream k → s.streamBusy s.cur.core s.cur.gslot k.toNat = false) :
    ∃ t, exec (.shrink p a x) s = .next t ∧ slotWentOn (.shrink p a x) s t ∧ s.elsewhereSame t
      ∧ (s.me.shrunk p (s.me.growCount a x)).sameRegs t.me := by
  have h : exec (.shrink p a x) s = .next ((s.onMe fun g => g.shrunk p (s.me.growCount a x)).advance (.shrink p a x)) := by
    show execShrink p a x s = _
    rw [execShrink.eq_def, issue_eq _ _ _ _ _ hi, active_always, if_neg (by simpa using issuable_mask hi)]
    dsimp only
    cases p with
    | regs =>
      obtain ⟨h0, h16, h32, hu⟩ := hr rfl
      rw [if_neg (by simp [h0, h16]; omega), if_neg (by simp), if_neg (by simp [hu])]
    | acc k => rw [if_neg (by simp), if_neg (by simp [ha k rfl]), if_neg (by simp)]
    | stream k => rw [if_neg (by simp), if_neg (by simp [hs k rfl]), if_neg (by simp)]
  obtain ⟨hw, hm, he⟩ := advance_onMe s (.shrink p a x) (fun g => g.shrunk p (s.me.growCount a x)) (by cases p <;> rfl)
    (by cases p <;> rfl)
  exact ⟨_, h, slotWentOn_of_wentOn hw, he, hm⟩

theorem vreg_shrunk (g : Group) {n k l : Nat} (hl : l < 32) (hk : k < g.pool - n) : (g.shrunk .regs n).vreg k l = g.vreg k l := by
  simp only [Group.vreg, Group.shrunk, Store.get]
  rw [find_keep _ _ (fun k => k < 32 * (g.pool - n)) (fun _ _ => rfl), if_pos (by simp; omega)]

/-- Bit `j` of what is held once bit `k` is given up. -/
theorem getLsbD_and_not_twoPow (h : BitVec 4) (j k : BitVec 2) :
    (h &&& ~~~(BitVec.twoPow 4 k.toNat)).getLsbD j.toNat = (h.getLsbD j.toNat && j != k) := by
  have hj : j.toNat < 4 := j.isLt
  have hk : (j != k) = !decide (j.toNat = k.toNat) := by
    by_cases e : j = k
    · simp [e]
    · have hne : j.toNat ≠ k.toNat := fun h => e (BitVec.eq_of_toNat_eq h)
      simp [e, hne]
  simp [hj, hk]

/-- Settles O37: a request joins the queue, a grant gives the oldest what it asks for, and a `shrink` keeps what it does not
name. -/
theorem allotmentChanges : Obligations.AllotmentChanges := by
  unfold Obligations.AllotmentChanges
  refine ⟨fun s => ⟨?_, ?_⟩, fun s a x => ⟨?_, ?_, ?_⟩⟩
  · intro p a x n hi hn hq
    refine ⟨_, grow_waits hi hn hq, ?_⟩
    exact waits_block (List.mem_append_right _ (List.mem_singleton_self _)) rfl
  · intro c k q hc hk hq hn hg y
    refine ⟨_, exec_growGrant hc hk hq hn hg, core_grantedTo s c q, ?_⟩
    rw [group_grantedTo, slot_setSlot_same]
    refine ⟨rfl, rfl, fun hl => ?_, ?_⟩
    · rw [grantedSlot, State.waitLen, if_pos (by simpa using hl)]
      rfl
    · exact pooled_setSlot (pooled_granted (s.group c q.gslot) q.pool q.count)
  · intro n hi hu h0 h16 h32
    obtain ⟨t, ht, hw, he, hm⟩ := exec_shrink hi (fun _ => ⟨by omega, h16, h32, hu⟩) nofun nofun
    refine ⟨t, ht, hw, he, ?_⟩
    rw [hm]
    exact ⟨rfl, rfl, rfl, rfl, fun k l hl hk => vreg_shrunk _ hl hk⟩
  · intro k hi hb
    obtain ⟨t, ht, hw, he, hm⟩ := exec_shrink hi nofun (fun k h => by cases h; exact hb) nofun
    refine ⟨t, ht, hw, he, ?_⟩
    rw [hm]
    exact ⟨fun j => getLsbD_and_not_twoPow _ _ _, rfl, rfl, rfl⟩
  · intro k hi hb
    obtain ⟨t, ht, hw, he, hm⟩ := exec_shrink hi nofun nofun fun k h => by cases h; exact hb
    refine ⟨t, ht, hw, he, ?_⟩
    rw [hm]
    exact ⟨fun j => getLsbD_and_not_twoPow _ _ _, rfl, rfl, rfl⟩

end Sys2Proof.Proofs
end

section
/-! SUPPORT. What moves bytes to the stacked cache, to memory and over the fabric leaves of the cores and of their groups (R214 to
R217, R330, R335), and what the end of a lane leaves of them (R99, R100). -/

namespace Sys2Proof.Proofs

open Sys2Proof Machine Laws Forms Statements

/-! ### What stays when bytes move -/

/-- Between two states the issuer stays, of a core only its caches, its counters and its groups differ, and of a group only the
record of a fabric error. -/
structure Aside (s t : State) : Prop where
  cur : t.cur = s.cur
  core : ∀ d, t.core d = { s.core d with
    groups := (t.core d).groups, clean := (t.core d).clean, dirty := (t.core d).dirty, icache := (t.core d).icache,
    tlb := (t.core d).tlb, counters := (t.core d).counters }
  group : ∀ c g, t.group c g = { s.group c g with fabAddr := (t.group c g).fabAddr, fabPend := (t.group c g).fabPend }

/-- A core whose caches and counters alone differ. -/
abbrev Core.alike (k l : Core) : Prop :=
  l = { k with clean := l.clean, dirty := l.dirty, icache := l.icache, tlb := l.tlb, counters := l.counters }

theorem find_mapAll {α : Type} (s : Store α) (f : Nat → α → α) (j : Nat) : (s.mapAll f).find? j = (s.find? j).map (f j) := by
  induction s with
  | nil => rfl
  | cons e r ih =>
    obtain ⟨k, w⟩ := e
    show Store.find? ((k, f k w) :: Store.mapAll r f) j = _
    rw [Store.find?, Store.find?, ih]
    split
    · rename_i h
      rw [h]; rfl
    · rfl

/-- What is read of a table changed throughout: an entry changed, or one that is not listed. -/
theorem get_mapAll {α : Type} {d : α} {f : Nat → α → α} {p : α → α → Prop} (hd : p d d) (h : ∀ j v, p v (f j v))
    (s : Store α) (j : Nat) : p (s.get d j) ((s.mapAll f).get d j) := by
  rw [Store.get, Store.get, find_mapAll]
  cases s.find? j with
  | none => exact hd
  | some v => exact h j v

section Aside

variable {s t u : State}

theorem aside_refl (s : State) : Aside s s := ⟨rfl, fun _ => rfl, fun _ _ => rfl⟩

theorem aside_trans (h : Aside s t) (k : Aside t u) : Aside s u :=
  ⟨k.cur.trans h.cur, fun d => by rw [k.core d, h.core d], fun c g => by rw [k.group c g, h.group c g]⟩

/-- Where the cores are the same, whatever else differs. -/
theorem aside_of_cores (hc : t.cur = s.cur) (h : t.cores = s.cores) : Aside s t := by
  have hd : ∀ d, t.core d = s.core d := fun d => by rw [State.core, State.core, h]
  exact ⟨hc, fun d => by rw [hd d], fun c g => by rw [State.group, State.group, hd c]⟩

theorem aside_foldl {α : Type} {f : State → α → State} (h : ∀ s x, Aside s (f s x)) (l : List α) (s : State) :
    Aside s (l.foldl f s) := by
  induction l generalizing s with
  | nil => exact aside_refl s
  | cons x l ih => exact aside_trans (h s x) (ih _)

/-- Where the cores that differ do so in their caches and counters. -/
theorem aside_of_alike (hc : t.cur = s.cur) (h : ∀ d, Core.alike (s.core d) (t.core d)) : Aside s t :=
  ⟨hc, fun d => by rw [h d], fun c g => by rw [State.group, State.group, h c]⟩

theorem aside_setCore {c : Nat} {k : Core} (h : Core.alike (s.core c) k) : Aside s (s.setCore c k) := by
  refine aside_of_alike rfl fun d => ?_
  rw [core_setCore]
  split
  · rename_i hd
    rwa [hd]
  · rfl

theorem aside_onCore {c : Nat} {f : Core → Core} (h : ∀ k, Core.alike k (f k)) : Aside s (s.onCore c f) := aside_setCore (h _)

theorem aside_onGroup {c g : Nat} {f : Group → Group}
    (h : ∀ x, f x = { x with fabAddr := (f x).fabAddr, fabPend := (f x).fabPend }) : Aside s (s.onGroup c g f) := by
  refine ⟨rfl, fun d => by rw [core_onGroup], fun d k => ?_⟩
  rw [group_onGroup]
  split
  · rename_i hd
    obtain ⟨rfl, rfl⟩ := hd
    exact h _
  · rfl

/-- A core of a machine whose cores are changed throughout. -/
theorem core_mapCores {f : Nat → Core → Core} {p : Core → Core → Prop} (hd : ∀ k, p k k) (h : ∀ j k, p k (f j k))
    (d : Nat) : p (s.core d) (State.core { s with cores := s.cores.mapAll f } d) := get_mapAll (hd _) h s.cores d

theorem aside_mapCores {f : Nat → Core → Core} (h : ∀ d k, Core.alike k (f d k)) :
    Aside s { s with cores := s.cores.mapAll f } :=
  aside_of_alike rfl (core_mapCores (p := Core.alike) (fun _ => rfl) h)

end Aside

/-! ### Bytes that are performed and published (R214, R217, R335) -/

theorem aside_dropLineAll (s : State) (line : Nat) : Aside s (s.dropLineAll line) := by
  unfold State.dropLineAll
  exact aside_mapCores fun _ _ => rfl

theorem aside_failSector (s : State) (sec : Nat) (ws : List (Nat × Nat)) : Aside s (s.failSector sec ws) := by
  refine aside_trans (t := ({ s with peerDirty := s.peerDirty.keep fun pa _ => pa / 128 != sec / 4 }.dropPeerLine
    (sec / 4)).dropLineAll (sec / 4)) ?_ (aside_foldl (fun s w => aside_onGroup fun x => ?_) _ _)
  · refine aside_trans ?_ (aside_dropLineAll _ _)
    exact aside_of_cores rfl rfl
  · unfold Group.fabricError
    split <;> rfl

theorem aside_performByte (s : State) (pa : Nat) (b : Byte) (ws : List (Nat × Nat)) : Aside s (s.performByte pa b ws) := by
  unfold State.performByte
  split
  · exact aside_failSector _ _ _
  · split
    · exact aside_of_cores rfl rfl
    · dsimp only
      split <;> exact aside_of_cores rfl rfl

theorem aside_publishByte (s : State) (c pa : Nat) : Aside s (s.publishByte c pa) := by
  unfold State.publishByte
  dsimp only
  split
  · exact aside_refl s
  · exact aside_trans (aside_setCore (by rfl)) (aside_performByte _ _ _ _)

theorem aside_publishSector (s : State) (c sec : Nat) : Aside s (s.publishSector c sec) :=
  aside_foldl (fun s i => aside_publishByte s c (32 * sec + i)) _ _

theorem aside_publish (s : State) (c g : Nat) (p : Nat → Bool) : Aside s (s.publish c g p) :=
  aside_foldl (fun s x => aside_publishSector s c x) _ _

theorem aside_evictSector (s : State) (c sec : Nat) : Aside s (s.evictSector c sec) :=
  aside_trans (aside_publishSector _ _ _) (aside_onCore fun _ => by rfl)

theorem aside_deviceWrite (s : State) (pa : Nat) (bs : List Byte) : Aside s (s.deviceWrite pa bs) := by
  induction bs generalizing s pa with
  | nil => exact aside_refl s
  | cons b bs ih => exact aside_trans (aside_performByte _ _ _ _) (ih _ _)

theorem aside_onCtx (s : State) (a : Nat) (f : Ctx → Ctx) : Aside s (s.onCtx a f) := aside_of_cores rfl rfl

theorem aside_traceUnits (s : State) (a : Nat) (bs : List Byte) : Aside s (s.traceUnits a bs) := by
  unfold State.traceUnits
  exact aside_trans (aside_foldl (fun s i => aside_deviceWrite s _ _) _ _) (aside_onCtx _ _ _)

theorem aside_traceWrite (s : State) (a : Nat) (r : TraceRec) (bs : List Byte) : Aside s (s.traceWrite a r bs) := by
  unfold State.traceWrite
  dsimp only
  split
  · exact aside_refl s
  · generalize (if (s.ctx a).dbg.dropped = 0 then r.bytes ++ bs else _) = out
    split
    · exact aside_onCtx _ _ _
    · exact aside_trans (aside_traceUnits _ _ _) (aside_onCtx _ _ _)

theorem core_storeBytes (k : Core) (g pa : Nat) (sc : Bool) (bs : List Byte) :
    k.storeBytes g pa sc bs = { k with dirty := (k.storeBytes g pa sc bs).dirty } := by
  induction bs generalizing k pa with
  | nil => rfl
  | cons b bs ih => rw [Core.storeBytes, ih]; rfl

theorem aside_writeStack (s : State) (c g : Nat) (w : Where) (e : StackEntry) : Aside s (s.writeStack c g w e) := by
  refine aside_trans (aside_onCore fun k => ?_) (aside_foldl (fun s x => aside_publishSector s c x) _ _)
  rw [core_storeBytes]

/-! ### Requests (R329, R330) -/

theorem aside_sendRequest (s : State) (r : Request) : Aside s (s.sendRequest r) :=
  aside_trans (aside_foldl (fun _ _ => aside_onCore fun _ => by rfl) _ _) (aside_of_cores rfl rfl)

theorem aside_request (s : State) (o : Origin) (pa : Nat) (op : HomeOp) : Aside s (s.request o pa op) := by
  unfold State.request
  dsimp only
  split
  · cases op <;> exact aside_of_cores rfl rfl
  · refine aside_trans ?_ (aside_sendRequest _ _)
    cases op <;> exact aside_of_cores rfl rfl

theorem aside_askService (s : State) (c : Nat) (w : Want) (op : HomeOp) : Aside s (s.askService c w op) := by
  unfold State.askService
  dsimp only
  split
  · exact aside_refl s
  · exact aside_request _ _ _ _

theorem aside_writeBack (s : State) (sec : Nat) : Aside s (s.writeBack sec) := by
  unfold State.writeBack
  dsimp only
  split
  · exact aside_refl s
  · split
    · exact aside_failSector _ _ _
    · refine aside_trans ?_ (aside_request _ _ _ _)
      exact aside_of_cores rfl rfl

theorem aside_release (s : State) (c g : Nat) : Aside s (s.release c g) :=
  aside_trans (aside_publish _ _ _ _) (aside_foldl (fun s x => aside_writeBack s x) _ _)

/-! ### The lanes of a group are kept until it ends (R100) -/

/-- Between two states the issuer and the slots of every group stay. -/
def SameSlots (s t : State) : Prop := t.cur = s.cur ∧ ∀ c g n, (t.group c g).slot n = (s.group c g).slot n

theorem sameSlots_trans {s t u : State} (h : SameSlots s t) (k : SameSlots t u) : SameSlots s u :=
  ⟨k.1.trans h.1, fun c g n => (k.2 c g n).trans (h.2 c g n)⟩

theorem sameSlots_of_aside {s t : State} (h : Aside s t) : SameSlots s t :=
  ⟨h.cur, fun c g n => by rw [h.group c g]; rfl⟩

theorem sameSlots_onGroup (s : State) (c g : Nat) {f : Group → Group} (h : ∀ x n, (f x).slot n = x.slot n) :
    SameSlots s (s.onGroup c g f) := by
  refine ⟨rfl, fun d k n => ?_⟩
  rw [group_onGroup]
  split
  · rename_i hd
    obtain ⟨rfl, rfl⟩ := hd
    exact h _ n
  · rfl

theorem aside_addMsg (s : State) (a : Nat) (m : Msg) : Aside s (s.addMsg a m) := aside_of_cores rfl rfl

theorem sameSlots_postErrors (s : State) (c g : Nat) : SameSlots s (s.postErrors c g) := by
  unfold State.postErrors
  dsimp only
  refine sameSlots_trans (sameSlots_of_aside (aside_foldl (fun s m => aside_addMsg s _ m) _ _)) (sameSlots_onGroup _ _ _ ?_)
  exact fun _ _ => rfl

theorem sameSlots_tryEnd (s : State) (c g : Nat) : SameSlots s (s.tryEnd c g).1 := by
  unfold State.tryEnd
  dsimp only
  split
  · exact ⟨rfl, fun _ _ _ => rfl⟩
  · split
    · exact sameSlots_of_aside (aside_release _ _ _)
    · exact sameSlots_trans (sameSlots_of_aside (aside_release _ _ _)) (sameSlots_postErrors _ _ _)

/-! ### A group that has ended stays so -/

/-- Between two states no group begins or ends. -/
def SameLive (s t : State) : Prop := ∀ c g, (t.group c g).live = (s.group c g).live

section SameLive

variable {s t u : State}

theorem sameLive_refl (s : State) : SameLive s s := fun _ _ => rfl

theorem sameLive_trans (h : SameLive s t) (k : SameLive t u) : SameLive s u := fun c g => (k c g).trans (h c g)

theorem sameLive_of_aside (h : Aside s t) : SameLive s t := fun c g => by rw [h.group c g]

theorem sameLive_of_groups (h : ∀ d, (t.core d).groups = (s.core d).groups) : SameLive s t := fun c g => by
  rw [State.group, State.group, h c]

theorem sameLive_foldl {α : Type} {f : State → α → State} (h : ∀ s x, SameLive s (f s x)) (l : List α) (s : State) :
    SameLive s (l.foldl f s) := by
  induction l generalizing s with
  | nil => exact sameLive_refl s
  | cons x l ih => exact sameLive_trans (h s x) (ih _)

theorem sameLive_setSlot (s : State) (c g n : Nat) (y : Slot) : SameLive s (s.onGroup c g fun x => x.setSlot n y) := by
  intro d k
  rw [group_onGroup]
  split
  · rename_i hd
    obtain ⟨rfl, rfl⟩ := hd
    exact setSlot_live _ _ _
  · rfl

theorem sameLive_onCore {c : Nat} {f : Core → Core} (h : ∀ k, (f k).groups = k.groups) : SameLive s (s.onCore c f) := by
  refine sameLive_of_groups fun d => ?_
  rw [core_onCore]
  split
  · rename_i hd
    rw [hd, h]
  · rfl

end SameLive

theorem sameLive_waited (s : State) (c g : Nat) : SameLive s (s.waited c g) := by
  unfold State.waited
  refine sameLive_trans (t := s.count c (s.group c g).asid 0 1) (sameLive_onCore ?_) (sameLive_of_groups ?_)
  · exact fun _ => rfl
  · exact fun _ => rfl

theorem sameLive_waitOver (s : State) (c g n : Nat) : SameLive s (s.waitOver c g n) :=
  sameLive_trans (sameLive_setSlot _ _ _ _ _) (sameLive_waited _ _ _)

theorem sameLive_mapWaits (s : State) (c t : Nat) (p : WaitRec → Bool) (f : WaitRec → Option WaitRec) :
    SameLive s (s.mapWaits c t p f) := by
  have one : ∀ (s : State) (g n : Nat), SameLive s (
      if ((s.group c g).slot n).state == .blocked && p ((s.group c g).slot n).wait then
        match f ((s.group c g).slot n).wait with
        | some w => s.onGroup c g fun x => x.setSlot n { (s.group c g).slot n with wait := w }
        | none => s.waitOver c g n
      else s) := fun s g n => by
    split
    · split
      · exact sameLive_setSlot _ _ _ _ _
      · exact sameLive_waitOver _ _ _ _
    · exact sameLive_refl s
  unfold State.mapWaits
  refine sameLive_foldl (fun s x => ?_) _ _
  dsimp only
  refine sameLive_trans (sameLive_trans (one s x.1 0) (one _ x.1 1)) (sameLive_foldl (fun s y => ?_) _ _)
  split
  · exact sameLive_refl s
  · split
    · exact sameLive_refl s
    · split
      · exact sameLive_of_aside (aside_writeStack _ _ _ _ _)
      · exact sameLive_trans (sameLive_of_aside (aside_writeStack _ _ _ _ _)) (sameLive_waited _ _ _)

theorem sameLive_checkTeamBarrier (s : State) (c t : Nat) : SameLive s (s.checkTeamBarrier c t) := by
  unfold State.checkTeamBarrier
  dsimp only
  split
  · exact sameLive_refl s
  · split
    · split
      · exact sameLive_mapWaits _ _ _ _ _
      · exact sameLive_refl s
    · refine sameLive_foldl (fun s r => ?_) _ _
      split
      · exact sameLive_of_aside (aside_askService _ _ _ _)
      · exact sameLive_refl s

theorem sameLive_forwardsEnd (s : State) (c e : Nat) : SameLive s (s.forwardsEnd c e) := by
  refine sameLive_of_groups fun d => ?_
  unfold State.forwardsEnd
  refine core_mapCores (p := fun k l => l.groups = k.groups) (fun _ => rfl) ?_ d
  exact fun _ _ => rfl

theorem sameLive_setToken (s : State) (c e : Nat) (t : TokEntry) : SameLive s (s.setToken c e t) := by
  unfold State.setToken
  exact sameLive_onCore fun _ => rfl

theorem sameLive_makeOrphans (s : State) (l : Word) (tid : Nat) : SameLive s (s.makeOrphans l tid) := by
  have queue : ∀ (s : State) (a : Nat) (f : Ctx → Ctx), SameLive s (s.onCtx a f) := fun _ _ _ => sameLive_of_groups fun _ => rfl
  refine sameLive_foldl (fun s x => ?_) _ _
  dsimp only
  split
  · split
    · exact sameLive_trans (sameLive_setToken _ _ _ _) (sameLive_setToken _ _ _ _)
    · exact sameLive_trans (sameLive_setToken _ _ _ _) (queue _ _ _)
  · split
    · exact sameLive_trans (sameLive_setToken _ _ _ _) (queue _ _ _)
    · exact sameLive_refl s

theorem sameLive_onTeam (s : State) (c t : Nat) (f : Team → Team) : SameLive s (s.onTeam c t f) := by
  unfold State.onTeam State.setTeam
  exact sameLive_onCore fun _ => rfl

/-- The team's operations stand at no token entry any more. -/
def withoutOps (s : State) (c t : Nat) : State :=
  let x := s.team c t
  let u := s.makeOrphans x.launch x.tid
  (u.attachedOps x.launch x.tid).foldl (fun s (c', e, _) =>
    (s.forwardsEnd c' e).setToken c' e { s.token c' e with use := .free }) u

theorem sameLive_withoutOps (s : State) (c t : Nat) : SameLive s (withoutOps s c t) := by
  unfold withoutOps
  refine sameLive_trans (sameLive_makeOrphans s _ _) (sameLive_foldl (fun s x => ?_) _ _)
  exact sameLive_trans (sameLive_forwardsEnd _ _ _) (sameLive_setToken _ _ _ _)

theorem sameLive_endTeam (s : State) (c t : Nat) : SameLive s (s.endTeam c t) := by
  refine sameLive_trans (sameLive_withoutOps s c t) (sameLive_of_groups fun d => ?_)
  have h : (s.endTeam c t).core d = ((withoutOps s c t).onCore c fun k => { k with teams := k.teams.erase t }).core d := rfl
  rw [h, core_onCore]
  split
  · rename_i hd
    rw [hd]
  · rfl

theorem live_setGroup_none (s : State) (c g : Nat) : ((s.setGroup c g .none).group c g).live = false := by
  rw [group_setGroup, if_pos ⟨rfl, rfl⟩]
  rfl

theorem live_moveUnits (s : State) (c g : Nat) : ((s.moveUnits c g).group c g).live = false := by
  unfold State.moveUnits
  dsimp only
  split <;> exact live_setGroup_none _ _ _

theorem live_endGroup (s : State) (c g : Nat) : ((s.endGroup c g).group c g).live = false := by
  unfold State.endGroup
  dsimp only
  split
  · rw [sameLive_endTeam, sameLive_onTeam, live_moveUnits]
  · rw [sameLive_checkTeamBarrier, sameLive_onTeam, live_moveUnits]

/-! ### exit (R99) -/

/-- The `exit` of a slot leaves its group without lanes. -/
def lastExit (s : State) (g : Guard) : Prop :=
  s.mySlot.mask &&& ~~~s.me.active s.mySlot.mask g = 0
    ∧ (s.onMe fun x => x.setSlot s.cur.slot .empty).allExited s.cur.core s.cur.gslot = true

/-- What an `exit` of some lanes leaves of its slot. -/
def exitParts (s : State) (g : Guard) : List Slot :=
  let rest := s.mySlot.mask &&& ~~~s.me.active s.mySlot.mask g
  if rest == 0 then [] else [s.mySlot.go (s.nextPc (.exit g)) rest s.turn]

theorem exec_exit {s : State} {g : Guard} (hi : issuable (.exit g) s = true) (ha : s.me.active s.mySlot.mask g ≠ 0) :
    (¬lastExit s g → exec (.exit g) s = .next (s.finish { parts := exitParts s g } id))
    ∧ (lastExit s g → (s.tryEnd s.cur.core s.cur.gslot).2 = true → exec (.exit g) s
        = .next ((s.tryEnd s.cur.core s.cur.gslot).1.retire.endGroup s.cur.core s.cur.gslot))
    ∧ (lastExit s g → (s.tryEnd s.cur.core s.cur.gslot).2 = false → exec (.exit g) s
        = .next (s.tryEnd s.cur.core s.cur.gslot).1.reissue) := by
  have he : exec (.exit g) s = execExit g s := rfl
  rw [he, execExit, issue_eq _ _ _ _ _ hi, if_neg (by simpa using ha)]
  dsimp only
  refine ⟨fun hl => ?_, fun ⟨h0, hx⟩ ht => ?_, fun ⟨h0, hx⟩ ht => ?_⟩
  · rw [if_pos]
    · rfl
    · simpa [lastExit, imp_iff_not_or] using hl
  · rw [if_neg (by simp [h0, hx]), ← Prod.eta (s.tryEnd s.cur.core s.cur.gslot), ht]
  · rw [if_neg (by simp [h0, hx]), ← Prod.eta (s.tryEnd s.cur.core s.cur.gslot), ht]

theorem mySlot_onMySlot (s : State) (f : Slot → Slot) : (s.onMySlot f).mySlot = f s.mySlot := by
  have h : (s.onMySlot f).me = s.me.onSlot s.cur.slot f := group_onGroup_same _ _ _ _
  show (s.onMySlot f).me.slot s.cur.slot = _
  rw [h, slot_onSlot_same]
  rfl

theorem reissue_blocked (s : State) : s.reissue.mySlot.state = .blocked ∧ s.reissue.mySlot.pc = s.mySlot.pc
    ∧ s.reissue.mySlot.mask = s.mySlot.mask := by
  unfold State.reissue State.again
  dsimp only
  have blocks : ∀ y : Slot, let z := if y.state == .blocked then y else { y with state := .blocked, wait := .zero }
      z.state = .blocked ∧ z.pc = y.pc ∧ z.mask = y.mask := fun y => by
    dsimp only
    split
    · rename_i h
      exact ⟨beq_iff_eq.mp h, rfl, rfl⟩
    · exact ⟨rfl, rfl, rfl⟩
  rw [mySlot_onMySlot]
  split
  · exact blocks _
  · exact blocks { s.mySlot with got := s.mySlot.got.filter fun y => y.want.isAmo }

/-- Settles O18: an `exit` that leaves lanes in its group divides its slot, and the last one waits for the end of the group. -/
theorem lanesExit : Obligations.LanesExit := by
  unfold Obligations.LanesExit
  intro s g hi act rest last ha
  obtain ⟨hgo, hend, hwait⟩ := exec_exit hi ha
  refine ⟨fun hl => ?_, fun hl ht => ⟨_, hend hl ht, live_endGroup _ _ _⟩, fun hl ht => ⟨_, hwait hl ht, ?_⟩⟩
  · refine ⟨_, hgo hl, ?_⟩
    by_cases h0 : rest = 0
    · obtain ⟨hc, hr, he, hm, ho⟩ := divided_none s
      rw [exitParts, if_pos (by simpa using h0), if_pos h0]
      exact ⟨hc, hr, he, ho, by rw [hm]; rfl⟩
    · obtain ⟨hc, hr, he, hm, ho⟩ := divided_one s (s.mySlot.go (s.nextPc (.exit g)) rest s.turn)
      rw [exitParts, if_neg (by simpa using h0), if_neg h0]
      exact ⟨hc, hr, he, ho, by rw [hm]; exact ⟨rfl, rfl, rfl, rfl⟩⟩
  · obtain ⟨hc, hs⟩ := sameSlots_tryEnd s s.cur.core s.cur.gslot
    have hm : (s.tryEnd s.cur.core s.cur.gslot).1.mySlot = s.mySlot := by
      rw [State.mySlot, State.me, hc, hs]
      rfl
    rw [← hm]
    exact reissue_blocked _

end Sys2Proof.Proofs
end

section
/-! SUPPORT. Lanes that park with a word of their own each (R110 to R113, R135, R136). -/

namespace Sys2Proof.Proofs

open Sys2Proof Machine Laws Forms Statements

/-! ### A cause on every lane of a mask, with a word for each -/

/-- A cause on every lane of a mask, with each lane's own detail word. -/
def lanesTrap (m : Mask) (cause : BitVec 8) (detail : Nat → Word) : List LaneTrap := (lanes m).map fun l => ⟨l, cause, detail l⟩

section LanesTrap

variable {m : Mask} {cause : BitVec 8} {detail : Nat → Word}

theorem lanes_ne_nil (hm : m ≠ 0) : lanes m ≠ [] := by
  intro h
  refine hm (BitVec.eq_of_getLsbD_eq fun l hl => ?_)
  by_contra hb
  have : l ∈ lanes m := mem_lanes.mpr ⟨hl, by simpa using hb⟩
  rw [h] at this
  exact List.not_mem_nil this

theorem lanesTrap_ne_nil (hm : m ≠ 0) : lanesTrap m cause detail ≠ [] := by
  rw [lanesTrap, ne_eq, List.map_eq_nil_iff]
  exact lanes_ne_nil hm

theorem getLsbD_maskOf (ls : List Nat) {k : Nat} (hk : k < 32) : (maskOf ls).getLsbD k = decide (k ∈ ls) := by
  suffices ∀ m0 : Mask, (ls.foldl (fun m l => m ||| BitVec.twoPow 32 l) m0).getLsbD k = (m0.getLsbD k || decide (k ∈ ls)) by
    rw [maskOf, this]; simp
  induction ls with
  | nil => simp
  | cons l ls ih =>
    intro m0
    rw [List.foldl_cons, ih]
    simp [hk, Bool.or_assoc]

theorem maskOf_lanes (m : Mask) : maskOf (lanes m) = m := by
  refine BitVec.eq_of_getLsbD_eq fun k hk => ?_
  rw [getLsbD_maskOf _ hk]
  simp [mem_lanes, hk]

theorem trapMask_lanesTrap : trapMask (lanesTrap m cause detail) = m := by
  rw [trapMask, lanesTrap, List.map_map]
  exact (congrArg maskOf (List.map_id _)).trans (maskOf_lanes m)

theorem lowestCause_lanesTrap (hm : m ≠ 0) : lowestCause (lanesTrap m cause detail) = cause := by
  have fold : ∀ ls : List Nat, (ls.map fun l => (⟨l, cause, detail l⟩ : LaneTrap)).foldl
      (fun c x => if x.cause.toNat < c.toNat then x.cause else c) cause = cause := by
    intro ls
    induction ls with
    | nil => rfl
    | cons l ls ih => rwa [List.map_cons, List.foldl_cons, if_neg (lt_irrefl _)]
  obtain ⟨l, ls, h⟩ := List.exists_cons_of_ne_nil (lanes_ne_nil hm)
  rw [lanesTrap, h]
  exact fold ls

theorem detail_lanesTrap {l : Nat} (hl : l < 32) (ha : m.getLsbD l = true) (v : Store Word) :
    ((lanesTrap m cause detail).foldl (fun d z => d.set z.lane z.detail) v).get 0 l = detail l := by
  rw [lanesTrap, List.foldl_map]
  exact foldl_lanes_eq (r := fun v : Store Word => v.get 0 l) (fun v => get_set_same _ _ _ _)
    (fun v k _ hk h => (get_set_ne _ _ _ hk.symm).trans h) (mem_lanes.mpr ⟨hl, ha⟩) v

end LanesTrap

/-! ### The entry of parked lanes -/

/-- The entry is written, and its PARK record where that is asked for. -/
def entered (s : State) (c g i : Nat) (p : Place) (y : StackEntry) (ts : List LaneTrap) (acc : Access) : State :=
  let t := writeLanding s c i (s.group c g).asid (landed s c g p y ts acc)
  if (t.ctx (s.group c g).asid).dbg.trcfg.getLsbD 10 then
    t.traceWrite (s.group c g).asid (t.traceRec c g 5 y.pc
      ((lowestCause ts).setWidth 64 ||| ((s.core c).landseq.setWidth 64 <<< 32)) y.mask) []
  else t

/-- An entry once it is written, wherever its bytes lie. -/
theorem entry_setEntry (s : State) (c i : Nat) (e : Landing) :
    (∀ j, (s.setEntry c i e).entry c j = if j = i then e else s.entry c j)
      ∧ ((s.setEntry c i e).core c).teams = (s.core c).teams := by
  have h : Aside (s.onCore c fun k => { k with landing := k.landing.set i e }) (s.setEntry c i e) := aside_deviceWrite _ _ _
  refine ⟨fun j => ?_, ?_⟩
  · rw [State.entry, h.core c, core_onCore_same]
    exact get_set _ _ _ _ _
  · rw [h.core c, core_onCore_same]

/-- The teams of a core stay where an entry is written. -/
theorem teams_entered (s : State) (c g i : Nat) (p : Place) (y : StackEntry) (ts : List LaneTrap) (acc : Access) :
    ((entered s c g i p y ts acc).core c).teams = (s.core c).teams := by
  have hw : ∀ e, ((writeLanding s c i (s.group c g).asid e).core c).teams = (s.core c).teams := fun e => by
    rw [writeLanding, State.count, core_onCore_same, (entry_setEntry _ _ _ _).2, core_onCore_same]
  unfold entered
  dsimp only
  split
  · rw [(aside_traceWrite _ _ _ _).core c, hw]
  · rw [hw]

section Entered

variable {s : State} {c g i : Nat} {p : Place} {y : StackEntry} {ts : List LaneTrap} {acc : Access}

/-- An entry is FREE, and so the device has one to take. -/
theorem exists_pick (hf : ∃ e, e < 2048 ∧ (s.entry c e).state = .free) :
    ∃ i, i < 2048 ∧ (s.entry c i).state = .free
      ∧ s.pick 0 ((List.range 2048).filter fun i => (s.entry c i).state == .free) = some i := by
  obtain ⟨e, he, hfree⟩ := hf
  have hm : e ∈ (List.range 2048).filter fun i => (s.entry c i).state == .free :=
    List.mem_filter.mpr ⟨List.mem_range.mpr he, by simp [hfree]⟩
  obtain ⟨i, hi⟩ := Option.isSome_iff_exists.mp (pick_isSome s 0 (List.ne_nil_of_mem hm))
  obtain ⟨hr, hs⟩ := List.mem_filter.mp (pick_mem hi)
  exact ⟨i, List.mem_range.mp hr, by simpa using hs, hi⟩

theorem landAt_entered (hi : s.pick 0 ((List.range 2048).filter fun i => (s.entry c i).state == .free) = some i) :
    s.landAt c g p y ts acc =
      if debugCause (lowestCause ts) && s.attached (s.group c g).asid then
        let u := (entered s c g i p y ts acc).haltTeam c (s.group c g).team .hit 1
        u.addMsg (s.group c g).asid (u.entryMsg .stop c i)
      else entered s c g i p y ts acc := by
  unfold State.landAt
  dsimp only
  rw [hi]
  dsimp only
  unfold entered writeLanding landed
  with_reducible rfl

/-- An entry that is written off the fabric: the groups and the issuer stay. -/
theorem entered_near (hi : i < 2048) (hn : LandsNear s c (s.group c g).asid) :
    (entered s c g i p y ts acc).cur = s.cur
      ∧ ((entered s c g i p y ts acc).core c).groups = (s.core c).groups
      ∧ (entered s c g i p y ts acc).entry c i = landed s c g p y ts acc := by
  obtain ⟨hb, ht⟩ := hn
  obtain ⟨h1, h2, h3, h4⟩ := writeLanding_near (s.group c g).asid (landed s c g p y ts acc) hi hb
  have hctx : (writeLanding s c i (s.group c g).asid (landed s c g p y ts acc)).ctx (s.group c g).asid
      = s.ctx (s.group c g).asid := by rw [State.ctx, State.ctx, h4]
  have hland : OnlyMemory (writeLanding s c i (s.group c g).asid (landed s c g p y ts acc)) (entered s c g i p y ts acc) := by
    unfold entered
    dsimp only
    rw [hctx]
    split
    · rename_i h10
      refine onlyMemory_traceWrite _ _ ?_
      rw [TraceNear, hctx]
      exact ht h10
    · exact onlyMemory_refl _
  refine ⟨(onlyMemory_cur hland).trans h1, ?_, ?_⟩
  · rw [onlyMemory_core hland, h2]
  · rw [State.entry, onlyMemory_core hland]
    exact h3

end Entered

/-! ### The parts of a slot whose lanes `act` park (R43) -/

/-- The slot that parked lanes stand in. -/
def parkSlot (s : State) (act : Mask) : Nat := if s.mySlot.mask &&& ~~~act = 0 then s.cur.slot else other s.cur.slot

/-- The lanes `act` of the issuing slot stand PARKED, its other lanes at the next instruction, and nothing else has changed. -/
structure Parks (i : Instr) (act : Mask) (s u : State) : Prop where
  cur : u.cur = s.cur
  sameRegs : s.me.sameRegs u.me
  elsewhere : s.elsewhereSame u
  parked : u.me.slot (parkSlot s act) = s.mySlot.park act
  rest : if s.mySlot.mask &&& ~~~act = 0 then u.me.slot (other s.cur.slot) = s.me.slot (other s.cur.slot)
    else slotIs u.mySlot (s.nextPc i) s.mySlot.rcv (s.mySlot.mask &&& ~~~act)

theorem step1_parks {s : State} {i : Instr} {act : Mask} {cause : BitVec 8} {detail : Nat → Word} (ha : act ≠ 0)
    (hu : s.cur.gslot ≠ Config.supervisorSlot) (ho : s.mySlot.mask &&& ~~~act = 0 ∨ s.aloneInGroup = true) :
    ∃ u, Parks i act s u ∧ s.step1 i (lanesTrap act cause detail) .none false id
      = u.land s.cur.core s.cur.gslot (parkSlot s act) (lanesTrap act cause detail) .none := by
  unfold State.step1
  dsimp only
  rw [trapMask_lanesTrap]
  by_cases h0 : s.mySlot.mask &&& ~~~act = 0
  · rw [if_pos (by simpa using h0), finish_parked s (lanesTrap_ne_nil ha) hu, trapMask_lanesTrap, parkSlot, if_pos h0]
    refine ⟨s.onMe fun z => z.setSlot s.cur.slot (s.mySlot.park act), ⟨rfl, ?_, elsewhereSame_onMe _ _, ?_, ?_⟩, rfl⟩
    · rw [me_onMe]
      exact sameRegs_setSlot _ _ _
    · rw [me_onMe, parkSlot, if_pos h0, slot_setSlot_same]
    · rw [if_pos h0, me_onMe, slot_setSlot_other]
  · have ho := ho.resolve_left h0
    rw [if_neg (by simpa using h0), finish_parked_rest s (lanesTrap_ne_nil ha) hu _ ho, trapMask_lanesTrap]
    have hd := divided_two s (s.mySlot.go (s.nextPc i) (s.mySlot.mask &&& ~~~act) s.turn) (s.mySlot.park act) ho
    rw [finish_two s _ _ ho] at hd
    obtain ⟨hc, hr, he, hm, hq⟩ := hd
    rw [parkSlot, if_neg h0]
    refine ⟨_, ⟨hc, hr, he, ?_, ?_⟩, rfl⟩
    · rw [parkSlot, if_neg h0, hq]
    · rw [if_neg h0, hm]
      exact ⟨rfl, rfl, rfl, rfl⟩

/-- What stands elsewhere of the core, once lanes of the issuing slot have parked. -/
theorem parks_entry {i : Instr} {act : Mask} {s u : State} (h : Parks i act s u) (e : Nat) :
    u.entry s.cur.core e = s.entry s.cur.core e := by
  obtain ⟨-, hcore, -⟩ := h.elsewhere
  rw [State.entry, hcore]
  rfl

theorem parks_landsNear {i : Instr} {act : Mask} {s u : State} (h : Parks i act s u) (hn : landsNear s) :
    LandsNear u s.cur.core s.me.asid := by
  obtain ⟨-, hcore, -, hctx⟩ := h.elsewhere
  have := landsNear_cur hn
  rw [LandsNear, TraceNear] at this ⊢
  rw [hcore, hctx]
  exact this

theorem parks_group {i : Instr} {act : Mask} {s u : State} (h : Parks i act s u) :
    u.group s.cur.core s.cur.gslot = u.me := by rw [State.me, h.cur]

/-- The landing entry of the parked lanes. -/
theorem landed_parks {i : Instr} {act : Mask} {s u : State} (h : Parks i act s u) (ha : act ≠ 0) (cause : BitVec 8)
    (detail : Nat → Word) :
    let x := landed u s.cur.core s.cur.gslot (placeOf (parkSlot s act)) (u.me.slot (parkSlot s act)).entry
      (lanesTrap act cause detail) .none
    x.state = (if s.myTeam.halted then .held else .pending) ∧ x.cause = cause ∧ x.pc = s.mySlot.pc
      ∧ x.rcv = s.mySlot.rcv ∧ x.mask = act ∧ x.asid = s.me.asid ∧ x.gslot = s.cur.gslot ∧ x.group = s.me.number
      ∧ x.team = s.me.team ∧ x.tid = s.myTeam.tid ∧ x.launch = s.myTeam.launch ∧ x.place = placeOf (parkSlot s act)
      ∧ x.seq = (s.core s.cur.core).landseq ∧ ∀ l, l < 32 → act.getLsbD l = true → x.detail.get 0 l = detail l := by
  obtain ⟨-, hcore, -⟩ := h.elsewhere
  have hme := h.sameRegs
  unfold Group.sameRegs at hme
  have hteam : u.team s.cur.core s.me.team = s.myTeam := by
    rw [State.team, hcore]
    rfl
  rw [h.parked, landed, parks_group h, hme, hcore]
  dsimp only
  rw [hteam]
  exact ⟨rfl, lowestCause_lanesTrap ha, rfl, rfl, rfl, rfl, rfl, rfl, rfl, rfl, rfl, rfl, rfl,
    fun l hl hb => detail_lanesTrap hl hb _⟩

/-- The halt and the message of an entry at which a debugger stops (R173). -/
def stopAt (v : State) (c t a e : Nat) : State :=
  let w := v.haltTeam c t .hit 1
  w.addMsg a (w.entryMsg .stop c e)

/-- Lanes that park have their landing entry, which was FREE; then a debugger may stop. -/
theorem land_parks {i : Instr} {act : Mask} {cause : BitVec 8} {detail : Nat → Word} {s u : State} (h : Parks i act s u)
    (ha : act ≠ 0) (hf : ∃ e, e < 2048 ∧ (s.entry s.cur.core e).state = .free) (hn : landsNear s) :
    ∃ e v, e < 2048 ∧ (s.entry s.cur.core e).state = .free ∧ v.cur = u.cur
      ∧ (v.core s.cur.core).groups = (u.core s.cur.core).groups ∧ (v.core s.cur.core).teams = (s.core s.cur.core).teams
      ∧ v.entry s.cur.core e = landed u s.cur.core s.cur.gslot (placeOf (parkSlot s act)) (u.me.slot (parkSlot s act)).entry
          (lanesTrap act cause detail) .none
      ∧ u.land s.cur.core s.cur.gslot (parkSlot s act) (lanesTrap act cause detail) .none
        = if debugCause cause && s.attached s.me.asid then stopAt v s.cur.core s.me.team s.me.asid e else v := by
  obtain ⟨-, hcore, -, hctx⟩ := h.elsewhere
  have hg := parks_group h
  have hasid : u.me.asid = s.me.asid := by rw [h.sameRegs]
  have hteam : u.me.team = s.me.team := by rw [h.sameRegs]
  have hatt : u.attached s.me.asid = s.attached s.me.asid := by
    rw [State.attached, hctx]
    rfl
  obtain ⟨e, he, hfree, hpick⟩ := exists_pick (s := u) (c := s.cur.core) (by simpa only [parks_entry h] using hf)
  rw [parks_entry h] at hfree
  obtain ⟨hcur, hgroups, hentry⟩ := entered_near (s := u) (c := s.cur.core) (g := s.cur.gslot) (p := placeOf (parkSlot s act))
    (y := (u.me.slot (parkSlot s act)).entry) (ts := lanesTrap act cause detail) (acc := .none) he
    (by rw [hg, hasid]; exact parks_landsNear h hn)
  refine ⟨e, _, he, hfree, hcur, hgroups, ?_, hentry, ?_⟩
  · rw [teams_entered, hcore]
  · rw [State.land, landAt_entered hpick, lowestCause_lanesTrap ha, hg, hasid, hteam, hatt]
    rfl

/-- Where no debugger stops at the cause, nothing else happens. -/
theorem trapped_land {i : Instr} {act : Mask} {cause : BitVec 8} {detail : Nat → Word} {s u : State} (h : Parks i act s u)
    (ha : act ≠ 0) (hf : ∃ e, e < 2048 ∧ (s.entry s.cur.core e).state = .free) (hn : landsNear s)
    (hd : (debugCause cause && s.attached s.me.asid) = false) :
    trapped i act cause detail s (u.land s.cur.core s.cur.gslot (parkSlot s act) (lanesTrap act cause detail) .none) := by
  obtain ⟨e, t, he, hfree, hcur, hgroups, -, hentry, hl⟩ := land_parks (cause := cause) (detail := detail) h ha hf hn
  rw [hl, hd, if_neg Bool.false_ne_true]
  have hc : t.cur = s.cur := hcur.trans h.cur
  have hme : t.me = u.me := by
    rw [State.me, State.me, hcur, h.cur, State.group, State.group, hgroups]
  have hmy : t.mySlot = u.mySlot := by rw [State.mySlot, State.mySlot, hme, hcur]
  refine ⟨by rw [hme]; exact h.sameRegs, hc, ?_, ?_⟩
  · rw [hme, hmy]
    exact h.rest
  · have hp : u.me.slot (if s.mySlot.mask &&& ~~~act = 0 then s.cur.slot else other s.cur.slot) = s.mySlot.park act := h.parked
    rw [hme, hp]
    refine ⟨rfl, rfl, rfl, rfl, e, he, hfree, ?_⟩
    rw [hentry]
    exact landed_parks h ha cause detail

end Sys2Proof.Proofs
end

section
/-! SUPPORT. What the halt of a team leaves of its landing entries (R113, R143), and the traps that a program takes by itself
(R135, R136). -/

namespace Sys2Proof.Proofs

open Sys2Proof Machine Laws Forms Statements

/-! ### Translations (R190 to R197) -/

theorem aside_walkFrom (s : State) (a : Agent) (root va : Word) (fuel level table : Nat) :
    Aside s (s.walkFrom a root va fuel level table).1 := by
  induction fuel generalizing s level table with
  | zero => exact aside_refl s
  | succ fuel ih =>
    unfold State.walkFrom
    dsimp only
    split
    · exact aside_refl s
    · exact aside_refl s
    · exact aside_refl s
    · split
      · exact aside_refl s
      · split
        · exact aside_refl s
        · split
          · exact aside_refl s
          · refine aside_trans ?_ (ih _ _ _)
            exact aside_of_cores rfl rfl

theorem aside_findLeaf (s : State) (a : Agent) (va : Word) : Aside s (s.findLeaf a va).1 := by
  unfold State.findLeaf
  dsimp only
  split
  · exact aside_refl s
  · split
    · exact aside_refl s
    · split
      · split
        · exact aside_refl s
        · exact aside_walkFrom _ _ _ _ _ _ _
      · exact aside_walkFrom _ _ _ _ _ _ _

theorem aside_probe (s : State) (a : Agent) (va : Word) (acc : Access) (gossip : Bool) : Aside s (s.probe a va acc gossip).1 := by
  have h := aside_findLeaf s a va
  unfold State.probe
  split
  · exact aside_refl s
  · split <;> rename_i e <;> rw [e] at h
    · exact h
    · exact h
    · exact h
    · dsimp only at h ⊢
      split
      · exact h
      · split <;> exact h

theorem aside_keepLeaf (s : State) (a : Agent) (va : Word) (t : Trans) : Aside s (s.keepLeaf a va t) := by
  unfold State.keepLeaf
  exact aside_onCore fun _ => rfl

theorem aside_loseLeaf (s : State) (a : Agent) (va : Word) : Aside s (s.loseLeaf a va) := by
  unfold State.loseLeaf
  exact aside_onCore fun _ => rfl

theorem aside_writeMem (s : State) (pa : Nat) (bs : List Byte) : Aside s (s.writeMem pa bs) := by
  induction bs generalizing s pa with
  | nil => exact aside_refl s
  | cons b bs ih =>
    refine aside_trans ?_ (ih (s.writeByte pa b) (pa + 1))
    exact aside_of_cores rfl rfl

theorem aside_markLeaf (s : State) (a : Agent) (va : Word) (acc : Access) (w : Where) : Aside s (s.markLeaf a va acc w).1 := by
  unfold State.markLeaf
  dsimp only
  split
  · exact aside_keepLeaf _ _ _ _
  · split
    · split
      · split
        · exact aside_keepLeaf _ _ _ _
        · refine aside_trans ?_ (aside_loseLeaf _ _ _)
          exact aside_of_cores rfl rfl
      · exact aside_refl s
      · exact aside_refl s
      · exact aside_refl s
      · exact aside_refl s
    · split
      · exact aside_trans (aside_writeMem _ _ _) (aside_keepLeaf _ _ _ _)
      · exact aside_loseLeaf _ _ _

theorem aside_translateOnce (s : State) (a : Agent) (va : Word) (acc : Access) (gossip : Bool) :
    Aside s (s.translateOnce a va acc gossip).1 := by
  have h := aside_probe s a va acc gossip
  unfold State.translateOnce
  split <;> rename_i e
  · rw [e] at h
    exact aside_trans h (aside_markLeaf _ _ _ _ _)
  · rw [e] at h
    exact h

theorem aside_translate (s : State) (a : Agent) (va : Word) (acc : Access) (gossip : Bool) :
    Aside s (s.translate a va acc gossip).1 := by
  have h := aside_translateOnce s a va acc gossip
  unfold State.translate
  split <;> rename_i e <;> rw [e] at h
  · exact h
  · have k := aside_trans h (aside_translateOnce _ a va acc gossip)
    split <;> rename_i e' <;> rw [e'] at k <;> exact k

theorem aside_reach (s : State) (a : Agent) (tid : Nat) (va : Word) (n : Nat) (acc : Access) :
    Aside s (s.reach a tid va n acc).1 := by
  have h := aside_probe s a va acc false
  unfold State.reach
  split
  · rename_i e
    rw [e] at h
    split
    · exact h
    · exact aside_trans h (aside_translate _ _ _ _ _)
  · exact h

theorem aside_checkPushes (s : State) (a : Agent) (g d k : Nat) : Aside s (s.checkPushes a g d k).1 := by
  induction k generalizing s d with
  | zero => exact aside_refl s
  | succ k ih =>
    rw [State.checkPushes]
    have h := aside_reach s a (s.team a.core (s.group a.core g).team).tid (s.stackAddr a.core g d) 32 .stack
    split
    · exact aside_refl s
    · split <;> rename_i e <;> rw [e] at h
      · exact h
      · exact h
      · exact h
      · rename_i u w
        have k := aside_trans h (ih u (d + 1))
        split
        · rename_i e'
          rw [e'] at k
          exact k
        · exact k

/-! ### Entries that a halt holds or moves (R113, R143) -/

/-- Between two states the teams of a core stay, and of its landing entries only the places differ, and the states of those that
are HELD now. -/
structure EntriesKept (c : Nat) (s t : State) : Prop where
  teams : (t.core c).teams = (s.core c).teams
  entry : ∀ i, t.entry c i = { s.entry c i with place := (t.entry c i).place, state := (t.entry c i).state }
  state : ∀ i, (t.entry c i).state = (s.entry c i).state ∨ (t.entry c i).state = .held

section EntriesKept

variable {c : Nat} {s t u : State}

theorem entriesKept_trans (h : EntriesKept c s t) (k : EntriesKept c t u) : EntriesKept c s u := by
  refine ⟨k.teams.trans h.teams, fun i => by rw [k.entry i, h.entry i], fun i => ?_⟩
  rcases k.state i with hk | hk
  · rw [hk]
    exact h.state i
  · exact .inr hk

theorem entriesKept_of_core (ht : (t.core c).teams = (s.core c).teams) (hl : (t.core c).landing = (s.core c).landing) :
    EntriesKept c s t := by
  have he : ∀ i, t.entry c i = s.entry c i := fun i => by rw [State.entry, State.entry, hl]
  exact ⟨ht, fun i => by rw [he i], fun i => .inl (by rw [he i])⟩

theorem entriesKept_refl (c : Nat) (s : State) : EntriesKept c s s := entriesKept_of_core rfl rfl

theorem entriesKept_of_aside (h : Aside s t) : EntriesKept c s t := by
  refine entriesKept_of_core ?_ ?_ <;> rw [h.core c]

theorem entriesKept_onGroup (s : State) (d g : Nat) (f : Group → Group) : EntriesKept c s (s.onGroup d g f) := by
  refine entriesKept_of_core ?_ ?_ <;> rw [core_onGroup]

theorem entriesKept_withdraw (s : State) (d g n : Nat) : EntriesKept c s (s.withdraw d g n) := by
  have h : ((s.withdraw d g n).core c) = { s.core c with grows := ((s.withdraw d g n).core c).grows } := by
    rw [State.withdraw, core_onCore]
    split
    · rename_i hc
      rw [hc]
    · rfl
  refine entriesKept_of_core ?_ ?_ <;> rw [h]

theorem entriesKept_foldl {α : Type} {f : State → α → State} (h : ∀ s x, EntriesKept c s (f s x)) (l : List α) (s : State) :
    EntriesKept c s (l.foldl f s) := by
  induction l generalizing s with
  | nil => exact entriesKept_refl c s
  | cons x l ih => exact entriesKept_trans (h s x) (ih _)

end EntriesKept

theorem entriesKept_onEntry (s : State) (c i : Nat) {f : Landing → Landing}
    (hf : ∀ e, f e = { e with place := (f e).place, state := (f e).state })
    (hs : ∀ e, (f e).state = e.state ∨ (f e).state = .held) : EntriesKept c s (s.onEntry c i f) := by
  obtain ⟨he, ht⟩ := entry_setEntry s c i (f (s.entry c i))
  refine ⟨ht, fun j => ?_, fun j => ?_⟩ <;> rw [State.onEntry, he j] <;> split
  · rename_i h
    rw [h]
    exact hf _
  · rfl
  · rename_i h
    rw [h]
    exact hs _
  · exact .inl rfl

theorem entriesKept_movePlace (s : State) (c g : Nat) (p q : Place) : EntriesKept c s (s.movePlace c g p q) := by
  unfold State.movePlace
  split
  · exact entriesKept_onEntry _ _ _ (fun _ => rfl) fun _ => .inl rfl
  · exact entriesKept_refl _ _

theorem entriesKept_push (s : State) (c g : Nat) (w : Where) (e : StackEntry) : EntriesKept c s (s.push c g w e) := by
  unfold State.push
  exact entriesKept_trans (entriesKept_of_aside (aside_writeStack _ _ _ _ _)) (entriesKept_onGroup _ _ _ _)

theorem entriesKept_spill (s : State) (c g m : Nat) (ws : List Where) : EntriesKept c s (s.spill c g m ws) := by
  unfold State.spill
  dsimp only
  refine entriesKept_trans (entriesKept_trans (entriesKept_trans ?_ (entriesKept_withdraw _ _ _ _))
    (entriesKept_foldl (fun s x => ?_) _ _)) (entriesKept_onGroup _ _ _ _)
  on_goal 2 => exact entriesKept_push s c g x.1 x.2
  split
  · exact entriesKept_movePlace _ _ _ _ _
  · exact entriesKept_refl _ _

theorem entriesKept_place (c g n : Nat) (xs : List Slot) (s : State) (ws : List Where) :
    EntriesKept c s (s.place c g n xs ws).1 := by
  induction xs generalizing s ws with
  | nil => exact entriesKept_refl c s
  | cons x xs ih =>
    rw [State.place]
    dsimp only
    split
    · exact entriesKept_trans (entriesKept_onGroup _ _ _ _) (ih _ _)
    · exact entriesKept_trans (entriesKept_trans (entriesKept_spill _ _ _ _ _) (entriesKept_onGroup _ _ _ _)) (ih _ _)

theorem entriesKept_divideTagged (s : State) (c g n : Nat) : EntriesKept c s (s.divideTagged c g n) := by
  unfold State.divideTagged
  dsimp only
  split
  · have h := entriesKept_of_aside (c := c)
      (aside_checkPushes s (s.serviceAgent c g) g (s.group c g).depth (pushesFor ((s.group c g).slot (other n)) 1))
    split <;> rename_i e <;> rw [e] at h
    · exact entriesKept_trans h (entriesKept_of_aside (aside_askService _ _ _ _))
    · exact entriesKept_trans h (entriesKept_trans (entriesKept_onGroup _ _ _ _) (entriesKept_place _ _ _ _ _ _))
    · exact h
  · exact entriesKept_refl _ _

theorem entriesKept_divideTeam (s : State) (c t : Nat) : EntriesKept c s (s.divideTeam c t) := by
  unfold State.divideTeam
  refine entriesKept_foldl (fun s x => ?_) _ _
  exact entriesKept_trans (entriesKept_divideTagged s c x.1 0) (entriesKept_divideTagged _ c x.1 1)

/-- One entry of a list becomes HELD where it is PENDING for a team. -/
def holdOne (c t : Nat) (s : State) (x : Nat × Landing) : State :=
  if x.2.state == .pending && x.2.team == t then s.onEntry c x.1 fun y => { y with state := .held } else s

theorem holdEntries_eq (s : State) (c t : Nat) : s.holdEntries c t = (s.core c).landing.foldl (holdOne c t) s := rfl

theorem entriesKept_holdOne (c t : Nat) (s : State) (x : Nat × Landing) : EntriesKept c s (holdOne c t s x) := by
  unfold holdOne
  split
  · exact entriesKept_onEntry _ _ _ (fun _ => rfl) fun _ => .inr rfl
  · exact entriesKept_refl _ _

theorem held_stays {c i : Nat} {s t : State} (h : EntriesKept c s t) (hs : (s.entry c i).state = .held) :
    (t.entry c i).state = .held := (h.state i).elim (fun e => e.trans hs) id

/-- Every entry of the list that is PENDING for the team is HELD in the end. -/
theorem held_foldl {c t i : Nat} {e : Landing} (hs : e.state = .pending) (ht : e.team = t) (l : List (Nat × Landing))
    (hl : (i, e) ∈ l) (s : State) : ((l.foldl (holdOne c t) s).entry c i).state = .held := by
  induction l generalizing s with
  | nil => cases hl
  | cons x l ih =>
    rw [List.foldl_cons]
    rcases List.mem_cons.mp hl with rfl | h
    · refine held_stays (entriesKept_foldl (entriesKept_holdOne c t) _ _) ?_
      rw [holdOne, if_pos (by simp [hs, ht]), State.onEntry, (entry_setEntry _ _ _ _).1, if_pos rfl]
    · exact ih h _

/-- An entry that is not FREE is listed. -/
theorem entry_listed {s : State} {c i : Nat} (h : (s.entry c i).state ≠ .free) : (i, s.entry c i) ∈ (s.core c).landing := by
  unfold State.entry Store.get at *
  cases hf : (s.core c).landing.find? i with
  | none => rw [hf] at h; exact absurd rfl h
  | some e => exact mem_of_find hf

theorem entriesKept_holdEntries (s : State) (c t : Nat) : EntriesKept c s (s.holdEntries c t) :=
  entriesKept_foldl (entriesKept_holdOne c t) _ _

theorem held_holdEntries {s : State} {c t i : Nat} (hs : (s.entry c i).state = .pending ∨ (s.entry c i).state = .held)
    (ht : (s.entry c i).team = t) : ((s.holdEntries c t).entry c i).state = .held := by
  rcases hs with hs | hs
  · exact held_foldl hs ht _ (entry_listed (by rw [hs]; decide)) s
  · exact held_stays (entriesKept_holdEntries s c t) hs

/-! ### The halt of a team (R143) -/

/-- The team has a reason to be halted. -/
def haltNoted (s : State) (c t : Nat) (r : HaltReason) : State :=
  s.setTeam c t { s.team c t with
    halts := if (s.team c t).halts.contains r then (s.team c t).halts else (s.team c t).halts ++ [r] }

theorem entry_haltNoted (s : State) (c t : Nat) (r : HaltReason) (i : Nat) : (haltNoted s c t r).entry c i = s.entry c i := by
  rw [State.entry, haltNoted, State.setTeam, core_onCore_same]
  rfl

theorem halted_haltNoted (s : State) (c t : Nat) (r : HaltReason) : ((haltNoted s c t r).team c t).halted = true := by
  rw [haltNoted, team_setTeam, if_pos ⟨rfl, rfl⟩, Team.halted]
  dsimp only
  split
  · rename_i h
    cases hh : (s.team c t).halts with
    | nil => rw [hh] at h; cases h
    | cons => rfl
  · simp

theorem entriesKept_traceHalt (s : State) (c t : Nat) (aux : Word) : EntriesKept c s (s.traceHalt c t aux) :=
  entriesKept_of_aside (aside_traceWrite _ _ _ _)

/-- The team's slots are divided and its entries HELD, before the HALT record. -/
def haltHeld (s : State) (c t : Nat) (r : HaltReason) : State := ((haltNoted s c t r).divideTeam c t).holdEntries c t

theorem haltTeam_eq {s : State} {c t : Nat} (h : s.hasTeam c t = true) (r : HaltReason) (aux : Word) : s.haltTeam c t r aux =
    if (s.team c t).halted then haltHeld s c t r else (haltHeld s c t r).traceHalt c t aux := by
  unfold State.haltTeam
  rw [h]
  rfl

theorem entriesKept_haltHeld (s : State) (c t : Nat) (r : HaltReason) : EntriesKept c (haltNoted s c t r) (haltHeld s c t r) :=
  entriesKept_trans (entriesKept_divideTeam _ _ _) (entriesKept_holdEntries _ _ _)

theorem entriesKept_haltTeam {s : State} {c t : Nat} (h : s.hasTeam c t = true) (r : HaltReason) (aux : Word) :
    EntriesKept c (haltHeld s c t r) (s.haltTeam c t r aux) := by
  rw [haltTeam_eq h]
  split
  · exact entriesKept_refl _ _
  · exact entriesKept_traceHalt _ _ _ _

/-- A halt holds the team's entries that are PENDING or HELD; of each entry it changes the place and the state alone. -/
theorem haltTeam_spec {s : State} {c t : Nat} (h : s.hasTeam c t = true) (r : HaltReason) (aux : Word) :
    let u := s.haltTeam c t r aux
    (u.team c t).halted = true
      ∧ (∀ i, u.entry c i = { s.entry c i with place := (u.entry c i).place, state := (u.entry c i).state })
      ∧ ∀ i, ((s.entry c i).state = .pending ∨ (s.entry c i).state = .held) → (s.entry c i).team = t →
        (u.entry c i).state = .held := by
  intro u
  have hk := entriesKept_trans (entriesKept_haltHeld s c t r) (entriesKept_haltTeam h r aux)
  refine ⟨?_, fun i => ?_, fun i hs ht => ?_⟩
  · rw [State.team, hk.teams]
    exact halted_haltNoted s c t r
  · have := hk.entry i
    rwa [entry_haltNoted] at this
  · refine held_stays (entriesKept_haltTeam h r aux) (held_holdEntries ?_ ?_)
    · have hd := (entriesKept_divideTeam (haltNoted s c t r) c t).state i
      rw [entry_haltNoted] at hd
      rcases hd with hd | hd
      · rwa [hd]
      · exact .inr hd
    · rw [(entriesKept_divideTeam (haltNoted s c t r) c t).entry i, entry_haltNoted, ht]

theorem mem_msgs_addMsg (s : State) (a : Nat) (m : Msg) : m ∈ ((s.addMsg a m).ctx a).msgs := by
  rw [State.addMsg, ctx_onCtx, if_pos rfl]
  exact List.mem_append_right _ (List.mem_singleton_self m)

/-! ### sys, trap and brk (R135, R136) -/

theorem trapOp_parks {i : Instr} {g : Guard} {cause : BitVec 8} {a : Src} {x : Ext} {s : State} (hi : issuable i s = true)
    (ha : s.me.active s.mySlot.mask g ≠ 0) (hu : s.cur.gslot ≠ Config.supervisorSlot)
    (ho : s.mySlot.mask &&& ~~~s.me.active s.mySlot.mask g = 0 ∨ s.aloneInGroup = true) :
    let act := s.me.active s.mySlot.mask g
    ∃ u, Parks i act s u ∧ trapOp i g cause a x s = .next (u.land s.cur.core s.cur.gslot (parkSlot s act)
      (lanesTrap act cause fun l => (s.me.src32 l x a).setWidth 64) .none) := by
  obtain ⟨u, hu, h⟩ := step1_parks (i := i) (cause := cause) (detail := fun l => (s.me.src32 l x a).setWidth 64) ha hu ho
  refine ⟨u, hu, ?_⟩
  rw [trapOp, issue_eq _ _ _ _ _ hi, if_neg (by simpa using ha), ← h]
  rfl

theorem trapOp_trapped {i : Instr} {g : Guard} {cause : BitVec 8} {a : Src} {x : Ext} {s : State} (hi : issuable i s = true)
    (ha : s.me.active s.mySlot.mask g ≠ 0) (hc : canTrap (s.me.active s.mySlot.mask g) s)
    (hd : (debugCause cause && s.attached s.me.asid) = false) :
    ∃ t, trapOp i g cause a x s = .next t
      ∧ trapped i (s.me.active s.mySlot.mask g) cause (fun l => (s.me.src32 l x a).setWidth 64) s t := by
  obtain ⟨hu, hf, ho, hn⟩ := hc
  obtain ⟨u, hp, he⟩ := trapOp_parks (cause := cause) (a := a) (x := x) hi ha hu ho
  exact ⟨_, he, trapped_land hp ha hf hn hd⟩

/-- With a debugger attached, `brk` halts the team, holds the entry and tells the host (R173). -/
theorem trapOp_halts {i : Instr} {g : Guard} {a : Src} {x : Ext} {s : State} (hi : issuable i s = true)
    (ha : s.me.active s.mySlot.mask g ≠ 0) (hc : canTrap (s.me.active s.mySlot.mask g) s)
    (hatt : s.attached s.me.asid = true) (ht : s.hasTeam s.cur.core s.me.team = true) :
    ∃ t e, trapOp i g Cause.breakpoint a x s = .next t ∧ (t.team s.cur.core s.me.team).halted = true
      ∧ (s.entry s.cur.core e).state = .free ∧ (t.entry s.cur.core e).state = .held
      ∧ (t.entry s.cur.core e).cause = Cause.breakpoint ∧ (t.entry s.cur.core e).mask = s.me.active s.mySlot.mask g
      ∧ (t.entry s.cur.core e).pc = s.mySlot.pc
      ∧ ∃ m ∈ (t.ctx s.me.asid).msgs, m.kind = .stop ∧ m.index = e ∧ m.core = s.cur.core ∧ m.pc = s.mySlot.pc := by
  obtain ⟨hu, hf, ho, hn⟩ := hc
  obtain ⟨u, hp, hx⟩ := trapOp_parks (cause := Cause.breakpoint) (a := a) (x := x) hi ha hu ho
  obtain ⟨e, v, -, hfree, -, -, hteams, hentry, hl⟩ := land_parks (cause := Cause.breakpoint)
    (detail := fun l => (s.me.src32 l x a).setWidth 64) hp ha hf hn
  obtain ⟨hstate, hcause, hpc, -, hmask, -, -, -, hteam, -⟩ :=
    landed_parks hp ha Cause.breakpoint fun l => (s.me.src32 l x a).setWidth 64
  rw [← hentry] at hstate hcause hpc hmask hteam
  obtain ⟨hhalt, hkept, hheld⟩ := haltTeam_spec (s := v) (c := s.cur.core) (t := s.me.team)
    (by rw [State.hasTeam, hteams]; exact ht) .hit 1
  rw [hl, hatt, if_pos (by decide)] at hx
  have hpc' := (congrArg Landing.pc (hkept e)).trans hpc
  refine ⟨_, e, hx, hhalt, hfree, hheld e ?_ hteam, (congrArg Landing.cause (hkept e)).trans hcause,
    (congrArg Landing.mask (hkept e)).trans hmask, hpc',
    (v.haltTeam s.cur.core s.me.team .hit 1).entryMsg .stop s.cur.core e, mem_msgs_addMsg _ _ _, rfl, rfl, rfl, hpc'⟩
  rw [hstate]
  split
  · exact .inr rfl
  · exact .inl rfl

/-- Settles O41: each parks its lanes with their own words, and a `brk` under a debugger halts the team. -/
theorem trapsTaken : Obligations.TrapsTaken := by
  unfold Obligations.TrapsTaken
  intro s g a x act number ha hc
  refine ⟨fun hi => trapOp_trapped hi ha hc rfl, fun hi => trapOp_trapped hi ha hc rfl,
    fun hi hatt => trapOp_trapped hi ha hc (by rw [hatt, Bool.and_false]), fun hi hatt ht => trapOp_halts hi ha hc hatt ht⟩

end Sys2Proof.Proofs
end

section
/-! SUPPORT. Integer and bit instructions: each completes with a value of its operands' w bits, and the model's arithmetic on integers
and naturals is that of R69 to R75 on these bits. -/

namespace Sys2Proof.Proofs

open Sys2Proof Machine Laws Forms

/-! ### Instructions that give a value of their operands' bits -/

section Gives

variable {F : Type} {i : Instr} {s : State} {o : Alu F} {f : Group → Nat → BitVec 128}

/-- A per-lane instruction completes with a result said in other words. -/
theorem alu_gives_as {gd : Guard} {d : Dst} {w : Nat} {r : Nat → BitVec 128} (he : exec i s = alu i gd d w f s)
    (h : issuable i s = true) (hw : IsWidth w) (hr : ∀ l, f s.me l = r l) (hu : ∀ n, d = .s n → ∀ k l, r k = r l) :
    givesLanes i gd d w r s := by
  obtain rfl : f s.me = r := funext hr
  exact alu_gives he h hw hu

theorem opBits_uniform {x : Src} (h : uniform x = true) (k l : Nat) : opBits s o k x = opBits s o l x := by
  rw [opBits, opBits, Group.arg, Group.arg, src_uniform h s.me k l]

/-- The third source of a well-formed instruction with a scalar destination is uniform too. -/
theorem aluOk_uniform_third {m : AluForm} {n : BitVec 6} {c : Src} {v : BitVec 23} (h : aluOk m o = true) (hd : o.d = .s n)
    (hx : o.x = .s c v) : ∀ x ∈ m.c.sources c, uniform x = true := by
  simp only [aluOk, Bool.and_eq_true, hx] at h
  obtain ⟨-, h⟩ := h
  exact fun x hc => uniform_of_scalar h hd (by simp [hc])

/-- An integer instruction with two sources of the TYPE's width completes with a value of their bits. -/
theorem intOp_binary_gives {f : Int → Int → Int → BitVec 128} {tys : Ty → Bool}
    {G : BitVec (valBits o.ty) → BitVec (valBits o.ty) → BitVec 128} (he : exec i s = intOp i o f s)
    (h : issuable i s = true) (hwf : wellFormed i = binary tys o)
    (hr : ∀ a b c, f (valueOf o.ty a) (valueOf o.ty b) c = G a b) :
    givesLanes i o.g o.d (regBits o.ty) (fun l => G (opBits s o l o.a) (opBits s o l o.b)) s := by
  refine alu_gives_as he h (isWidth_regBits _) (fun l => hr _ _ _) fun n hd k l => ?_
  obtain ⟨ha, hb⟩ := aluOk_uniform (hwf.symm.trans (wellFormed_of_issuable h)) hd
  rw [opBits_uniform (ha o.a (List.mem_singleton_self _)) k l, opBits_uniform (hb o.b (List.mem_singleton_self _)) k l]

/-- With one source. -/
theorem intOp_unary_gives {f : Int → Int → Int → BitVec 128} {tys : Ty → Bool} {G : BitVec (valBits o.ty) → BitVec 128}
    (he : exec i s = intOp i o f s) (h : issuable i s = true) (hwf : wellFormed i = unary tys o)
    (hr : ∀ a b c, f (valueOf o.ty a) b c = G a) :
    givesLanes i o.g o.d (regBits o.ty) (fun l => G (opBits s o l o.a)) s := by
  refine alu_gives_as he h (isWidth_regBits _) (fun l => hr _ _ _) fun n hd k l => ?_
  obtain ⟨ha, -⟩ := aluOk_uniform (hwf.symm.trans (wellFormed_of_issuable h)) hd
  rw [opBits_uniform (ha o.a (List.mem_singleton_self _)) k l]

/-- The third source as the model reads it. -/
theorem valueOf_opThird (l : Nat) : (match o.x with | .s c _ => intOf o.ty (s.me.arg l o.ty o.x c) | _ => 0)
    = valueOf o.ty (opThird s o l) := by
  unfold opThird
  split
  · rename_i hx
    simp only [hx, opBits]
    rfl
  · unfold valueOf
    split <;> simp

/-- With three sources (form S). -/
theorem intOp_ternary_gives {f : Int → Int → Int → BitVec 128} {tys : Ty → Bool}
    {G : BitVec (valBits o.ty) → BitVec (valBits o.ty) → BitVec (valBits o.ty) → BitVec 128} (he : exec i s = intOp i o f s)
    (h : issuable i s = true) (hwf : wellFormed i = ternary tys o)
    (hr : ∀ a b c, f (valueOf o.ty a) (valueOf o.ty b) (valueOf o.ty c) = G a b c) :
    givesLanes i o.g o.d (regBits o.ty) (fun l => G (opBits s o l o.a) (opBits s o l o.b) (opThird s o l)) s := by
  refine alu_gives_as he h (isWidth_regBits _) (fun l => (congrArg (f _ _) (valueOf_opThird l)).trans (hr _ _ _)) fun n hd k l => ?_
  have hok := hwf.symm.trans (wellFormed_of_issuable h)
  obtain ⟨ha, hb⟩ := aluOk_uniform hok hd
  have hc : opThird s o k = opThird s o l := by
    unfold opThird
    split
    · rename_i c v hx
      exact opBits_uniform (aluOk_uniform_third hok hd hx c (List.mem_singleton_self _)) k l
    · rfl
  rw [opBits_uniform (ha o.a (List.mem_singleton_self _)) k l, opBits_uniform (hb o.b (List.mem_singleton_self _)) k l, hc]

/-- A natural number that is a word of w bits is formed and extended as that word. -/
theorem ofInt_natCast_toNat {ty : Ty} (r : BitVec (valBits ty)) : ofInt ty (r.toNat : Int) = widen ty r :=
  congrArg (widen ty) (by rw [BitVec.ofInt_natCast, BitVec.ofNat_toNat, BitVec.setWidth_eq])

/-- An instruction on the w bits of two sources completes with the word that the model computes as a natural number. -/
theorem bitsOp_binary_gives {f : Nat → Nat → Nat} {tys : Ty → Bool}
    {G : BitVec (valBits o.ty) → BitVec (valBits o.ty) → BitVec (valBits o.ty)} (he : exec i s = bitsOp i o f s)
    (h : issuable i s = true) (hwf : wellFormed i = binary tys o) (hr : ∀ a b, f a.toNat b.toNat = (G a b).toNat) :
    givesLanes i o.g o.d (regBits o.ty) (fun l => widen o.ty (G (opBits s o l o.a) (opBits s o l o.b))) s := by
  refine alu_gives_as he h (isWidth_regBits _) (fun l => ?_) fun n hd k l => ?_
  · rw [← ofInt_natCast_toNat, ← hr]
    rfl
  · obtain ⟨ha, hb⟩ := aluOk_uniform (hwf.symm.trans (wellFormed_of_issuable h)) hd
    rw [opBits_uniform (ha o.a (List.mem_singleton_self _)) k l, opBits_uniform (hb o.b (List.mem_singleton_self _)) k l]

/-- With one source. -/
theorem bitsOp_unary_gives {f : Nat → Nat → Nat} {tys : Ty → Bool} {G : BitVec (valBits o.ty) → BitVec (valBits o.ty)}
    (he : exec i s = bitsOp i o f s) (h : issuable i s = true) (hwf : wellFormed i = unary tys o)
    (hr : ∀ a b, f a.toNat b = (G a).toNat) :
    givesLanes i o.g o.d (regBits o.ty) (fun l => widen o.ty (G (opBits s o l o.a))) s := by
  refine alu_gives_as he h (isWidth_regBits _) (fun l => ?_) fun n hd k l => ?_
  · rw [← ofInt_natCast_toNat, ← hr]
    rfl
  · obtain ⟨ha, -⟩ := aluOk_uniform (hwf.symm.trans (wellFormed_of_issuable h)) hd
    rw [opBits_uniform (ha o.a (List.mem_singleton_self _)) k l]

/-- A third source of 32 bits whatever the TYPE (R74), where the destination is a scalar. -/
theorem control_uniform {m : AluForm} {w : Nat} {n : BitVec 6} (h : aluOk m o = true) (hm : m.c = .yes w) (hd : o.d = .s n)
    (k l : Nat) : s.me.control k o.x = s.me.control l o.x := by
  unfold Group.control
  split
  · rename_i c v hx
    have hu : uniform c = true := aluOk_uniform_third h hd hx c (by rw [hm]; exact List.mem_singleton_self _)
    rw [src_uniform hu s.me k l]
  · rfl

end Gives

/-! ### The values of the add family and the products (R57, R69, R70) -/

section Values

variable {ty : Ty}

/-- An integer result is formed as w bits and then extended (R57). -/
theorem ofInt_eq_widen (x : Int) : ofInt ty x = widen ty (BitVec.ofInt (valBits ty) x) := rfl

theorem addResult_eq_addFamily (sat : Bool) (x : Int) : addResult ty sat x = Statements.addFamily ty sat x := by
  cases sat
  · rfl
  · rw [addResult, Statements.addFamily, if_pos rfl, if_pos rfl, ofInt_eq_widen, clamp, minOf, maxOf]
    split <;> rfl

/-- The low half of the product is the same for signed and unsigned operands. -/
theorem ofInt_mul_valueOf (a b : BitVec (valBits ty)) : ofInt ty (valueOf ty a * valueOf ty b) = widen ty (a * b) := by
  rw [ofInt_eq_widen, BitVec.ofInt_mul, ofInt_valueOf, ofInt_valueOf]

end Values

section AddFamily

variable {s : State}

/-- Settles O1: each instruction completes with the exact result of its operands' values, as the model forms it. -/
theorem addAndMultiply : Obligations.AddAndMultiply := by
  unfold Obligations.AddAndMultiply
  refine fun s => ⟨fun o h => ?iadd, fun o h => ?isub, fun o h => ?imad, fun o h => ?iabs, fun o h => ?ineg, fun o h => ?mulLo,
    fun o h => ?mulHi⟩
  case iadd =>
    exact intOp_binary_gives (f := fun a b _ => addResult o.ty o.f (a + b))
      (G := fun a b => Statements.addFamily o.ty o.f (valueOf o.ty a + valueOf o.ty b)) rfl h rfl fun _ _ _ => addResult_eq_addFamily _ _
  case isub =>
    exact intOp_binary_gives (f := fun a b _ => addResult o.ty o.f (a - b))
      (G := fun a b => Statements.addFamily o.ty o.f (valueOf o.ty a - valueOf o.ty b)) rfl h rfl fun _ _ _ => addResult_eq_addFamily _ _
  case imad =>
    exact intOp_ternary_gives (f := fun a b c => addResult o.ty o.f (a * b + c))
      (G := fun a b c => Statements.addFamily o.ty o.f (valueOf o.ty a * valueOf o.ty b + valueOf o.ty c)) rfl h rfl
      fun _ _ _ => addResult_eq_addFamily _ _
  case iabs =>
    exact intOp_unary_gives (f := fun a _ _ => addResult o.ty o.f a.natAbs)
      (G := fun a => Statements.addFamily o.ty o.f |valueOf o.ty a|) rfl h rfl
      fun a _ _ => (addResult_eq_addFamily _ _).trans (by rw [Int.natCast_natAbs])
  case ineg =>
    exact intOp_unary_gives (f := fun a _ _ => addResult o.ty o.f (-a))
      (G := fun a => Statements.addFamily o.ty o.f (-valueOf o.ty a)) rfl h rfl fun _ _ _ => addResult_eq_addFamily _ _
  case mulLo =>
    exact intOp_binary_gives (f := fun a b _ => ofInt o.ty (a * b)) (G := fun a b => widen o.ty (a * b)) rfl h rfl fun a b _ => ofInt_mul_valueOf a b
  case mulHi =>
    refine intOp_binary_gives (f := fun a b _ => ofInt o.ty ((a * b).fdiv (2 ^ valBits o.ty)))
      (G := fun a b => widen o.ty (BitVec.ofInt _ (valueOf o.ty a * valueOf o.ty b / 2 ^ valBits o.ty))) rfl h rfl fun a b _ => ?_
    rw [Int.fdiv_eq_ediv_of_nonneg _ (by positivity)]
    rfl

end AddFamily

end Sys2Proof.Proofs
end

section
/-! SUPPORT. Bitwise operations, shifts, fields and counts of bits: what the model computes on natural numbers is the operation on
words of w bits that R71 to R75 name. -/

namespace Sys2Proof.Proofs

open Sys2Proof Machine Laws Forms

/-! ### Minimum and maximum (R71) -/

theorem ofInt_min_valueOf {ty : Ty} (a b : BitVec (valBits ty)) :
    ofInt ty (min (valueOf ty a) (valueOf ty b)) = widen ty (if valueOf ty a ≤ valueOf ty b then a else b) := by
  rw [min_def, ofInt_eq_widen]
  split <;> rw [ofInt_valueOf]

theorem ofInt_max_valueOf {ty : Ty} (a b : BitVec (valBits ty)) :
    ofInt ty (max (valueOf ty a) (valueOf ty b)) = widen ty (if valueOf ty a ≤ valueOf ty b then b else a) := by
  rw [max_def, ofInt_eq_widen]
  split <;> rw [ofInt_valueOf]

/-! ### Shifts (R73) -/

section Shifts

variable {w : Nat}

theorem shiftLeft_toNat (a : BitVec w) (n : Nat) : shiftLeft w a.toNat n = (a <<< n).toNat := by
  rw [shiftLeft, BitVec.toNat_shiftLeft, Nat.shiftLeft_eq]
  split
  · rename_i h
    exact (Nat.mod_eq_zero_of_dvd (Dvd.dvd.mul_left (Nat.pow_dvd_pow 2 h) _)).symm
  · rfl

theorem shiftRight_toNat (a : BitVec w) (n : Nat) : shiftRight w a.toNat n = (a >>> n).toNat := by
  rw [shiftRight, BitVec.toNat_ushiftRight, Nat.shiftRight_eq_div_pow]
  split
  · rename_i h
    exact (Nat.div_eq_of_lt (a.isLt.trans_le (Nat.pow_le_pow_right two_pos h))).symm
  · rfl

/-- A shift of w or more leaves copies of the sign alone. -/
theorem toInt_div_two_pow_min (a : BitVec w) (n : Nat) : a.toInt / 2 ^ min n w = a.toInt / 2 ^ n := by
  rcases le_total n w with h | h
  · rw [min_eq_left h]
  · rw [min_eq_right h]
    have hlt := BitVec.toInt_lt (x := a)
    have hle := BitVec.le_toInt (x := a)
    have hw : (2 : Int) ^ (w - 1) ≤ 2 ^ w := pow_le_pow_right₀ (by norm_num) (by omega)
    have hn : (2 : Int) ^ w ≤ 2 ^ n := pow_le_pow_right₀ (by norm_num) h
    have hp : (0 : Int) < 2 ^ w := by positivity
    rcases lt_or_ge a.toInt 0 with hneg | hpos
    · rw [Int.ediv_eq_neg_one_of_neg_of_le hneg (by omega), Int.ediv_eq_neg_one_of_neg_of_le hneg (by omega)]
    · rw [Int.ediv_eq_zero_of_lt hpos (by omega), Int.ediv_eq_zero_of_lt hpos (by omega)]

theorem ofInt_shiftArith (a : BitVec w) (n : Nat) : BitVec.ofInt w (shiftArith w a.toNat n) = a.sshiftRight n := by
  rw [shiftArith, BitVec.ofNat_toNat, BitVec.setWidth_eq, Int.fdiv_eq_ediv_of_nonneg _ (by positivity),
    toInt_div_two_pow_min, BitVec.sshiftRight, Int.shiftRight_eq_div_pow]
  norm_cast

theorem rotateLeft_toNat (hw : 0 < w) (a : BitVec w) (n : Nat) : rotateLeft w a.toNat n = (a.rotateLeft n).toNat := by
  have hm := Nat.mod_lt n hw
  rw [rotateLeft, BitVec.toNat_rotateLeft, Nat.shiftLeft_eq, Nat.shiftRight_eq_div_pow]
  generalize n % w = m at hm
  have hhigh : a.toNat / 2 ^ (w - m) < 2 ^ m := by
    rw [Nat.div_lt_iff_lt_mul (by positivity), ← pow_add, show m + (w - m) = w by omega]
    exact a.isLt
  have hw : 2 ^ w = 2 ^ (w - m) * 2 ^ m := by rw [← pow_add, Nat.sub_add_cancel hm.le]
  have hl := Nat.mul_le_mul_right (2 ^ m) (Nat.mod_lt a.toNat (Nat.two_pow_pos (w - m)))
  have hlow : a.toNat * 2 ^ m % 2 ^ w = a.toNat % 2 ^ (w - m) * 2 ^ m := by rw [hw, Nat.mul_mod_mul_right]
  rw [Nat.succ_mul] at hl
  rw [Nat.add_mod, hlow, Nat.mod_eq_of_lt (hhigh.trans (Nat.pow_lt_pow_right one_lt_two hm)), ← Nat.shiftLeft_eq,
    ← Nat.shiftLeft_add_eq_or_of_lt hhigh, Nat.shiftLeft_eq, Nat.mod_eq_of_lt (by rw [hw]; linarith)]

end Shifts

/-! ### Fields (R74) -/

section Fields

variable {w : Nat}

theorem fieldOf_eq (c : BitVec 32) : fieldOf w c = ((c.extractLsb' 0 8).toNat, Statements.fieldLen w c) := rfl

/-- The field of an operand, as a word of its own width. -/
theorem field_toNat (a : BitVec w) (p k : Nat) : ((a >>> p).setWidth k).toNat = a.toNat / 2 ^ p % 2 ^ k := by
  rw [BitVec.toNat_setWidth, BitVec.toNat_ushiftRight, Nat.shiftRight_eq_div_pow]

/-- The field is extended from its own highest bit. -/
theorem toInt_eq_field {k : Nat} (f : BitVec k) :
    f.toInt = if k ≠ 0 ∧ 2 ^ (k - 1) ≤ f.toNat then (f.toNat : Int) - 2 ^ k else f.toNat := by
  rcases Nat.eq_zero_or_pos k with rfl | hk
  · simp [BitVec.eq_nil f]
  · have h : 2 ^ k = 2 * 2 ^ (k - 1) := by rw [← pow_succ', Nat.sub_add_cancel hk]
    rw [BitVec.toInt_eq_toNat_cond]
    push_cast
    split <;> split <;> omega

theorem ofInt_extractField {ty : Ty} (a : BitVec (valBits ty)) (c : BitVec 32) :
    BitVec.ofInt (valBits ty) (extractField ty a.toNat c) =
      let field := (a >>> (c.extractLsb' 0 8).toNat).setWidth (Statements.fieldLen (valBits ty) c)
      if isSigned ty then field.signExtend (valBits ty) else field.setWidth (valBits ty) := by
  unfold extractField
  rw [fieldOf_eq]
  dsimp only
  rw [← field_toNat]
  generalize (a >>> (c.extractLsb' 0 8).toNat).setWidth (Statements.fieldLen (valBits ty) c) = f
  cases isSigned ty with
  | false => simp [BitVec.ofInt_natCast]
  | true =>
    rw [if_pos rfl, BitVec.signExtend, toInt_eq_field]
    simp

/-- What an insertion keeps above and below the field. -/
theorem insert_parts (a f p k : Nat) :
    a - a / 2 ^ p % 2 ^ k * 2 ^ p + f * 2 ^ p = 2 ^ p * (2 ^ k * (a / 2 ^ p / 2 ^ k) + f) + a % 2 ^ p := by
  have h1 := Nat.div_add_mod a (2 ^ p)
  have h2 := Nat.div_add_mod (a / 2 ^ p) (2 ^ k)
  generalize a / 2 ^ p / 2 ^ k = hi at *
  generalize a / 2 ^ p % 2 ^ k = old at *
  generalize a % 2 ^ p = lo at *
  have ha : a = 2 ^ p * (2 ^ k * hi) + old * 2 ^ p + lo := by rw [← h1, ← h2]; ring
  have hb : 2 ^ p * (2 ^ k * hi + f) = 2 ^ p * (2 ^ k * hi) + f * 2 ^ p := by ring
  omega

/-- A bit of an operand with a field put in. -/
theorem testBit_insert (a b p k i : Nat) : (a - a / 2 ^ p % 2 ^ k * 2 ^ p + b % 2 ^ k * 2 ^ p).testBit i
    = if p ≤ i ∧ i - p < k then b.testBit (i - p) else a.testBit i := by
  rw [insert_parts, Nat.testBit_two_pow_mul_add _ (Nat.mod_lt _ (by positivity)),
    Nat.testBit_two_pow_mul_add _ (Nat.mod_lt _ (by positivity))]
  simp only [Nat.testBit_mod_two_pow, Nat.testBit_div_two_pow]
  split
  · rename_i h
    rw [if_neg (by omega)]
    simp [h]
  · rename_i h
    split
    · rename_i hk
      rw [if_pos (by omega)]
      simp [hk]
    · rename_i hk
      rw [if_neg (by omega)]
      congr 1
      omega

theorem getLsbD_fieldMask (c : BitVec 32) (i : Nat) : (Statements.fieldMask w c).getLsbD i
    = decide (i < w ∧ (c.extractLsb' 0 8).toNat ≤ i ∧ i - (c.extractLsb' 0 8).toNat < Statements.fieldLen w c) := by
  rw [Statements.fieldMask, BitVec.getLsbD_shiftLeft, BitVec.getLsbD_ofNat, Nat.testBit_two_pow_sub_one,
    Bool.eq_iff_iff]
  simp only [Bool.and_eq_true, Bool.not_eq_true', decide_eq_true_eq, decide_eq_false_iff_not]
  omega

theorem ofInt_insertField {ty : Ty} (a b : BitVec (valBits ty)) (c : BitVec 32) :
    BitVec.ofInt (valBits ty) (insertField ty a.toNat b.toNat c) =
      let m := Statements.fieldMask (valBits ty) c
      (a &&& ~~~m) ||| ((b <<< (c.extractLsb' 0 8).toNat) &&& m) := by
  unfold insertField
  rw [fieldOf_eq]
  dsimp only
  rw [BitVec.ofInt_natCast]
  refine BitVec.eq_of_getLsbD_eq fun i hi => ?_
  rw [BitVec.getLsbD_ofNat, testBit_insert]
  simp only [BitVec.getLsbD_or, BitVec.getLsbD_and, BitVec.getLsbD_not, BitVec.getLsbD_shiftLeft, getLsbD_fieldMask, hi,
    true_and, decide_true, Bool.true_and, BitVec.testBit_toNat]
  split
  · rename_i h
    simp only [h, and_self, decide_true, Bool.not_true, Bool.and_false, Bool.false_or, Bool.and_true]
    rw [decide_eq_false (by omega), Bool.not_false, Bool.true_and]
  · rename_i h
    simp only [h, decide_false, Bool.not_false, Bool.and_true, Bool.and_false, Bool.or_false]

end Fields

/-! ### Counts of bits and their reversal (R75) -/

section Counts

variable {w : Nat}

theorem popCount_eq (a : BitVec w) : popCount w a.toNat = ((List.range w).filter fun i => a.getLsbD i).length :=
  List.countP_eq_length_filter

/-- The first numbers that meet a condition, where the next one does not. -/
theorem length_takeWhile_range {q : Nat → Bool} {n : Nat} (hn : n ≤ w) (h : ∀ i, i < n → q i = true)
    (hq : n < w → q n = false) : ((List.range w).takeWhile q).length = n := by
  obtain ⟨k, rfl⟩ := Nat.exists_eq_add_of_le hn
  rw [List.range_add, List.takeWhile_append_of_pos fun i hi => h i (List.mem_range.mp hi), List.length_append, List.length_range]
  cases k with
  | zero => simp
  | succ k => simp [List.range_succ_eq_map, hq (by omega)]

/-- The zeros below the lowest one. -/
theorem trailingZeros_eq (a : BitVec w) :
    trailingZeros w a.toNat = ((List.range w).takeWhile fun i => !a.getLsbD i).length := by
  unfold trailingZeros
  cases h : (List.range w).find? fun i => a.toNat.testBit i with
  | none =>
    rw [List.find?_range_eq_none] at h
    exact (length_takeWhile_range le_rfl (fun i hi => by simpa [BitVec.testBit_toNat] using h i hi) fun h => absurd h (lt_irrefl _)).symm
  | some n =>
    rw [List.find?_range_eq_some] at h
    obtain ⟨hn, hw, hl⟩ := h
    rw [List.mem_range] at hw
    exact (length_takeWhile_range hw.le (fun i hi => by simpa [BitVec.testBit_toNat] using hl i hi) fun _ => by simpa [BitVec.testBit_toNat] using hn).symm

/-- The zeros above the highest one. -/
theorem leadingZeros_eq (a : BitVec w) :
    leadingZeros w a.toNat = ((List.range w).takeWhile fun i => !a.getMsbD i).length := by
  unfold leadingZeros
  split
  · rename_i h
    obtain rfl : a = 0#w := BitVec.eq_of_toNat_eq (by simpa using h)
    exact (length_takeWhile_range le_rfl (fun i _ => by simp) fun h => absurd h (lt_irrefl _)).symm
  · rename_i h
    have hlog : a.toNat.log2 < w := (Nat.log2_lt h).mpr a.isLt
    refine (length_takeWhile_range (by omega) (fun i hi => ?_) fun hw => ?_).symm
    · have hz : a.toNat.testBit (w - 1 - i) = false :=
        Nat.testBit_lt_two_pow (Nat.lt_log2_self.trans_le (Nat.pow_le_pow_right two_pos (by omega)))
      simp [BitVec.getMsbD, BitVec.getLsbD, hz]
    · have hone : a.toNat.testBit (w - 1 - (w - 1 - a.toNat.log2)) = true := by
        rw [show w - 1 - (w - 1 - a.toNat.log2) = a.toNat.log2 by omega]
        exact Nat.testBit_log2 h
      simp [BitVec.getMsbD, BitVec.getLsbD, hone, hw]

/-- The first `n` bits, read the other way round. -/
theorem testBit_reverseBits (a n j : Nat) : (reverseBits n a).testBit j = (decide (j < n) && a.testBit (n - 1 - j)) := by
  induction n generalizing j with
  | zero => simp [reverseBits]
  | succ n ih =>
    have hs : reverseBits (n + 1) a = 2 * reverseBits n a + (a.testBit n).toNat := by
      rw [reverseBits, List.range_succ, List.foldl_append]
      cases h : a.testBit n <;> simp [reverseBits, h]
    rw [hs]
    cases j with
    | zero => cases h : a.testBit n <;> simp [h, Nat.testBit_zero]
    | succ j =>
      rw [Nat.testBit_succ, show (2 * reverseBits n a + (a.testBit n).toNat) / 2 = reverseBits n a by
        cases a.testBit n <;> simp only [Bool.toNat_true, Bool.toNat_false] <;> omega, ih]
      simp only [Nat.add_lt_add_iff_right, show n + 1 - 1 - (j + 1) = n - 1 - j by omega]

theorem ofNat_reverseBits (a : BitVec w) :
    BitVec.ofNat 128 (reverseBits w a.toNat) = a.reverse.setWidth 128 := by
  refine BitVec.eq_of_getLsbD_eq fun i hi => ?_
  rw [BitVec.getLsbD_ofNat, testBit_reverseBits, BitVec.getLsbD_setWidth, BitVec.getLsbD_reverse, BitVec.getMsbD]
  simp [hi, BitVec.getLsbD]

end Counts

/-! ### The instructions -/

theorem valBits_pos (ty : Ty) : 0 < valBits ty := by cases ty <;> decide

variable {s : State} {o : Alu Unit}

/-- `sra` (R73). -/
theorem sra_gives (h : issuable (.sra o) s = true) : givesLanes (.sra o) o.g o.d (regBits o.ty)
    (fun l => widen o.ty ((opBits s o l o.a).sshiftRight (opBits s o l o.b).toNat)) s := by
  refine alu_gives_as (f := fun g l => ofInt o.ty (shiftArith (valBits o.ty) (natOf o.ty (g.arg l o.ty o.x o.a))
    (natOf o.ty (g.arg l o.ty o.x o.b)))) rfl h (isWidth_regBits _)
    (fun l => congrArg (widen o.ty) (ofInt_shiftArith _ _)) fun n hd k l => ?_
  obtain ⟨ha, hb⟩ := aluOk_uniform (wellFormed_of_issuable h) hd
  rw [opBits_uniform (ha o.a (List.mem_singleton_self _)) k l, opBits_uniform (hb o.b (List.mem_singleton_self _)) k l]

/-- `bfe` (R74). -/
theorem bfe_gives (h : issuable (.bfe o) s = true) : givesLanes (.bfe o) o.g o.d (regBits o.ty)
    (fun l => ofInt o.ty (extractField o.ty (opBits s o l o.a).toNat (s.me.control l o.x))) s := by
  refine alu_gives_as (f := fun g l => ofInt o.ty (extractField o.ty (natOf o.ty (g.arg l o.ty o.x o.a)) (g.control l o.x)))
    rfl h (isWidth_regBits _) (fun l => rfl) fun n hd k l => ?_
  have hok := wellFormed_of_issuable h
  obtain ⟨ha, -⟩ := aluOk_uniform hok hd
  rw [opBits_uniform (ha o.a (List.mem_singleton_self _)) k l, control_uniform hok rfl hd k l]

/-- `bfi` (R74). -/
theorem bfi_gives (h : issuable (.bfi o) s = true) : givesLanes (.bfi o) o.g o.d (regBits o.ty)
    (fun l => ofInt o.ty (insertField o.ty (opBits s o l o.a).toNat (opBits s o l o.b).toNat (s.me.control l o.x))) s := by
  refine alu_gives_as (f := fun g l => ofInt o.ty (insertField o.ty (natOf o.ty (g.arg l o.ty o.x o.a))
    (natOf o.ty (g.arg l o.ty o.x o.b)) (g.control l o.x))) rfl h (isWidth_regBits _) (fun l => rfl) fun n hd k l => ?_
  have hok := wellFormed_of_issuable h
  obtain ⟨ha, hb⟩ := aluOk_uniform hok hd
  rw [opBits_uniform (ha o.a (List.mem_singleton_self _)) k l, opBits_uniform (hb o.b (List.mem_singleton_self _)) k l,
    control_uniform hok rfl hd k l]

/-- `brev` (R75). -/
theorem brev_gives (h : issuable (.brev o) s = true) : givesLanes (.brev o) o.g o.d (regBits o.ty)
    (fun l => (opBits s o l o.a).reverse.setWidth 128) s := by
  refine alu_gives_as (f := fun g l => BitVec.ofNat 128 (reverseBits (valBits o.ty) (natOf o.ty (g.arg l o.ty o.x o.a))))
    rfl h (isWidth_regBits _) (fun l => ofNat_reverseBits _) fun n hd k l => ?_
  obtain ⟨ha, -⟩ := aluOk_uniform (wellFormed_of_issuable h) hd
  rw [opBits_uniform (ha o.a (List.mem_singleton_self _)) k l]

/-- A count of bits is a word of w bits. -/
theorem toNat_ofNat_count {w n : Nat} (h : n ≤ w) : (BitVec.ofNat w n).toNat = n :=
  (BitVec.toNat_ofNat n w).trans (Nat.mod_eq_of_lt (h.trans_lt Nat.lt_two_pow_self))

/-- Numbers below w that a list keeps are at most w. -/
theorem length_le_of_sublist_range {ls : List Nat} {w : Nat} (h : ls.Sublist (List.range w)) : ls.length ≤ w :=
  h.length_le.trans_eq List.length_range

/-- Settles O2: each instruction completes with what the model computes on naturals or integers, which is the operation of its
rule on words. -/
theorem bitOperations : Obligations.BitOperations := by
  unfold Obligations.BitOperations
  refine fun s o => ⟨fun h => ?imin, fun h => ?imax, fun h => ?iand, fun h => ?ior, fun h => ?ixor, fun h => ?inot,
    fun h => ?shl, fun h => ?shr, fun h => sra_gives h, fun h => ?rotl, fun h => ?bfe, fun h => ?bfi, fun h => ?popc,
    fun h => ?clz, fun h => ?ctz, fun h => brev_gives h⟩
  case imin =>
    exact intOp_binary_gives (f := fun a b _ => ofInt o.ty (min a b))
      (G := fun a b => widen o.ty (if valueOf o.ty a ≤ valueOf o.ty b then a else b)) rfl h rfl
      fun a b _ => ofInt_min_valueOf a b
  case imax =>
    exact intOp_binary_gives (f := fun a b _ => ofInt o.ty (max a b))
      (G := fun a b => widen o.ty (if valueOf o.ty a ≤ valueOf o.ty b then b else a)) rfl h rfl
      fun a b _ => ofInt_max_valueOf a b
  case iand =>
    exact bitsOp_binary_gives (f := fun a b => a &&& b) (G := fun a b => a &&& b) rfl h rfl
      fun a b => (BitVec.toNat_and a b).symm
  case ior =>
    exact bitsOp_binary_gives (f := fun a b => a ||| b) (G := fun a b => a ||| b) rfl h rfl
      fun a b => (BitVec.toNat_or a b).symm
  case ixor =>
    exact bitsOp_binary_gives (f := fun a b => a ^^^ b) (G := fun a b => a ^^^ b) rfl h rfl
      fun a b => (BitVec.toNat_xor a b).symm
  case inot =>
    exact bitsOp_unary_gives (f := fun a _ => 2 ^ valBits o.ty - 1 - a) (G := fun a => ~~~a) rfl h rfl
      fun a _ => BitVec.toNat_not.symm
  case shl =>
    exact bitsOp_binary_gives (f := shiftLeft (valBits o.ty)) (G := fun a b => a <<< b.toNat) rfl h rfl
      fun a b => shiftLeft_toNat a b.toNat
  case shr =>
    exact bitsOp_binary_gives (f := shiftRight (valBits o.ty)) (G := fun a b => a >>> b.toNat) rfl h rfl
      fun a b => shiftRight_toNat a b.toNat
  case rotl =>
    exact bitsOp_binary_gives (f := rotateLeft (valBits o.ty)) (G := fun a b => a.rotateLeft b.toNat) rfl h rfl
      fun a b => rotateLeft_toNat (valBits_pos _) a b.toNat
  case bfe =>
    convert bfe_gives h using 2 with l
    rw [ofInt_eq_widen, ofInt_extractField]
  case bfi =>
    convert bfi_gives h using 2 with l
    rw [ofInt_eq_widen, ofInt_insertField]
  case popc =>
    refine bitsOp_unary_gives (f := fun a _ => popCount (valBits o.ty) a)
      (G := fun a => BitVec.ofNat _ ((List.range (valBits o.ty)).filter fun i => a.getLsbD i).length) rfl h rfl fun a _ => ?_
    rw [toNat_ofNat_count (length_le_of_sublist_range List.filter_sublist), popCount_eq]
  case clz =>
    refine bitsOp_unary_gives (f := fun a _ => leadingZeros (valBits o.ty) a)
      (G := fun a => BitVec.ofNat _ ((List.range (valBits o.ty)).takeWhile fun i => !a.getMsbD i).length) rfl h rfl
      fun a _ => ?_
    rw [toNat_ofNat_count (length_le_of_sublist_range (List.takeWhile_sublist _)), leadingZeros_eq]
  case ctz =>
    refine bitsOp_unary_gives (f := fun a _ => trailingZeros (valBits o.ty) a)
      (G := fun a => BitVec.ofNat _ ((List.range (valBits o.ty)).takeWhile fun i => !a.getLsbD i).length) rfl h rfl
      fun a _ => ?_
    rw [toNat_ofNat_count (length_le_of_sublist_range (List.takeWhile_sublist _)), trailingZeros_eq]

end Sys2Proof.Proofs
end

section
/-! SUPPORT. Floating-point instructions with a register destination, of which no lane traps (R64): the results of the lanes and
their flags are written and nothing else changes. -/

namespace Sys2Proof.Proofs

open Sys2Proof Machine Laws Forms Statements

/-! ### Results and flags of lanes -/

theorem flags_put (g : Group) (d : Dst) (l w : Nat) (x : BitVec 128) (k : Nat) : (g.put d l w x).flags k = g.flags k := by
  rw [put_rest]; rfl

/-- What a lane writes does not look at the flags. -/
theorem put_fpflags (g : Group) (d : Dst) (l w : Nat) (x : BitVec 128) (fl : Store (BitVec 5)) :
    Group.put { g with fpflags := fl } d l w x = { g.put d l w x with fpflags := fl } := by
  have hv : ∀ n, Group.setVwide { g with fpflags := fl } n l w x = { g.setVwide n l w x with fpflags := fl } := fun n => by
    unfold Group.setVwide
    dsimp only
    split
    · rfl
    · split <;> rfl
  cases d with
  | v n => exact hv _
  | vbl n b => exact congrArg (fun h : Group => h.setLatch b.toNat l (x.setWidth 32)) (hv _)
  | bl _ | s _ | none _ => rfl

/-- The flags are no destination. -/
theorem holds_of_fpflags {g : Group} {d : Dst} {l w : Nat} {x : BitVec 128} {fl : Store (BitVec 5)}
    (h : Group.holds { g with fpflags := fl } d l w x) : g.holds d l w x := by
  cases d <;> exact h

section FpOp

variable {i : Instr} {gd : Guard} {d : Dst} {w : Nat} {s : State}

/-- The flags apart, the lanes of a floating-point instruction write their results. -/
theorem fpLanes_put (g : Group) (d : Dst) (w : Nat) (act : Mask) (f : Nat → BitVec 128 × Exc) :
    { (lanes act).foldl (fpLane (fun g l x => g.put d l w x) f) g with fpflags := g.fpflags }
      = g.perLane d w act fun l => (f l).1 := by
  rw [fpLanes_regs fun g l x fl => put_fpflags g d l w x fl, perLane_eq_foldl]

/-- A floating-point instruction of which no lane traps completes: a scalar destination needs one result for all lanes. -/
theorem fpOp_gives {f : Group → Nat → BitVec 128 × Exc} (he : exec i s = fpOp i gd (fun g l x => g.put d l w x) f s)
    (h : issuable i s = true) (hw : IsWidth w) (hu : ∀ n, d = .s n → ∀ k l, f s.me k = f s.me l)
    (hq : quietLanes gd (f s.me) s) : givesFloat i gd d w (f s.me) s := by
  obtain ⟨t, ht, hwent, hregs, helse⟩ := fpOp_writes (write := fun g l x => g.put d l w x) h hq fun g l x => by
    rw [put_rest]; exact ⟨rfl, rfl⟩
  have hput := sameRegs_fpflags s.me.fpflags hregs
  rw [fpLanes_put] at hput
  refine ⟨t, he.trans ht, hwent, fun l hl ha => ?_, fun l hl => ?_, onlyDst_of_sameRegs hput (onlyDst_perLane hw), helse⟩
  · exact holds_of_fpflags (holds_of_sameRegs hput
      (holds_perLane (g := s.me) hw (fun n hn k => congrArg Prod.fst (hu n hn k l)) hl ha))
  · exact (flags_of_sameRegs hregs).trans (flags_fpLanes (fun g l x k => flags_put g d l w x k) hl)

end FpOp

/-! ### The forms of arithmetic instructions -/

section FpAlu

variable {F : Type} {i : Instr} {o : Alu F} {s : State} {tys : Ty → Bool}

theorem fpA_uniform (h : uniform o.a = true) (k l : Nat) : fpA s o k = fpA s o l :=
  funext fun j => by rw [fpA, fpA, Group.arg, Group.arg, src_uniform h s.me k l]

theorem fpB_uniform (h : uniform o.b = true) (k l : Nat) : fpB s o k = fpB s o l :=
  funext fun j => by rw [fpB, fpB, Group.arg, Group.arg, src_uniform h s.me k l]

/-- An instruction that acts element by element completes where no lane traps. -/
theorem fpAlu_gives {op : Nat → Nat → Nat → Nat × Exc} (he : exec i s = fpAlu i o op s)
    (hu : ∀ n, o.d = .s n → ∀ k l j, op (fpA s o k j) (fpB s o k j) (fpC s o k j) = op (fpA s o l j) (fpB s o l j) (fpC s o l j)) :
    floatGives i o s fun l k => op (fpA s o l k) (fpB s o l k) (fpC s o l k) := by
  intro h hq
  refine fpOp_gives (f := fun g l => perElem o.ty fun k => op (elemOf o.ty k (g.arg l o.ty o.x o.a))
    (elemOf o.ty k (g.arg l o.ty o.x o.b)) (elemOf o.ty k (match o.x with | .s c _ => g.arg l o.ty o.x c | _ => 0)))
    he h (isWidth_regBits _) (fun n hn k l => ?_) hq
  exact congrArg (perElem o.ty) (funext (hu n hn k l))

theorem binaryFp_gives {op : Nat → Nat → Nat × Exc} (he : exec i s = fpAlu i o (fun a b _ => op a b) s)
    (hwf : wellFormed i = binary tys o) : floatGives i o s fun l k => op (fpA s o l k) (fpB s o l k) := fun h =>
  fpAlu_gives (op := fun a b _ => op a b) he (fun n hn k l j => by
    obtain ⟨ha, hb⟩ := aluOk_uniform (hwf.symm.trans (wellFormed_of_issuable h)) hn
    rw [fpA_uniform (ha o.a (List.mem_singleton_self _)) k l, fpB_uniform (hb o.b (List.mem_singleton_self _)) k l]) h

theorem unaryFp_gives {op : Nat → Nat × Exc} (he : exec i s = fpAlu i o (fun a _ _ => op a) s)
    (hwf : wellFormed i = unary tys o) : floatGives i o s fun l k => op (fpA s o l k) := fun h =>
  fpAlu_gives (op := fun a _ _ => op a) he (fun n hn k l j => by
    obtain ⟨ha, -⟩ := aluOk_uniform (hwf.symm.trans (wellFormed_of_issuable h)) hn
    rw [fpA_uniform (ha o.a (List.mem_singleton_self _)) k l]) h

theorem ternaryFp_gives {op : Nat → Nat → Nat → Nat × Exc} (he : exec i s = fpAlu i o op s)
    (hwf : wellFormed i = ternary tys o) : floatGives i o s fun l k => op (fpA s o l k) (fpB s o l k) (fpC s o l k) := fun h =>
  fpAlu_gives he (fun n hn k l j => by
    have hok := hwf.symm.trans (wellFormed_of_issuable h)
    obtain ⟨ha, hb⟩ := aluOk_uniform hok hn
    have hc : fpC s o k = fpC s o l := by
      refine funext fun j => ?_
      unfold fpC
      split
      · rename_i c v hx
        have hu : uniform c = true := aluOk_uniform_third hok hn hx c (List.mem_singleton_self _)
        rw [Group.arg, Group.arg, src_uniform hu s.me k l]
      · rfl
    rw [fpA_uniform (ha o.a (List.mem_singleton_self _)) k l, fpB_uniform (hb o.b (List.mem_singleton_self _)) k l, hc]) h

end FpAlu

/-- Settles O4: each arithmetic instruction is one operation on the elements of its sources, and completes where no lane traps. -/
theorem floatArithmetic : Obligations.FloatArithmetic := by
  unfold Obligations.FloatArithmetic
  refine fun s o => ⟨?fadd, ?fsub, ?fmul, ?ffma, ?fdiv, ?fsqrt, ?frcp, ?frsqrt, ?fexp2, ?flog2⟩
  case fadd => exact binaryFp_gives (op := (fmtOf o.ty).add o.f) rfl rfl
  case fsub => exact binaryFp_gives (op := (fmtOf o.ty).sub o.f) rfl rfl
  case fmul => exact binaryFp_gives (op := (fmtOf o.ty).mul o.f) rfl rfl
  case ffma => exact ternaryFp_gives (op := (fmtOf o.ty).fma o.f) rfl rfl
  case fdiv => exact binaryFp_gives (op := (fmtOf o.ty).div o.f) rfl rfl
  case fsqrt => exact unaryFp_gives (op := (fmtOf o.ty).sqrt o.f) rfl rfl
  case frcp => exact unaryFp_gives (op := (fmtOf o.ty).rcp o.f) rfl rfl
  case frsqrt => exact unaryFp_gives (op := (fmtOf o.ty).rsqrt o.f) rfl rfl
  case fexp2 => exact unaryFp_gives (op := (fmtOf o.ty).exp2 o.f) rfl rfl
  case flog2 => exact unaryFp_gives (op := (fmtOf o.ty).log2 o.f) rfl rfl

/-! ### Sign operations, classes and conversion (R84, R86, R88) -/

section Other

variable {s : State}

/-- The model's sign bits are those of the TYPE. -/
theorem signBits_eq {ty : Ty} (h : isFloat ty = true) : BitVec.ofNat 128 (signBits ty) = signs ty := by
  revert h
  cases ty <;> decide

theorem aluOk_tys {F : Type} {m : AluForm} {o : Alu F} (h : aluOk m o = true) : m.tys o.ty = true := by
  simp only [aluOk, Bool.and_eq_true, and_assoc] at h
  exact h.1

/-- `fabs` and `fneg` change the sign bits alone. -/
theorem signOp_gives {i : Instr} {o : Alu Unit} {u : BitVec 128 → BitVec 128 → BitVec 128}
    (he : exec i s = alu i o.g o.d (regBits o.ty) (fun g l => u (g.arg l o.ty o.x o.a) (BitVec.ofNat 128 (signBits o.ty))) s)
    (hwf : wellFormed i = unary isFloat o) (h : issuable i s = true) :
    givesLanes i o.g o.d (regBits o.ty) (fun l => u (s.me.arg l o.ty o.x o.a) (signs o.ty)) s := by
  have hok := hwf.symm.trans (wellFormed_of_issuable h)
  refine alu_gives_as he h (isWidth_regBits _) (fun l => ?_) fun n hd k l => ?_
  · rw [signBits_eq (aluOk_tys hok)]
  · obtain ⟨ha, -⟩ := aluOk_uniform hok hd
    rw [Group.arg, Group.arg, src_uniform (ha o.a (List.mem_singleton_self _)) s.me k l]

theorem classBit_lt (m : Fmt) (x : Nat) : m.classBit x < 16 := by
  unfold Fmt.classBit
  split
  · split <;> decide
  · split <;> decide
  · split
    · split <;> decide
    · split
      · split <;> decide
      · split <;> decide

theorem ofNat_two_pow (k : Nat) : BitVec.ofNat 128 (2 ^ k) = BitVec.twoPow 128 k :=
  BitVec.eq_of_toNat_eq (by rw [BitVec.toNat_ofNat, BitVec.toNat_twoPow])

/-- The masks of both elements do not meet. -/
theorem class_masks {a b : Nat} (ha : a < 16) :
    BitVec.ofNat 128 (2 ^ a + 65536 * 2 ^ b) = BitVec.twoPow 128 a ||| BitVec.twoPow 128 (16 + b) := by
  have h : (2 ^ a + 65536 * 2 ^ b : Nat) = 2 ^ a ||| 2 ^ (16 + b) := by
    have hlt : 2 ^ a < 2 ^ 16 := Nat.pow_lt_pow_right one_lt_two ha
    rw [pow_add, Nat.lor_comm, ← Nat.two_pow_add_eq_or_of_lt hlt, add_comm]
  rw [h, BitVec.ofNat_or, ofNat_two_pow, ofNat_two_pow]

theorem classMask_eq (ty : Ty) (x : BitVec 128) :
    classMask ty x = BitVec.twoPow 128 ((fmtOf ty).classBit (elemOf ty 0 x))
      ||| (if packed ty then BitVec.twoPow 128 (16 + (fmtOf ty).classBit (elemOf ty 1 x)) else 0) := by
  unfold classMask
  dsimp only
  split
  · exact class_masks (classBit_lt _ _)
  · rw [Nat.add_zero]
    exact (ofNat_two_pow _).trans (BitVec.or_zero).symm

/-- `fclass` (R86). -/
theorem fclass_gives {o : Alu Unit} (h : issuable (.fclass o) s = true) : givesLanes (.fclass o) o.g o.d 32
    (fun l => classMask o.ty (s.me.arg l o.ty o.x o.a)) s := by
  refine alu_gives_as (f := fun g l => classMask o.ty (g.arg l o.ty o.x o.a)) rfl h isWidth_32 (fun _ => rfl) fun n hd k l => ?_
  obtain ⟨ha, -⟩ := aluOk_uniform (wellFormed_of_issuable h) hd
  rw [Group.arg, Group.arg, src_uniform (ha o.a (List.mem_singleton_self _)) s.me k l]

/-- `cvt` (R88). -/
theorem cvt_gives {o : Alu Ty} (h : issuable (.cvt o) s = true)
    (hq : quietLanes o.g (fun l => cvtValue o.ty o.f (cvtMode o.x) (s.me.src l (regBits o.f) 0 o.a)) s) :
    givesFloat (.cvt o) o.g o.d (regBits o.ty)
      (fun l => cvtValue o.ty o.f (cvtMode o.x) (s.me.src l (regBits o.f) 0 o.a)) s := by
  refine fpOp_gives (f := fun g l => cvtValue o.ty o.f (cvtMode o.x) (g.src l (regBits o.f) 0 o.a)) rfl h (isWidth_regBits _)
    (fun n hd k l => ?_) hq
  have hwf : cvt o = true := wellFormed_of_issuable h
  have hu := uniform_of_scalar (xs := [o.a]) (by simpa using Bool.and_elim_right hwf) hd (List.mem_singleton_self _)
  rw [src_uniform hu s.me k l]

end Other

/-- Settles O5: minimum, maximum and rounding act element by element, and the others write the values of their rules. -/
theorem floatOther : Obligations.FloatOther := by
  unfold Obligations.FloatOther
  refine fun s => ⟨fun o => ?fmin, fun o => ?fmax, fun o => ?frnd, fun o h => ?fabs, fun o h => ?fneg, fun o h => ?fclass,
    fun o h hq => cvt_gives h hq⟩
  case fmin => exact binaryFp_gives (op := (fmtOf o.ty).minmax false) rfl rfl
  case fmax => exact binaryFp_gives (op := (fmtOf o.ty).minmax true) rfl rfl
  case frnd => exact unaryFp_gives (op := (fmtOf o.ty).integral o.f) rfl rfl
  case fabs => exact signOp_gives (u := fun x m => x &&& ~~~m) rfl rfl h
  case fneg => exact signOp_gives (u := fun x m => x ^^^ m) rfl rfl h
  case fclass =>
    convert fclass_gives h using 2 with l
    exact (classMask_eq _ _).symm

end Sys2Proof.Proofs
end

section
/-! SUPPORT. The words of a floating-point format (R55, Table 4-1): what the zeros, the infinities, the default NaN, a rounded result and
a word with its sign turned read as; and the special results of Table 4-7. -/

namespace Sys2Proof.Proofs

open Sys2Proof Machine Laws Forms

/-! ### Words and values -/

/-- What the formats of Table 4-1 have in common. -/
structure StdFmt (m : Fmt) : Prop where
  e_min : 5 ≤ m.e
  e_max : m.e ≤ 11
  f_min : 2 ≤ m.f
  f_max : m.f ≤ 52
  f_bias : (m.f : Int) ≤ m.bias

theorem stdFmt_fmtOf (ty : Ty) : StdFmt (fmtOf ty) := by
  cases ty <;> exact ⟨by decide, by decide, by decide, by decide, by decide⟩

/-- The value of a word with a sign and, below it, `c`. -/
def magVal (m : Fmt) (neg : Bool) (c : Nat) : FVal :=
  if c / 2 ^ m.f = 2 ^ m.e - 1 then
    if c % 2 ^ m.f = 0 then .inf neg else .nan (c % 2 ^ m.f / 2 ^ (m.f - 1) == 0)
  else if c / 2 ^ m.f = 0 then .num neg (c % 2 ^ m.f) (m.emin - m.f)
  else .num neg (2 ^ m.f + c % 2 ^ m.f) ((c / 2 ^ m.f : Nat) - m.bias - m.f)

/-- The number with the other sign. -/
def negated : FVal → FVal
  | .nan s => .nan s
  | .inf n => .inf !n
  | .num n k e => .num (!n) k e

section Words

variable {m : Fmt} {neg : Bool} {c x : Nat}

theorem read_eq_magVal (m : Fmt) (x : Nat) : m.read x = magVal m (x.testBit (m.e + m.f)) (x % 2 ^ (m.e + m.f)) := by
  have hfr : x % 2 ^ (m.e + m.f) % 2 ^ m.f = x % 2 ^ m.f := Nat.mod_mod_of_dvd _ (Nat.pow_dvd_pow 2 (by omega))
  have hex : x % 2 ^ (m.e + m.f) / 2 ^ m.f = x / 2 ^ m.f % 2 ^ m.e := by
    rw [Nat.pow_add, Nat.mul_comm, Nat.mod_mul_right_div_self]
  have hneg : (x / 2 ^ (m.e + m.f) % 2 == 1) = x.testBit (m.e + m.f) := by
    rw [Nat.testBit_eq_decide_div_mod_eq]; rfl
  rw [magVal, hfr, hex, ← hneg]
  rfl

theorem read_sign_add (hc : c < 2 ^ (m.e + m.f)) : m.read (m.sign neg + c) = magVal m neg c := by
  rw [read_eq_magVal]
  cases neg with
  | false =>
    rw [Fmt.sign, if_neg Bool.false_ne_true, Nat.zero_add, Nat.mod_eq_of_lt hc, Nat.testBit_lt_two_pow hc]
  | true =>
    rw [Fmt.sign, if_pos rfl, Nat.add_mod_left, Nat.mod_eq_of_lt hc, Nat.testBit_two_pow_add_eq, Nat.testBit_lt_two_pow hc]
    rfl

theorem read_negate (m : Fmt) (x : Nat) : m.read (m.negate x) = negated (m.read x) := by
  have hmod : m.negate x % 2 ^ (m.e + m.f) = x % 2 ^ (m.e + m.f) := by
    rw [Fmt.negate, Nat.xor_mod_two_pow, Nat.mod_self, Nat.xor_zero]
  have hbit : (m.negate x).testBit (m.e + m.f) = !x.testBit (m.e + m.f) := by
    rw [Fmt.negate, Nat.testBit_xor, Nat.testBit_two_pow_self, Bool.xor_true]
  rw [read_eq_magVal, read_eq_magVal, hmod, hbit]
  unfold magVal
  split
  · split <;> rfl
  · split <;> rfl

theorem infinity_lt (m : Fmt) : m.infinity < 2 ^ (m.e + m.f) := by
  rw [Fmt.infinity, pow_add]
  exact Nat.mul_lt_mul_of_pos_right (Nat.sub_lt (Nat.two_pow_pos _) one_pos) (Nat.two_pow_pos _)

theorem infinity_div (m : Fmt) : m.infinity / 2 ^ m.f = 2 ^ m.e - 1 := Nat.mul_div_cancel _ (Nat.two_pow_pos _)

@[simp] theorem read_inf (m : Fmt) (neg : Bool) : m.read (m.inf neg) = .inf neg := by
  rw [Fmt.inf, read_sign_add (infinity_lt m), magVal, infinity_div, if_pos rfl, Fmt.infinity, Nat.mul_mod_left, if_pos rfl]

theorem read_zero (hm : StdFmt m) (neg : Bool) : m.read (m.zero neg) = .num neg 0 (m.emin - m.f) := by
  have he : 0 ≠ 2 ^ m.e - 1 := by
    have := Nat.pow_le_pow_right two_pos hm.e_min
    omega
  rw [Fmt.zero, ← Nat.add_zero (m.sign neg), read_sign_add (Nat.two_pow_pos _), magVal, Nat.zero_div, if_neg he, if_pos rfl,
    Nat.zero_mod]

theorem read_nan (hm : StdFmt m) : m.read m.nan = .nan false := by
  have hf : 2 ^ (m.f - 1) < 2 ^ m.f := Nat.pow_lt_pow_right one_lt_two (by have := hm.f_min; omega)
  have hdiv : m.nan / 2 ^ m.f = 2 ^ m.e - 1 := by
    rw [Fmt.nan, Fmt.infinity, Nat.add_comm, Nat.add_mul_div_right _ _ (Nat.two_pow_pos _), Nat.div_eq_of_lt hf, Nat.zero_add]
  have hmod : m.nan % 2 ^ m.f = 2 ^ (m.f - 1) := by
    rw [Fmt.nan, Fmt.infinity, Nat.add_comm, Nat.add_mul_mod_self_right, Nat.mod_eq_of_lt hf]
  have hlt : m.nan < 2 ^ (m.e + m.f) := by
    rw [pow_add, ← Nat.div_lt_iff_lt_mul (Nat.two_pow_pos _), hdiv]
    exact Nat.sub_lt (Nat.two_pow_pos _) one_pos
  have h := read_sign_add (neg := false) hlt
  rw [Fmt.sign, if_neg Bool.false_ne_true, Nat.zero_add] at h
  rw [h, magVal, hdiv, if_pos rfl, hmod, if_neg (Nat.two_pow_pos _).ne', Nat.div_self (Nat.two_pow_pos _)]
  rfl

/-- Below the infinities stand the finite numbers. -/
theorem magVal_of_lt (h : c < m.infinity) : magVal m neg c =
    if c < 2 ^ m.f then .num neg c (m.emin - m.f)
    else .num neg (2 ^ m.f + c % 2 ^ m.f) ((c / 2 ^ m.f : Nat) - m.bias - m.f) := by
  have hne : c / 2 ^ m.f ≠ 2 ^ m.e - 1 := ((Nat.div_lt_iff_lt_mul (Nat.two_pow_pos _)).mpr h).ne
  rw [magVal, if_neg hne]
  by_cases hc : c < 2 ^ m.f
  · rw [if_pos hc, if_pos (Nat.div_eq_of_lt hc), Nat.mod_eq_of_lt hc]
  · rw [if_neg hc, if_neg (Nat.div_pos (not_lt.mp hc) (Nat.two_pow_pos _)).ne']

/-- A word below the infinities reads as a finite number of its sign. -/
theorem read_finite (h : c < m.infinity) : ∃ k e, m.read (m.sign neg + c) = .num neg k e := by
  rw [read_sign_add (h.trans (infinity_lt m)), magVal_of_lt h]
  split
  · exact ⟨_, _, rfl⟩
  · exact ⟨_, _, rfl⟩

end Words

/-! ### A NaN result is the default NaN (R60) -/

/-- A word is no NaN, or it is the default one. -/
def DefaultNan (m : Fmt) (x : Nat) : Prop := (m.read x).isNan = true → x = m.nan

section DefaultNan

variable {m : Fmt} {rm : Rm} {neg more : Bool} {n x y z : Nat} {e : Int}

theorem defaultNan_nan (m : Fmt) : DefaultNan m m.nan := fun _ => rfl

theorem defaultNan_inf (m : Fmt) (neg : Bool) : DefaultNan m (m.inf neg) := fun h => by
  rw [read_inf] at h; cases h

theorem defaultNan_zero (hm : StdFmt m) (neg : Bool) : DefaultNan m (m.zero neg) := fun h => by
  rw [read_zero hm] at h; cases h

theorem defaultNan_of_lt {c : Nat} (h : c < m.infinity) : DefaultNan m (m.sign neg + c) := fun hn => by
  obtain ⟨k, e, hr⟩ := read_finite (neg := neg) h
  rw [hr] at hn; cases hn

theorem defaultNan_of_read {v : FVal} (hr : m.read x = v) (hv : v.isNan = false) : DefaultNan m x := fun h => by
  rw [hr, hv] at h; cases h

theorem infinity_pos (hm : StdFmt m) : 0 < m.infinity := by
  have := Nat.pow_le_pow_right two_pos hm.e_min
  exact Nat.mul_pos (by omega) (Nat.two_pow_pos _)

/-- A rounded result is never a NaN. -/
theorem defaultNan_round (hm : StdFmt m) : DefaultNan m (m.round rm neg n e more).1 := by
  have beyond : ∀ toInf : Bool, DefaultNan m (m.sign neg + if toInf then m.infinity else m.infinity - 1) := fun toInf => by
    cases toInf with
    | true => exact defaultNan_inf m neg
    | false => exact defaultNan_of_lt (Nat.sub_lt (infinity_pos hm) one_pos)
  unfold Fmt.round
  split
  · exact defaultNan_zero hm neg
  · dsimp only
    split
    · exact beyond _
    · exact defaultNan_of_lt (not_le.mp ‹_›)

theorem defaultNan_add (hm : StdFmt m) : DefaultNan m (m.add rm x y).1 := by
  unfold Fmt.add
  split
  · split
    · exact defaultNan_inf m _
    · exact defaultNan_nan m
  · exact defaultNan_inf m _
  · exact defaultNan_inf m _
  · exact defaultNan_round hm
  · exact defaultNan_nan m

theorem defaultNan_mul (hm : StdFmt m) : DefaultNan m (m.mul rm x y).1 := by
  unfold Fmt.mul
  split
  · exact defaultNan_nan m
  · exact defaultNan_nan m
  · exact defaultNan_inf m _
  · split
    · exact defaultNan_nan m
    · exact defaultNan_inf m _
  · split
    · exact defaultNan_nan m
    · exact defaultNan_inf m _
  · exact defaultNan_round hm

theorem defaultNan_fma (hm : StdFmt m) : DefaultNan m (m.fma rm x y z).1 := by
  have pick : ∀ (c : Bool) {p q : Nat × Exc}, DefaultNan m p.1 → DefaultNan m q.1 → DefaultNan m (if c then p else q).1 :=
    fun c _ _ hp hq => by cases c <;> assumption
  unfold Fmt.fma
  refine pick _ (defaultNan_nan m) ?_
  split
  · exact defaultNan_round hm
  · exact defaultNan_inf m _
  · refine pick _ (defaultNan_nan m) ?_
    dsimp only
    split
    · exact pick _ (defaultNan_inf m _) (defaultNan_nan m)
    · exact defaultNan_inf m _

theorem defaultNan_div (hm : StdFmt m) : DefaultNan m (m.div rm x y).1 := by
  unfold Fmt.div
  split
  · exact defaultNan_nan m
  · exact defaultNan_nan m
  · exact defaultNan_nan m
  · exact defaultNan_inf m _
  · exact defaultNan_zero hm _
  · split
    · split
      · exact defaultNan_nan m
      · exact defaultNan_inf m _
    · exact defaultNan_round hm

theorem defaultNan_sqrt (hm : StdFmt m) : DefaultNan m (m.sqrt rm x).1 := by
  unfold Fmt.sqrt
  split
  · exact defaultNan_nan m
  · split
    · exact defaultNan_nan m
    · exact defaultNan_inf m _
  · split
    · exact defaultNan_zero hm _
    · split
      · exact defaultNan_nan m
      · exact defaultNan_round hm

theorem defaultNan_rcp (hm : StdFmt m) : DefaultNan m (m.rcp rm x).1 := by
  unfold Fmt.rcp
  split
  · exact defaultNan_nan m
  · exact defaultNan_zero hm _
  · split
    · exact defaultNan_inf m _
    · exact defaultNan_round hm

theorem defaultNan_rsqrt (hm : StdFmt m) : DefaultNan m (m.rsqrt rm x).1 := by
  unfold Fmt.rsqrt
  split
  · exact defaultNan_nan m
  · split
    · exact defaultNan_nan m
    · exact defaultNan_zero hm false
  · split
    · exact defaultNan_inf m _
    · split
      · exact defaultNan_nan m
      · exact defaultNan_round hm

theorem defaultNan_exp2 (hm : StdFmt m) : DefaultNan m (m.exp2 rm x).1 := by
  unfold Fmt.exp2
  split
  · exact defaultNan_nan m
  · split
    · exact defaultNan_zero hm false
    · exact defaultNan_inf m _
  · dsimp only
    split_ifs <;> exact defaultNan_round hm

theorem defaultNan_log2 (hm : StdFmt m) : DefaultNan m (m.log2 rm x).1 := by
  unfold Fmt.log2
  split
  · exact defaultNan_nan m
  · split
    · exact defaultNan_nan m
    · exact defaultNan_inf m _
  · split
    · exact defaultNan_inf m _
    · split
      · exact defaultNan_nan m
      · dsimp only
        split_ifs <;> exact defaultNan_round hm

theorem defaultNan_minmax (g : Bool) : DefaultNan m (m.minmax g x y).1 := by
  have keep : ∀ {v}, ¬(m.read v).isNan = true → DefaultNan m v := fun h hn => absurd hn h
  unfold Fmt.minmax
  dsimp only
  split
  · exact defaultNan_nan m
  · rename_i hboth
    split
    · rename_i hx
      exact keep fun hy => hboth (by rw [hx, hy]; rfl)
    · rename_i hx
      split
      · exact keep hx
      · rename_i hy
        split_ifs
        · exact keep hy
        · exact keep hx
        · exact keep hy
        · exact keep hx

theorem defaultNan_integral (hm : StdFmt m) : DefaultNan m (m.integral rm x).1 := by
  unfold Fmt.integral
  split
  · exact defaultNan_nan m
  · exact defaultNan_of_read ‹_› rfl
  · split
    · exact defaultNan_of_read ‹_› rfl
    · exact defaultNan_round hm

theorem defaultNan_convert {dst : Fmt} (hd : StdFmt dst) : DefaultNan dst (m.convert dst rm x).1 := by
  unfold Fmt.convert
  split
  · exact defaultNan_nan dst
  · exact defaultNan_inf dst _
  · exact defaultNan_round hd

end DefaultNan

/-! ### Signalling NaNs (R60) -/

section Signalling

variable {m dst : Fmt} {rm : Rm} {x y z : Nat}

theorem isSnan_iff {v : FVal} : v.isSnan = true ↔ v = .nan true := by
  cases v <;> simp [FVal.isSnan]

theorem isSnan_negated {v : FVal} : (negated v).isSnan = v.isSnan := by cases v <;> rfl

/-- An operation of one operand raises invalid for a signalling NaN. -/
theorem unary_snan (h : (m.read x).isSnan = true) (lo hi : Int) :
    (m.sqrt rm x).2 = invalid ∧ (m.rcp rm x).2 = invalid ∧ (m.rsqrt rm x).2 = invalid ∧ (m.exp2 rm x).2 = invalid
      ∧ (m.log2 rm x).2 = invalid ∧ (m.integral rm x).2 = invalid ∧ (m.convert dst rm x).2 = invalid
      ∧ (m.toInt rm lo hi x).2 = invalid := by
  have hx := isSnan_iff.mp h
  refine ⟨?_, ?_, ?_, ?_, ?_, ?_, ?_, ?_⟩
  · rw [Fmt.sqrt, hx]; rfl
  · rw [Fmt.rcp, hx]; rfl
  · rw [Fmt.rsqrt, hx]; rfl
  · rw [Fmt.exp2, hx]; rfl
  · rw [Fmt.log2, hx]; rfl
  · rw [Fmt.integral, hx]; rfl
  · rw [Fmt.convert, hx]; rfl
  · rw [Fmt.toInt, hx]

theorem add_snan (h : (m.read x).isSnan = true ∨ (m.read y).isSnan = true) : (m.add rm x y).2 = invalid := by
  unfold Fmt.add
  rcases h with h | h <;> rw [isSnan_iff.mp h]
  · rfl
  · cases m.read x <;> simp [snanExc, FVal.isSnan]

theorem mul_snan (h : (m.read x).isSnan = true ∨ (m.read y).isSnan = true) : (m.mul rm x y).2 = invalid := by
  unfold Fmt.mul
  rcases h with h | h <;> rw [isSnan_iff.mp h]
  · rfl
  · cases m.read x <;> simp [snanExc, FVal.isSnan]

theorem div_snan (h : (m.read x).isSnan = true ∨ (m.read y).isSnan = true) : (m.div rm x y).2 = invalid := by
  unfold Fmt.div
  rcases h with h | h <;> rw [isSnan_iff.mp h]
  · rfl
  · cases m.read x <;> simp [snanExc, FVal.isSnan]

theorem sub_snan (h : (m.read x).isSnan = true ∨ (m.read y).isSnan = true) : (m.sub rm x y).2 = invalid := by
  refine add_snan (h.imp_right fun h => ?_)
  rwa [read_negate, isSnan_negated]

theorem minmax_snan (h : (m.read x).isSnan = true ∨ (m.read y).isSnan = true) (g : Bool) : (m.minmax g x y).2 = invalid := by
  have : [m.read x, m.read y].any FVal.isSnan = true := by simpa using h
  exact if_pos this

theorem cmp_snan (h : (m.read x).isSnan = true ∨ (m.read y).isSnan = true) (c : Cond) : (m.cmp c x y).2 = invalid := by
  have nan : ∀ {v : FVal}, v.isSnan = true → v.isNan = true := fun hv => by rw [isSnan_iff.mp hv]; rfl
  rw [(cmp_of_nan (c := c) (h.imp nan nan)).2, if_pos]
  rcases h with h | h <;> simp [h]

theorem fma_snan (h : (m.read x).isSnan = true ∨ (m.read y).isSnan = true ∨ (m.read z).isSnan = true) :
    (m.fma rm x y z).2 = invalid := by
  unfold Fmt.fma
  dsimp only
  rcases h with h | h | h <;> rw [isSnan_iff.mp h]
  · rfl
  · cases m.read x <;> simp [snanExc, FVal.isSnan, FVal.isNan]
  · cases m.read x <;> cases m.read y <;> simp [snanExc, FVal.isSnan, FVal.isNan]

end Signalling

/-! ### Zeros, infinities and negative operands (Table 4-7) -/

section Specials

variable {m : Fmt} {rm : Rm} {x n : Nat} {a b : Bool} {e : Int}

theorem add_inf_inf : m.add rm (m.inf a) (m.inf b) = if a = b then (m.inf a, noExc) else (m.nan, invalid) := by
  rw [Fmt.add, read_inf, read_inf]
  simp only [beq_iff_eq]

theorem mul_zero_inf (hm : StdFmt m) : m.mul rm (m.zero a) (m.inf b) = (m.nan, invalid) := by
  rw [Fmt.mul, read_zero hm, read_inf]
  exact if_pos rfl

theorem fma_zero_inf_nan (hm : StdFmt m) : m.fma rm (m.zero a) (m.inf b) m.nan = (m.nan, invalid) := by
  rw [Fmt.fma, read_zero hm, read_inf]
  rfl

theorem div_zero_zero (hm : StdFmt m) : m.div rm (m.zero a) (m.zero b) = (m.nan, invalid) := by
  rw [Fmt.div, read_zero hm, read_zero hm]
  rfl

theorem div_inf_inf : m.div rm (m.inf a) (m.inf b) = (m.nan, invalid) := by
  rw [Fmt.div, read_inf, read_inf]

/-- A finite operand that is not zero, with a zero and with infinities. -/
theorem div_num (hm : StdFmt m) (hx : m.read x = .num a n e) (hn : n ≠ 0) : m.div rm x (m.zero b) = (m.inf (a != b), divZero)
    ∧ m.div rm x (m.inf b) = (m.zero (a != b), noExc) ∧ m.div rm (m.inf b) x = (m.inf (b != a), noExc) := by
  refine ⟨?_, ?_, ?_⟩
  · rw [Fmt.div, hx, read_zero hm]
    exact (if_pos rfl).trans (if_neg hn)
  · rw [Fmt.div, hx, read_inf]
  · rw [Fmt.div, hx, read_inf]

/-- A negative operand that is not zero. -/
theorem roots_negative (hx : m.read x = .num true n e) (hn : n ≠ 0) : m.sqrt rm x = (m.nan, invalid)
    ∧ m.rsqrt rm x = (m.nan, invalid) ∧ m.log2 rm x = (m.nan, invalid) := by
  refine ⟨?_, ?_, ?_⟩
  · rw [Fmt.sqrt, hx]
    exact (if_neg hn).trans (if_pos rfl)
  · rw [Fmt.rsqrt, hx]
    exact (if_neg hn).trans (if_pos rfl)
  · rw [Fmt.log2, hx]
    exact (if_neg hn).trans (if_pos rfl)

end Specials

/-- Settles O7: every result is the default NaN or no NaN, a signalling NaN raises invalid, and each special case of the table is
one branch of its operation. -/
theorem floatSpecials : Obligations.FloatSpecials := by
  unfold Obligations.FloatSpecials
  refine ⟨fun ty dst rm g c lo hi x y z _ _ => ?_, fun ty rm a b x n e _ => ?_⟩
  · have hm := stdFmt_fmtOf ty
    exact ⟨defaultNan_add hm, defaultNan_add hm, defaultNan_mul hm, defaultNan_fma hm, defaultNan_div hm, defaultNan_sqrt hm,
      defaultNan_rcp hm, defaultNan_rsqrt hm, defaultNan_exp2 hm, defaultNan_log2 hm, defaultNan_minmax g, defaultNan_integral hm,
      defaultNan_convert (stdFmt_fmtOf dst), fun h => unary_snan h lo hi,
      fun h => ⟨add_snan h, sub_snan h, mul_snan h, div_snan h, minmax_snan h g, cmp_snan h c⟩, fma_snan⟩
  · have hm := stdFmt_fmtOf ty
    refine ⟨add_inf_inf, mul_zero_inf hm, fma_zero_inf_nan hm, div_zero_zero hm, div_inf_inf, fun hx hn => ?_,
      ?_, ?_, ?_, ?_, ?_, ?_, ?_, ?_, ?_, ?_, ?_⟩
    · obtain ⟨h1, h2, h3⟩ := div_num (rm := rm) (b := b) hm hx hn
      refine ⟨h1, h2, h3, fun ha => ?_⟩
      subst ha
      exact roots_negative hx hn
    · rw [Fmt.sqrt, read_zero hm]; rfl
    · rw [Fmt.sqrt, read_inf]; rfl
    · rw [Fmt.sqrt, read_inf]; rfl
    · rw [Fmt.rcp, read_zero hm]; rfl
    · rw [Fmt.rcp, read_inf]
    · rw [Fmt.rsqrt, read_zero hm]; rfl
    · rw [Fmt.rsqrt, read_inf]; rfl
    · rw [Fmt.log2, read_zero hm]; rfl
    · rw [Fmt.log2, read_inf]; rfl
    · rw [Fmt.exp2, read_inf]; rfl
    · rw [Fmt.exp2, read_inf]; rfl

end Sys2Proof.Proofs
end

section
/-! SUPPORT. Control registers (R62, R63, R117, R138): the register that a number names, what a write leaves in it, and that no other
control register changes. -/

namespace Sys2Proof.Proofs

open Sys2Proof Machine Laws Forms Statements

/-! ### The numbers of Table 6-5 -/

/-- The numbers of the context's registers. -/
def ctxNumbers : List Nat :=
  [0x100, 0x101, 0x102, 0x103, 0x104, 0x105, 0x106, 0x107, 0x108, 0x110, 0x111, 0x112, 0x113, 0x114, 0x115, 0x116, 0x117]

/-- The assigned numbers: of the group, of the context and of the core. -/
def crNumbers : List Nat := [0x001, 0x002, 0x003, 0x004] ++ ctxNumbers ++ [0x200, 0x201]

theorem mem_crNumbers {n : BitVec 12} (h : crnAssigned n = true) : n.toNat ∈ crNumbers :=
  List.mem_map_of_mem (f := BitVec.toNat) (List.contains_iff_mem.mp h)

theorem mem_crNumbers_of_lt {n : Nat} (hn : n < 4096) (h : crnAssigned (BitVec.ofNat 12 n) = true) : n ∈ crNumbers := by
  have := mem_crNumbers h
  rwa [BitVec.toNat_ofNat, Nat.mod_eq_of_lt hn] at this

/-- What a write may name (R117): FPCTL, FPFLAGS, SSTEP, LANDBASE or a register of the context. -/
theorem writable_cases {n : BitVec 12} (h : crnAssigned n = true) (hro : crnReadOnly n = false) :
    n.toNat = 0x001 ∨ n.toNat = 0x002 ∨ n.toNat = 0x003 ∨ n.toNat = 0x200 ∨ n.toNat ∈ ctxNumbers := by
  have hm := mem_crNumbers h
  simp only [crnReadOnly, Bool.or_eq_false_iff, beq_eq_false_iff_ne] at hro
  have h4 : n.toNat ≠ 0x004 := fun e => hro.1 (BitVec.eq_of_toNat_eq e)
  have h201 : n.toNat ≠ 0x201 := fun e => hro.2 (BitVec.eq_of_toNat_eq e)
  simp only [crNumbers, List.mem_append, List.mem_cons, List.not_mem_nil, or_false] at hm
  tauto

theorem ctxNumbers_bounds {n : Nat} (h : n ∈ ctxNumbers) : 0x100 ≤ n ∧ n < 0x118 := by
  simp only [ctxNumbers, List.mem_cons, List.not_mem_nil, or_false] at h
  omega

/-! ### The value of a control register -/

/-- The register that the statement names is the one that the model reads. -/
theorem controlIs_eq_crValue {s : State} {n l : Nat} (h : n ∈ crNumbers) : controlIs s n l = s.crValue n l := by
  simp only [crNumbers, ctxNumbers, List.cons_append, List.nil_append, List.mem_cons, List.not_mem_nil, or_false] at h
  rcases h with rfl | rfl | rfl | rfl | rfl | rfl | rfl | rfl | rfl | rfl | rfl | rfl | rfl | rfl | rfl | rfl | rfl | rfl | rfl
    | rfl | rfl | rfl | rfl
  case inr.inr.inl => rw [State.crValue, controlIs]; cases s.me.sstep <;> rfl
  case inr.inr.inr.inl => rw [State.crValue, controlIs]; cases s.me.privileged <;> rfl
  all_goals rfl

/-- A control register's value where everything that it is read from is the same. -/
theorem crValue_congr {s u : State} {m l : Nat} (h1 : m = 0x001 → u.me.fpctl = s.me.fpctl)
    (h2 : m = 0x002 → u.me.flags l = s.me.flags l) (h3 : m = 0x003 → u.me.sstep = s.me.sstep)
    (h4 : u.me.privileged = s.me.privileged)
    (h5 : m = 0x200 → (u.core u.cur.core).landbase = (s.core s.cur.core).landbase)
    (h6 : (u.core u.cur.core).landseq = (s.core s.cur.core).landseq)
    (h7 : (u.regs u.cur.core u.me.asid).read m = (s.regs s.cur.core s.me.asid).read m) :
    u.crValue m l = s.crValue m l := by
  unfold State.crValue
  dsimp only
  split
  · rw [h1 rfl]
  · rw [h2 rfl]
  · rw [h3 rfl]
  · rw [h4]
  · rw [h5 rfl]
  · rw [h6]
  · exact h7

/-- The end of an instruction leaves every control register. -/
theorem crValue_of_same {s t : State} {m l : Nat} (hr : s.me.sameRegs t.me) (he : s.elsewhereSame t) :
    t.crValue m l = s.crValue m l := by
  have hc := elsewhereSame_cur he
  obtain ⟨-, hcore, -, hctx⟩ := he
  have hregs : ∀ a, t.regs s.cur.core a = s.regs s.cur.core a := fun a => by
    rw [State.regs, State.regs, hcore, hctx]
  unfold Group.sameRegs at hr
  refine crValue_congr (fun _ => by rw [hr]) (fun _ => by rw [hr]; rfl) (fun _ => by rw [hr]) (by rw [hr]) (fun _ => ?_) ?_ ?_
  · rw [hc, hcore]
  · rw [hc, hcore]
  · rw [hc, hregs, hr]

/-! ### What a write leaves in a context's register (Tables 6-5 to 6-8) -/

theorem read_write_ne {r : CtxRegs} {n m : Nat} {v : Word} (h : m ≠ n) : (r.write n v).read m = r.read m := by
  unfold CtxRegs.write
  split <;> unfold CtxRegs.read <;> split <;> simp_all

theorem and_eq_zero_iff_byte (v : Word) : (v &&& 0xFF == 0) = decide (v.extractLsb' 0 8 = 0) := by
  rw [beq_eq_decide]
  refine decide_eq_decide.mpr ?_
  rw [← BitVec.toNat_inj, ← BitVec.toNat_inj, BitVec.toNat_and, BitVec.extractLsb'_toNat]
  exact iff_of_eq (congrArg (· = 0) (Nat.and_two_pow_sub_one_eq_mod v.toNat 8))

/-- Every register but WDOG keeps what the statement says. -/
theorem read_write_same {r : CtxRegs} {n : Nat} {v : Word} (hn : n ∈ ctxNumbers) (hw : n ≠ 0x104) :
    (r.write n v).read n = controlAfter n v := by
  simp only [ctxNumbers, List.mem_cons, List.not_mem_nil, or_false] at hn
  rcases hn with rfl | rfl | rfl | rfl | rfl | rfl | rfl | rfl | rfl | rfl | rfl | rfl | rfl | rfl | rfl | rfl | rfl
  case inr.inr.inr.inr.inl => exact absurd rfl hw
  case inr.inr.inr.inr.inr.inl =>
    simp only [CtxRegs.write, CtxRegs.read, controlAfter, and_eq_zero_iff_byte, decide_eq_true_eq]
  all_goals simp [CtxRegs.write, CtxRegs.read, controlAfter, dispMask]

/-- WDOG (Table 6-7): FIRED stays unless the write clears it, EXP is held to its range, and the other bits are 0. -/
theorem wdogWrite_spec (old v : Word) :
    let w := wdogWrite old v
    let e := (v.extractLsb' 0 6).toNat
    w.getLsbD 8 = (old.getLsbD 8 && !v.getLsbD 8) ∧ (w.extractLsb' 0 6).toNat = (if e = 0 then 0 else max 20 (min 34 e))
      ∧ ∀ k, 6 ≤ k → k ≠ 8 → w.getLsbD k = false := by
  intro w e
  have hw : w = (if old.getLsbD 8 && !v.getLsbD 8 then 0x100 else 0) ||| BitVec.ofNat 64 (if e = 0 then 0 else max 20 (min 34 e)) := rfl
  have hk : (if e = 0 then 0 else max 20 (min 34 e)) < 2 ^ 6 := by split <;> omega
  rw [hw]
  generalize (if e = 0 then 0 else max 20 (min 34 e)) = x at hk
  have hx : ∀ k, 6 ≤ k → x.testBit k = false := fun k h => Nat.testBit_lt_two_pow (hk.trans_le (Nat.pow_le_pow_right two_pos h))
  have hfired : ∀ (b : Bool) k, (if b then 0x100 else 0 : Word).getLsbD k = (b && decide (k = 8)) := fun b k => by
    cases b
    · simp
    · rw [if_pos rfl, show (0x100 : Word) = BitVec.twoPow 64 8 from rfl, BitVec.getLsbD_twoPow]
      simp [eq_comm]
  refine ⟨?_, ?_, fun k h6 h8 => ?_⟩
  · rw [BitVec.getLsbD_or, hfired, BitVec.getLsbD_ofNat, hx 8 (by omega)]
    simp
  · refine Nat.eq_of_testBit_eq fun k => ?_
    rw [BitVec.testBit_toNat, BitVec.getLsbD_extractLsb', BitVec.getLsbD_or, Nat.zero_add, hfired, BitVec.getLsbD_ofNat]
    by_cases h : k < 6
    · simp [h, show k ≠ 8 by omega, show k < 64 by omega]
    · simp [h, hx k (by omega)]
  · rw [BitVec.getLsbD_or, hfired, BitVec.getLsbD_ofNat, hx k h6]
    simp [h8]

/-! ### What a write leaves of the rest -/

/-- Between two states at most LANDBASE and the context's copy of the issuing core, and FPCTL, FPFLAGS, SSTEP and what a single
step has counted of the issuing group, differ. -/
structure WritesControl (s u : State) : Prop where
  cores : u = { s with cores := u.cores }
  others : ∀ c, c ≠ s.cur.core → u.core c = s.core c
  core : u.core s.cur.core = { s.core s.cur.core with
    groups := (u.core s.cur.core).groups, copies := (u.core s.cur.core).copies, landbase := (u.core s.cur.core).landbase }
  copies : ∀ a, a ≠ s.me.asid → (u.core s.cur.core).copies.find? a = (s.core s.cur.core).copies.find? a
  groups : ∀ g, g ≠ s.cur.gslot → u.group s.cur.core g = s.group s.cur.core g
  me : u.me = { s.me with slot0 := { s.me.slot0 with stepped := u.me.slot0.stepped }, slot1 := { s.me.slot1 with stepped := u.me.slot1.stepped },
                          fpctl := u.me.fpctl, fpflags := u.me.fpflags, sstep := u.me.sstep, steps := u.me.steps }

/-- A write of the issuing group. -/
theorem writesControl_onMe (s : State) {f : Group → Group} (hf : f s.me = { s.me with
    slot0 := { s.me.slot0 with stepped := (f s.me).slot0.stepped }, slot1 := { s.me.slot1 with stepped := (f s.me).slot1.stepped },
    fpctl := (f s.me).fpctl, fpflags := (f s.me).fpflags, sstep := (f s.me).sstep, steps := (f s.me).steps }) :
    WritesControl s (s.onMe f) := by
  have hcore : ∀ c, (s.onMe f).core c = { s.core c with groups := ((s.onMe f).core c).groups } := fun c => by
    rw [State.onMe, core_onGroup]
  refine ⟨rfl, fun c hc => ?_, ?_, fun a _ => ?_, fun g hg => ?_, by rw [me_onMe]; exact hf⟩
  · rw [State.onMe, State.onGroup, State.setGroup, core_onCore, if_neg hc]
  · rw [hcore]
  · rw [hcore]
  · rw [State.onMe, group_onGroup, if_neg fun h => hg h.2]

/-- A write of the issuing core. -/
theorem writesControl_onCore (s : State) {f : Core → Core}
    (hf : ∀ k, f k = { k with copies := (f k).copies, landbase := (f k).landbase })
    (hc : ∀ a, a ≠ s.me.asid → (f (s.core s.cur.core)).copies.find? a = (s.core s.cur.core).copies.find? a) :
    WritesControl s (s.onCore s.cur.core f) := by
  have hg : ∀ g, (s.onCore s.cur.core f).group s.cur.core g = s.group s.cur.core g := fun g => by
    rw [State.group, core_onCore_same, hf]; rfl
  refine ⟨rfl, fun c hc => ?_, ?_, fun a ha => ?_, fun g _ => hg g, ?_⟩
  · rw [core_onCore, if_neg hc]
  · rw [core_onCore_same, hf]
  · rw [core_onCore_same]
    exact hc a ha
  · rw [me_onCore (by rw [hf])]

/-- The end of an instruction leaves the other cores as they are. -/
theorem core_advance_other {s : State} {i : Instr} {c : Nat} (h : c ≠ s.cur.core) : (s.advance i).core c = s.core c := by
  have hr : s.retire.core c = s.core c := by
    unfold State.retire
    dsimp only
    split
    · rw [State.count, core_onCore, if_neg h]
    · show (s.count _ _ _ _).core c = _
      rw [State.count, core_onCore, if_neg h]
  rw [State.advance, State.onMySlot, State.onMe, State.onGroup, State.setGroup, core_onCore,
    if_neg (by rwa [elsewhereSame_cur (retire_spec s).2]), hr]

theorem mySlot_of_writesControl {s u : State} (h : WritesControl s u) :
    u.mySlot = { s.mySlot with stepped := u.mySlot.stepped } := by
  have hc : u.cur = s.cur := by rw [h.cores]
  unfold State.mySlot
  rw [h.me, hc]
  unfold Group.slot
  split <;> rfl

/-! ### The writes, one by one -/

/-- A write of register `n`: no other control register changes. -/
structure Writes (n : Nat) (s u : State) : Prop extends WritesControl s u where
  kept : ∀ m l, m ≠ n → u.crValue m l = s.crValue m l

section Writes

variable (s : State) (v : Word)

theorem core_onMe_rest (f : Group → Group) (c : Nat) :
    (s.onMe f).core c = { s.core c with groups := ((s.onMe f).core c).groups } := by
  rw [State.onMe, core_onGroup]

/-- What a write of the issuing group leaves of the other control registers. -/
theorem writes_onMe {n : Nat} {f : Group → Group} (hc : WritesControl s (s.onMe f))
    (h1 : n ≠ 0x001 → (f s.me).fpctl = s.me.fpctl) (h2 : n ≠ 0x002 → (f s.me).fpflags = s.me.fpflags)
    (h3 : n ≠ 0x003 → (f s.me).sstep = s.me.sstep) : Writes n s (s.onMe f) := by
  refine ⟨hc, fun m l hm => crValue_congr (fun e => ?_) (fun e => ?_) (fun e => ?_) ?_ (fun _ => ?_) ?_ ?_⟩
  · rw [me_onMe, h1 (e ▸ hm.symm)]
  · rw [me_onMe, Group.flags, Group.flags, h2 (e ▸ hm.symm)]
  · rw [me_onMe, h3 (e ▸ hm.symm)]
  · rw [hc.me]
  · show ((s.onMe f).core s.cur.core).landbase = _
    rw [core_onMe_rest]
  · show ((s.onMe f).core s.cur.core).landseq = _
    rw [core_onMe_rest]
  · rw [hc.me]
    show ((s.onMe f).regs s.cur.core s.me.asid).read m = _
    rw [State.regs, core_onMe_rest]
    rfl

/-- FPCTL. -/
theorem writes_fpctl : Writes 0x001 s (s.crWrite 0x001 v) ∧ ∀ l, (s.crWrite 0x001 v).crValue 0x001 l = v &&& 0x1F := by
  refine ⟨writes_onMe s (writesControl_onMe s rfl) (absurd rfl) (fun _ => rfl) fun _ => rfl, fun l => ?_⟩
  have hv : (v.setWidth 5).setWidth 64 = v &&& 0x1F := by
    refine BitVec.eq_of_toNat_eq ?_
    rw [BitVec.toNat_setWidth, BitVec.toNat_setWidth, BitVec.toNat_and, Nat.mod_eq_of_lt (by omega)]
    exact (Nat.and_two_pow_sub_one_eq_mod v.toNat 5).symm
  show (s.onMe _).me.fpctl.setWidth 64 = _
  rw [me_onMe]
  exact hv

/-- SSTEP. -/
theorem writes_sstep : Writes 0x003 s (s.crWrite 0x003 v) ∧ ∀ l, (s.crWrite 0x003 v).crValue 0x003 l = v &&& 1 := by
  refine ⟨writes_onMe s (writesControl_onMe s rfl) (fun _ => rfl) (fun _ => rfl) (absurd rfl), fun l => ?_⟩
  have hv : (if v.getLsbD 0 then 1 else 0 : Word) = v &&& 1 := by
    rw [← BitVec.testBit_toNat, Nat.testBit_zero]
    refine BitVec.eq_of_toNat_eq ?_
    rw [BitVec.toNat_and, show (1 : Word).toNat = 1 from rfl, Nat.and_one_is_mod]
    rcases Nat.mod_two_eq_zero_or_one v.toNat with h | h <;> rw [h] <;> rfl
  show (if (s.onMe _).me.sstep then 1 else 0 : Word) = _
  rw [me_onMe]
  exact hv

/-- What a write of the issuing core leaves of the other control registers. -/
theorem writes_onCore {n : Nat} {f : Core → Core}
    (hf : ∀ k, f k = { k with copies := (f k).copies, landbase := (f k).landbase })
    (ha : ∀ a, a ≠ s.me.asid → (f (s.core s.cur.core)).copies.find? a = (s.core s.cur.core).copies.find? a)
    (hl : n ≠ 0x200 → (f (s.core s.cur.core)).landbase = (s.core s.cur.core).landbase)
    (hr : ∀ m, m ≠ n → ((s.onCore s.cur.core f).regs s.cur.core s.me.asid).read m = (s.regs s.cur.core s.me.asid).read m) :
    Writes n s (s.onCore s.cur.core f) := by
  have hme : (s.onCore s.cur.core f).me = s.me := me_onCore (by rw [hf])
  refine ⟨writesControl_onCore s hf ha, fun m l hm => crValue_congr (fun _ => ?_) (fun _ => ?_) (fun _ => ?_) ?_ (fun e => ?_) ?_ ?_⟩
  · rw [hme]
  · rw [hme]
  · rw [hme]
  · rw [hme]
  · show ((s.onCore s.cur.core f).core s.cur.core).landbase = _
    rw [core_onCore_same]
    exact hl (e ▸ hm.symm)
  · show ((s.onCore s.cur.core f).core s.cur.core).landseq = _
    rw [core_onCore_same, hf]
  · rw [hme]
    exact hr m hm

/-- LANDBASE. -/
theorem writes_landbase : Writes 0x200 s (s.crWrite 0x200 v)
    ∧ ∀ l, (s.crWrite 0x200 v).crValue 0x200 l = v &&& 0xFFFFFFFFFFFFFFC0 := by
  refine ⟨writes_onCore s (f := fun k => { k with landbase := v &&& ~~~0x3F }) (fun _ => rfl) (fun _ _ => rfl) (absurd rfl)
    fun m _ => ?_, fun l => ?_⟩
  · rw [State.regs, core_onCore_same]
    rfl
  · show ((s.onCore s.cur.core _).core s.cur.core).landbase = _
    rw [core_onCore_same]
    rfl

/-- The core's copy of the context's registers after a write: a core that held none has taken the master block. -/
theorem regs_onRegs (c a : Nat) (f : CtxRegs → CtxRegs) : (s.onRegs c a f).regs c a = f (s.regs c a) := by
  rw [State.onRegs, State.regs, core_onCore_same]
  dsimp only
  rw [find_set_same]
  rfl

theorem crWrite_ctx {n : Nat} (hn : n ∈ ctxNumbers) :
    s.crWrite n v = s.onRegs s.cur.core s.me.asid fun r => r.write n v := by
  obtain ⟨h0, h1⟩ := ctxNumbers_bounds hn
  unfold State.crWrite
  split <;> try omega
  rfl

theorem crValue_ctx {n l : Nat} (hn : n ∈ ctxNumbers) : s.crValue n l = (s.regs s.cur.core s.me.asid).read n := by
  obtain ⟨h0, h1⟩ := ctxNumbers_bounds hn
  unfold State.crValue
  dsimp only
  split <;> try omega
  rfl

/-- A register of the context. -/
theorem writes_ctx {n : Nat} (hn : n ∈ ctxNumbers) : Writes n s (s.crWrite n v)
    ∧ ∀ l, (s.crWrite n v).crValue n l = ((s.regs s.cur.core s.me.asid).write n v).read n := by
  rw [crWrite_ctx s v hn]
  have hregs := regs_onRegs s s.cur.core s.me.asid fun r => r.write n v
  have hme : (s.onRegs s.cur.core s.me.asid fun r => r.write n v).me = s.me := me_onCore rfl
  refine ⟨writes_onCore s (fun _ => rfl) (fun a ha => find_set_ne _ _ ha) (fun _ => rfl) fun m hm => ?_, fun l => ?_⟩
  · exact (congrArg (CtxRegs.read · m) hregs).trans (read_write_ne hm)
  · rw [crValue_ctx _ hn, hme]
    exact congrArg (CtxRegs.read · n) hregs

/-- FPFLAGS: each active lane writes its own. -/
theorem writes_fpflags (act : Mask) (w : Nat → BitVec 5) :
    let u := s.onMe fun x => (lanes act).foldl (fun (x : Group) l => x.setFlags l (w l)) x
    Writes 0x002 s u ∧ ∀ l, l < 32 → u.me.flags l = if act.getLsbD l then w l else s.me.flags l := by
  have hrest : (lanes act).foldl (fun (x : Group) l => x.setFlags l (w l)) s.me
      = { s.me with fpflags := ((lanes act).foldl (fun x l => x.setFlags l (w l)) s.me).fpflags } := by
    have h := foldl_lanes_frame (r := fun h : Group => { h with fpflags := s.me.fpflags }) (ls := lanes act)
      (f := fun (x : Group) l => x.setFlags l (w l)) (fun h l _ => rfl) s.me
    exact congrArg (fun h : Group => { h with
      fpflags := ((lanes act).foldl (fun (x : Group) l => x.setFlags l (w l)) s.me).fpflags }) h
  refine ⟨writes_onMe s (writesControl_onMe s ?_) (fun _ => ?_) (absurd rfl) fun _ => ?_, fun l hl => ?_⟩
  · rw [hrest]
  · rw [hrest]
  · rw [hrest]
  · rw [me_onMe, foldl_lanes_once (r := fun g : Group => g.flags l) (k := l) (u := fun _ => w l) (nodup_lanes act)
      (fun a => (flags_setFlags _ _ _ _).trans (if_pos rfl))
      fun a k hk => (flags_setFlags _ _ _ _).trans (if_neg hk.symm)]
    simp only [mem_lanes, hl, true_and]

/-- A write of any register but FPFLAGS: what it keeps, and no other control register changes. -/
theorem crWrite_spec {n : Nat} (hn : n = 0x001 ∨ n = 0x003 ∨ n = 0x200 ∨ n ∈ ctxNumbers) :
    Writes n s (s.crWrite n v) ∧ (n ≠ 0x104 → ∀ l, (s.crWrite n v).crValue n l = controlAfter n v)
      ∧ (n = 0x104 → ∀ l, (s.crWrite n v).crValue n l = wdogWrite (s.crValue n l) v) := by
  rcases hn with rfl | rfl | rfl | hn
  · exact ⟨(writes_fpctl s v).1, fun _ => (writes_fpctl s v).2, fun h => absurd h (by decide)⟩
  · exact ⟨(writes_sstep s v).1, fun _ => (writes_sstep s v).2, fun h => absurd h (by decide)⟩
  · exact ⟨(writes_landbase s v).1, fun _ => (writes_landbase s v).2, fun h => absurd h (by decide)⟩
  · obtain ⟨hw, hv⟩ := writes_ctx s v hn
    refine ⟨hw, fun h l => (hv l).trans (read_write_same hn h), fun h l => (hv l).trans ?_⟩
    rw [crValue_ctx s hn, h]
    rfl

end Writes

/-! ### rdcr and wrcr (R138) -/

section Instructions

variable {s : State} {o : CrOp}

/-- A per-lane instruction whose values look at which lanes are active. -/
theorem perLane_gives {i : Instr} {gd : Guard} {d : Dst} {w : Nat} {f : Mask → Nat → BitVec 128}
    (he : exec i s = issue i gd s fun act => (s.onMe fun g => g.perLane d w act (f act)).advance i) (h : issuable i s = true)
    (hw : IsWidth w) (hu : ∀ n, d = .s n → ∀ act k l, f act k = f act l) :
    givesLanes i gd d w (f (s.me.active s.mySlot.mask gd)) s := by
  obtain ⟨v, sc, bl, e⟩ := perLane_rest s.me d w (s.me.active s.mySlot.mask gd) (f (s.me.active s.mySlot.mask gd))
  obtain ⟨t, ht, hwent, hregs, helse⟩ := issue_writes (gd := gd)
    (body := fun act => (s.onMe fun g => g.perLane d w act (f act)).advance i)
    (fun g => g.perLane d w (s.me.active s.mySlot.mask gd) (f (s.me.active s.mySlot.mask gd))) h (fun _ => rfl)
    (by rw [e]) (by rw [e]) (fun ha => by rw [ha, perLane_zero])
  refine ⟨t, he.trans ht, hwent, fun l hl ha => ?_, onlyDst_of_sameRegs hregs (onlyDst_perLane hw), helse⟩
  exact holds_of_sameRegs hregs (holds_perLane hw (fun n hn k => hu n hn _ k l) hl ha)

/-- A vector register of w bits holds a value by its low w bits alone. -/
theorem holds_low {g : Group} {n : BitVec 8} {l w : Nat} {x y : BitVec 128} (h : x.setWidth w = y.setWidth w)
    (hx : g.holds (.v n) l w x) : g.holds (.v n) l w y := by
  show g.vwide n.toNat l w = _
  rw [← h]
  exact hx

/-- A destination of `rdcr` is a vector register, or for the wide form a scalar. -/
theorem rdcr_dst (hw : wellFormed (.rdcr o) = true) : (∃ n, o.d = .v n) ∨ (o.wide = true ∧ ∃ n, o.d = .s n) := by
  obtain ⟨-, hd⟩ := Bool.and_eq_true_iff.mp hw
  cases h : o.d with
  | v n => exact .inl ⟨n, rfl⟩
  | s n =>
    rw [h] at hd
    exact .inr ⟨hd, n, rfl⟩
  | vbl _ _ | bl _ | none _ =>
    rw [h] at hd
    cases hd

theorem crnAssigned_of_rdcr (hw : wellFormed (.rdcr o) = true) : crnAssigned o.crn = true := by
  simp only [wellFormed, Bool.and_eq_true] at hw
  obtain ⟨⟨hw, -⟩, -⟩ := hw
  exact hw

/-- The value that `rdcr` writes in a lane. -/
def rdcrValue (s : State) (o : CrOp) (act : Mask) (l : Nat) : BitVec 128 :=
  let v := s.crValue o.crn.toNat (if dk o.d then lowest act else l)
  (if o.wide then v else (v.setWidth 32).setWidth 64).setWidth 128

/-- `rdcr`: the narrow form gives the low 32 bits, which are all that its destination holds. -/
theorem rdcr_gives (h : issuable (.rdcr o) s = true) : givesLanes (.rdcr o) o.g o.d (if o.wide then 64 else 32)
    (fun l => (controlIs s o.crn.toNat (if dk o.d then lowest (s.me.active s.mySlot.mask o.g) else l)).setWidth 128) s := by
  have hwf := wellFormed_of_issuable h
  have hn := mem_crNumbers (crnAssigned_of_rdcr hwf)
  obtain ⟨t, he, hwent, hx, hframe⟩ := perLane_gives (f := rdcrValue s o) rfl h
    (w := if o.wide then 64 else 32) (by split; exacts [isWidth_64, isWidth_32])
    (fun n hd act k l => by rw [rdcrValue, rdcrValue, hd]; rfl)
  refine ⟨t, he, hwent, fun l hl ha => ?_, hframe⟩
  have hx := hx l hl ha
  rw [rdcrValue, ← controlIs_eq_crValue hn] at hx
  cases hw : o.wide with
  | true =>
    rw [hw] at hx
    exact hx
  | false =>
    rw [hw] at hx
    obtain ⟨n, hd⟩ : ∃ n, o.d = .v n := (rdcr_dst hwf).resolve_right fun e => by rw [hw] at e; cases e.1
    rw [hd] at hx ⊢
    refine holds_low ?_ hx
    refine BitVec.eq_of_toNat_eq ?_
    simp only [Bool.false_eq_true, if_false, BitVec.toNat_setWidth]
    omega

/-- What a well-formed `wrcr` may name. -/
theorem wrcr_cases (hw : wellFormed (.wrcr o) = true) : o.crn.toNat = 0x001 ∨ o.crn.toNat = 0x002 ∨ o.crn.toNat = 0x003
    ∨ o.crn.toNat = 0x200 ∨ o.crn.toNat ∈ ctxNumbers := by
  simp only [wellFormed, Bool.and_eq_true, Bool.not_eq_true'] at hw
  obtain ⟨⟨⟨ha, hro⟩, -⟩, -⟩ := hw
  exact writable_cases ha hro

theorem crnAssigned_of_wrcr (hw : wellFormed (.wrcr o) = true) : crnAssigned o.crn = true := by
  simp only [wellFormed, Bool.and_eq_true] at hw
  obtain ⟨⟨⟨ha, -⟩, -⟩, -⟩ := hw
  exact ha

/-- The value that a lane of `wrcr` offers. -/
def wrcrValue (s : State) (o : CrOp) (l : Nat) : Word := (s.me.src l (if o.wide then 64 else 32) 0 o.a).setWidth 64

/-- The state in which `wrcr` has written its register. -/
def wrcrWritten (s : State) (o : CrOp) : State :=
  if o.crn == 0x002 then
    s.onMe fun x => (lanes (s.me.active s.mySlot.mask o.g)).foldl (fun (x : Group) l => x.setFlags l ((wrcrValue s o l).setWidth 5)) x
  else s.crWrite o.crn.toNat (wrcrValue s o (lowest (s.me.active s.mySlot.mask o.g)))

theorem exec_wrcr (h : issuable (.wrcr o) s = true) (ha : s.me.active s.mySlot.mask o.g ≠ 0) :
    exec (.wrcr o) s = .next ((wrcrWritten s o).advance (.wrcr o)) := by
  show execWrcr o s = _
  rw [execWrcr, issue_eq _ _ _ _ _ h, if_neg (by simpa using ha)]
  rfl

/-- What `wrcr` writes, by the register that it names. -/
theorem wrcrWritten_spec (hw : wellFormed (.wrcr o) = true) :
    let act := s.me.active s.mySlot.mask o.g
    let v := wrcrValue s o (lowest act)
    let n := o.crn.toNat
    let u := wrcrWritten s o
    n ∈ crNumbers ∧ Writes n s u ∧ (n ≠ 0x002 → n ≠ 0x104 → ∀ l, u.crValue n l = controlAfter n v)
      ∧ (n = 0x002 → ∀ l, l < 32 → u.me.flags l = if act.getLsbD l then (wrcrValue s o l).setWidth 5 else s.me.flags l)
      ∧ (n = 0x104 → u.crValue n 0 = wdogWrite (s.crValue n 0) v) := by
  intro act v n u
  refine ⟨mem_crNumbers (crnAssigned_of_wrcr hw), ?_⟩
  by_cases e : o.crn = 0x002
  · have hn : n = 0x002 := congrArg BitVec.toNat e
    obtain ⟨hwr, hf⟩ := writes_fpflags s act fun l => (wrcrValue s o l).setWidth 5
    rw [show u = s.onMe _ from if_pos (beq_iff_eq.mpr e), hn]
    exact ⟨hwr, fun h => absurd rfl h, fun _ => hf, fun h => absurd h (by decide)⟩
  · have hn : n ≠ 0x002 := fun h => e (BitVec.eq_of_toNat_eq h)
    have hc := (wrcr_cases hw).imp_right fun h => h.resolve_left hn
    obtain ⟨hwr, hv, hd⟩ := crWrite_spec s v hc
    rw [show u = s.crWrite n v from if_neg (by simpa using e)]
    exact ⟨hwr, fun _ => hv, fun h => absurd h hn, fun h => hd h 0⟩

/-- The state that `wrcr` leaves: its registers are those of the write, and the slot goes on. -/
theorem advance_writesControl {u : State} {i : Instr} (h : WritesControl s u) :
    let t := u.advance i
    slotWentOn i s t ∧ t = { s with cores := t.cores, ctxs := t.ctxs }
      ∧ (∀ a, t.ctx a = { s.ctx a with window := (t.ctx a).window })
      ∧ (∀ c, c ≠ s.cur.core → t.core c = s.core c)
      ∧ (∀ a, a ≠ s.me.asid → (t.core s.cur.core).copies.find? a = (s.core s.cur.core).copies.find? a)
      ∧ (∀ g, g ≠ s.cur.gslot → t.group s.cur.core g = s.group s.cur.core g)
      ∧ t.me = { s.me with slot0 := t.me.slot0, slot1 := t.me.slot1, fpctl := t.me.fpctl, fpflags := t.me.fpflags,
                           sstep := t.me.sstep, steps := t.me.steps } := by
  intro t
  obtain ⟨⟨hcur, hst, hpc, hmask, hrcv, -⟩, hregs, helse⟩ := advance_spec u i
  have hc : u.cur = s.cur := by rw [h.cores]
  have hmy := mySlot_of_writesControl h
  obtain ⟨hall, hcore, hgroup, hctx⟩ := helse
  have hu := h.cores
  refine ⟨⟨hcur.trans hc, hst, ?_, ?_, ?_⟩, ?_, fun a => ?_, fun c hne => ?_, fun a ha => ?_, fun g hg => ?_, ?_⟩
  · rw [hpc, State.nextPc, hmy, State.nextPc]
  · rw [hrcv, hmy]
  · rw [hmask, hmy]
  · rw [show t = _ from hall, hu]
  · rw [hctx a, hu]
    rfl
  · exact (core_advance_other (by rwa [hc])).trans (h.others c hne)
  · rw [hcore]
    exact h.copies a ha
  · rw [hgroup _ _ (.inr (by rwa [hc])), h.groups g hg]
  · have hm := hregs
    unfold Group.sameRegs at hm
    rw [show t.me = _ from hm, h.me]

end Instructions

/-- Settles O44: `rdcr` reads the register that the table names; `wrcr` writes it in the issuing group, core or copy, and then only
goes on. -/
theorem controlRegisters : Obligations.ControlRegisters := by
  unfold Obligations.ControlRegisters
  refine ⟨fun s o h => rdcr_gives h, fun s o => ?_⟩
  intro act v n h ha
  have hwf := wellFormed_of_issuable h
  obtain ⟨hn, hwr, hafter, hflags, hwdog⟩ := wrcrWritten_spec (s := s) hwf
  obtain ⟨-, hregs, helse⟩ := advance_spec (wrcrWritten s o) (.wrcr o)
  obtain ⟨hslot, hframe⟩ := advance_writesControl (i := .wrcr o) hwr.toWritesControl
  have hval : ∀ m l, m ∈ crNumbers → controlIs ((wrcrWritten s o).advance (.wrcr o)) m l = (wrcrWritten s o).crValue m l :=
    fun m l hm => (controlIs_eq_crValue hm).trans (crValue_of_same hregs helse)
  refine ⟨_, exec_wrcr h ha, hslot, fun h2 h104 l => (hval n l hn).trans (hafter h2 h104 l), fun h2 l hl => ?_, fun h104 => ?_,
    fun m l hm hne hasg => ?_, hframe⟩
  · exact (flags_of_sameRegs hregs).trans (hflags h2 l hl)
  · dsimp only
    rw [hval n 0 hn, hwdog h104, controlIs_eq_crValue hn]
    exact wdogWrite_spec _ _
  · have hm := mem_crNumbers_of_lt hm hasg
    rw [hval m l hm, hwr.kept m l hne, controlIs_eq_crValue hm]

end Sys2Proof.Proofs
end

section
/-! SUPPORT. A floating-point instruction of which some lanes trap (R64, R65): these park, each with its own cause, and the others
write their results and flags. -/

namespace Sys2Proof.Proofs

open Sys2Proof Machine Laws Forms Statements

/-! ### Lanes that park with causes of their own -/

/-- The lanes of a mask, each with its own cause and detail word. -/
def ownTraps (m : Mask) (own : Nat → BitVec 8) (detail : Nat → Word) : List LaneTrap := (lanes m).map fun l => ⟨l, own l, detail l⟩

/-- The lowest cause is that of some lane, and no lane has a lower one. -/
theorem lowestCause_spec {ts : List LaneTrap} (h : ts ≠ []) :
    (∃ x ∈ ts, x.cause = lowestCause ts) ∧ ∀ x ∈ ts, (lowestCause ts).toNat ≤ x.cause.toNat := by
  have fold : ∀ (r : List LaneTrap) (c : BitVec 8),
      let d := r.foldl (fun c x => if x.cause.toNat < c.toNat then x.cause else c) c
      (d = c ∨ ∃ x ∈ r, x.cause = d) ∧ d.toNat ≤ c.toNat ∧ ∀ x ∈ r, d.toNat ≤ x.cause.toNat := by
    intro r
    induction r with
    | nil => exact fun c => ⟨.inl rfl, le_rfl, fun x hx => absurd hx List.not_mem_nil⟩
    | cons y r ih =>
      intro c
      obtain ⟨hd, hc, hr⟩ := ih (if y.cause.toNat < c.toNat then y.cause else c)
      have hle : (if y.cause.toNat < c.toNat then y.cause else c).toNat ≤ c.toNat
          ∧ (if y.cause.toNat < c.toNat then y.cause else c).toNat ≤ y.cause.toNat := by
        split <;> omega
      refine ⟨?_, hc.trans hle.1, fun x hx => ?_⟩
      · rcases hd with hd | ⟨x, hx, he⟩
        · by_cases hy : y.cause.toNat < c.toNat
          · rw [if_pos hy] at hd
            exact .inr ⟨y, List.mem_cons_self, by rw [List.foldl_cons, if_pos hy, hd]⟩
          · rw [if_neg hy] at hd
            exact .inl (by rw [List.foldl_cons, if_neg hy, hd])
        · exact .inr ⟨x, List.mem_cons_of_mem _ hx, he⟩
      · rcases List.mem_cons.mp hx with rfl | hx
        · exact hc.trans hle.2
        · exact hr x hx
  obtain ⟨y, r, rfl⟩ := List.exists_cons_of_ne_nil h
  obtain ⟨hd, hc, hr⟩ := fold r y.cause
  refine ⟨?_, fun x hx => ?_⟩
  · rcases hd with hd | ⟨x, hx, he⟩
    · exact ⟨y, List.mem_cons_self, hd.symm⟩
    · exact ⟨x, List.mem_cons_of_mem _ hx, he⟩
  · rcases List.mem_cons.mp hx with rfl | hx
    · exact hc
    · exact hr x hx

section OwnTraps

variable {m : Mask} {own : Nat → BitVec 8} {detail : Nat → Word}

theorem ownTraps_ne_nil (hm : m ≠ 0) : ownTraps m own detail ≠ [] := by
  rw [ownTraps, ne_eq, List.map_eq_nil_iff]
  exact lanes_ne_nil hm

theorem trapMask_ownTraps : trapMask (ownTraps m own detail) = m := by
  rw [trapMask, ownTraps, List.map_map]
  exact (congrArg maskOf (List.map_id _)).trans (maskOf_lanes m)

theorem lowestCause_ownTraps (hm : m ≠ 0) :
    (∃ l, l < 32 ∧ m.getLsbD l = true ∧ own l = lowestCause (ownTraps m own detail))
      ∧ ∀ l, l < 32 → m.getLsbD l = true → (lowestCause (ownTraps m own detail)).toNat ≤ (own l).toNat := by
  obtain ⟨⟨x, hx, he⟩, hle⟩ := lowestCause_spec (ownTraps_ne_nil (own := own) (detail := detail) hm)
  obtain ⟨l, hl, rfl⟩ := List.mem_map.mp hx
  obtain ⟨h32, hb⟩ := mem_lanes.mp hl
  exact ⟨⟨l, h32, hb, he⟩, fun k hk hkb => hle _ (List.mem_map_of_mem (mem_lanes.mpr ⟨hk, hkb⟩))⟩

theorem detail_ownTraps {l : Nat} (hl : l < 32) (ha : m.getLsbD l = true) (v : Store Word) :
    ((ownTraps m own detail).foldl (fun d z => d.set z.lane z.detail) v).get 0 l = detail l := by
  rw [ownTraps, List.foldl_map]
  exact foldl_lanes_eq (r := fun v : Store Word => v.get 0 l) (fun v => get_set_same _ _ _ _)
    (fun v k _ hk h => (get_set_ne _ _ _ hk.symm).trans h) (mem_lanes.mpr ⟨hl, ha⟩) v

end OwnTraps

/-! ### An effect on the group before its lanes park -/

section Effect

variable {s : State} {i : Instr} {act : Mask} {ts : List LaneTrap} {F : Group → Group}

/-- What a change of the group's registers leaves of the group: its slots, its names and its team. -/
structure KeepsNames (g h : Group) : Prop where
  slot0 : h.slot0 = g.slot0
  slot1 : h.slot1 = g.slot1
  asid : h.asid = g.asid
  number : h.number = g.number
  team : h.team = g.team

theorem keepsNames_slot {g h : Group} (k : KeepsNames g h) (n : Nat) : h.slot n = g.slot n := by
  simp only [Group.slot, k.slot0, k.slot1]

theorem mySlot_onMe (k : KeepsNames s.me (F s.me)) : (s.onMe F).mySlot = s.mySlot := by
  rw [State.mySlot, me_onMe]
  exact keepsNames_slot k _

theorem finish_parked_after (hts : ts ≠ []) (hu : s.cur.gslot ≠ Config.supervisorSlot) :
    s.finish { parts := [], parked := ts } (fun s => s.onMe F) =
      ((s.onMe F).onMe fun z => z.setSlot s.cur.slot (s.mySlot.park (trapMask ts))).land s.cur.core s.cur.gslot s.cur.slot ts
        .none := by
  obtain ⟨d, hd⟩ := myPushes_zero s
  simp [State.finish, State.place, pushesFor, hts, hu, hd]

theorem finish_parked_rest_after (hts : ts ≠ []) (hu : s.cur.gslot ≠ Config.supervisorSlot)
    (k : KeepsNames s.me (F s.me)) (p : Slot) (h : s.aloneInGroup = true) : s.finish { parts := [p], parked := ts } (fun s => s.onMe F) =
      (((s.onMe F).retire.onMe fun z => z.setSlot s.cur.slot p).onMe fun z =>
        z.setSlot (other s.cur.slot) (s.mySlot.park (trapMask ts))).land s.cur.core s.cur.gslot (other s.cur.slot) ts .none := by
  obtain ⟨d, hd⟩ := myPushes_zero s
  have ho : (s.me.slot (other s.cur.slot)).state = .empty := by simpa [State.aloneInGroup] using h
  have hq : (s.onMe F).me.slot (other s.cur.slot) = s.me.slot (other s.cur.slot) := by rw [me_onMe, keepsNames_slot k]
  have hg := group_retire_onMe (s.onMe F) fun z => z.setSlot s.cur.slot p
  have hk := onGroup_retire_onMe (s.onMe F) fun z => z.setSlot s.cur.slot p
  simp only [show (s.onMe F).cur = s.cur from rfl] at hg hk
  simp [State.finish, State.place, pushesFor, ho, hq, hd, hts, hu, hg, hk]

/-- Lanes park once the group has been written: their slot and the rest stand as if the write had come before. -/
theorem step1_parks_after (ha : trapMask ts = act) (hts : ts ≠ []) (hu : s.cur.gslot ≠ Config.supervisorSlot)
    (k : KeepsNames s.me (F s.me)) (ho : s.mySlot.mask &&& ~~~act = 0 ∨ s.aloneInGroup = true) :
    ∃ u, Parks i act (s.onMe F) u ∧ s.step1 i ts .none false (fun s => s.onMe F)
      = u.land s.cur.core s.cur.gslot (parkSlot s act) ts .none := by
  have hmy := mySlot_onMe k
  have hcur : (s.onMe F).cur = s.cur := rfl
  have hslot : parkSlot (s.onMe F) act = parkSlot s act := by rw [parkSlot, hmy, hcur, parkSlot]
  unfold State.step1
  dsimp only
  rw [ha]
  by_cases h0 : s.mySlot.mask &&& ~~~act = 0
  · rw [if_pos (by simpa using h0), finish_parked_after hts hu, ha, parkSlot, if_pos h0]
    refine ⟨(s.onMe F).onMe fun z => z.setSlot s.cur.slot (s.mySlot.park act), ⟨rfl, ?_, elsewhereSame_onMe _ _, ?_, ?_⟩, rfl⟩
    · rw [me_onMe (s.onMe F)]
      exact sameRegs_setSlot _ _ _
    · rw [me_onMe (s.onMe F), hslot, parkSlot, if_pos h0, slot_setSlot_same, hmy]
    · rw [hmy, if_pos h0, me_onMe (s.onMe F)]
      exact slot_setSlot_other
  · have ho := ho.resolve_left h0
    have ho' : (s.onMe F).aloneInGroup = true := by
      rw [State.aloneInGroup, me_onMe, hcur, keepsNames_slot k]
      exact ho
    rw [if_neg (by simpa using h0), finish_parked_rest_after hts hu k _ ho, ha]
    have hd := divided_two (s.onMe F) (s.mySlot.go (s.nextPc i) (s.mySlot.mask &&& ~~~act) s.turn) (s.mySlot.park act) ho'
    rw [finish_two _ _ _ ho'] at hd
    obtain ⟨hc, hr, he, hm, hq⟩ := hd
    rw [parkSlot, if_neg h0]
    refine ⟨_, ⟨hc, hr, he, ?_, ?_⟩, rfl⟩
    · rw [hslot, parkSlot, if_neg h0, hmy]
      exact hq
    · rw [hmy, if_neg h0]
      refine (congrArg (fun x => slotIs x _ _ _) hm).mpr ⟨rfl, ?_, rfl, rfl⟩
      show s.nextPc i = (s.onMe F).nextPc i
      rw [State.nextPc, State.nextPc, hmy]

/-- The landing entry of lanes that parked after a write of the group names them as they stood before it. -/
theorem parkedAs_land_after {u : State} (h : Parks i act (s.onMe F) u) (k : KeepsNames s.me (F s.me))
    (hf : ∃ e, e < 2048 ∧ (s.entry s.cur.core e).state = .free) (hn : landsNear s)
    (hd : debugCause (lowestCause ts) = false) {detail : Nat → Word}
    (hdet : ∀ l, l < 32 → act.getLsbD l = true →
      (ts.foldl (fun (d : Store Word) z => d.set z.lane z.detail) []).get 0 l = detail l) :
    let t := u.land s.cur.core s.cur.gslot (parkSlot s act) ts .none
    parkedAs i act (lowestCause ts) detail s t ∧ (F s.me).sameRegs t.me := by
  intro t
  have hmy := mySlot_onMe k
  have hslot : parkSlot (s.onMe F) act = parkSlot s act := by rw [parkSlot, hmy, parkSlot]; rfl
  have hcore := core_onMe_rest s F s.cur.core
  have hasid : (s.onMe F).me.asid = s.me.asid := by rw [me_onMe, k.asid]
  have hentry : ∀ e, u.entry s.cur.core e = s.entry s.cur.core e := fun e => by
    refine (parks_entry h e).trans ?_
    rw [State.entry, State.entry, show (s.onMe F).cur = s.cur from rfl, hcore]
  have hnear : landsNear (s.onMe F) := by
    unfold landsNear at *
    rw [hasid, show (s.onMe F).cur = s.cur from rfl, hcore]
    exact hn
  have hme : u.group s.cur.core s.cur.gslot = u.me := by
    have := parks_group h
    exact this
  have humem : (F s.me).sameRegs u.me := by
    have := h.sameRegs
    rwa [me_onMe] at this
  have hureg := humem
  unfold Group.sameRegs at hureg
  obtain ⟨e, he, hfree, hcur, hgroups, hland⟩ := landAt_near (s := u) (c := s.cur.core) (g := s.cur.gslot)
    (p := placeOf (parkSlot s act)) (y := ((u.group s.cur.core s.cur.gslot).slot (parkSlot s act)).entry) (ts := ts) (acc := .none)
    (by simpa only [hentry] using hf) hd (by
      rw [hme, hureg]
      have := parks_landsNear h hnear
      rw [hasid] at this
      rw [k.asid]
      exact this)
  change t.cur = u.cur at hcur
  change (t.core s.cur.core).groups = _ at hgroups
  change t.entry s.cur.core e = _ at hland
  have htme : t.me = u.me := by
    rw [State.me, State.me, State.group, State.group, hcur, show u.cur = s.cur from h.cur]
    exact congrArg (fun x => Store.get Group.none x s.cur.gslot) hgroups
  have htmy : t.mySlot = u.mySlot := by rw [State.mySlot, State.mySlot, htme, hcur]
  have hpark : u.me.slot (parkSlot s act) = s.mySlot.park act := by
    have := h.parked
    rwa [hslot, hmy] at this
  have hpc : (s.onMe F).nextPc i = s.nextPc i := by rw [State.nextPc, State.nextPc, hmy]
  have hteam : u.team s.cur.core s.me.team = s.myTeam := by
    obtain ⟨-, huc, -⟩ := h.elsewhere
    rw [State.team, huc, hcore]
    rfl
  have hseq : (u.core s.cur.core).landseq = (s.core s.cur.core).landseq := by
    obtain ⟨-, huc, -⟩ := h.elsewhere
    rw [huc, hcore]
  refine ⟨⟨hcur.trans h.cur, ?_, ?_⟩, by rw [htme]; exact humem⟩
  · have hrest := h.rest
    rw [hmy, hpc, show (s.onMe F).cur = s.cur from rfl, me_onMe, keepsNames_slot k] at hrest
    rw [htme, htmy]
    exact hrest
  · have hp : t.me.slot (if s.mySlot.mask &&& ~~~act = 0 then s.cur.slot else other s.cur.slot) = s.mySlot.park act := by
      rw [htme]
      exact hpark
    rw [hp]
    refine ⟨rfl, rfl, rfl, rfl, e, he, (congrArg Landing.state (hentry e)).symm.trans hfree, ?_⟩
    rw [hland, landed, hme, hpark, hureg]
    dsimp only
    rw [k.asid, k.number, k.team, hteam, hseq]
    exact ⟨rfl, rfl, rfl, rfl, rfl, rfl, rfl, rfl, rfl, rfl, rfl, rfl, rfl, hdet⟩

end Effect

/-! ### The lanes that trap and the others (R64, R65) -/

section FpTraps

variable {act : Mask} {p : Nat → Bool} {f : Nat → BitVec 128 × Exc} {fpctl : Exc}

theorem lanes_maskOf_filter (act : Mask) (p : Nat → Bool) :
    lanes (maskOf ((lanes act).filter p)) = (lanes act).filter p := by
  show (List.range 32).filter _ = ((List.range 32).filter _).filter _
  rw [List.filter_filter]
  refine List.filter_congr fun l hl => ?_
  have hl := List.mem_range.mp hl
  rw [getLsbD_maskOf _ hl, Bool.eq_iff_iff]
  simp [hl, and_comm]

/-- The lanes that a test leaves out. -/
theorem lanes_and_not_maskOf (act : Mask) (p : Nat → Bool) :
    lanes (act &&& ~~~maskOf ((lanes act).filter p)) = (lanes act).filter fun l => !p l := by
  show (List.range 32).filter _ = ((List.range 32).filter _).filter _
  rw [List.filter_filter]
  refine List.filter_congr fun l hl => ?_
  have hl := List.mem_range.mp hl
  rw [BitVec.getLsbD_and, BitVec.getLsbD_not, getLsbD_maskOf _ hl]
  cases ha : act.getLsbD l <;> cases hp : p l <;> simp [hl, ha, hp]

/-- The lanes that raise an enabled exception. -/
def trapLanes (fpctl : Exc) (act : Mask) (f : Nat → BitVec 128 × Exc) : Mask :=
  maskOf ((lanes act).filter fun l => (f l).2 &&& fpctl != 0)

/-- A lane's own cause. -/
def fpCause (fpctl : Exc) (f : Nat → BitVec 128 × Exc) (l : Nat) : BitVec 8 := excCause ((f l).2 &&& fpctl)

/-- The lanes that trap park with their own causes; the detail word of a lane names its cause where that is not the lowest. -/
theorem fpTraps_eq (h : trapLanes fpctl act f ≠ 0) : ∃ c, fpTraps fpctl (fpResults act f)
    = ownTraps (trapLanes fpctl act f) (fpCause fpctl f) (fun l => if fpCause fpctl f l = c then 0 else (fpCause fpctl f l).setWidth 64)
    ∧ lowestCause (fpTraps fpctl (fpResults act f)) = c := by
  obtain ⟨c, hc⟩ : ∃ c, lowestCause (ownTraps (trapLanes fpctl act f) (fpCause fpctl f) fun _ => 0) = c := ⟨_, rfl⟩
  have hbad : ((fpResults act f).filter fun r => r.exc &&& fpctl != 0).map (fun r => LaneTrap.mk r.lane (excCause (r.exc &&& fpctl)) 0)
      = ownTraps (trapLanes fpctl act f) (fpCause fpctl f) fun _ => 0 := by
    rw [fpResults, List.filter_map, List.map_map, ownTraps, trapLanes, lanes_maskOf_filter]
    rfl
  have he : fpTraps fpctl (fpResults act f) = ownTraps (trapLanes fpctl act f) (fpCause fpctl f)
      fun l => if fpCause fpctl f l = c then 0 else (fpCause fpctl f l).setWidth 64 := by
    rw [fpTraps, hbad, hc, ownTraps, List.map_map]
    refine List.map_congr_left fun l _ => ?_
    by_cases hl : fpCause fpctl f l = c <;> simp [hl]
  refine ⟨c, he, ?_⟩
  obtain ⟨⟨l, hl, hb, hx⟩, hle⟩ := lowestCause_ownTraps (own := fpCause fpctl f) (detail := fun _ => 0) h
  obtain ⟨⟨k, hk, hkb, hy⟩, hle'⟩ := lowestCause_ownTraps (own := fpCause fpctl f)
    (detail := fun l => if fpCause fpctl f l = c then 0 else (fpCause fpctl f l).setWidth 64) h
  rw [he]
  refine BitVec.eq_of_toNat_eq (le_antisymm ?_ ?_)
  · exact (hle' l hl hb).trans_eq (congrArg BitVec.toNat (hx.trans hc))
  · exact (congrArg BitVec.toNat hc.symm).trans_le ((hle k hk hkb).trans_eq (congrArg BitVec.toNat hy))

/-- The other lanes write. -/
theorem fpWrite_eq (g : Group) (write : Group → Nat → BitVec 128 → Group) : g.fpWrite fpctl (fpResults act f) write
    = (lanes (act &&& ~~~trapLanes fpctl act f)).foldl (fpLane write f) g := by
  have h : (fpResults act f).filter (fun r => r.exc &&& fpctl == 0)
      = (lanes (act &&& ~~~trapLanes fpctl act f)).map fun l => LaneResult.mk l (f l).1 (f l).2 := by
    rw [fpResults, List.filter_map, trapLanes, lanes_and_not_maskOf]
    congr 1
    refine List.filter_congr fun l _ => ?_
    simp [bne]
  rw [Group.fpWrite, h, List.foldl_map]
  rfl

/-- No debugger stops at a floating-point exception. -/
theorem debugCause_fpCause (l : Nat) : debugCause (fpCause fpctl f l) = false := by
  have h : ∀ x : Exc, debugCause (excCause x) = false := by decide
  exact h _

end FpTraps

section FpOpTraps

variable {i : Instr} {gd : Guard} {d : Dst} {w : Nat} {s : State}

/-- The lanes of a mask write their results and flags. -/
def fpWrites (d : Dst) (w : Nat) (m : Mask) (f : Nat → BitVec 128 × Exc) (g : Group) : Group :=
  (lanes m).foldl (fpLane (fun g l x => g.put d l w x) f) g

theorem keepsNames_fpWrites (m : Mask) (f : Nat → BitVec 128 × Exc) (g : Group) : KeepsNames g (fpWrites d w m f g) := by
  have frame : ∀ {α : Type} (r : Group → α), (∀ h l x fl, r ((Group.put h d l w x).setFlags l fl) = r h) → r (fpWrites d w m f g) = r g :=
    fun r hr => foldl_lanes_frame (fun h l _ => hr h l _ _) g
  refine ⟨frame _ fun h l x fl => ?_, frame _ fun h l x fl => ?_, frame _ fun h l x fl => ?_, frame _ fun h l x fl => ?_,
    frame _ fun h l x fl => ?_⟩ <;> rw [put_rest] <;> rfl

/-- An instruction that issues with lanes: those that trap park, after the others have written. -/
theorem exec_fpOp {f : Group → Nat → BitVec 128 × Exc} (he : exec i s = fpOp i gd (fun g l x => g.put d l w x) f s)
    (h : issuable i s = true) (ha : s.me.active s.mySlot.mask gd ≠ 0) :
    let act := s.me.active s.mySlot.mask gd
    exec i s = .next (s.step1 i (fpTraps s.me.fpctl (fpResults act (f s.me))) .none false fun s' =>
      s'.onMe (fpWrites d w (act &&& ~~~trapLanes s.me.fpctl act (f s.me)) (f s.me))) := by
  intro act
  have hw : (fun g : Group => g.fpWrite s.me.fpctl (fpResults act (f s.me)) fun g l x => g.put d l w x)
      = fpWrites d w (act &&& ~~~trapLanes s.me.fpctl act (f s.me)) (f s.me) := funext fun g => fpWrite_eq g _
  rw [he, fpOp, issue_eq _ _ _ _ _ h, if_neg (by simpa using ha), ← hw]
  rfl

/-- Lanes that trap park, and the others write their results and flags (R64, R65). -/
theorem fpOp_traps {f : Group → Nat → BitVec 128 × Exc} (he : exec i s = fpOp i gd (fun g l x => g.put d l w x) f s)
    (h : issuable i s = true) (hw : IsWidth w) (hu : ∀ n, d = .s n → ∀ k l, f s.me k = f s.me l) :
    let act := s.me.active s.mySlot.mask gd
    let bad := trapLanes s.me.fpctl act (f s.me)
    let own := fpCause s.me.fpctl (f s.me)
    bad ≠ 0 → canTrap bad s → ∃ t c, exec i s = .next t
      ∧ (∃ l, l < 32 ∧ bad.getLsbD l = true ∧ own l = c) ∧ (∀ l, l < 32 → bad.getLsbD l = true → c.toNat ≤ (own l).toNat)
      ∧ parkedAs i bad c (fun l => if own l = c then 0 else (own l).setWidth 64) s t
      ∧ (∀ l, l < 32 → (act &&& ~~~bad).getLsbD l = true → t.me.holds d l w (f s.me l).1)
      ∧ (∀ l, l < 32 → t.me.flags l = if (act &&& ~~~bad).getLsbD l then s.me.flags l ||| (f s.me l).2 else s.me.flags l)
      ∧ s.me.onlyDst { t.me with fpflags := s.me.fpflags } d w (fun l => (act &&& ~~~bad).getLsbD l) := by
  intro act bad own hbad ⟨hsup, hfree, hrest, hnear⟩
  have ha : act ≠ 0 := fun h0 => hbad (by
    show trapLanes s.me.fpctl act (f s.me) = 0
    rw [h0, trapLanes, lanes_zero]
    rfl)
  obtain ⟨c, hts, hc⟩ := fpTraps_eq (fpctl := s.me.fpctl) (act := act) (f := f s.me) hbad
  obtain ⟨hown, hle⟩ := lowestCause_ownTraps (own := own) (detail := fun l => if own l = c then 0 else (own l).setWidth 64) hbad
  rw [← hts, hc] at hown hle
  have hk := keepsNames_fpWrites (d := d) (w := w) (act &&& ~~~bad) (f s.me) s.me
  obtain ⟨u, hp, hu'⟩ := step1_parks_after (i := i) (ts := fpTraps s.me.fpctl (fpResults act (f s.me)))
    (by rw [hts, trapMask_ownTraps]) (by rw [hts]; exact ownTraps_ne_nil hbad) hsup hk hrest
  obtain ⟨hparked, hregs⟩ := parkedAs_land_after (ts := fpTraps s.me.fpctl (fpResults act (f s.me)))
    (detail := fun l => if own l = c then 0 else (own l).setWidth 64) hp hk hfree hnear
    (by rw [hc]; obtain ⟨l, -, -, e⟩ := hown; rw [← e]; exact debugCause_fpCause l)
    fun l hl hb => by rw [hts]; exact detail_ownTraps hl hb _
  have hput := sameRegs_fpflags s.me.fpflags hregs
  rw [fpWrites, fpLanes_put] at hput
  rw [hc] at hparked
  refine ⟨_, c, (exec_fpOp he h ha).trans (congrArg _ hu'), hown, hle, hparked, fun l hl hb => ?_, fun l hl => ?_,
    onlyDst_of_sameRegs hput (onlyDst_perLane hw)⟩
  · exact holds_of_fpflags (holds_of_sameRegs hput
      (holds_perLane (g := s.me) hw (fun n hn k => congrArg Prod.fst (hu n hn k l)) hl hb))
  · exact (flags_of_sameRegs hregs).trans (flags_fpLanes (fun g l x k => flags_put g d l w x k) hl)

end FpOpTraps

/-- What `fadd` finds in a lane. -/
def faddLane (o : Alu Rm) (g : Group) (l : Nat) : BitVec 128 × Exc :=
  perElem o.ty fun k => (fmtOf o.ty).add o.f (elemOf o.ty k (g.arg l o.ty o.x o.a)) (elemOf o.ty k (g.arg l o.ty o.x o.b))

theorem exec_fadd (o : Alu Rm) (s : State) :
    exec (.fadd o) s = fpOp (.fadd o) o.g (fun g l x => g.put o.d l (regBits o.ty) x) (faddLane o) s := rfl

/-- Settles O42: an `fadd` is one of the instructions whose lanes trap each for itself. -/
theorem floatTraps : Obligations.FloatTraps := by
  unfold Obligations.FloatTraps
  intro s o f act en bad own hi
  have h := fpOp_traps (exec_fadd o s) hi (isWidth_regBits _) fun n hn k l => by
    obtain ⟨ha, hb⟩ := aluOk_uniform (wellFormed_of_issuable hi) hn
    unfold faddLane Group.arg
    rw [src_uniform (ha o.a (List.mem_singleton_self _)) s.me k l, src_uniform (hb o.b (List.mem_singleton_self _)) s.me k l]
  exact h

end Sys2Proof.Proofs
end

section
/-! SUPPORT. Rounding once (04 R58, Table 4-2): a magnitude between two neighbours of a grid goes to the one that the mode and the part
that is cut off name; `Fmt.round` and `roundInt` round so to the numbers of a format and to the integers. -/

namespace Sys2Proof.Proofs

open Sys2Proof Machine Laws Forms Statements

/-! ### Rounding to one of two neighbours -/

/-- A magnitude with its sign. -/
def signed (neg : Bool) (a : ℝ) : ℝ := if neg then -a else a

/-- The mode that does to a magnitude what the mode does to the number with the other sign. -/
def mirrored : Rm → Rm
  | .rup => .rdn
  | .rdn => .rup
  | rm => rm

/-- A mode as it acts on the magnitude of a number. -/
def onMagnitude (neg : Bool) (rm : Rm) : Rm := if neg then mirrored rm else rm

/-- A positive magnitude goes to the greater neighbour: `t` is its place between the two, `odd` the last bit of the lesser. -/
def goesUp (rm : Rm) (odd : Bool) (t : ℝ) : Prop :=
  match rm with
  | .rne => 1 / 2 < t ∨ (t = 1 / 2 ∧ odd = true)
  | .rup => 0 < t
  | .rtz | .rdn => False

/-- Two neighbours of a grid that holds the negative of each of its numbers: nothing of the grid lies between them, and one of them
is even. -/
structure Neighbours (grid even : ℝ → Prop) (odd : Bool) (lo hi : ℝ) : Prop where
  neg_grid : ∀ y, grid y → grid (-y)
  neg_even : ∀ y, even y → even (-y)
  lo_nonneg : 0 ≤ lo
  lo_grid : grid lo
  hi_grid : grid hi
  lo_even : odd = false → even lo
  hi_even : odd = true → even hi
  gap : ∀ y, grid y → |y| ≤ lo ∨ hi ≤ |y|

section Signed

variable {neg : Bool} {a b : ℝ}

@[simp] theorem signed_true (a : ℝ) : signed true a = -a := rfl
@[simp] theorem signed_false (a : ℝ) : signed false a = a := rfl
@[simp] theorem signed_zero (neg : Bool) : signed neg 0 = 0 := by cases neg <;> simp

@[simp] theorem abs_signed (neg : Bool) (a : ℝ) : |signed neg a| = |a| := by cases neg <;> simp

@[simp] theorem signed_inj : signed neg a = signed neg b ↔ a = b := by cases neg <;> simp

theorem signed_not (neg : Bool) (a : ℝ) : signed (!neg) a = -signed neg a := by cases neg <;> simp

theorem signed_mul (neg neg' : Bool) (a b : ℝ) : signed neg a * signed neg' b = signed (neg != neg') (a * b) := by
  cases neg <;> cases neg' <;> simp

theorem signed_div (neg neg' : Bool) (a b : ℝ) : signed neg a / signed neg' b = signed (neg != neg') (a / b) := by
  cases neg <;> cases neg' <;> simp [neg_div, div_neg]

theorem signed_lt_zero (ha : 0 < a) : signed neg a < 0 ↔ neg = true := by
  cases neg <;> simp [ha, ha.le]

end Signed

section RoundsTo

variable {rm : Rm} {grid even : ℝ → Prop} {x r lo hi t : ℝ} {odd neg up : Bool}

theorem roundsTo_neg (hg : ∀ y, grid y → grid (-y)) (he : ∀ y, even y → even (-y)) (h : roundsTo (mirrored rm) grid even x r) :
    roundsTo rm grid even (-x) (-r) := by
  obtain ⟨hr, h⟩ := h
  refine ⟨hg r hr, ?_⟩
  cases rm with
  | rne =>
    intro y hy
    rw [show -x - -r = -(x - r) by ring, show -x - y = -(x - -y) by ring, abs_neg, abs_neg]
    exact (h (-y) (hg y hy)).imp_right (And.imp_right (Or.imp neg_eq_iff_eq_neg.mp (he r)))
  | rtz =>
    obtain ⟨h1, h2, h3⟩ := h
    refine ⟨by simpa using h1, by simpa using h2, fun y hy hl hs => ?_⟩
    simpa using h3 (-y) (hg y hy) (by simpa using hl) (by linarith)
  | rup => exact ⟨neg_le_neg h.1, fun y hy hl => neg_le.mp (h.2 (-y) (hg y hy) (neg_le.mp hl))⟩
  | rdn => exact ⟨neg_le_neg h.1, fun y hy hl => le_neg.mp (h.2 (-y) (hg y hy) (le_neg.mp hl))⟩

/-- A number of the grid rounds to itself. -/
theorem roundsTo_self (h : grid x) : roundsTo rm grid even x x := by
  refine ⟨h, ?_⟩
  cases rm with
  | rne =>
    intro y _
    rcases eq_or_ne y x with rfl | hne
    · exact .inr ⟨rfl, .inl rfl⟩
    · rw [sub_self, abs_zero]
      exact .inl (abs_pos.mpr (sub_ne_zero.mpr hne.symm))
  | rtz => exact ⟨le_rfl, mul_self_nonneg x, fun _ _ h _ => h⟩
  | rup => exact ⟨le_rfl, fun _ _ h => h⟩
  | rdn => exact ⟨le_rfl, fun _ _ h => h⟩

theorem eq_of_roundsTo_of_grid (hx : grid x) (h : roundsTo rm grid even x r) : r = x := by
  obtain ⟨hr, h⟩ := h
  cases rm with
  | rne =>
    have hle : |x - r| ≤ 0 := by
      have := h x hx
      rw [sub_self, abs_zero] at this
      exact this.elim le_of_lt fun h => h.1.le
    linarith [abs_nonpos_iff.mp hle]
  | rtz =>
    obtain ⟨h1, h2, h3⟩ := h
    rcases abs_eq_abs.mp (h1.antisymm (h3 x hx le_rfl (mul_self_nonneg x))) with h | h
    · exact h
    · subst h
      have : x = 0 := by nlinarith
      rw [this, neg_zero]
  | rup => exact (h.2 x hx le_rfl).antisymm h.1
  | rdn => exact h.1.antisymm (h.2 x hx le_rfl)

/-! A magnitude `x` that lies the part `t` of the way from the lesser to the greater neighbour. -/

section Between

variable (hn : Neighbours grid even odd lo hi) (hlt : lo < hi) (hx : x = lo + t * (hi - lo)) {y : ℝ} (hy : grid y)
include hn hlt hx hy

theorem Neighbours.le_lo (ht1 : t < 1) (hyx : y ≤ x) : y ≤ lo := by
  have hlo := hn.lo_nonneg
  rcases hn.gap y hy with h | h
  · exact (le_abs_self y).trans h
  · rcases le_abs'.mp h with h | h
    · linarith
    · nlinarith

theorem Neighbours.hi_le (ht : 0 < t) (hxy : x ≤ y) : hi ≤ y := by
  have hlo := hn.lo_nonneg
  rcases hn.gap y hy with h | h
  · nlinarith [le_abs_self y]
  · rcases le_abs'.mp h with h | h
    · nlinarith
    · exact h

/-- Nothing is nearer than the greater neighbour from the middle on. -/
theorem Neighbours.nearest_hi (ht1 : t < 1) (hup : goesUp .rne odd t) :
    |x - hi| < |x - y| ∨ |x - hi| = |x - y| ∧ (y = hi ∨ even hi) := by
  have hge : 1 / 2 ≤ t := hup.elim le_of_lt fun h => h.1.ge
  rw [abs_sub_comm, abs_of_pos (show 0 < hi - x by nlinarith)]
  rcases le_total y x with hyx | hyx
  · have hylo := hn.le_lo hlt hx hy ht1 hyx
    rw [abs_of_nonneg (sub_nonneg.mpr hyx)]
    rcases hup with h | ⟨h, ho⟩
    · left; nlinarith
    · rcases hylo.lt_or_eq with h' | h'
      · left; nlinarith
      · right; exact ⟨by rw [h', hx, h]; ring, .inr (hn.hi_even ho)⟩
  · rw [abs_of_nonpos (sub_nonpos.mpr hyx)]
    rcases (hn.hi_le hlt hx hy (by linarith) hyx).lt_or_eq with h | h
    · left; linarith
    · right; exact ⟨by rw [← h]; ring, .inl h.symm⟩

/-- Nothing is nearer than the lesser neighbour up to the middle. -/
theorem Neighbours.nearest_lo (ht : 0 ≤ t) (ht1 : t < 1) (hno : ¬goesUp .rne odd t) :
    |x - lo| < |x - y| ∨ |x - lo| = |x - y| ∧ (y = lo ∨ even lo) := by
  have hle : t ≤ 1 / 2 := not_lt.mp fun h => hno (.inl h)
  rw [abs_of_nonneg (show 0 ≤ x - lo by nlinarith)]
  rcases le_total y x with hyx | hyx
  · rw [abs_of_nonneg (sub_nonneg.mpr hyx)]
    rcases (hn.le_lo hlt hx hy ht1 hyx).lt_or_eq with h | h
    · left; linarith
    · right; exact ⟨by rw [h], .inl h⟩
  · rw [abs_of_nonpos (sub_nonpos.mpr hyx)]
    rcases ht.lt_or_eq with h0 | h0
    · have hyhi := hn.hi_le hlt hx hy h0 hyx
      rcases hle.lt_or_eq with h | h
      · left; nlinarith
      · have ho : odd = false := Bool.eq_false_iff.mpr fun ho => hno (.inr ⟨h, ho⟩)
        rcases hyhi.lt_or_eq with h' | h'
        · left; nlinarith
        · right; exact ⟨by rw [← h', hx, h]; ring, .inr (hn.lo_even ho)⟩
    · have hxl : x = lo := by rw [hx, ← h0]; ring
      rw [hxl] at hyx ⊢
      rcases hyx.lt_or_eq with h | h
      · left; linarith
      · right; exact ⟨by rw [h]; ring, .inl h.symm⟩

end Between

theorem roundsTo_of_nonneg (hn : Neighbours grid even odd lo hi) (ht : 0 ≤ t) (ht1 : t < 1) (hlt : lo < hi)
    (hx : x = lo + t * (hi - lo)) (hup : up = true ↔ goesUp rm odd t) : roundsTo rm grid even x (if up then hi else lo) := by
  have hlo := hn.lo_nonneg
  have hlox : lo ≤ x := by nlinarith
  have hxhi : x ≤ hi := by nlinarith
  cases up with
  | true =>
    refine ⟨hn.hi_grid, ?_⟩
    cases rm with
    | rne => exact fun y hy => hn.nearest_hi hlt hx hy ht1 (hup.mp rfl)
    | rtz => exact (hup.mp rfl).elim
    | rup => exact ⟨hxhi, fun y hy => hn.hi_le hlt hx hy (hup.mp rfl)⟩
    | rdn => exact (hup.mp rfl).elim
  | false =>
    have hno : ¬goesUp rm odd t := fun h => Bool.false_ne_true (hup.mpr h)
    refine ⟨hn.lo_grid, ?_⟩
    cases rm with
    | rne => exact fun y hy => hn.nearest_lo hlt hx hy ht ht1 hno
    | rtz =>
      have hx0 := hlo.trans hlox
      simp only [Bool.false_eq_true, if_false]
      rw [abs_of_nonneg hlo, abs_of_nonneg hx0]
      exact ⟨hlox, mul_nonneg hlo hx0, fun y hy hyx _ => (hn.gap y hy).elim id fun h => by nlinarith⟩
    | rup =>
      have h0 : t = 0 := le_antisymm (not_lt.mp hno) ht
      have hxl : x = lo := by rw [hx, h0]; ring
      exact ⟨hxl.le, fun y _ hxy => hxl ▸ hxy⟩
    | rdn => exact ⟨hlox, fun y hy => hn.le_lo hlt hx hy ht1⟩

/-- A number between two neighbours, or between their negatives. -/
theorem roundsTo_of_neighbours (hn : Neighbours grid even odd lo hi) (ht : 0 ≤ t) (ht1 : t < 1) (hlt : lo < hi)
    (hx : x = lo + t * (hi - lo)) (hup : up = true ↔ goesUp (onMagnitude neg rm) odd t) :
    roundsTo rm grid even (signed neg x) (signed neg (if up then hi else lo)) := by
  cases neg with
  | false =>
    rw [signed_false, signed_false]
    exact roundsTo_of_nonneg hn ht ht1 hlt hx hup
  | true =>
    rw [signed_true, signed_true]
    exact roundsTo_neg hn.neg_grid hn.neg_even (roundsTo_of_nonneg hn ht ht1 hlt hx hup)

end RoundsTo

/-! ### What is cut off -/

/-- The part of an exact magnitude below an integer: nothing, or with `more` something between 0 and 1. -/
def IsRest (more : Bool) (d : ℝ) : Prop := if more then 0 < d ∧ d < 1 else d = 0

section Rest

variable {rm : Rm} {neg odd more : Bool} {d : ℝ} {r k : Nat}

theorem isRest_zero : IsRest false 0 := rfl

theorem IsRest.nonneg (h : IsRest more d) : 0 ≤ d := by
  cases more
  · exact (show d = 0 from h).ge
  · exact h.1.le

theorem IsRest.lt_one (h : IsRest more d) : d < 1 := by
  cases more
  · exact (show d = 0 from h).trans_lt one_pos
  · exact h.2

theorem IsRest.pos_iff (h : IsRest more d) : 0 < d ↔ more = true := by
  cases more
  · simp [show d = 0 from h]
  · simp [h.1]

/-- Something is cut off. -/
theorem rest_pos_iff (h : IsRest more d) (r k : Nat) : 0 < ((r : ℝ) + d) / 2 ^ k ↔ (r != 0 || more) = true := by
  have hd := h.nonneg
  rw [div_pos_iff_of_pos_right (by positivity), Bool.or_eq_true, bne_iff_ne, ← h.pos_iff, ← Nat.pos_iff_ne_zero,
    ← Nat.cast_pos (α := ℝ)]
  have hr : (0 : ℝ) ≤ r := r.cast_nonneg
  constructor
  · intro hs
    by_contra hno
    push Not at hno
    linarith [hno.1, hno.2]
  · rintro (h | h) <;> linarith

theorem rest_lt_one (h : IsRest more d) (hr : r < 2 ^ k) : ((r : ℝ) + d) / 2 ^ k < 1 := by
  rw [div_lt_one (by positivity)]
  have : (r : ℝ) + 1 ≤ 2 ^ k := by exact_mod_cast hr
  linarith [h.lt_one]

/-- To nearest: what is cut off against half of the last place. -/
theorem rest_half_iff (h : IsRest more d) : goesUp .rne odd (((r : ℝ) + d) / 2 ^ (k + 1))
    ↔ (decide (2 ^ k < r) || (r == 2 ^ k && (more || odd))) = true := by
  have h2 : (0 : ℝ) < 2 ^ (k + 1) := by positivity
  have hd := h.nonneg
  have hd1 := h.lt_one
  have hp := h.pos_iff
  have hpow : (2 : ℝ) ^ (k + 1) = 2 * 2 ^ k := by ring
  have hk : ((2 ^ k : ℕ) : ℝ) = 2 ^ k := by push_cast; ring
  rw [goesUp, lt_div_iff₀ h2, div_eq_iff h2.ne', hpow, show (1 / 2 : ℝ) * (2 * 2 ^ k) = 2 ^ k by ring, ← hk]
  simp only [Bool.or_eq_true, Bool.and_eq_true, decide_eq_true_eq, beq_iff_eq]
  rw [← hp]
  rcases lt_trichotomy r (2 ^ k) with hlt | heq | hgt
  · have : (r : ℝ) + 1 ≤ (2 ^ k : ℕ) := by exact_mod_cast hlt
    constructor
    · rintro (h | ⟨h, -⟩) <;> linarith
    · rintro (h | ⟨h, -⟩) <;> omega
  · rw [← heq]
    constructor
    · rintro (h | ⟨-, h⟩)
      · exact .inr ⟨rfl, .inl (by linarith)⟩
      · exact .inr ⟨rfl, .inr h⟩
    · rintro (h | ⟨-, h | h⟩)
      · exact absurd h (lt_irrefl _)
      · left; linarith
      · rcases hd.lt_or_eq with hd | hd
        · left; linarith
        · right; exact ⟨by linarith, h⟩
  · have : ((2 ^ k : ℕ) : ℝ) < r := by exact_mod_cast hgt
    constructor
    · exact fun _ => .inl hgt
    · exact fun _ => .inl (by linarith)

/-- `roundsUp` decides as the mode says. -/
theorem roundsUp_iff (h : IsRest more d) (hk : k = 0 → r = 0 ∧ more = false) :
    roundsUp rm neg odd r k more = true ↔ goesUp (onMagnitude neg rm) odd (((r : ℝ) + d) / 2 ^ k) := by
  cases rm with
  | rne =>
    have hmode : onMagnitude neg .rne = .rne := by cases neg <;> rfl
    rw [hmode]
    cases k with
    | zero =>
      obtain ⟨hr, hmo⟩ := hk rfl
      subst hmo hr
      norm_num [roundsUp, goesUp, show d = 0 from h]
    | succ k => exact (rest_half_iff h).symm
  | rtz => cases neg <;> simp [roundsUp, goesUp, onMagnitude, mirrored]
  | rup =>
    cases neg with
    | false => exact (rest_pos_iff h r k).symm
    | true => simp [roundsUp, goesUp, onMagnitude, mirrored]
  | rdn =>
    cases neg with
    | false => simp [roundsUp, goesUp, onMagnitude]
    | true => exact (rest_pos_iff h r k).symm

end Rest

end Sys2Proof.Proofs
end

section
/-! SUPPORT. Where `Fmt.round` cuts a magnitude, and the two numbers of the format on either side of it (04 R58, Table 4-1). -/

namespace Sys2Proof.Proofs

open Sys2Proof Machine Laws Forms Statements

/-! ### Where a magnitude is cut -/

/-- The last place of a format for `n` x 2^`e`. -/
def cutPlace (m : Fmt) (n : Nat) (e : Int) : Int := max (e + n.log2) m.emin - m.f

/-- `n` x 2^`e` in units of 2^`q`: the whole units, and what is cut off. -/
def cutBase (q : Int) (n : Nat) (e : Int) : Nat := if e < q then n / 2 ^ (q - e).toNat else n * 2 ^ (e - q).toNat
def cutRest (q : Int) (n : Nat) (e : Int) : Nat := if e < q then n % 2 ^ (q - e).toNat else 0

section Cut

variable {m : Fmt} {n : Nat} {e q : Int} {more : Bool} {d : ℝ}

theorem two_zpow_split (h : e ≤ q) : (2 : ℝ) ^ q = 2 ^ (q - e).toNat * 2 ^ e := by
  rw [← zpow_natCast, ← zpow_add₀ two_ne_zero, Int.toNat_of_nonneg (by omega)]
  congr 1
  omega

theorem cutRest_lt : cutRest q n e < 2 ^ (q - e).toNat := by
  unfold cutRest
  split
  · exact Nat.mod_lt _ (Nat.two_pow_pos _)
  · exact Nat.two_pow_pos _

theorem cut_eq (hd : IsRest more d) (h : more = true → e < q) :
    ((n : ℝ) + d) * 2 ^ e = (cutBase q n e + (cutRest q n e + d) / 2 ^ (q - e).toNat) * 2 ^ q := by
  unfold cutBase cutRest
  by_cases he : e < q
  · have hn : (n : ℝ) = 2 ^ (q - e).toNat * (n / 2 ^ (q - e).toNat : ℕ) + (n % 2 ^ (q - e).toNat : ℕ) := by
      exact_mod_cast (Nat.div_add_mod n (2 ^ (q - e).toNat)).symm
    rw [if_pos he, if_pos he, two_zpow_split he.le, ← mul_assoc]
    congr 1
    rw [add_mul, div_mul_cancel₀ _ (by positivity)]
    linarith
  · have hmore : more = false := Bool.eq_false_iff.mpr fun hm => he (h hm)
    subst hmore
    rw [if_neg he, if_neg he, show d = 0 from hd, two_zpow_split (not_lt.mp he)]
    push_cast
    ring

/-- A magnitude lies between the powers of two of its highest bit. -/
theorem magnitude_bounds (hn : n ≠ 0) (hd : IsRest more d) :
    (2 : ℝ) ^ (e + n.log2) ≤ (n + d) * 2 ^ e ∧ (n + d) * 2 ^ e < 2 ^ (e + n.log2 + 1) := by
  have hlo : ((2 : ℝ) ^ n.log2) ≤ n := by exact_mod_cast Nat.log2_self_le hn
  have hhi : (n : ℝ) + 1 ≤ 2 ^ (n.log2 + 1) := by exact_mod_cast (Nat.lt_log2_self (n := n))
  have he : (0 : ℝ) < 2 ^ e := by positivity
  rw [add_assoc, zpow_add₀ two_ne_zero, zpow_add₀ two_ne_zero, mul_comm ((2 : ℝ) ^ e), mul_comm ((2 : ℝ) ^ e)]
  constructor
  · rw [zpow_natCast]
    exact mul_le_mul_of_nonneg_right (by linarith [hd.nonneg]) he.le
  · refine mul_lt_mul_of_pos_right ?_ he
    have := hd.lt_one
    calc (n : ℝ) + d < n + 1 := by linarith
      _ ≤ 2 ^ (n.log2 + 1) := hhi
      _ = 2 ^ ((n.log2 : ℤ) + 1) := by exact_mod_cast rfl

end Cut

/-! ### The code of a rounded magnitude -/

/-- A magnitude `a` is `base` and `t` units of the place 2^(emin - f + `j`), a place that keeps f + 1 bits or is the least; `up`
says whether it goes to the greater neighbour. -/
structure IsCut (m : Fmt) (rm : Rm) (a : ℝ) (j base : ℕ) (t : ℝ) (up : Bool) : Prop where
  rest_nonneg : 0 ≤ t
  rest_lt_one : t < 1
  eq : a = (base + t) * 2 ^ (m.emin - m.f + j)
  base_lt : base < 2 ^ (m.f + 1)
  normal : j = 0 ∨ 2 ^ m.f ≤ base
  up_iff : up = true ↔ goesUp rm (base % 2 == 1) t

section Code

variable {m : Fmt} {rm : Rm} {neg more : Bool} {n : Nat} {e : Int} {d : ℝ}

theorem code_isCut (hn : n ≠ 0) (hd : IsRest more d) (hmore : more = true → m.f < n.log2) :
    ∃ j base t up, IsCut m (onMagnitude neg rm) ((n + d) * 2 ^ e) j base t up
      ∧ (m.code rm neg n e more).code = j * 2 ^ m.f + base + (if up then 1 else 0)
      ∧ ((m.code rm neg n e more).inx = true ↔ 0 < t)
      ∧ ((m.code rm neg n e more).tiny = true ↔ ((n : ℝ) + d) * 2 ^ e < 2 ^ m.emin) := by
  obtain ⟨hlo, hhi⟩ := magnitude_bounds (e := e) hn hd
  set a : ℝ := (n + d) * 2 ^ e with ha
  set q := cutPlace m n e with hq
  have hqe : more = true → e < q := fun h => by
    have := hmore h
    have := le_max_left (e + n.log2) m.emin
    rw [hq, cutPlace]
    omega
  have hcut := cut_eq hd hqe (n := n)
  have hk : (q - e).toNat = 0 → cutRest q n e = 0 ∧ more = false := fun h =>
    have hle : ¬e < q := by omega
    ⟨if_neg hle, Bool.eq_false_iff.mpr fun hm => hle (hqe hm)⟩
  have ht := rest_lt_one hd (cutRest_lt (q := q) (n := n) (e := e))
  set t := ((cutRest q n e : ℝ) + d) / 2 ^ (q - e).toNat with htdef
  have ht0 : 0 ≤ t := div_nonneg (add_nonneg (Nat.cast_nonneg _) hd.nonneg) (by positivity)
  have hplace : m.emin - m.f + ((max (e + n.log2) m.emin - m.emin).toNat : ℤ) = q := by
    have := le_max_right (e + n.log2) m.emin
    rw [hq, cutPlace]
    omega
  have hqpos : (0 : ℝ) < 2 ^ q := by positivity
  have hbig : (2 : ℝ) ^ max (e + n.log2) m.emin = 2 ^ m.f * 2 ^ q := by
    rw [hq, cutPlace, ← zpow_natCast, ← zpow_add₀ two_ne_zero]
    congr 1
    omega
  refine ⟨(max (e + n.log2) m.emin - m.emin).toNat, cutBase q n e, t,
    roundsUp rm neg (cutBase q n e % 2 == 1) (cutRest q n e) (q - e).toNat more, ⟨ht0, ht, ?_, ?_, ?_, roundsUp_iff hd hk⟩, rfl,
    (rest_pos_iff hd _ _).symm, ?_⟩
  · rw [hplace, ← hcut]
  · -- the magnitude is below the next power of two
    have h : (cutBase q n e : ℝ) * 2 ^ q < 2 ^ (m.f + 1) * 2 ^ q :=
      calc (cutBase q n e : ℝ) * 2 ^ q ≤ a := by rw [ha, hcut]; exact mul_le_mul_of_nonneg_right (by linarith) hqpos.le
        _ < 2 ^ (e + n.log2 + 1) := hhi
        _ ≤ 2 ^ (max (e + n.log2) m.emin + 1) := zpow_le_zpow_right₀ one_le_two (by have := le_max_left (e + n.log2) m.emin; omega)
        _ = 2 ^ (m.f + 1) * 2 ^ q := by rw [zpow_add₀ two_ne_zero, hbig]; ring
    exact_mod_cast lt_of_mul_lt_mul_right h hqpos.le
  · rcases le_or_gt (e + n.log2) m.emin with h | h
    · left
      rw [max_eq_right h]
      omega
    · right
      have h : (2 : ℝ) ^ m.f * 2 ^ q < (cutBase q n e + 1) * 2 ^ q :=
        calc (2 : ℝ) ^ m.f * 2 ^ q = 2 ^ (e + n.log2) := by rw [← hbig, max_eq_left h.le]
          _ ≤ a := hlo
          _ < (cutBase q n e + 1) * 2 ^ q := by rw [ha, hcut]; exact mul_lt_mul_of_pos_right (by linarith) hqpos
      have : 2 ^ m.f < cutBase q n e + 1 := by exact_mod_cast lt_of_mul_lt_mul_right h hqpos.le
      omega
  · change decide (e + (n.log2 : ℤ) < m.emin) = true ↔ _
    rw [decide_eq_true_iff]
    constructor
    · exact fun h => hhi.trans_le (zpow_le_zpow_right₀ one_le_two (by omega))
    · exact fun h => (zpow_lt_zpow_iff_right₀ one_lt_two).mp (hlo.trans_lt h)

end Code

/-! ### The neighbours in a format -/

section Grid

variable {m : Fmt} {rm : Rm} {a t : ℝ} {j base c : ℕ} {up neg : Bool} {y : ℝ}

theorem onGrid_neg (h : onGrid m y) : onGrid m (-y) := by
  simpa only [onGrid, heldAs, abs_neg] using h

theorem onEven_neg (h : onEven m y) : onEven m (-y) := by
  simpa only [onEven, heldAs, abs_neg] using h

/-- `c` units of a place that keeps f + 1 bits of it, one more than the greatest included: the word holds `k` of its place. -/
theorem heldAs_units (hc : c ≤ 2 ^ (m.f + 1)) (hj : j = 0 ∨ 2 ^ m.f ≤ c) :
    ∃ k q, heldAs m (c * 2 ^ (m.emin - m.f + j)) k q ∧ (c % 2 = 0 → m.f ≠ 0 → k % 2 = 0) := by
  have habs : ∀ {k : ℕ} {q : ℤ}, |(k : ℝ) * 2 ^ q| = k * 2 ^ q := abs_of_nonneg (by positivity)
  rcases hc.lt_or_eq with hlt | rfl
  · exact ⟨c, m.emin - m.f + j, ⟨habs, hlt, by omega, hj.imp_left fun h => by rw [h]; simp⟩, fun h _ => h⟩
  · refine ⟨2 ^ m.f, m.emin - m.f + j + 1, ⟨?_, Nat.pow_lt_pow_right one_lt_two (Nat.lt_succ_self _), by omega, .inr le_rfl⟩,
      fun _ hf => ?_⟩
    · rw [habs, zpow_add_one₀ two_ne_zero]
      push_cast
      ring
    · obtain ⟨f, hf⟩ := Nat.exists_eq_succ_of_ne_zero hf
      rw [hf, pow_succ, Nat.mul_mod_left]

theorem IsCut.neighbours (h : IsCut m rm a j base t up) (hf : m.f ≠ 0) :
    Neighbours (onGrid m) (onEven m) (base % 2 == 1) (base * 2 ^ (m.emin - m.f + j))
      ((base + 1 : ℕ) * 2 ^ (m.emin - m.f + j)) := by
  have hlt := h.base_lt
  have hnorm : j = 0 ∨ 2 ^ m.f ≤ base + 1 := h.normal.imp_right fun h => h.trans (Nat.le_succ _)
  obtain ⟨k, q, hk, hke⟩ := heldAs_units hlt.le h.normal
  obtain ⟨k', q', hk', hke'⟩ := heldAs_units (m := m) (c := base + 1) hlt hnorm
  refine ⟨fun _ => onGrid_neg, fun _ => onEven_neg, by positivity, ⟨k, q, hk⟩, ⟨k', q', hk'⟩,
    fun ho => ⟨k, q, hk, hke ?_ hf⟩, fun ho => ⟨k', q', hk', hke' ?_ hf⟩, fun y hy => ?_⟩
  · simpa using ho
  · have : base % 2 = 1 := by simpa using ho
    omega
  · obtain ⟨c, p, hy, hc, hp, -⟩ := hy
    rw [hy]
    have hpos : (0 : ℝ) < 2 ^ (m.emin - m.f + (j : ℤ)) := by positivity
    rcases le_or_gt (m.emin - m.f + (j : ℤ)) p with hle | hgt
    · -- a multiple of the place
      rw [two_zpow_split hle, ← mul_assoc]
      rcases le_or_gt (c * 2 ^ (p - (m.emin - m.f + (j : ℤ))).toNat) base with h | h
      · exact .inl (mul_le_mul_of_nonneg_right (by exact_mod_cast h) hpos.le)
      · exact .inr (mul_le_mul_of_nonneg_right (by exact_mod_cast h) hpos.le)
    · -- a smaller place: the number is below 2^f units of this one
      left
      have hb : 2 ^ m.f ≤ base := h.normal.resolve_left (by omega)
      calc (c : ℝ) * 2 ^ p ≤ 2 ^ (m.f + 1) * 2 ^ p := mul_le_mul_of_nonneg_right (by exact_mod_cast hc.le) (by positivity)
        _ = 2 ^ m.f * 2 ^ (p + 1) := by rw [zpow_add_one₀ two_ne_zero]; ring
        _ ≤ 2 ^ m.f * 2 ^ (m.emin - m.f + (j : ℤ)) :=
          mul_le_mul_of_nonneg_left (zpow_le_zpow_right₀ one_le_two (by omega)) (by positivity)
        _ ≤ base * 2 ^ (m.emin - m.f + (j : ℤ)) := mul_le_mul_of_nonneg_right (by exact_mod_cast hb) hpos.le

/-- The magnitude that a cut rounds to. -/
noncomputable def cutValue (m : Fmt) (j base : ℕ) (up : Bool) : ℝ := ((base + (if up then 1 else 0) : ℕ) : ℝ) * 2 ^ (m.emin - m.f + j)

theorem IsCut.roundsTo (h : IsCut m (onMagnitude neg rm) a j base t up) (hf : m.f ≠ 0) :
    roundsTo rm (onGrid m) (onEven m) (signed neg a) (signed neg (cutValue m j base up)) := by
  have hpos : (0 : ℝ) < 2 ^ (m.emin - m.f + (j : ℤ)) := by positivity
  have hx : a = base * 2 ^ (m.emin - m.f + (j : ℤ))
      + t * ((base + 1 : ℕ) * 2 ^ (m.emin - m.f + (j : ℤ)) - base * 2 ^ (m.emin - m.f + (j : ℤ))) := by
    rw [h.eq]
    push_cast
    ring
  have := roundsTo_of_neighbours (h.neighbours hf) h.rest_nonneg h.rest_lt_one
    (mul_lt_mul_of_pos_right (by exact_mod_cast Nat.lt_succ_self base) hpos) hx h.up_iff
  convert this using 2
  cases up <;> simp [cutValue]

/-- The result differs from the exact value where something is cut off. -/
theorem IsCut.value_eq_iff (h : IsCut m rm a j base t up) : cutValue m j base up = a ↔ ¬0 < t := by
  have hpos : (0 : ℝ) < 2 ^ (m.emin - m.f + (j : ℤ)) := by positivity
  have ht := h.rest_nonneg
  have ht1 := h.rest_lt_one
  rw [h.eq, cutValue, mul_left_inj' hpos.ne']
  cases up with
  | true =>
    have ht0 : 0 < t := by
      have := h.up_iff.mp rfl
      cases rm <;> simp only [goesUp] at this
      · rcases this with h | h <;> linarith [h]
      · exact this
    push_cast
    constructor
    · intro h; simp at h; linarith
    · exact fun h => absurd ht0 h
  | false => simp [ht.ge_iff_eq']

end Grid

end Sys2Proof.Proofs
end

section
/-! SUPPORT. The words that `Fmt.round` gives, and the exact value rounded once in them (04 R58, R61). -/

namespace Sys2Proof.Proofs

open Sys2Proof Machine Laws Forms Statements

/-! ### The word of a rounded magnitude -/

section Word

variable {m : Fmt} {j B : ℕ} {neg : Bool}

theorem StdFmt.bias_pos (hm : StdFmt m) : 1 ≤ m.bias := by
  have := hm.f_min
  have := hm.f_bias
  omega

theorem StdFmt.infinity_eq (hm : StdFmt m) : m.infinity = (2 * m.bias.toNat + 1) * 2 ^ m.f := by
  obtain ⟨e, he⟩ := Nat.exists_eq_succ_of_ne_zero (show m.e ≠ 0 by have := hm.e_min; omega)
  have hb : m.bias.toNat = 2 ^ e - 1 := by
    rw [Fmt.bias, he, Nat.succ_sub_one]
    have : ((2 : ℤ) ^ e) = ((2 ^ e : ℕ) : ℤ) := by push_cast; rfl
    omega
  have := Nat.two_pow_pos e
  rw [Fmt.infinity, hb, he, pow_succ]
  congr 1
  omega

theorem largest_eq (m : Fmt) : (largest m : ℝ) = (2 ^ (m.f + 1) - 1) * 2 ^ (m.bias - m.f) := by
  rw [largest]
  push_cast
  rfl

/-- A code reaches the infinity where its magnitude is beyond the largest number. -/
theorem infinity_le_iff (hm : StdFmt m) (hB : B ≤ 2 ^ (m.f + 1)) (hj : j = 0 ∨ 2 ^ m.f ≤ B) :
    m.infinity ≤ j * 2 ^ m.f + B ↔ (largest m : ℝ) < B * 2 ^ (m.emin - m.f + j) := by
  have hb := hm.bias_pos
  have hpow : (0 : ℝ) < 2 ^ (m.bias - m.f) := by positivity
  have hf1 : 2 ^ (m.f + 1) = 2 * 2 ^ m.f := by rw [pow_succ, mul_comm]
  have hone : (1 : ℝ) ≤ 2 ^ m.f := one_le_pow₀ one_le_two
  rw [hm.infinity_eq, largest_eq]
  rcases lt_trichotomy (j + 1) (2 * m.bias.toNat) with hlt | heq | hgt
  · -- below the last place
    have hcode : ¬(2 * m.bias.toNat + 1) * 2 ^ m.f ≤ j * 2 ^ m.f + B := by
      have : (j + 2) * 2 ^ m.f < (2 * m.bias.toNat + 1) * 2 ^ m.f := Nat.mul_lt_mul_of_pos_right (by omega) (Nat.two_pow_pos _)
      rw [Nat.add_mul] at this
      omega
    refine iff_of_false hcode (not_lt.mpr ?_)
    calc (B : ℝ) * 2 ^ (m.emin - m.f + j) ≤ 2 ^ (m.f + 1) * 2 ^ (m.bias - m.f - 1) := by
          gcongr
          · exact_mod_cast hB
          · exact one_le_two
          · rw [Fmt.emin]
            omega
      _ = 2 ^ m.f * 2 ^ (m.bias - m.f) := by rw [zpow_sub_one₀ two_ne_zero]; ring
      _ ≤ (2 ^ (m.f + 1) - 1) * 2 ^ (m.bias - m.f) := by
          gcongr
          rw [pow_succ]
          linarith
  · -- the last place
    have hplace : m.emin - m.f + (j : ℤ) = m.bias - m.f := by rw [Fmt.emin]; omega
    rw [hplace, mul_lt_mul_iff_left₀ hpow, sub_lt_iff_lt_add]
    have hcast : (2 : ℝ) ^ (m.f + 1) < B + 1 ↔ 2 ^ (m.f + 1) ≤ B := by
      rw [← Nat.lt_succ_iff]
      exact_mod_cast Iff.rfl
    rw [hcast, ← heq, hf1, show j + 1 + 1 = j + 2 by rfl, Nat.add_mul]
    omega
  · -- beyond it
    have hB' : 2 ^ m.f ≤ B := hj.resolve_left (by omega)
    have hcode : (2 * m.bias.toNat + 1) * 2 ^ m.f ≤ j * 2 ^ m.f + B := by
      have : 2 * m.bias.toNat * 2 ^ m.f ≤ j * 2 ^ m.f := Nat.mul_le_mul_right _ (by omega)
      rw [Nat.add_mul, one_mul]
      omega
    refine iff_of_true hcode ?_
    calc ((2 : ℝ) ^ (m.f + 1) - 1) * 2 ^ (m.bias - m.f) < 2 ^ (m.f + 1) * 2 ^ (m.bias - m.f) := by
          gcongr
          linarith
      _ = 2 ^ m.f * 2 ^ (m.bias - m.f + 1) := by rw [zpow_add_one₀ two_ne_zero]; ring
      _ ≤ B * 2 ^ (m.emin - m.f + j) :=
          mul_le_mul (by exact_mod_cast hB') (zpow_le_zpow_right₀ one_le_two (by rw [Fmt.emin]; omega)) (by positivity)
            (Nat.cast_nonneg _)

/-- Below the infinity the code reads as its magnitude. -/
theorem magVal_code (hB : B ≤ 2 ^ (m.f + 1)) (hj : j = 0 ∨ 2 ^ m.f ≤ B) (hlt : j * 2 ^ m.f + B < m.infinity) :
    ∃ k e, magVal m neg (j * 2 ^ m.f + B) = .num neg k e ∧ (k : ℝ) * 2 ^ e = B * 2 ^ (m.emin - m.f + j) := by
  have hf1 : 2 ^ (m.f + 1) = 2 * 2 ^ m.f := by rw [pow_succ, mul_comm]
  have hpos := Nat.two_pow_pos m.f
  rw [magVal_of_lt hlt]
  rcases lt_or_ge B (2 ^ m.f) with hsub | hge
  · -- subnormal
    obtain rfl : j = 0 := hj.resolve_right (by omega)
    rw [Nat.zero_mul, Nat.zero_add, if_pos hsub]
    exact ⟨_, _, rfl, by simp⟩
  · have hnot : ¬j * 2 ^ m.f + B < 2 ^ m.f := by
      have := Nat.zero_le (j * 2 ^ m.f)
      omega
    rw [if_neg hnot]
    refine ⟨_, _, rfl, ?_⟩
    rcases hB.lt_or_eq with hlt | rfl
    · -- normal
      obtain ⟨c, rfl⟩ := Nat.exists_eq_add_of_le hge
      have hc : c < 2 ^ m.f := by omega
      have hdiv : (j * 2 ^ m.f + (2 ^ m.f + c)) / 2 ^ m.f = j + 1 := by
        rw [← Nat.add_assoc, ← Nat.succ_mul, Nat.add_comm, Nat.add_mul_div_right _ _ hpos, Nat.div_eq_of_lt hc, Nat.zero_add]
      have hmod : (j * 2 ^ m.f + (2 ^ m.f + c)) % 2 ^ m.f = c := by
        rw [← Nat.add_assoc, ← Nat.succ_mul, Nat.mul_add_mod_of_lt hc]
      rw [hdiv, hmod]
      congr 2
      rw [Fmt.emin]
      push_cast
      ring
    · -- rounded up to the next power of two
      have hsum : j * 2 ^ m.f + 2 ^ (m.f + 1) = (j + 2) * 2 ^ m.f := by rw [hf1, Nat.add_mul]
      rw [hsum, Nat.mul_mod_left, Nat.mul_div_cancel _ hpos, Nat.add_zero, Fmt.emin,
        show ((j + 2 : ℕ) : ℤ) - m.bias - m.f = 1 - m.bias - m.f + j + 1 by push_cast; ring, zpow_add_one₀ two_ne_zero]
      push_cast
      ring

end Word

/-! ### `Fmt.round` -/

section Round

variable {m : Fmt} {rm : Rm} {neg more z : Bool} {n : Nat} {e : Int} {d : ℝ}

theorem cast_valOf_num (neg : Bool) (k : Nat) (e : Int) : (valOf (.num neg k e) : ℝ) = signed neg (k * 2 ^ e) := by
  cases neg <;> simp [valOf]

theorem sign_add_lt {c : Nat} (h : c ≤ m.infinity) : m.sign neg + c < 2 ^ m.bits := by
  have := infinity_lt m
  have hbits : 2 ^ m.bits = 2 ^ (m.e + m.f) + 2 ^ (m.e + m.f) := by
    rw [Fmt.bits, Nat.add_assoc, Nat.add_comm 1, pow_succ, Nat.mul_two]
  rw [hbits, Fmt.sign]
  split <;> omega

@[simp] theorem round_zero : m.round rm neg 0 e more = (m.zero neg, noExc) := by
  unfold Fmt.round
  exact if_pos rfl

/-- Where the mode gives the largest number for a magnitude beyond it, and where the infinity. -/
theorem round_overflow (hn : n ≠ 0) (h : m.infinity ≤ (m.code rm neg n e more).code) (hpos : 0 < m.infinity) :
    m.round rm neg n e more = (if rm = .rne ∨ (rm = .rup ∧ neg = false) ∨ (rm = .rdn ∧ neg = true) then m.inf neg
      else m.inf neg - 1, overflow ||| inexact) := by
  have hsub : m.sign neg + (m.infinity - 1) = m.inf neg - 1 := by
    rw [Fmt.inf]
    omega
  unfold Fmt.round
  rw [if_neg hn]
  dsimp only
  rw [if_pos h]
  cases rm <;> cases neg <;> simp [hsub, Fmt.inf]

theorem round_of_lt (hn : n ≠ 0) (h : (m.code rm neg n e more).code < m.infinity) :
    m.round rm neg n e more = (m.sign neg + (m.code rm neg n e more).code,
      if (m.code rm neg n e more).inx then (if (m.code rm neg n e more).tiny then underflow ||| inexact else inexact) else noExc) := by
  unfold Fmt.round
  rw [if_neg hn]
  dsimp only
  rw [if_neg (not_le.mpr h)]

/-- A rounded result fits the word of its format. -/
theorem round_lt (hm : StdFmt m) : (m.round rm neg n e more).1 < 2 ^ m.bits := by
  have hpos := infinity_pos hm
  by_cases hn : n = 0
  · rw [hn, round_zero]
    exact sign_add_lt (c := 0) (Nat.zero_le _)
  · rcases lt_or_ge (m.code rm neg n e more).code m.infinity with h | h
    · rw [round_of_lt hn h]
      exact sign_add_lt h.le
    · rw [round_overflow hn h hpos]
      have hinf : m.inf neg < 2 ^ m.bits := sign_add_lt le_rfl
      dsimp only
      split
      · exact hinf
      · omega

/-- The exact value rounded once. -/
theorem round_roundedOnce (hm : StdFmt m) (hd : IsRest more d) (hmore : more = true → m.f < n.log2) (hz : n = 0 → z = neg) :
    roundedOnce m rm (signed neg ((n + d) * 2 ^ e)) z (m.round rm neg n e more) := by
  have hf : m.f ≠ 0 := by
    have := hm.f_min
    omega
  rcases Nat.eq_zero_or_pos n with rfl | hn
  · -- an exact zero
    have hmo : more = false := Bool.eq_false_iff.mpr fun h => by
      have := hmore h
      rw [Nat.log2_zero] at this
      omega
    subst hmo
    rw [show d = 0 from hd]
    refine ⟨fun _ => ?_, fun h => absurd (by simp) h⟩
    rw [round_zero, hz rfl]
  · have ha : (0 : ℝ) < (n + d) * 2 ^ e := mul_pos (add_pos_of_pos_of_nonneg (by exact_mod_cast hn) hd.nonneg) (by positivity)
    obtain ⟨j, base, t, up, hcut, hcode, hinx, htiny⟩ := code_isCut (rm := rm) (neg := neg) (e := e) hn.ne' hd hmore
    have hB : base + (if up then 1 else 0) ≤ 2 ^ (m.f + 1) := by
      have := hcut.base_lt
      split <;> omega
    have hj : j = 0 ∨ 2 ^ m.f ≤ base + (if up then 1 else 0) := hcut.normal.imp_right fun h => h.trans (Nat.le_add_right _ _)
    rw [Nat.add_assoc] at hcode
    have habs : |signed neg (cutValue m j base up)| = cutValue m j base up := by
      rw [abs_signed, abs_of_nonneg]
      exact mul_nonneg (Nat.cast_nonneg _) (by positivity)
    have hbeyond : m.infinity ≤ (m.code rm neg n e more).code ↔ (largest m : ℝ) < cutValue m j base up := by
      rw [hcode]
      exact infinity_le_iff hm hB hj
    refine ⟨fun h => ?_, fun _ => ⟨_, neg, hcut.roundsTo hf, (signed_lt_zero ha).symm, fun hl => ?_, fun hl => ?_⟩⟩
    · rw [← abs_eq_zero, abs_signed, abs_of_pos ha] at h
      exact absurd h ha.ne'
    · rw [habs] at hl
      rw [round_overflow hn.ne' (hbeyond.mpr hl) (infinity_pos hm)]
      exact ⟨rfl, rfl⟩
    · rw [habs] at hl
      have hlt : (m.code rm neg n e more).code < m.infinity := not_le.mp fun h => absurd (hbeyond.mp h) (not_lt.mpr hl)
      obtain ⟨k, p, hread, hval⟩ := magVal_code (neg := neg) hB hj (hcode ▸ hlt)
      rw [← hcode, ← read_sign_add (hlt.trans (infinity_lt m))] at hread
      rw [round_of_lt hn.ne' hlt, abs_signed, abs_of_pos ha, ne_eq, signed_inj, hcut.value_eq_iff, ← hinx]
      refine ⟨sign_add_lt hlt.le, ⟨k, p, hread⟩, ?_, fun h => if_neg h, fun h => ⟨fun ht => ?_, fun ht => ?_⟩⟩
      · dsimp only
        rw [hread, cast_valOf_num, hval, cutValue]
      · dsimp only
        rw [if_pos (not_not.mp h), if_pos (htiny.mpr ht)]
      · dsimp only
        rw [if_pos (not_not.mp h), if_neg fun h => absurd (htiny.mp h) (not_lt.mpr ht)]

/-- An exact integer multiple of a power of two. -/
theorem round_exact (hm : StdFmt m) (hz : n = 0 → z = neg) :
    roundedOnce m rm (signed neg (n * 2 ^ e)) z (m.round rm neg n e false) := by
  have := round_roundedOnce (rm := rm) (e := e) hm isRest_zero (fun h => absurd h Bool.false_ne_true) hz
  rwa [add_zero] at this

end Round

end Sys2Proof.Proofs
end

section
/-! SUPPORT. The arithmetic operations of finite operands give the exact values rounded once (04 R58, R59, R82). -/

namespace Sys2Proof.Proofs

open Sys2Proof Machine Laws Forms Statements

/-! ### Sums and products -/

section Sums

variable {m : Fmt} {rm : Rm} {x y z na nb nc : Nat} {a b c : Bool} {ea eb ec : Int}

theorem signed_int (neg : Bool) (k : Nat) : signed neg k = ((if neg then -(k : Int) else k : Int) : ℝ) := by
  cases neg <;> simp

theorem signed_natAbs (z : Int) : signed (z < 0) z.natAbs = z := by
  rw [signed_int]
  congr 1
  simp only [decide_eq_true_iff]
  split <;> omega

/-- An operand at a common exponent. -/
theorem signed_aligned {e p : Int} (h : p ≤ e) (neg : Bool) (n : Nat) :
    signed neg (n * 2 ^ e) = ((if neg then -((n * 2 ^ (e - p).toNat : Nat) : Int) else (n * 2 ^ (e - p).toNat : Nat) : Int) : ℝ) * 2 ^ p := by
  rw [← signed_int, two_zpow_split h]
  cases neg <;> simp [mul_assoc]

/-- The exact sum, as a sign, an integer and an exponent. -/
theorem addExact_spec : let s := addExact rm a na ea b nb eb
    signed s.1 (s.2.1 * 2 ^ s.2.2) = signed a (na * 2 ^ ea) + signed b (nb * 2 ^ eb)
      ∧ (s.2.1 = 0 → zeroSumNeg rm a b = s.1) := by
  rw [signed_aligned (min_le_left ea eb), signed_aligned (min_le_right ea eb), ← add_mul, ← Int.cast_add]
  unfold addExact
  dsimp only
  generalize (_ + _ : Int) = v
  by_cases h : v = 0
  · rw [if_pos h, h]
    exact ⟨by simp, fun _ => rfl⟩
  · have hsign : ∀ (s : Bool) (u v : ℝ), signed s (u * v) = signed s u * v := fun s u v => by cases s <;> simp
    rw [if_neg h, hsign, signed_natAbs]
    exact ⟨rfl, fun h0 => absurd (Int.natAbs_eq_zero.mp h0) h⟩

theorem add_roundedOnce (hm : StdFmt m) (hx : m.read x = .num a na ea) (hy : m.read y = .num b nb eb) :
    roundedOnce m rm ((valOf (m.read x) : ℝ) + valOf (m.read y)) (if a = b then a else rm == .rdn) (m.add rm x y) := by
  obtain ⟨hval, hzero⟩ := addExact_spec (rm := rm) (a := a) (na := na) (ea := ea) (b := b) (nb := nb) (eb := eb)
  have hz : zeroSumNeg rm a b = if a = b then a else rm == .rdn := by simp only [zeroSumNeg, beq_iff_eq]
  unfold Fmt.add
  rw [hx, hy, cast_valOf_num, cast_valOf_num, ← hval, ← hz]
  exact round_exact hm hzero

theorem sub_roundedOnce (hm : StdFmt m) (hx : m.read x = .num a na ea) (hy : m.read y = .num b nb eb) :
    roundedOnce m rm ((valOf (m.read x) : ℝ) - valOf (m.read y)) (if a ≠ b then a else rm == .rdn) (m.sub rm x y) := by
  have hn : m.read (m.negate y) = .num (!b) nb eb := by rw [read_negate, hy]; rfl
  convert add_roundedOnce (rm := rm) hm hx hn using 1
  · rw [hn, hy, cast_valOf_num, cast_valOf_num, signed_not, sub_eq_add_neg]
  · cases a <;> cases b <;> rfl
  · rfl

theorem signed_mul_value : signed a (na * 2 ^ ea) * signed b (nb * 2 ^ eb) = signed (a != b) ((na * nb : ℕ) * 2 ^ (ea + eb)) := by
  rw [signed_mul, zpow_add₀ two_ne_zero]
  push_cast
  congr 1
  ring

theorem mul_roundedOnce (hm : StdFmt m) (hx : m.read x = .num a na ea) (hy : m.read y = .num b nb eb) :
    roundedOnce m rm ((valOf (m.read x) : ℝ) * valOf (m.read y)) (a != b) (m.mul rm x y) := by
  unfold Fmt.mul
  rw [hx, hy, cast_valOf_num, cast_valOf_num, signed_mul_value]
  exact round_exact hm fun _ => rfl

theorem fma_roundedOnce (hm : StdFmt m) (hx : m.read x = .num a na ea) (hy : m.read y = .num b nb eb)
    (hw : m.read z = .num c nc ec) :
    roundedOnce m rm ((valOf (m.read x) : ℝ) * valOf (m.read y) + valOf (m.read z)) (if (a != b) = c then c else rm == .rdn)
      (m.fma rm x y z) := by
  obtain ⟨hval, hzero⟩ := addExact_spec (rm := rm) (a := a != b) (na := na * nb) (ea := ea + eb) (b := c) (nb := nc) (eb := ec)
  have hz : zeroSumNeg rm (a != b) c = if (a != b) = c then c else rm == .rdn := by
    simp only [zeroSumNeg, beq_iff_eq]
    split
    · assumption
    · rfl
  unfold Fmt.fma
  rw [hx, hy, hw, cast_valOf_num, cast_valOf_num, cast_valOf_num, signed_mul_value, ← hval, ← hz]
  exact round_exact hm hzero

end Sums

/-! ### Quotients -/

section Quotients

variable {m : Fmt} {rm : Rm} {x y na nb : Nat} {a b : Bool} {ea eb : Int}

/-- A significand has f + 1 bits at most. -/
theorem read_num_lt (h : m.read x = .num a na ea) : na < 2 ^ (m.f + 1) := by
  have hf : 2 ^ (m.f + 1) = 2 * 2 ^ m.f := by rw [pow_succ, mul_comm]
  have hmod : ∀ c, c % 2 ^ m.f < 2 ^ m.f := fun c => Nat.mod_lt _ (Nat.two_pow_pos _)
  rw [read_eq_magVal, magVal] at h
  split at h
  · split at h <;> cases h
  · split at h
    · cases h
      have := hmod (x % 2 ^ (m.e + m.f))
      omega
    · cases h
      have := hmod (x % 2 ^ (m.e + m.f))
      omega

theorem StdFmt.read_num_lt (hm : StdFmt m) (h : m.read x = .num a na ea) : na < 2 ^ 53 :=
  (Proofs.read_num_lt h).trans_le (Nat.pow_le_pow_right two_pos (by have := hm.f_max; omega))

/-- An integer that is long enough for every format. -/
theorem StdFmt.lt_log2 {n : Nat} (hm : StdFmt m) (h : 2 ^ 53 ≤ n) : m.f < n.log2 := by
  have h53 : 53 ≤ n.log2 := (Nat.le_log2 (by omega)).mpr h
  have := hm.f_max
  omega

theorem isRest_mod_div (n : Nat) {k : Nat} (hk : 0 < k) : IsRest (n % k != 0) (((n % k : ℕ) : ℝ) / k) := by
  have hk' : (0 : ℝ) < k := by exact_mod_cast hk
  by_cases h : n % k = 0
  · simp [h, IsRest]
  · have hne : (n % k != 0) = true := by simpa using h
    rw [hne]
    refine ⟨div_pos (by exact_mod_cast Nat.pos_of_ne_zero h) hk', ?_⟩
    rw [div_lt_one hk']
    exact_mod_cast Nat.mod_lt n hk

theorem quotient_roundedOnce (hm : StdFmt m) (hb : nb ≠ 0) (hlt : nb < 2 ^ 53) (neg : Bool) :
    roundedOnce m rm (signed neg (na * 2 ^ ea / (nb * 2 ^ eb))) neg (m.quotient rm neg na ea nb eb) := by
  have hpos := Nat.pos_of_ne_zero hb
  have hbr : (0 : ℝ) < nb := by exact_mod_cast hpos
  have hlong : (na * 2 ^ guardBits % nb != 0) = true → m.f < (na * 2 ^ guardBits / nb).log2 := fun h => by
    have hna : 1 ≤ na := Nat.one_le_iff_ne_zero.mpr fun h0 => by simp [h0] at h
    refine hm.lt_log2 ((Nat.le_div_iff_mul_le hpos).mpr ?_)
    calc 2 ^ 53 * nb ≤ 2 ^ 53 * 2 ^ 53 := Nat.mul_le_mul_left _ hlt.le
      _ ≤ 1 * 2 ^ guardBits := by decide
      _ ≤ na * 2 ^ guardBits := Nat.mul_le_mul_right _ hna
  have h := round_roundedOnce (rm := rm) (neg := neg) (z := neg) (e := ea - eb - guardBits) hm
    (isRest_mod_div (na * 2 ^ guardBits) hpos) hlong fun _ => rfl
  unfold Fmt.quotient
  convert h using 2
  have hdm : (na : ℝ) * 2 ^ guardBits = nb * (na * 2 ^ guardBits / nb : ℕ) + (na * 2 ^ guardBits % nb : ℕ) := by
    exact_mod_cast (Nat.div_add_mod (na * 2 ^ guardBits) nb).symm
  have hq : ((na * 2 ^ guardBits / nb : ℕ) : ℝ) + (na * 2 ^ guardBits % nb : ℕ) / nb = na * 2 ^ guardBits / nb := by
    rw [hdm]
    field_simp
  rw [hq, zpow_sub₀ two_ne_zero, zpow_sub₀ two_ne_zero, zpow_natCast]
  field_simp

theorem div_roundedOnce (hm : StdFmt m) (hx : m.read x = .num a na ea) (hy : m.read y = .num b nb eb) (hb : nb ≠ 0) :
    roundedOnce m rm ((valOf (m.read x) : ℝ) / valOf (m.read y)) (a != b) (m.div rm x y) := by
  unfold Fmt.div
  rw [hx, hy, cast_valOf_num, cast_valOf_num, signed_div]
  dsimp only
  rw [if_neg hb]
  exact quotient_roundedOnce hm hb (hm.read_num_lt hy) _

theorem rcp_roundedOnce (hm : StdFmt m) (hx : m.read x = .num a na ea) (ha : na ≠ 0) :
    roundedOnce m rm (1 / (valOf (m.read x) : ℝ)) a (m.rcp rm x) := by
  have h := quotient_roundedOnce (rm := rm) (na := 1) (ea := 0) (eb := ea) hm ha (hm.read_num_lt hx) a
  unfold Fmt.rcp
  rw [hx, cast_valOf_num]
  dsimp only
  rw [if_neg ha]
  convert h using 1
  have := signed_div false a 1 (na * 2 ^ ea)
  simpa using this

end Quotients

/-! ### Roots -/

section Roots

variable {m : Fmt} {rm : Rm} {x n : Nat} {e : Int}

/-- The bits found so far of a square root, with `k` bits to come. -/
theorem isqrt_bounds (n k r : Nat) (h1 : r * r ≤ n) (h2 : n < (r + 2 ^ k) * (r + 2 ^ k)) :
    isqrt n k r * isqrt n k r ≤ n ∧ n < (isqrt n k r + 1) * (isqrt n k r + 1) := by
  induction k generalizing r with
  | zero => exact ⟨h1, h2⟩
  | succ k ih =>
    rw [isqrt]
    split
    · refine ih _ ‹_› ?_
      rwa [Nat.add_assoc, ← Nat.two_mul, ← pow_succ']
    · exact ih _ h1 (not_le.mp ‹_›)

theorem natSqrt_eq_sqrt (n : Nat) : natSqrt n = Nat.sqrt n := by
  have hbound : n < (0 + 2 ^ (n.log2 / 2 + 1)) * (0 + 2 ^ (n.log2 / 2 + 1)) := by
    rw [Nat.zero_add, ← pow_add]
    exact Nat.lt_log2_self.trans_le (Nat.pow_le_pow_right two_pos (by omega))
  obtain ⟨h1, h2⟩ := isqrt_bounds n (n.log2 / 2 + 1) 0 (Nat.zero_le _) hbound
  exact Nat.eq_sqrt.mpr ⟨h1, h2⟩

/-- The exponent becomes even, the value stays. -/
theorem evenExp_spec (n : Nat) (e : Int) : ((evenExp n e).1 : ℝ) * 2 ^ (evenExp n e).2 = n * 2 ^ e ∧ (evenExp n e).2 % 2 = 0
    ∧ n ≤ (evenExp n e).1 ∧ (evenExp n e).1 ≤ 2 * n := by
  unfold evenExp
  split
  · exact ⟨rfl, ‹_›, le_rfl, by omega⟩
  · refine ⟨?_, by dsimp only; omega, by dsimp only; omega, le_rfl⟩
    rw [zpow_sub_one₀ two_ne_zero]
    push_cast
    ring

theorem sqrt_two_zpow (h : e % 2 = 0) : Real.sqrt (2 ^ e) = (2 : ℝ) ^ (e / 2) := by
  rw [show (2 : ℝ) ^ e = (2 ^ (e / 2)) ^ 2 by rw [← zpow_natCast, ← zpow_mul]; congr 1; push_cast; omega]
  exact Real.sqrt_sq (by positivity)

/-- A rest between an integer and the next, zero where the integer is the number itself. -/
theorem isRest_sub {more : Bool} {v : ℝ} {r : Nat} (h1 : (r : ℝ) ≤ v) (h2 : v < r + 1) (h : more = false ↔ v = r) :
    IsRest more (v - r) := by
  cases more with
  | false => exact sub_eq_zero.mpr (h.mp rfl)
  | true =>
    have hne : v ≠ r := fun hv => Bool.false_ne_true (h.mpr hv).symm
    exact ⟨sub_pos.mpr (lt_of_le_of_ne h1 hne.symm), by linarith⟩

/-- The root of an integer in guard bits. -/
theorem sqrt_round (hm : StdFmt m) (hn : n ≠ 0) (he : e % 2 = 0) :
    roundedOnce m rm (Real.sqrt (n * 2 ^ e)) false
      (m.round rm false (natSqrt (n * 2 ^ (2 * guardBits))) (e / 2 - guardBits)
        (natSqrt (n * 2 ^ (2 * guardBits)) * natSqrt (n * 2 ^ (2 * guardBits)) != n * 2 ^ (2 * guardBits))) := by
  rw [natSqrt_eq_sqrt]
  set w := n * 2 ^ (2 * guardBits) with hw
  have hr1 : (Nat.sqrt w : ℝ) ≤ Real.sqrt w := Real.nat_sqrt_le_real_sqrt
  have hr2 : Real.sqrt w < Nat.sqrt w + 1 := Real.real_sqrt_lt_nat_sqrt_succ
  have hexact : (Nat.sqrt w * Nat.sqrt w != w) = false ↔ Real.sqrt w = Nat.sqrt w := by
    rw [bne_eq_false_iff_eq, Real.sqrt_eq_iff_mul_self_eq (Nat.cast_nonneg _) (Nat.cast_nonneg _), eq_comm]
    exact_mod_cast Iff.rfl
  have hlong : 2 ^ 53 ≤ Nat.sqrt w := by
    rw [Nat.le_sqrt]
    calc 2 ^ 53 * 2 ^ 53 ≤ 1 * 2 ^ (2 * guardBits) := by decide
      _ ≤ w := Nat.mul_le_mul_right _ (Nat.one_le_iff_ne_zero.mpr hn)
  have h := round_roundedOnce (rm := rm) (neg := false) (z := false) (e := e / 2 - guardBits) hm (isRest_sub hr1 hr2 hexact)
    (fun _ => hm.lt_log2 hlong) fun _ => rfl
  convert h using 1
  have hroot : Real.sqrt w = Real.sqrt n * 2 ^ guardBits := by
    rw [hw]
    push_cast
    rw [Real.sqrt_mul (Nat.cast_nonneg _), mul_comm 2 guardBits, pow_mul, Real.sqrt_sq (by positivity)]
  rw [signed_false, add_sub_cancel, hroot, Real.sqrt_mul (Nat.cast_nonneg _), sqrt_two_zpow he, zpow_sub₀ two_ne_zero, zpow_natCast]
  field_simp

theorem sqrt_roundedOnce (hm : StdFmt m) (hx : m.read x = .num false n e) (hn : n ≠ 0) :
    roundedOnce m rm (Real.sqrt (valOf (m.read x))) false (m.sqrt rm x) := by
  obtain ⟨hval, heven, hle, -⟩ := evenExp_spec n e
  unfold Fmt.sqrt
  rw [hx, cast_valOf_num, signed_false, ← hval]
  dsimp only
  rw [if_neg hn, if_neg Bool.false_ne_true]
  exact sqrt_round hm (by omega) heven

/-- The reciprocal of the root of an integer in guard bits. -/
theorem rsqrt_round (hm : StdFmt m) (hn : n ≠ 0) (hlt : n < 2 ^ 54) (he : e % 2 = 0) {k : ℕ} (hk : 80 ≤ k) :
    roundedOnce m rm (1 / Real.sqrt (n * 2 ^ e)) false
      (m.round rm false (natSqrt (2 ^ (2 * k) / n)) (-(e / 2) - k)
        (natSqrt (2 ^ (2 * k) / n) * natSqrt (2 ^ (2 * k) / n) * n != 2 ^ (2 * k))) := by
  rw [natSqrt_eq_sqrt]
  have hpos := Nat.pos_of_ne_zero hn
  have hnr : (0 : ℝ) < n := by exact_mod_cast hpos
  set r := Nat.sqrt (2 ^ (2 * k) / n) with hr
  set v : ℝ := 2 ^ k / Real.sqrt n with hv
  have hv0 : 0 < v := div_pos (by positivity) (Real.sqrt_pos.mpr hnr)
  have hvv : v * v * n = 2 ^ (2 * k) := by
    rw [hv, div_mul_div_comm, Real.mul_self_sqrt hnr.le, div_mul_cancel₀ _ hnr.ne', ← pow_add, ← two_mul]
  have hrn : r * r * n ≤ 2 ^ (2 * k) := (Nat.le_div_iff_mul_le hpos).mp (Nat.sqrt_le _)
  have hrn1 : 2 ^ (2 * k) < (r + 1) * (r + 1) * n := (Nat.div_lt_iff_lt_mul hpos).mp (Nat.lt_succ_sqrt _)
  have hr1 : (r : ℝ) ≤ v := by
    have h : (r : ℝ) * r * n ≤ v * v * n := by rw [hvv]; exact_mod_cast hrn
    exact (mul_self_le_mul_self_iff (Nat.cast_nonneg _) hv0.le).mpr (le_of_mul_le_mul_right h hnr)
  have hr2 : v < r + 1 := by
    have h : v * v * n < (r + 1) * (r + 1) * n := by rw [hvv]; exact_mod_cast hrn1
    exact (mul_self_lt_mul_self_iff hv0.le (by positivity)).mpr (lt_of_mul_lt_mul_right h hnr.le)
  have hexact : (r * r * n != 2 ^ (2 * k)) = false ↔ v = r := by
    rw [bne_eq_false_iff_eq, ← Nat.cast_inj (R := ℝ)]
    push_cast
    rw [← hvv, mul_left_inj' hnr.ne', mul_self_inj (Nat.cast_nonneg _) hv0.le, eq_comm]
  have hlong : 2 ^ 53 ≤ r := by
    rw [hr, Nat.le_sqrt, Nat.le_div_iff_mul_le hpos]
    calc 2 ^ 53 * 2 ^ 53 * n ≤ 2 ^ 53 * 2 ^ 53 * 2 ^ 54 := Nat.mul_le_mul_left _ hlt.le
      _ = 2 ^ 160 := by norm_num
      _ ≤ 2 ^ (2 * k) := Nat.pow_le_pow_right two_pos (by omega)
  have h := round_roundedOnce (rm := rm) (neg := false) (z := false) (e := -(e / 2) - (k : ℕ)) hm (isRest_sub hr1 hr2 hexact)
    (fun _ => hm.lt_log2 hlong) fun _ => rfl
  convert h using 1
  rw [signed_false, add_sub_cancel, hv, Real.sqrt_mul hnr.le, sqrt_two_zpow he, zpow_sub₀ two_ne_zero, zpow_neg, zpow_natCast]
  field_simp

theorem rsqrt_roundedOnce (hm : StdFmt m) (hx : m.read x = .num false n e) (hn : n ≠ 0) :
    roundedOnce m rm (1 / Real.sqrt (valOf (m.read x))) false (m.rsqrt rm x) := by
  obtain ⟨hval, heven, hle, hle2⟩ := evenExp_spec n e
  have hlt := hm.read_num_lt hx
  unfold Fmt.rsqrt
  rw [hx, cast_valOf_num, signed_false, ← hval]
  dsimp only
  rw [if_neg hn, if_neg Bool.false_ne_true]
  exact rsqrt_round hm (by omega) (by omega) heven (by decide)

end Roots

end Sys2Proof.Proofs
end

section
/-! SUPPORT. `fexp2` and `flog2` at the exact cases, `frnd` and the conversions (04 R82, R87 to R89), and the statement on rounding. -/

namespace Sys2Proof.Proofs

open Sys2Proof Machine Laws Forms Statements

/-! ### Powers of two far beyond a format -/

section Powers

variable {m : Fmt} {rm : Rm} {x n n' : Nat} {neg a more : Bool} {e e' k k' : Int}

theorem StdFmt.bias_lt (hm : StdFmt m) : m.bias < 1024 := by
  have h : ((2 : ℤ) ^ (m.e - 1)) ≤ 2 ^ 10 := pow_le_pow_right₀ (by norm_num) (by have := hm.e_max; omega)
  rw [Fmt.bias]
  omega

theorem log2_one : Nat.log2 1 = 0 := Nat.log2_two_pow (n := 0)

/-- A power of two. -/
theorem round_one (hm : StdFmt m) (k : Int) : roundedOnce m rm ((2 : ℝ) ^ k) false (m.round rm false 1 k false) := by
  have := round_exact (rm := rm) (neg := false) (z := false) (n := 1) (e := k) hm fun _ => rfl
  simpa using this

theorem infinity_le_code_one (hm : StdFmt m) (h : m.bias < k) : m.infinity ≤ (m.code rm neg 1 k false).code := by
  have hb := hm.bias_pos
  have hbig : max (k + (Nat.log2 1 : ℤ)) m.emin = k := by
    rw [log2_one, Fmt.emin]
    omega
  have hbase : ¬k < k - m.f := by omega
  have hunits : (k - (k - m.f)).toNat = m.f := by omega
  unfold Fmt.code
  dsimp only
  rw [hbig, if_neg hbase, hunits, one_mul, hm.infinity_eq, Nat.add_mul, one_mul, Nat.add_assoc]
  have : 2 * m.bias.toNat * 2 ^ m.f ≤ (k - m.emin).toNat * 2 ^ m.f := Nat.mul_le_mul_right _ (by rw [Fmt.emin]; omega)
  omega

/-- Far below the least place nothing but the mode matters. -/
theorem code_one_low (h : k + 2 ≤ m.emin - m.f) : m.code rm false 1 k false = ⟨if rm = .rup then 1 else 0, true, true⟩ := by
  have hbig : max (k + (Nat.log2 1 : ℤ)) m.emin = m.emin := by
    rw [log2_one]
    omega
  obtain ⟨c, hc⟩ : ∃ c, (m.emin - m.f - k).toNat = c + 2 := Nat.exists_eq_add_of_le' (by omega)
  have hpow : 1 < 2 ^ (c + 1) := Nat.one_lt_two_pow (by omega)
  have hpow' : 1 < 2 ^ (c + 2) := Nat.one_lt_two_pow (by omega)
  have htiny : k + (Nat.log2 1 : ℤ) < m.emin := by
    rw [log2_one]
    omega
  have hcut : k < m.emin - m.f := by omega
  unfold Fmt.code
  dsimp only
  rw [hbig, if_pos hcut, if_pos hcut, hc, Nat.div_eq_of_lt hpow', Nat.mod_eq_of_lt hpow']
  cases rm <;> simp [roundsUp, htiny, hpow.not_gt]

theorem round_congr (hn : n ≠ 0) (hn' : n' ≠ 0) (h : m.code rm neg n e more = m.code rm neg n' e' more) :
    m.round rm neg n e more = m.round rm neg n' e' more := by
  unfold Fmt.round
  rw [if_neg hn, if_neg hn', h]

/-- Powers of two beyond the exponents of every format, in either direction, round alike. -/
theorem round_one_far (hm : StdFmt m) (h : (1024 ≤ k ∧ 1024 ≤ k') ∨ (k ≤ -1100 ∧ k' ≤ -1100)) :
    m.round rm false 1 k false = m.round rm false 1 k' false := by
  have hb := hm.bias_lt
  rcases h with ⟨h, h'⟩ | ⟨h, h'⟩
  · have hpos := infinity_pos hm
    rw [round_overflow one_ne_zero (infinity_le_code_one hm (by omega)) hpos,
      round_overflow one_ne_zero (infinity_le_code_one hm (by omega)) hpos]
  · have hlow : -1098 ≤ m.emin - m.f := by
      have := hm.f_max
      rw [Fmt.emin]
      omega
    exact round_congr one_ne_zero one_ne_zero (by rw [code_one_low (by omega), code_one_low (by omega)])

/-! An operand that is an integer `k`. -/

section IntegerOperand

variable (hk : signed a (n * 2 ^ e) = k)
include hk

theorem magnitude_eq_abs : (n : ℝ) * 2 ^ e = |(k : ℝ)| := by
  rw [← hk, abs_signed, abs_of_nonneg (by positivity)]

/-- An integer of 14 bits or more. -/
theorem far_integer (hn : n ≠ 0) (hbig : 12 < e + n.log2) : (a = false ∧ 8192 ≤ k) ∨ (a = true ∧ k ≤ -8192) := by
  have hge : (8192 : ℝ) ≤ n * 2 ^ e := by
    have h := (magnitude_bounds (e := e) hn isRest_zero).1
    rw [add_zero] at h
    calc (8192 : ℝ) = 2 ^ (13 : ℤ) := by norm_num
      _ ≤ 2 ^ (e + n.log2) := zpow_le_zpow_right₀ one_le_two (by omega)
      _ ≤ n * 2 ^ e := h
  cases a with
  | false => exact .inl ⟨rfl, by exact_mod_cast hge.trans_eq hk⟩
  | true => exact .inr ⟨rfl, by exact_mod_cast hk.symm.trans_le (neg_le_neg hge)⟩

/-- A magnitude below 1 is the integer 0. -/
theorem integer_of_small (hn : n < 2 ^ 53) (he : e ≤ -53) : n = 0 := by
  have hlt : |(k : ℝ)| < 1 :=
    calc |(k : ℝ)| = n * 2 ^ e := (magnitude_eq_abs hk).symm
      _ < 2 ^ (53 : ℤ) * 2 ^ e := mul_lt_mul_of_pos_right (by exact_mod_cast hn) (by positivity)
      _ = 2 ^ (53 + e) := (zpow_add₀ two_ne_zero _ _).symm
      _ ≤ 2 ^ (0 : ℤ) := zpow_le_zpow_right₀ one_le_two (by omega)
      _ = 1 := zpow_zero _
  have hk0 : k = 0 := Int.abs_lt_one_iff.mp (by exact_mod_cast hlt)
  have hzero := magnitude_eq_abs hk
  rw [hk0, Int.cast_zero, abs_zero, mul_eq_zero_iff_right (by positivity)] at hzero
  exact_mod_cast hzero

/-- The integer in fixed point. -/
theorem fixed_point_eq {f : Nat} (h : 0 ≤ e + f) :
    (if a then -((n * 2 ^ (e + f).toNat : ℕ) : ℤ) else (n * 2 ^ (e + f).toNat : ℕ)) = k * 2 ^ f := by
  have h := signed_aligned (p := -(f : ℤ)) (e := e) (by omega) a n
  rw [hk, sub_neg_eq_add, zpow_neg, zpow_natCast, ← div_eq_mul_inv, eq_div_iff (by positivity)] at h
  exact_mod_cast h.symm

end IntegerOperand

/-- An integer operand of `fexp2`. -/
theorem exp2_roundedOnce (hm : StdFmt m) (hx : m.read x = .num a n e) (hk : (valOf (m.read x) : ℝ) = k) :
    roundedOnce m rm ((2 : ℝ) ^ k) false (m.exp2 rm x) := by
  rw [hx, cast_valOf_num] at hk
  unfold Fmt.exp2
  rw [hx]
  dsimp only
  by_cases h0 : n = 0
  · have hk0 : k = 0 := by
      rw [h0] at hk
      simpa using hk.symm
    rw [if_pos h0, hk0]
    exact round_one hm 0
  rw [if_neg h0]
  by_cases hbig : 12 < e + n.log2
  · rw [if_pos hbig]
    rcases far_integer hk h0 hbig with ⟨rfl, h⟩ | ⟨rfl, h⟩
    · rw [if_neg Bool.false_ne_true, round_one_far (k' := k) hm (by omega)]
      exact round_one hm k
    · rw [if_pos rfl, round_one_far (k' := k) hm (by omega)]
      exact round_one hm k
  · have hsmall : ¬e + fixBits < 0 := fun h => by
      have hfix : fixBits = 400 := rfl
      exact h0 (integer_of_small hk (hm.read_num_lt hx) (by omega))
    have hpow : (2 : ℤ) ^ fixBits ≠ 0 := pow_ne_zero _ two_ne_zero
    rw [if_neg hbig, if_neg hsmall, fixed_point_eq hk (not_lt.mp hsmall), Int.mul_emod_left, Int.mul_ediv_cancel _ hpow,
      Int.toNat_zero, if_pos rfl]
    exact round_one hm k

/-- A power of two as operand of `flog2`. -/
theorem log2_roundedOnce (hm : StdFmt m) (hx : m.read x = .num a n e) (hk : (valOf (m.read x) : ℝ) = (2 : ℝ) ^ k) :
    roundedOnce m rm k false (m.log2 rm x) := by
  rw [hx, cast_valOf_num] at hk
  have hpos : (0 : ℝ) < 2 ^ k := by positivity
  have ha : a = false := by
    cases a with
    | false => rfl
    | true =>
      rw [signed_true] at hk
      have : (0 : ℝ) ≤ n * 2 ^ e := by positivity
      linarith
  subst ha
  rw [signed_false] at hk
  have hn : n ≠ 0 := fun h => by
    rw [h, Nat.cast_zero, zero_mul] at hk
    exact hpos.ne hk
  have hle : e ≤ k := (zpow_le_zpow_iff_right₀ (one_lt_two (α := ℝ))).mp <| by
    rw [← hk]
    exact le_mul_of_one_le_left (by positivity) (by exact_mod_cast Nat.one_le_iff_ne_zero.mpr hn)
  have hn2 : n = 2 ^ (k - e).toNat := by
    rw [two_zpow_split hle, mul_left_inj' (by positivity)] at hk
    exact_mod_cast hk
  have hlog : n.log2 = (k - e).toNat := by rw [hn2, Nat.log2_two_pow]
  have hek : e + (n.log2 : ℤ) = k := by omega
  unfold Fmt.log2
  rw [hx]
  dsimp only
  rw [if_neg hn, if_neg Bool.false_ne_true, hek, if_pos (by rw [hlog, ← hn2])]
  have h := round_exact (rm := rm) (neg := k < 0) (z := false) (n := k.natAbs) (e := 0) hm fun h => by
    rw [Int.natAbs_eq_zero.mp h]
    rfl
  rwa [zpow_zero, mul_one, signed_natAbs] at h

end Powers

/-! ### Integers -/

section Integers

variable {m : Fmt} {rm : Rm} {x n R : Nat} {neg a : Bool} {e : Int}

theorem neighbours_int (base : Nat) : Neighbours isInteger isEven (base % 2 == 1) base (base + 1 : ℕ) := by
  refine ⟨?_, ?_, Nat.cast_nonneg _, ⟨base, by simp⟩, ⟨base + 1, by simp⟩, fun h => ?_, fun h => ?_, ?_⟩
  · rintro _ ⟨k, rfl⟩
    exact ⟨-k, by simp⟩
  · rintro _ ⟨k, rfl⟩
    exact ⟨-k, by simp⟩
  · obtain ⟨c, hc⟩ := Nat.even_iff.mpr (show base % 2 = 0 by simpa using h)
    exact ⟨c, by rw [hc]; push_cast; ring⟩
  · obtain ⟨c, hc⟩ := Nat.odd_iff.mpr (show base % 2 = 1 by simpa using h)
    exact ⟨c + 1, by rw [hc]; push_cast; ring⟩
  · rintro _ ⟨k, rfl⟩
    rcases le_or_gt |k| base with h | h
    · exact .inl (by exact_mod_cast h)
    · exact .inr (by exact_mod_cast h)

/-- `roundInt` gives the integer of the mode. -/
theorem roundInt_roundsTo : roundsTo rm isInteger isEven (signed neg (n * 2 ^ e)) (signed neg (roundInt rm neg n e).1) := by
  unfold roundInt
  split
  · -- an integer already
    rename_i he
    have hval : (n : ℝ) * 2 ^ e = (n * 2 ^ e.toNat : ℕ) := by
      push_cast
      rw [← zpow_natCast, Int.toNat_of_nonneg he]
    rw [hval, signed_int]
    exact roundsTo_self ⟨_, rfl⟩
  · rename_i he
    have hcut := cut_eq (n := n) (e := e) (q := 0) isRest_zero fun h => absurd h Bool.false_ne_true
    have hlt := rest_lt_one isRest_zero (Nat.mod_lt n (Nat.two_pow_pos (-e).toNat))
    have hrest : (0 : ℝ) ≤ ((n % 2 ^ (-e).toNat : ℕ) + 0) / 2 ^ (-e).toNat := by positivity
    rw [cutBase, cutRest, if_pos (not_le.mp he), if_pos (not_le.mp he), zero_sub, zpow_zero, mul_one] at hcut
    have h := roundsTo_of_neighbours (rm := rm) (neg := neg) (neighbours_int (n / 2 ^ (-e).toNat)) hrest hlt (by push_cast; linarith)
      (x := n * 2 ^ e) (by push_cast; linarith) (roundsUp_iff isRest_zero fun h => by omega)
    convert h using 2
    dsimp only
    split <;> simp

theorem onGrid_nat (hm : StdFmt m) (hR : R ≤ 2 ^ m.f) (h0 : R ≠ 0) : onGrid m R := by
  have hlog : R.log2 ≤ m.f := by
    have := (Nat.log2_self_le h0).trans hR
    exact (Nat.pow_le_pow_iff_right one_lt_two).mp this
  have hb := hm.bias_pos
  refine ⟨R * 2 ^ (m.f - R.log2), (R.log2 : ℤ) - m.f, ?_, ?_, ?_, .inr ?_⟩
  · rw [abs_of_nonneg (Nat.cast_nonneg _)]
    push_cast
    rw [mul_assoc, ← zpow_natCast, ← zpow_add₀ two_ne_zero, Nat.cast_sub hlog, sub_add_sub_cancel, sub_self, zpow_zero, mul_one]
  · calc R * 2 ^ (m.f - R.log2) < 2 ^ (R.log2 + 1) * 2 ^ (m.f - R.log2) :=
          Nat.mul_lt_mul_of_pos_right Nat.lt_log2_self (Nat.two_pow_pos _)
      _ = 2 ^ (m.f + 1) := by rw [← pow_add]; congr 1; omega
  · rw [Fmt.emin]
    omega
  · calc 2 ^ m.f = 2 ^ R.log2 * 2 ^ (m.f - R.log2) := by rw [← pow_add]; congr 1; omega
      _ ≤ R * 2 ^ (m.f - R.log2) := Nat.mul_le_mul_right _ (Nat.log2_self_le h0)

theorem nat_le_largest (hm : StdFmt m) (hR : R ≤ 2 ^ m.f) : (R : ℝ) ≤ largest m := by
  have hf := hm.f_bias
  have hone : (1 : ℝ) ≤ 2 ^ m.f := one_le_pow₀ one_le_two
  have hmax : (1 : ℝ) ≤ 2 ^ (m.bias - m.f) := one_le_zpow₀ one_le_two (by omega)
  have hR' : (R : ℝ) ≤ 2 ^ m.f := by exact_mod_cast hR
  rw [largest_eq, pow_succ]
  nlinarith

/-- An integer of f bits is kept. -/
theorem read_round_nat (hm : StdFmt m) (hR : R ≤ 2 ^ m.f) :
    ∃ k p, m.read (m.round rm neg R 0 false).1 = .num neg k p ∧ (k : ℝ) * 2 ^ p = R := by
  rcases Nat.eq_zero_or_pos R with rfl | hpos
  · rw [round_zero]
    exact ⟨_, _, read_zero hm neg, by simp⟩
  · have hR0 : (0 : ℝ) < R := by exact_mod_cast hpos
    have h := round_exact (rm := rm) (neg := neg) (z := neg) (n := R) (e := 0) hm fun _ => rfl
    rw [zpow_zero, mul_one] at h
    have hne : signed neg (R : ℝ) ≠ 0 := by
      rw [← abs_ne_zero, abs_signed, abs_ne_zero]
      exact hR0.ne'
    obtain ⟨r, s, hround, hs, -, hfin⟩ := h.2 hne
    have hgrid : onGrid m (signed neg R) := by
      have := onGrid_nat hm hR hpos.ne'
      cases neg
      · exact this
      · exact onGrid_neg this
    obtain rfl := eq_of_roundsTo_of_grid hgrid hround
    rw [signed_lt_zero hR0, ← Bool.eq_iff_iff] at hs
    subst hs
    obtain ⟨-, ⟨k, p, hread⟩, hval, -⟩ := hfin (by rw [abs_signed, abs_of_pos hR0]; exact nat_le_largest hm hR)
    refine ⟨k, p, hread, ?_⟩
    rwa [hread, cast_valOf_num, signed_inj] at hval

/-- `frnd` of a finite operand (R87). -/
theorem integral_spec (hm : StdFmt m) (hx : m.read x = .num a n e) : (m.integral rm x).2 = noExc
    ∧ roundsTo rm isInteger isEven (valOf (m.read x)) (valOf (m.read (m.integral rm x).1))
    ∧ finite (m.read (m.integral rm x).1) ∧ signOf (m.read (m.integral rm x).1) = a := by
  unfold Fmt.integral
  rw [hx]
  dsimp only
  split
  · -- an integer already
    rename_i h
    refine ⟨rfl, ?_, ⟨a, n, e, hx⟩, by rw [hx]; rfl⟩
    rw [hx]
    refine roundsTo_self ?_
    rw [cast_valOf_num]
    rcases Bool.or_eq_true _ _ ▸ h with h | h
    · rw [of_decide_eq_true h]
      exact ⟨0, by simp⟩
    · refine ⟨if a then -((n * 2 ^ e.toNat : ℕ) : ℤ) else (n * 2 ^ e.toNat : ℕ), ?_⟩
      rw [← signed_int]
      push_cast
      rw [← zpow_natCast, Int.toNat_of_nonneg (of_decide_eq_true h)]
  · rename_i h
    have he : e < 0 := by
      by_contra hno
      exact h (by simp [not_lt.mp hno])
    have hR : (roundInt rm a n e).1 ≤ 2 ^ m.f := by
      have hlt := read_num_lt hx
      obtain ⟨c, hc⟩ : ∃ c, (-e).toNat = c + 1 := Nat.exists_eq_add_of_le' (by omega)
      have hhalf : n / 2 ^ (-e).toNat < 2 ^ m.f := by
        rw [hc, Nat.div_lt_iff_lt_mul (Nat.two_pow_pos _)]
        calc n < 2 ^ (m.f + 1) := hlt
          _ ≤ 2 ^ m.f * 2 ^ (c + 1) := by rw [← pow_add]; exact Nat.pow_le_pow_right two_pos (by omega)
      unfold roundInt
      rw [if_neg (not_le.mpr he)]
      dsimp only
      split <;> omega
    obtain ⟨k, p, hread, hval⟩ := read_round_nat (rm := rm) (neg := a) hm hR
    rw [hread, cast_valOf_num, cast_valOf_num, hval]
    exact ⟨rfl, roundInt_roundsTo, ⟨a, k, p, rfl⟩, rfl⟩

end Integers

/-! ### Conversions (R88, R89) -/

section Conversions

variable {dst src : Ty} {rm : Rm} {w : BitVec 128}

theorem rangeOf_eq (ty : Ty) : rangeOf ty = (minOf ty, maxOf ty) := by
  unfold rangeOf minOf maxOf
  split <;> rfl

theorem isInt_of_isFloat (h : isFloat dst = true) : isInt dst = false := by
  cases dst <;> simp_all [isFloat, isInt]

/-- A word of a format in a register. -/
theorem StdFmt.toNat_word {m : Fmt} {c : Nat} (hm : StdFmt m) (h : c < 2 ^ m.bits) : (BitVec.ofNat 128 c).toNat = c := by
  have hbits : m.bits ≤ 128 := by
    have := hm.e_max
    have := hm.f_max
    rw [Fmt.bits]
    omega
  rw [BitVec.toNat_ofNat, Nat.mod_eq_of_lt (h.trans_le (Nat.pow_le_pow_right two_pos hbits))]

theorem cvtValue_int_int (hs : isInt src = true) (hd : isInt dst = true) : cvtValue dst src rm w =
    (intResult dst (max (rangeOf dst).1 (min (rangeOf dst).2 (valueOf src (w.setWidth (valBits src))))), noExc) := by
  unfold cvtValue
  rw [if_pos hs, if_pos hd, rangeOf_eq]
  rfl

theorem cvtValue_int_float (hs : isInt src = true) (hd : isFloat dst = true) :
    roundedOnce (fmtOf dst) rm (valueOf src (w.setWidth (valBits src)))
      false ((cvtValue dst src rm w).1.toNat, (cvtValue dst src rm w).2) := by
  have hm := stdFmt_fmtOf dst
  unfold cvtValue
  rw [if_pos hs, isInt_of_isFloat hd, if_neg Bool.false_ne_true]
  dsimp only
  unfold Fmt.ofInt
  rw [hm.toNat_word (round_lt hm)]
  have h := round_exact (rm := rm) (neg := intOf src w < 0) (z := false) (n := (intOf src w).natAbs) (e := 0) hm fun h => by
    rw [Int.natAbs_eq_zero.mp h]
    rfl
  rwa [zpow_zero, mul_one, signed_natAbs] at h

theorem cvtValue_of_float (hs : isFloat src = true) (hd : isFloat dst = true) : cvtValue dst src rm w =
    (BitVec.ofNat 128 ((fmtOf src).convert (fmtOf dst) rm (elemOf src 0 w)).1,
      ((fmtOf src).convert (fmtOf dst) rm (elemOf src 0 w)).2) := by
  unfold cvtValue
  rw [isInt_of_isFloat hs, isInt_of_isFloat hd]
  rfl

theorem cvtValue_float_float (hs : isFloat src = true) (hd : isFloat dst = true)
    (hv : finite ((fmtOf src).read (elemOf src 0 w))) :
    roundedOnce (fmtOf dst) rm (valOf ((fmtOf src).read (elemOf src 0 w))) (signOf ((fmtOf src).read (elemOf src 0 w)))
      ((cvtValue dst src rm w).1.toNat, (cvtValue dst src rm w).2) := by
  obtain ⟨a, n, e, hv⟩ := hv
  have hm := stdFmt_fmtOf dst
  rw [cvtValue_of_float hs hd]
  unfold Fmt.convert
  rw [hv, cast_valOf_num]
  dsimp only
  rw [hm.toNat_word (round_lt hm)]
  exact round_exact hm fun _ => rfl

theorem cvtValue_of_float_int (hs : isFloat src = true) (hd : isInt dst = true) : cvtValue dst src rm w =
    (intResult dst ((fmtOf src).toInt rm (minOf dst) (maxOf dst) (elemOf src 0 w)).1,
      ((fmtOf src).toInt rm (minOf dst) (maxOf dst) (elemOf src 0 w)).2) := by
  unfold cvtValue
  rw [isInt_of_isFloat hs, hd]
  rfl

theorem cvtValue_float_int (hs : isFloat src = true) (hd : isInt dst = true)
    (hv : finite ((fmtOf src).read (elemOf src 0 w))) :
    ∃ k : ℤ, roundsTo rm isInteger isEven (valOf ((fmtOf src).read (elemOf src 0 w))) k
      ∧ cvtValue dst src rm w = if k < (rangeOf dst).1 then (intResult dst (rangeOf dst).1, invalid)
        else if (rangeOf dst).2 < k then (intResult dst (rangeOf dst).2, invalid) else (intResult dst k, noExc) := by
  obtain ⟨a, n, e, hv⟩ := hv
  refine ⟨if a then -((roundInt rm a n e).1 : ℤ) else (roundInt rm a n e).1, ?_, ?_⟩
  · rw [hv, cast_valOf_num, ← signed_int]
    exact roundInt_roundsTo
  · rw [cvtValue_of_float_int hs hd, rangeOf_eq]
    unfold Fmt.toInt
    rw [hv]
    dsimp only
    generalize (if a = true then _ else _ : ℤ) = k
    split_ifs <;> rfl

end Conversions

/-- Settles O9: an operation forms the exact value, or as many of its bits as decide any rounding and whether something lies below
them, and `Fmt.round` takes the neighbour in the format that the mode names. -/
theorem roundedOnce_holds : Obligations.RoundedOnce := by
  unfold Obligations.RoundedOnce
  refine ⟨fun ty rm x y z a b c na nb nc ea eb ec _ => ?_, fun dst src rm w => ?_⟩
  · intro m va vb vc hx hy hz
    have hm : StdFmt m := stdFmt_fmtOf ty
    refine ⟨add_roundedOnce hm hx hy, sub_roundedOnce hm hx hy, mul_roundedOnce hm hx hy, fma_roundedOnce hm hx hy hz,
      div_roundedOnce hm hx hy, rcp_roundedOnce hm hx, fun hn ha => ?_, fun k => exp2_roundedOnce hm hx,
      fun k => log2_roundedOnce hm hx, integral_spec hm hx⟩
    subst ha
    exact ⟨sqrt_roundedOnce hm hx hn, rsqrt_roundedOnce hm hx hn⟩
  · refine ⟨cvtValue_int_int, cvtValue_int_float, fun hs hd => ⟨cvtValue_float_float hs hd, fun n hn => ?_⟩,
      fun hs hd => ⟨fun hn => ?_, fun n hn => ?_, cvtValue_float_int hs hd⟩⟩
    · rw [cvtValue_of_float hs hd, Fmt.convert, hn]
    · rw [cvtValue_of_float_int hs hd]
      cases hv : (fmtOf src).read (elemOf src 0 w) with
      | nan s =>
        rw [Fmt.toInt, hv]
        cases dst <;> rfl
      | inf s => rw [hv] at hn; cases hn
      | num s k e => rw [hv] at hn; cases hn
    · rw [cvtValue_of_float_int hs hd, rangeOf_eq, Fmt.toInt, hn]

end Sys2Proof.Proofs
end

section
/-! SUPPORT. Instructions that take their slot to an address (R92, R93, R95) or only to the next instruction (R32, R101). -/

namespace Sys2Proof.Proofs

open Sys2Proof Machine Laws Forms Statements

/-! ### Issue and the whole slot -/

theorem cur_of_sameSlots {s u : State} (k : SameSlots s u) : u.cur = s.cur := k.1

theorem me_slot_of_sameSlots {s u : State} (k : SameSlots s u) (n : Nat) : u.me.slot n = s.me.slot n := by
  obtain ⟨hc, hs⟩ := k
  rw [State.me, hc, hs]
  rfl

section WholeSlot

variable {s : State} {i : Instr} {gd : Guard} {body : Mask → State}

/-- An instruction acts on its active lanes alone, so that its body may be read at these. -/
theorem issue_congr {body' : Mask → State} (h : body (s.me.active s.mySlot.mask gd) = body' (s.me.active s.mySlot.mask gd)) :
    issue i gd s body = issue i gd s body' := by
  unfold issue
  dsimp only
  rw [h]

/-- An instruction with an active lane acts on the active ones (R23). -/
theorem exec_of_active (he : exec i s = issue i gd s body) (hi : issuable i s = true)
    (ha : s.me.active s.mySlot.mask gd ≠ 0) : exec i s = .next (body (s.me.active s.mySlot.mask gd)) := by
  rw [he, issue_eq _ _ _ _ _ hi, if_neg (by simpa using ha)]

/-- One without a guard acts on its whole slot. -/
theorem exec_unguarded (he : exec i s = issue i .always s body) (hi : issuable i s = true) :
    exec i s = .next (body s.mySlot.mask) :=
  exec_of_active he hi (issuable_mask hi)

/-- One without an active lane advances. -/
theorem exec_of_inactive (he : exec i s = issue i gd s body) (hi : issuable i s = true)
    (ha : s.me.active s.mySlot.mask gd = 0) : exec i s = .next (s.advance i) := by
  rw [he, issue_eq _ _ _ _ _ hi, if_pos (by simp [ha])]

theorem onlyAdvances_of_advance (he : exec i s = .next (s.advance i)) : onlyAdvances i s := ⟨_, he, advance_spec s i⟩

/-- The whole slot goes to an address after an effect that keeps it. -/
theorem wentOn_of_divided {u t : State} {pc : Word} (k : SameSlots s u)
    (h : Divided u t (s.mySlot.go pc s.mySlot.mask s.turn) (u.me.slot (other u.cur.slot))) : s.wentOn t pc := by
  obtain ⟨hcur, -, -, hmy, ho⟩ := h
  rw [cur_of_sameSlots k, me_slot_of_sameSlots k] at ho
  exact ⟨hcur.trans (cur_of_sameSlots k), by rw [hmy]; rfl, by rw [hmy]; rfl, by rw [hmy]; rfl, by rw [hmy]; rfl, ho⟩

/-- A slot that goes on whole: nothing of the machine but counters, a window and the slot changes. -/
theorem jumpTo_spec (s : State) (pc : Word) :
    s.wentOn (s.jumpTo pc) pc ∧ s.me.sameRegs (s.jumpTo pc).me ∧ s.elsewhereSame (s.jumpTo pc) := by
  have h : Divided s (s.jumpTo pc) _ _ := divided_one s (s.mySlot.go pc s.mySlot.mask s.turn)
  have hwent := wentOn_of_divided ⟨rfl, fun _ _ _ => rfl⟩ h
  obtain ⟨-, hregs, helse, -, -⟩ := h
  exact ⟨hwent, hregs, helse⟩

theorem goesTo_of_jumpTo {pc : Word} (he : exec i s = .next (s.jumpTo pc)) : goesTo i pc s := ⟨_, he, jumpTo_spec s pc⟩

end WholeSlot

/-! ### The instructions -/

section Jumps

variable {s : State}

theorem exec_bra (o : Jump) (s : State) :
    exec (.bra o) s = issue (.bra o) o.g s fun _ => s.jumpTo (relative s.mySlot.pc o.d0) := rfl

theorem exec_jmp (o : Jump) (s : State) :
    exec (.jmp o) s = issue (.jmp o) o.g s fun _ => s.jumpTo (relative s.mySlot.pc o.d0) := rfl

theorem exec_nop (g : Guard) (s : State) : exec (.nop g) s = issue (.nop g) g s fun _ => s.advance (.nop g) := rfl

theorem exec_yield (g : Guard) (s : State) : exec (.yield g) s = issue (.yield g) g s fun _ =>
    (s.advance (.yield g)).onMySlot fun x => { x with since := s.turn + 1 } := rfl

theorem exec_join (g : Guard) (s : State) : exec (.join g) s = issue (.join g) g s fun act =>
    let rest := s.mySlot.mask &&& ~~~act
    if s.mySlot.rcv == noRcv then s.advance (.join g)
    else s.finish { parts := (if act == 0 then [] else [s.mySlot.go s.mySlot.rcv act s.turn])
      ++ if rest == 0 then [] else [s.mySlot.go (s.nextPc (.join g)) rest s.turn] } id := rfl

/-- A direct `jmp` has no guard (Table 5-1). -/
theorem guard_jmp {o : Jump} (hi : issuable (.jmp o) s = true) : o.g = .always := by
  have hw := wellFormed_of_issuable hi
  simp only [wellFormed, Bool.and_eq_true, beq_iff_eq] at hw
  obtain ⟨⟨hg, -⟩, -⟩ := hw
  exact hg

theorem jmp_goesTo {o : Jump} (hi : issuable (.jmp o) s = true) :
    goesTo (.jmp o) (s.mySlot.pc + o.d0.signExtend 64) s := by
  have he := exec_jmp o s
  rw [guard_jmp hi] at he
  exact goesTo_of_jumpTo (exec_unguarded he hi)

theorem nop_onlyAdvances {g : Guard} (hi : issuable (.nop g) s = true) : onlyAdvances (.nop g) s := by
  refine onlyAdvances_of_advance ?_
  by_cases ha : s.me.active s.mySlot.mask g = 0
  · exact exec_of_inactive (exec_nop g s) hi ha
  · exact exec_of_active (exec_nop g s) hi ha

/-- A change of its ready time alone leaves a slot as it went on. -/
theorem since_spec {t : State} {pc : Word} (n : Nat) (h : s.wentOn t pc ∧ s.me.sameRegs t.me ∧ s.elsewhereSame t) :
    let u := t.onMySlot fun x => { x with since := n }
    u.mySlot.since = n ∧ s.wentOn u pc ∧ s.me.sameRegs u.me ∧ s.elsewhereSame u := by
  intro u
  obtain ⟨⟨hc, hs, hp, hm, hr, ho⟩, hregs, helse⟩ := h
  have hmy : u.mySlot = { t.mySlot with since := n } := mySlot_onMySlot _ _
  have hme : u.me = t.me.onSlot t.cur.slot fun x => { x with since := n } := me_onMe _ _
  refine ⟨by rw [hmy], ⟨hc, by rw [hmy]; exact hs, by rw [hmy]; exact hp, by rw [hmy]; exact hm, by rw [hmy]; exact hr, ?_⟩,
    sameRegs_trans hregs ?_, elsewhereSame_trans helse (elsewhereSame_onMe _ _)⟩
  · rw [hme, ← hc, slot_onSlot_other, hc, ho]
  · rw [hme]
    exact onSlot_rest _ _ _

/-- Once it has advanced, a slot has been ready since the next turn. -/
theorem since_advance (s : State) (i : Instr) : (s.advance i).mySlot.since = s.turn + 1 := by
  rw [State.advance, mySlot_onMySlot]
  rfl

/-- `yield` with and without an active lane (R101). -/
theorem yield_spec {g : Guard} (hi : issuable (.yield g) s = true) : ∃ t, exec (.yield g) s = .next t
    ∧ t.mySlot.since = s.turn + 1 ∧ s.wentOn t (s.nextPc (.yield g)) ∧ s.me.sameRegs t.me ∧ s.elsewhereSame t := by
  by_cases ha : s.me.active s.mySlot.mask g = 0
  · exact ⟨_, exec_of_inactive (exec_yield g s) hi ha, since_advance _ _, advance_spec _ _⟩
  · exact ⟨_, exec_of_active (exec_yield g s) hi ha, since_spec _ (advance_spec _ _)⟩

/-- `join` with every lane active: the whole slot goes to its reconvergence address, if it has one (R95). -/
theorem join_goesTo {g : Guard} (hi : issuable (.join g) s = true) (ha : s.me.active s.mySlot.mask g = s.mySlot.mask) :
    goesTo (.join g) (if s.mySlot.rcv = noRcv then s.nextPc (.join g) else s.mySlot.rcv) s := by
  have hm : s.mySlot.mask ≠ 0 := issuable_mask hi
  have he := exec_of_active (exec_join g s) hi (by rwa [ha])
  rw [ha] at he
  by_cases hr : s.mySlot.rcv = noRcv
  · rw [if_pos hr]
    rw [if_pos (by simpa using hr)] at he
    exact ⟨_, he, advance_spec s _⟩
  · rw [if_neg hr]
    rw [if_neg (by simpa using hr), BitVec.and_not_self, if_neg (by simpa using hm)] at he
    exact goesTo_of_jumpTo he

end Jumps

/-- Settles O11: what goes to an address ends as a slot of one part does, what only advances as `advance` does, and `yield` sets
the ready time that an advance sets. -/
theorem jumpsAndNops : Obligations.JumpsAndNops := by
  unfold Obligations.JumpsAndNops
  intro s
  refine ⟨fun o hi => ?bra, fun o hi => jmp_goesTo hi, fun g hi => nop_onlyAdvances hi, fun g hi => ?yield,
    fun g hi ha => join_goesTo hi ha⟩
  case bra =>
    split
    · rename_i ha
      exact onlyAdvances_of_advance (exec_of_inactive (exec_bra o s) hi ha)
    · rename_i ha
      exact goesTo_of_jumpTo (exec_of_active (exec_bra o s) hi ha)
  case yield =>
    obtain ⟨t, ht, hsince, hwent, hregs, helse⟩ := yield_spec hi
    exact ⟨t, ht, hwent, hsince, hregs, helse⟩

end Sys2Proof.Proofs
end

section
/-! SUPPORT. Calls and indirect transfers (R92, R96 to R98): an effect that keeps the slots of its group comes before the parts
take them, and the lanes that hold the target are one part. -/

namespace Sys2Proof.Proofs

open Sys2Proof Machine Laws Forms Statements

/-! ### An effect that keeps the slots -/

section SameSlots

variable {s u : State}

/-- What moves bytes keeps the issuing group but for the record of a fabric error. -/
theorem me_of_aside (h : Aside s u) : u.me = { s.me with fabAddr := u.me.fabAddr, fabPend := u.me.fabPend } := by
  have hg := h.group s.cur.core s.cur.gslot
  rw [State.me, h.cur]
  exact hg

variable {eff : State → State}

/-- Such an effect may come before the end of an instruction that goes on whole. -/
theorem finish_one_after (k : SameSlots s (eff s)) (p : Slot) :
    s.finish { parts := [p] } eff = (eff s).finish { parts := [p] } id := by
  rw [finish_whole, finish_whole, cur_of_sameSlots k]
  rfl

/-- And before the end of one that divides its slot. -/
theorem finish_two_after (k : SameSlots s (eff s)) (p q : Slot) (h : s.aloneInGroup = true) :
    s.finish { parts := [p, q] } eff = (eff s).finish { parts := [p, q] } id := by
  obtain ⟨d, hd⟩ := myPushes_zero s
  have ho : (s.me.slot (other s.cur.slot)).state = .empty := by simpa [State.aloneInGroup] using h
  have ho' := (congrArg Slot.state (me_slot_of_sameSlots k _)).trans ho
  have hg := group_retire_onMe (eff s) fun z => z.setSlot s.cur.slot p
  have hk := onGroup_retire_onMe (eff s) fun z => z.setSlot s.cur.slot p
  rw [cur_of_sameSlots k] at hg hk
  have ha : (eff s).aloneInGroup = true := by simp [State.aloneInGroup, cur_of_sameSlots k, ho']
  rw [finish_two _ p q ha, cur_of_sameSlots k]
  simp [State.finish, State.place, pushesFor, ho, ho', hd, hg, hk]

end SameSlots

/-! ### The lanes that hold the target -/

section Transfers

variable {s : State} {tg : Src} {eff : Word → Mask → State → State}

/-- The target of the lowest-numbered lane (R96). -/
abbrev targetOf (s : State) (tg : Src) : Word := s.me.src64 (lowest s.mySlot.mask) tg

/-- An aligned target: the lanes that hold it are one part, and those that do not, where there are any, the other. -/
theorem indirect_eq (h : (targetOf s tg).toNat % 4 = 0) :
    let rest := s.mySlot.mask &&& ~~~sameTarget s tg
    indirect tg s eff = s.finish
      { parts := s.mySlot.go (targetOf s tg) (sameTarget s tg) s.turn
          :: if rest = 0 then [] else [s.mySlot.ready s.mySlot.pc rest s.turn] }
      (eff (targetOf s tg) (sameTarget s tg)) := by
  intro rest
  unfold indirect
  dsimp only
  rw [if_neg (by simpa using h)]
  simp only [beq_iff_eq]
  rfl

/-- A transfer whose effect keeps the slots: the parts stand where the rule says, and beyond its effect nothing changes. -/
theorem indirect_transfers (hc : canTransfer s tg) (k : SameSlots s (eff (targetOf s tg) (sameTarget s tg) s)) :
    let u := eff (targetOf s tg) (sameTarget s tg) s
    let t := indirect tg s eff
    transferred s t tg ∧ u.me.sameRegs t.me ∧ u.elsewhereSame t := by
  intro u t
  obtain ⟨hal, hrest⟩ := hc
  have he : t = _ := indirect_eq hal
  by_cases h0 : s.mySlot.mask &&& ~~~sameTarget s tg = 0
  · rw [if_pos h0, finish_one_after k] at he
    obtain ⟨hcur, hregs, helse, hmy, ho⟩ := divided_one u (s.mySlot.go (targetOf s tg) (sameTarget s tg) s.turn)
    rw [← he] at hcur hregs helse hmy ho
    rw [cur_of_sameSlots k, me_slot_of_sameSlots k] at ho
    refine ⟨⟨hcur.trans (cur_of_sameSlots k), by rw [hmy]; exact ⟨rfl, rfl, rfl, rfl⟩, ?_⟩, hregs, helse⟩
    rw [if_pos h0]
    exact ho
  · have halone := hrest.resolve_left h0
    rw [if_neg h0, finish_two_after k _ _ halone] at he
    have hu : u.aloneInGroup = true := by
      rw [State.aloneInGroup, cur_of_sameSlots k, me_slot_of_sameSlots k]
      exact halone
    obtain ⟨hcur, hregs, helse, hmy, ho⟩ := divided_two u (s.mySlot.go (targetOf s tg) (sameTarget s tg) s.turn)
      (s.mySlot.ready s.mySlot.pc (s.mySlot.mask &&& ~~~sameTarget s tg) s.turn) hu
    rw [← he] at hcur hregs helse hmy ho
    rw [cur_of_sameSlots k] at ho
    refine ⟨⟨hcur.trans (cur_of_sameSlots k), by rw [hmy]; exact ⟨rfl, rfl, rfl, rfl⟩, ?_⟩, hregs, helse⟩
    rw [if_neg h0, ho]
    exact ⟨rfl, rfl, rfl, rfl⟩

end Transfers

/-! ### The link (R97) and the record of a transfer (Table 8-5) -/

section Link

variable {s : State} {link : BitVec 8} {m : Mask} {next : Word}

/-- The link pair is written as any per-lane result. -/
theorem link_eq_perLane (g : Group) (link : BitVec 8) (m : Mask) (next : Word) :
    g.link link.toNat m next = g.perLane (.v link) 64 m fun _ => next.setWidth 128 := by
  rw [Group.link, BitVec.ofNat_toNat, BitVec.setWidth_eq]
  rfl

theorem vwide_link {g : Group} {l : Nat} (hl : l < 32) (ha : m.getLsbD l = true) :
    (g.link link.toNat m next).vwide link.toNat l 64 = next.setWidth 128 := by
  have h := holds_perLane (g := g) (d := .v link) (f := fun _ => next.setWidth 128) isWidth_64 (fun _ _ _ => rfl) hl ha
  rw [link_eq_perLane]
  refine Eq.trans h (congrArg (BitVec.setWidth 128) ?_)
  rw [BitVec.setWidth_setWidth_of_le _ (by decide), BitVec.setWidth_eq]

theorem flowRec_untraced {k : Nat} {pc t : Word} (h : s.flowTraced = false) : s.flowRec k pc t m = s := by
  unfold State.flowRec
  exact if_neg (by simpa [State.flowTraced] using h)

theorem aside_flowRec (s : State) (k : Nat) (pc t : Word) (m : Mask) : Aside s (s.flowRec k pc t m) := by
  unfold State.flowRec
  dsimp only
  split
  · exact aside_traceWrite _ _ _ _
  · exact aside_refl s

/-- The effect of a call: the link is written, and the record where the flow is traced. -/
def linked (s : State) (link : BitVec 8) (next pc target : Word) (m : Mask) : State :=
  (s.onMe fun g => g.link link.toNat m next).flowRec 3 pc target m

variable {pc target : Word}

theorem sameSlots_linked : SameSlots s (linked s link next pc target m) := by
  refine sameSlots_trans (sameSlots_onGroup _ _ _ fun g n => ?_) (sameSlots_of_aside (aside_flowRec _ _ _ _ _))
  obtain ⟨v, sc, bl, e⟩ := perLane_rest g (.v link) 64 m fun _ => next.setWidth 128
  rw [link_eq_perLane, e]
  rfl

/-- The lanes' link pairs hold the address, at the end of the call too. -/
theorem vwide_linked {t : State} (h : (linked s link next pc target m).me.sameRegs t.me) {l : Nat} (hl : l < 32)
    (ha : m.getLsbD l = true) : t.me.vwide link.toNat l 64 = next.setWidth 128 := by
  have hme := me_of_aside (aside_flowRec (s.onMe fun g => g.link link.toNat m next) 3 pc target m)
  rw [me_onMe] at hme
  unfold Group.sameRegs linked at h
  rw [h, hme]
  exact vwide_link hl ha

/-- Without a trace of the flow, a call changes its link pair alone. -/
theorem linked_frame {t : State} (hr : (linked s link next pc target m).me.sameRegs t.me)
    (he : (linked s link next pc target m).elsewhereSame t) (hf : s.flowTraced = false) :
    s.me.onlyDst t.me (.v link) 64 (fun l => m.getLsbD l) ∧ s.elsewhereSame t := by
  obtain ⟨v, sc, bl, e⟩ := perLane_rest s.me (.v link) 64 m fun _ => next.setWidth 128
  have hu : (s.onMe fun g => g.link link.toNat m next).flowTraced = false := by
    rw [State.flowTraced, me_onMe, link_eq_perLane, e]
    exact hf
  rw [linked, flowRec_untraced hu] at hr he
  rw [me_onMe, link_eq_perLane] at hr
  exact ⟨onlyDst_of_sameRegs hr (onlyDst_perLane isWidth_64), elsewhereSame_trans (elsewhereSame_onMe _ _) he⟩

end Link

/-! ### The instructions -/

section Calls

variable {s : State}

/-- A direct `call` has no guard (Table 5-1). -/
theorem guard_call {link : BitVec 8} {o : Jump} (hi : issuable (.call link o) s = true) : o.g = .always := by
  have hw := wellFormed_of_issuable hi
  simp only [wellFormed, Bool.and_eq_true, beq_iff_eq] at hw
  obtain ⟨⟨⟨-, hg⟩, -⟩, -⟩ := hw
  exact hg

theorem exec_call {link : BitVec 8} {o : Jump} (hi : issuable (.call link o) s = true) :
    let target := relative s.mySlot.pc o.d0
    exec (.call link o) s = .next ((linked s link (s.nextPc (.call link o)) s.mySlot.pc target s.mySlot.mask).finish
      { parts := [s.mySlot.go target s.mySlot.mask s.turn] } id) := by
  intro target
  have he : exec (.call link o) s = issue (.call link o) o.g s fun _ =>
      s.finish { parts := [s.mySlot.go target s.mySlot.mask s.turn] }
        fun s' => linked s' link (s.nextPc (.call link o)) s.mySlot.pc target s.mySlot.mask := rfl
  rw [guard_call hi] at he
  rw [exec_unguarded he hi, finish_one_after sameSlots_linked]

theorem exec_callIndirect {link : BitVec 8} {tg : Src} (hi : issuable (.callIndirect link tg) s = true) :
    exec (.callIndirect link tg) s = .next (indirect tg s fun target m s' =>
      linked s' link (s.nextPc (.callIndirect link tg)) s.mySlot.pc target m) :=
  exec_unguarded (body := fun _ => indirect tg s _) rfl hi

theorem exec_ret {tg : Src} (hi : issuable (.ret tg) s = true) :
    exec (.ret tg) s = .next (indirect tg s fun target m s' => s'.flowRec 4 s.mySlot.pc target m) :=
  exec_unguarded (body := fun _ => indirect tg s _) rfl hi

theorem exec_jmpIndirect {tg : Src} (hi : issuable (.jmpIndirect tg) s = true) :
    exec (.jmpIndirect tg) s = .next (indirect tg s fun _ _ s' => s') :=
  exec_unguarded (body := fun _ => indirect tg s _) rfl hi

end Calls

/-- Settles O13: the effect of a transfer, its link and its record, keeps the slots, so that the parts take them as they would
without it. -/
theorem callsAndReturns : Obligations.CallsAndReturns := by
  unfold Obligations.CallsAndReturns
  intro s
  refine ⟨fun link o hi => ?call, fun link tg hi hc => ?callIndirect, fun tg hi hc => ?ret, fun tg hi hc => ?jmpIndirect⟩
  case call =>
    have h := divided_one
      (linked s link (s.nextPc (.call link o)) s.mySlot.pc (relative s.mySlot.pc o.d0) s.mySlot.mask)
      (s.mySlot.go (relative s.mySlot.pc o.d0) s.mySlot.mask s.turn)
    have hwent := wentOn_of_divided sameSlots_linked h
    obtain ⟨-, hregs, helse, -, -⟩ := h
    exact ⟨_, exec_call hi, hwent, fun l hl ha => vwide_linked hregs hl ha, linked_frame hregs helse⟩
  case callIndirect =>
    obtain ⟨ht, hregs, helse⟩ := indirect_transfers (eff := fun target m s' =>
      linked s' link (s.nextPc (.callIndirect link tg)) s.mySlot.pc target m) hc sameSlots_linked
    exact ⟨_, exec_callIndirect hi, ht, fun l hl ha => vwide_linked hregs hl ha, linked_frame hregs helse⟩
  case ret =>
    obtain ⟨ht, hregs, helse⟩ := indirect_transfers (eff := fun target m s' => s'.flowRec 4 s.mySlot.pc target m) hc
      (sameSlots_of_aside (aside_flowRec _ _ _ _ _))
    refine ⟨_, exec_ret hi, ht, fun hf => ?_⟩
    rw [flowRec_untraced hf] at hregs helse
    exact ⟨hregs, helse⟩
  case jmpIndirect =>
    obtain ⟨ht, hregs, helse⟩ := indirect_transfers (eff := fun _ _ s' => s') hc ⟨rfl, fun _ _ _ => rfl⟩
    exact ⟨_, exec_jmpIndirect hi, ht, hregs, helse⟩

end Sys2Proof.Proofs
end

section
/-! SUPPORT. What group instructions write (R51, R102 to R104, R108): values that depend on which lanes are active. -/

namespace Sys2Proof.Proofs

open Sys2Proof Machine Laws Forms Statements

/-! ### vote (R102) -/

section Vote

variable {act : Mask} {p : Nat → Bool}

/-- No active lane meets a test. -/
theorem maskOf_filter_eq_zero : maskOf ((lanes act).filter p) = 0 ↔ (lanes act).any p = false := by
  rw [List.any_eq_false, ← List.filter_eq_nil_iff]
  refine ⟨fun h => ?_, fun h => by rw [h]; rfl⟩
  rw [← lanes_maskOf_filter, h, lanes_zero]

/-- Every active lane meets it. -/
theorem maskOf_filter_eq_self : maskOf ((lanes act).filter p) = act ↔ (lanes act).all p = true := by
  rw [List.all_eq_true, ← List.filter_eq_self]
  refine ⟨fun h => ?_, fun h => by rw [h, maskOf_lanes]⟩
  rw [← lanes_maskOf_filter, h]

/-- The result that R102 names for each kind, over the active lanes. -/
def voteIs (k : VoteKind) (act : Mask) (p : Nat → Bool) : BitVec 128 :=
  match k with
  | .any => if (lanes act).any p then 1 else 0
  | .all => if (lanes act).all p then 1 else 0
  | .eq => if (lanes act).all p || (lanes act).all (fun l => !p l) then 1 else 0
  | .ballot => (maskOf ((lanes act).filter p)).setWidth 128

theorem setWidth_ite (b : Bool) : (if b then 1 else 0 : BitVec 32).setWidth 128 = if b then 1 else 0 := by
  cases b <;> rfl

/-- The model compares the mask of the lanes whose bit is 1; the rule asks the lanes. -/
theorem voteResult_eq (k : VoteKind) : (voteResult k act (maskOf ((lanes act).filter p))).setWidth 128 = voteIs k act p := by
  have hz : (maskOf ((lanes act).filter p) == 0) = !(lanes act).any p := by
    rw [Bool.eq_iff_iff, beq_iff_eq, maskOf_filter_eq_zero, Bool.not_eq_true']
  have hs : (maskOf ((lanes act).filter p) == act) = (lanes act).all p := by
    rw [Bool.eq_iff_iff, beq_iff_eq, maskOf_filter_eq_self]
  cases k with
  | any =>
    rw [voteResult, bne, hz, Bool.not_not, setWidth_ite, voteIs]
  | all => rw [voteResult, hs, setWidth_ite, voteIs]
  | eq => rw [voteResult, hs, hz, setWidth_ite, voteIs, List.not_any_eq_all_not]
  | ballot => rfl

variable {s : State}

theorem vote_gives {o : VoteOp} (h : issuable (.vote o) s = true) :
    givesLanes (.vote o) o.g (if o.scalar then .s (o.d.setWidth 6) else .v o.d) 32
      (fun _ => voteIs o.kind (s.me.active s.mySlot.mask o.g) fun l => (s.me.vreg o.a.toNat l).getLsbD o.bit.toNat) s := by
  simp only [← voteResult_eq]
  exact perLane_gives (f := fun act _ => (voteResult o.kind act (maskOf ((lanes act).filter fun l =>
    (s.me.vreg o.a.toNat l).getLsbD o.bit.toNat))).setWidth 128) rfl h isWidth_32 fun _ _ _ _ _ => rfl

end Vote

/-! ### shfl (R103) -/

section Shfl

variable {s : State} {o : Alu ShflMode}

/-- The lane that R103 names, which may be outside 0 to 31. -/
def shflLane (f : ShflMode) (l b : Nat) : Int :=
  match f with
  | .idx => b % 32
  | .up => (l : Int) - b
  | .down => (l : Int) + b
  | .xor => ((l ^^^ (b % 32) : Nat) : Int)

theorem getD_shflFrom (f : ShflMode) (l b : Nat) (act : Mask) : (shflFrom f l b act).getD l =
    if 0 ≤ shflLane f l b ∧ shflLane f l b ≤ 31 ∧ act.getLsbD (shflLane f l b).toNat = true then (shflLane f l b).toNat
    else l := by
  have hk : shflFrom f l b act = if 0 ≤ shflLane f l b && shflLane f l b ≤ 31 && act.getLsbD (shflLane f l b).toNat then
      some (shflLane f l b).toNat else none := by cases f <;> rfl
  rw [hk]
  simp only [Bool.and_eq_true, decide_eq_true_eq, and_assoc]
  split <;> rfl

/-- A lane's destination is a register, a latch or both. -/
theorem dst_shfl (h : issuable (.shfl o) s = true) (n : BitVec 6) : o.d ≠ .s n := by
  have hw := wellFormed_of_issuable h
  simp only [wellFormed, Bool.and_eq_true] at hw
  obtain ⟨⟨-, hd⟩, -⟩ := hw
  intro e
  rw [e] at hd
  cases hd

theorem shfl_gives (h : issuable (.shfl o) s = true) : givesLanes (.shfl o) o.g o.d (regBits o.ty)
    (fun l => s.me.src ((shflFrom o.f l (s.me.src32 l o.x o.b).toNat (s.me.active s.mySlot.mask o.g)).getD l) (regBits o.ty) 0
      o.a) s :=
  perLane_gives (f := fun act l => s.me.src ((shflFrom o.f l (s.me.src32 l o.x o.b).toNat act).getD l) (regBits o.ty) 0 o.a)
    rfl h (isWidth_regBits _) fun n hn => absurd hn (dst_shfl h n)

end Shfl

/-! ### elect (R104) -/

section Elect

variable {act : Mask} {s : State}

/-- The lowest-numbered lane is the one before which no lane is active. -/
theorem beq_lowest {l : Nat} (hl : l < 32) (ha : act.getLsbD l = true) :
    (l == lowest act) = (List.range l).all fun j => !act.getLsbD j := by
  have hne : act ≠ 0 := by rintro rfl; simp at ha
  have hsorted : (lanes act).Pairwise (· < ·) := List.pairwise_lt_range.filter _
  obtain ⟨k, ks, hk⟩ := List.exists_cons_of_ne_nil (lanes_ne_nil hne)
  have hlow : lowest act = k := by rw [lowest, hk]; rfl
  obtain ⟨hfirst, -⟩ := List.pairwise_cons.mp (hk ▸ hsorted)
  have hmem : ∀ j, j ∈ lanes act ↔ j = k ∨ j ∈ ks := fun j => by rw [hk, List.mem_cons]
  rw [hlow, Bool.eq_iff_iff, beq_iff_eq, List.all_eq_true]
  constructor
  · rintro rfl j hj
    have hjl := List.mem_range.mp hj
    by_contra hb
    rcases (hmem j).mp (mem_lanes.mpr ⟨hjl.trans hl, by simpa using hb⟩) with e | e
    · omega
    · exact absurd (hfirst j e) (by omega)
  · intro h
    obtain ⟨-, hkact⟩ := mem_lanes.mp ((hmem k).mpr (.inl rfl))
    rcases (hmem l).mp (mem_lanes.mpr ⟨hl, ha⟩) with e | e
    · exact e
    · have := h k (List.mem_range.mpr (hfirst l e))
      rw [hkact] at this
      cases this

theorem exec_elect (g : Guard) (r : BitVec 8) (b : BitVec 5) (s : State) : exec (.elect g r b) s =
    issue (.elect g r b) g s fun act =>
      (s.onMe fun x => x.perLaneBit r.toNat b.toNat act fun l => l == lowest act).advance (.elect g r b) := rfl

theorem elect_gives {g : Guard} {r : BitVec 8} {b : BitVec 5} (h : issuable (.elect g r b) s = true) :
    givesBit (.elect g r b) g r b (fun l => l == lowest (s.me.active s.mySlot.mask g)) s :=
  aluBit_gives (f := fun _ l => l == lowest (s.me.active s.mySlot.mask g))
    ((exec_elect g r b s).trans (issue_congr rfl)) h

theorem givesBit_congr {i : Instr} {gd : Guard} {r : BitVec 8} {b : BitVec 5} {f f' : Nat → Bool}
    (hf : ∀ l, l < 32 → s.activeLane gd l = true → f l = f' l) (h : givesBit i gd r b f s) : givesBit i gd r b f' s := by
  obtain ⟨t, ht, hwent, hbit, hrest⟩ := h
  exact ⟨t, ht, hwent, fun l hl ha => (hbit l hl ha).trans (hf l hl ha), hrest⟩

end Elect

/-! ### rdsr (R51, R108) -/

section Rdsr

variable {s : State} {g : Guard} {d : Dst} {r : SpecialReg}

theorem special_eq (s : State) (r : SpecialReg) (l : Nat) : s.special r l = specialIs s r l := by cases r <;> rfl

theorem isWidth_specialBits (r : SpecialReg) : IsWidth (specialBits r) := by cases r <;> simp [IsWidth, specialBits]

theorem rdsr_gives (h : issuable (.rdsr g d r) s = true) : givesLanes (.rdsr g d r) g d (specialBits r)
    (fun l => (s.special r (if dk d then lowest (s.me.active s.mySlot.mask g) else l)).setWidth 128) s :=
  perLane_gives (f := fun act l => (s.special r (if dk d then lowest act else l)).setWidth 128) rfl h (isWidth_specialBits r)
    fun n hn act k l => by rw [hn]; rfl

end Rdsr

/-- Settles O14: each instruction is a per-lane write of a value that its active lanes give, and that value is the rule's. -/
theorem groupInstructions : Obligations.GroupInstructions := by
  unfold Obligations.GroupInstructions
  intro s
  refine ⟨fun o h => vote_gives h, fun o h => ?shfl,
    fun g r b h => givesBit_congr (fun l hl ha => beq_lowest hl ha) (elect_gives h), fun g d r h => ?rdsr⟩
  case shfl =>
    have hg := shfl_gives h
    simp only [getD_shflFrom] at hg
    exact hg
  case rdsr =>
    simp only [← special_eq]
    exact rdsr_gives h

end Sys2Proof.Proofs
end

section
/-! SUPPORT. `sigret`: what its lanes read of their frames, and where it sends them (R137). -/

namespace Sys2Proof.Proofs

open Sys2Proof Machine Laws Forms Statements

/-! ### Reading a frame -/

section Frames

variable {s : State}

theorem aside_loadL1 (s : State) (c pa n : Nat) (line : Option (List Byte)) : Aside s (s.loadL1 c pa n line).1 := by
  unfold State.loadL1
  dsimp only
  split
  · exact aside_refl s
  · split
    · exact aside_refl s
    · have hclean : Aside s (s.setCore c { s.core c with clean := (s.core c).clean.set (pa / 32) ‹List Byte› }) :=
        aside_setCore rfl
      have hhost : ∀ u : State, Aside u { u with hostLines := u.hostLines ++ [pa / 128] } := fun u => aside_of_cores rfl rfl
      split <;> split
      · exact hhost s
      · exact aside_refl s
      · exact aside_trans hclean (hhost _)
      · exact hclean

theorem aside_loadSpot (s : State) (p : Spot) (n : Nat) : Aside s (s.loadSpot p n).1 := by
  unfold State.loadSpot
  dsimp only
  split
  · exact aside_refl s
  · split
    · exact aside_refl s
    · exact aside_refl s
    · exact aside_refl s
    · rename_i line _
      have h := aside_loadL1 s s.cur.core ‹Where›.pa n line
      split <;> rename_i e <;> rw [e] at h <;> exact h

theorem aside_globalSpot (s : State) (va : Word) (n : Nat) (acc : Access) : Aside s (s.globalSpot va n acc).1 := by
  have h := aside_reach s (s.agent s.cur.core s.cur.gslot s.cur.slot) s.myTeam.tid va n acc
  unfold State.globalSpot
  split <;> rename_i e <;> rw [e] at h <;> exact h

theorem aside_spotOf (s : State) (sp : Space) (ea : Word) (align n : Nat) (acc : Access) (u : TagUse) :
    Aside s (s.spotOf sp ea align n acc u).1 := by
  unfold State.spotOf
  split
  · exact aside_refl s
  · cases sp
    case g => exact aside_globalSpot _ _ _ _
    all_goals exact aside_refl s

theorem aside_readFrame (s : State) (ps : List (Word × Nat)) : Aside s (s.readFrame ps).1 := by
  induction ps generalizing s with
  | nil => exact aside_refl s
  | cons p ps ih =>
    obtain ⟨a, n⟩ := p
    rw [State.readFrame]
    have h := aside_spotOf s .g a n n .read .load
    split <;> rename_i e <;> rw [e] at h
    · exact h
    · exact h
    · exact h
    · rename_i u q
      have k := aside_trans h (aside_loadSpot u q n)
      split <;> rename_i e' <;> rw [e'] at k
      · exact k
      · exact k
      · exact k
      · rename_i w _
        have l := aside_trans k (ih w)
        split
        · rename_i e''
          rw [e''] at l
          exact l
        · exact l

/-- A frame that can be read gives one value a piece. -/
theorem length_of_readFrame {ps : List (Word × Nat)} {vs : List (BitVec 128)} (h : (s.readFrame ps).2.2 = .ok vs) :
    vs.length = ps.length := by
  induction ps generalizing s vs with
  | nil =>
    cases h
    rfl
  | cons p ps ih =>
    obtain ⟨a, n⟩ := p
    rw [State.readFrame] at h
    split at h
    · cases h
    · cases h
    · cases h
    · split at h
      · cases h
      · cases h
      · cases h
      · rename_i w _ _
        split at h
        · rename_i e
          cases h
          rw [List.length_cons, List.length_cons, ih (s := w) (by rw [e])]
        · rename_i hno
          exact (hno _ _ _ (Prod.ext rfl (Prod.ext rfl h))).elim

theorem aside_readFrames (s : State) (ls : List Nat) : Aside s (s.readFrames ls).1 := by
  induction ls generalizing s with
  | nil => exact aside_refl s
  | cons l ls ih => exact aside_trans (aside_readFrame s (framePieces (s.me.stk l))) (ih _)

/-- A frame as it is used holds the eight saved registers. -/
theorem saved_of_readFrames {ls : List Nat} {l : Nat} {f : FrameRead}
    (h : (l, .ok f) ∈ (s.readFrames ls).2.map fun r => (r.1, r.2.2)) : f.saved.length = 8 := by
  induction ls generalizing s with
  | nil => cases h
  | cons k ls ih =>
    rw [State.readFrames, List.map_cons, List.mem_cons] at h
    rcases h with h | h
    · obtain ⟨rfl, hr⟩ := Prod.mk.inj h
      dsimp only at hr
      cases hv : (s.readFrame (framePieces (s.me.stk l))).2.2 with
      | ok vs =>
        rw [hv] at hr
        cases hr
        have hlen := length_of_readFrame hv
        simp [FrameRead.of, hlen, framePieces]
      | no c => rw [hv] at hr; cases hr
      | need w o => rw [hv] at hr; cases hr
      | away a t => rw [hv] at hr; cases hr
    · exact ih h

end Frames

/-! ### The lane that a frame restores (Table 6-11) -/

section Restore

variable {g : Group} {f : FrameRead} {l n j : Nat}

/-- One saved register, which is restored if it lies within the allotment. -/
def restoreReg (l : Nat) (g : Group) (p : Lane32 × Nat) : Group :=
  if 248 + p.2 < g.pool then g.setVreg (248 + p.2) l p.1 else g

theorem restoreFrame_eq : g.restoreFrame l f = (f.saved.zipIdx.foldl (restoreReg l) g).setStk l f.stack := rfl

theorem restoreReg_rest (p : Lane32 × Nat) : restoreReg l g p = { g with v := (restoreReg l g p).v } := by
  unfold restoreReg
  split <;> rfl

theorem restoreRegs_rest (ps : List (Lane32 × Nat)) :
    ps.foldl (restoreReg l) g = { g with v := (ps.foldl (restoreReg l) g).v } := by
  induction ps generalizing g with
  | nil => rfl
  | cons p ps ih => rw [List.foldl_cons, ih, restoreReg_rest]

/-- Nothing of the group changes but the registers and `%stack`. -/
theorem restoreFrame_rest :
    g.restoreFrame l f = { g with v := (g.restoreFrame l f).v, stack := (g.restoreFrame l f).stack } := by
  rw [restoreFrame_eq, restoreRegs_rest]
  rfl

theorem pool_restoreFrame : (g.restoreFrame l f).pool = g.pool := by rw [restoreFrame_rest]

theorem stk_setStk (x : Word) : (g.setStk l x).stk j = if j = l then x else g.stk j := by
  rw [Group.stk, Group.setStk, get_set, Group.stk]

theorem stk_restoreFrame : (g.restoreFrame l f).stk j = if j = l then f.stack else g.stk j := by
  rw [restoreFrame_eq, stk_setStk, restoreRegs_rest]
  rfl

theorem vreg_restoreReg (hl : l < 32) (hj : j < 32) (p : Lane32 × Nat) :
    (restoreReg l g p).vreg n j = if n = 248 + p.2 ∧ n < g.pool ∧ j = l then p.1 else g.vreg n j := by
  unfold restoreReg
  split
  · rename_i hp
    rw [vreg_setVreg _ _ _ _ _ _ hl hj]
    refine if_congr ⟨fun ⟨hn, hk⟩ => ⟨hn, hn ▸ hp, hk⟩, fun ⟨hn, _, hk⟩ => ⟨hn, hk⟩⟩ rfl rfl
  · rename_i hp
    rw [if_neg]
    rintro ⟨rfl, hn, -⟩
    exact hp hn

theorem vreg_restoreRegs (hl : l < 32) (hj : j < 32) (xs : List Lane32) (i : Nat) :
    ((xs.zipIdx i).foldl (restoreReg l) g).vreg n j =
      if (248 + i ≤ n ∧ n < 248 + i + xs.length) ∧ n < g.pool ∧ j = l then xs.getD (n - 248 - i) 0 else g.vreg n j := by
  induction xs generalizing g i with
  | nil => rw [if_neg (by rintro ⟨⟨h, h'⟩, -⟩; simp at h'; omega)]; rfl
  | cons x xs ih =>
    have hpool : (restoreReg l g (x, i)).pool = g.pool := by rw [restoreReg_rest]
    rw [List.zipIdx_cons, List.foldl_cons, ih, vreg_restoreReg hl hj, hpool, List.length_cons]
    by_cases hn : n < g.pool ∧ j = l
    · obtain rfl | h | h | h : n = 248 + i ∨ n < 248 + i ∨ (248 + (i + 1) ≤ n ∧ n < 248 + i + (xs.length + 1))
        ∨ 248 + i + (xs.length + 1) ≤ n := by omega
      · rw [if_neg (by omega), if_pos ⟨rfl, hn⟩, if_pos ⟨by omega, hn⟩]
        simp
      · rw [if_neg (by omega), if_neg (by omega), if_neg (by omega)]
      · rw [if_pos ⟨by omega, hn⟩, if_pos ⟨by omega, hn⟩, show n - 248 - i = n - 248 - (i + 1) + 1 by omega,
          List.getD_cons_succ]
      · rw [if_neg (by omega), if_neg (by omega), if_neg (by omega)]
    · rw [if_neg fun h => hn h.2, if_neg fun h => hn h.2, if_neg fun h => hn h.2]

theorem vreg_restoreFrame (hl : l < 32) (hj : j < 32) (hf : f.saved.length = 8) (k : Nat) (hk : k < 8) :
    (g.restoreFrame l f).vreg (248 + k) j =
      if 248 + k < g.pool ∧ j = l then f.saved.getD k 0 else g.vreg (248 + k) j := by
  show (f.saved.zipIdx.foldl (restoreReg l) g).vreg (248 + k) j = _
  rw [vreg_restoreRegs hl hj]
  rw [hf, show 248 + k - 248 - 0 = k by omega]
  exact if_congr ⟨fun h => h.2, fun h => ⟨by omega, h⟩⟩ rfl rfl

theorem vreg_restoreFrame_other (hl : l < 32) (hj : j < 32) (h : n < 248 ∨ j ≠ l) :
    (g.restoreFrame l f).vreg n j = g.vreg n j := by
  show (f.saved.zipIdx.foldl (restoreReg l) g).vreg n j = _
  rw [vreg_restoreRegs hl hj, if_neg]
  omega

/-- The group once each lane of a list is restored from its own frame. -/
def restoreAll (g : Group) (fr : Nat → FrameRead) (ls : List Nat) : Group := ls.foldl (fun y l => y.restoreFrame l (fr l)) g

variable {fr : Nat → FrameRead} {ls : List Nat}

theorem restoreAll_rest :
    restoreAll g fr ls = { g with v := (restoreAll g fr ls).v, stack := (restoreAll g fr ls).stack } := by
  induction ls generalizing g with
  | nil => rfl
  | cons l ls ih =>
    show restoreAll (g.restoreFrame l (fr l)) fr ls = { g with
      v := (restoreAll (g.restoreFrame l (fr l)) fr ls).v, stack := (restoreAll (g.restoreFrame l (fr l)) fr ls).stack }
    rw [ih, restoreFrame_rest]

theorem stk_restoreAll_mem (hj : j ∈ ls) : (restoreAll g fr ls).stk j = (fr j).stack :=
  foldl_lanes_eq (r := fun y : Group => y.stk j) (fun y => by rw [stk_restoreFrame, if_pos rfl])
    (fun y l _ hne h => by rw [stk_restoreFrame, if_neg (Ne.symm hne), h]) hj g

theorem stk_restoreAll_not_mem (hj : j ∉ ls) : (restoreAll g fr ls).stk j = g.stk j :=
  foldl_lanes_frame (r := fun y : Group => y.stk j)
    (fun y l hl => by rw [stk_restoreFrame, if_neg fun e : j = l => hj (e ▸ hl)]) g

theorem vreg_restoreAll_mem (hls : ∀ l ∈ ls, l < 32 ∧ (fr l).saved.length = 8) (hj : j ∈ ls) {k : Nat} (hk : k < 8)
    (hpool : 248 + k < g.pool) : (restoreAll g fr ls).vreg (248 + k) j = (fr j).saved.getD k 0 := by
  obtain ⟨hj32, hlen⟩ := hls j hj
  have h := foldl_lanes_eq (f := fun (y : Group) l => y.restoreFrame l (fr l))
    (r := fun y : Group => if 248 + k < y.pool then y.vreg (248 + k) j else (fr j).saved.getD k 0) (ls := ls)
    (x := (fr j).saved.getD k 0)
    (fun y => by
      rw [pool_restoreFrame]
      split
      · rename_i hp
        rw [vreg_restoreFrame hj32 hj32 hlen k hk, if_pos ⟨hp, rfl⟩]
      · rfl)
    (fun y l hl hne h => by
      obtain ⟨hl32, -⟩ := hls l hl
      rw [pool_restoreFrame, vreg_restoreFrame_other hl32 hj32 (.inr (Ne.symm hne)), h]) hj g
  have hp : (restoreAll g fr ls).pool = g.pool := by rw [restoreAll_rest]
  rw [if_pos (hp ▸ hpool)] at h
  exact h

theorem vreg_restoreAll_other (hls : ∀ l ∈ ls, l < 32) (hj : j < 32) (h : n < 248 ∨ j ∉ ls) :
    (restoreAll g fr ls).vreg n j = g.vreg n j :=
  foldl_lanes_frame (r := fun y : Group => y.vreg n j)
    (fun _ l hl => vreg_restoreFrame_other (hls l hl) hj (h.imp id fun hne e => hne (e ▸ hl))) g

end Restore

/-! ### Where the lanes go -/

section Sigret

variable {s c : State} {g : Guard} {fr : Nat → FrameRead} {act : Mask}

/-- The lanes that hold the RPC of the lowest-numbered lane. -/
def sigretTaken (fr : Nat → FrameRead) (act : Mask) : List Nat :=
  (lanes act).filter fun l => (fr l).rpc == (fr (lowest act)).rpc

/-- A part of the slot, where it has lanes. -/
def sigretPart (s : State) (pc : Word) (m : Mask) : List Slot := if m == 0 then [] else [s.mySlot.go pc m s.turn]

/-- What a `sigret` whose frames are read leaves of its slot, in the order of its parts. -/
def sigretParts (s : State) (g : Guard) (fr : Nat → FrameRead) (act : Mask) : List Slot :=
  sigretPart s (fr (lowest act)).rpc (maskOf (sigretTaken fr act))
    ++ sigretPart s s.mySlot.pc (act &&& ~~~maskOf (sigretTaken fr act))
    ++ sigretPart s (s.nextPc (.sigret g)) (s.mySlot.mask &&& ~~~act)

/-- Frames that can all be read, with the addresses that came with them. -/
theorem frames_of_read {rs : List (Nat × Word × Res FrameRead)}
    (hrs : (rs.map fun r => (r.1, r.2.2)) = (lanes act).map fun l => (l, .ok (fr l))) :
    ∃ ps : List (Nat × Word), ps.map Prod.fst = lanes act ∧ rs = ps.map fun p => (p.1, p.2, .ok (fr p.1)) := by
  refine ⟨rs.map fun r => (r.1, r.2.1), ?_, ?_⟩
  · have h := congrArg (List.map Prod.fst) hrs
    rw [List.map_map, List.map_map] at h
    rw [List.map_map]
    exact h.trans (List.map_id _)
  · rw [List.map_map]
    refine (List.map_id _).symm.trans (List.map_congr_left fun r hr => ?_)
    have h : (r.1, r.2.2) ∈ (lanes act).map fun l => (l, Res.ok (fr l)) := hrs ▸ List.mem_map_of_mem hr
    obtain ⟨l, -, e⟩ := List.mem_map.mp h
    obtain ⟨h1, h2⟩ := Prod.mk.inj e
    exact Prod.ext rfl (Prod.ext rfl (by rw [id, ← h2, h1]; rfl))

/-- A `sigret` whose frames can be read and hold aligned addresses ends so. -/
theorem exec_sigret (hi : issuable (.sigret g) s = true) (ha : s.me.active s.mySlot.mask g ≠ 0)
    (hf : framesRead s c (s.me.active s.mySlot.mask g) fr)
    (hal : ∀ l ∈ lanes (s.me.active s.mySlot.mask g), (fr l).rpc.toNat % 4 = 0) :
    exec (.sigret g) s = .next (c.finish
      { parts := sigretParts c g fr (s.me.active s.mySlot.mask g), acc := .read,
        early := (lanes (s.me.active s.mySlot.mask g)).any c.framePeer }
      fun s' => s'.onMe fun y => restoreAll y fr (sigretTaken fr (s.me.active s.mySlot.mask g))) := by
  have he : exec (.sigret g) s = execSigret g s := rfl
  unfold execSigret at he
  rw [exec_of_active he hi ha]
  clear he
  generalize s.me.active s.mySlot.mask g = act at *
  obtain ⟨hc, hrs⟩ := hf
  generalize s.readFrames (lanes act) = rd at hc hrs ⊢
  obtain ⟨u, rs⟩ := rd
  obtain rfl : u = c := hc
  obtain ⟨ps, hps, rfl⟩ := frames_of_read hrs
  have hgot : (ps.filterMap fun p => some (p.1, fr p.1)) = (lanes act).map fun l => (l, fr l) := by
    rw [← hps, List.map_map]
    exact congrFun List.filterMap_eq_map _
  have hall : ∀ e ∈ (lanes act).map fun l => (l, fr l), (e.2.rpc.toNat % 4 == 0) = true := fun e he => by
    obtain ⟨l, hl, rfl⟩ := List.mem_map.mp he
    exact beq_iff_eq.mpr (hal l hl)
  have hok := List.filter_eq_self.mpr hall
  have hodd : ((lanes act).map fun l => (l, fr l)).filter (fun e => e.2.rpc.toNat % 4 != 0) = [] :=
    List.filter_eq_nil_iff.mpr fun e he => by rw [bne, hall e he]; simp
  have hpc : ((((lanes act).map fun l => (l, fr l)).head?.map fun e => e.2.rpc).getD 0) = (fr (lowest act)).rpc := by
    obtain ⟨k, ks, hk⟩ := List.exists_cons_of_ne_nil (lanes_ne_nil ha)
    rw [lowest, hk]
    rfl
  have hstay : ((lanes act).filter fun l => (fr l).rpc != (fr (lowest act)).rpc)
      = lanes (act &&& ~~~maskOf (sigretTaken fr act)) := (lanes_and_not_maskOf _ _).symm
  dsimp only
  simp only [List.filterMap_map, Function.comp_def, List.filterMap_none, hgot, hok, hodd, hpc, List.filter_map, List.map_map,
    List.foldl_map, List.map_id', hstay, maskOf_lanes]
  rfl

/-- An instruction that parks no lane pushes nothing beyond its parts, where no lane can be refused late or the other slot is
EMPTY (R45). -/
theorem finish_early {ps : List Slot} {acc : Access} {e : Bool} {eff : State → State}
    (h : e = false ∨ s.aloneInGroup = true) : s.finish { parts := ps, acc := acc, early := e } eff = s.finish { parts := ps } eff := by
  rcases h with rfl | h
  · simp [State.finish]
  · have ho : (s.me.slot (other s.cur.slot)).state = .empty := by simpa [State.aloneInGroup] using h
    simp [State.finish, pushesFor, ho]

/-- The lanes that go, where some lane is active, are some; the others are one part at most, where the lanes that stay or those
that fall through are none. -/
theorem sigretParts_eq (ha : act ≠ 0)
    (h : act &&& ~~~maskOf (sigretTaken fr act) = 0 ∨ c.mySlot.mask &&& ~~~act = 0) :
    let stay := act &&& ~~~maskOf (sigretTaken fr act)
    let through := c.mySlot.mask &&& ~~~act
    sigretParts c g fr act = c.mySlot.go (fr (lowest act)).rpc (maskOf (sigretTaken fr act)) c.turn ::
      sigretPart c (if stay = 0 then c.nextPc (.sigret g) else c.mySlot.pc) (stay ||| through) := by
  have htaken : maskOf (sigretTaken fr act) ≠ 0 := fun e => by
    have hany := maskOf_filter_eq_zero.mp e
    have hlow : lowest act ∈ lanes act := by
      obtain ⟨k, ks, hk⟩ := List.exists_cons_of_ne_nil (lanes_ne_nil ha)
      rw [lowest, hk]
      exact List.mem_cons_self
    exact List.any_eq_false.mp hany _ hlow (beq_iff_eq.mpr rfl)
  dsimp only
  rw [sigretParts]
  generalize act &&& ~~~maskOf (sigretTaken fr act) = stay at *
  generalize c.mySlot.mask &&& ~~~act = through at *
  have hpart : sigretPart c (fr (lowest act)).rpc (maskOf (sigretTaken fr act)) = [_] := if_neg (by simpa using htaken)
  rw [hpart]
  by_cases hs : stay = 0
  · subst hs
    simp [sigretPart]
  · obtain rfl := h.resolve_left hs
    have hnone : ∀ pc, sigretPart c pc 0 = [] := fun _ => rfl
    rw [show stay ||| 0 = stay from BitVec.or_zero, if_neg hs, hnone, List.append_nil]
    rfl

/-- Whatever the frames hold, the slots are as they were. -/
theorem sameSlots_restoreAll (s : State) (fr : Nat → FrameRead) (ls : List Nat) :
    SameSlots s (s.onMe fun y => restoreAll y fr ls) :=
  sameSlots_onGroup s _ _ fun x n => by rw [restoreAll_rest]; rfl

/-- A division that keeps the slot for one part and gives the other slot, which is EMPTY, to the rest, where it has lanes. -/
theorem divided_rest {u : State} (eff : State → State) (k : SameSlots u (eff u)) (p : Slot) {rest : Mask} (pc : Word)
    (h : rest = 0 ∨ u.aloneInGroup = true) :
    ∃ q, Divided (eff u) (u.finish { parts := p :: sigretPart u pc rest } eff) p q
      ∧ q = if rest = 0 then u.me.slot (other u.cur.slot) else u.mySlot.go pc rest u.turn := by
  by_cases hr : rest = 0
  · subst hr
    refine ⟨_, ?_, (if_pos rfl).symm⟩
    have hd := divided_one (eff u) p
    rw [cur_of_sameSlots k, me_slot_of_sameSlots k] at hd
    rw [show sigretPart u pc 0 = [] from rfl, finish_one_after k]
    exact hd
  · refine ⟨_, ?_, (if_neg hr).symm⟩
    have halone := h.resolve_left hr
    have hpart : sigretPart u pc rest = [u.mySlot.go pc rest u.turn] := if_neg (by simpa using hr)
    rw [hpart, finish_two_after k p _ halone]
    refine divided_two _ _ _ ?_
    rwa [State.aloneInGroup, cur_of_sameSlots k, me_slot_of_sameSlots k]

end Sigret

/-- Settles O43: a `sigret` is a division of its slot whose effect restores the lanes that go from their frames, after
reads that change nothing of the group. -/
theorem signalReturn : Obligations.SignalReturn := by
  unfold Obligations.SignalReturn
  intro s c g fr act pc taken stay through hi ha hf hal hroom
  have hread : Aside s c := hf.1 ▸ aside_readFrames s (lanes act)
  have hsame := sameSlots_of_aside hread
  have hme := me_of_aside hread
  have hcur := hread.cur
  have hx : c.mySlot = s.mySlot := by rw [State.mySlot, hcur, me_slot_of_sameSlots hsame]; rfl
  have hother : c.me.slot (other s.cur.slot) = s.me.slot (other s.cur.slot) := me_slot_of_sameSlots hsame _
  have hexec := exec_sigret hi ha hf fun l hl => hal l (mem_lanes.mp hl).1 (mem_lanes.mp hl).2
  have hthrough : c.mySlot.mask &&& ~~~act = through := by rw [hx]
  have hone : stay = 0 ∨ c.mySlot.mask &&& ~~~act = 0 := by
    rw [hthrough]
    exact hroom.elim (fun h => .inl h.1) fun h => h.1
  have hearly : (lanes act).any c.framePeer = false ∨ c.aloneInGroup = true := by
    rw [State.aloneInGroup, hcur, hother]
    exact hroom.imp (fun h => List.any_eq_false.mpr fun l hl => by simp [h.2.2 l hl]) fun h => h.2
  have hrest : stay ||| (c.mySlot.mask &&& ~~~act) = 0 ∨ c.aloneInGroup = true := by
    rw [hthrough, State.aloneInGroup, hcur, hother]
    exact hroom.imp (fun h => by rw [h.1, h.2.1]; rfl) fun h => h.2
  rw [finish_early hearly, sigretParts_eq ha hone] at hexec
  obtain ⟨q, hdiv, hqis⟩ := divided_rest (fun s' => s'.onMe fun y => restoreAll y fr (sigretTaken fr act))
    (sameSlots_restoreAll c fr _) (c.mySlot.go pc taken c.turn) (if stay = 0 then c.nextPc (.sigret g) else c.mySlot.pc) hrest
  obtain ⟨t, ht, htcur, hregs, -, hp, hq⟩ : ∃ t, exec (.sigret g) s = .next t
      ∧ Divided (c.onMe fun y => restoreAll y fr (sigretTaken fr act)) t (c.mySlot.go pc taken c.turn) q := ⟨_, hexec, hdiv⟩
  rw [Group.sameRegs, me_onMe] at hregs
  have hlanes : ∀ l ∈ sigretTaken fr act, l < 32 ∧ (fr l).saved.length = 8 := fun l hl => by
    have hl := (List.mem_filter.mp hl).1
    exact ⟨(mem_lanes.mp hl).1, saved_of_readFrames (hf.2 ▸ List.mem_map_of_mem hl)⟩
  have hin : ∀ l, l < 32 → (taken.getLsbD l = true ↔ l ∈ sigretTaken fr act) := fun l hl => by
    rw [getLsbD_maskOf _ hl, decide_eq_true_iff]
    exact Iff.rfl
  have hout : ∀ l, l < 32 → (taken.getLsbD l = false ↔ l ∉ sigretTaken fr act) := fun l hl => by
    rw [getLsbD_maskOf _ hl, decide_eq_false_iff_not]
    exact Iff.rfl
  refine ⟨t, ht, htcur.trans hcur, ?slot, ?other, fun l hl ht => ⟨?stack, fun k hk hpool => ?saved⟩, fun l hl ht => ?stackKept,
    fun n l hl ht => ?regKept, ?scalars⟩
  case slot =>
    rw [hp, hx]
    exact ⟨rfl, rfl, rfl, rfl⟩
  case other =>
    rw [hthrough] at hqis
    rw [← hcur]
    rw [show (c.onMe _).cur = c.cur from rfl] at hq
    rw [hq, hqis]
    split
    · rw [hcur, hother]
    · rw [← hx, State.nextPc, State.nextPc, hx]
      exact ⟨rfl, rfl, rfl, rfl⟩
  case stack =>
    rw [hregs]
    exact stk_restoreAll_mem ((hin l hl).mp ht)
  case saved =>
    rw [hregs]
    exact vreg_restoreAll_mem hlanes ((hin l hl).mp ht) hk (by rw [hme]; exact hpool)
  case stackKept =>
    rw [hregs]
    refine (stk_restoreAll_not_mem ((hout l hl).mp ht)).trans ?_
    rw [hme]
    rfl
  case regKept =>
    rw [hregs]
    refine (vreg_restoreAll_other (fun l hl => (hlanes l hl).1) hl (ht.imp id (hout l hl).mp)).trans ?_
    rw [hme]
    rfl
  case scalars =>
    rw [hregs, restoreAll_rest, hme]

end Sys2Proof.Proofs
end

section
/-! SUPPORT. A kill of a team whose groups stand in a table out of order (O47). -/

namespace Sys2Proof.Proofs

open Sys2Proof Machine Laws Forms Statements

/-- A group of team 0, by number, with one lane. -/
def tangledGroup (n : Nat) : Group :=
  { Group.none with live := true, asid := 1, number := n, slot0 := { Slot.empty with state := .ready, mask := 1 } }

/-- A halted team that is being moved. The group table lists slot 5 before slot 3 and slot 3 twice, which `Store.rising`
excludes: the first entry of slot 3 has the number of slot 5, the second the number 1. -/
def tangled : State :=
  { State.reset with
    boot := .service
    cores := [(0, { Core.reset with
      groups := [(5, tangledGroup 0), (3, tangledGroup 0), (3, tangledGroup 1)]
      teams := [(0, { Team.none with asid := 1, groups := 2, halts := [.halt], moving := true })] })] }

theorem groupsOf_tangled : tangled.groupsOf 0 0 = [(5, tangledGroup 0), (3, tangledGroup 1)] := by decide +kernel

/-- Refutes O47, in its clause on a kill, at a state whose group table is not in canonical form. The move that the kill breaks
off writes the team's slots again; slot 3 is written before slot 5, so that it is the first with number 0 when the
kill lists the team's groups, and slot 5 keeps its lane. The statement does not ask that the table's keys rise. -/
theorem not_resolutionsAct : ¬Obligations.ResolutionsAct := by
  unfold Obligations.ResolutionsAct
  rintro ⟨-, -, hrelease, -⟩
  obtain ⟨-, t, ht, hkill, -⟩ := hrelease tangled 1 0 0 (by decide) (by decide)
  have hnone : t.lanesLeft 0 5 = 0 := hkill 5 (by decide) (by decide +kernel) (by decide +kernel) (by decide +kernel)
    ⟨tangledGroup 0, by rw [groupsOf_tangled]; exact List.mem_cons_self⟩
  have hlane : t.lanesLeft 0 5 = 1 := of_steps (f := fun t => t.lanesLeft 0 5) ht (by decide +kernel)
  exact absurd (hlane.symm.trans hnone) (by decide)

end Sys2Proof.Proofs
end

section
/-! SUPPORT. What stays for the supervisor while a team's lanes, operations and entries are moved, halted or ended (R139,
R142, R143). -/

namespace Sys2Proof.Proofs

open Sys2Proof Machine Laws Forms Statements

/-! ### The supervisor's slots and the teams of a core -/

/-- Between two states the issuer, the service state of every core and the slots of every supervisor group stay. -/
structure Steady (s t : State) : Prop where
  cur : t.cur = s.cur
  svc : ∀ d, (t.core d).svc = (s.core d).svc
  slot : ∀ d n, (t.group d Config.supervisorSlot).slot n = (s.group d Config.supervisorSlot).slot n

/-- And no team leaves its core, or begins or ceases to leave it. -/
structure Resident (s t : State) : Prop extends Steady s t where
  team : ∀ d n, s.hasTeam d n = true → t.hasTeam d n = true ∧ (t.team d n).moving = (s.team d n).moving

section Relations

variable {s t u : State}

theorem steady_refl (s : State) : Steady s s := ⟨rfl, fun _ => rfl, fun _ _ => rfl⟩

theorem steady_trans (h : Steady s t) (k : Steady t u) : Steady s u :=
  ⟨k.cur.trans h.cur, fun d => (k.svc d).trans (h.svc d), fun d n => (k.slot d n).trans (h.slot d n)⟩

theorem steady_foldl_mem {α : Type} {f : State → α → State} (l : List α) (h : ∀ s, ∀ x ∈ l, Steady s (f s x)) (s : State) :
    Steady s (l.foldl f s) := by
  induction l generalizing s with
  | nil => exact steady_refl s
  | cons x l ih =>
    exact steady_trans (h s x List.mem_cons_self) (ih (fun s y hy => h s y (List.mem_cons_of_mem x hy)) _)

/-- Where of each core the service state, the groups and the teams are the same. -/
theorem resident_of_core (hc : t.cur = s.cur) (h : ∀ d, (t.core d).svc = (s.core d).svc ∧ (t.core d).groups = (s.core d).groups
    ∧ (t.core d).teams = (s.core d).teams) : Resident s t := by
  refine ⟨⟨hc, fun d => (h d).1, fun d n => ?_⟩, fun d n hn => ?_⟩
  · rw [State.group, State.group, (h d).2.1]
  · rw [State.hasTeam, State.team, (h d).2.2]
    exact ⟨hn, rfl⟩

theorem resident_of_cores (hc : t.cur = s.cur) (h : t.cores = s.cores) : Resident s t :=
  resident_of_core hc fun d => by rw [State.core, State.core, h]; exact ⟨rfl, rfl, rfl⟩

theorem resident_refl (s : State) : Resident s s := resident_of_cores rfl rfl

theorem resident_trans (h : Resident s t) (k : Resident t u) : Resident s u := by
  refine ⟨steady_trans h.toSteady k.toSteady, fun d n hn => ?_⟩
  obtain ⟨ht, hm⟩ := h.team d n hn
  obtain ⟨hu, hm'⟩ := k.team d n ht
  exact ⟨hu, hm'.trans hm⟩

theorem resident_foldl_mem {α : Type} {f : State → α → State} (l : List α) (h : ∀ s, ∀ x ∈ l, Resident s (f s x)) (s : State) :
    Resident s (l.foldl f s) := by
  induction l generalizing s with
  | nil => exact resident_refl s
  | cons x l ih =>
    exact resident_trans (h s x List.mem_cons_self) (ih (fun s y hy => h s y (List.mem_cons_of_mem x hy)) _)

theorem resident_foldl {α : Type} {f : State → α → State} (h : ∀ s x, Resident s (f s x)) (l : List α) (s : State) :
    Resident s (l.foldl f s) := resident_foldl_mem l (fun s x _ => h s x) s

theorem resident_of_aside (h : Aside s t) : Resident s t := by
  refine ⟨⟨h.cur, fun d => by rw [h.core d], fun d n => by rw [h.group d]; rfl⟩, fun d n hn => ?_⟩
  rw [State.hasTeam, State.team, h.core d]
  exact ⟨hn, rfl⟩

theorem resident_onCore {c : Nat} {f : Core → Core}
    (h : ∀ k, (f k).svc = k.svc ∧ (f k).groups = k.groups ∧ (f k).teams = k.teams) : Resident s (s.onCore c f) := by
  refine resident_of_core rfl fun d => ?_
  rw [core_onCore]
  split
  · rename_i hd
    rw [hd]
    exact h _
  · exact ⟨rfl, rfl, rfl⟩

theorem resident_setGroup {c g : Nat} {x : Group}
    (h : g ≠ Config.supervisorSlot ∨ ∀ n, x.slot n = (s.group c g).slot n) : Resident s (s.setGroup c g x) := by
  have hcore : ∀ d, (s.setGroup c g x).core d = { s.core d with groups := ((s.setGroup c g x).core d).groups } :=
    fun d => core_onGroup s c g d fun _ => x
  refine ⟨⟨rfl, fun d => by rw [hcore d], fun d n => ?_⟩, fun d n hn => ?_⟩
  · rw [group_setGroup]
    split
    · rename_i hd
      obtain ⟨rfl, rfl⟩ := hd
      exact h.resolve_left (fun hg => hg rfl) n
    · rfl
  · rw [State.hasTeam, State.team, hcore d]
    exact ⟨hn, rfl⟩

/-- A change of a user group. -/
theorem resident_onGroup {c g : Nat} (f : Group → Group) (h : g ≠ Config.supervisorSlot) : Resident s (s.onGroup c g f) :=
  resident_setGroup (.inl h)

/-- A change of a group that keeps its slots. -/
theorem resident_onGroup_slots {c g : Nat} {f : Group → Group} (h : ∀ x n, (f x).slot n = x.slot n) :
    Resident s (s.onGroup c g f) := resident_setGroup (.inr fun n => h _ n)

theorem resident_setTeam {c n : Nat} {x : Team} (h : x.moving = (s.team c n).moving) : Resident s (s.setTeam c n x) := by
  have hcore : ∀ d, ((s.setTeam c n x).core d).svc = (s.core d).svc ∧ ((s.setTeam c n x).core d).groups = (s.core d).groups :=
    fun d => by
      rw [State.setTeam, core_onCore]
      split
      · rename_i hd
        rw [hd]
        exact ⟨rfl, rfl⟩
      · exact ⟨rfl, rfl⟩
  refine ⟨⟨rfl, fun d => (hcore d).1, fun d k => by rw [State.group, State.group, (hcore d).2]⟩, fun d k hk => ⟨?_, ?_⟩⟩
  · rw [State.hasTeam, State.setTeam, core_onCore]
    split
    · rename_i hd
      dsimp only
      by_cases hkn : k = n
      · rw [hkn, find_set_same]
        rfl
      · rw [find_set_ne _ _ hkn, ← hd]
        exact hk
    · exact hk
  · rw [team_setTeam]
    split
    · rename_i hd
      obtain ⟨rfl, rfl⟩ := hd
      exact h
    · rfl

theorem resident_onTeam {c n : Nat} {f : Team → Team} (h : ∀ x, (f x).moving = x.moving) : Resident s (s.onTeam c n f) := by
  unfold State.onTeam
  exact resident_setTeam (x := f (s.team c n)) (h _)

theorem resident_setEntry (s : State) (c i : Nat) (e : Landing) : Resident s (s.setEntry c i e) := by
  have h : Aside (s.onCore c fun k => { k with landing := k.landing.set i e }) (s.setEntry c i e) := aside_deviceWrite _ _ _
  refine resident_trans (resident_onCore ?_) (resident_of_aside h)
  exact fun _ => ⟨rfl, rfl, rfl⟩

theorem resident_onEntry (s : State) (c i : Nat) (f : Landing → Landing) : Resident s (s.onEntry c i f) := resident_setEntry _ _ _ _

theorem resident_setToken (s : State) (c e : Nat) (x : TokEntry) : Resident s (s.setToken c e x) :=
  resident_onCore fun _ => ⟨rfl, rfl, rfl⟩

theorem resident_setOp (s : State) (c e : Nat) (op : Op) : Resident s (s.setOp c e op) := resident_setToken _ _ _ _

theorem resident_count (s : State) (c a n k : Nat) : Resident s (s.count c a n k) := resident_onCore fun _ => ⟨rfl, rfl, rfl⟩

theorem resident_svcDone (s : State) (c : Nat) : Resident s (s.svcDone c) := resident_onCore fun _ => ⟨rfl, rfl, rfl⟩

theorem resident_addMsg (s : State) (a : Nat) (m : Msg) : Resident s (s.addMsg a m) := resident_of_aside (aside_addMsg s a m)

theorem resident_askService (s : State) (c : Nat) (w : Want) (o : HomeOp) : Resident s (s.askService c w o) :=
  resident_of_aside (aside_askService _ _ _ _)

end Relations

/-- A team's groups stand in user slots. -/
theorem gslot_of_mem_groupsOf {s : State} {c n : Nat} {x : Nat × Group} (h : x ∈ s.groupsOf c n) :
    x.1 ≠ Config.supervisorSlot := by
  unfold State.groupsOf at h
  obtain ⟨k, -, hk⟩ := List.mem_filterMap.mp h
  have hx := (List.mem_filter.mp (List.mem_of_find?_eq_some hk)).2
  simp only [Bool.and_eq_true, decide_eq_true_eq] at hx
  obtain ⟨⟨hlt, -⟩, -⟩ := hx
  exact Nat.ne_of_lt hlt

/-! ### Waits, operations and holds -/

theorem resident_waited (s : State) (c g : Nat) : Resident s (s.waited c g) :=
  resident_trans (resident_count s c (s.group c g).asid 0 1) (resident_of_cores rfl rfl)

section UserGroup

variable {g : Nat} (hg : g ≠ Config.supervisorSlot)
include hg

theorem resident_waitOver (s : State) (c n : Nat) : Resident s (s.waitOver c g n) :=
  resident_trans (resident_onGroup _ hg) (resident_waited _ _ _)

/-- One slot of a group, in `mapWaits`. -/
theorem resident_changeWait (s : State) (c n : Nat) (p : WaitRec → Bool) (f : WaitRec → Option WaitRec) : Resident s (
    if ((s.group c g).slot n).state == .blocked && p ((s.group c g).slot n).wait then
      match f ((s.group c g).slot n).wait with
      | some w => s.onGroup c g fun x => x.setSlot n { (s.group c g).slot n with wait := w }
      | none => s.waitOver c g n
    else s) := by
  split
  · split
    · exact resident_onGroup _ hg
    · exact resident_waitOver hg _ _ _
  · exact resident_refl s

end UserGroup

theorem resident_mapWaits (s : State) (c t : Nat) (p : WaitRec → Bool) (f : WaitRec → Option WaitRec) :
    Resident s (s.mapWaits c t p f) := by
  unfold State.mapWaits
  refine resident_foldl_mem _ (fun s x hx => ?_) _
  have hg := gslot_of_mem_groupsOf hx
  refine resident_trans (resident_trans (resident_changeWait hg s c 0 p f) (resident_changeWait hg _ c 1 p f))
    (resident_foldl (fun s y => ?_) _ _)
  obtain ⟨i, w, e⟩ := y
  dsimp only
  split
  · exact resident_refl s
  · split
    · exact resident_refl s
    · split
      · exact resident_of_aside (aside_writeStack _ _ _ _ _)
      · exact resident_trans (resident_of_aside (aside_writeStack _ _ _ _ _)) (resident_waited _ _ _)

theorem resident_checkTeamBarrier (s : State) (c t : Nat) : Resident s (s.checkTeamBarrier c t) := by
  unfold State.checkTeamBarrier
  dsimp only
  split
  · exact resident_refl s
  · split
    · split
      · exact resident_mapWaits _ _ _ _ _
      · exact resident_refl s
    · refine resident_foldl (fun s r => ?_) _ _
      split
      · exact resident_askService _ _ _ _
      · exact resident_refl s

theorem resident_forwardsEnd (s : State) (c e : Nat) : Resident s (s.forwardsEnd c e) := by
  refine resident_of_core rfl fun d => ?_
  unfold State.forwardsEnd
  refine core_mapCores (p := fun k l => l.svc = k.svc ∧ l.groups = k.groups ∧ l.teams = k.teams) (fun _ => ⟨rfl, rfl, rfl⟩) ?_ d
  exact fun _ _ => ⟨rfl, rfl, rfl⟩

theorem moving_unhold (x : Team) (l : List Nat) : (x.unhold l).moving = x.moving := by
  unfold Team.unhold
  induction l generalizing x with
  | nil => rfl
  | cons i l ih => exact ih _

theorem resident_releaseHolds (s : State) (c : Nat) (op : Op) : Resident s (s.releaseHolds c op) := by
  unfold State.releaseHolds
  refine resident_trans (t := match op.byTeam with | some t => s.onTeam c t fun x => x.unhold op.tiles | none => s) ?_
    (resident_foldl (fun s x => ?_) _ _)
  · split
    · exact resident_onTeam fun x => moving_unhold x _
    · exact resident_refl s
  · obtain ⟨tid, tile⟩ := x
    dsimp only
    split
    · exact resident_onTeam fun x => moving_unhold x _
    · exact resident_refl s

theorem resident_dropUnits (s : State) (c g : Nat) : Resident s (s.dropUnits c g) := by
  unfold State.dropUnits
  dsimp only
  split
  · exact resident_refl s
  · exact resident_setGroup (.inr fun _ => rfl)

theorem resident_disownUnit (s : State) (c e : Nat) : Resident s (s.disownUnit c e) := resident_of_cores rfl rfl

theorem resident_setDep (s : State) (i : Nat) (x : DepCounter) : Resident s (s.setDep i x) := resident_of_cores rfl rfl

theorem resident_endOp (s : State) (c e : Nat) (st : TokState) : Resident s (s.endOp c e st) := by
  have hfree : ∀ (op : Op) (x : TokEntry), Resident s (((s.releaseHolds c op).disownUnit c e).setToken c e x) := fun op x =>
    resident_trans (resident_trans (resident_releaseHolds s c op) (resident_disownUnit _ c e)) (resident_setToken _ c e x)
  unfold State.endOp
  split
  · exact resident_refl s
  · split
    · exact resident_refl s
    · dsimp only
      split <;> split
      · exact resident_trans (resident_trans (hfree _ _) (resident_dropUnits _ _ _)) (resident_setDep _ _ _)
      · exact resident_trans (hfree _ _) (resident_setDep _ _ _)
      · exact resident_trans (hfree _ _) (resident_dropUnits _ _ _)
      · exact hfree _ _

theorem resident_cancelChain (s : State) (k : Nat) (hs : List Word) : Resident s (s.cancelChain k hs) := by
  induction k generalizing s hs with
  | zero => exact resident_refl s
  | succ k ih =>
    cases hs with
    | nil => exact resident_refl s
    | cons h hs =>
      rw [State.cancelChain]
      refine resident_trans (resident_trans (resident_foldl (fun s x => ?_) _ _) (resident_foldl (fun s x => ?_) _ _)) (ih _ _)
      · exact resident_endOp _ _ _ _
      · obtain ⟨c, e, op⟩ := x
        dsimp only
        split
        · exact resident_trans (resident_releaseHolds _ _ _) (resident_setToken _ _ _ _)
        · exact resident_refl s

theorem resident_cancelOp (s : State) (c e : Nat) : Resident s (s.cancelOp c e) := by
  unfold State.cancelOp
  split
  · split
    · exact resident_refl s
    · exact resident_trans (resident_endOp _ _ _ _) (resident_cancelChain _ _ _)
  · exact resident_refl s

theorem resident_requestCancel (s : State) (c e : Nat) : Resident s (s.requestCancel c e) := by
  unfold State.requestCancel
  split
  · split
    · exact resident_cancelOp _ _ _
    · exact resident_cancelOp _ _ _
    · exact resident_setOp _ _ _ _
    · exact resident_setOp _ _ _ _
    · exact resident_refl s
    · exact resident_refl s
  · exact resident_refl s

theorem resident_resumeOp (s : State) (c e : Nat) : Resident s (s.resumeOp c e) := by
  unfold State.resumeOp
  split
  · split
    · exact resident_refl s
    · exact resident_setOp _ _ _ _
  · exact resident_refl s

/-! ### Slots and entries -/

theorem resident_readyAgain (s : State) (c t : Nat) : Resident s (s.readyAgain c t) :=
  resident_foldl_mem _ (fun _ _ hx => resident_onGroup _ (gslot_of_mem_groupsOf hx)) _

theorem resident_unholdEntries (s : State) (c t : Nat) : Resident s (s.unholdEntries c t) := by
  refine resident_foldl (fun s x => ?_) _ _
  dsimp only
  split
  · exact resident_onEntry _ _ _ _
  · exact resident_refl s

theorem resident_unhalt (s : State) (c t : Nat) (gone : HaltReason → Bool) : Resident s (s.unhalt c t gone) := by
  unfold State.unhalt
  dsimp only
  split
  · exact resident_refl s
  · have hset : ∀ l, Resident s (s.setTeam c t { s.team c t with halts := l }) := fun l => resident_setTeam rfl
    split
    · exact resident_trans (resident_trans (hset _) (resident_unholdEntries _ _ _)) (resident_readyAgain _ _ _)
    · exact hset _

theorem resident_stopOver (s : State) (c t : Nat) : Resident s (s.stopOver c t) := by
  unfold State.stopOver
  split
  · exact resident_refl s
  · exact resident_unhalt _ _ _ _

theorem resident_freeEntry (s : State) (c i : Nat) : Resident s (s.freeEntry c i) := resident_onEntry _ _ _ _

theorem resident_movePlace (s : State) (c g : Nat) (p q : Place) : Resident s (s.movePlace c g p q) := by
  unfold State.movePlace
  split
  · exact resident_onEntry _ _ _ _
  · exact resident_refl s

theorem resident_push (s : State) (c g : Nat) (w : Where) (e : StackEntry) : Resident s (s.push c g w e) := by
  unfold State.push
  refine resident_trans (resident_of_aside (aside_writeStack s c g w e)) (resident_onGroup_slots ?_)
  exact fun _ _ => rfl

theorem resident_withdraw (s : State) (c g n : Nat) : Resident s (s.withdraw c g n) :=
  resident_onCore fun _ => ⟨rfl, rfl, rfl⟩

section UserGroup

variable {g : Nat} (hg : g ≠ Config.supervisorSlot)
include hg

theorem resident_spill (s : State) (c m : Nat) (ws : List Where) : Resident s (s.spill c g m ws) := by
  unfold State.spill
  dsimp only
  refine resident_trans (resident_trans (resident_trans ?_ (resident_withdraw _ _ _ _))
    (resident_foldl (fun s x => ?_) _ _)) (resident_onGroup _ hg)
  on_goal 2 => exact resident_push s c g x.1 x.2
  split
  · exact resident_movePlace _ _ _ _ _
  · exact resident_refl s

theorem resident_place (c n : Nat) (xs : List Slot) (s : State) (ws : List Where) :
    Resident s (s.place c g n xs ws).1 := by
  induction xs generalizing s ws with
  | nil => exact resident_refl s
  | cons x xs ih =>
    rw [State.place]
    dsimp only
    split
    · exact resident_trans (resident_onGroup _ hg) (ih _ _)
    · exact resident_trans (resident_trans (resident_spill hg _ _ _ _) (resident_onGroup _ hg)) (ih _ _)

theorem resident_divideTagged (s : State) (c n : Nat) : Resident s (s.divideTagged c g n) := by
  unfold State.divideTagged
  dsimp only
  split
  · have h := resident_of_aside
      (aside_checkPushes s (s.serviceAgent c g) g (s.group c g).depth (pushesFor ((s.group c g).slot (other n)) 1))
    split <;> rename_i e <;> rw [e] at h
    · exact resident_trans h (resident_askService _ _ _ _)
    · exact resident_trans h (resident_trans (resident_onGroup _ hg) (resident_place hg _ _ _ _ _))
    · exact h
  · exact resident_refl s

end UserGroup

theorem resident_divideTeam (s : State) (c t : Nat) : Resident s (s.divideTeam c t) := by
  unfold State.divideTeam
  refine resident_foldl_mem _ (fun s x hx => ?_) _
  have hg := gslot_of_mem_groupsOf hx
  exact resident_trans (resident_divideTagged hg s c 0) (resident_divideTagged hg _ c 1)

theorem resident_holdEntries (s : State) (c t : Nat) : Resident s (s.holdEntries c t) := by
  rw [holdEntries_eq]
  refine resident_foldl (fun s x => ?_) _ _
  unfold holdOne
  split
  · exact resident_onEntry _ _ _ _
  · exact resident_refl s

theorem resident_haltTeam (s : State) (c t : Nat) (r : HaltReason) (aux : Word) : Resident s (s.haltTeam c t r aux) := by
  by_cases h : s.hasTeam c t = true
  · have hnoted : Resident s (haltNoted s c t r) := resident_setTeam (by rfl)
    have hheld : Resident s (haltHeld s c t r) :=
      resident_trans (resident_trans hnoted (resident_divideTeam _ _ _)) (resident_holdEntries _ _ _)
    rw [haltTeam_eq h]
    split
    · exact hheld
    · exact resident_trans hheld (resident_of_aside (aside_traceWrite _ _ _ _))
  · have hnot : s.haltTeam c t r aux = s := by rw [State.haltTeam, if_pos (by simpa using h)]
    rw [hnot]
    exact resident_refl s

/-! ### Ends of groups and teams (R100) -/

theorem resident_makeOrphans (s : State) (l : Word) (tid : Nat) : Resident s (s.makeOrphans l tid) := by
  have queue : ∀ (s : State) (a : Nat) (f : Ctx → Ctx), Resident s (s.onCtx a f) := fun _ _ _ => resident_of_cores rfl rfl
  refine resident_foldl (fun s x => ?_) _ _
  obtain ⟨c, e, op⟩ := x
  dsimp only
  split
  · split
    · exact resident_trans (resident_setOp _ _ _ _) (resident_setToken _ _ _ _)
    · exact resident_trans (resident_setOp _ _ _ _) (queue _ _ _)
  · split
    · exact resident_trans (resident_setOp _ _ _ _) (queue _ _ _)
    · exact resident_refl s

theorem resident_withoutOps (s : State) (c t : Nat) : Resident s (withoutOps s c t) := by
  unfold withoutOps
  refine resident_trans (resident_makeOrphans s _ _) (resident_foldl (fun s x => ?_) _ _)
  exact resident_trans (resident_forwardsEnd _ _ _) (resident_setToken _ _ _ _)

theorem steady_of_core {s t : State} (hc : t.cur = s.cur)
    (h : ∀ d, (t.core d).svc = (s.core d).svc ∧ (t.core d).groups = (s.core d).groups) : Steady s t :=
  ⟨hc, fun d => (h d).1, fun d n => by rw [State.group, State.group, (h d).2]⟩

theorem steady_onCore {s : State} {c : Nat} {f : Core → Core}
    (h : ∀ k, (f k).svc = k.svc ∧ (f k).groups = k.groups) : Steady s (s.onCore c f) := by
  refine steady_of_core rfl fun d => ?_
  rw [core_onCore]
  split
  · rename_i hd
    rw [hd]
    exact h _
  · exact ⟨rfl, rfl⟩

theorem steady_endTeam (s : State) (c t : Nat) : Steady s (s.endTeam c t) := by
  have hadopt : ∀ f, Steady s ((withoutOps s c t).onCtx (s.team c t).asid f) := fun f =>
    steady_trans (resident_withoutOps s c t).toSteady (resident_of_aside (aside_onCtx _ _ f)).toSteady
  have herase : ∀ u : State, Steady u (u.onCore c fun k => { k with teams := k.teams.erase t }) := fun u =>
    steady_onCore fun _ => ⟨rfl, rfl⟩
  have hcount : ∀ (u : State) l, Steady u { u with launches := l } := fun u l => by
    refine Resident.toSteady (resident_of_cores ?_ ?_) <;> rfl
  exact steady_trans (steady_trans (hadopt _) (herase _)) (hcount _ _)

theorem ne_supervisor_of_endedKeys {k : Core} {i : Nat} (h : i ∈ k.endedKeys) : i ≠ Config.supervisorSlot := by
  obtain ⟨j, -, rfl⟩ := List.mem_map.mp (List.mem_filter.mp h).1
  omega

/-- What an ended group keeps goes to a place beside the group slots. -/
theorem steady_keepUnits (s : State) (c : Nat) {i : Nat} (hi : i ≠ Config.supervisorSlot) (x : Group)
    (move : Nat → TokEntry → TokEntry) :
    Steady s (s.onCore c fun k => { k with groups := k.groups.set i x, tokens := k.tokens.mapAll move }) := by
  have hcore : ∀ d, ((s.onCore c fun k => { k with groups := k.groups.set i x, tokens := k.tokens.mapAll move }).core d).svc
      = (s.core d).svc ∧ ((s.onCore c fun k => { k with groups := k.groups.set i x, tokens := k.tokens.mapAll move }).core
        d).groups.find? Config.supervisorSlot = (s.core d).groups.find? Config.supervisorSlot := fun d => by
    rw [core_onCore]
    split
    · rename_i hd
      rw [hd]
      exact ⟨rfl, find_set_ne _ _ (Ne.symm hi)⟩
    · exact ⟨rfl, rfl⟩
  exact ⟨rfl, fun d => (hcore d).1, fun d n => by rw [State.group, State.group, Store.get, (hcore d).2]; rfl⟩

section UserGroup

variable {g : Nat} (hg : g ≠ Config.supervisorSlot)
include hg

theorem steady_moveUnits (s : State) (c : Nat) : Steady s (s.moveUnits c g) := by
  unfold State.moveUnits
  dsimp only
  split
  · exact (resident_setGroup (.inl hg)).toSteady
  · rename_i i l hl
    have hi : i ≠ Config.supervisorSlot := by
      split at hl
      · exact ne_supervisor_of_endedKeys (hl ▸ List.mem_cons_self)
      · cases hl
    exact steady_trans (steady_keepUnits s c hi _ _) (resident_setGroup (.inl hg)).toSteady

theorem steady_endGroup (s : State) (c : Nat) : Steady s (s.endGroup c g) := by
  unfold State.endGroup
  dsimp only
  have hdisown : Resident s (s.disownGroup c g) := resident_of_cores rfl rfl
  have hended : ∀ (u : State) (t : Nat) (m : Nat), Resident u (u.onTeam c t fun x => { x with ended := x.ended ++ [m] }) :=
    fun _ _ _ => resident_onTeam fun _ => rfl
  have hunits : ∀ x : Group, Steady s ((((s.disownGroup c g).setGroup c g x).dropUnits c g).moveUnits c g) := fun x =>
    steady_trans (resident_trans (resident_trans hdisown (resident_setGroup (.inl hg))) (resident_dropUnits _ c g)).toSteady
      (steady_moveUnits hg _ c)
  split
  · exact steady_trans (steady_trans (hunits _) (hended _ _ _).toSteady) (steady_endTeam _ _ _)
  · exact steady_trans (steady_trans (hunits _) (hended _ _ _).toSteady) (resident_checkTeamBarrier _ _ _).toSteady

end UserGroup

theorem resident_askStack (s : State) (c g : Nat) : Resident s (s.askStack c g) := by
  refine resident_foldl (fun s i => ?_) _ _
  split
  · exact resident_askService _ _ _ _
  · exact resident_onCore fun _ => ⟨rfl, rfl, rfl⟩
  · exact resident_refl s

theorem resident_postErrors (s : State) (c g : Nat) : Resident s (s.postErrors c g) := by
  unfold State.postErrors
  refine resident_trans (resident_of_aside (aside_foldl (fun s m => aside_addMsg s _ m) _ _)) (resident_onGroup_slots ?_)
  exact fun _ _ => rfl

theorem resident_tryEnd (s : State) (c g : Nat) : Resident s (s.tryEnd c g).1 := by
  unfold State.tryEnd
  dsimp only
  split
  · exact resident_refl s
  · split
    · exact resident_of_aside (aside_release _ _ _)
    · exact resident_trans (resident_of_aside (aside_release _ _ _)) (resident_postErrors _ _ _)

section UserGroup

variable {g : Nat} (hg : g ≠ Config.supervisorSlot)
include hg

theorem steady_endIfEmpty (s : State) (c : Nat) : Steady s (s.endIfEmpty c g) := by
  have h := (resident_tryEnd s c g).toSteady
  unfold State.endIfEmpty
  split
  · exact steady_refl s
  · split
    · exact (resident_askStack _ _ _).toSteady
    · split <;> rename_i e <;> rw [e] at h
      · exact steady_trans h (steady_endGroup hg _ _)
      · exact h

/-! ### Resolutions (R114, R123, R124) -/

theorem resident_readyAt (s : State) (c : Nat) (p : Place) (pc : Word) : Resident s (s.readyAt c g p pc).1 := by
  obtain ⟨peek, hpeek⟩ : ∃ f, s.peekStack c g = f := ⟨_, rfl⟩
  unfold State.readyAt
  rw [hpeek]
  dsimp only
  split
  · dsimp only
    exact resident_onGroup _ hg
  · dsimp only
    exact resident_onGroup _ hg
  · split
    · exact resident_of_aside (aside_writeStack _ _ _ _ _)
    · exact resident_refl s

theorem resident_endAt (s : State) (c : Nat) (p : Place) : Resident s (s.endAt c g p).1 := by
  obtain ⟨peek, hpeek⟩ : ∃ f, s.peekStack c g = f := ⟨_, rfl⟩
  unfold State.endAt
  rw [hpeek]
  dsimp only
  split
  · dsimp only
    exact resident_onGroup _ hg
  · dsimp only
    exact resident_onGroup _ hg
  · split
    · exact resident_of_aside (aside_writeStack _ _ _ _ _)
    · exact resident_refl s

end UserGroup

theorem resident_frameSpots (s : State) (c g : Nat) (ls : List Nat) : Resident s (s.frameSpots c g ls).1 := by
  induction ls generalizing s with
  | nil => exact resident_refl s
  | cons l ls ih =>
    rw [State.frameSpots]
    have h := aside_reach s (s.serviceAgent c g) (s.team c (s.group c g).team).tid (frameAt ((s.group c g).stk l)) 64 .frame
    generalize s.reach _ _ _ _ _ = r at h
    obtain ⟨u, r⟩ := r
    dsimp only
    split
    · exact resident_of_aside h
    · have k := resident_trans (resident_of_aside h) (ih u)
      split
      · rename_i e
        rw [e] at k
        exact k
      · exact k

theorem resident_writeFrames (s : State) (c g : Nat) (pc : Word) (cause : BitVec 8) (detail : Store Word)
    (fs : List (Nat × Word × Res Where)) : Resident s (s.writeFrames c g pc cause detail fs) := by
  refine resident_foldl (fun s x => ?_) _ _
  obtain ⟨l, f, r⟩ := x
  dsimp only
  split
  · refine resident_trans (resident_of_aside (aside_onCore fun k => ?_)) (resident_onGroup_slots fun x n => ?_)
    · rw [core_storeBytes]
    · rfl
  · exact resident_refl s

theorem resident_landAt (s : State) (c g : Nat) (p : Place) (y : StackEntry) (ts : List LaneTrap) (acc : Access) :
    Resident s (s.landAt c g p y ts acc) := by
  unfold State.landAt
  dsimp only
  split
  · exact resident_refl s
  · have hentry : ∀ (i a : Nat) (e : Landing),
        Resident s (((s.onCore c fun k => { k with landseq := k.landseq + 1 }).setEntry c i e).count c a 8 1) := fun i a e => by
      refine resident_trans (resident_trans (resident_onCore fun k => ?_) (resident_setEntry _ c i e)) (resident_count _ _ _ _ _)
      exact ⟨rfl, rfl, rfl⟩
    have htrace : ∀ (u : State) (b : Bool) (a : Nat) (r : TraceRec), Resident u (if b then u.traceWrite a r [] else u) :=
      fun u b a r => by
        split
        · exact resident_of_aside (aside_traceWrite _ _ _ _)
        · exact resident_refl u
    have hlanded := fun i a e b r => resident_trans (hentry i a e) (htrace _ b a r)
    split
    · exact resident_trans (resident_trans (hlanded _ _ _ _ _) (resident_haltTeam _ _ _ _ _)) (resident_addMsg _ _ _)
    · exact hlanded _ _ _ _ _

theorem resident_markFrame (s : State) (c g n : Nat) (cause : BitVec 8) (detail : Store Word) :
    Resident s (s.markFrame c g n cause detail) := by
  unfold State.markFrame
  split
  · exact resident_onEntry _ _ _ _
  · exact resident_refl s

theorem resident_frameEntry (s : State) (c i : Nat) (ts : List LaneTrap) (all : List (Nat × Word × Res Where)) (cause : BitVec 8)
    (detail : Store Word) : Resident s (s.frameEntry c i ts all cause detail) := by
  unfold State.frameEntry
  exact resident_onEntry _ _ _ _

section Entry

variable {s : State} {c i : Nat} (hg : (s.entry c i).gslot ≠ Config.supervisorSlot)

theorem resident_stopEntry (s : State) (c i : Nat) : Resident s (s.stopEntry c i) := by
  unfold State.stopEntry
  dsimp only
  refine resident_trans (resident_trans ?_ (resident_haltTeam _ _ _ _ _)) (resident_addMsg _ _ _)
  exact resident_onEntry _ _ _ _

include hg

/-- A signal whose frames have all been written. -/
theorem resident_deliverSignal (cause : BitVec 8) (detail : Store Word) : Resident s (s.deliverSignal c i cause detail).1 := by
  have hspots := resident_frameSpots s c (s.entry c i).gslot (lanes (s.entry c i).mask)
  have hlower : ∀ (u : State) fs, Resident u (((u.writeFrames c (s.entry c i).gslot (s.entry c i).pc cause detail fs).onGroup
      c (s.entry c i).gslot fun x => x.lowered fs).freeEntry c i) := fun u fs =>
    resident_trans (resident_trans (resident_writeFrames u c _ _ cause detail fs) (resident_onGroup _ hg))
      (resident_freeEntry _ _ _)
  have hwhole : ∀ (u : State) ts fs, Resident u ((u.writeFrames c (s.entry c i).gslot (s.entry c i).pc cause detail
      fs).frameEntry c i ts fs cause detail) := fun u ts fs =>
    resident_trans (resident_writeFrames u c _ _ cause detail fs) (resident_frameEntry _ _ _ _ _ _ _)
  unfold State.deliverSignal
  dsimp only
  generalize s.frameSpots c (s.entry c i).gslot (lanes (s.entry c i).mask) = r at hspots ⊢
  obtain ⟨u, r⟩ := r
  dsimp only at hspots
  cases r with
  | need w o => exact hspots
  | no x => exact hspots
  | away l t => exact hspots
  | ok fs =>
    dsimp only
    split
    · have hready := resident_trans hspots (resident_readyAt hg u c (s.entry c i).place (s.regs c (s.entry c i).asid).sigh)
      split
      · rename_i e
        rw [e] at hready
        dsimp only at hready ⊢
        exact resident_trans hready (hlower _ _)
      · exact hready
    · split
      · dsimp only
        exact resident_trans hspots (hwhole u _ fs)
      · generalize (if (s.entry c i).place == .slot1 then 1 else 0) = n
        have hpush := resident_trans hspots (resident_of_aside (aside_checkPushes u (u.serviceAgent c (s.entry c i).gslot)
          (s.entry c i).gslot (u.group c (s.entry c i).gslot).depth (pushesFor ((u.group c (s.entry c i).gslot).slot (other n)) 1)))
        split
        · dsimp only
          exact resident_trans hspots (hwhole u _ fs)
        · split <;> rename_i e <;> rw [e] at hpush <;> dsimp only at hpush ⊢
          · have hlow := resident_trans hpush (hlower _ fs)
            refine resident_trans ?_ (resident_markFrame _ _ _ _ _ _)
            refine resident_trans ?_ (resident_landAt _ _ _ _ _ _ _)
            refine resident_trans ?_ (resident_place hg _ _ _ _ _)
            exact resident_trans hlow (resident_onGroup _ hg)
          · exact hpush
          · exact resident_trans hpush (hwhole _ _ fs)

theorem resident_resolveOnce (act : Nat) : Resident s (s.resolveOnce c i act).1 := by
  have hready := fun pc => resident_readyAt hg s c (s.entry c i).place pc
  have hend := resident_endAt hg s c (s.entry c i).place
  unfold State.resolveOnce
  dsimp only
  split
  · split
    · exact resident_deliverSignal hg _ _
    · have h := hready (s.entry c i).pc
      split
      · rename_i e
        rw [e] at h
        dsimp only at h ⊢
        exact resident_trans h (resident_freeEntry _ _ _)
      · exact h
  · split
    · rename_i n _
      have h := hready ((s.entry c i).pc + BitVec.ofNat 64 n)
      split
      · rename_i e
        rw [e] at h
        dsimp only at h ⊢
        exact resident_trans h (resident_freeEntry _ _ _)
      · exact h
    · exact resident_refl s
  · split
    · exact resident_stopEntry _ _ _
    · exact resident_deliverSignal hg _ _
  · exact resident_stopEntry _ _ _
  · split
    · rename_i e
      rw [e] at hend
      dsimp only at hend ⊢
      exact resident_trans hend (resident_freeEntry _ _ _)
    · exact hend

/-- A resolution of a user group's entry keeps the supervisor where it stands. -/
theorem steady_tryResolve (act : Nat) : Steady s (s.tryResolve c i act).1 := by
  have h := (resident_resolveOnce hg act).toSteady
  have hafter : ∀ u : State, Steady u (
      let v := (if act = 3 || !(s.entry c i).state == .held then u else u.stopOver c (s.entry c i).team).svcDone c
      if act = 4 then v.endIfEmpty c (s.entry c i).gslot else v) := fun u => by
    have hdone : ∀ v, Steady u v → Steady u (v.svcDone c) := fun v hv => steady_trans hv (resident_svcDone v c).toSteady
    have hover : Steady u ((if act = 3 || !(s.entry c i).state == .held then u else u.stopOver c (s.entry c i).team).svcDone c) :=
      hdone _ (by split; exacts [steady_refl u, (resident_stopOver _ _ _).toSteady])
    dsimp only
    split
    · exact steady_trans hover (steady_endIfEmpty hg _ _)
    · exact hover
  unfold State.tryResolve
  dsimp only
  split <;> rename_i e <;> rw [e] at h
  · exact steady_trans h (hafter _)
  · exact steady_trans h (resident_askService _ _ _ _).toSteady
  · exact h
  · exact steady_trans (steady_trans h (resident_freeEntry _ _ _).toSteady) (hafter _)

end Entry

end Sys2Proof.Proofs
end

section
/-! SUPPORT. The supervisor's instructions on entries, translations and halts (R139, R140, R143). -/

namespace Sys2Proof.Proofs

open Sys2Proof Machine Laws Forms Statements

/-! ### How an instruction of the supervisor completes -/

section Supervisor

variable {s u : State} {i : Instr} {o : PrivOp} {x : Word} {also : State → Prop}

theorem mySlot_of_steady (h : Steady s u) (hg : s.cur.gslot = Config.supervisorSlot) : u.mySlot = s.mySlot := by
  rw [State.mySlot, State.mySlot, State.me, State.me, h.cur, hg, h.slot]

/-- An instruction advances after an effect that keeps the supervisor, and writes no destination. -/
theorem privGives_of_advance (hg : s.cur.gslot = Config.supervisorSlot) (he : exec i s = .next (u.advance i)) (hu : Steady s u)
    (hd : o.d = none) (ha : ∀ t, u.me.sameRegs t.me → u.elsewhereSame t → also t) : privGives i o s x also := by
  obtain ⟨⟨hcur, hstate, hpc, hmask, hrcv, -⟩, hregs, helse⟩ := advance_spec u i
  have hslot := mySlot_of_steady hu hg
  refine ⟨_, he, ⟨hcur.trans hu.cur, hstate, ?_, ?_, ?_⟩, fun n hn => ?_, ha _ hregs helse⟩
  · rw [hpc, State.nextPc, hslot]
    rfl
  · rw [hrcv, hslot]
  · rw [hmask, hslot]
  · rw [hd] at hn
    cases hn

/-- The destination is written before the slot goes on. -/
theorem privGives_of_answer (hg : s.cur.gslot = Config.supervisorSlot)
    (he : exec i s = .next ((u.onMe fun y => y.putOpt o.d x).advance i)) (hu : Steady s u)
    (ha : ∀ t, u.elsewhereSame t → also t) : privGives i o s x also := by
  have hput : ∀ (y : Group) n, (y.putOpt o.d x).slot n = y.slot n := fun y n => by unfold Group.putOpt; split <;> rfl
  have hsame := sameSlots_onGroup u u.cur.core u.cur.gslot hput
  obtain ⟨⟨hcur, hstate, hpc, hmask, hrcv, -⟩, hregs, helse⟩ := advance_spec (u.onMe fun y => y.putOpt o.d x) i
  have hslot : (u.onMe fun y => y.putOpt o.d x).mySlot = s.mySlot :=
    (me_slot_of_sameSlots hsame _).trans (mySlot_of_steady hu hg)
  refine ⟨_, he, ⟨hcur.trans hu.cur, hstate, ?_, ?_, ?_⟩, fun n hn => ?_,
    ha _ (elsewhereSame_trans (elsewhereSame_onMe _ _) helse)⟩
  · rw [hpc, State.nextPc, hslot]
    rfl
  · rw [hrcv, hslot]
  · rw [hmask, hslot]
  · rw [hregs, me_onMe, hn]
    exact (sreg_setSreg _ _ _ _).trans (if_pos rfl)

/-- Those of the supervisor's instructions that name no destination (R139 to R143). -/
theorem no_dst (h : issuable i s = true)
    (hi : i ∈ [.unpark o, .tlbi o, .halt o, .haltRelease o, .ctxSave o, .ctxLoad o]) : o.d = none := by
  have hw := wellFormed_of_issuable h
  simp only [List.mem_cons, List.not_mem_nil, or_false] at hi
  rcases hi with rfl | rfl | rfl | rfl | rfl | rfl <;>
    (simp only [wellFormed, Bool.and_eq_true, Option.isNone_iff_eq_none] at hw
     tauto)

theorem entry_of_elsewhereSame (h : s.elsewhereSame u) (c j : Nat) : u.entry c j = s.entry c j := by
  obtain ⟨-, hcore, -, -⟩ := h
  rw [State.entry, hcore c]
  rfl

theorem team_of_elsewhereSame (h : s.elsewhereSame u) (c n : Nat) : u.team c n = s.team c n := by
  obtain ⟨-, hcore, -, -⟩ := h
  rw [State.team, hcore c]
  rfl

end Supervisor

/-! ### `park` (R139) -/

section Park

theorem find_of_mem_rising {α : Type} {m : Store α} (h : Store.rising m = true) {j : Nat} {v : α} (hv : (j, v) ∈ m) :
    m.find? j = some v := by
  rw [rising_iff] at h
  induction m with
  | nil => cases hv
  | cons e m ih =>
    obtain ⟨k, w⟩ := e
    rw [List.map_cons, List.pairwise_cons] at h
    obtain ⟨hlt, hrest⟩ := h
    rw [Store.find?]
    rcases List.mem_cons.mp hv with e | hm
    · cases e
      rw [if_pos rfl]
    · rw [if_neg (Nat.ne_of_gt (hlt j (List.mem_map_of_mem hm))), ih hrest hm]

theorem before_trans {x y z : Landing} (h : x.before y = true) (k : y.before z = true) : x.before z = true := by
  simp only [Landing.before, Bool.or_eq_true, Bool.and_eq_true, decide_eq_true_eq, beq_iff_eq] at *
  omega

theorem before_or {x y : Landing} (z : Landing) (h : x.before y = true) : x.before z = true ∨ z.before y = true := by
  simp only [Landing.before, Bool.or_eq_true, Bool.and_eq_true, decide_eq_true_eq, beq_iff_eq] at *
  omega

theorem before_irrefl (x : Landing) : x.before x = false := by simp [Landing.before]

/-- One entry of the landing, in `nextPending`. -/
def firstPending (m : Option (Nat × Landing)) (x : Nat × Landing) : Option (Nat × Landing) :=
  if x.2.state != .pending then m
  else
    match m with
    | some y => if x.2.before y.2 then some x else m
    | none => some x

theorem nextPending_eq (s : State) (c : Nat) : s.nextPending c = ((s.core c).landing.foldl firstPending none).map (·.1) := by
  unfold State.nextPending
  congr 2
  funext m x
  unfold firstPending
  cases m <;> rfl

/-- What goes first of a list and of one more entry: it is PENDING, if it is of the list, and nothing goes before it. -/
structure GoesFirst (l : List (Nat × Landing)) (m : Option (Nat × Landing)) (y : Nat × Landing) : Prop where
  from_ : y ∈ l ∧ y.2.state = .pending ∨ m = some y
  list : ∀ x ∈ l, x.2.state = .pending → x.2.before y.2 = false
  given : ∀ z, m = some z → z.2.before y.2 = false

section GoesFirst

variable {x y w : Nat × Landing} {l : List (Nat × Landing)} {m : Option (Nat × Landing)}

theorem firstPending_of_not_pending (h : x.2.state ≠ .pending) : firstPending m x = m := if_pos (by simpa using h)

theorem firstPending_none (h : x.2.state = .pending) : firstPending none x = some x := if_neg (by simp [h])

theorem firstPending_some (h : x.2.state = .pending) : firstPending (some w) x = if x.2.before w.2 then some x else some w :=
  if_neg (by simp [h])

/-- An entry that is chosen, or is passed over for `w`, does not go before what goes first. -/
theorem goesFirst_cons (h : GoesFirst l (firstPending m x) y) : GoesFirst (x :: l) m y := by
  obtain ⟨hfrom, hlist, hgiven⟩ := h
  by_cases hx : x.2.state = .pending
  · have key : (x = y ∨ y ∈ l ∧ y.2.state = .pending ∨ m = some y) ∧ x.2.before y.2 = false
        ∧ ∀ z, m = some z → z.2.before y.2 = false := by
      cases m with
      | none =>
        rw [firstPending_none hx] at hfrom hgiven
        exact ⟨hfrom.elim (fun h => .inr (.inl h)) fun h => .inl (Option.some.inj h), hgiven x rfl, fun z hz => by cases hz⟩
      | some w =>
        rw [firstPending_some hx] at hfrom hgiven
        by_cases hw : x.2.before w.2 = true
        · rw [if_pos hw] at hfrom hgiven
          refine ⟨hfrom.elim (fun h => .inr (.inl h)) fun h => .inl (Option.some.inj h), hgiven x rfl, fun z hz => ?_⟩
          obtain rfl := Option.some.inj hz
          by_contra hn
          have := before_trans hw (by simpa using hn)
          rw [hgiven x rfl] at this
          cases this
        · rw [if_neg hw] at hfrom hgiven
          refine ⟨.inr hfrom, ?_, hgiven⟩
          by_contra hn
          rcases before_or w.2 (by simpa using hn) with h | h
          · exact hw h
          · rw [hgiven w rfl] at h
            cases h
    obtain ⟨hy, hxy, hz⟩ := key
    refine ⟨?_, fun z hzl hp => ?_, hz⟩
    · rcases hy with rfl | h | h
      · exact .inl ⟨List.mem_cons_self, hx⟩
      · exact .inl ⟨List.mem_cons_of_mem _ h.1, h.2⟩
      · exact .inr h
    · rcases List.mem_cons.mp hzl with rfl | hzl
      · exact hxy
      · exact hlist z hzl hp
  · rw [firstPending_of_not_pending hx] at hfrom hgiven
    refine ⟨hfrom.imp (fun h => ⟨List.mem_cons_of_mem _ h.1, h.2⟩) id, fun z hz hp => ?_, hgiven⟩
    rcases List.mem_cons.mp hz with rfl | hz
    · exact absurd hp hx
    · exact hlist z hz hp

theorem goesFirst_foldl (h : l.foldl firstPending m = some y) : GoesFirst l m y := by
  induction l generalizing m with
  | nil =>
    obtain rfl : m = some y := h
    refine ⟨.inr rfl, fun _ hx => absurd hx List.not_mem_nil, fun z hz => ?_⟩
    obtain rfl := Option.some.inj hz
    exact before_irrefl _
  | cons x l ih => exact goesFirst_cons (ih h)

theorem firstPending_foldl_none : l.foldl firstPending m = none ↔ m = none ∧ ∀ x ∈ l, x.2.state ≠ .pending := by
  induction l generalizing m with
  | nil => simp
  | cons x l ih =>
    rw [List.foldl_cons, ih]
    by_cases hx : x.2.state = .pending
    · cases m with
      | none => simp [firstPending_none hx, hx]
      | some w =>
        rw [firstPending_some hx]
        by_cases hw : x.2.before w.2 = true <;> simp [hw]
    · simp [firstPending_of_not_pending hx, hx]

end GoesFirst

variable {s : State} {c : Nat}

/-- The entry that is claimed is PENDING, and none that is PENDING goes before it. -/
theorem nextPending_spec (h : Store.rising (s.core c).landing = true) (hj : ∃ j, (s.entry c j).state = .pending) :
    ∃ i, s.nextPending c = some i ∧ (s.entry c i).state = .pending
      ∧ ∀ j, (s.entry c j).state = .pending → (s.entry c j).before (s.entry c i) = false := by
  have hlisted : ∀ j, (s.entry c j).state = .pending → (j, s.entry c j) ∈ (s.core c).landing := fun j hp =>
    entry_listed (by rw [hp]; decide)
  obtain ⟨j, hj⟩ := hj
  cases hm : (s.core c).landing.foldl firstPending none with
  | none => exact absurd hj ((firstPending_foldl_none.mp hm).2 _ (hlisted j hj))
  | some y =>
    obtain ⟨i, e⟩ := y
    obtain ⟨hfrom, hlist, -⟩ := goesFirst_foldl hm
    obtain ⟨hmem, hp⟩ := hfrom.resolve_right fun h => by cases h
    have he : s.entry c i = e := by rw [State.entry, Store.get, find_of_mem_rising h hmem]; rfl
    refine ⟨i, by rw [nextPending_eq, hm]; rfl, he ▸ hp, fun k hk => ?_⟩
    rw [he]
    exact hlist _ (hlisted k hk) hk

theorem nextPending_none (h : ∀ x ∈ (s.core c).landing, x.2.state ≠ .pending) : s.nextPending c = none := by
  rw [nextPending_eq, firstPending_foldl_none.mpr ⟨rfl, h⟩]
  rfl

variable {o : PrivOp}

/-- `park` with an entry to claim. -/
theorem exec_park_some {i : Nat} (h : supervises (.park o) o s) (hi : s.nextPending s.cur.core = some i) : exec (.park o) s
    = .next (((s.onEntry s.cur.core i fun e => { e with state := .inService }).onMe fun y =>
      y.putOpt o.d (BitVec.ofNat 64 i)).advance (.park o)) := by
  obtain ⟨hiss, -, ha⟩ := h
  have he : exec (.park o) s = execPark o s := rfl
  unfold execPark at he
  rw [exec_of_active he hiss ha, hi]

/-- `park` that does not wait, with none to claim. -/
theorem exec_park_none (h : supervises (.park o) o s) (hf : o.fn = 1) (hi : s.nextPending s.cur.core = none) : exec (.park o) s
    = .next ((s.onMe fun y => y.putOpt o.d (BitVec.allOnes 64)).advance (.park o)) := by
  obtain ⟨hiss, -, ha⟩ := h
  have he : exec (.park o) s = execPark o s := rfl
  unfold execPark at he
  rw [exec_of_active he hiss ha, hi, hf]
  rfl

end Park

/-! ### `unpark` (R139) -/

section Unpark

variable {s u : State} {o : PrivOp}

/-- A trap of the supervisor group stops its core (R116). -/
theorem finish_supervisor {sh : Shape} {eff : State → State} (hg : s.cur.gslot = Config.supervisorSlot) (hp : sh.parked ≠ []) :
    s.finish sh eff = s.supervisorFault s.cur.core := by
  obtain ⟨x, xs, hx⟩ := List.exists_cons_of_ne_nil hp
  have hc : (decide (s.cur.gslot = Config.supervisorSlot) && !sh.parked.isEmpty) = true := by rw [hg, hx]; rfl
  unfold State.finish
  exact if_pos hc

theorem raise_supervisor {i : Instr} {m : Mask} {cause : BitVec 8} {detail : Word} {acc : Access}
    (hg : s.cur.gslot = Config.supervisorSlot) (hm : m ≠ 0) : s.raise i m cause detail acc = s.supervisorFault s.cur.core :=
  finish_supervisor hg fun h => lanes_ne_nil hm (List.map_eq_nil_iff.mp h)

theorem supervisorFault_spec (s : State) (c : Nat) : ((s.supervisorFault c).core c).faulted = true
    ∧ ((s.core c).faulted = false →
      ((s.supervisorFault c).core c).stopped = true ∧ ((s.supervisorFault c).core c).svc = .faulted) := by
  by_cases hf : (s.core c).faulted = true
  · rw [State.supervisorFault, if_pos hf]
    exact ⟨hf, fun h => absurd (hf.symm.trans h) (by decide)⟩
  · have he : (s.supervisorFault c).core c = { s.core c with faulted := true, stopped := true, svc := .faulted } := by
      rw [State.supervisorFault, if_neg hf, State.core, send_cores, ← State.core, core_onCore_same]
    rw [he]
    exact ⟨rfl, fun _ => ⟨rfl, rfl⟩⟩

theorem exec_unpark (h : supervises (.unpark o) o s) : exec (.unpark o) s = .next
    (if 2048 ≤ (s.me.opt o.a).toNat || !(s.entry s.cur.core (s.me.opt o.a).toNat).resolvable
        || !s.obeyed s.cur.core (s.me.opt o.a).toNat o.fn.toNat then
      s.raise (.unpark o) (s.me.active s.mySlot.mask o.g) Cause.softTrap 0
    else
      match s.tryResolve s.cur.core (s.me.opt o.a).toNat o.fn.toNat with
      | (s, true) => s.advance (.unpark o)
      | (s, false) => s.reissue) := by
  obtain ⟨hiss, -, ha⟩ := h
  have he : exec (.unpark o) s = execUnpark o s := rfl
  unfold execUnpark at he
  exact exec_of_active he hiss ha

theorem exec_unpark_refused (h : supervises (.unpark o) o s) (hr : 2048 ≤ (s.me.opt o.a).toNat
      ∨ (s.entry s.cur.core (s.me.opt o.a).toNat).resolvable = false
      ∨ s.obeyed s.cur.core (s.me.opt o.a).toNat o.fn.toNat = false) :
    exec (.unpark o) s = .next (s.supervisorFault s.cur.core) := by
  obtain ⟨-, hg, ha⟩ := id h
  rw [exec_unpark h, if_pos, raise_supervisor hg ha]
  rcases hr with h | h | h <;> simp [h]

theorem exec_unpark_ok (h : supervises (.unpark o) o s) (hi : (s.me.opt o.a).toNat < 2048)
    (hr : (s.entry s.cur.core (s.me.opt o.a).toNat).resolvable = true)
    (ho : s.obeyed s.cur.core (s.me.opt o.a).toNat o.fn.toNat = true)
    (hu : s.tryResolve s.cur.core (s.me.opt o.a).toNat o.fn.toNat = (u, true)) :
    exec (.unpark o) s = .next (u.advance (.unpark o)) := by
  rw [exec_unpark h, if_neg (by simp [hr, ho, hi]), hu]

end Unpark

/-! ### `halt` and `halt.release` (R143) -/

section Halt

variable {s t u : State} {c n : Nat}

theorem teams_haltTeam (h : s.hasTeam c n = true) (r : HaltReason) (aux : Word) :
    ((s.haltTeam c n r aux).core c).teams = ((haltNoted s c n r).core c).teams :=
  (entriesKept_haltTeam h r aux).teams.trans (entriesKept_haltHeld s c n r).teams

theorem haltTeam_of_absent (h : s.hasTeam c n = false) (r : HaltReason) (aux : Word) : s.haltTeam c n r aux = s := by
  unfold State.haltTeam
  exact if_pos (by rw [h]; rfl)

theorem halted_haltTeam (h : s.hasTeam c n = true) (r : HaltReason) (aux : Word) :
    ((s.haltTeam c n r aux).team c n).halted = true := by
  rw [State.team, teams_haltTeam h]
  exact halted_haltNoted s c n r

/-- A halt of one team leaves the others halted. -/
theorem halted_haltTeam_stays {m : Nat} (h : (s.team c n).halted = true) (r : HaltReason) (aux : Word) :
    ((s.haltTeam c m r aux).team c n).halted = true := by
  by_cases hm : s.hasTeam c m = true
  · by_cases e : n = m
    · subst e
      exact halted_haltTeam hm r aux
    · rw [State.team, teams_haltTeam hm, ← State.team, haltNoted, team_setTeam, if_neg fun h => e h.2]
      exact h
  · rw [haltTeam_of_absent (by simpa using hm)]
    exact h

theorem halted_foldl_stays (r : HaltReason) (aux : Word) (l : List Nat) (h : (s.team c n).halted = true) :
    ((l.foldl (fun s m => s.haltTeam c m r aux) s).team c n).halted = true := by
  induction l generalizing s with
  | nil => exact h
  | cons m l ih => exact ih (halted_haltTeam_stays h r aux)

theorem halted_foldl (r : HaltReason) (aux : Word) {l : List Nat} (hn : n ∈ l) (h : s.hasTeam c n = true) :
    ((l.foldl (fun s m => s.haltTeam c m r aux) s).team c n).halted = true := by
  induction l generalizing s with
  | nil => cases hn
  | cons m l ih =>
    rw [List.foldl_cons]
    rcases List.mem_cons.mp hn with rfl | hm
    · exact halted_foldl_stays r aux l (halted_haltTeam h r aux)
    · exact ih hm ((resident_haltTeam s c m r aux).team c n h).1

theorem teams_onCore (s : State) (c : Nat) {f : Core → Core} (h : ∀ k, (f k).teams = k.teams) (d : Nat) :
    ((s.onCore c f).core d).teams = (s.core d).teams := by
  rw [core_onCore]
  split <;> rename_i hd
  · rw [hd, h]
  · rfl

theorem teams_of_aside (h : Aside s t) (d : Nat) : (t.core d).teams = (s.core d).teams := by rw [h.core d]

theorem teams_setEntry (s : State) (c i : Nat) (e : Landing) (d : Nat) : ((s.setEntry c i e).core d).teams = (s.core d).teams := by
  have h : Aside (s.onCore c fun k => { k with landing := k.landing.set i e }) (s.setEntry c i e) := aside_deviceWrite _ _ _
  exact (teams_of_aside h d).trans (teams_onCore s c (fun _ => by rfl) d)

theorem teams_onGroup (s : State) (c g : Nat) (f : Group → Group) (d : Nat) : ((s.onGroup c g f).core d).teams = (s.core d).teams :=
  teams_onCore s c (fun _ => by rfl) d

theorem teams_unholdEntries (s : State) (c m d : Nat) : ((s.unholdEntries c m).core d).teams = (s.core d).teams := by
  unfold State.unholdEntries
  generalize (s.core c).landing = l
  induction l generalizing s with
  | nil => rfl
  | cons x l ih =>
    refine (ih _).trans ?_
    obtain ⟨i, e⟩ := x
    dsimp only
    split
    · exact teams_setEntry _ _ _ _ _
    · rfl

theorem teams_readyAgain (s : State) (c m d : Nat) : ((s.readyAgain c m).core d).teams = (s.core d).teams := by
  unfold State.readyAgain
  dsimp only
  generalize s.groupsOf c m = l
  induction l generalizing s with
  | nil => rfl
  | cons x l ih => exact (ih _).trans (teams_onGroup _ _ _ _ _)

/-- What a release takes away; a team that is not here reads as one without a reason. -/
theorem halts_unhalt (s : State) (c m n : Nat) (gone : HaltReason → Bool) : ((s.unhalt c m gone).team c n).halts =
    if n = m then (s.team c n).halts.filter fun r => !gone r else (s.team c n).halts := by
  by_cases h : (!s.hasTeam c m || !(s.team c m).halted) = true
  · have he : s.unhalt c m gone = s := by unfold State.unhalt; exact if_pos h
    have hnone : (s.team c m).halts = [] := by
      rcases Bool.or_eq_true_iff.mp h with h | h
      · rw [State.hasTeam, Bool.not_eq_true', Option.isSome_eq_false_iff, Option.isNone_iff_eq_none] at h
        rw [State.team, Store.get, h]
        rfl
      · simpa [Team.halted] using h
    rw [he]
    split <;> rename_i e
    · rw [e, hnone]
      rfl
    · rfl
  · have he : ((s.unhalt c m gone).core c).teams
        = ((s.setTeam c m { s.team c m with halts := (s.team c m).halts.filter fun r => !gone r }).core c).teams := by
      unfold State.unhalt
      rw [if_neg h]
      dsimp only
      split
      · rw [teams_readyAgain, teams_unholdEntries]
      · rfl
    rw [State.team, he, ← State.team, team_setTeam]
    by_cases e : n = m
    · rw [if_pos ⟨rfl, e⟩, if_pos e, e]
    · rw [if_neg fun h => e h.2, if_neg e]

theorem halts_release_foldl (l : List Nat) (s : State) : ((l.foldl (fun s m => s.release1 c m) s).team c n).halts =
    if n ∈ l then (s.team c n).halts.filter fun r => r == .stop || r == .dump || r == .late || r == .unsaved
    else (s.team c n).halts := by
  have hkeep : (fun r : HaltReason => !(r != .stop && r != .dump && r != .late && r != .unsaved))
      = fun r => r == .stop || r == .dump || r == .late || r == .unsaved := by funext r; cases r <;> rfl
  induction l generalizing s with
  | nil => rfl
  | cons m l ih =>
    rw [List.foldl_cons, ih, State.release1, halts_unhalt, hkeep]
    by_cases hm : n = m
    · by_cases hl : n ∈ l <;> simp [hm, hm ▸ hl]
    · simp [hm]

variable {o : PrivOp}

theorem mem_haltNames (h : halted s o n) : n ∈ s.haltNames o := by
  obtain ⟨-, h⟩ := h
  unfold State.haltNames
  dsimp only
  by_cases hf : o.fn.toNat < 2
  · rw [if_pos hf] at h ⊢
    obtain ⟨he, hn⟩ := h
    rw [he, if_pos hn]
    exact List.mem_singleton_self n
  · rw [if_neg hf] at h ⊢
    obtain ⟨x, hx, ha⟩ := h
    exact List.mem_map_of_mem (f := Prod.fst) (List.mem_filter.mpr ⟨hx, by simpa using ha⟩)

end Halt

/-! ### `tlbi` (R140) -/

section Tlbi

theorem find_keep_some {α : Type} {m : Store α} {p : Nat → α → Bool} {j : Nat} {v : α} (h : m.find? j = some v)
    (hp : p j v = true) : (m.keep p).find? j = some v := by
  induction m with
  | nil => cases h
  | cons e m ih =>
    obtain ⟨k, w⟩ := e
    rw [Store.find?] at h
    by_cases hj : j = k
    · subst hj
      rw [if_pos rfl] at h
      obtain rfl := Option.some.inj h
      rw [Store.keep, List.filter_cons_of_pos (p := fun (e : Nat × α) => p e.1 e.2) hp, Store.find?, if_pos rfl]
    · rw [if_neg hj] at h
      by_cases hw : p k w = true
      · rw [Store.keep, List.filter_cons_of_pos (p := fun (e : Nat × α) => p e.1 e.2) hw, Store.find?, if_neg hj]
        exact ih h
      · rw [Store.keep, List.filter_cons_of_neg (p := fun (e : Nat × α) => p e.1 e.2) hw]
        exact ih h

theorem kept_of_find {α : Type} {m : Store α} {p : Nat → α → Bool} {j : Nat} {v : α} (h : (m.keep p).find? j = some v) :
    p j v = true := (List.mem_filter.mp (mem_of_find h)).2

theorem find_of_mem {α : Type} {m : Store α} {j : Nat} {v : α} (h : (j, v) ∈ m) : ∃ w, m.find? j = some w := by
  induction m with
  | nil => cases h
  | cons e m ih =>
    obtain ⟨k, w⟩ := e
    rw [Store.find?]
    by_cases hj : j = k
    · exact ⟨w, if_pos hj⟩
    · rw [if_neg hj]
      exact ih ((List.mem_cons.mp h).resolve_left fun e => hj (congrArg Prod.fst e))

theorem mem_set {α : Type} {m : Store α} {j : Nat} {v : α} {e : Nat × α} (h : e ∈ m.set j v) : e = (j, v) ∨ e ∈ m := by
  induction m with
  | nil => exact .inl (List.mem_singleton.mp h)
  | cons x m ih =>
    obtain ⟨k, w⟩ := x
    rw [Store.set] at h
    split at h
    · exact List.mem_cons.mp h
    · split at h
      · exact (List.mem_cons.mp h).imp id (List.mem_cons_of_mem _)
      · rcases List.mem_cons.mp h with rfl | h
        · exact .inr List.mem_cons_self
        · exact (ih h).imp id (List.mem_cons_of_mem _)

/-- A core whose stacked cache holds no named translation, and no line of a table. -/
def forgetNamed (n : TlbName) (k : Core) : Core :=
  { k with
    tlb := k.tlb.keep fun key l => !n.leaf key l,
    got := k.got.filter fun (x : Arrived) => match x.want with | .line _ => false | _ => true }

theorem forgetNamed_twice (n : TlbName) (k : Core) : forgetNamed n (forgetNamed n k) = forgetNamed n k := by
  simp [forgetNamed, Store.keep, List.filter_filter]

/-- The same on every core of a list. -/
def forgetAll (n : TlbName) (l : List Nat) (s : State) : State := l.foldl (fun s c => s.onCore c (forgetNamed n)) s

section ForgetAll

variable {n : TlbName}

theorem forgetAll_cores (l : List Nat) (s : State) : forgetAll n l s = { s with cores := (forgetAll n l s).cores } := by
  induction l generalizing s with
  | nil => rfl
  | cons c l ih =>
    have h := ih (s.onCore c (forgetNamed n))
    exact h

theorem core_forgetAll (l : List Nat) (s : State) (d : Nat) :
    (forgetAll n l s).core d = if d ∈ l then forgetNamed n (s.core d) else s.core d := by
  induction l generalizing s with
  | nil => rfl
  | cons c l ih =>
    rw [forgetAll, List.foldl_cons, ← forgetAll, ih, core_onCore]
    by_cases hd : d = c
    · subst hd
      by_cases hl : d ∈ l <;> simp [hl, forgetNamed_twice]
    · simp [hd]

/-- The core of a number that is listed is the first one listed. -/
theorem core_listed {s : State} {c : Nat} (h : c ∈ s.cores.map (·.1)) : (c, s.core c) ∈ s.cores := by
  obtain ⟨⟨d, k⟩, hk, rfl⟩ := List.mem_map.mp h
  obtain ⟨j, hj⟩ := find_of_mem hk
  rw [State.core, Store.get, hj]
  exact mem_of_find hj

/-- A core that is listed afterwards was so before, with the same groups and tokens. -/
theorem listed_forgetAll {l : List Nat} {s : State} (hl : ∀ c ∈ l, c ∈ s.cores.map (·.1)) {x : Nat × Core}
    (hx : x ∈ (forgetAll n l s).cores) : ∃ k, (x.1, k) ∈ s.cores ∧ k.groups = x.2.groups ∧ k.tokens = x.2.tokens := by
  induction l generalizing s with
  | nil => exact ⟨x.2, hx, rfl, rfl⟩
  | cons c l ih =>
    have hc := hl c List.mem_cons_self
    have hkeys : ∀ d, d ∈ s.cores.map (·.1) → d ∈ (s.onCore c (forgetNamed n)).cores.map (·.1) := fun d hd => by
      obtain ⟨w, hw⟩ : ∃ w, (s.onCore c (forgetNamed n)).cores.find? d = some w := by
        by_cases e : d = c
        · rw [e]
          exact ⟨_, find_set_same s.cores c _⟩
        · obtain ⟨⟨d, k⟩, hk, rfl⟩ := List.mem_map.mp hd
          obtain ⟨w, hw⟩ := find_of_mem hk
          exact ⟨w, (find_set_ne _ _ e).trans hw⟩
      exact List.mem_map_of_mem (f := Prod.fst) (mem_of_find hw)
    obtain ⟨k, hk, hg, ht⟩ := ih (fun d hd => hkeys d (hl d (List.mem_cons_of_mem _ hd))) hx
    rcases mem_set hk with h | h
    · obtain ⟨he, rfl⟩ := Prod.mk.inj h
      exact ⟨s.core c, by rw [he]; exact core_listed hc, hg, ht⟩
    · exact ⟨k, h, hg, ht⟩

end ForgetAll

theorem dropTlb_eq (s : State) (n : TlbName) : ∃ q, s.dropTlb n = { s with
    cores := (forgetAll n (s.cores.map (·.1)) s).cores, walk := s.walk.keep fun key _ => !n.table key, queues := q,
    peerClean := [], peersFrom := s.nextTag }
      ∧ ∀ i, (q.get .reset i).cfg = (s.queue i).cfg := by
  refine ⟨s.queues.mapAll fun _ q =>
    { q with got := q.got.filter fun e => match e.2.want with | .line _ => false | _ => true }, ?_, fun i => ?_⟩
  · have h : s.dropTlb n = { forgetAll n (s.cores.map (·.1)) s with
        walk := (forgetAll n (s.cores.map (·.1)) s).walk.keep fun key _ => !n.table key,
        queues := (forgetAll n (s.cores.map (·.1)) s).queues.mapAll fun _ q =>
          { q with got := q.got.filter fun e => match e.2.want with | .line _ => false | _ => true },
        peerClean := [], peersFrom := (forgetAll n (s.cores.map (·.1)) s).nextTag } := rfl
    rw [h, forgetAll_cores]
  · exact get_mapAll (p := fun v w : Queue => w.cfg = v.cfg) rfl (fun _ _ => by rfl) _ _

variable {s : State} {n : TlbName}

theorem core_dropTlb (s : State) (n : TlbName) (d : Nat) : (s.dropTlb n).core d = forgetNamed n (s.core d) := by
  obtain ⟨q, he, -⟩ := dropTlb_eq s n
  rw [he]
  refine (core_forgetAll _ s d).trans ?_
  split <;> rename_i hd
  · rfl
  · have hnone : s.cores.find? d = none := by
      by_contra h
      obtain ⟨w, hw⟩ := Option.ne_none_iff_exists'.mp h
      exact hd (List.mem_map_of_mem (f := Prod.fst) (mem_of_find hw))
    rw [State.core, Store.get, hnone]
    rfl

theorem group_dropTlb (s : State) (n : TlbName) (c g : Nat) : (s.dropTlb n).group c g = s.group c g := by
  rw [State.group, core_dropTlb]
  rfl

theorem op_dropTlb (s : State) (n : TlbName) (c e : Nat) : (s.dropTlb n).op? c e = s.op? c e := by
  have h : (s.dropTlb n).token c e = s.token c e := by
    rw [State.token, core_dropTlb]
    rfl
  rw [State.op?, h]
  rfl

theorem originHits_dropTlb (s : State) (n : TlbName) (r : Origin) : (s.dropTlb n).originHits n r = s.originHits n r := by
  obtain ⟨q, he, hq⟩ := dropTlb_eq s n
  cases r <;> simp only [State.originHits, group_dropTlb, op_dropTlb]
  case queue i _ _ =>
    have h : (s.dropTlb n).queue i = q.get .reset i := by rw [he]; rfl
    rw [h, hq]

theorem holdsNamed_dropTlb (h : s.holdsNamed n = false) : (s.dropTlb n).holdsNamed n = false := by
  obtain ⟨q, he, -⟩ := dropTlb_eq s n
  have hlisted : ∀ x ∈ (s.dropTlb n).cores, ∃ k, (x.1, k) ∈ s.cores ∧ k.groups = x.2.groups ∧ k.tokens = x.2.tokens := by
    rw [he]
    exact fun x hx => listed_forgetAll (fun _ h => h) hx
  unfold State.holdsNamed at *
  rw [Bool.or_eq_false_iff, List.any_eq_false, List.any_eq_false] at *
  obtain ⟨hslots, hops⟩ := h
  refine ⟨fun x hx => ?_, fun x hx => hops x ?_⟩
  · obtain ⟨k, hk, hg, -⟩ := hlisted x hx
    have := hslots _ hk
    dsimp only at this ⊢
    rwa [← hg]
  · obtain ⟨y, hy, hxy⟩ := List.mem_flatMap.mp hx
    obtain ⟨k, hk, -, ht⟩ := hlisted y hy
    refine List.mem_flatMap.mpr ⟨_, hk, ?_⟩
    dsimp only at hxy ⊢
    rwa [ht]

theorem usesNamed_dropTlb (h : s.usesNamed n = false) : (s.dropTlb n).usesNamed n = false := by
  obtain ⟨q, he, -⟩ := dropTlb_eq s n
  have hreq : (s.dropTlb n).requests = s.requests := by rw [he]
  unfold State.usesNamed at *
  rw [Bool.or_eq_false_iff] at *
  obtain ⟨ha, hb⟩ := h
  refine ⟨?_, holdsNamed_dropTlb hb⟩
  simp only [hreq, originHits_dropTlb]
  exact ha

theorem steady_dropTlb (s : State) (n : TlbName) : Steady s (s.dropTlb n) := by
  obtain ⟨q, he, -⟩ := dropTlb_eq s n
  refine ⟨by rw [he], fun d => ?_, fun d m => by rw [group_dropTlb]⟩
  rw [core_dropTlb]
  rfl

/-- What a `tlbi` names. -/
def tlbName (s : State) (o : PrivOp) : TlbName :=
  if o.fn = 0 then .page ((s.me.opt o.b).extractLsb' 0 16).toNat (s.me.opt o.a)
  else if o.fn = 1 then .asid ((s.me.opt o.a).extractLsb' 0 16).toNat else .all

variable {o : PrivOp}

theorem exec_tlbi (h : supervises (.tlbi o) o s) (hu : s.usesNamed (tlbName s o) = false) :
    exec (.tlbi o) s = .next ((s.dropTlb (tlbName s o)).advance (.tlbi o)) := by
  obtain ⟨hiss, -, ha⟩ := h
  have he : exec (.tlbi o) s = execTlbi o s := rfl
  unfold execTlbi at he
  have hname : (if o.fn == 0 then TlbName.page ((s.me.opt o.b).extractLsb' 0 16).toNat (s.me.opt o.a)
      else if o.fn == 1 then .asid ((s.me.opt o.a).extractLsb' 0 16).toNat else .all) = tlbName s o := by
    simp only [beq_iff_eq]
    rfl
  rw [exec_of_active he hiss ha]
  dsimp only
  rw [hname, if_neg (by rw [usesNamed_dropTlb hu]; decide)]

end Tlbi

/-! ### The obligation -/

section

variable {s : State} {o : PrivOp}

/-- What is done on the core of the instruction in hand, where it stays the one in hand. -/
theorem foldl_cur {f : State → Nat → Nat → State} (hf : ∀ s c n, (f s c n).cur = s.cur) {c : Nat} (l : List Nat)
    (hc : s.cur.core = c) : l.foldl (fun s n => f s s.cur.core n) s = l.foldl (fun s n => f s c n) s := by
  induction l generalizing s with
  | nil => rfl
  | cons n l ih =>
    rw [List.foldl_cons, List.foldl_cons, hc]
    exact ih ((congrArg Issuer.core (hf s c n)).trans hc)

theorem exec_halt (h : supervises (.halt o) o s) : exec (.halt o) s
    = .next (((s.haltNames o).foldl (fun u n => u.haltTeam s.cur.core n .halt 5) s).advance (.halt o)) := by
  obtain ⟨hiss, -, ha⟩ := h
  have he : exec (.halt o) s = execHalt o s := rfl
  unfold execHalt at he
  rw [exec_of_active he hiss ha,
    foldl_cur (f := fun s c n => s.haltTeam c n .halt 5) (fun s c n => (resident_haltTeam s c n .halt 5).cur) _ rfl]

theorem exec_haltRelease (h : supervises (.haltRelease o) o s) : exec (.haltRelease o) s
    = .next (((s.haltNames o).foldl (fun u n => u.release1 s.cur.core n) s).advance (.haltRelease o)) := by
  obtain ⟨hiss, -, ha⟩ := h
  have he : exec (.haltRelease o) s = execHaltRelease o s := rfl
  unfold execHaltRelease at he
  rw [exec_of_active he hiss ha,
    foldl_cur (f := fun s c n => s.release1 c n) (fun s c n => (resident_unhalt s c n _).cur) _ rfl]

theorem tlbi_gives (h : supervises (.tlbi o) o s) (hu : s.usesNamed (tlbName s o) = false) :
    privGives (.tlbi o) o s 0 fun t => t.mem = s.mem ∧ s.me.sameRegs t.me
      ∧ (∀ k key l, (t.core k).tlb.find? key = some l → (tlbName s o).leaf key l = false)
      ∧ (∀ k key l, (s.core k).tlb.find? key = some l → (tlbName s o).leaf key l = false → (t.core k).tlb.find? key = some l)
      ∧ ∀ key w, t.walk.find? key = some w → (tlbName s o).table key = false := by
  have hexec := exec_tlbi h hu
  generalize tlbName s o = name at hexec ⊢
  obtain ⟨q, he, -⟩ := dropTlb_eq s name
  have hme : (s.dropTlb name).me = s.me := by
    rw [State.me, group_dropTlb, he]
    rfl
  refine privGives_of_advance h.2.1 hexec (steady_dropTlb s name) (no_dst h.1 (by simp)) fun t hregs ht => ?_
  obtain ⟨hglobal, hcore, -, -⟩ := ht
  have htlb : ∀ k, (t.core k).tlb = (s.core k).tlb.keep fun key l => !name.leaf key l := fun k => by
    rw [hcore k, core_dropTlb]
    rfl
  have hmem : t.mem = s.mem := by rw [hglobal, he]
  have hwalk : t.walk = s.walk.keep fun key _ => !name.table key := by rw [hglobal, he]
  refine ⟨hmem, hme ▸ hregs, fun k key l hl => ?_, fun k key l hl hn => ?_, fun key w hw => ?_⟩
  · rw [htlb] at hl
    simpa using kept_of_find hl
  · rw [htlb]
    exact find_keep_some hl (by simpa using hn)
  · rw [hwalk] at hw
    simpa using kept_of_find hw

end

/-- Settles O45: each completes after its effect on the supervisor's core, and an `unpark` that is refused is a trap of the
supervisor (R116). -/
theorem supervisorInstructions : Obligations.SupervisorInstructions := by
  unfold Obligations.SupervisorInstructions
  intro s o c
  refine ⟨?park, ?parkNone, ?unpark, ?refused, ?tlbi, ?halt, ?release⟩
  case park =>
    intro h hrise hsome
    obtain ⟨i, hi, hp, hfirst⟩ := nextPending_spec hrise hsome
    refine ⟨i, hp, hfirst, privGives_of_answer h.2.1 (exec_park_some h hi) (resident_onEntry _ _ _ _).toSteady fun t ht => ?_⟩
    have he : ∀ j, t.entry c j = if j = i then { s.entry c i with state := .inService } else s.entry c j := fun j =>
      (entry_of_elsewhereSame ht c j).trans ((entry_setEntry _ _ _ _).1 j)
    exact ⟨by rw [he, if_pos rfl], fun j hj => by rw [he, if_neg hj]⟩
  case parkNone =>
    intro h hf hn
    exact privGives_of_answer h.2.1 (exec_park_none h hf (nextPending_none hn)) (steady_refl s) fun t ht => ht
  case unpark =>
    intro u i h hi hr hg ho hu
    have hsteady : Steady s u := by
      have := steady_tryResolve (c := c) (i := i) hg o.fn.toNat
      rwa [hu] at this
    refine privGives_of_advance h.2.1 (exec_unpark_ok h hi hr ho hu) hsteady (no_dst h.1 (by simp)) fun t _ ht =>
      ⟨?_, fun j => ?_, fun g hn => ?_⟩
    · rw [ht.1]
    · exact entry_of_elsewhereSame ht c j
    · obtain ⟨-, -, hgroup, -⟩ := ht
      exact hgroup c g (.inr (by rw [hsteady.cur, h.2.1]; exact hn))
  case refused =>
    intro i h hr
    exact ⟨_, exec_unpark_refused h hr, supervisorFault_spec s c⟩
  case tlbi =>
    exact tlbi_gives
  case halt =>
    intro h
    refine privGives_of_advance h.2.1 (exec_halt h) (resident_foldl (fun s n => resident_haltTeam s c n .halt 5) _ s).toSteady
      (no_dst h.1 (by simp)) fun t _ ht n hn => ?_
    rw [team_of_elsewhereSame ht]
    exact halted_foldl .halt 5 (mem_haltNames hn) hn.1
  case release =>
    intro h
    refine privGives_of_advance h.2.1 (exec_haltRelease h)
      (resident_foldl (fun s n => resident_unhalt s c n _) _ s).toSteady (no_dst h.1 (by simp)) fun t _ ht n hn => ?_
    rw [team_of_elsewhereSame ht, halts_release_foldl, if_pos (mem_haltNames hn)]

end Sys2Proof.Proofs
end

section
/-! SUPPORT. What the move of a team leaves as it was: the list of teams that stand saved and the thermal stop (R126, R131). -/

namespace Sys2Proof.Proofs

open Sys2Proof Machine Laws Forms Statements

section Quiet

/-- Between two states no team is saved or comes back, and the thermal stop stays as it is. -/
structure Quiet (s t : State) : Prop where
  saved : t.saved = s.saved
  tripped : t.tripped = s.tripped

variable {s t u : State}

theorem quiet_refl (s : State) : Quiet s s := ⟨rfl, rfl⟩

theorem quiet_trans (h : Quiet s t) (k : Quiet t u) : Quiet s u := ⟨k.saved.trans h.saved, k.tripped.trans h.tripped⟩

theorem quiet_foldl {α : Type} {f : State → α → State} (h : ∀ s x, Quiet s (f s x)) (l : List α) (s : State) :
    Quiet s (l.foldl f s) := by
  induction l generalizing s with
  | nil => exact quiet_refl s
  | cons x l ih => exact quiet_trans (h s x) (ih _)

theorem quiet_onCore (s : State) (c : Nat) (f : Core → Core) : Quiet s (s.onCore c f) := ⟨rfl, rfl⟩

theorem quiet_setCore (s : State) (c : Nat) (k : Core) : Quiet s (s.setCore c k) := ⟨rfl, rfl⟩

theorem quiet_onGroup (s : State) (c g : Nat) (f : Group → Group) : Quiet s (s.onGroup c g f) := ⟨rfl, rfl⟩

theorem quiet_onTeam (s : State) (c n : Nat) (f : Team → Team) : Quiet s (s.onTeam c n f) := ⟨rfl, rfl⟩

theorem quiet_onCtx (s : State) (a : Nat) (f : Ctx → Ctx) : Quiet s (s.onCtx a f) := ⟨rfl, rfl⟩

theorem quiet_setOp (s : State) (c e : Nat) (op : Op) : Quiet s (s.setOp c e op) := ⟨rfl, rfl⟩

/-! ### Bytes -/

theorem quiet_failSector (s : State) (sec : Nat) (ws : List (Nat × Nat)) : Quiet s (s.failSector sec ws) := by
  refine quiet_trans (t := ({ s with peerDirty := s.peerDirty.keep fun pa _ => pa / 128 != sec / 4 }.dropPeerLine
    (sec / 4)).dropLineAll (sec / 4)) ⟨rfl, rfl⟩ (quiet_foldl (fun s w => quiet_onGroup _ _ _ _) _ _)

theorem quiet_performByte (s : State) (pa : Nat) (b : Byte) (ws : List (Nat × Nat)) : Quiet s (s.performByte pa b ws) := by
  unfold State.performByte
  split
  · exact quiet_failSector _ _ _
  · split
    · exact ⟨rfl, rfl⟩
    · dsimp only
      split <;> exact ⟨rfl, rfl⟩

theorem quiet_publishByte (s : State) (c pa : Nat) : Quiet s (s.publishByte c pa) := by
  unfold State.publishByte
  dsimp only
  split
  · exact quiet_refl s
  · exact quiet_trans (quiet_setCore _ _ _) (quiet_performByte _ _ _ _)

theorem quiet_publishSector (s : State) (c sec : Nat) : Quiet s (s.publishSector c sec) :=
  quiet_foldl (fun s i => quiet_publishByte s c (32 * sec + i)) _ _

theorem quiet_deviceWrite (s : State) (pa : Nat) (bs : List Byte) : Quiet s (s.deviceWrite pa bs) := by
  induction bs generalizing s pa with
  | nil => exact quiet_refl s
  | cons b bs ih => exact quiet_trans (quiet_performByte _ _ _ _) (ih _ _)

theorem quiet_writeStack (s : State) (c g : Nat) (w : Where) (e : StackEntry) : Quiet s (s.writeStack c g w e) :=
  quiet_trans (quiet_onCore _ _ _) (quiet_foldl (fun s x => quiet_publishSector s c x) _ _)

theorem quiet_writeMem (s : State) (pa : Nat) (bs : List Byte) : Quiet s (s.writeMem pa bs) := by
  induction bs generalizing s pa with
  | nil => exact quiet_refl s
  | cons b bs ih => exact quiet_trans (t := s.writeByte pa b) ⟨rfl, rfl⟩ (ih _ _)

/-! ### Requests -/

theorem quiet_sendRequest (s : State) (r : Request) : Quiet s (s.sendRequest r) :=
  quiet_trans (quiet_foldl (fun _ _ => quiet_onCore _ _ _) _ _) ⟨rfl, rfl⟩

theorem quiet_request (s : State) (o : Origin) (pa : Nat) (op : HomeOp) : Quiet s (s.request o pa op) := by
  unfold State.request
  dsimp only
  split
  · cases op <;> exact ⟨rfl, rfl⟩
  · refine quiet_trans ?_ (quiet_sendRequest _ _)
    cases op <;> exact ⟨rfl, rfl⟩

theorem quiet_askService (s : State) (c : Nat) (w : Want) (op : HomeOp) : Quiet s (s.askService c w op) := by
  unfold State.askService
  dsimp only
  split
  · exact quiet_refl s
  · exact quiet_request _ _ _ _

/-! ### Translations -/

theorem quiet_walkFrom (s : State) (a : Agent) (root va : Word) (fuel level table : Nat) :
    Quiet s (s.walkFrom a root va fuel level table).1 := by
  induction fuel generalizing s level table with
  | zero => exact quiet_refl s
  | succ fuel ih =>
    unfold State.walkFrom
    dsimp only
    split
    · exact quiet_refl s
    · exact quiet_refl s
    · exact quiet_refl s
    · split
      · exact quiet_refl s
      · split
        · exact quiet_refl s
        · split
          · exact quiet_refl s
          · refine quiet_trans ?_ (ih _ _ _)
            exact ⟨rfl, rfl⟩

theorem quiet_findLeaf (s : State) (a : Agent) (va : Word) : Quiet s (s.findLeaf a va).1 := by
  unfold State.findLeaf
  dsimp only
  split
  · exact quiet_refl s
  · split
    · exact quiet_refl s
    · split
      · split
        · exact quiet_refl s
        · exact quiet_walkFrom _ _ _ _ _ _ _
      · exact quiet_walkFrom _ _ _ _ _ _ _

theorem quiet_probe (s : State) (a : Agent) (va : Word) (acc : Access) (gossip : Bool) : Quiet s (s.probe a va acc gossip).1 := by
  have h := quiet_findLeaf s a va
  unfold State.probe
  split
  · exact quiet_refl s
  · split <;> rename_i e <;> rw [e] at h
    · exact h
    · exact h
    · exact h
    · dsimp only at h ⊢
      split
      · exact h
      · split <;> exact h

theorem quiet_keepLeaf (s : State) (a : Agent) (va : Word) (t : Trans) : Quiet s (s.keepLeaf a va t) := ⟨rfl, rfl⟩

theorem quiet_loseLeaf (s : State) (a : Agent) (va : Word) : Quiet s (s.loseLeaf a va) := ⟨rfl, rfl⟩

theorem quiet_markLeaf (s : State) (a : Agent) (va : Word) (acc : Access) (w : Where) : Quiet s (s.markLeaf a va acc w).1 := by
  unfold State.markLeaf
  dsimp only
  split
  · exact quiet_keepLeaf _ _ _ _
  · split
    · split
      · split
        · exact quiet_keepLeaf _ _ _ _
        · refine quiet_trans ?_ (quiet_loseLeaf _ _ _)
          exact ⟨rfl, rfl⟩
      · exact quiet_refl s
      · exact quiet_refl s
      · exact quiet_refl s
      · exact quiet_refl s
    · split
      · exact quiet_trans (quiet_writeMem _ _ _) (quiet_keepLeaf _ _ _ _)
      · exact quiet_loseLeaf _ _ _

theorem quiet_translateOnce (s : State) (a : Agent) (va : Word) (acc : Access) (gossip : Bool) :
    Quiet s (s.translateOnce a va acc gossip).1 := by
  have h := quiet_probe s a va acc gossip
  unfold State.translateOnce
  split <;> rename_i e <;> rw [e] at h
  · exact quiet_trans h (quiet_markLeaf _ _ _ _ _)
  · exact h

theorem quiet_translate (s : State) (a : Agent) (va : Word) (acc : Access) (gossip : Bool) :
    Quiet s (s.translate a va acc gossip).1 := by
  have h := quiet_translateOnce s a va acc gossip
  unfold State.translate
  split <;> rename_i e <;> rw [e] at h
  · exact h
  · have k := quiet_trans h (quiet_translateOnce _ a va acc gossip)
    split <;> rename_i e' <;> rw [e'] at k <;> exact k

theorem quiet_reach (s : State) (a : Agent) (tid : Nat) (va : Word) (n : Nat) (acc : Access) :
    Quiet s (s.reach a tid va n acc).1 := by
  have h := quiet_probe s a va acc false
  unfold State.reach
  split
  · rename_i e
    rw [e] at h
    split
    · exact h
    · exact quiet_trans h (quiet_translate _ _ _ _ _)
  · exact h

theorem quiet_checkPushes (s : State) (a : Agent) (g d k : Nat) : Quiet s (s.checkPushes a g d k).1 := by
  induction k generalizing s d with
  | zero => exact quiet_refl s
  | succ k ih =>
    rw [State.checkPushes]
    have h := quiet_reach s a (s.team a.core (s.group a.core g).team).tid (s.stackAddr a.core g d) 32 .stack
    split
    · exact quiet_refl s
    · split <;> rename_i e <;> rw [e] at h
      · exact h
      · exact h
      · exact h
      · rename_i u w
        have k := quiet_trans h (ih u (d + 1))
        split
        · rename_i e'
          rw [e'] at k
          exact k
        · exact k

/-! ### The division of a team's slots, and the stop of its engines -/

theorem quiet_onEntry (s : State) (c i : Nat) (f : Landing → Landing) : Quiet s (s.onEntry c i f) :=
  quiet_trans (quiet_onCore _ _ _) (quiet_deviceWrite _ _ _)

theorem quiet_movePlace (s : State) (c g : Nat) (p q : Place) : Quiet s (s.movePlace c g p q) := by
  unfold State.movePlace
  split
  · exact quiet_onEntry _ _ _ _
  · exact quiet_refl s

theorem quiet_push (s : State) (c g : Nat) (w : Where) (e : StackEntry) : Quiet s (s.push c g w e) := by
  unfold State.push
  exact quiet_trans (quiet_writeStack s c g w e) (quiet_onGroup _ _ _ _)

theorem quiet_spill (s : State) (c g m : Nat) (ws : List Where) : Quiet s (s.spill c g m ws) := by
  unfold State.spill
  dsimp only
  refine quiet_trans (quiet_trans (quiet_trans ?_ (quiet_onCore _ _ _)) (quiet_foldl (fun s x => ?_) _ _)) (quiet_onGroup _ _ _ _)
  on_goal 2 => exact quiet_push s c g x.1 x.2
  split
  · exact quiet_movePlace _ _ _ _ _
  · exact quiet_refl s

theorem quiet_place (c g n : Nat) (xs : List Slot) (s : State) (ws : List Where) : Quiet s (s.place c g n xs ws).1 := by
  induction xs generalizing s ws with
  | nil => exact quiet_refl s
  | cons x xs ih =>
    rw [State.place]
    dsimp only
    split
    · exact quiet_trans (quiet_onGroup _ _ _ _) (ih _ _)
    · exact quiet_trans (quiet_trans (quiet_spill _ _ _ _ _) (quiet_onGroup _ _ _ _)) (ih _ _)

theorem quiet_divideTagged (s : State) (c g n : Nat) : Quiet s (s.divideTagged c g n) := by
  unfold State.divideTagged
  dsimp only
  split
  · have h := quiet_checkPushes s (s.serviceAgent c g) g (s.group c g).depth (pushesFor ((s.group c g).slot (other n)) 1)
    split <;> rename_i e <;> rw [e] at h
    · exact quiet_trans h (quiet_askService _ _ _ _)
    · exact quiet_trans h (quiet_trans (quiet_onGroup _ _ _ _) (quiet_place _ _ _ _ _ _))
    · exact h
  · exact quiet_refl s

theorem quiet_divideTeam (s : State) (c n : Nat) : Quiet s (s.divideTeam c n) := by
  unfold State.divideTeam
  refine quiet_foldl (fun s x => ?_) _ _
  exact quiet_trans (quiet_divideTagged s c x.1 0) (quiet_divideTagged _ c x.1 1)

theorem quiet_preemptOps (s : State) (c n : Nat) (on : Bool) : Quiet s (s.preemptOps c n on) := by
  unfold State.preemptOps
  dsimp only
  refine quiet_foldl (fun s x => ?_) _ _
  obtain ⟨k, e, op⟩ := x
  dsimp only
  split
  · exact quiet_setOp _ _ _ _
  · exact quiet_refl s

theorem quiet_beginMove (s : State) (c n : Nat) : Quiet s (s.beginMove c n) := by
  unfold State.beginMove
  refine quiet_trans ?_ (quiet_preemptOps _ _ _ _)
  refine quiet_trans ?_ (quiet_divideTeam _ _ _)
  exact quiet_onTeam _ _ _ _

end Quiet

end Sys2Proof.Proofs
end

section
/-! SUPPORT. How a team leaves its core (R125, R126, R129, R142). -/

namespace Sys2Proof.Proofs

open Sys2Proof Machine Laws Forms Statements

/-! ### Bytes at virtual addresses, for the device's own services -/

section Served

/-- Bytes move for the device itself, and nothing else happens. -/
structure Served (s t : State) : Prop extends Aside s t, Quiet s t

variable {s t u : State}

theorem served_refl (s : State) : Served s s := ⟨aside_refl s, quiet_refl s⟩

theorem served_trans (h : Served s t) (k : Served t u) : Served s u :=
  ⟨aside_trans h.toAside k.toAside, quiet_trans h.toQuiet k.toQuiet⟩

theorem served_translate (s : State) (a : Agent) (va : Word) (acc : Access) : Served s (s.translate a va acc).1 :=
  ⟨aside_translate _ _ _ _ _, quiet_translate _ _ _ _ _⟩

theorem served_places (s : State) (a : Agent) (acc : Access) (ps : List (Word × Nat)) : Served s (s.places a acc ps).1 := by
  induction ps generalizing s with
  | nil => exact served_refl s
  | cons p ps ih =>
    obtain ⟨va, n⟩ := p
    rw [State.places]
    have h := served_translate s a va acc
    split <;> rename_i e <;> rw [e] at h
    · exact h
    · exact h
    · exact h
    · have k := served_trans h (ih _)
      split
      · rename_i e'
        rw [e'] at k
        exact k
      · exact k

theorem served_writePlaces (s : State) (ps : List (Nat × Nat)) (bs : List Byte) : Served s (s.writePlaces ps bs) := by
  induction ps generalizing s bs with
  | nil => exact served_refl s
  | cons p ps ih => exact served_trans ⟨aside_deviceWrite _ _ _, quiet_deviceWrite _ _ _⟩ (ih _ _)

theorem served_store (s : State) (a : Agent) (va : Word) (bs : List Byte) : Served s (s.store a va bs).1 := by
  have h := served_places s a .write (pieces (bs.length + 1) va bs.length)
  unfold State.store
  split <;> rename_i e <;> rw [e] at h
  · exact served_trans h (served_writePlaces _ _ _)
  · exact h

theorem served_fetch (s : State) (a : Agent) (va : Word) (n : Nat) : Served s (s.fetch a va n).1 := by
  have h := served_places s a .read (pieces (n + 1) va n)
  unfold State.fetch
  split <;> rename_i e <;> rw [e] at h <;> exact h

theorem served_findSlip (s : State) (a : Agent) (p : SlipSlot → Bool) (k : Nat) (va : Word) : Served s (s.findSlip a p k va).1 := by
  induction k generalizing s va with
  | zero => exact served_refl s
  | succ k ih =>
    rw [State.findSlip]
    have h := served_fetch s a va 32
    split <;> rename_i e <;> rw [e] at h
    · split
      · exact h
      · exact served_trans h (ih _ _)
    · exact h

theorem served_setSlip (s : State) (a : Agent) (x : SlipSlot) (st : Nat) : Served s (s.setSlip a x st).1 := served_store _ _ _ _

theorem aside_stopped (s : State) (c n : Nat) : Aside s (s.stopped c n).1 := by
  unfold State.stopped
  dsimp only
  split
  · exact aside_refl s
  · refine aside_trans (t := s.publishAll c) ?_ (aside_foldl (fun s x => ?_) _ _)
    · unfold State.publishAll
      exact aside_foldl (fun s x => aside_publishSector s c x) _ _
    · exact aside_release s c x.1

end Served

/-! ### The operations of a team -/

section Ops

variable {s t u : State}

theorem resident_preemptOps (s : State) (c n : Nat) (on : Bool) : Resident s (s.preemptOps c n on) := by
  unfold State.preemptOps
  dsimp only
  refine resident_foldl (fun s x => ?_) _ _
  obtain ⟨k, e, op⟩ := x
  dsimp only
  split
  · exact resident_setOp _ _ _ _
  · exact resident_refl s

theorem resident_unparkOps (s : State) (c n : Nat) : Resident s (s.unparkOps c n) := by
  unfold State.unparkOps
  dsimp only
  refine resident_foldl (fun s x => ?_) _ _
  obtain ⟨k, e, op⟩ := x
  dsimp only
  split
  · exact resident_refl s
  · split
    · exact resident_cancelOp _ _ _
    · split <;> exact resident_setOp _ _ _ _

theorem teams_preemptOps (s : State) (c n : Nat) (on : Bool) (d : Nat) :
    ((s.preemptOps c n on).core d).teams = (s.core d).teams := by
  unfold State.preemptOps
  dsimp only
  generalize s.attachedOps _ _ = l
  induction l generalizing s with
  | nil => rfl
  | cons x l ih =>
    refine (ih _).trans ?_
    obtain ⟨k, e, op⟩ := x
    dsimp only
    split
    · exact teams_onCore s k (fun _ => by rfl) d
    · rfl

theorem resident_forwardOp (s : State) (asid : Nat) (va : Word) (c e : Nat) (op : Op) : Resident s (s.forwardOp asid va c e op) := by
  unfold State.forwardOp
  dsimp only
  refine resident_trans ?_ (resident_setToken _ _ _ _)
  refine resident_trans ?_ (resident_setToken _ _ _ _)
  exact resident_disownUnit s c e

theorem resident_forwardOps (s : State) (c n asid : Nat) (toks : Word) : Resident s (s.forwardOps c n asid toks) := by
  unfold State.forwardOps
  dsimp only
  refine resident_trans ?_ (resident_foldl (fun s x => ?_) _ _)
  · refine resident_foldl (fun s x => ?_) _ _
    obtain ⟨⟨k, e, op⟩, i⟩ := x
    exact resident_forwardOp _ _ _ _ _ _
  · obtain ⟨k, e, op⟩ := x
    exact resident_trans (resident_forwardsEnd _ _ _) (resident_setToken _ _ _ _)

end Ops

/-! ### The record is written (R142, R168) -/

section SaveTeam

variable {s t u : State} {c n : Nat}

/-- The group slots that a team gives up. -/
def givenUp (s : State) (c n : Nat) : List Nat :=
  ((s.core c).groups.filter fun e => e.1 != Config.supervisorSlot && (e.2.team == n && e.2.keeps)).map (·.1)

/-- A core without a team and its group slots. -/
def coreWithout (n : Nat) (slots : List Nat) (k : Core) : Core :=
  { k with groups := k.groups.keep fun g _ => !slots.contains g, teams := k.teams.erase n,
           grows := k.grows.filter fun q => !slots.contains q.gslot }

theorem dropTeam_eq (s : State) (c n : Nat) : ∃ u, Resident s u ∧ u.saved = s.saved
    ∧ s.dropTeam c n = u.onCore c (coreWithout n (givenUp s c n)) := by
  refine ⟨(s.core c).landing.foldl (fun s (i, e) => if e.state != .free && e.team == n then s.freeEntry c i else s) s,
    resident_foldl (fun s x => ?_) _ _, Quiet.saved (quiet_foldl (fun s x => ?_) _ _), rfl⟩ <;> dsimp only <;> split
  · exact resident_freeEntry _ _ _
  · exact resident_refl s
  · exact quiet_onEntry _ _ _ _
  · exact quiet_refl s

theorem supervisor_kept (s : State) (c n : Nat) : (!(givenUp s c n).contains Config.supervisorSlot) = true := by
  rw [Bool.not_eq_true', ← Bool.not_eq_true, List.contains_iff_mem]
  intro h
  obtain ⟨x, hx, he⟩ := List.mem_map.mp h
  have := (List.mem_filter.mp hx).2
  simp [he] at this

theorem dropTeam_spec (s : State) (c n : Nat) : Steady s (s.dropTeam c n) ∧ (s.dropTeam c n).hasTeam c n = false
    ∧ (s.dropTeam c n).saved = s.saved := by
  obtain ⟨u, hu, hs, he⟩ := dropTeam_eq s c n
  rw [he]
  have hsup := supervisor_kept s c n
  refine ⟨steady_trans hu.toSteady ⟨rfl, fun d => ?_, fun d m => ?_⟩, ?_, hs⟩
  · rw [core_onCore]
    split <;> rename_i hd
    · rw [hd]
      rfl
    · rfl
  · rw [State.group, State.group, core_onCore]
    split <;> rename_i hd
    · rw [hd, coreWithout, Store.get, Store.get, find_keep _ _ (fun g => !(givenUp s c n).contains g) (fun _ _ => rfl), if_pos hsup]
    · rfl
  · rw [State.hasTeam, core_onCore_same, coreWithout, find_erase_same]
    rfl

/-- The team at an index of a core has left it and stands saved, with the reasons that it goes on being halted for. -/
structure TeamLeft (s t : State) (c n : Nat) : Prop extends Steady s t where
  gone : t.hasTeam c n = false
  kept : ∃ x ∈ t.saved, x.launch = (s.team c n).launch ∧ x.tid = (s.team c n).tid ∧ x.asid = (s.team c n).asid
    ∧ x.halts = (s.team c n).halts.filter fun r => r != .dump && r != .late

theorem teamLeft_of_steady (h : Steady s t) (ht : t.team c n = s.team c n) (k : TeamLeft t u c n) : TeamLeft s u c n := by
  obtain ⟨hs, hg, hk⟩ := k
  rw [ht] at hk
  exact ⟨steady_trans h hs, hg, hk⟩

theorem team_of_aside (h : Aside s t) (c n : Nat) : t.team c n = s.team c n := by
  rw [State.team, teams_of_aside h]
  rfl

theorem bind_ne_ok {α β : Type} {r : Res α} {f : α → Res β} (h : ∀ a, r ≠ .ok a) (b : β) : r.bind f ≠ .ok b := by
  cases r with
  | ok a => exact absurd rfl (h a)
  | no => simp [Res.bind]
  | need => simp [Res.bind]
  | away => simp [Res.bind]

/-- Once the record and the slot are written, the team has left; else it stays, and nothing but bytes has moved. -/
theorem saveTeam_spec {slip : SlipSlot} {r : Res Nat} (h : s.saveTeam c n slip = (u, r)) :
    (r = .ok 0 ∧ TeamLeft s u c n) ∨ ((∀ k, r ≠ .ok k) ∧ Aside s u) := by
  unfold State.saveTeam at h
  dsimp only at h
  have h1 := (served_store s (s.svcAgent c (s.team c n).asid) slip.record
    (s.teamRecord c n 1 ((s.recordOps c n).map fun o => o.2.2))).toAside
  split at h <;> rename_i e <;> rw [e] at h1 <;> dsimp only at h1
  · rename_i v _
    have h2 := aside_trans h1 (served_store v (s.svcAgent c (s.team c n).asid) (slip.at_ + 8)
      (leBytes 8 (s.team c n).launch.toNat ++ leBytes 4 (s.team c n).tid ++ leBytes 1 1)).toAside
    split at h <;> rename_i e' <;> rw [e'] at h2 <;> dsimp only at h2
    · rename_i w _
      obtain ⟨rfl, rfl⟩ := Prod.mk.inj h
      have hforward := (resident_forwardOps w c n (s.team c n).asid (slip.record + Rec.word
        (s.teamRecord c n 1 ((s.recordOps c n).map fun o => o.2.2)).toArray (0x38 + 48))).toSteady
      obtain ⟨hsteady, hgone, -⟩ := dropTeam_spec (w.forwardOps c n (s.team c n).asid (slip.record + Rec.word
        (s.teamRecord c n 1 ((s.recordOps c n).map fun o => o.2.2)).toArray (0x38 + 48))) c n
      generalize (w.forwardOps c n _ _).dropTeam c n = x at *
      have hcount := resident_count x c (s.team c n).asid 14 1
      refine .inl ⟨rfl, ?_, ?_, _, List.mem_append_right _ (List.mem_singleton_self _), rfl, rfl, rfl, rfl⟩
      · refine steady_trans (steady_trans (steady_trans (resident_of_aside h2).toSteady hforward)
          (steady_trans hsteady hcount.toSteady)) ?_
        refine (resident_of_cores ?_ ?_).toSteady <;> rfl
      · have hcountTeams : ((x.count c (s.team c n).asid 14 1).core c).teams = (x.core c).teams := teams_onCore x c (fun _ => by rfl) c
        rw [State.hasTeam] at hgone ⊢
        rw [← hgone, ← hcountTeams]
        rfl
    · rename_i hne
      obtain ⟨rfl, rfl⟩ := Prod.mk.inj h
      exact .inr ⟨bind_ne_ok fun _ ha => hne _ (by rw [ha]), h2⟩
  · rename_i hne
    obtain ⟨rfl, rfl⟩ := Prod.mk.inj h
    exact .inr ⟨bind_ne_ok fun _ ha => hne _ (by rw [ha]), h1⟩

end SaveTeam

/-! ### The move ends (R125, R129, R391) -/

section ContinueOut

variable {s t u : State} {c n m : Nat}

theorem steady_setTeam (s : State) (c n : Nat) (x : Team) : Steady s (s.setTeam c n x) :=
  steady_onCore (fun _ => by exact ⟨rfl, rfl⟩)

theorem hasTeam_setTeam_same (s : State) (c n : Nat) (x : Team) : (s.setTeam c n x).hasTeam c n = true := by
  rw [State.hasTeam, State.setTeam, core_onCore_same]
  dsimp only
  rw [find_set_same]
  rfl

theorem abandonMove_spec (s : State) (c n : Nat) : Steady s (s.abandonMove c n)
    ∧ (s.hasTeam c n = true → (s.abandonMove c n).hasTeam c n = true ∧ ((s.abandonMove c n).team c n).moving = false) := by
  have hresident : Resident (s.onTeam c n fun x => { x with moving := false, hostAsked := false }) (s.abandonMove c n) := by
    unfold State.abandonMove
    refine resident_trans ?_ (resident_readyAgain _ _ _)
    refine resident_trans ?_ (resident_unparkOps _ _ _)
    exact resident_preemptOps _ _ _ _
  refine ⟨steady_trans (steady_setTeam _ _ _ _) hresident.toSteady, fun h => ?_⟩
  have hteam := team_onTeam s c n c n fun x => { x with moving := false, hostAsked := false }
  obtain ⟨ht, hm⟩ := hresident.team c n (hasTeam_setTeam_same _ _ _ _)
  rw [hteam, if_pos ⟨rfl, rfl⟩] at hm
  exact ⟨ht, hm⟩

theorem contains_haltTeam (h : s.hasTeam c n = true) (r : HaltReason) (aux : Word) :
    ((s.haltTeam c n r aux).team c n).halts.contains r = true := by
  rw [State.team, teams_haltTeam h, ← State.team, haltNoted, team_setTeam, if_pos ⟨rfl, rfl⟩]
  dsimp only
  split
  · assumption
  · simp

theorem keepTeam_spec (s : State) (c n : Nat) : Resident s (s.keepTeam c n)
    ∧ (s.hasTeam c n = true → (s.core c).leaving = true → ((s.keepTeam c n).team c n).unsaved = true) := by
  unfold State.keepTeam
  split <;> rename_i hl
  · exact ⟨resident_haltTeam _ _ _ _ _, fun h _ => contains_haltTeam h _ _⟩
  · exact ⟨resident_refl s, fun _ h => absurd h hl⟩

theorem finishOut_spec {r : Res Nat} (h : s.finishOut c n = (u, r)) : (r = .ok 0 ∧ TeamLeft s u c n)
    ∨ (r = .ok 5 ∧ ∃ v, Aside s v ∧ u = v.abandonMove c n) ∨ ((∀ k, r ≠ .ok k) ∧ Aside s u) := by
  unfold State.finishOut at h
  dsimp only at h
  have h1 := (served_findSlip s (s.svcAgent c (s.team c n).asid) SlipSlot.usable slipSlots (s.regs c (s.team c n).asid).slip).toAside
  split at h <;> rename_i e <;> rw [e] at h1 <;> dsimp only at h1
  · rcases saveTeam_spec h with ⟨hr, hl⟩ | ⟨hr, hu⟩
    · exact .inl ⟨hr, teamLeft_of_steady (resident_of_aside h1).toSteady (team_of_aside h1 c n) hl⟩
    · exact .inr (.inr ⟨hr, aside_trans h1 hu⟩)
  · obtain ⟨rfl, rfl⟩ := Prod.mk.inj h
    exact .inr (.inl ⟨rfl, _, h1, rfl⟩)
  · rename_i hsome hnone
    obtain ⟨rfl, rfl⟩ := Prod.mk.inj h
    refine .inr (.inr ⟨bind_ne_ok fun y hy => ?_, h1⟩)
    cases y with
    | none => exact hnone (by rw [hy])
    | some y => exact hsome _ (by rw [hy])

/-- The team stays: it is not moving any more, and on a core that gives up its teams it is halted. -/
structure TeamStays (s t : State) (c n : Nat) : Prop extends Steady s t where
  here : t.hasTeam c n = true
  still : (t.team c n).moving = false
  halted : (s.core c).leaving = true → (t.team c n).unsaved = true

theorem leaving_of_steady (h : Steady s t) (c : Nat) : (t.core c).leaving = (s.core c).leaving := by
  rw [Core.leaving, Core.leaving, h.svc]

/-- A move that is given up, with what the core makes of the team. -/
theorem teamStays_abandon (h : Resident s t) (ht : s.hasTeam c n = true) :
    TeamStays s (((t.abandonMove c n).keepTeam c n).svcDone c) c n := by
  obtain ⟨habandon, hmoving⟩ := abandonMove_spec t c n
  obtain ⟨hthere, hstill⟩ := hmoving (h.team c n ht).1
  obtain ⟨hkeep, hunsaved⟩ := keepTeam_spec (t.abandonMove c n) c n
  obtain ⟨hhere, hsame⟩ := hkeep.team c n hthere
  have hdone := resident_svcDone ((t.abandonMove c n).keepTeam c n) c
  have hteam : (((t.abandonMove c n).keepTeam c n).svcDone c).team c n = ((t.abandonMove c n).keepTeam c n).team c n := by
    rw [State.team, State.svcDone, teams_onCore _ _ fun _ => by rfl]
    rfl
  have hsteady := steady_trans h.toSteady habandon
  refine ⟨steady_trans hsteady (steady_trans hkeep.toSteady hdone.toSteady), (hdone.team c n hhere).1, ?_, fun hl => ?_⟩
  · rw [hteam, hsame, hstill]
  · rw [hteam]
    exact hunsaved hthere ((leaving_of_steady hsteady c).trans hl)

/-- The team's slots are divided and its engines asked to stop, once more: what a move goes on from. -/
theorem stopping_spec (s : State) (c n : Nat) : Resident s ((s.divideTeam c n).preemptOps c n true)
    ∧ ((s.divideTeam c n).preemptOps c n true).team c n = s.team c n := by
  refine ⟨resident_trans (resident_divideTeam s c n) (resident_preemptOps _ _ _ _), ?_⟩
  rw [State.team, teams_preemptOps, (entriesKept_divideTeam s c n).teams]
  rfl

/-- A move that has ended leaves the team saved, or where it was. -/
theorem continueOut_spec (h : s.continueOut c n = (u, some m)) :
    (m = 0 ∧ TeamLeft s u c n) ∨ (m ≠ 0 ∧ (s.hasTeam c n = true → TeamStays s u c n)) := by
  obtain ⟨hresident, hteam⟩ := stopping_spec s c n
  unfold State.continueOut at h
  dsimp only at h
  generalize (s.divideTeam c n).preemptOps c n true = v at *
  have h1 := aside_stopped v c n
  split at h <;> rename_i e <;> rw [e] at h1 <;> dsimp only at h1
  · cases (Prod.mk.inj h).2
  · rename_i w
    have hw : Resident s w := resident_trans hresident (resident_of_aside h1)
    have hwteam : w.team c n = s.team c n := (team_of_aside h1 c n).trans hteam
    split at h <;> rename_i e'
    · rename_i x k
      obtain ⟨rfl, hm⟩ := Prod.mk.inj h
      obtain rfl := Option.some.inj hm
      rcases finishOut_spec e' with ⟨hr, hl⟩ | ⟨hr, y, hy, rfl⟩ | ⟨hr, -⟩
      · cases hr
        refine .inl ⟨rfl, ?_⟩
        obtain ⟨hsteady, hgone, hkept⟩ := teamLeft_of_steady hw.toSteady hwteam hl
        rw [if_pos rfl]
        have hdone := resident_svcDone x c
        refine ⟨steady_trans hsteady hdone.toSteady, ?_, hkept⟩
        rw [State.hasTeam, State.svcDone, teams_onCore _ _ fun _ => by rfl]
        exact hgone
      · cases hr
        refine .inr ⟨by decide, fun ht => ?_⟩
        rw [if_neg (by decide)]
        exact teamStays_abandon (resident_trans hw (resident_of_aside hy)) ht
      · exact absurd rfl (hr k)
    · obtain ⟨rfl, hm⟩ := Prod.mk.inj h
      obtain rfl := Option.some.inj hm
      rcases finishOut_spec e' with ⟨hr, -⟩ | ⟨hr, -⟩ | ⟨-, hx⟩
      · cases hr
      · cases hr
      · exact .inr ⟨by decide, fun ht => teamStays_abandon (resident_trans hw (resident_of_aside hx)) ht⟩
    · cases (Prod.mk.inj h).2
    · cases (Prod.mk.inj h).2

end ContinueOut

end Sys2Proof.Proofs
end

section
/-! SUPPORT. `team.out`, the rotation and the host's swap-out (R126, R129, R131, R142, R168). -/

namespace Sys2Proof.Proofs

open Sys2Proof Machine Laws Forms Statements

/-! ### A team that begins to leave -/

section BeginMove

variable {s t u v : State} {c n m : Nat}

theorem team_beginMove (s : State) (c n : Nat) : (s.beginMove c n).team c n = { s.team c n with moving := true } := by
  unfold State.beginMove
  dsimp only
  rw [State.team, teams_preemptOps, (entriesKept_divideTeam _ c n).teams, ← State.team, team_onTeam, if_pos ⟨rfl, rfl⟩]

theorem steady_beginMove (s : State) (c n : Nat) : Steady s (s.beginMove c n) := by
  unfold State.beginMove
  dsimp only
  refine steady_trans ?_ (resident_preemptOps _ _ _ _).toSteady
  refine steady_trans ?_ (resident_divideTeam _ _ _).toSteady
  exact steady_setTeam _ _ _ _

theorem hasTeam_beginMove (s : State) (c n : Nat) : (s.beginMove c n).hasTeam c n = true := by
  unfold State.beginMove
  dsimp only
  rw [State.hasTeam, teams_preemptOps, (entriesKept_divideTeam _ c n).teams]
  exact hasTeam_setTeam_same _ _ _ _

/-- What a move has left of a team that was in no dump, seen from before the move began. -/
theorem hasLeft_of_teamLeft (ht : ∃ on ask, v.team c n = { s.team c n with moving := on, hostAsked := ask })
    (hd : (s.team c n).dumped = false) (h : TeamLeft v u c n) : hasLeft s u c n := by
  obtain ⟨on, ask, ht⟩ := ht
  obtain ⟨-, hgone, x, hx, hl, hi, ha, hh⟩ := h
  rw [ht] at hl hi ha hh
  refine ⟨hgone, x, hx, hl, hi, ha, hh.trans (List.filter_eq_self.mpr fun r hr => ?_)⟩
  rw [Team.dumped, Bool.or_eq_false_iff] at hd
  obtain ⟨hdump, hlate⟩ := hd
  have hne : ∀ q, (s.team c n).halts.contains q = false → r ≠ q := fun q hq e => by
    rw [← e, List.contains_eq_mem, decide_eq_false_iff_not] at hq
    exact hq hr
  simp [hne _ hdump, hne _ hlate]

/-- What both ends of a move say of the team, seen from before the move began. -/
def moveEnds (s t : State) (c n m : Nat) : Prop :=
  if m = 0 then hasLeft s t c n
  else t.hasTeam c n = true ∧ (t.team c n).moving = false ∧ ((s.core c).leaving = true → (t.team c n).unsaved = true)

theorem moveEnds_continueOut (hs : Steady s v) (ht : ∃ on ask, v.team c n = { s.team c n with moving := on, hostAsked := ask })
    (hv : v.hasTeam c n = true) (hd : (s.team c n).dumped = false) (h : v.continueOut c n = (u, some m)) :
    Steady s u ∧ moveEnds s u c n m := by
  rcases continueOut_spec h with ⟨rfl, hl⟩ | ⟨hm, hstays⟩
  · exact ⟨steady_trans hs hl.toSteady, hasLeft_of_teamLeft ht hd hl⟩
  · obtain ⟨hsteady, hhere, hstill, hhalted⟩ := hstays hv
    refine ⟨steady_trans hs hsteady, ?_⟩
    rw [moveEnds, if_neg hm]
    exact ⟨hhere, hstill, fun hl => hhalted ((leaving_of_steady hs c).trans hl)⟩

theorem moveEnds_beginMove (hd : (s.team c n).dumped = false) (h : (s.beginMove c n).continueOut c n = (u, some m)) :
    Steady s u ∧ moveEnds s u c n m :=
  moveEnds_continueOut (steady_beginMove s c n) ⟨true, (s.team c n).hostAsked, team_beginMove s c n⟩ (hasTeam_beginMove s c n) hd h

/-- The end of the instruction changes nothing of this. -/
theorem moveEnds_of_same (ht : (t.core c).teams = (u.core c).teams) (hs : t.saved = u.saved) (h : moveEnds s u c n m) :
    moveEnds s t c n m := by
  have hteam : t.team c n = u.team c n := by rw [State.team, ht]; rfl
  have hhas : t.hasTeam c n = u.hasTeam c n := by rw [State.hasTeam, ht]; rfl
  unfold moveEnds hasLeft at *
  rwa [hteam, hhas, hs]

end BeginMove

/-! ### `team.out` -/

section TeamOut

variable {s u : State} {o : PrivOp} {m : Nat}

theorem privGives_of_answerPriv {i : Instr} {also : State → Prop} (hg : s.cur.gslot = Config.supervisorSlot)
    (he : exec i s = .next (u.answerPriv i o.d m)) (hu : Steady s u) (ha : ∀ t, u.elsewhereSame t → also t) :
    privGives i o s (BitVec.ofNat 64 m) also := privGives_of_answer hg he hu ha

theorem teams_of_elsewhereSame (h : s.elsewhereSame u) (c : Nat) : (u.core c).teams = (s.core c).teams := by
  obtain ⟨-, hcore, -, -⟩ := h
  rw [hcore c]

theorem saved_of_elsewhereSame (h : s.elsewhereSame u) : u.saved = s.saved := by rw [h.1]

theorem exec_teamOut_absent (h : supervises (.teamOut o) o s)
    (hn : 64 ≤ (s.me.opt o.a).toNat ∨ s.hasTeam s.cur.core (s.me.opt o.a).toNat = false) :
    exec (.teamOut o) s = .next (s.answerPriv (.teamOut o) o.d 1) := by
  obtain ⟨hiss, -, ha⟩ := h
  have he : exec (.teamOut o) s = execTeamOut o s := rfl
  unfold execTeamOut at he
  rw [exec_of_active he hiss ha]
  dsimp only
  rw [if_pos (by rcases hn with h | h <;> simp [h])]

theorem exec_teamOut_begins (h : supervises (.teamOut o) o s) (hn : (s.me.opt o.a).toNat < 64)
    (ht : s.hasTeam s.cur.core (s.me.opt o.a).toNat = true) (hm : (s.team s.cur.core (s.me.opt o.a).toNat).moving = false)
    (hd : (s.team s.cur.core (s.me.opt o.a).toNat).dumped = false) (ho : s.ownMove (s.me.opt o.a).toNat = false) :
    ((s.team s.cur.core (s.me.opt o.a).toNat).unsaved = true → exec (.teamOut o) s = .next (s.answerPriv (.teamOut o) o.d 3))
    ∧ ∀ u m, (s.team s.cur.core (s.me.opt o.a).toNat).unsaved = false →
        (s.beginMove s.cur.core (s.me.opt o.a).toNat).continueOut s.cur.core (s.me.opt o.a).toNat = (u, some m) →
      exec (.teamOut o) s = .next (u.answerPriv (.teamOut o) o.d (if m = 5 then 3 else m)) := by
  obtain ⟨hiss, -, ha⟩ := h
  have he : exec (.teamOut o) s = execTeamOut o s := rfl
  unfold execTeamOut at he
  rw [exec_of_active he hiss ha]
  dsimp only
  rw [if_neg (by simp [ht, hn]), if_neg (by simp [ho]), if_neg (by simp [hm, hd])]
  refine ⟨fun hu => by rw [if_pos hu], fun u m hu hc => ?_⟩
  rw [if_neg (by simp [hu]), hc]

theorem teamOut_absent (h : supervises (.teamOut o) o s)
    (hn : 64 ≤ (s.me.opt o.a).toNat ∨ s.hasTeam s.cur.core (s.me.opt o.a).toNat = false) :
    privGives (.teamOut o) o s 1 fun t => s.elsewhereSame t :=
  privGives_of_answerPriv (m := 1) h.2.1 (exec_teamOut_absent h hn) (steady_refl s) fun _ ht => ht

theorem teamOut_unsaved (h : supervises (.teamOut o) o s) (hn : (s.me.opt o.a).toNat < 64)
    (ht : s.hasTeam s.cur.core (s.me.opt o.a).toNat = true) (hm : (s.team s.cur.core (s.me.opt o.a).toNat).moving = false)
    (hd : (s.team s.cur.core (s.me.opt o.a).toNat).dumped = false)
    (hu : (s.team s.cur.core (s.me.opt o.a).toNat).unsaved = true) (ho : s.ownMove (s.me.opt o.a).toNat = false) :
    privGives (.teamOut o) o s 3 fun t => s.elsewhereSame t :=
  privGives_of_answerPriv (m := 3) h.2.1 ((exec_teamOut_begins h hn ht hm hd ho).1 hu) (steady_refl s) fun _ ht => ht

theorem teamOut_moves (h : supervises (.teamOut o) o s) (hmay : mayLeave s s.cur.core (s.me.opt o.a).toNat)
    (ho : s.ownMove (s.me.opt o.a).toNat = false)
    (hc : (s.beginMove s.cur.core (s.me.opt o.a).toNat).continueOut s.cur.core (s.me.opt o.a).toNat = (u, some m)) :
    privGives (.teamOut o) o s (if m = 5 then 3 else BitVec.ofNat 64 m) fun t =>
      moveEnds s t s.cur.core (s.me.opt o.a).toNat m := by
  obtain ⟨hn, ht, hm, hd, hu⟩ := hmay
  obtain ⟨hsteady, hends⟩ := moveEnds_beginMove hd hc
  have hval : (if m = 5 then 3 else BitVec.ofNat 64 m) = BitVec.ofNat 64 (if m = 5 then 3 else m) := by split <;> rfl
  rw [hval]
  exact privGives_of_answerPriv h.2.1 ((exec_teamOut_begins h hn ht hm hd ho).2 u m hu hc) hsteady fun t hsame =>
    moveEnds_of_same (teams_of_elsewhereSame hsame _) (saved_of_elsewhereSame hsame) hends

end TeamOut

/-! ### The rotation and the host's swap-out -/

section SwapOut

variable {s u : State} {c n m a : Nat} {w : Word}

theorem steps_of_happen {i : Instr} {f : State → State} (hwf : wellFormed i = true) (he : exec i s = happen i s f) :
    steps i s (f s) := ⟨hwf, by rw [he, happen, if_pos hwf]⟩

theorem steps_of_reachBar {i : Instr} {f : State → State} (hwf : wellFormed i = true) (hb : s.boot ≠ .ioOnly)
    (he : exec i s = reachBar i s f) : steps i s (f s) := by
  have h := steps_of_happen hwf he
  rwa [if_neg (by simpa using hb)] at h

theorem rotation_moves (hwf : wellFormed (.rotation c n) = true) (hmay : mayLeave s c n) (htrip : s.tripped = false)
    (hl : (s.team c n).halted = false ∨ (s.core c).leaving = true) (hmine : (s.core c).faulted = true ∨ s.movedHere c n = false)
    (hask : (s.team c n).hostAsked = false) (hc : (s.beginMove c n).continueOut c n = (u, some m)) :
    ∃ t, steps (.rotation c n) s t ∧ moveEnds s t c n m := by
  obtain ⟨hn, ht, hm, hd, hu⟩ := hmay
  have hu' : (s.team c n).halts.contains .unsaved = false := hu
  have he : exec (.rotation c n) s = execRotation c n s := rfl
  unfold execRotation at he
  have hsteps := steps_of_happen hwf he
  dsimp only at hsteps
  rw [hu', if_neg (by rcases hmine with h | h <;> simp [ht, htrip, h]), if_neg (by rcases hl with h | h <;> simp [hm, hd, h]),
    if_neg (by simp [hm]), hc] at hsteps
  dsimp only at hsteps
  rw [if_neg (by simp [hask])] at hsteps
  exact ⟨u, hsteps, (moveEnds_beginMove hd hc).2⟩

theorem swapstat_swapDone (s : State) (a n : Nat) : ((s.swapDone a n).ctx a).swapstat = BitVec.ofNat 64 n := by
  rw [State.swapDone, ctx_onCtx, if_pos rfl]

/-- A team that the host asks to leave. -/
def askedOut (s : State) (c n a : Nat) : State :=
  ((s.beginMove c n).onTeam c n fun x => { x with hostAsked := true }).onCtx a fun y => { y with swapstat := 0x100 }

theorem quiet_askedOut (s : State) (c n a : Nat) : Quiet s (askedOut s c n a) := by
  unfold askedOut
  refine quiet_trans ?_ (quiet_onCtx _ _ _)
  refine quiet_trans ?_ (quiet_onTeam _ _ _ _)
  exact quiet_beginMove s c n

theorem team_askedOut (s : State) (c n a : Nat) :
    (askedOut s c n a).team c n = { s.team c n with moving := true, hostAsked := true } := by
  unfold askedOut
  rw [team_of_aside (aside_onCtx _ _ _), team_onTeam, if_pos ⟨rfl, rfl⟩, team_beginMove]

theorem steady_askedOut (s : State) (c n a : Nat) : Steady s (askedOut s c n a) := by
  unfold askedOut
  refine steady_trans ?_ (resident_of_aside (aside_onCtx _ _ _)).toSteady
  refine steady_trans ?_ (steady_setTeam _ _ _ _)
  exact steady_beginMove s c n

theorem hasTeam_askedOut (s : State) (c n a : Nat) : (askedOut s c n a).hasTeam c n = true := by
  unfold askedOut
  rw [State.hasTeam, teams_of_aside (aside_onCtx _ _ _)]
  exact hasTeam_setTeam_same _ _ _ _

section Swapreq

variable (hwf : wellFormed (.swapreqOut a w) = true) (hb : s.boot ≠ .ioOnly) (hbusy : s.swapBusy a = false)
  (hw : w.extractLsb' 40 2 = 1)
include hwf hb hbusy hw

/-- SWAPREQ 1 for a team that is not here. -/
theorem swapreqOut_absent (hf : s.findTeam (s.ctx a).swapl (w.extractLsb' 0 32).toNat = none) :
    steps (.swapreqOut a w) s (s.swapDone a 6) := by
  have he : exec (.swapreqOut a w) s = execSwapreqOut a w s := rfl
  unfold execSwapreqOut at he
  have hsteps := steps_of_reachBar hwf hb he
  dsimp only at hsteps
  rwa [if_neg (by simp [hbusy, hw]), hf] at hsteps

/-- SWAPREQ 1 for a team that is here and is not leaving. -/
theorem swapreqOut_found (hf : s.findTeam (s.ctx a).swapl (w.extractLsb' 0 32).toNat = some (c, n)) (ha : (s.team c n).asid = a)
    (hm : (s.team c n).moving = false) (hd : (s.team c n).dumped = false) (htrip : s.tripped = false) :
    ((s.team c n).unsaved = true → steps (.swapreqOut a w) s (s.swapDone a 3))
    ∧ ∀ u m, (s.team c n).unsaved = false → (askedOut s c n a).continueOut c n = (u, some m) →
      steps (.swapreqOut a w) s (u.swapDone a m) := by
  have he : exec (.swapreqOut a w) s = execSwapreqOut a w s := rfl
  unfold execSwapreqOut at he
  have hsteps := steps_of_reachBar hwf hb he
  dsimp only at hsteps
  rw [if_neg (by simp [hbusy, hw]), hf] at hsteps
  dsimp only at hsteps
  rw [if_neg (by simp [ha]), if_neg (by simp [hm, hd])] at hsteps
  refine ⟨fun hu => ?_, fun u m hu hc => ?_⟩
  · rw [if_pos hu] at hsteps
    exact hsteps
  have ht : (askedOut s c n a).tripped = false := (quiet_askedOut s c n a).tripped.trans htrip
  rw [if_neg (by simp [hu]), ← askedOut, if_neg (by simp [ht]), hc] at hsteps
  exact hsteps

end Swapreq

theorem swapreqOut_moves (hwf : wellFormed (.swapreqOut a w) = true) (hb : s.boot ≠ .ioOnly) (htrip : s.tripped = false)
    (hbusy : s.swapBusy a = false) (hw : w.extractLsb' 40 2 = 1)
    (hf : s.findTeam (s.ctx a).swapl (w.extractLsb' 0 32).toNat = some (c, n)) (ha : (s.team c n).asid = a) (hmay : mayLeave s c n)
    (hc : (askedOut s c n a).continueOut c n = (u, some m)) :
    ∃ t, steps (.swapreqOut a w) s t ∧ (t.ctx a).swapstat = BitVec.ofNat 64 m ∧ (m = 0 → hasLeft s t c n) := by
  obtain ⟨hn, ht, hm, hd, hu⟩ := hmay
  refine ⟨_, (swapreqOut_found hwf hb hbusy hw hf ha hm hd htrip).2 u m hu hc, swapstat_swapDone u a m, fun h0 => ?_⟩
  obtain ⟨-, hends⟩ := moveEnds_continueOut (steady_askedOut s c n a) ⟨true, true, team_askedOut s c n a⟩
    (hasTeam_askedOut s c n a) hd hc
  have hdone := moveEnds_of_same (t := u.swapDone a m) rfl rfl hends
  rwa [moveEnds, if_pos h0] at hdone

end SwapOut

end Sys2Proof.Proofs
end

section
/-! SUPPORT. How a team comes back to a core (R127, R130, R132, R142, R168). -/

namespace Sys2Proof.Proofs

open Sys2Proof Machine Laws Forms Statements

section Restore

variable {s t u : State} {c n a : Nat}

/-! ### The parts of a restore -/

theorem resident_makeResident (s : State) (c a : Nat) : Resident s ((s.makeResident c a).getD s) := by
  have hadd : ∀ k : Core, k.svc = (s.core c).svc → k.groups = (s.core c).groups → k.teams = (s.core c).teams →
      Resident s (s.setCore c k) := fun k hs hg ht => by
    refine resident_of_core rfl fun d => ?_
    rw [core_setCore]
    split <;> rename_i hd
    · rw [hd]
      exact ⟨hs, hg, ht⟩
    · exact ⟨rfl, rfl, rfl⟩
  unfold State.makeResident
  dsimp only
  split
  · exact resident_refl s
  · split
    · exact hadd _ rfl rfl rfl
    · split
      · exact hadd _ rfl rfl rfl
      · exact resident_refl s

theorem quiet_makeResident (s : State) (c a : Nat) : Quiet s ((s.makeResident c a).getD s) := by
  unfold State.makeResident
  dsimp only
  split
  · exact quiet_refl s
  · split
    · exact quiet_setCore _ _ _
    · split
      · exact quiet_setCore _ _ _
      · exact quiet_refl s

theorem teams_makeResident (s : State) (c a : Nat) : (((s.makeResident c a).getD s).core c).teams = (s.core c).teams := by
  unfold State.makeResident
  dsimp only
  split
  · rfl
  · split
    · rw [Option.getD_some, core_setCore_same]
    · split
      · rw [Option.getD_some, core_setCore_same]
      · rfl

theorem resident_restoreSlots {g : Nat} (hg : g ≠ Config.supervisorSlot) (s : State) (c off : Nat) (va : Word) (r : Rec) :
    Resident s (s.restoreSlots c g off va r) := by
  have one : ∀ (s : State) (n : Nat), Resident s (
      match r.slot (off + 32 * n) s.turn (r.word (off + 0x78 + 8 * n)) with
      | some y => s.onGroup c g fun x => x.setSlot n { y with asked := s.nextTag }
      | none => s.badSlot c g (va + BitVec.ofNat 64 (off + 32 * n))) := fun s n => by
    split
    · exact resident_onGroup _ hg
    · unfold State.badSlot
      exact resident_trans (resident_haltTeam _ _ _ _ _) (resident_addMsg _ _ _)
  unfold State.restoreSlots
  exact resident_trans (one s 0) (one _ 1)

theorem resident_restoreEntry (s : State) (c n : Nat) (slots : List (Nat × Nat)) (frames : List (BitVec 32 × BitVec 8 × Store Word))
    (cows : List (BitVec 32)) (e : Landing) : Resident s (s.restoreEntry c n slots frames cows e) := by
  unfold State.restoreEntry
  dsimp only
  split
  · exact resident_refl s
  · exact resident_trans (resident_onCore (s := s) (c := c) (f := fun k => { k with landseq := k.landseq + 1 })
      fun _ => ⟨rfl, rfl, rfl⟩) (resident_setEntry _ _ _ _)

theorem resident_restoreOp (s : State) (c n : Nat) (slots : List (Nat × Nat)) (op : Op) : Resident s (s.restoreOp c n slots op) := by
  unfold State.restoreOp
  split
  · exact resident_refl s
  · rename_i e _
    dsimp only
    refine resident_trans ?_ (resident_setToken _ _ _ _)
    refine resident_trans ?_ (resident_setToken _ _ _ _)
    refine resident_trans (resident_forwardsEnd s c e) ?_
    refine resident_of_cores ?_ ?_ <;> rfl

theorem resident_settleRestored (s : State) (op : Op) : Resident s (s.settleRestored op) := by
  unfold State.settleRestored
  split
  · split
    · exact resident_cancelOp _ _ _
    · split
      · exact resident_resumeOp _ _ _
      · exact resident_refl s
  · exact resident_refl s

theorem resident_acquire (s : State) (c : Nat) : Resident s (s.acquire c) := by
  unfold State.acquire
  refine resident_trans (resident_onCore (s := s) (c := c) (f := fun k => { k with clean := [], icache := [] })
    fun _ => ⟨rfl, rfl, rfl⟩) ?_
  refine resident_of_cores ?_ ?_ <;> rfl

/-! ### A team that is killed as it comes back -/

theorem resident_killGroup {g : Nat} (hg : g ≠ Config.supervisorSlot) (s : State) (c : Nat) : Resident s (s.killGroup c g) := by
  unfold State.killGroup
  dsimp only
  refine resident_trans ?_ (resident_onCore fun _ => ⟨rfl, rfl, rfl⟩)
  refine resident_trans ?_ (resident_onGroup _ hg)
  refine resident_of_cores ?_ ?_ <;> rfl

theorem steady_killHere (s : State) (c n : Nat) : Steady s (s.killHere c n) := by
  have hgroups : ∀ g ∈ (s.groupsOf c n).map (·.1), g ≠ Config.supervisorSlot := fun g hg => by
    obtain ⟨x, hx, rfl⟩ := List.mem_map.mp hg
    exact gslot_of_mem_groupsOf hx
  unfold State.killHere
  extract_lets x gs s1 s2 s3
  have h1 : Resident s s1 := resident_foldl (fun s x => by
    dsimp only
    split
    · exact resident_freeEntry _ _ _
    · exact resident_refl s) _ _
  have h2 : Resident s1 s2 := resident_foldl_mem gs (fun s g hg => resident_killGroup (hgroups g hg) s c) s1
  have h3 : Resident s2 s3 := resident_foldl (fun s (x : Nat × Nat × Op) => resident_requestCancel s x.1 x.2.1) _ s2
  have h4 := resident_unhalt s3 c n fun r => r != .dump && r != .late
  exact steady_trans (resident_trans (resident_trans (resident_trans h1 h2) h3) h4).toSteady
    (steady_foldl_mem gs (fun s g hg => steady_endIfEmpty (hgroups g hg) s c) _)

/-! ### The restore -/

theorem pick_mem {α : Type} {s : State} {k : Nat} {l : List α} (h : l ≠ []) : ∃ x, s.pick k l = some x ∧ x ∈ l := by
  have hlt : Config.choice k s.turn % l.length < l.length := Nat.mod_lt _ (List.length_pos_iff.mpr h)
  exact ⟨_, List.getElem?_eq_getElem hlt, List.getElem_mem hlt⟩

theorem mem_of_mem_chooseSome {k m i : Nat} {l : List Nat} (h : i ∈ s.chooseSome k m l) : i ∈ l := by
  have h := List.mem_of_mem_take h
  unfold List.rotateLeft at h
  dsimp only at h
  split at h
  · exact h
  · exact (List.mem_append.mp h).elim List.mem_of_mem_drop List.mem_of_mem_take

theorem ne_supervisor_of_chosen {k m : Nat} {i : Nat}
    (h : i ∈ s.chooseSome k m (s.core c).freeSlots ++ (s.core c).endedKeys) : i ≠ Config.supervisorSlot := by
  rcases List.mem_append.mp h with h | h
  · have hi := mem_of_mem_chooseSome h
    exact Nat.ne_of_lt (List.mem_range.mp (List.mem_filter.mp hi).1)
  · exact ne_supervisor_of_endedKeys h

theorem of_any_some {α : Type} {p : α → Bool} {o : Option α} (h : o.any p = true) : ∃ y, o = some y ∧ p y = true := by
  cases o with
  | none => cases h
  | some y => exact ⟨y, rfl, h⟩

/-- A restore places its team at a free index; what follows keeps the teams that are here, unless the team was killed. -/
theorem restore_spec (s : State) (c a : Nat) (va : Word) (r : Rec) : ∃ x v,
    Resident (((s.makeResident c a).getD s).setTeam c ((((s.makeResident c a).getD s).pick 5 (s.core c).freeTeams).getD 0) x) v
    ∧ (s.restore c a va r = v ∨ (∃ y ∈ s.saved, y.killed = true) ∧ ∃ n, s.restore c a va r = v.killHere c n) := by
  have hfree : (((s.makeResident c a).getD s).core c).freeTeams = (s.core c).freeTeams := by
    rw [Core.freeTeams, teams_makeResident]
    rfl
  have hsaved := (quiet_makeResident s c a).saved
  rw [← hfree, ← hsaved]
  unfold State.restore
  extract_lets s0 ti gs offs kept gslots slots t ops was halts x s1 s2 s3 s4 s5 s6 s7 s8 s9 s10 s11
  have hslots : ∀ y ∈ kept.zip gslots, y.2 ≠ Config.supervisorSlot := fun y hy =>
    ne_supervisor_of_chosen (List.of_mem_zip hy).2
  have hnames : ∀ y ∈ slots, y.2 ≠ Config.supervisorSlot := fun y hy => ne_supervisor_of_chosen (List.of_mem_zip hy).2
  have h2 : Resident s1 s2 := resident_foldl_mem _ (fun s y hy => resident_setGroup (.inl (hslots y hy))) s1
  have h3 : Resident s2 s3 := resident_foldl_mem _ (fun s y hy => by
    dsimp only
    split
    · exact resident_restoreSlots (hslots y hy) _ _ _ _ _
    · exact resident_refl s) s2
  have h4 : Resident s3 s4 := by
    unfold s4
    clear_value was
    split
    · exact resident_foldl_mem _ (fun s y hy => resident_onGroup _ (hnames y hy)) s3
    · exact resident_refl s3
  have h5 : Resident s4 s5 := resident_foldl (fun s i => resident_restoreEntry _ _ _ _ _ _ _) _ s4
  have h6 : Resident s5 s6 := resident_foldl (fun s op => resident_restoreOp _ _ _ _ _) _ s5
  have h7 : Resident s6 s7 := resident_foldl (fun s op => resident_settleRestored _ _) _ s6
  have h8 : Resident s7 s8 := by refine resident_of_cores ?_ ?_ <;> rfl
  have h9 : Resident s8 s9 := resident_acquire s8 c
  have h10 : Resident s9 s10 := by
    unfold s10
    split
    · exact resident_unholdEntries _ _ _
    · exact resident_refl s9
  have h11 : Resident s10 s11 := by
    unfold s11
    split
    · exact resident_haltTeam _ _ _ _ _
    · exact resident_refl s10
  have hall : Resident s1 s11 := resident_trans h2 (resident_trans h3 (resident_trans h4 (resident_trans h5 (resident_trans h6
    (resident_trans h7 (resident_trans h8 (resident_trans h9 (resident_trans h10 h11))))))))
  refine ⟨_, s11, hall, ?_⟩
  by_cases hk : was.any SavedTeam.killed = true
  · rw [if_pos hk]
    refine .inr ⟨?_, ti, rfl⟩
    obtain ⟨y, hy, hyk⟩ := of_any_some hk
    exact ⟨y, List.mem_of_find?_eq_some hy, hyk⟩
  · rw [if_neg hk]
    exact .inl rfl

end Restore

/-! ### Swap-in -/

section SwapIn

variable {s t u : State} {c n a m : Nat} {va : Word} {r : Res Nat}

/-- A team comes to a core; one that was killed while it stood saved need not stay. -/
structure TeamComes (s t : State) (c : Nat) : Prop extends Steady s t where
  come : noneKilled s → hasCome s t c

theorem restore_comes (s : State) (c a : Nat) (va : Word) (r : Rec) (hfree : (s.core c).freeTeams ≠ []) :
    TeamComes s (s.restore c a va r) c := by
  obtain ⟨x, v, hv, hor⟩ := restore_spec s c a va r
  obtain ⟨n, hn, hmem⟩ := pick_mem (s := (s.makeResident c a).getD s) (k := 5) hfree
  rw [hn, Option.getD_some] at hv
  have hsteady : Steady s v := steady_trans (steady_trans (resident_makeResident s c a).toSteady (steady_setTeam _ _ _ _)) hv.toSteady
  rcases hor with he | ⟨⟨y, hy, hk⟩, k, he⟩ <;> rw [he]
  · refine ⟨hsteady, fun _ => ⟨n, ?_, ?_, (hv.team c n (hasTeam_setTeam_same _ _ _ _)).1⟩⟩
    · exact List.mem_range.mp (List.mem_filter.mp hmem).1
    · simpa [State.hasTeam] using (List.mem_filter.mp hmem).2
  · exact ⟨steady_trans hsteady (steady_killHere v c k), fun h => absurd hk (by rw [h y hy]; decide)⟩

theorem teamComes_of_served (h : Served s t) (k : TeamComes t u c) : TeamComes s u c := by
  obtain ⟨hsteady, hcome⟩ := k
  refine ⟨steady_trans (resident_of_aside h.toAside).toSteady hsteady, fun hk => ?_⟩
  obtain ⟨n, hn, hnot, hthere⟩ := hcome fun x hx => hk x (h.saved ▸ hx)
  refine ⟨n, hn, ?_, hthere⟩
  rwa [State.hasTeam, teams_of_aside h.toAside] at hnot

theorem teamComes_trans (h : TeamComes s t c) (k : Resident t u) : TeamComes s u c := by
  obtain ⟨hsteady, hcome⟩ := h
  refine ⟨steady_trans hsteady k.toSteady, fun hk => ?_⟩
  obtain ⟨n, hn, hnot, hthere⟩ := hcome hk
  exact ⟨n, hn, hnot, (k.team c n hthere).1⟩

theorem freeTeams_of_canRestore {r : Rec} (h : s.canRestore c a r = true) : (s.core c).freeTeams ≠ [] := by
  unfold State.canRestore at h
  simp only [Bool.and_eq_true, Bool.not_eq_true'] at h
  intro hnil
  simp [hnil] at h

/-- A restore is all or nothing: where its status is not 0, the state stays as it is. -/
theorem swapIn_spec (h : s.swapIn c a va = (u, r)) : (r = .ok 0 ∧ TeamComes s u c) ∨ (r ≠ .ok 0 ∧ u = s) := by
  unfold State.swapIn at h
  dsimp only at h
  have h1 := served_fetch s (s.svcAgent c a) va 0x200
  split at h <;> rename_i e <;> rw [e] at h1
  · split at h
    · obtain ⟨rfl, rfl⟩ := Prod.mk.inj h
      exact .inr ⟨by simp, rfl⟩
    · rename_i s1 hd _
      dsimp only at h1
      have h2 := served_trans h1 (served_fetch s1 (s.svcAgent c a) va (Rec.num hd.toArray 0x78 8))
      split at h <;> rename_i e' <;> rw [e'] at h2
      · split at h <;> rename_i hcan
        · obtain ⟨rfl, rfl⟩ := Prod.mk.inj h
          refine .inl ⟨rfl, teamComes_of_served h2 (restore_comes _ _ _ _ _ ?_)⟩
          rw [Core.freeTeams, teams_of_aside h2.toAside]
          exact freeTeams_of_canRestore hcan
        · obtain ⟨rfl, rfl⟩ := Prod.mk.inj h
          exact .inr ⟨by simp, rfl⟩
      · obtain ⟨rfl, rfl⟩ := Prod.mk.inj h
        exact .inr ⟨by simp, rfl⟩
      · rename_i hok _
        obtain ⟨rfl, rfl⟩ := Prod.mk.inj h
        exact .inr ⟨bind_ne_ok (fun x hx => hok _ (by rw [hx])) 0, rfl⟩
  · obtain ⟨rfl, rfl⟩ := Prod.mk.inj h
    exact .inr ⟨by simp, rfl⟩
  · rename_i hok _
    obtain ⟨rfl, rfl⟩ := Prod.mk.inj h
    exact .inr ⟨bind_ne_ok (fun x hx => hok _ (by rw [hx])) 0, rfl⟩

theorem served_recordIn (s : State) (c k : Nat) (va : Word) (l : List Nat) : Served s (s.recordIn c k va l).1 := by
  induction l generalizing s with
  | nil => exact served_refl s
  | cons b l ih =>
    unfold State.recordIn
    have h := served_findSlip s (s.svcAgent c b) (fun y => y.state == k && y.record == va) slipSlots (s.regs c b).slip
    split <;> rename_i e <;> rw [e] at h
    · exact h
    · exact h
    · exact h
    · exact served_trans h (ih _)

theorem served_recordCtx (s : State) (c : Nat) (va : Word) : Served s (s.recordCtx c va).1 := by
  unfold State.recordCtx
  dsimp only
  have h := served_recordIn s c 2 va ((s.ctxs.filter fun e => e.2.exists_).map (·.1))
  split
  · rename_i e
    rw [e] at h
    exact served_trans h (served_recordIn _ _ _ _ _)
  · exact h

/-- `team.in` as far as it goes: it brings a team, or only looks for its record. -/
theorem tryTeamIn_spec (h : s.tryTeamIn c va = (u, r)) : (r = .ok 0 ∧ TeamComes s u c) ∨ (r ≠ .ok 0 ∧ Served s u) := by
  unfold State.tryTeamIn at h
  have h1 := served_recordCtx s c va
  split at h <;> rename_i e <;> rw [e] at h1
  · obtain ⟨rfl, rfl⟩ := Prod.mk.inj h
    exact .inr ⟨by simp, h1⟩
  · rcases swapIn_spec h with ⟨hr, hc⟩ | ⟨hr, rfl⟩
    · exact .inl ⟨hr, teamComes_of_served h1 hc⟩
    · exact .inr ⟨hr, h1⟩
  · rename_i hnone hsome
    obtain ⟨rfl, rfl⟩ := Prod.mk.inj h
    refine .inr ⟨bind_ne_ok (fun x hx => ?_) 0, h1⟩
    cases x with
    | none => exact hnone (by rw [hx])
    | some x => exact hsome _ (by rw [hx])

/-- A swap-in by the supervisor ends with 0 where it has brought the team, and then alone. -/
theorem trySwapIn_spec {p : SlipSlot → Bool} (h : s.trySwapIn c a p = (u, r)) : r = .ok 0 → TeamComes s u c := by
  unfold State.trySwapIn at h
  dsimp only at h
  have h1 := served_findSlip s (s.svcAgent c a) (fun y => y.state == 1 && p y) slipSlots (s.regs c a).slip
  split at h <;> rename_i e <;> rw [e] at h1
  · obtain ⟨rfl, rfl⟩ := Prod.mk.inj h
    exact fun hr => absurd hr (by simp)
  · rename_i s1 y
    dsimp only at h1
    split at h
    · obtain ⟨rfl, rfl⟩ := Prod.mk.inj h
      exact fun hr => absurd hr (by simp)
    · have h2 := served_trans h1 (served_setSlip s1 (s.svcAgent c a) y 2)
      split at h <;> rename_i e' <;> rw [e'] at h2
      · rename_i s2 _
        split at h <;> rename_i e''
        · obtain ⟨rfl, rfl⟩ := Prod.mk.inj h
          rcases swapIn_spec e'' with ⟨-, hc⟩ | ⟨hr, -⟩
          · exact fun _ => teamComes_trans (teamComes_of_served h2 hc) (resident_of_aside (served_setSlip _ _ _ _).toAside)
          · exact absurd rfl hr
        · rename_i hne
          obtain ⟨rfl, rfl⟩ := Prod.mk.inj h
          exact fun hr => absurd hr hne
      · obtain ⟨rfl, rfl⟩ := Prod.mk.inj h
        exact fun hr => absurd hr (by simp)
      · rename_i hok _
        obtain ⟨rfl, rfl⟩ := Prod.mk.inj h
        exact fun hr => absurd hr (bind_ne_ok (fun x hx => hok _ (by rw [hx])) 0)
  · obtain ⟨rfl, rfl⟩ := Prod.mk.inj h
    exact fun hr => absurd hr (by simp)
  · rename_i hnone hsome _
    obtain ⟨rfl, rfl⟩ := Prod.mk.inj h
    refine fun hr => absurd hr (bind_ne_ok (fun x hx => ?_) 0)
    cases x with
    | none => exact hnone (by rw [hx])
    | some x => exact hsome _ (by rw [hx])

theorem swapInSlot_comes {p : SlipSlot → Bool} (h : s.swapInSlot c a p = (u, some 0)) : TeamComes s u c := by
  unfold State.swapInSlot at h
  split at h <;> rename_i e
  · obtain ⟨rfl, hm⟩ := Prod.mk.inj h
    obtain rfl := Option.some.inj hm
    exact teamComes_trans (trySwapIn_spec e rfl) (resident_svcDone _ _)
  · cases (Prod.mk.inj h).2
  · cases (Prod.mk.inj h).2

end SwapIn

/-! ### `team.in` and the swap-ins -/

section TeamIn

variable {s u : State} {c n a m : Nat} {w : Word}

theorem exec_teamIn {o : PrivOp} {r : Res Nat} (h : supervises (.teamIn o) o s)
    (hu : s.tryTeamIn s.cur.core (s.me.opt o.a) = (u, r)) (hr : r = .ok m ∨ (∃ x, r = .no x) ∧ m = 3) :
    exec (.teamIn o) s = .next ((u.svcDone s.cur.core).answerPriv (.teamIn o) o.d m) := by
  obtain ⟨hiss, -, ha⟩ := h
  have he : exec (.teamIn o) s = execTeamIn o s := rfl
  unfold execTeamIn at he
  rw [exec_of_active he hiss ha]
  dsimp only
  rw [hu]
  rcases hr with rfl | ⟨⟨x, rfl⟩, rfl⟩ <;> rfl

theorem teamIn_gives {o : PrivOp} {r : Res Nat} (h : supervises (.teamIn o) o s)
    (hu : s.tryTeamIn s.cur.core (s.me.opt o.a) = (u, r)) (hr : r = .ok m ∨ (∃ x, r = .no x) ∧ m = 3) :
    privGives (.teamIn o) o s (BitVec.ofNat 64 m) fun t => (m = 0 → r = .ok 0 → noneKilled s → hasCome s t s.cur.core)
      ∧ (m ≠ 0 → ∀ n, (t.core n).teams = (s.core n).teams) := by
  have hdone := resident_svcDone u s.cur.core
  have hteams : ∀ n, ((u.svcDone s.cur.core).core n).teams = (u.core n).teams := teams_onCore _ _ fun _ => by rfl
  have hne : m ≠ 0 → r ≠ .ok 0 := fun hm e => by
    rcases hr with rfl | ⟨⟨x, rfl⟩, -⟩
    · exact hm (Res.ok.inj e)
    · cases e
  rcases tryTeamIn_spec hu with ⟨hr0, hc⟩ | ⟨hr0, hs⟩
  · obtain ⟨hsteady, hcome⟩ := teamComes_trans hc hdone
    refine privGives_of_answerPriv h.2.1 (exec_teamIn h hu hr) hsteady fun t ht => ⟨fun _ _ hk => ?_, fun hm => absurd hr0 (hne hm)⟩
    obtain ⟨n, hn, hnot, hthere⟩ := hcome hk
    refine ⟨n, hn, hnot, ?_⟩
    rwa [State.hasTeam, teams_of_elsewhereSame ht]
  · refine privGives_of_answerPriv h.2.1 (exec_teamIn h hu hr)
      (steady_trans (resident_of_aside hs.toAside).toSteady hdone.toSteady) fun t ht => ⟨fun _ e => absurd e hr0, fun _ n => ?_⟩
    rw [teams_of_elsewhereSame ht, hteams, teams_of_aside hs.toAside]

/-- The core that SWAPREQ names; 255 leaves it to the device. -/
def swapCore (w : Word) (c : Nat) : Nat := if (w.extractLsb' 32 8).toNat = 255 then c else (w.extractLsb' 32 8).toNat

/-- A team that the host asks to come in. -/
def askedIn (s : State) (a : Nat) (w : Word) (c : Nat) : State :=
  s.onCtx a fun y => { y with
    swapstat := 0x100, swapAsk := some (swapCore w c, (s.ctx a).swapl, (w.extractLsb' 0 32).toNat) }

theorem goOnSwap_askedIn (htrip : s.tripped = false) (hc : (askedIn s a w c).swapInSlot (swapCore w c) a
      (fun y => y.launch == (s.ctx a).swapl && y.tid == (w.extractLsb' 0 32).toNat) = (u, some m)) :
    (askedIn s a w c).goOnSwap a = (u.onCtx a fun y => { y with swapAsk := none }).swapDone a m := by
  have hask : ((askedIn s a w c).ctx a).swapAsk = some (swapCore w c, (s.ctx a).swapl, (w.extractLsb' 0 32).toNat) := by
    rw [askedIn, ctx_onCtx, if_pos rfl]
  have ht : (askedIn s a w c).tripped = false := htrip
  unfold State.goOnSwap
  rw [hask]
  dsimp only
  rw [if_neg (by simp [ht]), hc]

theorem swapreqIn_moves (hwf : wellFormed (.swapreqIn a w c) = true) (hb : s.boot ≠ .ioOnly) (htrip : s.tripped = false)
    (hbusy : s.swapBusy a = false) (hw : w.extractLsb' 40 2 = 2) (hk : swapCore w c < 192)
    (hc : (askedIn s a w c).swapInSlot (swapCore w c) a
      (fun y => y.launch == (s.ctx a).swapl && y.tid == (w.extractLsb' 0 32).toNat) = (u, some m)) :
    ∃ t, steps (.swapreqIn a w c) s t ∧ (t.ctx a).swapstat = BitVec.ofNat 64 m
      ∧ (m = 0 → noneKilled s → hasCome s t (swapCore w c)) := by
  have he : exec (.swapreqIn a w c) s = execSwapreqIn a w c s := rfl
  unfold execSwapreqIn at he
  have hsteps := steps_of_reachBar hwf hb he
  dsimp only at hsteps
  rw [← swapCore, if_neg (by simp [hbusy, hw]), if_neg (Nat.not_le.mpr hk), ← askedIn, goOnSwap_askedIn htrip hc] at hsteps
  refine ⟨_, hsteps, swapstat_swapDone _ _ _, fun hm hnone => ?_⟩
  subst hm
  obtain ⟨-, hcome⟩ := teamComes_of_served (s := s) (t := askedIn s a w c) ⟨aside_onCtx _ _ _, quiet_onCtx _ _ _⟩
    (swapInSlot_comes hc)
  exact hcome hnone

theorem dispatch_moves (hwf : wellFormed (.teamSwapInDispatch a n c) = true) (hn : n < 8192) (hs : s.serving c = true)
    (hc : s.swapInSlot c a (fun y => y.at_ == (s.regs c a).slip + BitVec.ofNat 64 (32 * n)) = (u, some 0)) (hnone : noneKilled s) :
    ∃ t, steps (.teamSwapInDispatch a n c) s t ∧ hasCome s t c := by
  have he : exec (.teamSwapInDispatch a n c) s = execTeamSwapInDispatch a n c s := rfl
  unfold execTeamSwapInDispatch at he
  have hsteps := steps_of_happen hwf he
  dsimp only at hsteps
  rw [if_neg (by rw [hs, slipSlots, decide_eq_false (Nat.not_le.mpr hn)]; decide), hc] at hsteps
  exact ⟨u, hsteps, (swapInSlot_comes hc).come hnone⟩

end TeamIn

end Sys2Proof.Proofs
end

section
/-! SUPPORT. `ctx.save` and `ctx.load` (R141, R166), and the obligation about contexts and teams that move. -/

namespace Sys2Proof.Proofs

open Sys2Proof Machine Laws Forms Statements

/-! ### Blocks of context registers in memory -/

section Blocks

variable {s t : State}

theorem mem_writeMem_of_mem (h : t.mem = s.mem) (p : Nat) (bs : List Byte) : (t.writeMem p bs).mem = (s.writeMem p bs).mem := by
  induction bs generalizing s t p with
  | nil => exact h
  | cons b bs ih => exact ih (congrArg (fun m : Store Byte => m.put blank p b) h) (p + 1)

theorem mem_deviceWrite {bs : List Byte} {pa : Nat} (h : Near pa bs.length) : (s.deviceWrite pa bs).mem = (s.writeMem pa bs).mem := by
  induction bs generalizing s pa with
  | nil => rfl
  | cons b bs ih =>
    have hp : isPeer pa = false := isPeer_of_near (i := 0) h (Nat.succ_pos _)
    have hnext : Near (pa + 1) bs.length := by
      rw [List.length_cons] at h
      unfold Near at *
      omega
    have hb : (s.performByte pa b []).mem = (s.writeByte pa b).mem := by
      simp only [State.performByte, hp, Bool.false_and, Bool.false_eq_true, if_false]
      split <;> rfl
    rw [State.deviceWrite, State.writeMem, ih hnext]
    exact mem_writeMem_of_mem hb _ _

theorem readMem_of_mem (h : t.mem = s.mem) (p n : Nat) : t.readMem p n = s.readMem p n := by
  rw [readMem_eq, readMem_eq]
  simp only [State.readByte, h]

theorem take_readMem (s : State) (p : Nat) {k n : Nat} (h : k ≤ n) : (s.readMem p n).take k = s.readMem p k := by
  rw [readMem_eq, readMem_eq, ← List.map_take, List.take_range, Nat.min_eq_left h]

theorem drop_flatMap_words (f : Nat → Word) (l : List Nat) (k : Nat) :
    (l.flatMap fun i => leBytes 8 (f i).toNat).drop (8 * k) = (l.drop k).flatMap fun i => leBytes 8 (f i).toNat := by
  induction l generalizing k with
  | nil => simp
  | cons x l ih =>
    cases k with
    | zero => rfl
    | succ k =>
      rw [List.flatMap_cons, List.drop_succ_cons, ← ih k, Nat.mul_succ, Nat.add_comm, ← List.drop_drop,
        List.drop_left' (length_leBytes 8 _)]

/-- A word of a block, among its bytes. -/
theorem word_block (r : CtxRegs) {k : Nat} (hk : k < 32) :
    BitVec.ofNat 64 (leNat ((r.block.drop (8 * k)).take 8)) = r.read (0x100 + k) := by
  have hdrop : (List.range 32).drop k = k :: (List.range 32).drop (k + 1) := by
    rw [List.drop_eq_getElem_cons (by simpa using hk), List.getElem_range]
  rw [CtxRegs.block, drop_flatMap_words fun i => r.read (0x100 + i), hdrop, List.flatMap_cons]
  exact ofNat_leNat_take_leBytes _ _

theorem length_block (r : CtxRegs) : r.block.length = 256 := by
  rw [CtxRegs.block, length_flatMap_words _ fun k => (r.read (0x100 + k)).toNat, List.length_range]

theorem near_of_ends {pa : Nat} (h : isPeer pa = false) (h' : isPeer (pa + 255) = false) : Near pa 256 := by
  rw [isPeer, Bool.and_eq_false_iff, decide_eq_false_iff_not, decide_eq_false_iff_not] at h h'
  unfold Near peerBase hostBase at *
  omega

/-- The block that a device write leaves off the fabric is read back word for word. -/
theorem read64_deviceWrite_block (s : State) (r : CtxRegs) {pa k : Nat} (h : Near pa 256) (hk : k < 32) :
    (s.deviceWrite pa r.block).read64 (pa + 8 * k) = r.read (0x100 + k) := by
  have hlen := length_block r
  have hmem : (s.deviceWrite pa r.block).mem = (s.writeMem pa r.block).mem := mem_deviceWrite (by rw [hlen]; exact h)
  have hread : (s.writeMem pa r.block).readMem pa 256 = r.block := hlen ▸ readMem_writeMem_same s pa r.block
  have hword : (s.writeMem pa r.block).readMem (pa + 8 * k) 8 = (r.block.drop (8 * k)).take 8 := by
    conv_rhs => rw [← hread, readMem_drop]
    exact (take_readMem _ _ (by omega)).symm
  rw [State.read64, readMem_of_mem hmem, hword, word_block r hk]

end Blocks

/-! ### `ctx.save`, `ctx.load` -/

section CtxMoves

variable {s : State} {o : PrivOp}

theorem exec_ctxSave (h : supervises (.ctxSave o) o s) (hpa : (s.me.opt o.a).toNat % 64 = 0) : exec (.ctxSave o) s
    = .next ((s.writeBlock (s.me.opt o.a).toNat (s.regs s.cur.core ((s.me.opt o.b).extractLsb' 0 16).toNat)).advance (.ctxSave o)) := by
  obtain ⟨hiss, -, ha⟩ := h
  have he : exec (.ctxSave o) s = execCtxSave o s := rfl
  unfold execCtxSave at he
  rw [exec_of_active he hiss ha]
  dsimp only
  rw [if_neg (by simp [hpa])]

theorem ctxSave_memory (h : supervises (.ctxSave o) o s) (hpa : (s.me.opt o.a).toNat % 64 = 0)
    (hb : blockOf (s.me.opt o.a).toNat = none) (hp : isPeer (s.me.opt o.a).toNat = false)
    (hp' : isPeer ((s.me.opt o.a).toNat + 255) = false) : privGives (.ctxSave o) o s 0 fun t => ∀ k, k < 32 →
      t.read64 ((s.me.opt o.a).toNat + 8 * k)
        = (s.regs s.cur.core ((s.me.opt o.b).extractLsb' 0 16).toNat).read (0x100 + k) := by
  have hexec := exec_ctxSave h hpa
  rw [State.writeBlock, hb] at hexec
  dsimp only at hexec
  refine privGives_of_advance h.2.1 hexec (resident_of_aside (aside_deviceWrite _ _ _)).toSteady (no_dst h.1 (by simp))
    fun t _ ht k hk => ?_
  have hmem : t.mem = (s.deviceWrite (s.me.opt o.a).toNat
      (s.regs s.cur.core ((s.me.opt o.b).extractLsb' 0 16).toNat).block).mem := by rw [ht.1]
  rw [State.read64, readMem_of_mem hmem]
  exact read64_deviceWrite_block s _ (near_of_ends hp hp') hk

theorem ctxSave_block {b : Nat} (h : supervises (.ctxSave o) o s) (hpa : (s.me.opt o.a).toNat % 64 = 0)
    (hb : blockOf (s.me.opt o.a).toNat = some b) : privGives (.ctxSave o) o s 0 fun t =>
      (t.ctx b).master = s.regs s.cur.core ((s.me.opt o.b).extractLsb' 0 16).toNat := by
  have hexec := exec_ctxSave h hpa
  rw [State.writeBlock, hb] at hexec
  dsimp only at hexec
  refine privGives_of_advance h.2.1 hexec (resident_of_aside (aside_onCtx _ _ _)).toSteady (no_dst h.1 (by simp))
    fun t _ ht => ?_
  obtain ⟨-, -, -, hctx⟩ := ht
  rw [hctx b, ctx_onCtx, if_pos rfl]

theorem regs_of_elsewhereSame {u : State} (h : s.elsewhereSame u) (c a : Nat) : u.regs c a = s.regs c a := by
  obtain ⟨-, hcore, -, hctx⟩ := h
  rw [State.regs, hcore c, hctx a]
  rfl

/-- A core that has loaded a context's registers from a block. -/
def loadedCore (k : Core) (a : Nat) (r : CtxRegs) : Core :=
  { k with
    copies := k.copies.set a r,
    credit := if (k.copies.find? a).isNone then (List.range 4).foldl (fun m n => m.set (4 * a + n) 0) k.credit else k.credit }

theorem exec_ctxLoad (h : supervises (.ctxLoad o) o s) (hpa : (s.me.opt o.a).toNat % 64 = 0)
    (hroom : ((s.core s.cur.core).copies.find? ((s.me.opt o.b).extractLsb' 0 16).toNat).isSome = true
      ∨ ((s.me.opt o.b).extractLsb' 0 16).toNat = 0 ∨ (s.core s.cur.core).residents.length < 16) : exec (.ctxLoad o) s
    = .next ((s.setCore s.cur.core (loadedCore (s.core s.cur.core) ((s.me.opt o.b).extractLsb' 0 16).toNat
        (s.readBlock (s.me.opt o.a).toNat))).advance (.ctxLoad o)) := by
  obtain ⟨hiss, -, ha⟩ := h
  have he : exec (.ctxLoad o) s = execCtxLoad o s := rfl
  unfold execCtxLoad at he
  rw [exec_of_active he hiss ha]
  dsimp only
  rw [if_neg (by simp [hpa]), if_neg]
  · rfl
  · rw [Bool.and_eq_true, Bool.and_eq_true, Option.isNone_iff_eq_none, bne_iff_ne, decide_eq_true_iff]
    rintro ⟨⟨hnone, hne⟩, hfull⟩
    rcases hroom with h | h | h
    · rw [hnone] at h
      cases h
    · exact hne h
    · omega

theorem ctxLoad_gives (h : supervises (.ctxLoad o) o s) (hpa : (s.me.opt o.a).toNat % 64 = 0)
    (hroom : ((s.core s.cur.core).copies.find? ((s.me.opt o.b).extractLsb' 0 16).toNat).isSome = true
      ∨ ((s.me.opt o.b).extractLsb' 0 16).toNat = 0 ∨ (s.core s.cur.core).residents.length < 16) :
    privGives (.ctxLoad o) o s 0 fun t =>
      t.regs s.cur.core ((s.me.opt o.b).extractLsb' 0 16).toNat = s.readBlock (s.me.opt o.a).toNat
        ∧ ∀ k, k ≠ ((s.me.opt o.b).extractLsb' 0 16).toNat → t.regs s.cur.core k = s.regs s.cur.core k := by
  have hexec := exec_ctxLoad h hpa hroom
  generalize ((s.me.opt o.b).extractLsb' 0 16).toNat = a at *
  generalize s.readBlock (s.me.opt o.a).toNat = r at *
  have hsteady : Steady s (s.setCore s.cur.core (loadedCore (s.core s.cur.core) a r)) := by
    refine steady_of_core rfl fun d => ?_
    rw [core_setCore]
    split <;> rename_i hd
    · rw [hd]
      exact ⟨rfl, rfl⟩
    · exact ⟨rfl, rfl⟩
  have hregs : ∀ k, (s.setCore s.cur.core (loadedCore (s.core s.cur.core) a r)).regs s.cur.core k
      = (((s.core s.cur.core).copies.set a r).find? k).getD (s.ctx k).master := fun k => by
    rw [State.regs, core_setCore_same]
    rfl
  refine privGives_of_advance h.2.1 hexec hsteady (no_dst h.1 (by simp)) fun t _ ht => ⟨?_, fun k hk => ?_⟩
  · rw [regs_of_elsewhereSame ht, hregs, find_set_same]
    rfl
  · rw [regs_of_elsewhereSame ht, hregs, find_set_ne _ _ hk]
    rfl

end CtxMoves

/-- Settles O46: a move that ends leaves the team saved or where it was, a restore places it at a free index, and a block holds
the registers of a context word for word. -/
theorem contextsAndTeamsMove : Obligations.ContextsAndTeamsMove := by
  unfold Obligations.ContextsAndTeamsMove
  constructor
  · intro s o c pa a n
    exact ⟨ctxSave_memory, fun _ => ctxSave_block, ctxLoad_gives, teamOut_absent, fun _ _ => teamOut_moves,
      teamOut_unsaved, fun _ _ _ => teamIn_gives⟩
  · intro s u c n m a w
    refine ⟨rotation_moves, swapreqOut_moves, ?absent, ?unsaved, swapreqIn_moves, dispatch_moves⟩
    case absent =>
      intro hwf hb hbusy hw hf
      exact ⟨_, swapreqOut_absent hwf hb hbusy hw hf, swapstat_swapDone s a 6, rfl⟩
    case unsaved =>
      intro hwf hb htrip hbusy hw hf ha hm hd hu
      exact ⟨_, (swapreqOut_found hwf hb hbusy hw hf ha hm hd htrip).1 hu, swapstat_swapDone s a 3, rfl⟩

end Sys2Proof.Proofs
end
